-- ==== Sys2Proof/Word.lean ====
section
/-!
DEFINITION. The word types of the AK3 module: bytes, 32-bit register lanes, 64-bit instruction words, lane maps.
-/
namespace Sys2Proof

/-- One byte of memory. -/
abbrev Byte := BitVec 8

/-- One register lane, or a scalar (00_scope R5, 07_registers R159, R162). -/
abbrev Word := BitVec 32

/-- An instruction word, a clause header, or a 64-bit value (02_instruction_words R17, R35). -/
abbrev DWord := BitVec 64

/-- A lane map: bit `i` stands for lane `i` (00_scope R8). -/
abbrev Lanes := BitVec 32

/-- A virtual address of 48 bits (03_memory_tiers R60). -/
abbrev VAddr := BitVec 48

/-- The map that holds every lane. -/
abbrev fullMap : Lanes := 0xFFFFFFFF#32

end Sys2Proof
end

