-- ==== Sys2Proof/Machine/Bits.lean ====
section
/-!
DEFINITION. Bit-field, sign-extension and byte-order helpers used by the decoder and by every meaning.
-/
namespace Sys2Proof.Machine

/-- A Boolean as one bit. -/
def bit (b : Bool) : Nat := if b then 1 else 0

/-- The signed value of the low `w` bits of `x` (00_scope R13, `sext`). -/
def sextNat (w x : Nat) : Int :=
  let y := x % 2 ^ w
  if 2 * y ≥ 2 ^ w then (y : Int) - 2 ^ w else (y : Int)

/-- An integer modulo `2^w`. -/
def wrapNat (w : Nat) (x : Int) : Nat := (x % (2 ^ w : Nat)).toNat

/-- Bits `hi` to `lo` of `x`, as an unsigned integer (00_scope R13). -/
def bitsOf (x hi lo : Nat) : Nat := x / 2 ^ lo % 2 ^ (hi + 1 - lo)

/-- Bit `i` of `x`. -/
def bitOf (x i : Nat) : Bool := x / 2 ^ i % 2 == 1

/-- Pack fields, given from the least significant upwards, as pairs of a width and a value. -/
def pack : List (Nat × Nat) → Nat
  | [] => 0
  | (w, v) :: r => v % 2 ^ w + 2 ^ w * pack r

/-- Read fields of the given widths, from the least significant upwards. -/
def unpack : List Nat → Nat → List Nat
  | [], _ => []
  | w :: ws, n => n % 2 ^ w :: unpack ws (n / 2 ^ w)

/-- The `n` low bytes of `x`, the least significant first (00_scope R5). -/
def toBytes : Nat → Nat → List Byte
  | 0, _ => []
  | n + 1, x => BitVec.ofNat 8 x :: toBytes n (x / 256)

/-- The value of little-endian bytes (00_scope R5). -/
def ofBytes : List Byte → Nat
  | [] => 0
  | b :: r => b.toNat + 256 * ofBytes r

/-- The map of the lanes that satisfy `p`. -/
def laneMap (p : Nat → Bool) : Lanes := (BitVec.ofBoolListLE ((List.range 32).map p)).setWidth 32

/-- The lanes of a map, in ascending order. -/
def lanesOf (m : Lanes) : List Nat := (List.range 32).filter fun l => m.getLsbD l

/-- Number of lanes in a map (00_scope R13, `popc`). -/
def popcount (m : Lanes) : Nat := (lanesOf m).length

/-- The position of the `k`-th set bit of a map, from 0 at the lowest (07_registers R182). -/
def laneAt (m : Lanes) (k : Nat) : Nat := (lanesOf m).getD k 0

/-- Number of one bits among the low `w` bits of a number. -/
def popcNat (w x : Nat) : Nat := ((List.range w).filter fun i => bitOf x i).length

/-- Ceiling of a division. -/
def cdiv (a b : Nat) : Nat := (a + b - 1) / b

end Sys2Proof.Machine
end

