-- ==== Sys2Proof/Machine/Crc.lean ====
section
/-!
DEFINITION. The CRC-32C of a block's bytes (18_host_and_trust R406): Castagnoli, reflected, initial value and final XOR all ones.
-/
namespace Sys2Proof.Machine

/-- Shift out `n` bits of the reflected register. -/
def crcBits : Nat → Nat → Nat
  | 0, c => c
  | n + 1, c => crcBits n (if c % 2 = 1 then Nat.xor (c / 2) 0x82F63B78 else c / 2)

/-- CRC-32C. -/
def crc32c (l : List Byte) : Word :=
  BitVec.ofNat 32 (Nat.xor (l.foldl (fun c b => crcBits 8 (Nat.xor c b.toNat)) 0xFFFFFFFF) 0xFFFFFFFF)

end Sys2Proof.Machine
end

