-- ==== Sys2Proof/Syntax.lean ====
section
/-!
DEFINITION. The instructions and events of the AK3 module: one constructor of `Instr` per row of the opcode table.
The records below are the bit layouts of the spec's encodings; `WellFormed.lean` says which of their values are legal.
-/
namespace Sys2Proof

/-- A register field (02_instruction_words R36): the mark bit (L or KP), the index bit X, the number. -/
structure RF where
  mark : Bool
  x    : Bool
  num  : BitVec 8
  deriving DecidableEq, Repr

/-- A full word with the generic MOD layout (02_instruction_words R35, R39). -/
structure GenW where
  d      : RF
  a      : RF
  b      : RF
  ty     : BitVec 3
  rm     : BitVec 2
  strict : Bool
  fs     : Bool
  ix     : BitVec 2
  na     : Bool
  nb     : Bool
  sat    : Bool
  ac     : BitVec 2
  bc     : BitVec 2
  opx    : BitVec 4
  deriving DecidableEq, Repr

/-- A full-immediate word (02_instruction_words R41). -/
structure ImmW where
  d      : RF
  a      : RF
  ac     : BitVec 2
  strict : Bool
  ty     : BitVec 3
  imm    : BitVec 24
  deriving DecidableEq, Repr

/-- A form that exists as a full word and as a full-immediate word (02_instruction_words R49, the mark I). -/
inductive GI where
  | reg (w : GenW)
  | imm (w : ImmW)
  deriving DecidableEq, Repr

/-- Conditions of `icmp` and `s.cmp`, in SUB order (08_lane_arithmetic R201). -/
inductive Cc where
  | eq | ne | lt | le | gt | ge
  deriving DecidableEq, Repr

/-- Conditions of `fcmp`, in SUB order (08_lane_arithmetic R207). -/
inductive FCc where
  | eq | ne | lt | le | gt | ge | un | ord
  deriving DecidableEq, Repr

/-- Operators of `scan` and `red`, in SUB order (02_instruction_words R50). -/
inductive XOp where
  | add | min | max | and | or | xor | fadd | fmin | fmax
  deriving DecidableEq, Repr

/-- Operators of the atomics, in SUB order (04_caches_scratchpad R105). -/
inductive AOp where
  | add | min | max | and | or | xor | exch | cas | fadd
  deriving DecidableEq, Repr

/-- Scopes of a fence, in SUB order (06_consistency R140). -/
inductive Scope where
  | warp | team | die | pkg | sys
  deriving DecidableEq, Repr

/-- Direct transfers `bra`, `call` (13_control_flow R290). -/
structure OffW where
  off : BitVec 30
  deriving DecidableEq, Repr

/-- `brx pN, label, jM` (13_control_flow R290). -/
structure BrxW where
  j   : BitVec 3
  p   : BitVec 4
  off : BitVec 30
  deriving DecidableEq, Repr

/-- `jarm jM, label` (13_control_flow R290). -/
structure JarmW where
  j   : BitVec 3
  off : BitVec 30
  deriving DecidableEq, Repr

/-- `jmpi` and `calli` (13_control_flow R290). -/
structure IndW where
  a  : RF
  ac : BitVec 2
  ix : BitVec 2
  deriving DecidableEq, Repr

/-- `exit.spawn sA, n`; the field holds n − 1 (14_execution_model R322). -/
structure SpawnW where
  a : BitVec 6
  n : BitVec 2
  deriving DecidableEq, Repr

/-- `rgn base, mask` (07_registers R174). -/
structure RgnW where
  base : BitVec 8
  mask : BitVec 32
  deriving DecidableEq, Repr

/-- `xset` and `xadd` (07_registers R181). -/
structure IdxW where
  d    : BitVec 2
  a    : BitVec 8
  im   : Bool
  imm8 : BitVec 8
  deriving DecidableEq, Repr

/-- The crossbar layout of `shfl`, `vote`, `scan` and `red` (10_lane_crossbar R229). -/
structure XbW where
  d      : RF
  a      : RF
  b      : RF
  ty     : BitVec 3
  bs     : Bool
  mi     : Bool
  strict : Bool
  bi     : Bool
  ix     : BitVec 2
  opt    : Bool
  msk    : BitVec 10
  deriving DecidableEq, Repr

/-- `rebal` (10_lane_crossbar R238). -/
structure RebalW where
  d      : RF
  a      : RF
  b      : BitVec 8
  strict : Bool
  ix     : BitVec 2
  ts     : BitVec 6
  deriving DecidableEq, Repr

/-- `ld.sp.t` (10_lane_crossbar R240). -/
structure LdtW where
  d   : RF
  a   : BitVec 6
  b   : BitVec 10
  sz  : BitVec 3
  az  : Bool
  fs  : Bool
  ix  : BitVec 2
  off : BitVec 11
  deriving DecidableEq, Repr

/-- The global memory layout (04_caches_scratchpad R95). -/
structure GmW where
  d   : RF
  a   : RF
  b   : RF
  sz  : BitVec 3
  ord : BitVec 2
  sco : BitVec 3
  bp  : Bool
  fs  : Bool
  ix  : BitVec 2
  ow  : BitVec 2
  off : BitVec 6
  deriving DecidableEq, Repr

/-- The scratchpad layout (04_caches_scratchpad R99). -/
structure SpW where
  d    : RF
  a    : RF
  b    : BitVec 10
  sz   : BitVec 3
  ord  : BitVec 2
  az   : Bool
  fs   : Bool
  ix   : BitVec 2
  offl : BitVec 11
  deriving DecidableEq, Repr

/-- `gf.ld` (12_sparse_rows R279). -/
structure GfW where
  d      : RF
  a      : RF
  b      : RF
  hs     : BitVec 6
  fs     : Bool
  ix     : BitVec 2
  sc     : Bool
  bp     : Bool
  strict : Bool
  as     : Bool
  bs     : Bool
  deriving DecidableEq, Repr

/-- The copy layout (05_copy_engine R115). -/
structure CpW where
  d    : BitVec 10
  a    : BitVec 6
  b    : BitVec 10
  tag  : BitVec 6
  rel  : Bool
  shp  : Bool
  li   : Bool
  az   : Bool
  mb   : Bool
  soff : BitVec 9
  deriving DecidableEq, Repr

/-- The tag layout (05_copy_engine R126). -/
structure TagW where
  d   : BitVec 6
  a   : BitVec 6
  mi  : Bool
  xc  : Bool
  ci  : BitVec 2
  imm : BitVec 16
  deriving DecidableEq, Repr

/-- `own.give` and `own.test` (05_copy_engine R128). -/
structure OwnW where
  d    : BitVec 6
  a    : BitVec 6
  nt   : BitVec 7
  az   : Bool
  toff : BitVec 12
  deriving DecidableEq, Repr

/-- `op.claim` and `op.rel` (11_matrix_engine R247). -/
structure ClaimW where
  k   : BitVec 6
  fmt : BitVec 3
  deriving DecidableEq, Repr

/-- `op.st` (11_matrix_engine R248). -/
structure OpStW where
  k      : BitVec 6
  a      : RF
  b      : RF
  sz     : BitVec 3
  strict : Bool
  ix     : BitVec 2
  off    : BitVec 11
  deriving DecidableEq, Repr

/-- `mx.feed` (11_matrix_engine R249). -/
structure FeedW where
  k      : BitVec 6
  a      : RF
  b      : RF
  sr     : Bool
  ss     : BitVec 6
  ix     : BitVec 2
  strict : Bool
  seg    : BitVec 9
  deriving DecidableEq, Repr

/-- `ac.ld` (11_matrix_engine R252). -/
structure AcLdW where
  d   : RF
  a   : BitVec 6
  row : BitVec 9
  cs  : BitVec 4
  rs  : Bool
  fs  : Bool
  deriving DecidableEq, Repr

/-- `ac.clr` (11_matrix_engine R253). -/
structure AcClrW where
  a   : BitVec 6
  row : BitVec 9
  cb  : BitVec 2
  rs  : Bool
  nr  : BitVec 7
  deriving DecidableEq, Repr

/-- `mx.cfg` (11_matrix_engine R256). -/
structure CfgW where
  a   : BitVec 6
  im  : Bool
  cf  : Bool
  imm : BitVec 11
  deriving DecidableEq, Repr

/-- `mx.ip`, `mx.op` and `mx.rw` (11_matrix_engine R255). -/
structure MxW where
  row0 : BitVec 9
  a    : BitVec 6
  b    : BitVec 6
  cb   : BitVec 2
  clr  : Bool
  ae   : Bool
  apt  : BitVec 5
  se   : Bool
  spt  : BitVec 5
  cx   : Bool
  deriving DecidableEq, Repr

/-- `mx.nzs` (12_sparse_rows R271). -/
structure NzsW where
  d   : BitVec 6
  a   : BitVec 6
  b   : BitVec 6
  ae  : Bool
  apt : BitVec 5
  se  : Bool
  spt : BitVec 5
  deriving DecidableEq, Repr

/-- `tw.nlt`; the count field holds count − 1 (16_traversal R365). -/
structure NltW where
  a     : BitVec 6
  first : BitVec 4
  cnt   : BitVec 4
  deriving DecidableEq, Repr

/-- `tw.run` (16_traversal R376). -/
structure TwRunW where
  d  : RF
  a  : RF
  b  : BitVec 6
  st : Bool
  ws : BitVec 6
  deriving DecidableEq, Repr

/-- `tw.ret` (16_traversal R375). -/
structure TwRetW where
  a      : RF
  ac     : BitVec 2
  m      : Bool
  strict : Bool
  deriving DecidableEq, Repr

/-- `tw.cut` (16_traversal R377). -/
structure TwCutW where
  d     : RF
  b     : BitVec 6
  ws    : BitVec 6
  depth : BitVec 8
  deriving DecidableEq, Repr

/-- `tw.resume` (16_traversal R381). -/
structure TwResW where
  a  : RF
  ws : BitVec 6
  deriving DecidableEq, Repr

/-- The rendezvous layout (06_consistency R152). -/
structure RvW where
  a   : BitVec 6
  pt  : BitVec 5
  ln  : Bool
  ci  : Bool
  cnt : BitVec 12
  deriving DecidableEq, Repr

/-- `mbx.post` (14_execution_model R324). -/
structure PostW where
  d : BitVec 6
  a : BitVec 6
  b : BitVec 6
  deriving DecidableEq, Repr

/-- `perf.req` (17_power R389). -/
structure PerfW where
  a  : BitVec 6
  im : Bool
  c  : BitVec 2
  deriving DecidableEq, Repr

/-- `rq.rd` and `rq.wr`: `r` is the scalar read into or written from (15_traps_preemption R337). -/
structure RqW where
  r   : BitVec 6
  a   : BitVec 6
  rs  : Bool
  off : BitVec 12
  deriving DecidableEq, Repr

/-- `trap.drop` (15_traps_preemption R337). -/
structure DropW where
  a : BitVec 6
  b : BitVec 6
  deriving DecidableEq, Repr

/-- `csr.rd` and `csr.wr` (15_traps_preemption R337). -/
structure CsrW where
  r   : BitVec 6
  w64 : Bool
  num : BitVec 12
  deriving DecidableEq, Repr

/-- `ring.post` (15_traps_preemption R337). -/
structure RPostW where
  a    : BitVec 6
  code : BitVec 16
  deriving DecidableEq, Repr

/-- One slot of a pair word (02_instruction_words R43). -/
structure PSlot where
  op     : BitVec 7
  d      : BitVec 8
  a      : BitVec 8
  al     : Bool
  imm    : Bool
  rm     : BitVec 2
  sat    : Bool
  strict : Bool
  kp     : Bool
  deriving DecidableEq, Repr

/-- Who issues counted operations and accesses: a warp or a CCC context of a team (06_consistency R131). -/
inductive UnitId where
  | warp (team wix : Nat)
  | ccc (team idx : Nat)
  deriving DecidableEq, Repr

/-- The sources of moraine ring entries, each with one pending slot (15_traps_preemption R345). -/
inductive RingSrc where
  | core (n : Nat) | ccc (cluster : Nat) | cpe (cluster : Nat) | completion (cluster : Nat)
  | package | dieDist (die : Nat) | check (die : Nat)
  deriving DecidableEq, Repr

/-- Where an uncorrectable soft error is met (15_traps_preemption R350): data that a warp or context consumes, data
that a pass of a context consumes, or data anywhere else, seen by a die's check unit. -/
inductive SoftSite where
  | unit (u : UnitId)
  | elsewhere (die : Nat)
  deriving DecidableEq, Repr

/-- A firmware image as the boot ROM reads it (18_host_and_trust R402): header fields and bytes. -/
structure FwImage where
  magic     : BitVec 32
  version   : BitVec 32
  svn       : BitVec 32
  bodyLen   : BitVec 32
  digest    : List Byte
  reserved  : List Byte
  rsaKey    : List Byte
  slhKey    : List Byte
  rsaSig    : List Byte
  slhSig    : List Byte
  body      : List Byte
  deriving DecidableEq, Repr

/-- What an admission chooses for one team of a set (14_execution_model R318): its TEAMID, its physical cores by team
core index, the first hardware tag on each, and per warp the slot and first brick of its base run, per CCC entry the
context number; `moves`: resident warps moved first, as team, warp and the first bricks of their runs (R319). -/
structure Admit where
  teamid : Nat
  cores  : List Nat
  tagBase : List Nat
  wslots : List Nat
  bricks : List Nat
  ctxs   : List Nat
  moves  : List (Nat × Nat × List Nat)
  deriving DecidableEq, Repr

/-- A port request's identity: the port and the JobID it carries (18_host_and_trust R394). -/
structure PortReq where
  port : BitVec 3
  job  : BitVec 24
  deriving DecidableEq, Repr

/-- The instructions (up to `pairWord`) and the events of the module, in the order of the opcode table. -/
inductive Instr where
  /-- 13 R291. -/
  | nop
  /-- 13 R291. -/
  | yield
  /-- 13 R291. -/
  | yieldW
  /-- 13 R292. -/
  | bra (w : OffW)
  /-- 13 R294. -/
  | brx (w : BrxW)
  /-- 13 R300. -/
  | jmpi (w : IndW)
  /-- 13 R292. -/
  | call (w : OffW)
  /-- 13 R300. -/
  | calli (w : IndW)
  /-- 13 R292. -/
  | ret
  /-- 13 R295. -/
  | jarm (w : JarmW)
  /-- 13 R296. -/
  | join (j : BitVec 3)
  /-- 13 R292. -/
  | exit
  /-- 14 R322. -/
  | exitSpawn (w : SpawnW)
  /-- 07 R174. -/
  | rgn (w : RgnW)
  /-- 07 R177. -/
  | scopeOpen (n8 : BitVec 6)
  /-- 07 R178. -/
  | scopeClose
  /-- 07 R181. -/
  | xset (w : IdxW)
  /-- 07 R181. -/
  | xadd (w : IdxW)
  /-- 08 R197. -/
  | iadd (w : GI)
  /-- 08 R197. -/
  | isub (w : GI)
  /-- 08 R197. -/
  | iabs (w : GenW)
  /-- 08 R197. -/
  | imin (w : GI)
  /-- 08 R197. -/
  | imax (w : GI)
  /-- 08 R197. -/
  | imul (w : GI)
  /-- 08 R197. -/
  | imulhi (w : GenW)
  /-- 08 R197. -/
  | imad (w : GenW)
  /-- 08 R197. -/
  | and (w : GI)
  /-- 08 R197. -/
  | or (w : GI)
  /-- 08 R197. -/
  | xor (w : GI)
  /-- 08 R197. -/
  | not (w : GenW)
  /-- 08 R198. -/
  | shl (w : GI)
  /-- 08 R198. -/
  | shr (w : GI)
  /-- 08 R198. -/
  | sar (w : GI)
  /-- 08 R197. -/
  | popc (w : GenW)
  /-- 08 R197. -/
  | clz (w : GenW)
  /-- 08 R197. -/
  | brev (w : GenW)
  /-- 08 R199. -/
  | bfe (w : GenW)
  /-- 08 R199. -/
  | bfi (w : GenW)
  /-- 08 R200. -/
  | lea (w : GI)
  /-- 08 R200. -/
  | sel (w : GenW)
  /-- 08 R201. -/
  | icmp (cc : Cc) (w : GI)
  /-- 08 R202. -/
  | mov (w : GenW)
  /-- 08 R202. -/
  | movi (w : ImmW)
  /-- 08 R202. -/
  | movh (w : ImmW)
  /-- 08 R203. -/
  | cvt (w : GenW)
  /-- 08 R205. -/
  | fadd (w : GI)
  /-- 08 R205. -/
  | fsub (w : GI)
  /-- 08 R205. -/
  | fmul (w : GI)
  /-- 08 R205. -/
  | ffma (w : GenW)
  /-- 08 R206. -/
  | fmin (w : GI)
  /-- 08 R206. -/
  | fmax (w : GI)
  /-- 08 R207. -/
  | fcmp (cc : FCc) (w : GI)
  /-- 08 R208. -/
  | fclass (w : GenW)
  /-- 08 R208. -/
  | frnd (w : GenW)
  /-- 08 R209. -/
  | fcvt (w : GenW)
  /-- 08 R210. -/
  | frcp (w : GenW)
  /-- 08 R210. -/
  | frsq (w : GenW)
  /-- 08 R210. -/
  | fsqrt (w : GenW)
  /-- 08 R210. -/
  | fexp2 (w : GenW)
  /-- 08 R210. -/
  | flog2 (w : GenW)
  /-- 08 R210. -/
  | fsin (w : GenW)
  /-- 08 R210. -/
  | fcos (w : GenW)
  /-- 09 R222. -/
  | kdot4 (w : GenW)
  /-- 09 R222. -/
  | kdot8 (w : GenW)
  /-- 09 R223. -/
  | kscale (w : GenW)
  /-- 09 R224. -/
  | kpack (w : GenW)
  /-- 09 R225. -/
  | kunpack (w : GenW)
  /-- 07 R183. -/
  | occGet (w : GenW)
  /-- 07 R183. -/
  | occSet (w : GenW)
  /-- 07 R184. -/
  | occAnd (w : GenW)
  /-- 07 R184. -/
  | occFill (w : GenW)
  /-- 07 R185. -/
  | occPack (w : GenW)
  /-- 07 R185. -/
  | occUnpack (w : GenW)
  /-- 07 R183. -/
  | occCnt (w : GenW)
  /-- 10 R231. -/
  | shflIdx (w : XbW)
  /-- 10 R231. -/
  | shflUp (w : XbW)
  /-- 10 R231. -/
  | shflDn (w : XbW)
  /-- 10 R231. -/
  | shflXor (w : XbW)
  /-- 10 R234. -/
  | voteAny (w : XbW)
  /-- 10 R234. -/
  | voteAll (w : XbW)
  /-- 10 R234. -/
  | voteBal (w : XbW)
  /-- 10 R236. -/
  | scan (op : XOp) (w : XbW)
  /-- 10 R236. -/
  | red (op : XOp) (w : XbW)
  /-- 10 R239. -/
  | rebal (w : RebalW)
  /-- 10 R240. -/
  | ldSpT (w : LdtW)
  /-- 08 R211. -/
  | sAdd (w : GI)
  /-- 08 R211. -/
  | sSub (w : GI)
  /-- 08 R211. -/
  | sMul (w : GI)
  /-- 08 R211. -/
  | sMin (w : GI)
  /-- 08 R211. -/
  | sMax (w : GI)
  /-- 08 R211. -/
  | sAnd (w : GI)
  /-- 08 R211. -/
  | sOr (w : GI)
  /-- 08 R211. -/
  | sXor (w : GI)
  /-- 08 R211. -/
  | sNot (w : GenW)
  /-- 08 R211. -/
  | sShl (w : GI)
  /-- 08 R211. -/
  | sShr (w : GI)
  /-- 08 R211. -/
  | sSar (w : GI)
  /-- 08 R211. -/
  | sCmp (cc : Cc) (w : GI)
  /-- 08 R211. -/
  | sMov (w : GI)
  /-- 08 R212. -/
  | sLd (w : GmW)
  /-- 08 R213. -/
  | sRdl (w : GenW)
  /-- 08 R213. -/
  | vBcast (w : GenW)
  /-- 04 R104. -/
  | ldG (w : GmW)
  /-- 04 R104. -/
  | stG (w : GmW)
  /-- 04 R104. -/
  | ldC (w : GmW)
  /-- 04 R104. -/
  | ldSp (w : SpW)
  /-- 04 R104. -/
  | stSp (w : SpW)
  /-- 04 R110. -/
  | atomG (op : AOp) (w : GmW)
  /-- 04 R110. -/
  | atomSp (op : AOp) (w : SpW)
  /-- 06 R140. -/
  | fence (sc : Scope)
  /-- 12 R281. -/
  | gfLd (w : GfW)
  /-- 05 R119. -/
  | cpG2s (w : CpW)
  /-- 05 R119. -/
  | cpS2g (w : CpW)
  /-- 05 R119. -/
  | cpS2o (w : CpW)
  /-- 05 R119. -/
  | cpA2s (w : CpW)
  /-- 05 R125. -/
  | cpHalt (tag : BitVec 6)
  /-- 05 R125. -/
  | cpGo (tag : BitVec 6)
  /-- 05 R126. -/
  | tagWany (w : TagW)
  /-- 05 R126. -/
  | tagWall (w : TagW)
  /-- 05 R126. -/
  | tagFfr (w : TagW)
  /-- 05 R126. -/
  | tagClr (w : TagW)
  /-- 05 R126. -/
  | tagRd (w : TagW)
  /-- 05 R129. -/
  | ownGive (w : OwnW)
  /-- 05 R130. -/
  | ownTest (w : OwnW)
  /-- 11 R247. -/
  | opClaim (w : ClaimW)
  /-- 11 R247. -/
  | opRel (k : BitVec 6)
  /-- 11 R248. -/
  | opSt (w : OpStW)
  /-- 11 R249. -/
  | mxFeed (w : FeedW)
  /-- 11 R252. -/
  | acLd (w : AcLdW)
  /-- 11 R253. -/
  | acClr (w : AcClrW)
  /-- 11 R256. -/
  | mxCfg (w : CfgW)
  /-- 11 R255. -/
  | mxIp (w : MxW)
  /-- 11 R255. -/
  | mxOp (w : MxW)
  /-- 11 R255. -/
  | mxRw (w : MxW)
  /-- 12 R271. -/
  | mxNzs (w : NzsW)
  /-- 16 R365. -/
  | twNlt (w : NltW)
  /-- 16 R376. -/
  | twRun (w : TwRunW)
  /-- 16 R375. -/
  | twRet (w : TwRetW)
  /-- 16 R377. -/
  | twCut (w : TwCutW)
  /-- 16 R381. -/
  | twResume (w : TwResW)
  /-- 06 R153. -/
  | rvInit (w : RvW)
  /-- 06 R154. -/
  | rvArrive (w : RvW)
  /-- 06 R155. -/
  | rvWait (w : RvW)
  /-- 06 R154, R155. -/
  | rvArrw (w : RvW)
  /-- 14 R324. -/
  | mbxPost (w : PostW)
  /-- 17 R389. -/
  | perfReq (w : PerfW)
  /-- 15 R338. -/
  | trap (code : BitVec 16)
  /-- 15 R341. -/
  | rte
  /-- 15 R339. -/
  | rqRd (w : RqW)
  /-- 15 R339. -/
  | rqWr (w : RqW)
  /-- 15 R340. -/
  | trapDrop (w : DropW)
  /-- 15 R352. -/
  | csrRd (w : CsrW)
  /-- 15 R352. -/
  | csrWr (w : CsrW)
  /-- 15 R348. -/
  | ringPost (w : RPostW)
  /-- 15 R349. -/
  | halt
  /-- 02 R46. -/
  | pairWord (ch : Bool) (s1 s2 : PSlot)
  /-- 03 R75: the management endpoint or a `csr.wr` writes TINVC. -/
  | tinvcWrite (v : Word)
  /-- 03 R76: the invalidation in progress retires. -/
  | invalidationRetire
  /-- 15 R343: a system context names a frozen team. -/
  | tkillWrite (teamid : Word)
  /-- 15 R343: a killed set's resources are released. -/
  | frozenSetRelease (set : Nat)
  /-- 15 R344: the reader advances RRI. -/
  | rriWrite (v : Word)
  /-- 15 R345: a held ring entry is written. -/
  | pendingSlotWrite (src : RingSrc)
  /-- 02 R24, R28: a counted operation completes; `fresh`: a plain load reads the L2 even where the cache holds its line. -/
  | countedCompletion (u : UnitId) (seq : Nat) (fresh : Bool)
  /-- 02 R30: an exited warp's context is released. -/
  | warpContextRelease (team wix : Nat)
  /-- 03 R65, R66: a walk fills (or, with `keep` false, a replacement drops) one entry of a translation cache; nodes 0–767 are cores, 768–775 dies. -/
  | translationWalk (node : Nat) (owner : Byte) (va : VAddr) (lvl : Nat) (keep : Bool)
  /-- 06 R133: a write is applied to a die's L2 (dies 8 and 9 are the I/O homes), or in a scratchpad. -/
  | writeApplication (id die : Nat)
  /-- 06 R146 step 1 at one die. -/
  | replLock (id die : Nat)
  /-- 06 R146 step 2 at one die. -/
  | replUpdate (id die : Nat)
  /-- 05 R120: one 256-byte unit. -/
  | copyUnit (team ci tag : Nat)
  /-- 05 R119 steps 5 to 8. -/
  | copyCompletion (team ci tag : Nat)
  /-- 11 R267: the arbiter grants an entry. -/
  | entryGrant (cluster : Nat)
  /-- 11 R268: a context takes its grant fault. -/
  | deferredTrap (team idx : Nat)
  /-- 11 R269: the oldest granted pass completes. -/
  | passCompletion (cluster : Nat)
  /-- 12 R274: the granted scan completes. -/
  | scanCompletion (cluster : Nat)
  /-- 13 R297. -/
  | joinRelease (team wix : Nat)
  /-- 13 R304. -/
  | fragmentSwap (team wix : Nat)
  /-- 14 R326. -/
  | deadlock (set : Nat)
  /-- 15 R350. -/
  | softError (site : SoftSite)
  /-- 15 R351. -/
  | moduleReset
  /-- 18 R395. -/
  | hostMailboxMessage (r : PortReq) (va : DWord) (args : List Word)
  /-- 18 R396. -/
  | hostPut (r : PortReq) (va : DWord) (bytes : List Byte)
  /-- 18 R396. -/
  | hostGet (r : PortReq) (va : DWord) (len : Nat)
  /-- 18 R399. -/
  | managementWrite (r : PortReq) (num : BitVec 12) (v : DWord)
  /-- 18 R399. -/
  | managementRead (r : PortReq) (num : BitVec 12)
  /-- 18 R400. -/
  | featlckWrite (v : DWord)
  /-- 18 R405: a write of KEYCTL. -/
  | keyLoad (v : DWord)
  /-- 18 R405: the half is installed. -/
  | keyInstall
  /-- 18 R404. -/
  | attreqWrite (nonce : DWord)
  /-- 18 R402. -/
  | firmwareImage (img : FwImage)
  /-- 14 R312, R316, R317: the distributor offers the next set; `die` is used where AFF leaves the die to free warp slots. -/
  | placement (die : Nat)
  /-- 14 R318. -/
  | admission (set cluster : Nat) (plan : List Admit)
  /-- 14 R321. -/
  | teamCompletion (team : Nat)
  /-- 15 R354. -/
  | preemptionRequest (set cluster : Nat)
  /-- 15 R356: one victim stops: a warp, or, from the warp count on, the team cores in turn and then the cluster-level state. -/
  | victimStop (team wix : Nat)
  /-- 15 R357, R358. -/
  | snowpackSave (team wix : Nat)
  /-- 15 R361. -/
  | resume (team wix : Nat) (cores : List Nat) (plan : Admit)
  /-- 16 R370. -/
  | traversalEvent (team wix lane : Nat)
  /-- 16 R380. -/
  | settle (team wix lane : Nat)
  /-- 17 R384. -/
  | currentGrant (cluster : Nat)
  /-- 17 R385. -/
  | reservationTimeout (cluster : Nat)
  /-- 17 R387. -/
  | budgetPeriod (die : Nat)
  /-- 17 R390. -/
  | clockRatioChange (cluster : Nat)
  /-- 17 R391. -/
  | powerGatingBegin (cluster : Nat)
  /-- 17 R391. -/
  | powerGatingCommit (cluster : Nat)
  /-- 17 R391. -/
  | clusterWake (cluster : Nat)
  deriving DecidableEq, Repr

end Sys2Proof
end

