-- ==== Sys2Proof/Machine/Forms.lean ====
section
/-!
DEFINITION. The register fields of every instruction form: class, number and how many registers each field names
(02_instruction_words R36, R37; 07_registers R160, R170; 15_traps_preemption R335). Legality, the bounds check, the
capture of operands and the freeing of marked sources all read this one table.
-/
namespace Sys2Proof.Machine

/-- A register field of a word: its class code (02_instruction_words R37), the field, how many registers it names. -/
structure Fld where
  cls : BitVec 2
  rf  : RF
  w   : Nat
  deriving DecidableEq, Repr

/-- The register fields of a form. `more` lists the fields beyond D, A and B from the highest bit position down
(15_traps_preemption R335). `dIn`: the form reads D. -/
structure Shape where
  d    : Option Fld
  dIn  : Bool
  a    : Option Fld
  b    : Option Fld
  more : List Fld
  ix   : BitVec 2
  deriving DecidableEq, Repr

/-- The zero register field. -/
def RF0 : RF := ⟨false, false, 0⟩

/-- A six-bit scalar field as a register field. -/
def sRF (n : BitVec 6) : RF := ⟨false, false, n.setWidth 8⟩

/-- A vector field of `w` registers. -/
def fv (rf : RF) (w : Nat := 1) : Option Fld := some ⟨0, rf, w⟩

/-- A scalar field of `w` registers. -/
def fs (rf : RF) (w : Nat := 1) : Option Fld := some ⟨1, rf, w⟩

/-- A predicate field. -/
def fp (rf : RF) : Option Fld := some ⟨2, rf, 1⟩

/-- A field with the class the word gives. -/
def fc (c : BitVec 2) (rf : RF) (w : Nat := 1) : Option Fld := some ⟨c, rf, w⟩

/-- Registers of an integer type: 2 for the 64-bit types (02_instruction_words R40). -/
def iw (ty : BitVec 3) : Nat := if ty = 2 ∨ ty = 3 then 2 else 1

/-- Width in bits of an integer type code (02_instruction_words R40). -/
def tyBits (ty : BitVec 3) : Nat :=
  if ty = 0 ∨ ty = 1 then 32 else if ty = 2 ∨ ty = 3 then 64 else if ty = 4 ∨ ty = 5 then 16 else 8

/-- Even type codes are signed (02_instruction_words R40). -/
def tySigned (ty : BitVec 3) : Bool := ty.toNat % 2 == 0

/-- No register field. -/
def Shape.none : Shape := ⟨.none, false, .none, .none, [], 0⟩

/-- A lane form over the generic layout with operand widths `wd`, `wa`, `wb`. -/
def genShape (w : GenW) (d : Option Fld) (dIn : Bool) (wa wb : Nat) : Shape :=
  ⟨d, dIn, fc w.ac w.a wa, fc w.bc w.b wb, [], w.ix⟩

/-- A one-source lane form. -/
def gen1 (w : GenW) (d : Option Fld) (wa : Nat) : Shape :=
  ⟨d, false, fc w.ac w.a wa, .none, [], w.ix⟩

/-- An immediate lane form. -/
def immShape (w : ImmW) (d : Option Fld) (wa : Nat) : Shape :=
  ⟨d, false, fc w.ac w.a wa, .none, [], 0⟩

/-- An integer lane form with an F and an FI variant; `wb64`: B is a pair for 64-bit types. -/
def giInt (g : GI) (wb64 : Bool := true) : Shape :=
  match g with
  | .reg w => genShape w (fv w.d (iw w.ty)) false (iw w.ty) (if wb64 then iw w.ty else 1)
  | .imm w => immShape w (fv w.d (iw w.ty)) (iw w.ty)

/-- A floating lane form with an F and an FI variant. -/
def giFlt (g : GI) : Shape :=
  match g with
  | .reg w => genShape w (fv w.d) false 1 1
  | .imm w => immShape w (fv w.d) 1

/-- A compare form: D is a predicate. -/
def giCmp (g : GI) (wide : Bool) : Shape :=
  match g with
  | .reg w => let k := if wide then iw w.ty else 1; genShape w (fp w.d) false k k
  | .imm w => immShape w (fp w.d) (if wide then iw w.ty else 1)

/-- A scalar form; `wb64` as for `giInt`, `d1`: D is one register for every type. -/
def giScal (g : GI) (wb64 : Bool := true) (d1 : Bool := false) : Shape :=
  match g with
  | .reg w => genShape w (fs w.d (if d1 then 1 else iw w.ty)) false (iw w.ty) (if wb64 then iw w.ty else 1)
  | .imm w => immShape w (fs w.d (if d1 then 1 else iw w.ty)) (iw w.ty)

/-- Registers that one access of a load or store of size code SZ names (04_caches_scratchpad R97). -/
def szRegs (sz : BitVec 3) : Nat := if sz = 5 then 2 else if sz = 6 then 4 else 1

/-- Registers of an atomic's D field (04_caches_scratchpad R97, R105, R110). -/
def atomRegs (op : AOp) (sz : BitVec 3) : Nat :=
  (if sz = 2 ∨ sz = 3 then 2 else 1) * (if op = .cas then 2 else 1)

/-- The address fields of the global layout (04_caches_scratchpad R96). -/
def gmShape (w : GmW) (d : Option Fld) (dIn : Bool) : Shape :=
  if w.ow = 2 then ⟨d, dIn, fv w.a 2, .none, [], w.ix⟩
  else if w.ow = 3 then ⟨d, dIn, fs w.a 2, .none, [], w.ix⟩
  else ⟨d, dIn, fs w.a 2, fv w.b, [], w.ix⟩

/-- The address field of the scratchpad layout (04_caches_scratchpad R99). -/
def spShape (w : SpW) (d : Option Fld) (dIn : Bool) : Shape :=
  ⟨d, dIn, if w.az then .none else fv w.a, .none, [], w.ix⟩

/-- The membership mask's scalar, when MI = 0 (10_lane_crossbar R229). -/
def maskFld (w : XbW) : List Fld :=
  if w.mi then [] else [⟨1, ⟨false, false, (w.msk.setWidth 6).setWidth 8⟩, 1⟩]

/-- Registers of a crossbar value: 64-bit integer types take a pair (10_lane_crossbar R231, R235). -/
def xw (ty : BitVec 3) : Nat := if ty = 2 ∨ ty = 3 then 2 else 1

/-- Is the operator an integer one (02_instruction_words R50)? -/
def XOp.isInt : XOp → Bool
  | .fadd | .fmin | .fmax => false
  | _ => true

/-- Registers of a scan or reduction value. -/
def xopW (op : XOp) (ty : BitVec 3) : Nat := if XOp.isInt op then xw ty else 1

/-- A shuffle's fields (10_lane_crossbar R231). -/
def shflShape (w : XbW) : Shape :=
  ⟨fv w.d (xw w.ty), false, fv w.a (xw w.ty),
    if w.bi then .none else if w.bs then fs w.b else fv w.b, maskFld w, w.ix⟩

/-- A copy's scalar fields, of `cp.g2s` and `cp.s2g` (05_copy_engine R115). -/
def cpShape (w : CpW) : Shape :=
  ⟨fs ⟨false, false, w.d.setWidth 8⟩ (if w.mb then 4 else 2), true,
    if w.az then .none else fs (sRF w.a),
    if w.li then .none else fs ⟨false, false, w.b.setWidth 8⟩ (if w.shp then 3 else 1), [], 0⟩

/-- The register fields of every form. Events have none. -/
def shape : Instr → Shape
  | .brx w => ⟨.none, false, fp ⟨false, false, w.p.setWidth 8⟩, .none, [], 0⟩
  | .jmpi w => ⟨.none, false, fc w.ac w.a 2, .none, [], w.ix⟩
  | .calli w => ⟨.none, false, fc w.ac w.a 2, .none, [], w.ix⟩
  | .exitSpawn w => ⟨.none, false, fs (sRF w.a) (2 * (w.n.toNat + 1)), .none, [], 0⟩
  | .xset w => ⟨.none, false, if w.im then .none else fs ⟨false, false, w.a⟩, .none, [], 0⟩
  | .xadd w => ⟨.none, false, if w.im then .none else fs ⟨false, false, w.a⟩, .none, [], 0⟩
  | .iadd w => giInt w
  | .isub w => giInt w
  | .iabs w => gen1 w (fv w.d (iw w.ty)) (iw w.ty)
  | .imin w => giInt w
  | .imax w => giInt w
  | .imul w => giInt w
  | .imulhi w => genShape w (fv w.d (iw w.ty)) false (iw w.ty) (iw w.ty)
  | .imad w => genShape w (fv w.d (iw w.ty)) true (iw w.ty) (iw w.ty)
  | .and w => giInt w
  | .or w => giInt w
  | .xor w => giInt w
  | .not w => gen1 w (fv w.d (iw w.ty)) (iw w.ty)
  | .shl w => giInt w false
  | .shr w => giInt w false
  | .sar w => giInt w false
  | .popc w => gen1 w (fv w.d) 1
  | .clz w => gen1 w (fv w.d) 1
  | .brev w => gen1 w (fv w.d) 1
  | .bfe w => genShape w (fv w.d) false 1 1
  | .bfi w => genShape w (fv w.d) true 1 1
  | .lea w => giInt w false
  | .sel w => { genShape w (fv w.d (iw w.ty)) false (iw w.ty) (iw w.ty) with
                  more := [⟨2, ⟨false, false, w.opx.setWidth 8⟩, 1⟩] }
  | .icmp _ w => giCmp w true
  | .mov w => gen1 w (fv w.d (iw w.ty)) (iw w.ty)
  | .movi w => ⟨fv w.d, false, .none, .none, [], 0⟩
  | .movh w => ⟨fv w.d, true, .none, .none, [], 0⟩
  | .cvt w => gen1 w (fv w.d (iw w.ty)) (iw (w.opx.setWidth 3))
  | .fadd w => giFlt w
  | .fsub w => giFlt w
  | .fmul w => giFlt w
  | .ffma w => genShape w (fv w.d) true 1 1
  | .fmin w => giFlt w
  | .fmax w => giFlt w
  | .fcmp _ w => giCmp w false
  | .fclass w => gen1 w (fv w.d) 1
  | .frnd w => gen1 w (fv w.d) 1
  | .fcvt w =>
      if w.nb then gen1 w (fv w.d (iw (w.opx.setWidth 3))) 1
      else if w.opx.toNat ≥ 8 then gen1 w (fv w.d) (iw (w.opx.setWidth 3))
      else if w.ty.toNat ≥ 3 then genShape w (fv w.d) false 1 1
      else gen1 w (fv w.d) 1
  | .frcp w => gen1 w (fv w.d) 1
  | .frsq w => gen1 w (fv w.d) 1
  | .fsqrt w => gen1 w (fv w.d) 1
  | .fexp2 w => gen1 w (fv w.d) 1
  | .flog2 w => gen1 w (fv w.d) 1
  | .fsin w => gen1 w (fv w.d) 1
  | .fcos w => gen1 w (fv w.d) 1
  | .kdot4 w => genShape w (fv w.d) true 1 1
  | .kdot8 w => genShape w (fv w.d) true (if w.ty = 0 then 2 else 1) (if w.ty = 0 then 2 else 1)
  | .kscale w => genShape w (fv w.d) false 1 1
  | .kpack w => genShape w (fv w.d) (w.ty = 1) 4 1
  | .kunpack w => genShape w (fv w.d 4) false 1 1
  | .occGet w => gen1 w (fs w.d) 1
  | .occSet w => gen1 w (fp w.d) 1
  | .occAnd w => genShape w (fv w.d) false 1 1
  | .occFill w => genShape w (fv w.d) false 1 1
  | .occPack w => gen1 w (fv w.d) 1
  | .occUnpack w => genShape w (fv w.d) false 1 1
  | .occCnt w => gen1 w (fs w.d) 1
  | .shflIdx w => shflShape w
  | .shflUp w => shflShape w
  | .shflDn w => shflShape w
  | .shflXor w => shflShape w
  | .voteAny w => ⟨fp w.d, false, fp w.a, .none, maskFld w, w.ix⟩
  | .voteAll w => ⟨fp w.d, false, fp w.a, .none, maskFld w, w.ix⟩
  | .voteBal w => ⟨fs w.d, false, fp w.a, .none, maskFld w, w.ix⟩
  | .scan op w => ⟨fv w.d (xopW op w.ty), false, fv w.a (xopW op w.ty), .none, maskFld w, w.ix⟩
  | .red op w =>
      ⟨if w.opt then fs w.d (xopW op w.ty) else fv w.d (xopW op w.ty), false,
        fv w.a (xopW op w.ty), .none, maskFld w, w.ix⟩
  | .rebal w => ⟨fv w.d 2, false, fv w.a, fs ⟨false, false, w.b⟩, [], w.ix⟩
  | .ldSpT w => ⟨fv w.d (if w.sz = 4 then 2 else 1), false, if w.az then .none else fs (sRF w.a), .none, [], w.ix⟩
  | .sAdd w => giScal w
  | .sSub w => giScal w
  | .sMul w => giScal w
  | .sMin w => giScal w
  | .sMax w => giScal w
  | .sAnd w => giScal w
  | .sOr w => giScal w
  | .sXor w => giScal w
  | .sNot w => gen1 w (fs w.d (iw w.ty)) (iw w.ty)
  | .sShl w => giScal w false
  | .sShr w => giScal w false
  | .sSar w => giScal w false
  | .sCmp _ w => giScal w true true
  | .sMov w =>
      match w with
      | .reg w => gen1 w (fs w.d (iw w.ty)) (iw w.ty)
      | .imm w => ⟨fs w.d (iw w.ty), false, .none, .none, [], 0⟩
  | .sLd w => gmShape w (fs w.d (szRegs w.sz)) false
  | .sRdl w => genShape w (fs w.d (iw w.ty)) false (iw w.ty) 1
  | .vBcast w => genShape w (fv w.d (iw w.ty)) false (iw w.ty) 1
  | .ldG w => gmShape w (fv w.d (szRegs w.sz)) false
  | .stG w => gmShape w (fv w.d (szRegs w.sz)) true
  | .ldC w => gmShape w (fv w.d (szRegs w.sz)) false
  | .ldSp w => spShape w (fv w.d (szRegs w.sz)) false
  | .stSp w => spShape w (fv w.d (szRegs w.sz)) true
  | .atomG op w => gmShape w (fv w.d (atomRegs op w.sz)) true
  | .atomSp op w => spShape w (fv w.d (atomRegs op w.sz)) true
  | .gfLd w =>
      ⟨fv w.d, false, if w.as then fs w.a else fv w.a, if w.bs then fs w.b else fv w.b,
        [⟨1, sRF w.hs, 2⟩], w.ix⟩
  | .cpG2s w => cpShape w
  | .cpS2g w => cpShape w
  | .cpS2o w => ⟨.none, false, if w.az then .none else fs (sRF w.a), .none, [], 0⟩
  | .cpA2s w => ⟨.none, false, if w.az then .none else fs (sRF w.a), .none, [], 0⟩
  | .tagWany w => ⟨fs (sRF w.d), false, if w.mi then .none else fs (sRF w.a) 2, .none, [], 0⟩
  | .tagWall w => ⟨.none, false, if w.mi then .none else fs (sRF w.a) 2, .none, [], 0⟩
  | .tagFfr w => ⟨fs (sRF w.d), false, if w.mi then .none else fs (sRF w.a) 2, .none, [], 0⟩
  | .tagClr w => ⟨.none, false, if w.mi then .none else fs (sRF w.a) 2, .none, [], 0⟩
  | .tagRd w => ⟨fs (sRF w.d) (if w.imm.getLsbD 15 then 2 else 1), false, .none, .none, [], 0⟩
  | .ownGive w => ⟨.none, false, if w.az then .none else fs (sRF w.a), .none, [], 0⟩
  | .ownTest w => ⟨fs (sRF w.d), false, if w.az then .none else fs (sRF w.a), .none, [], 0⟩
  | .opSt w => ⟨.none, false, fv w.a (szRegs w.sz), fv w.b, [], w.ix⟩
  | .mxFeed w => ⟨.none, false, fv w.a, fv w.b, if w.sr then [⟨1, sRF w.ss, 1⟩] else [], w.ix⟩
  | .acLd w => ⟨fv w.d, false, if w.rs then fs (sRF w.a) else .none, .none, [], 0⟩
  | .acClr w => ⟨.none, false, if w.rs then fs (sRF w.a) else .none, .none, [], 0⟩
  | .mxCfg w => ⟨.none, false, if w.im then .none else fs (sRF w.a), .none, [], 0⟩
  | .mxRw w => ⟨.none, false, fs (sRF w.a) 2, .none, [], 0⟩
  | .mxNzs w => ⟨fs (sRF w.d), true, fs (sRF w.a), fs (sRF w.b) 2, [], 0⟩
  | .twNlt w => ⟨.none, false, fs (sRF w.a) 2, .none, [], 0⟩
  | .twRun w => ⟨fv w.d, false, if w.st then fv w.a 2 else .none, fs (sRF w.b), [⟨1, sRF w.ws, 1⟩], 0⟩
  | .twRet w => ⟨.none, false, fc w.ac w.a (if w.m then 2 else 1), .none, [], 0⟩
  | .twCut w => ⟨fv w.d 2, false, .none, fs (sRF w.b) 2, [⟨1, sRF w.ws, 1⟩], 0⟩
  | .twResume w => ⟨.none, false, fv w.a 2, .none, [⟨1, sRF w.ws, 1⟩], 0⟩
  | .rvInit w => ⟨.none, false, if w.ci then .none else fs (sRF w.a), .none, [], 0⟩
  | .mbxPost w => ⟨fs (sRF w.d), false, fs (sRF w.a) 2, fs (sRF w.b) 16, [], 0⟩
  | .perfReq w => ⟨.none, false, if w.im then .none else fs (sRF w.a), .none, [], 0⟩
  | .rqRd w => ⟨fs (sRF w.r), false, if w.rs then fs (sRF w.a) else .none, .none, [], 0⟩
  | .rqWr w => ⟨.none, false, if w.rs then fs (sRF w.a) else .none, fs (sRF w.r), [], 0⟩
  | .trapDrop w => ⟨.none, false, fs (sRF w.a), fs (sRF w.b), [], 0⟩
  | .csrRd w => ⟨fs (sRF w.r) (if w.w64 then 2 else 1), false, .none, .none, [], 0⟩
  | .csrWr w => ⟨.none, false, fs (sRF w.r) (if w.w64 then 2 else 1), .none, [], 0⟩
  | .ringPost w => ⟨.none, false, fs (sRF w.a) 8, .none, [], 0⟩
  | _ => Shape.none

end Sys2Proof.Machine
end

