-- ==== Sys2Proof/Machine/Legal.lean ====
section
/-!
DEFINITION. Which field values of a form are legal encodings (02_instruction_words R36 to R45, R50, R52, and the layout
rules of each family's chapter). What depends on the clause, the issuer or the accepted features is checked at issue.
-/
namespace Sys2Proof.Machine

/-- Registers of a multiple field are aligned to this number (07_registers R160; 05_copy_engine R116). -/
def fldAlign (w : Nat) : Nat := if w = 3 then 4 else w

/-- One register field is legal for its class (02_instruction_words R36, R37; 07_registers R160, R163). -/
def fldOk (isD : Bool) (f : Fld) : Bool :=
  let n := f.rf.num.toNat
  match f.cls.toNat with
  | 0 => n % fldAlign f.w == 0
  | 1 => !f.rf.mark && !f.rf.x && decide (n < 68) && (!isD || decide (n < 64)) &&
      (decide (64 ≤ n) || (n % fldAlign f.w == 0 && decide (n + f.w ≤ 64)))
  | 2 => !f.rf.x &&
      (if isD then decide (n < 16) else !f.rf.mark && (decide (n < 16) || (decide (0x80 ≤ n) && decide (n ≤ 0x8B))))
  | _ => false

/-- An absent field is legal. -/
def optOk (isD : Bool) : Option Fld → Bool
  | none => true
  | some f => fldOk isD f

/-- Does an optional field carry X? -/
def optX : Option Fld → Bool
  | none => false
  | some f => f.rf.x

/-- The register fields of a form are legal; IX is zero unless some field has X (02_instruction_words R36). -/
def shapeOk (s : Shape) : Bool :=
  optOk true s.d && optOk false s.a && optOk false s.b && s.more.all (fldOk false) &&
    (s.ix == 0 || optX s.d || optX s.a || optX s.b)

/-- No field of the form carries X. -/
def noX (s : Shape) : Bool := !optX s.d && !optX s.a && !optX s.b

/-- A lane operand that may be a vector, scalar, index or special register, and not a predicate (08_lane_arithmetic
R196, R204). -/
def laneSrc (c : BitVec 2) (rf : RF) : Bool := c == 0 || c == 1 || (c == 2 && decide (0x80 ≤ rf.num.toNat))

/-- A scalar-form operand (08_lane_arithmetic R211): scalar, index, or special other than %here. -/
def scalSrc (c : BitVec 2) (rf : RF) : Bool :=
  c == 1 || (c == 2 && decide (0x80 ≤ rf.num.toNat) && rf.num != 0x88)

/-- The generic MOD fields a form allows (02_instruction_words R39): negation, saturation, rounding, strictness and a
predicate on OPX. FS is zero in every uncounted form. -/
def genOk (w : GenW) (neg sat rm strict : Bool) (opx : Bool) : Bool :=
  !w.fs && (neg || (!w.na && !w.nb)) && (sat || !w.sat) && (rm || w.rm == 0) && (strict || !w.strict) && opx

/-- A one-source form leaves B and its class zero (02_instruction_words R52). -/
def noB (w : GenW) : Bool := w.b == RF0 && w.bc == 0

/-- An integer form: negation only with a signed type (08_lane_arithmetic R196). -/
def intOk (w : GenW) (neg sat : Bool) (opx : Bool) : Bool :=
  genOk w (neg && tySigned w.ty) sat false true opx && laneSrc w.ac w.a

/-- A two-source integer F word. -/
def int2 (w : GenW) (ty neg sat : Bool) : Bool := ty && intOk w neg sat (w.opx == 0) && laneSrc w.bc w.b

/-- A one-source integer F word. -/
def int1 (w : GenW) (ty neg sat : Bool) (opx : Bool) : Bool := ty && intOk w neg sat opx && noB w

/-- An FI lane word (02_instruction_words R41): no X, a lane source. -/
def immOk (w : ImmW) (ty : Bool) : Bool := ty && laneSrc w.ac w.a && !w.d.x && !w.a.x

/-- Types `.n32` and `.n64` (08_lane_arithmetic R197). -/
def tyN (ty : BitVec 3) : Bool := ty == 1 || ty == 3

/-- Types `.i32` and `.i64`. -/
def tyI (ty : BitVec 3) : Bool := ty == 0 || ty == 2

/-- The 32- and 64-bit integer types. -/
def tyW (ty : BitVec 3) : Bool := decide (ty.toNat < 4)

/-- A two-source integer form with an FI variant. -/
def intGI (g : GI) (ok : BitVec 3 → Bool) (neg sat : Bool) : Bool :=
  match g with
  | .reg w => int2 w (ok w.ty) neg sat
  | .imm w => immOk w (ok w.ty)

/-- Floating types: the five of 02_instruction_words R40. -/
def tyF5 (ty : BitVec 3) : Bool := decide (ty.toNat < 5)

/-- `.f32`, `.f16`, `.bf16`. -/
def tyF3 (ty : BitVec 3) : Bool := decide (ty.toNat < 3)

/-- A floating FI word: the upper immediate byte is zero for the 16-bit types (02_instruction_words R42). -/
def fimmOk (w : ImmW) (ok : BitVec 3 → Bool) : Bool :=
  immOk w (ok w.ty) && (w.ty == 0 || decide (w.imm.toNat < 65536))

/-- A two-source floating form with an FI variant (08_lane_arithmetic R204, R205). -/
def fltGI (g : GI) (ok : BitVec 3 → Bool) (rm : Bool) : Bool :=
  match g with
  | .reg w => ok w.ty && genOk w true false rm true (w.opx == 0) && laneSrc w.ac w.a && laneSrc w.bc w.b
  | .imm w => fimmOk w ok

/-- A one-source floating form. -/
def flt1 (w : GenW) (ok : BitVec 3 → Bool) (rm : Bool) : Bool :=
  ok w.ty && genOk w false false rm true (w.opx == 0) && laneSrc w.ac w.a && noB w

/-- `fcvt` (08_lane_arithmetic R209): NB is the TOI field. -/
def fcvtOk (w : GenW) : Bool :=
  let ot := w.opx.toNat
  !w.na && !w.fs && !w.sat && laneSrc w.ac w.a &&
    (if w.nb then decide (8 ≤ ot) && tyF3 w.ty && noB w
     else if 8 ≤ ot then tyF3 w.ty && noB w
     else if tyF3 w.ty then decide (ot < 3) && noB w
     else tyF5 w.ty && ot == 0 && laneSrc w.bc w.b)

/-- A narrow form (09_narrow_formats R220). -/
def narrowOk (w : GenW) (ty : Bool) (sat rm : Bool) (bvec : Bool) (opx : Bool) : Bool :=
  ty && genOk w false sat rm true opx && w.ac == 0 && (if bvec then w.bc == 0 else laneSrc w.bc w.b)

/-- An occupancy form's A operand (07_registers R182): a vector or %here, or a predicate where allowed. -/
def occSrc (w : GenW) (pred : Bool) : Bool :=
  w.ac == 0 || (w.ac == 2 && (w.a.num == 0x88 || (pred && decide (w.a.num.toNat < 16))))

/-- The MOD fields of an occupancy form are zero (07_registers R182). -/
def occOk (w : GenW) (pred : Bool) : Bool :=
  w.ty == 0 && genOk w false false false false (w.opx == 0) && occSrc w pred

/-- A scalar form with an FI variant (08_lane_arithmetic R211). -/
def scalGI (g : GI) (ok : BitVec 3 → Bool) (sat : Bool) : Bool :=
  match g with
  | .reg w => ok w.ty && genOk w false sat false false (w.opx == 0) && scalSrc w.ac w.a && scalSrc w.bc w.b
  | .imm w => ok w.ty && !w.strict && scalSrc w.ac w.a

/-- A membership mask field (10_lane_crossbar R229, R230). -/
def maskOk (w : XbW) : Bool :=
  if w.mi then decide ((w.msk.toNat % 32) ≤ w.msk.toNat / 32) else decide (w.msk.toNat < 64)

/-- A shuffle (10_lane_crossbar R229, R231). -/
def shflOk (w : XbW) : Bool :=
  tyN w.ty && !w.opt && maskOk w && (!w.bi || (!w.bs && !w.b.mark && !w.b.x && decide (w.b.num.toNat < 32)))

/-- A vote (10_lane_crossbar R234). -/
def voteOk (w : XbW) : Bool :=
  w.b == RF0 && w.ty == 0 && !w.bs && !w.bi && !w.opt && w.ix == 0 && maskOk w && decide (w.a.num.toNat < 16)

/-- The types of each scan and reduction operator (10_lane_crossbar R235). -/
def xopTy (op : XOp) (ty : BitVec 3) : Bool :=
  match op with
  | .add | .min | .max => tyW ty
  | .and | .or | .xor => tyN ty
  | .fadd | .fmin | .fmax => tyF3 ty

/-- A scan or reduction (10_lane_crossbar R235). -/
def scanOk (op : XOp) (w : XbW) : Bool := xopTy op w.ty && w.b == RF0 && !w.bs && !w.bi && maskOk w

/-- The scope field: zero with ORD 0, at most 4 (04_caches_scratchpad R95, R98). -/
def scoOk (w : GmW) : Bool := decide (w.sco.toNat < 5) && (w.ord != 0 || w.sco == 0)

/-- The address form of a global access: the unused B is zero (04_caches_scratchpad R96). -/
def gmAddr (w : GmW) : Bool := (w.ow == 0 || w.ow == 1 || w.b == RF0) && (w.ow == 2 || decide (w.a.num.toNat < 64))

/-- A load's sizes (04_caches_scratchpad R97). -/
def ldSz (sz : BitVec 3) : Bool := decide (sz.toNat < 7)

/-- A store's sizes. -/
def stSz (sz : BitVec 3) : Bool := sz == 0 || sz == 2 || sz == 4 || sz == 5 || sz == 6

/-- The types of each atomic operator (04_caches_scratchpad R105). -/
def atomTy (op : AOp) (sz : BitVec 3) : Bool :=
  match op with
  | .add | .min | .max => decide (sz.toNat < 4)
  | .and | .or | .xor | .exch | .cas => sz == 1 || sz == 3
  | .fadd => sz == 4 || sz == 5 || sz == 6

/-- A scratchpad form without an address register has A zero (04_caches_scratchpad R99). -/
def spAddr (w : SpW) : Bool := !w.az || w.a == RF0

/-- A copy with a length or a shape (05_copy_engine R115, R116). -/
def cpLenOk (w : CpW) : Bool :=
  decide (w.d.toNat ≤ (if w.mb then 60 else 62)) && w.d.toNat % 2 == 0 && (!w.az || w.a == 0) &&
    (if w.li then w.b != 0 && !w.shp
     else if w.shp then w.b.toNat % 4 == 0 && decide (w.b.toNat ≤ 60)
     else decide (w.b.toNat < 64))

/-- A tag mask form (05_copy_engine R126). -/
def tagOk (w : TagW) (hasD : Bool) : Bool :=
  (hasD || w.d == 0) && (w.xc || w.ci == 0) &&
    (if w.mi then w.a == 0 else w.imm == 0 && w.a.toNat % 2 == 0)

/-- The point fields of a matrix word (11_matrix_engine R255). -/
def ptOk (ae : Bool) (apt : BitVec 5) (se : Bool) (spt : BitVec 5) : Bool :=
  decide (apt.toNat ≤ 23) && decide (spt.toNat ≤ 23) && (ae || apt == 0) && (se || spt == 0)

/-- A pair slot (02_instruction_words R43, R44). -/
def slotOk (s : PSlot) : Bool :=
  let c := s.op.toNat
  decide (c < 0x28) && !(s.al && s.imm) && (!s.sat || decide (c < 3)) &&
    (s.rm == 0 ||
      (decide (0x10 ≤ c) && decide (c < 0x25) && c != 0x13 && c != 0x14 && c != 0x18 && c != 0x19 && c != 0x1D && c != 0x1E))

/-- The widths of the control registers (15_traps_preemption R351). -/
def csrWidth (num : Nat) : Option Nat :=
  if num = 0x001 then some 32
  else if num = 0x002 ∨ num = 0x003 then some 64
  else if num = 0x008 ∨ num = 0x009 then some 32
  else if num = 0x100 ∨ num = 0x101 then some 64
  else if num = 0x102 ∨ num = 0x103 then some 32
  else if num = 0x104 ∨ num = 0x110 then some 64
  else if num = 0x111 ∨ num = 0x112 ∨ num = 0x113 ∨ num = 0x120 then some 32
  else none

/-- W64 equals the width of a listed register (15_traps_preemption R352). -/
def csrOk (w : CsrW) : Bool := csrWidth w.num.toNat == some (if w.w64 then 64 else 32)

/-- The encoding rules of each form beyond its register fields. Events carry no encoding. -/
def extraOk : Instr → Bool
  | .jmpi w => (w.ac == 0 || w.ac == 1) && (w.ac == 0 || decide (w.a.num.toNat < 64))
  | .calli w => (w.ac == 0 || w.ac == 1) && (w.ac == 0 || decide (w.a.num.toNat < 64))
  | .exitSpawn w => w.a.toNat % 2 == 0 && decide (w.a.toNat + 2 * (w.n.toNat + 1) ≤ 64)
  | .rgn w => w.base.toNat % 8 == 0
  | .scopeOpen n8 => decide (1 ≤ n8.toNat) && decide (n8.toNat ≤ 32)
  | .xset w => decide (w.a.toNat < 68) && (if w.im then w.a == 0 else w.imm8 == 0)
  | .xadd w => decide (w.a.toNat < 68) && (if w.im then w.a == 0 else w.imm8 == 0)
  | .iadd w => intGI w (fun _ => true) true true
  | .isub w => intGI w (fun _ => true) true true
  | .iabs w => int1 w (tySigned w.ty) false true (w.opx == 0)
  | .imin w => intGI w (fun _ => true) true false
  | .imax w => intGI w (fun _ => true) true false
  | .imul w => intGI w (fun _ => true) true true
  | .imulhi w => int2 w true false false
  | .imad w => int2 w true true true
  | .and w => intGI w tyN false false
  | .or w => intGI w tyN false false
  | .xor w => intGI w tyN false false
  | .not w => int1 w (tyN w.ty) false false (w.opx == 0)
  | .shl w => intGI w tyN false false
  | .shr w => intGI w tyN false false
  | .sar w => intGI w tyI false false
  | .popc w => int1 w (w.ty == 1) false false (w.opx == 0)
  | .clz w => int1 w (w.ty == 1) false false (w.opx == 0)
  | .brev w => int1 w (w.ty == 1) false false (w.opx == 0)
  | .bfe w => int2 w (w.ty == 0 || w.ty == 1) false false
  | .bfi w => int2 w (w.ty == 1) false false
  | .lea (.reg w) => tyN w.ty && intOk w false false (decide (w.opx.toNat < 8) && (w.ty == 3 || decide (w.opx.toNat < 4))) && laneSrc w.bc w.b
  | .lea (.imm w) => immOk w (tyN w.ty)
  | .sel w => tyN w.ty && intOk w false false true && laneSrc w.bc w.b
  | .icmp _ w => intGI w (fun _ => true) true false
  | .mov w => int1 w (tyN w.ty) false false (w.opx == 0)
  | .movi w => w.ty == 1 && w.a == RF0 && w.ac == 0 && !w.d.x
  | .movh w => w.ty == 1 && w.a == RF0 && w.ac == 0 && !w.d.x && decide (w.imm.toNat < 65536)
  | .cvt w => int1 w true false true (decide (w.opx.toNat < 8))
  | .fadd w => fltGI w tyF5 true
  | .fsub w => fltGI w tyF5 true
  | .fmul w => fltGI w tyF5 true
  | .ffma w => tyF5 w.ty && genOk w true false true true (decide (w.opx.toNat < 2)) && laneSrc w.ac w.a && laneSrc w.bc w.b
  | .fmin w => fltGI w tyF5 false
  | .fmax w => fltGI w tyF5 false
  | .fcmp _ w => fltGI w tyF3 false
  | .fclass w => flt1 w tyF3 false
  | .frnd w => flt1 w tyF5 true
  | .fcvt w => fcvtOk w
  | .frcp w => flt1 w tyF3 false
  | .frsq w => flt1 w tyF3 false
  | .fsqrt w => flt1 w tyF3 true
  | .fexp2 w => flt1 w tyF3 false
  | .flog2 w => flt1 w tyF3 false
  | .fsin w => flt1 w tyF3 false
  | .fcos w => flt1 w tyF3 false
  | .kdot4 w => narrowOk w (w.ty == 0) true false true (w.opx == 0)
  | .kdot8 w => narrowOk w (w.ty == 0 || w.ty == 1) true false true (w.opx == 0)
  | .kscale w => narrowOk w (w.ty == 0) false false false (w.opx == 0)
  | .kpack w => narrowOk w (w.ty == 0 || w.ty == 1) false true false (w.opx == 0 || (w.ty == 1 && w.opx == 1))
  | .kunpack w => narrowOk w (w.ty == 0 || w.ty == 1) false false false (w.opx == 0 || (w.ty == 1 && w.opx == 1))
  | .occGet w => occOk w true && noB w
  | .occSet w => occOk w true && noB w
  | .occAnd w => occOk w false && w.bc == 1
  | .occFill w => occOk w false && (w.bc == 0 || w.bc == 1)
  | .occPack w => occOk w false && noB w
  | .occUnpack w => occOk w false && w.bc == 1
  | .occCnt w => occOk w true && noB w
  | .shflIdx w => shflOk w
  | .shflUp w => shflOk w
  | .shflDn w => shflOk w
  | .shflXor w => shflOk w
  | .voteAny w => voteOk w
  | .voteAll w => voteOk w
  | .voteBal w => voteOk w
  | .scan op w => scanOk op w
  | .red op w => scanOk op w
  | .rebal _ => true
  | .ldSpT w => (w.sz == 0 || w.sz == 2 || w.sz == 4) && (!w.az || w.a == 0)
  | .sAdd w => scalGI w tyW true
  | .sSub w => scalGI w tyW true
  | .sMul w => scalGI w tyW true
  | .sMin w => scalGI w tyW false
  | .sMax w => scalGI w tyW false
  | .sAnd w => scalGI w tyN false
  | .sOr w => scalGI w tyN false
  | .sXor w => scalGI w tyN false
  | .sNot w => tyN w.ty && genOk w false false false false (w.opx == 0) && scalSrc w.ac w.a && noB w
  | .sShl w => scalGI w tyN false
  | .sShr w => scalGI w tyN false
  | .sSar w => scalGI w tyI false
  | .sCmp _ w => scalGI w tyW false
  | .sMov (.reg w) => tyW w.ty && genOk w false false false false (w.opx == 0) && scalSrc w.ac w.a && noB w
  | .sMov (.imm w) => tyW w.ty && !w.strict && w.a == RF0 && w.ac == 0
  | .sLd w => w.ow == 3 && w.b == RF0 && decide (w.a.num.toNat < 64) && (w.sz == 4 || w.sz == 5 || w.sz == 6) &&
      (w.ord == 0 || w.ord == 1) && scoOk w && !w.bp && w.ix == 0
  | .sRdl w => tyN w.ty && genOk w false false false true (w.opx == 0) && w.ac == 0 && w.bc == 1
  | .vBcast w => tyN w.ty && genOk w false false false true (w.opx == 0) && w.ac == 0 && w.bc == 1
  | .ldG w => ldSz w.sz && (w.ord == 0 || w.ord == 1) && scoOk w && (!w.bp || w.ord == 0) && gmAddr w
  | .stG w => stSz w.sz && (w.ord == 0 || w.ord == 2) && scoOk w && !w.bp && !w.fs && gmAddr w
  | .ldC w => ldSz w.sz && w.ord == 0 && scoOk w && !w.bp && (w.ow == 0 || w.ow == 1) && gmAddr w
  | .ldSp w => ldSz w.sz && (w.ord == 0 || w.ord == 1) && spAddr w
  | .stSp w => stSz w.sz && (w.ord == 0 || w.ord == 2) && !w.fs && spAddr w
  | .atomG op w => atomTy op w.sz && scoOk w && !w.bp && gmAddr w
  | .atomSp op w => atomTy op w.sz && spAddr w
  | .gfLd w => w.hs.toNat % 2 == 0 && (!w.as || decide (w.a.num.toNat < 64)) && (!w.bs || decide (w.b.num.toNat < 64))
  | .cpG2s w => cpLenOk w && !w.rel && !w.mb
  | .cpS2g w => cpLenOk w
  | .cpS2o w => decide (w.d.toNat < 64) && w.b == 0 && !w.rel && !w.shp && !w.li && !w.mb && (!w.az || w.a == 0)
  | .cpA2s w => decide (w.d.toNat < 512) && decide (w.b.toNat < 512) && !(w.rel && w.shp) && !w.li && !w.mb && (!w.az || w.a == 0)
  | .tagWany w => tagOk w true
  | .tagWall w => tagOk w false
  | .tagFfr w => tagOk w true
  | .tagClr w => tagOk w false
  | .tagRd w => w.a == 0 && !w.mi && (w.xc || w.ci == 0) && (w.imm.toNat / 64) % 512 == 0
  | .ownGive w => w.d == 0 && decide (w.nt.toNat ≤ 95) && (!w.az || w.a == 0)
  | .ownTest w => decide (w.nt.toNat ≤ 31) && (!w.az || w.a == 0)
  | .opClaim w => decide (w.fmt.toNat < 4)
  | .opSt w => w.sz == 4 || w.sz == 5 || w.sz == 6
  | .mxFeed w => w.sr || w.ss == 0
  | .acLd w => w.rs || w.a == 0
  | .acClr w => w.rs || w.a == 0
  | .mxCfg w => if w.im then w.a == 0 else w.imm == 0
  | .mxIp w => ptOk w.ae w.apt w.se w.spt && !w.cx && w.row0.toNat % 128 == 0
  | .mxOp w => ptOk w.ae w.apt w.se w.spt && !w.cx && w.row0.toNat % 128 == 0
  | .mxRw w => ptOk w.ae w.apt w.se w.spt
  | .mxNzs w => ptOk w.ae w.apt w.se w.spt
  | .twNlt w => decide (w.first.toNat + (w.cnt.toNat + 1) ≤ 16)
  | .twRun w => (w.st || w.a == RF0) && noX (shape (.twRun w))
  | .twRet w => (w.ac == 0 || w.ac == 1) && noX (shape (.twRet w)) && (w.ac == 0 || decide (w.a.num.toNat < 64))
  | .twCut w => decide (w.depth.toNat ≤ 254) && noX (shape (.twCut w))
  | .twResume w => noX (shape (.twResume w))
  | .rvInit w => decide (w.pt.toNat ≤ 23) && !w.ln && (if w.ci then w.a == 0 && w.cnt != 0 else w.cnt == 0)
  | .rvArrive w => decide (w.pt.toNat ≤ 23) && w.a == 0 && !w.ci && w.cnt == 0
  | .rvWait w => decide (w.pt.toNat ≤ 23) && !w.ln && w.a == 0 && !w.ci && w.cnt == 0
  | .rvArrw w => decide (w.pt.toNat ≤ 23) && w.a == 0 && !w.ci && w.cnt == 0
  | .mbxPost w => w.b.toNat % 16 == 0
  | .perfReq w => if w.im then w.a == 0 else w.c == 0
  | .rqRd w => w.rs || w.a == 0
  | .rqWr w => w.rs || w.a == 0
  | .csrRd w => csrOk w
  | .csrWr w => csrOk w
  | .pairWord _ s1 s2 => slotOk s1 && slotOk s2
  | _ => true

/-- The register fields are checked by the one table, but for two forms whose multiple fields are aligned to 2 only
(`exit.spawn`, and the global pair of a copy that also names a mailbox pair). -/
def regsOk : Instr → Bool
  | .exitSpawn _ => true
  | .cpG2s _ => true
  | .cpS2g _ => true
  | i => shapeOk (shape i)

/-- Is the constructor an event of the table (no instruction word)? -/
def isEvent : Instr → Bool
  | .tinvcWrite _ | .invalidationRetire | .tkillWrite _ | .frozenSetRelease _ | .rriWrite _ | .pendingSlotWrite _
  | .countedCompletion .. | .warpContextRelease .. | .translationWalk .. | .writeApplication .. | .replLock ..
  | .replUpdate .. | .copyUnit .. | .copyCompletion .. | .entryGrant _ | .deferredTrap .. | .passCompletion _
  | .scanCompletion _ | .joinRelease .. | .fragmentSwap .. | .deadlock _ | .softError _ | .moduleReset
  | .hostMailboxMessage .. | .hostPut .. | .hostGet .. | .managementWrite .. | .managementRead .. | .featlckWrite _
  | .keyLoad _ | .keyInstall | .attreqWrite _ | .firmwareImage _ | .placement _ | .admission .. | .teamCompletion _
  | .preemptionRequest .. | .victimStop .. | .snowpackSave .. | .resume .. | .traversalEvent .. | .settle ..
  | .currentGrant _ | .reservationTimeout _ | .budgetPeriod _ | .clockRatioChange _ | .powerGatingBegin _
  | .powerGatingCommit _ | .clusterWake _ => true
  | _ => false

/-- A legal encoding (02_instruction_words R52); an event is always legal. -/
def legal (i : Instr) : Bool := isEvent i || (extraOk i && regsOk i)

end Sys2Proof.Machine
end

