-- ==== Sys2Proof/WellFormed.lean ====
section
/-!
DEFINITION. Well-formed instructions: those whose encoding the spec calls legal (02_instruction_words R52). The check
itself stands in Machine/Legal.lean.
-/
namespace Sys2Proof

/-- Every field of the instruction has a value that its form allows. -/
def WellFormed (i : Instr) : Prop := Machine.legal i = true

end Sys2Proof
end

