-- ==== Sys2Proof/Decode.lean ====
section
/-!
DEFINITION. The decoder and the encoder of instruction words and clause headers (02_instruction_words R17, R35 to R52;
the layouts of each family's chapter). Decoding is total and rejects by name. A word decodes to an instruction when the
opcode map assigns it, the fields are legal, and no reserved bit is set (the encoding gives the word back).
-/
namespace Sys2Proof

open Machine

/-- Field widths of `GenW`, from bit 0 upwards. -/
def GenW.widths : List Nat := [4, 2, 2, 1, 1, 1, 2, 1, 1, 2, 3, 8, 1, 1, 8, 1, 1, 8, 1, 1]

/-- Field values of a `GenW`, from bit 0 upwards. -/
def GenW.vals (w : GenW) : List Nat :=
  [w.opx.toNat, w.bc.toNat, w.ac.toNat, bit w.sat, bit w.nb, bit w.na, w.ix.toNat, bit w.fs, bit w.strict, w.rm.toNat, w.ty.toNat, w.b.num.toNat, bit w.b.x, bit w.b.mark, w.a.num.toNat, bit w.a.x, bit w.a.mark, w.d.num.toNat, bit w.d.x, bit w.d.mark]

/-- A `GenW` from its field values. -/
def GenW.ofVals (l : List Nat) : GenW where
  d := ⟨l.getD 19 0 == 1, l.getD 18 0 == 1, BitVec.ofNat 8 (l.getD 17 0)⟩
  a := ⟨l.getD 16 0 == 1, l.getD 15 0 == 1, BitVec.ofNat 8 (l.getD 14 0)⟩
  b := ⟨l.getD 13 0 == 1, l.getD 12 0 == 1, BitVec.ofNat 8 (l.getD 11 0)⟩
  ty := BitVec.ofNat 3 (l.getD 10 0)
  rm := BitVec.ofNat 2 (l.getD 9 0)
  strict := l.getD 8 0 == 1
  fs := l.getD 7 0 == 1
  ix := BitVec.ofNat 2 (l.getD 6 0)
  na := l.getD 5 0 == 1
  nb := l.getD 4 0 == 1
  sat := l.getD 3 0 == 1
  ac := BitVec.ofNat 2 (l.getD 2 0)
  bc := BitVec.ofNat 2 (l.getD 1 0)
  opx := BitVec.ofNat 4 (l.getD 0 0)

/-- Field widths of `ImmW`, from bit 0 upwards. -/
def ImmW.widths : List Nat := [24, 3, 1, 2, 8, 1, 1, 8, 1, 1]

/-- Field values of a `ImmW`, from bit 0 upwards. -/
def ImmW.vals (w : ImmW) : List Nat :=
  [w.imm.toNat, w.ty.toNat, bit w.strict, w.ac.toNat, w.a.num.toNat, bit w.a.x, bit w.a.mark, w.d.num.toNat, bit w.d.x, bit w.d.mark]

/-- A `ImmW` from its field values. -/
def ImmW.ofVals (l : List Nat) : ImmW where
  d := ⟨l.getD 9 0 == 1, l.getD 8 0 == 1, BitVec.ofNat 8 (l.getD 7 0)⟩
  a := ⟨l.getD 6 0 == 1, l.getD 5 0 == 1, BitVec.ofNat 8 (l.getD 4 0)⟩
  ac := BitVec.ofNat 2 (l.getD 3 0)
  strict := l.getD 2 0 == 1
  ty := BitVec.ofNat 3 (l.getD 1 0)
  imm := BitVec.ofNat 24 (l.getD 0 0)

/-- Field widths of `OffW`, from bit 0 upwards. -/
def OffW.widths : List Nat := [30, 20]

/-- Field values of a `OffW`, from bit 0 upwards. -/
def OffW.vals (w : OffW) : List Nat :=
  [w.off.toNat, 0]

/-- A `OffW` from its field values. -/
def OffW.ofVals (l : List Nat) : OffW where
  off := BitVec.ofNat 30 (l.getD 0 0)

/-- Field widths of `XbW`, from bit 0 upwards. -/
def XbW.widths : List Nat := [10, 1, 2, 1, 1, 1, 1, 3, 8, 1, 1, 8, 1, 1, 8, 1, 1]

/-- Field values of a `XbW`, from bit 0 upwards. -/
def XbW.vals (w : XbW) : List Nat :=
  [w.msk.toNat, bit w.opt, w.ix.toNat, bit w.bi, bit w.strict, bit w.mi, bit w.bs, w.ty.toNat, w.b.num.toNat, bit w.b.x, bit w.b.mark, w.a.num.toNat, bit w.a.x, bit w.a.mark, w.d.num.toNat, bit w.d.x, bit w.d.mark]

/-- A `XbW` from its field values. -/
def XbW.ofVals (l : List Nat) : XbW where
  d := ⟨l.getD 16 0 == 1, l.getD 15 0 == 1, BitVec.ofNat 8 (l.getD 14 0)⟩
  a := ⟨l.getD 13 0 == 1, l.getD 12 0 == 1, BitVec.ofNat 8 (l.getD 11 0)⟩
  b := ⟨l.getD 10 0 == 1, l.getD 9 0 == 1, BitVec.ofNat 8 (l.getD 8 0)⟩
  ty := BitVec.ofNat 3 (l.getD 7 0)
  bs := l.getD 6 0 == 1
  mi := l.getD 5 0 == 1
  strict := l.getD 4 0 == 1
  bi := l.getD 3 0 == 1
  ix := BitVec.ofNat 2 (l.getD 2 0)
  opt := l.getD 1 0 == 1
  msk := BitVec.ofNat 10 (l.getD 0 0)

/-- Field widths of `RebalW`, from bit 0 upwards. -/
def RebalW.widths : List Nat := [6, 5, 2, 1, 1, 5, 8, 2, 8, 1, 1, 8, 1, 1]

/-- Field values of a `RebalW`, from bit 0 upwards. -/
def RebalW.vals (w : RebalW) : List Nat :=
  [w.ts.toNat, 0, w.ix.toNat, 0, bit w.strict, 0, w.b.toNat, 0, w.a.num.toNat, bit w.a.x, bit w.a.mark, w.d.num.toNat, bit w.d.x, bit w.d.mark]

/-- A `RebalW` from its field values. -/
def RebalW.ofVals (l : List Nat) : RebalW where
  d := ⟨l.getD 13 0 == 1, l.getD 12 0 == 1, BitVec.ofNat 8 (l.getD 11 0)⟩
  a := ⟨l.getD 10 0 == 1, l.getD 9 0 == 1, BitVec.ofNat 8 (l.getD 8 0)⟩
  b := BitVec.ofNat 8 (l.getD 6 0)
  strict := l.getD 4 0 == 1
  ix := BitVec.ofNat 2 (l.getD 2 0)
  ts := BitVec.ofNat 6 (l.getD 0 0)

/-- Field widths of `LdtW`, from bit 0 upwards. -/
def LdtW.widths : List Nat := [11, 2, 1, 1, 2, 3, 10, 6, 4, 8, 1, 1]

/-- Field values of a `LdtW`, from bit 0 upwards. -/
def LdtW.vals (w : LdtW) : List Nat :=
  [w.off.toNat, w.ix.toNat, bit w.fs, bit w.az, 0, w.sz.toNat, w.b.toNat, w.a.toNat, 0, w.d.num.toNat, bit w.d.x, bit w.d.mark]

/-- A `LdtW` from its field values. -/
def LdtW.ofVals (l : List Nat) : LdtW where
  d := ⟨l.getD 11 0 == 1, l.getD 10 0 == 1, BitVec.ofNat 8 (l.getD 9 0)⟩
  a := BitVec.ofNat 6 (l.getD 7 0)
  b := BitVec.ofNat 10 (l.getD 6 0)
  sz := BitVec.ofNat 3 (l.getD 5 0)
  az := l.getD 3 0 == 1
  fs := l.getD 2 0 == 1
  ix := BitVec.ofNat 2 (l.getD 1 0)
  off := BitVec.ofNat 11 (l.getD 0 0)

/-- Field widths of `GmW`, from bit 0 upwards. -/
def GmW.widths : List Nat := [6, 2, 2, 1, 1, 3, 2, 3, 8, 1, 1, 8, 1, 1, 8, 1, 1]

/-- Field values of a `GmW`, from bit 0 upwards. -/
def GmW.vals (w : GmW) : List Nat :=
  [w.off.toNat, w.ow.toNat, w.ix.toNat, bit w.fs, bit w.bp, w.sco.toNat, w.ord.toNat, w.sz.toNat, w.b.num.toNat, bit w.b.x, bit w.b.mark, w.a.num.toNat, bit w.a.x, bit w.a.mark, w.d.num.toNat, bit w.d.x, bit w.d.mark]

/-- A `GmW` from its field values. -/
def GmW.ofVals (l : List Nat) : GmW where
  d := ⟨l.getD 16 0 == 1, l.getD 15 0 == 1, BitVec.ofNat 8 (l.getD 14 0)⟩
  a := ⟨l.getD 13 0 == 1, l.getD 12 0 == 1, BitVec.ofNat 8 (l.getD 11 0)⟩
  b := ⟨l.getD 10 0 == 1, l.getD 9 0 == 1, BitVec.ofNat 8 (l.getD 8 0)⟩
  sz := BitVec.ofNat 3 (l.getD 7 0)
  ord := BitVec.ofNat 2 (l.getD 6 0)
  sco := BitVec.ofNat 3 (l.getD 5 0)
  bp := l.getD 4 0 == 1
  fs := l.getD 3 0 == 1
  ix := BitVec.ofNat 2 (l.getD 2 0)
  ow := BitVec.ofNat 2 (l.getD 1 0)
  off := BitVec.ofNat 6 (l.getD 0 0)

/-- Field widths of `SpW`, from bit 0 upwards. -/
def SpW.widths : List Nat := [11, 2, 1, 1, 2, 3, 10, 8, 1, 1, 8, 1, 1]

/-- Field values of a `SpW`, from bit 0 upwards. -/
def SpW.vals (w : SpW) : List Nat :=
  [w.offl.toNat, w.ix.toNat, bit w.fs, bit w.az, w.ord.toNat, w.sz.toNat, w.b.toNat, w.a.num.toNat, bit w.a.x, bit w.a.mark, w.d.num.toNat, bit w.d.x, bit w.d.mark]

/-- A `SpW` from its field values. -/
def SpW.ofVals (l : List Nat) : SpW where
  d := ⟨l.getD 12 0 == 1, l.getD 11 0 == 1, BitVec.ofNat 8 (l.getD 10 0)⟩
  a := ⟨l.getD 9 0 == 1, l.getD 8 0 == 1, BitVec.ofNat 8 (l.getD 7 0)⟩
  b := BitVec.ofNat 10 (l.getD 6 0)
  sz := BitVec.ofNat 3 (l.getD 5 0)
  ord := BitVec.ofNat 2 (l.getD 4 0)
  az := l.getD 3 0 == 1
  fs := l.getD 2 0 == 1
  ix := BitVec.ofNat 2 (l.getD 1 0)
  offl := BitVec.ofNat 11 (l.getD 0 0)

/-- Field widths of `GfW`, from bit 0 upwards. -/
def GfW.widths : List Nat := [6, 1, 1, 1, 1, 1, 2, 1, 6, 8, 1, 1, 8, 1, 1, 8, 1, 1]

/-- Field values of a `GfW`, from bit 0 upwards. -/
def GfW.vals (w : GfW) : List Nat :=
  [0, bit w.bs, bit w.as, bit w.strict, bit w.bp, bit w.sc, w.ix.toNat, bit w.fs, w.hs.toNat, w.b.num.toNat, bit w.b.x, bit w.b.mark, w.a.num.toNat, bit w.a.x, bit w.a.mark, w.d.num.toNat, bit w.d.x, bit w.d.mark]

/-- A `GfW` from its field values. -/
def GfW.ofVals (l : List Nat) : GfW where
  d := ⟨l.getD 17 0 == 1, l.getD 16 0 == 1, BitVec.ofNat 8 (l.getD 15 0)⟩
  a := ⟨l.getD 14 0 == 1, l.getD 13 0 == 1, BitVec.ofNat 8 (l.getD 12 0)⟩
  b := ⟨l.getD 11 0 == 1, l.getD 10 0 == 1, BitVec.ofNat 8 (l.getD 9 0)⟩
  hs := BitVec.ofNat 6 (l.getD 8 0)
  fs := l.getD 7 0 == 1
  ix := BitVec.ofNat 2 (l.getD 6 0)
  sc := l.getD 5 0 == 1
  bp := l.getD 4 0 == 1
  strict := l.getD 3 0 == 1
  as := l.getD 2 0 == 1
  bs := l.getD 1 0 == 1

/-- Field widths of `CpW`, from bit 0 upwards. -/
def CpW.widths : List Nat := [9, 1, 1, 1, 1, 1, 6, 10, 6, 4, 10]

/-- Field values of a `CpW`, from bit 0 upwards. -/
def CpW.vals (w : CpW) : List Nat :=
  [w.soff.toNat, bit w.mb, bit w.az, bit w.li, bit w.shp, bit w.rel, w.tag.toNat, w.b.toNat, w.a.toNat, 0, w.d.toNat]

/-- A `CpW` from its field values. -/
def CpW.ofVals (l : List Nat) : CpW where
  d := BitVec.ofNat 10 (l.getD 10 0)
  a := BitVec.ofNat 6 (l.getD 8 0)
  b := BitVec.ofNat 10 (l.getD 7 0)
  tag := BitVec.ofNat 6 (l.getD 6 0)
  rel := l.getD 5 0 == 1
  shp := l.getD 4 0 == 1
  li := l.getD 3 0 == 1
  az := l.getD 2 0 == 1
  mb := l.getD 1 0 == 1
  soff := BitVec.ofNat 9 (l.getD 0 0)

/-- Field widths of `TagW`, from bit 0 upwards. -/
def TagW.widths : List Nat := [16, 2, 1, 1, 10, 6, 4, 6, 4]

/-- Field values of a `TagW`, from bit 0 upwards. -/
def TagW.vals (w : TagW) : List Nat :=
  [w.imm.toNat, w.ci.toNat, bit w.xc, bit w.mi, 0, w.a.toNat, 0, w.d.toNat, 0]

/-- A `TagW` from its field values. -/
def TagW.ofVals (l : List Nat) : TagW where
  d := BitVec.ofNat 6 (l.getD 7 0)
  a := BitVec.ofNat 6 (l.getD 5 0)
  mi := l.getD 3 0 == 1
  xc := l.getD 2 0 == 1
  ci := BitVec.ofNat 2 (l.getD 1 0)
  imm := BitVec.ofNat 16 (l.getD 0 0)

/-- Field widths of `OwnW`, from bit 0 upwards. -/
def OwnW.widths : List Nat := [12, 1, 7, 10, 6, 4, 6, 4]

/-- Field values of a `OwnW`, from bit 0 upwards. -/
def OwnW.vals (w : OwnW) : List Nat :=
  [w.toff.toNat, bit w.az, w.nt.toNat, 0, w.a.toNat, 0, w.d.toNat, 0]

/-- A `OwnW` from its field values. -/
def OwnW.ofVals (l : List Nat) : OwnW where
  d := BitVec.ofNat 6 (l.getD 6 0)
  a := BitVec.ofNat 6 (l.getD 4 0)
  nt := BitVec.ofNat 7 (l.getD 2 0)
  az := l.getD 1 0 == 1
  toff := BitVec.ofNat 12 (l.getD 0 0)

/-- Field widths of `ClaimW`, from bit 0 upwards. -/
def ClaimW.widths : List Nat := [3, 17, 20, 6, 4]

/-- Field values of a `ClaimW`, from bit 0 upwards. -/
def ClaimW.vals (w : ClaimW) : List Nat :=
  [w.fmt.toNat, 0, 0, w.k.toNat, 0]

/-- A `ClaimW` from its field values. -/
def ClaimW.ofVals (l : List Nat) : ClaimW where
  k := BitVec.ofNat 6 (l.getD 3 0)
  fmt := BitVec.ofNat 3 (l.getD 0 0)

/-- Field widths of `OpStW`, from bit 0 upwards. -/
def OpStW.widths : List Nat := [11, 2, 1, 1, 2, 3, 8, 1, 1, 8, 1, 1, 6, 4]

/-- Field values of a `OpStW`, from bit 0 upwards. -/
def OpStW.vals (w : OpStW) : List Nat :=
  [w.off.toNat, w.ix.toNat, 0, bit w.strict, 0, w.sz.toNat, w.b.num.toNat, bit w.b.x, bit w.b.mark, w.a.num.toNat, bit w.a.x, bit w.a.mark, w.k.toNat, 0]

/-- A `OpStW` from its field values. -/
def OpStW.ofVals (l : List Nat) : OpStW where
  k := BitVec.ofNat 6 (l.getD 12 0)
  a := ⟨l.getD 11 0 == 1, l.getD 10 0 == 1, BitVec.ofNat 8 (l.getD 9 0)⟩
  b := ⟨l.getD 8 0 == 1, l.getD 7 0 == 1, BitVec.ofNat 8 (l.getD 6 0)⟩
  sz := BitVec.ofNat 3 (l.getD 5 0)
  strict := l.getD 3 0 == 1
  ix := BitVec.ofNat 2 (l.getD 1 0)
  off := BitVec.ofNat 11 (l.getD 0 0)

/-- Field widths of `FeedW`, from bit 0 upwards. -/
def FeedW.widths : List Nat := [9, 1, 1, 2, 6, 1, 8, 1, 1, 8, 1, 1, 6, 4]

/-- Field values of a `FeedW`, from bit 0 upwards. -/
def FeedW.vals (w : FeedW) : List Nat :=
  [w.seg.toNat, 0, bit w.strict, w.ix.toNat, w.ss.toNat, bit w.sr, w.b.num.toNat, bit w.b.x, bit w.b.mark, w.a.num.toNat, bit w.a.x, bit w.a.mark, w.k.toNat, 0]

/-- A `FeedW` from its field values. -/
def FeedW.ofVals (l : List Nat) : FeedW where
  k := BitVec.ofNat 6 (l.getD 12 0)
  a := ⟨l.getD 11 0 == 1, l.getD 10 0 == 1, BitVec.ofNat 8 (l.getD 9 0)⟩
  b := ⟨l.getD 8 0 == 1, l.getD 7 0 == 1, BitVec.ofNat 8 (l.getD 6 0)⟩
  sr := l.getD 5 0 == 1
  ss := BitVec.ofNat 6 (l.getD 4 0)
  ix := BitVec.ofNat 2 (l.getD 3 0)
  strict := l.getD 2 0 == 1
  seg := BitVec.ofNat 9 (l.getD 0 0)

/-- Field widths of `AcLdW`, from bit 0 upwards. -/
def AcLdW.widths : List Nat := [5, 1, 1, 4, 9, 10, 6, 4, 8, 1, 1]

/-- Field values of a `AcLdW`, from bit 0 upwards. -/
def AcLdW.vals (w : AcLdW) : List Nat :=
  [0, bit w.fs, bit w.rs, w.cs.toNat, w.row.toNat, 0, w.a.toNat, 0, w.d.num.toNat, bit w.d.x, bit w.d.mark]

/-- A `AcLdW` from its field values. -/
def AcLdW.ofVals (l : List Nat) : AcLdW where
  d := ⟨l.getD 10 0 == 1, l.getD 9 0 == 1, BitVec.ofNat 8 (l.getD 8 0)⟩
  a := BitVec.ofNat 6 (l.getD 6 0)
  row := BitVec.ofNat 9 (l.getD 4 0)
  cs := BitVec.ofNat 4 (l.getD 3 0)
  rs := l.getD 2 0 == 1
  fs := l.getD 1 0 == 1

/-- Field widths of `AcClrW`, from bit 0 upwards. -/
def AcClrW.widths : List Nat := [7, 1, 1, 2, 9, 10, 6, 4, 10]

/-- Field values of a `AcClrW`, from bit 0 upwards. -/
def AcClrW.vals (w : AcClrW) : List Nat :=
  [w.nr.toNat, 0, bit w.rs, w.cb.toNat, w.row.toNat, 0, w.a.toNat, 0, 0]

/-- A `AcClrW` from its field values. -/
def AcClrW.ofVals (l : List Nat) : AcClrW where
  a := BitVec.ofNat 6 (l.getD 6 0)
  row := BitVec.ofNat 9 (l.getD 4 0)
  cb := BitVec.ofNat 2 (l.getD 3 0)
  rs := l.getD 2 0 == 1
  nr := BitVec.ofNat 7 (l.getD 0 0)

/-- Field widths of `CfgW`, from bit 0 upwards. -/
def CfgW.widths : List Nat := [11, 7, 1, 1, 10, 6, 4, 10]

/-- Field values of a `CfgW`, from bit 0 upwards. -/
def CfgW.vals (w : CfgW) : List Nat :=
  [w.imm.toNat, 0, bit w.cf, bit w.im, 0, w.a.toNat, 0, 0]

/-- A `CfgW` from its field values. -/
def CfgW.ofVals (l : List Nat) : CfgW where
  a := BitVec.ofNat 6 (l.getD 5 0)
  im := l.getD 3 0 == 1
  cf := l.getD 2 0 == 1
  imm := BitVec.ofNat 11 (l.getD 0 0)

/-- Field widths of `MxW`, from bit 0 upwards. -/
def MxW.widths : List Nat := [4, 1, 5, 1, 5, 1, 1, 2, 6, 4, 6, 4, 9, 1]

/-- Field values of a `MxW`, from bit 0 upwards. -/
def MxW.vals (w : MxW) : List Nat :=
  [0, bit w.cx, w.spt.toNat, bit w.se, w.apt.toNat, bit w.ae, bit w.clr, w.cb.toNat, w.b.toNat, 0, w.a.toNat, 0, w.row0.toNat, 0]

/-- A `MxW` from its field values. -/
def MxW.ofVals (l : List Nat) : MxW where
  row0 := BitVec.ofNat 9 (l.getD 12 0)
  a := BitVec.ofNat 6 (l.getD 10 0)
  b := BitVec.ofNat 6 (l.getD 8 0)
  cb := BitVec.ofNat 2 (l.getD 7 0)
  clr := l.getD 6 0 == 1
  ae := l.getD 5 0 == 1
  apt := BitVec.ofNat 5 (l.getD 4 0)
  se := l.getD 3 0 == 1
  spt := BitVec.ofNat 5 (l.getD 2 0)
  cx := l.getD 1 0 == 1

/-- Field widths of `NzsW`, from bit 0 upwards. -/
def NzsW.widths : List Nat := [5, 5, 1, 5, 1, 3, 6, 4, 6, 4, 6, 4]

/-- Field values of a `NzsW`, from bit 0 upwards. -/
def NzsW.vals (w : NzsW) : List Nat :=
  [0, w.spt.toNat, bit w.se, w.apt.toNat, bit w.ae, 0, w.b.toNat, 0, w.a.toNat, 0, w.d.toNat, 0]

/-- A `NzsW` from its field values. -/
def NzsW.ofVals (l : List Nat) : NzsW where
  d := BitVec.ofNat 6 (l.getD 10 0)
  a := BitVec.ofNat 6 (l.getD 8 0)
  b := BitVec.ofNat 6 (l.getD 6 0)
  ae := l.getD 4 0 == 1
  apt := BitVec.ofNat 5 (l.getD 3 0)
  se := l.getD 2 0 == 1
  spt := BitVec.ofNat 5 (l.getD 1 0)

/-- Field widths of `NltW`, from bit 0 upwards. -/
def NltW.widths : List Nat := [12, 4, 4, 10, 6, 4, 10]

/-- Field values of a `NltW`, from bit 0 upwards. -/
def NltW.vals (w : NltW) : List Nat :=
  [0, w.cnt.toNat, w.first.toNat, 0, w.a.toNat, 0, 0]

/-- A `NltW` from its field values. -/
def NltW.ofVals (l : List Nat) : NltW where
  a := BitVec.ofNat 6 (l.getD 4 0)
  first := BitVec.ofNat 4 (l.getD 2 0)
  cnt := BitVec.ofNat 4 (l.getD 1 0)

/-- Field widths of `TwRunW`, from bit 0 upwards. -/
def TwRunW.widths : List Nat := [13, 6, 1, 6, 4, 8, 1, 1, 8, 1, 1]

/-- Field values of a `TwRunW`, from bit 0 upwards. -/
def TwRunW.vals (w : TwRunW) : List Nat :=
  [0, w.ws.toNat, bit w.st, w.b.toNat, 0, w.a.num.toNat, bit w.a.x, bit w.a.mark, w.d.num.toNat, bit w.d.x, bit w.d.mark]

/-- A `TwRunW` from its field values. -/
def TwRunW.ofVals (l : List Nat) : TwRunW where
  d := ⟨l.getD 10 0 == 1, l.getD 9 0 == 1, BitVec.ofNat 8 (l.getD 8 0)⟩
  a := ⟨l.getD 7 0 == 1, l.getD 6 0 == 1, BitVec.ofNat 8 (l.getD 5 0)⟩
  b := BitVec.ofNat 6 (l.getD 3 0)
  st := l.getD 2 0 == 1
  ws := BitVec.ofNat 6 (l.getD 1 0)

/-- Field widths of `TwRetW`, from bit 0 upwards. -/
def TwRetW.widths : List Nat := [16, 1, 1, 2, 10, 8, 1, 1, 10]

/-- Field values of a `TwRetW`, from bit 0 upwards. -/
def TwRetW.vals (w : TwRetW) : List Nat :=
  [0, bit w.strict, bit w.m, w.ac.toNat, 0, w.a.num.toNat, bit w.a.x, bit w.a.mark, 0]

/-- A `TwRetW` from its field values. -/
def TwRetW.ofVals (l : List Nat) : TwRetW where
  a := ⟨l.getD 7 0 == 1, l.getD 6 0 == 1, BitVec.ofNat 8 (l.getD 5 0)⟩
  ac := BitVec.ofNat 2 (l.getD 3 0)
  m := l.getD 2 0 == 1
  strict := l.getD 1 0 == 1

/-- Field widths of `TwCutW`, from bit 0 upwards. -/
def TwCutW.widths : List Nat := [8, 5, 6, 1, 6, 4, 10, 8, 1, 1]

/-- Field values of a `TwCutW`, from bit 0 upwards. -/
def TwCutW.vals (w : TwCutW) : List Nat :=
  [w.depth.toNat, 0, w.ws.toNat, 0, w.b.toNat, 0, 0, w.d.num.toNat, bit w.d.x, bit w.d.mark]

/-- A `TwCutW` from its field values. -/
def TwCutW.ofVals (l : List Nat) : TwCutW where
  d := ⟨l.getD 9 0 == 1, l.getD 8 0 == 1, BitVec.ofNat 8 (l.getD 7 0)⟩
  b := BitVec.ofNat 6 (l.getD 4 0)
  ws := BitVec.ofNat 6 (l.getD 2 0)
  depth := BitVec.ofNat 8 (l.getD 0 0)

/-- Field widths of `TwResW`, from bit 0 upwards. -/
def TwResW.widths : List Nat := [13, 6, 1, 10, 8, 1, 1, 10]

/-- Field values of a `TwResW`, from bit 0 upwards. -/
def TwResW.vals (w : TwResW) : List Nat :=
  [0, w.ws.toNat, 0, 0, w.a.num.toNat, bit w.a.x, bit w.a.mark, 0]

/-- A `TwResW` from its field values. -/
def TwResW.ofVals (l : List Nat) : TwResW where
  a := ⟨l.getD 6 0 == 1, l.getD 5 0 == 1, BitVec.ofNat 8 (l.getD 4 0)⟩
  ws := BitVec.ofNat 6 (l.getD 1 0)

/-- Field widths of `RvW`, from bit 0 upwards. -/
def RvW.widths : List Nat := [1, 12, 1, 1, 5, 10, 6, 4, 10]

/-- Field values of a `RvW`, from bit 0 upwards. -/
def RvW.vals (w : RvW) : List Nat :=
  [0, w.cnt.toNat, bit w.ci, bit w.ln, w.pt.toNat, 0, w.a.toNat, 0, 0]

/-- A `RvW` from its field values. -/
def RvW.ofVals (l : List Nat) : RvW where
  a := BitVec.ofNat 6 (l.getD 6 0)
  pt := BitVec.ofNat 5 (l.getD 4 0)
  ln := l.getD 3 0 == 1
  ci := l.getD 2 0 == 1
  cnt := BitVec.ofNat 12 (l.getD 1 0)

/-- Field widths of `PostW`, from bit 0 upwards. -/
def PostW.widths : List Nat := [20, 6, 4, 6, 4, 6, 4]

/-- Field values of a `PostW`, from bit 0 upwards. -/
def PostW.vals (w : PostW) : List Nat :=
  [0, w.b.toNat, 0, w.a.toNat, 0, w.d.toNat, 0]

/-- A `PostW` from its field values. -/
def PostW.ofVals (l : List Nat) : PostW where
  d := BitVec.ofNat 6 (l.getD 5 0)
  a := BitVec.ofNat 6 (l.getD 3 0)
  b := BitVec.ofNat 6 (l.getD 1 0)

/-- Field widths of `PerfW`, from bit 0 upwards. -/
def PerfW.widths : List Nat := [2, 17, 1, 10, 6, 4, 10]

/-- Field values of a `PerfW`, from bit 0 upwards. -/
def PerfW.vals (w : PerfW) : List Nat :=
  [w.c.toNat, 0, bit w.im, 0, w.a.toNat, 0, 0]

/-- A `PerfW` from its field values. -/
def PerfW.ofVals (l : List Nat) : PerfW where
  a := BitVec.ofNat 6 (l.getD 4 0)
  im := l.getD 2 0 == 1
  c := BitVec.ofNat 2 (l.getD 0 0)

/-- Field widths of `DropW`, from bit 0 upwards. -/
def DropW.widths : List Nat := [20, 6, 4, 6, 4, 10]

/-- Field values of a `DropW`, from bit 0 upwards. -/
def DropW.vals (w : DropW) : List Nat :=
  [0, w.b.toNat, 0, w.a.toNat, 0, 0]

/-- A `DropW` from its field values. -/
def DropW.ofVals (l : List Nat) : DropW where
  a := BitVec.ofNat 6 (l.getD 3 0)
  b := BitVec.ofNat 6 (l.getD 1 0)

/-- Field widths of `RPostW`, from bit 0 upwards. -/
def RPostW.widths : List Nat := [16, 4, 10, 6, 4, 10]

/-- Field values of a `RPostW`, from bit 0 upwards. -/
def RPostW.vals (w : RPostW) : List Nat :=
  [w.code.toNat, 0, 0, w.a.toNat, 0, 0]

/-- A `RPostW` from its field values. -/
def RPostW.ofVals (l : List Nat) : RPostW where
  a := BitVec.ofNat 6 (l.getD 3 0)
  code := BitVec.ofNat 16 (l.getD 0 0)

/-- Field widths of `SpawnW`, from bit 0 upwards. -/
def SpawnW.widths : List Nat := [2, 18, 10, 6, 4, 10]

/-- Field values of a `SpawnW`, from bit 0 upwards. -/
def SpawnW.vals (w : SpawnW) : List Nat :=
  [w.n.toNat, 0, 0, w.a.toNat, 0, 0]

/-- A `SpawnW` from its field values. -/
def SpawnW.ofVals (l : List Nat) : SpawnW where
  a := BitVec.ofNat 6 (l.getD 3 0)
  n := BitVec.ofNat 2 (l.getD 0 0)

/-- Field widths of `RgnW`, from bit 0 upwards. -/
def RgnW.widths : List Nat := [8, 32, 8, 2]

/-- Field values of a `RgnW`, from bit 0 upwards. -/
def RgnW.vals (w : RgnW) : List Nat :=
  [0, w.mask.toNat, w.base.toNat, 0]

/-- A `RgnW` from its field values. -/
def RgnW.ofVals (l : List Nat) : RgnW where
  base := BitVec.ofNat 8 (l.getD 2 0)
  mask := BitVec.ofNat 32 (l.getD 1 0)

/-- Field widths of `IndW`, from bit 0 upwards. -/
def IndW.widths : List Nat := [11, 2, 5, 2, 10, 8, 1, 1, 10]

/-- Field values of a `IndW`, from bit 0 upwards. -/
def IndW.vals (w : IndW) : List Nat :=
  [0, w.ix.toNat, 0, w.ac.toNat, 0, w.a.num.toNat, bit w.a.x, bit w.a.mark, 0]

/-- A `IndW` from its field values. -/
def IndW.ofVals (l : List Nat) : IndW where
  a := ⟨l.getD 7 0 == 1, l.getD 6 0 == 1, BitVec.ofNat 8 (l.getD 5 0)⟩
  ac := BitVec.ofNat 2 (l.getD 3 0)
  ix := BitVec.ofNat 2 (l.getD 1 0)

/-- The 50 low bits of a word from its layout's widths and values. -/
def bodyOf (ws vs : List Nat) : Nat := pack (ws.zip vs)

/-- The D field of a rejoin register: NUM 72 + M (13_control_flow R290). -/
def jNum (j : BitVec 3) : Nat := 72 + j.toNat

/-- Widths of `brx` and `jarm`: OFF, A, D NUM, D flags. -/
def brxWidths : List Nat := [30, 4, 6, 3, 7]

/-- Widths of an index word: IMM8, zero, IM, B, A NUM, A flags, D low, D high. -/
def idxWidths : List Nat := [8, 11, 1, 10, 8, 2, 2, 8]

/-- Field values of an index word (07_registers R181). -/
def IdxW.vals (w : IdxW) : List Nat := [w.imm8.toNat, 0, bit w.im, 0, w.a.toNat, 0, w.d.toNat, 16]

/-- An index word from its field values. -/
def IdxW.ofVals (l : List Nat) : IdxW where
  d := BitVec.ofNat 2 (l.getD 6 0)
  a := BitVec.ofNat 8 (l.getD 4 0)
  im := l.getD 2 0 == 1
  imm8 := BitVec.ofNat 8 (l.getD 0 0)

/-- Field values of `brx`: the high D bits hold 0b0001001 (13_control_flow R290). -/
def BrxW.vals (w : BrxW) : List Nat := [w.off.toNat, w.p.toNat, 0, w.j.toNat, 9]

/-- A `brx` from its field values. -/
def BrxW.ofVals (l : List Nat) : BrxW where
  j := BitVec.ofNat 3 (l.getD 3 0)
  p := BitVec.ofNat 4 (l.getD 1 0)
  off := BitVec.ofNat 30 (l.getD 0 0)

/-- Field values of `jarm`. -/
def JarmW.vals (w : JarmW) : List Nat := [w.off.toNat, 0, 0, w.j.toNat, 9]

/-- A `jarm` from its field values. -/
def JarmW.ofVals (l : List Nat) : JarmW where
  j := BitVec.ofNat 3 (l.getD 3 0)
  off := BitVec.ofNat 30 (l.getD 0 0)

/-- Widths of `rq.rd`: OFF, RS, zero, B, A, zero, D, zero. -/
def rqWidths : List Nat := [12, 1, 7, 6, 4, 6, 4, 6, 4]

/-- Widths of `csr.rd` and `csr.wr`. -/
def csrWidths : List Nat := [12, 1, 7, 10, 6, 4, 6, 4]

/-- SUB of a comparison (08_lane_arithmetic R201). -/
def Cc.code : Cc → Nat
  | .eq => 0 | .ne => 1 | .lt => 2 | .le => 3 | .gt => 4 | .ge => 5

/-- SUB of a floating comparison (08_lane_arithmetic R207). -/
def FCc.code : FCc → Nat
  | .eq => 0 | .ne => 1 | .lt => 2 | .le => 3 | .gt => 4 | .ge => 5 | .un => 6 | .ord => 7

/-- SUB of a crossbar operator (02_instruction_words R50). -/
def XOp.code : XOp → Nat
  | .add => 0 | .min => 1 | .max => 2 | .and => 3 | .or => 4 | .xor => 5 | .fadd => 6 | .fmin => 7 | .fmax => 8

/-- SUB of an atomic (04_caches_scratchpad R105). -/
def AOp.code : AOp → Nat
  | .add => 0 | .min => 1 | .max => 2 | .and => 3 | .or => 4 | .xor => 5 | .exch => 6 | .cas => 7 | .fadd => 8

/-- SUB of a fence (06_consistency R140). -/
def Scope.code : Scope → Nat
  | .warp => 0 | .team => 1 | .die => 2 | .pkg => 3 | .sys => 4

/-- The comparison of a SUB value. -/
def Cc.ofCode : Nat → Option Cc
  | 0 => some .eq | 1 => some .ne | 2 => some .lt | 3 => some .le | 4 => some .gt | 5 => some .ge | _ => none

/-- The floating comparison of a SUB value. -/
def FCc.ofCode : Nat → Option FCc
  | 0 => some .eq | 1 => some .ne | 2 => some .lt | 3 => some .le | 4 => some .gt | 5 => some .ge
  | 6 => some .un | 7 => some .ord | _ => none

/-- The crossbar operator of a SUB value. -/
def XOp.ofCode : Nat → Option XOp
  | 0 => some .add | 1 => some .min | 2 => some .max | 3 => some .and | 4 => some .or | 5 => some .xor
  | 6 => some .fadd | 7 => some .fmin | 8 => some .fmax | _ => none

/-- The atomic operator of a SUB value. -/
def AOp.ofCode : Nat → Option AOp
  | 0 => some .add | 1 => some .min | 2 => some .max | 3 => some .and | 4 => some .or | 5 => some .xor
  | 6 => some .exch | 7 => some .cas | 8 => some .fadd | _ => none

/-- The scope of a SUB value. -/
def Scope.ofCode : Nat → Option Scope
  | 0 => some .warp | 1 => some .team | 2 => some .die | 3 => some .pkg | 4 => some .sys | _ => none

/-- MAJ, SUB and the 50 low bits of a form. -/
structure Enc where
  maj  : Nat
  sub  : Nat
  body : Nat
  deriving DecidableEq, Repr

/-- A generic word. -/
def genE (maj sub : Nat) (w : GenW) : Enc := ⟨maj, sub, bodyOf GenW.widths w.vals⟩

/-- A generic word or its immediate variant, at SUB + 0x20 (02_instruction_words R49). -/
def giE (maj sub : Nat) : GI → Enc
  | .reg w => genE maj sub w
  | .imm w => ⟨maj, sub + 32, bodyOf ImmW.widths w.vals⟩

/-- The encoding of every full word (02_instruction_words R49). Events, and pair words, have none here. -/
def encF : Instr → Option Enc
  | .nop => some ⟨0, 0, 0⟩
  | .yield => some ⟨0, 1, 0⟩
  | .yieldW => some ⟨0, 1, 1⟩
  | .bra w => some ⟨1, 0, bodyOf OffW.widths w.vals⟩
  | .brx w => some ⟨2, 0, bodyOf brxWidths w.vals⟩
  | .jmpi w => some ⟨3, 0, bodyOf IndW.widths w.vals⟩
  | .call w => some ⟨4, 0, bodyOf OffW.widths w.vals⟩
  | .calli w => some ⟨5, 0, bodyOf IndW.widths w.vals⟩
  | .ret => some ⟨6, 0, 0⟩
  | .jarm w => some ⟨7, 0, bodyOf brxWidths w.vals⟩
  | .join j => some ⟨8, 0, bodyOf brxWidths [0, 0, 0, j.toNat, 9]⟩
  | .exit => some ⟨9, 0, 0⟩
  | .exitSpawn w => some ⟨9, 1, bodyOf SpawnW.widths w.vals⟩
  | .rgn w => some ⟨10, 0, bodyOf RgnW.widths w.vals⟩
  | .scopeOpen n => some ⟨11, 0, n.toNat⟩
  | .scopeClose => some ⟨11, 1, 0⟩
  | .xset w => some ⟨12, 0, bodyOf idxWidths w.vals⟩
  | .xadd w => some ⟨12, 1, bodyOf idxWidths w.vals⟩
  | .iadd w => some (giE 16 0 w)
  | .isub w => some (giE 16 1 w)
  | .iabs w => some (genE 16 2 w)
  | .imin w => some (giE 16 3 w)
  | .imax w => some (giE 16 4 w)
  | .imul w => some (giE 17 0 w)
  | .imulhi w => some (genE 17 1 w)
  | .imad w => some (genE 17 2 w)
  | .and w => some (giE 18 0 w)
  | .or w => some (giE 18 1 w)
  | .xor w => some (giE 18 2 w)
  | .not w => some (genE 18 3 w)
  | .shl w => some (giE 19 0 w)
  | .shr w => some (giE 19 1 w)
  | .sar w => some (giE 19 2 w)
  | .popc w => some (genE 20 0 w)
  | .clz w => some (genE 20 1 w)
  | .brev w => some (genE 20 2 w)
  | .bfe w => some (genE 21 0 w)
  | .bfi w => some (genE 21 1 w)
  | .lea w => some (giE 22 0 w)
  | .sel w => some (genE 23 0 w)
  | .icmp cc w => some (giE 24 cc.code w)
  | .mov w => some (genE 25 0 w)
  | .movi w => some ⟨25, 33, bodyOf ImmW.widths w.vals⟩
  | .movh w => some ⟨25, 34, bodyOf ImmW.widths w.vals⟩
  | .cvt w => some (genE 26 0 w)
  | .fadd w => some (giE 32 0 w)
  | .fsub w => some (giE 32 1 w)
  | .fmul w => some (giE 32 2 w)
  | .fmin w => some (giE 32 3 w)
  | .fmax w => some (giE 32 4 w)
  | .ffma w => some (genE 33 0 w)
  | .fcmp cc w => some (giE 34 cc.code w)
  | .fclass w => some (genE 35 0 w)
  | .frnd w => some (genE 36 0 w)
  | .fcvt w => some (genE 37 0 w)
  | .frcp w => some (genE 38 0 w)
  | .frsq w => some (genE 38 1 w)
  | .fsqrt w => some (genE 38 2 w)
  | .fexp2 w => some (genE 39 0 w)
  | .flog2 w => some (genE 39 1 w)
  | .fsin w => some (genE 39 2 w)
  | .fcos w => some (genE 39 3 w)
  | .kdot4 w => some (genE 48 0 w)
  | .kdot8 w => some (genE 49 0 w)
  | .kscale w => some (genE 50 0 w)
  | .kpack w => some (genE 51 0 w)
  | .kunpack w => some (genE 52 0 w)
  | .occGet w => some (genE 56 0 w)
  | .occSet w => some (genE 56 1 w)
  | .occAnd w => some (genE 56 2 w)
  | .occFill w => some (genE 56 3 w)
  | .occPack w => some (genE 56 4 w)
  | .occUnpack w => some (genE 56 5 w)
  | .occCnt w => some (genE 56 6 w)
  | .shflIdx w => some ⟨64, 0, bodyOf XbW.widths w.vals⟩
  | .shflUp w => some ⟨64, 1, bodyOf XbW.widths w.vals⟩
  | .shflDn w => some ⟨64, 2, bodyOf XbW.widths w.vals⟩
  | .shflXor w => some ⟨64, 3, bodyOf XbW.widths w.vals⟩
  | .voteAny w => some ⟨65, 0, bodyOf XbW.widths w.vals⟩
  | .voteAll w => some ⟨65, 1, bodyOf XbW.widths w.vals⟩
  | .voteBal w => some ⟨65, 2, bodyOf XbW.widths w.vals⟩
  | .scan op w => some ⟨66, op.code, bodyOf XbW.widths w.vals⟩
  | .red op w => some ⟨67, op.code, bodyOf XbW.widths w.vals⟩
  | .rebal w => some ⟨68, 0, bodyOf RebalW.widths w.vals⟩
  | .ldSpT w => some ⟨69, 0, bodyOf LdtW.widths w.vals⟩
  | .sAdd w => some (giE 80 0 w)
  | .sSub w => some (giE 80 1 w)
  | .sMul w => some (giE 80 2 w)
  | .sMin w => some (giE 80 3 w)
  | .sMax w => some (giE 80 4 w)
  | .sAnd w => some (giE 81 0 w)
  | .sOr w => some (giE 81 1 w)
  | .sXor w => some (giE 81 2 w)
  | .sNot w => some (genE 81 3 w)
  | .sShl w => some (giE 81 4 w)
  | .sShr w => some (giE 81 5 w)
  | .sSar w => some (giE 81 6 w)
  | .sCmp cc w => some (giE 82 cc.code w)
  | .sMov w => some (giE 83 0 w)
  | .sLd w => some ⟨84, 0, bodyOf GmW.widths w.vals⟩
  | .sRdl w => some (genE 85 0 w)
  | .vBcast w => some (genE 86 0 w)
  | .ldG w => some ⟨96, 0, bodyOf GmW.widths w.vals⟩
  | .stG w => some ⟨97, 0, bodyOf GmW.widths w.vals⟩
  | .ldSp w => some ⟨98, 0, bodyOf SpW.widths w.vals⟩
  | .stSp w => some ⟨99, 0, bodyOf SpW.widths w.vals⟩
  | .ldC w => some ⟨100, 0, bodyOf GmW.widths w.vals⟩
  | .atomG op w => some ⟨101, op.code, bodyOf GmW.widths w.vals⟩
  | .atomSp op w => some ⟨102, op.code, bodyOf SpW.widths w.vals⟩
  | .fence sc => some ⟨103, sc.code, 0⟩
  | .gfLd w => some ⟨104, 0, bodyOf GfW.widths w.vals⟩
  | .cpG2s w => some ⟨112, 0, bodyOf CpW.widths w.vals⟩
  | .cpS2g w => some ⟨112, 1, bodyOf CpW.widths w.vals⟩
  | .cpS2o w => some ⟨112, 2, bodyOf CpW.widths w.vals⟩
  | .cpA2s w => some ⟨112, 3, bodyOf CpW.widths w.vals⟩
  | .cpHalt t => some ⟨113, 0, t.toNat * 2 ^ 14⟩
  | .cpGo t => some ⟨113, 1, t.toNat * 2 ^ 14⟩
  | .tagWany w => some ⟨114, 0, bodyOf TagW.widths w.vals⟩
  | .tagWall w => some ⟨114, 1, bodyOf TagW.widths w.vals⟩
  | .tagFfr w => some ⟨114, 2, bodyOf TagW.widths w.vals⟩
  | .tagClr w => some ⟨114, 3, bodyOf TagW.widths w.vals⟩
  | .tagRd w => some ⟨114, 4, bodyOf TagW.widths w.vals⟩
  | .ownGive w => some ⟨115, 0, bodyOf OwnW.widths w.vals⟩
  | .ownTest w => some ⟨115, 1, bodyOf OwnW.widths w.vals⟩
  | .opClaim w => some ⟨120, 0, bodyOf ClaimW.widths w.vals⟩
  | .opRel k => some ⟨120, 1, k.toNat * 2 ^ 40⟩
  | .opSt w => some ⟨120, 2, bodyOf OpStW.widths w.vals⟩
  | .mxFeed w => some ⟨121, 0, bodyOf FeedW.widths w.vals⟩
  | .acLd w => some ⟨121, 1, bodyOf AcLdW.widths w.vals⟩
  | .acClr w => some ⟨121, 2, bodyOf AcClrW.widths w.vals⟩
  | .mxCfg w => some ⟨122, 0, bodyOf CfgW.widths w.vals⟩
  | .mxIp w => some ⟨122, 1, bodyOf MxW.widths w.vals⟩
  | .mxOp w => some ⟨122, 2, bodyOf MxW.widths w.vals⟩
  | .mxRw w => some ⟨122, 3, bodyOf MxW.widths w.vals⟩
  | .mxNzs w => some ⟨122, 4, bodyOf NzsW.widths w.vals⟩
  | .twNlt w => some ⟨124, 0, bodyOf NltW.widths w.vals⟩
  | .twRun w => some ⟨124, 1, bodyOf TwRunW.widths w.vals⟩
  | .twRet w => some ⟨124, 2, bodyOf TwRetW.widths w.vals⟩
  | .twCut w => some ⟨124, 3, bodyOf TwCutW.widths w.vals⟩
  | .twResume w => some ⟨124, 4, bodyOf TwResW.widths w.vals⟩
  | .rvInit w => some ⟨125, 0, bodyOf RvW.widths w.vals⟩
  | .rvArrive w => some ⟨125, 1, bodyOf RvW.widths w.vals⟩
  | .rvWait w => some ⟨125, 2, bodyOf RvW.widths w.vals⟩
  | .rvArrw w => some ⟨125, 3, bodyOf RvW.widths w.vals⟩
  | .mbxPost w => some ⟨125, 4, bodyOf PostW.widths w.vals⟩
  | .perfReq w => some ⟨125, 5, bodyOf PerfW.widths w.vals⟩
  | .trap c => some ⟨126, 0, c.toNat⟩
  | .rte => some ⟨126, 1, 0⟩
  | .rqRd w => some ⟨126, 2, bodyOf rqWidths [w.off.toNat, bit w.rs, 0, 0, 0, w.a.toNat, 0, w.r.toNat, 0]⟩
  | .rqWr w => some ⟨126, 3, bodyOf rqWidths [w.off.toNat, bit w.rs, 0, w.r.toNat, 0, w.a.toNat, 0, 0, 0]⟩
  | .trapDrop w => some ⟨126, 4, bodyOf DropW.widths w.vals⟩
  | .csrRd w => some ⟨126, 5, bodyOf csrWidths [w.num.toNat, bit w.w64, 0, 0, 0, 0, w.r.toNat, 0]⟩
  | .csrWr w => some ⟨126, 6, bodyOf csrWidths [w.num.toNat, bit w.w64, 0, 0, w.r.toNat, 0, 0, 0]⟩
  | .ringPost w => some ⟨126, 7, bodyOf RPostW.widths w.vals⟩
  | .halt => some ⟨126, 8, 0⟩
  | _ => none

/-- Widths of a pair slot's fields, from bit 0 (02_instruction_words R43). -/
def slotWidths : List Nat := [1, 1, 1, 1, 2, 1, 1, 8, 8, 7]

/-- Field values of a pair slot. -/
def PSlot.vals (s : PSlot) : List Nat :=
  [0, bit s.kp, bit s.strict, bit s.sat, s.rm.toNat, bit s.imm, bit s.al, s.a.toNat, s.d.toNat, s.op.toNat]

/-- A pair slot from its field values. -/
def PSlot.ofVals (l : List Nat) : PSlot where
  op := BitVec.ofNat 7 (l.getD 9 0)
  d := BitVec.ofNat 8 (l.getD 8 0)
  a := BitVec.ofNat 8 (l.getD 7 0)
  al := l.getD 6 0 == 1
  imm := l.getD 5 0 == 1
  rm := BitVec.ofNat 2 (l.getD 4 0)
  sat := l.getD 3 0 == 1
  strict := l.getD 2 0 == 1
  kp := l.getD 1 0 == 1

/-- The 64-bit word of an instruction (02_instruction_words R35, R43); 0 for an event. -/
def encodeNat : Instr → Nat
  | .pairWord ch s1 s2 => pack [(31, bodyOf slotWidths s2.vals), (31, bodyOf slotWidths s1.vals), (1, bit ch), (1, 1)]
  | i =>
    match encF i with
    | some e => pack [(50, e.body), (6, e.sub), (7, e.maj)]
    | none => 0

/-- The word of a well-formed instruction. -/
def encode (i : Instr) : DWord := BitVec.ofNat 64 (encodeNat i)

/-- The instruction that MAJ, SUB and the 50 low bits name, before the legality checks. -/
def candidateF (maj sub b : Nat) : Option Instr :=
  match maj with
  | 0 =>
    match sub with
    | 0 => some .nop
    | 1 => some (if b % 2 = 1 then .yieldW else .yield)
    | _ => none
  | 1 =>
    match sub with
    | 0 => some (.bra (.ofVals (unpack OffW.widths b)))
    | _ => none
  | 2 =>
    match sub with
    | 0 => some (.brx (.ofVals (unpack brxWidths b)))
    | _ => none
  | 3 =>
    match sub with
    | 0 => some (.jmpi (.ofVals (unpack IndW.widths b)))
    | _ => none
  | 4 =>
    match sub with
    | 0 => some (.call (.ofVals (unpack OffW.widths b)))
    | _ => none
  | 5 =>
    match sub with
    | 0 => some (.calli (.ofVals (unpack IndW.widths b)))
    | _ => none
  | 6 =>
    match sub with
    | 0 => some .ret
    | _ => none
  | 7 =>
    match sub with
    | 0 => some (.jarm (.ofVals (unpack brxWidths b)))
    | _ => none
  | 8 =>
    match sub with
    | 0 => some (.join (BitVec.ofNat 3 ((unpack brxWidths b).getD 3 0)))
    | _ => none
  | 9 =>
    match sub with
    | 0 => some .exit
    | 1 => some (.exitSpawn (.ofVals (unpack SpawnW.widths b)))
    | _ => none
  | 10 =>
    match sub with
    | 0 => some (.rgn (.ofVals (unpack RgnW.widths b)))
    | _ => none
  | 11 =>
    match sub with
    | 0 => some (.scopeOpen (BitVec.ofNat 6 b))
    | 1 => some .scopeClose
    | _ => none
  | 12 =>
    match sub with
    | 0 => some (.xset (.ofVals (unpack idxWidths b)))
    | 1 => some (.xadd (.ofVals (unpack idxWidths b)))
    | _ => none
  | 16 =>
    match sub with
    | 0 => some (.iadd (.reg (.ofVals (unpack GenW.widths b))))
    | 32 => some (.iadd (.imm (.ofVals (unpack ImmW.widths b))))
    | 1 => some (.isub (.reg (.ofVals (unpack GenW.widths b))))
    | 33 => some (.isub (.imm (.ofVals (unpack ImmW.widths b))))
    | 2 => some (.iabs (.ofVals (unpack GenW.widths b)))
    | 3 => some (.imin (.reg (.ofVals (unpack GenW.widths b))))
    | 35 => some (.imin (.imm (.ofVals (unpack ImmW.widths b))))
    | 4 => some (.imax (.reg (.ofVals (unpack GenW.widths b))))
    | 36 => some (.imax (.imm (.ofVals (unpack ImmW.widths b))))
    | _ => none
  | 17 =>
    match sub with
    | 0 => some (.imul (.reg (.ofVals (unpack GenW.widths b))))
    | 32 => some (.imul (.imm (.ofVals (unpack ImmW.widths b))))
    | 1 => some (.imulhi (.ofVals (unpack GenW.widths b)))
    | 2 => some (.imad (.ofVals (unpack GenW.widths b)))
    | _ => none
  | 18 =>
    match sub with
    | 0 => some (.and (.reg (.ofVals (unpack GenW.widths b))))
    | 32 => some (.and (.imm (.ofVals (unpack ImmW.widths b))))
    | 1 => some (.or (.reg (.ofVals (unpack GenW.widths b))))
    | 33 => some (.or (.imm (.ofVals (unpack ImmW.widths b))))
    | 2 => some (.xor (.reg (.ofVals (unpack GenW.widths b))))
    | 34 => some (.xor (.imm (.ofVals (unpack ImmW.widths b))))
    | 3 => some (.not (.ofVals (unpack GenW.widths b)))
    | _ => none
  | 19 =>
    match sub with
    | 0 => some (.shl (.reg (.ofVals (unpack GenW.widths b))))
    | 32 => some (.shl (.imm (.ofVals (unpack ImmW.widths b))))
    | 1 => some (.shr (.reg (.ofVals (unpack GenW.widths b))))
    | 33 => some (.shr (.imm (.ofVals (unpack ImmW.widths b))))
    | 2 => some (.sar (.reg (.ofVals (unpack GenW.widths b))))
    | 34 => some (.sar (.imm (.ofVals (unpack ImmW.widths b))))
    | _ => none
  | 20 =>
    match sub with
    | 0 => some (.popc (.ofVals (unpack GenW.widths b)))
    | 1 => some (.clz (.ofVals (unpack GenW.widths b)))
    | 2 => some (.brev (.ofVals (unpack GenW.widths b)))
    | _ => none
  | 21 =>
    match sub with
    | 0 => some (.bfe (.ofVals (unpack GenW.widths b)))
    | 1 => some (.bfi (.ofVals (unpack GenW.widths b)))
    | _ => none
  | 22 =>
    match sub with
    | 0 => some (.lea (.reg (.ofVals (unpack GenW.widths b))))
    | 32 => some (.lea (.imm (.ofVals (unpack ImmW.widths b))))
    | _ => none
  | 23 =>
    match sub with
    | 0 => some (.sel (.ofVals (unpack GenW.widths b)))
    | _ => none
  | 24 =>
    if sub < 32 then (Cc.ofCode sub).map fun cc => .icmp cc (.reg (.ofVals (unpack GenW.widths b)))
    else (Cc.ofCode (sub - 32)).map fun cc => .icmp cc (.imm (.ofVals (unpack ImmW.widths b)))
  | 25 =>
    match sub with
    | 0 => some (.mov (.ofVals (unpack GenW.widths b)))
    | 33 => some (.movi (.ofVals (unpack ImmW.widths b)))
    | 34 => some (.movh (.ofVals (unpack ImmW.widths b)))
    | _ => none
  | 26 =>
    match sub with
    | 0 => some (.cvt (.ofVals (unpack GenW.widths b)))
    | _ => none
  | 32 =>
    match sub with
    | 0 => some (.fadd (.reg (.ofVals (unpack GenW.widths b))))
    | 32 => some (.fadd (.imm (.ofVals (unpack ImmW.widths b))))
    | 1 => some (.fsub (.reg (.ofVals (unpack GenW.widths b))))
    | 33 => some (.fsub (.imm (.ofVals (unpack ImmW.widths b))))
    | 2 => some (.fmul (.reg (.ofVals (unpack GenW.widths b))))
    | 34 => some (.fmul (.imm (.ofVals (unpack ImmW.widths b))))
    | 3 => some (.fmin (.reg (.ofVals (unpack GenW.widths b))))
    | 35 => some (.fmin (.imm (.ofVals (unpack ImmW.widths b))))
    | 4 => some (.fmax (.reg (.ofVals (unpack GenW.widths b))))
    | 36 => some (.fmax (.imm (.ofVals (unpack ImmW.widths b))))
    | _ => none
  | 33 =>
    match sub with
    | 0 => some (.ffma (.ofVals (unpack GenW.widths b)))
    | _ => none
  | 34 =>
    if sub < 32 then (FCc.ofCode sub).map fun cc => .fcmp cc (.reg (.ofVals (unpack GenW.widths b)))
    else (FCc.ofCode (sub - 32)).map fun cc => .fcmp cc (.imm (.ofVals (unpack ImmW.widths b)))
  | 35 =>
    match sub with
    | 0 => some (.fclass (.ofVals (unpack GenW.widths b)))
    | _ => none
  | 36 =>
    match sub with
    | 0 => some (.frnd (.ofVals (unpack GenW.widths b)))
    | _ => none
  | 37 =>
    match sub with
    | 0 => some (.fcvt (.ofVals (unpack GenW.widths b)))
    | _ => none
  | 38 =>
    match sub with
    | 0 => some (.frcp (.ofVals (unpack GenW.widths b)))
    | 1 => some (.frsq (.ofVals (unpack GenW.widths b)))
    | 2 => some (.fsqrt (.ofVals (unpack GenW.widths b)))
    | _ => none
  | 39 =>
    match sub with
    | 0 => some (.fexp2 (.ofVals (unpack GenW.widths b)))
    | 1 => some (.flog2 (.ofVals (unpack GenW.widths b)))
    | 2 => some (.fsin (.ofVals (unpack GenW.widths b)))
    | 3 => some (.fcos (.ofVals (unpack GenW.widths b)))
    | _ => none
  | 48 =>
    match sub with
    | 0 => some (.kdot4 (.ofVals (unpack GenW.widths b)))
    | _ => none
  | 49 =>
    match sub with
    | 0 => some (.kdot8 (.ofVals (unpack GenW.widths b)))
    | _ => none
  | 50 =>
    match sub with
    | 0 => some (.kscale (.ofVals (unpack GenW.widths b)))
    | _ => none
  | 51 =>
    match sub with
    | 0 => some (.kpack (.ofVals (unpack GenW.widths b)))
    | _ => none
  | 52 =>
    match sub with
    | 0 => some (.kunpack (.ofVals (unpack GenW.widths b)))
    | _ => none
  | 56 =>
    match sub with
    | 0 => some (.occGet (.ofVals (unpack GenW.widths b)))
    | 1 => some (.occSet (.ofVals (unpack GenW.widths b)))
    | 2 => some (.occAnd (.ofVals (unpack GenW.widths b)))
    | 3 => some (.occFill (.ofVals (unpack GenW.widths b)))
    | 4 => some (.occPack (.ofVals (unpack GenW.widths b)))
    | 5 => some (.occUnpack (.ofVals (unpack GenW.widths b)))
    | 6 => some (.occCnt (.ofVals (unpack GenW.widths b)))
    | _ => none
  | 64 =>
    match sub with
    | 0 => some (.shflIdx (.ofVals (unpack XbW.widths b)))
    | 1 => some (.shflUp (.ofVals (unpack XbW.widths b)))
    | 2 => some (.shflDn (.ofVals (unpack XbW.widths b)))
    | 3 => some (.shflXor (.ofVals (unpack XbW.widths b)))
    | _ => none
  | 65 =>
    match sub with
    | 0 => some (.voteAny (.ofVals (unpack XbW.widths b)))
    | 1 => some (.voteAll (.ofVals (unpack XbW.widths b)))
    | 2 => some (.voteBal (.ofVals (unpack XbW.widths b)))
    | _ => none
  | 66 => (XOp.ofCode sub).map fun op => .scan op (.ofVals (unpack XbW.widths b))
  | 67 => (XOp.ofCode sub).map fun op => .red op (.ofVals (unpack XbW.widths b))
  | 68 =>
    match sub with
    | 0 => some (.rebal (.ofVals (unpack RebalW.widths b)))
    | _ => none
  | 69 =>
    match sub with
    | 0 => some (.ldSpT (.ofVals (unpack LdtW.widths b)))
    | _ => none
  | 80 =>
    match sub with
    | 0 => some (.sAdd (.reg (.ofVals (unpack GenW.widths b))))
    | 32 => some (.sAdd (.imm (.ofVals (unpack ImmW.widths b))))
    | 1 => some (.sSub (.reg (.ofVals (unpack GenW.widths b))))
    | 33 => some (.sSub (.imm (.ofVals (unpack ImmW.widths b))))
    | 2 => some (.sMul (.reg (.ofVals (unpack GenW.widths b))))
    | 34 => some (.sMul (.imm (.ofVals (unpack ImmW.widths b))))
    | 3 => some (.sMin (.reg (.ofVals (unpack GenW.widths b))))
    | 35 => some (.sMin (.imm (.ofVals (unpack ImmW.widths b))))
    | 4 => some (.sMax (.reg (.ofVals (unpack GenW.widths b))))
    | 36 => some (.sMax (.imm (.ofVals (unpack ImmW.widths b))))
    | _ => none
  | 81 =>
    match sub with
    | 0 => some (.sAnd (.reg (.ofVals (unpack GenW.widths b))))
    | 32 => some (.sAnd (.imm (.ofVals (unpack ImmW.widths b))))
    | 1 => some (.sOr (.reg (.ofVals (unpack GenW.widths b))))
    | 33 => some (.sOr (.imm (.ofVals (unpack ImmW.widths b))))
    | 2 => some (.sXor (.reg (.ofVals (unpack GenW.widths b))))
    | 34 => some (.sXor (.imm (.ofVals (unpack ImmW.widths b))))
    | 3 => some (.sNot (.ofVals (unpack GenW.widths b)))
    | 4 => some (.sShl (.reg (.ofVals (unpack GenW.widths b))))
    | 36 => some (.sShl (.imm (.ofVals (unpack ImmW.widths b))))
    | 5 => some (.sShr (.reg (.ofVals (unpack GenW.widths b))))
    | 37 => some (.sShr (.imm (.ofVals (unpack ImmW.widths b))))
    | 6 => some (.sSar (.reg (.ofVals (unpack GenW.widths b))))
    | 38 => some (.sSar (.imm (.ofVals (unpack ImmW.widths b))))
    | _ => none
  | 82 =>
    if sub < 32 then (Cc.ofCode sub).map fun cc => .sCmp cc (.reg (.ofVals (unpack GenW.widths b)))
    else (Cc.ofCode (sub - 32)).map fun cc => .sCmp cc (.imm (.ofVals (unpack ImmW.widths b)))
  | 83 =>
    match sub with
    | 0 => some (.sMov (.reg (.ofVals (unpack GenW.widths b))))
    | 32 => some (.sMov (.imm (.ofVals (unpack ImmW.widths b))))
    | _ => none
  | 84 =>
    match sub with
    | 0 => some (.sLd (.ofVals (unpack GmW.widths b)))
    | _ => none
  | 85 =>
    match sub with
    | 0 => some (.sRdl (.ofVals (unpack GenW.widths b)))
    | _ => none
  | 86 =>
    match sub with
    | 0 => some (.vBcast (.ofVals (unpack GenW.widths b)))
    | _ => none
  | 96 =>
    match sub with
    | 0 => some (.ldG (.ofVals (unpack GmW.widths b)))
    | _ => none
  | 97 =>
    match sub with
    | 0 => some (.stG (.ofVals (unpack GmW.widths b)))
    | _ => none
  | 98 =>
    match sub with
    | 0 => some (.ldSp (.ofVals (unpack SpW.widths b)))
    | _ => none
  | 99 =>
    match sub with
    | 0 => some (.stSp (.ofVals (unpack SpW.widths b)))
    | _ => none
  | 100 =>
    match sub with
    | 0 => some (.ldC (.ofVals (unpack GmW.widths b)))
    | _ => none
  | 101 => (AOp.ofCode sub).map fun op => .atomG op (.ofVals (unpack GmW.widths b))
  | 102 => (AOp.ofCode sub).map fun op => .atomSp op (.ofVals (unpack SpW.widths b))
  | 103 => (Scope.ofCode sub).map .fence
  | 104 =>
    match sub with
    | 0 => some (.gfLd (.ofVals (unpack GfW.widths b)))
    | _ => none
  | 112 =>
    match sub with
    | 0 => some (.cpG2s (.ofVals (unpack CpW.widths b)))
    | 1 => some (.cpS2g (.ofVals (unpack CpW.widths b)))
    | 2 => some (.cpS2o (.ofVals (unpack CpW.widths b)))
    | 3 => some (.cpA2s (.ofVals (unpack CpW.widths b)))
    | _ => none
  | 113 =>
    match sub with
    | 0 => some (.cpHalt (BitVec.ofNat 6 (b / 2 ^ 14)))
    | 1 => some (.cpGo (BitVec.ofNat 6 (b / 2 ^ 14)))
    | _ => none
  | 114 =>
    match sub with
    | 0 => some (.tagWany (.ofVals (unpack TagW.widths b)))
    | 1 => some (.tagWall (.ofVals (unpack TagW.widths b)))
    | 2 => some (.tagFfr (.ofVals (unpack TagW.widths b)))
    | 3 => some (.tagClr (.ofVals (unpack TagW.widths b)))
    | 4 => some (.tagRd (.ofVals (unpack TagW.widths b)))
    | _ => none
  | 115 =>
    match sub with
    | 0 => some (.ownGive (.ofVals (unpack OwnW.widths b)))
    | 1 => some (.ownTest (.ofVals (unpack OwnW.widths b)))
    | _ => none
  | 120 =>
    match sub with
    | 0 => some (.opClaim (.ofVals (unpack ClaimW.widths b)))
    | 1 => some (.opRel (BitVec.ofNat 6 (b / 2 ^ 40)))
    | 2 => some (.opSt (.ofVals (unpack OpStW.widths b)))
    | _ => none
  | 121 =>
    match sub with
    | 0 => some (.mxFeed (.ofVals (unpack FeedW.widths b)))
    | 1 => some (.acLd (.ofVals (unpack AcLdW.widths b)))
    | 2 => some (.acClr (.ofVals (unpack AcClrW.widths b)))
    | _ => none
  | 122 =>
    match sub with
    | 0 => some (.mxCfg (.ofVals (unpack CfgW.widths b)))
    | 1 => some (.mxIp (.ofVals (unpack MxW.widths b)))
    | 2 => some (.mxOp (.ofVals (unpack MxW.widths b)))
    | 3 => some (.mxRw (.ofVals (unpack MxW.widths b)))
    | 4 => some (.mxNzs (.ofVals (unpack NzsW.widths b)))
    | _ => none
  | 124 =>
    match sub with
    | 0 => some (.twNlt (.ofVals (unpack NltW.widths b)))
    | 1 => some (.twRun (.ofVals (unpack TwRunW.widths b)))
    | 2 => some (.twRet (.ofVals (unpack TwRetW.widths b)))
    | 3 => some (.twCut (.ofVals (unpack TwCutW.widths b)))
    | 4 => some (.twResume (.ofVals (unpack TwResW.widths b)))
    | _ => none
  | 125 =>
    match sub with
    | 0 => some (.rvInit (.ofVals (unpack RvW.widths b)))
    | 1 => some (.rvArrive (.ofVals (unpack RvW.widths b)))
    | 2 => some (.rvWait (.ofVals (unpack RvW.widths b)))
    | 3 => some (.rvArrw (.ofVals (unpack RvW.widths b)))
    | 4 => some (.mbxPost (.ofVals (unpack PostW.widths b)))
    | 5 => some (.perfReq (.ofVals (unpack PerfW.widths b)))
    | _ => none
  | 126 =>
    match sub with
    | 0 => some (.trap (BitVec.ofNat 16 b))
    | 1 => some .rte
    | 2 => (let l := unpack rqWidths b; some (.rqRd ⟨BitVec.ofNat 6 (l.getD 7 0), BitVec.ofNat 6 (l.getD 5 0), l.getD 1 0 == 1, BitVec.ofNat 12 (l.getD 0 0)⟩))
    | 3 => (let l := unpack rqWidths b; some (.rqWr ⟨BitVec.ofNat 6 (l.getD 3 0), BitVec.ofNat 6 (l.getD 5 0), l.getD 1 0 == 1, BitVec.ofNat 12 (l.getD 0 0)⟩))
    | 4 => some (.trapDrop (.ofVals (unpack DropW.widths b)))
    | 5 => (let l := unpack csrWidths b; some (.csrRd ⟨BitVec.ofNat 6 (l.getD 6 0), l.getD 1 0 == 1, BitVec.ofNat 12 (l.getD 0 0)⟩))
    | 6 => (let l := unpack csrWidths b; some (.csrWr ⟨BitVec.ofNat 6 (l.getD 4 0), l.getD 1 0 == 1, BitVec.ofNat 12 (l.getD 0 0)⟩))
    | 7 => some (.ringPost (.ofVals (unpack RPostW.widths b)))
    | 8 => some .halt
    | _ => none
  | _ => none

/-- The instruction a word's bits name, before the legality checks. -/
def candidate (w : Nat) : Option Instr :=
  if w / 2 ^ 63 % 2 = 1 then
    some (.pairWord (w / 2 ^ 62 % 2 == 1) (.ofVals (unpack slotWidths (w / 2 ^ 31 % 2 ^ 31))) (.ofVals (unpack slotWidths (w % 2 ^ 31))))
  else candidateF (w / 2 ^ 56 % 2 ^ 7) (w / 2 ^ 50 % 2 ^ 6) (w % 2 ^ 50)

/-- Why a word is no instruction (02_instruction_words R52): unassigned, or a field or reserved bit out of its limits.
Both raise ILLENC. -/
inductive Reject where
  | unassigned
  | illegalField
  deriving DecidableEq, Repr

/-- Decode one 64-bit word. -/
def decodeWord (w : DWord) : Except Reject Instr :=
  match candidate w.toNat with
  | none => .error .unassigned
  | some i => if legal i && encodeNat i == w.toNat then .ok i else .error .illegalField

/-- A clause header (02_instruction_words R17). -/
structure Header where
  len  : Nat
  wait : BitVec 12
  seta : Nat
  setb : Nat
  lp   : Bool
  yh   : Nat
  deriving DecidableEq, Repr

/-- Decode a clause header; `none` is ILLENC (02_instruction_words R17, R52). -/
def decodeHeader (w : DWord) : Option Header :=
  let n := w.toNat
  let seta := n / 2 ^ 40 % 16
  let setb := n / 2 ^ 36 % 16
  let len := n / 2 ^ 56 % 16
  if n / 2 ^ 60 = 10 ∧ len ≠ 0 ∧ (seta < 12 ∨ seta = 15) ∧ (setb < 12 ∨ setb = 15) ∧ n % 2 ^ 32 = 0 then
    some ⟨len, BitVec.ofNat 12 (n / 2 ^ 44), seta, setb, n / 2 ^ 35 % 2 == 1, n / 2 ^ 32 % 8⟩
  else none

/-- The word of a clause header. -/
def encodeHeader (h : Header) : DWord :=
  BitVec.ofNat 64 (pack [(32, 0), (3, h.yh), (1, bit h.lp), (4, h.setb), (4, h.seta), (12, h.wait.toNat), (4, h.len), (4, 10)])

/-- The instruction the decoder reads from a word laid out by the opcode table's bit numbers: one 64-bit word, bits above
`nbits` zero. -/
def decodeTableWord (nbits w : Nat) : Option Instr :=
  match decodeWord (BitVec.ofNat 64 (w % 2 ^ nbits)) with
  | .ok i => some i
  | .error _ => none

end Sys2Proof
end

