-- ==== Sys2Proof/Machine/Table.lean ====
section
/-!
DEFINITION. Sparse tables in canonical form: key and value pairs with strictly rising keys. A table with a default lists
no entry equal to it, so equal contents are equal data.
-/
namespace Sys2Proof.Machine

/-- A sparse table. -/
abbrev Table (α : Type) := List (Nat × α)

/-- The entry at a key. -/
def tget {α : Type} : Table α → Nat → Option α
  | [], _ => none
  | (k, v) :: r, j => if k = j then some v else tget r j

/-- The entry at a key, or a default. -/
def tgetD {α : Type} (t : Table α) (k : Nat) (d : α) : α := (tget t k).getD d

/-- Set an entry, keeping the keys strictly rising. -/
def tput {α : Type} : Table α → Nat → α → Table α
  | [], j, x => [(j, x)]
  | (k, v) :: r, j, x =>
    if j < k then (j, x) :: (k, v) :: r
    else if j = k then (j, x) :: r
    else (k, v) :: tput r j x

/-- Remove an entry. -/
def tdel {α : Type} : Table α → Nat → Table α
  | [], _ => []
  | (k, v) :: r, j => if k = j then tdel r j else (k, v) :: tdel r j

/-- Change the entry at a key, if there is one. -/
def tmod {α : Type} : Table α → Nat → (α → α) → Table α
  | [], _, _ => []
  | (k, v) :: r, j, f => if k = j then (k, f v) :: r else (k, v) :: tmod r j f

/-- Set an entry of a table whose unlisted keys hold `d`. -/
def tset {α : Type} [DecidableEq α] (d : α) (t : Table α) (k : Nat) (x : α) : Table α :=
  if x = d then tdel t k else tput t k x

/-- Are all keys above `b` and strictly rising? -/
def tsorted {α : Type} : Nat → Table α → Bool
  | _, [] => true
  | b, (k, _) :: r => decide (b ≤ k) && tsorted (k + 1) r

/-- Canonical form: strictly rising keys, no entry equal to the default. -/
def twf {α : Type} [DecidableEq α] (d : Option α) (t : Table α) : Bool :=
  tsorted 0 t && t.all fun e => some e.2 != d

/-- Build a table by setting entries in turn. -/
def tputs {α : Type} (t : Table α) : List (Nat × α) → Table α
  | [] => t
  | (k, v) :: r => tputs (tput t k v) r

/-- Change every value, leaving the keys. -/
def tmapv {α : Type} (t : Table α) (f : α → α) : Table α := t.map fun e => (e.1, f e.2)

/-- Replace the element at a position of a list. -/
def lset {α : Type} (l : List α) (n : Nat) (x : α) : List α := l.set n x

/-- Change the element at a position of a list. -/
def lmod {α : Type} (l : List α) (n : Nat) (f : α → α) : List α := l.modify n f

end Sys2Proof.Machine
end

