-- ==== Sys2Proof/Machine/State.lean ====
section
/-!
DEFINITION. The whole state of the AK3 module as plain data: every register, table, memory and unit the spec names
(INVENTORY.md lists each with its rule), the turns to come, and the machine right after module reset.
-/
namespace Sys2Proof.Machine

/-- A vector register: the occupied lanes in ascending order with their values (07_registers R159). -/
abbrev VReg := Table Word

/-- A predicate register (07_registers R161). -/
structure PReg where
  map : Lanes
  val : Lanes
  deriving DecidableEq, Repr

/-- A vacant predicate register. -/
def PReg.reset : PReg := ⟨0, 0⟩

/-- A rejoin register and its join state (07_registers R164; 13_control_flow R289); `stk` is the recorded return stack. -/
structure JReg where
  exp : Lanes
  arr : Lanes
  jpc : DWord
  out : Nat
  dj  : Nat
  ord : Nat
  stk : List DWord
  deriving DecidableEq, Repr

/-- A rejoin register at warp creation; `m` is its number (13_control_flow R289). -/
def JReg.reset (m : Nat) : JReg := ⟨0, 0, 0, 15, 0, m, []⟩

/-- What a fragment is: one of the program's, the trap handler's, or an invocation of a walk (15 R336; 16 R372). -/
inductive Kind where
  | normal
  | handler
  | inv (walk : Nat)
  deriving DecidableEq, Repr

/-- What a fragment or context waits on (13_control_flow R286): the clause's flags, a rendezvous point, the release before an
arrival, tags of a team core by mask, a pending tag, `scope.open` and `scope.close`, a reservation entry, a granted pass that
reads a slot, the accesses to a run of tiles of a team core, the end of a copy whose last unit is performed (`halt`), a walk, a walk block (`context`:
with a walk context), the ring's pending slot, the operations or
entries that `rte` and `exit` wait for, an invalidation; `fence`: the second part of a fence of package scope or wider, with
the number of the first access it holds back (06_consistency R140); or `stall`: it has not issued for a reason that does not
block it (02_instruction_words R25). -/
inductive WaitOn where
  | flags
  | rendezvous (pt : Nat)
  | arrival
  | tagAny (ci mask : Nat)
  | tagAll (ci mask : Nat)
  | tagIssue (tag : Nat)
  | scopeOpen
  | scopeClose
  | entry
  | pass (slot : Nat)
  | give (team ci first n : Nat)
  | halt (tag : Nat)
  | walk
  | block (team ci off : Nat)
  | context (team ci off : Nat)
  | ring
  | exit
  | invalidation
  | fence (seq : Nat)
  | stall
  deriving DecidableEq, Repr

/-- A fragment (13_control_flow R286, R288). `fid` is its return stack index RSX, which names it within the warp; `stk`
holds the return addresses, newest first; `hdr` is the latched clause header once the clause has been entered; `phase` is
1 when the waiting instruction has already applied its first part, and `snap` the writes that it then waits for; 2 when a tag
wait has failed, and `snap` its AUX; 3 when one has been satisfied, and `snap` what it found (05_copy_engine R126); 4 when a
`tw.cut` has taken effect, and `snap` its writes (16_traversal R379). -/
structure Frag where
  lmap  : Lanes
  cpc   : DWord
  slot  : Nat
  hdr   : Option Header
  stk   : List DWord
  rj    : Nat
  tg    : List Nat
  age   : Nat
  fid   : Nat
  kind  : Kind
  wait  : Option WaitOn
  phase : Nat
  snap  : List Nat
  deriving DecidableEq, Repr

/-- A fragment at a clause header with fresh control state (13_control_flow R286). -/
def Frag.start (l : Lanes) (pc : DWord) (fid : Nat) : Frag :=
  ⟨l, pc, 0, none, [], 15, List.replicate 24 1, 0, fid, .normal, none, 0, []⟩

/-- Where an access goes: global memory, the scratchpad of a team core (04_caches_scratchpad R89), or the accumulator
region of a team (11_matrix_engine R251; the address is 4 · (512 · row + column)). -/
inductive Target where
  | glob
  | scratch (team ci : Nat)
  | acc (team : Nat)
  deriving DecidableEq, Repr

/-- One lane's access of a counted operation: physical address (or scratchpad offset), virtual address, byte count, key,
replication, and the page's size as a power of two (global accesses; 03_memory_tiers R63). -/
structure Acc where
  lane : Nat
  tgt  : Target
  addr : Nat
  va   : DWord
  len  : Nat
  key  : Byte
  repl : Bool
  pg   : Nat
  deriving DecidableEq, Repr

/-- A release that an access carries (06_consistency R138): its scope, and the writes applied at the issuing die when it
issued. -/
structure Gate where
  scope : Scope
  snap  : List Nat
  deriving DecidableEq, Repr

/-- One operand record (15_traps_preemption R335). -/
structure OpRec where
  num  : Nat
  cls  : Nat
  map  : Lanes
  vals : List Word
  deriving DecidableEq, Repr

/-- A counted operation in flight (02_instruction_words R24 to R30): the instruction, its place, its captured operands, its
accesses, and what each performed lane has read. `dst`: its first destination register; `srcs`: the writes it read from or
made; `preds`: the writes applied at its die when it left, once it has left (atomics); `stalled`: the lanes that have reached a
locked line (06_consistency R147); `passed`: a later access of its unit to one of its bytes has been performed
(15_traps_preemption R332). -/
structure Op where
  seq   : Nat
  instr : Instr
  fid   : Nat
  cpc   : DWord
  slot  : Nat
  flag  : Nat
  dst   : Nat
  lmap  : Lanes
  emap  : Lanes
  recs  : List OpRec
  accs  : List Acc
  vals  : Table (List Byte)
  acq   : Option Scope
  gate  : Option Gate
  plain : Bool
  srcs  : List Nat
  preds : Option (List Nat)
  stalled : List Nat
  passed : Bool
  deriving DecidableEq, Repr

/-- The registers a warp and a CCC context both have (07_registers R158, R162, R163, R165), with their counted operations
and the number of the next access in program order. -/
structure Regs where
  sc  : Table Word
  x   : Table Byte
  fl  : Table Nat
  ops : List Op
  seq : Nat
  deriving DecidableEq, Repr

/-- A replay entry (15_traps_preemption R334). `fid`: the fragment that issued it, which FRG numbers. `dst` and `marks`: the first destination register and the marked registers, as
the first issue named them (07_registers R180; log entry 15). -/
structure Entry where
  word  : DWord
  instr : Instr
  cpc   : DWord
  slot  : Nat
  frg   : Nat
  fid   : Nat
  v     : Bool
  flt   : Bool
  mode  : Bool
  lmap  : Lanes
  cmap  : Lanes
  emap  : Lanes
  recs  : List OpRec
  dst   : Nat
  marks : List Nat
  deriving DecidableEq, Repr

/-- A trap frame (15_traps_preemption R329, R330). `ro` holds the fragment records, rejoin registers and flags of offsets
0x180 to 0xBFF as the trap found them, by word offset; `fid` names the trapping fragment. -/
structure Frame where
  code   : Nat
  dfr    : Bool
  arrw   : Bool
  res    : Bool
  flte   : Nat
  tlmap  : Lanes
  tfmap  : Lanes
  frg    : Nat
  rpc    : DWord
  rsl    : Nat
  aux    : DWord
  rfst   : Word
  rwst   : Word
  ssave  : List Word
  lcause : Table Nat
  laddr  : Table DWord
  ro     : Table Word
  ents   : List Entry
  fid    : Nat
  deriving DecidableEq, Repr

/-- What an invocation decides or ends: the event it runs (16_traversal R370, R373). -/
inductive WEvt where
  | enter | prune | leave
  deriving DecidableEq, Repr

/-- One lane's event that calls a routine (16_traversal R370, R372, R373): the routine, whether a settle called it, the record
to settle after it, how far it is (0 ready, 1 chosen for the next invocation, 2 its invocation runs, 3 it has returned), the
stack entry, what was read of the node, the decision, and the layout table as the event found it (R365). -/
structure LaneInv where
  evt   : WEvt
  pc    : DWord
  jrec  : Bool
  then_ : DWord
  stage : Nat
  w0    : DWord
  w1    : DWord
  keys  : List Word
  leaf  : Bool
  n     : Nat
  dec   : DWord
  nlt   : Table (List DWord)
  deriving DecidableEq, Repr

/-- One lane's settle of a join record (16_traversal R380): `seq`: the warp's accesses before it; `rel`: they are performed at die
scope; `old` the count its atomic has read; `snap` the writes it waits for, before the atomic those it releases, after it those
it acquires. -/
structure LaneSettle where
  rec_ : DWord
  old  : Option Nat
  snap : List Nat
  w0   : DWord
  w1   : DWord
  seq  : Nat
  rel  : Bool
  deriving DecidableEq, Repr

/-- A walk in progress (16_traversal R376): the block, the blocked fragment, its lanes, the lanes stopped with their status,
each lane's routine and settle in progress, and by lane the place of its last return in the warp's program order. -/
structure Walk where
  id      : Nat
  team    : Nat
  ci      : Nat
  off     : Nat
  fid     : Nat
  lmap    : Lanes
  budget  : Nat
  seq     : Nat
  stops   : Table Word
  invs    : Table LaneInv
  settles : Table LaneSettle
  since   : Table Nat
  deriving DecidableEq, Repr

/-- Where a warp's state is (15_traps_preemption R356 to R361). -/
inductive Place where
  | resident
  | stopped
  | saved
  deriving DecidableEq, Repr

/-- A warp (07_registers R158 to R171; 13_control_flow R286, R287). `v` lists the registers that are not vacant; `live` is
the two live slots; `spill` has its top first; `scopes` its innermost first as (A, n); `bricks` the runs, base first; `queue`
the operations withdrawn at a pre-emption stop. -/
structure Warp where
  core    : Nat
  wslot   : Nat
  place   : Place
  regs    : Regs
  v       : Table VReg
  p       : Table PReg
  j       : List JReg
  fst     : Word
  wst     : Word
  base    : Nat
  scopes  : List (Nat × Nat)
  bricks  : List (Nat × Nat)
  live0   : Option Frag
  live1   : Option Frag
  spill   : List Frag
  parks   : Table Frag
  last    : Nat
  run     : Nat
  other   : Bool
  aside   : Nat
  wage    : Nat
  handler : Option Frag
  frame   : Option Frame
  queue   : List Entry
  walks   : List Walk
  buf     : List Nat
  rsel    : List Nat
  exited  : Bool
  deriving DecidableEq, Repr

/-- A CCC trap record (15_traps_preemption R347). -/
structure CTrap where
  code : Nat
  dfr  : Bool
  arrw : Bool
  rsl  : Nat
  aux  : DWord
  addr : DWord
  rpc  : DWord
  deriving DecidableEq, Repr

/-- A CCC context (11_matrix_engine R243, R256, R257): its number in the cluster, its registers, its one point of control
(a fragment record with map 1), MXC, the flags of MXS, a grant fault not yet taken. -/
structure Ccc where
  ctx    : Nat
  regs   : Regs
  frag   : Frag
  mxc    : Word
  mxs    : Word
  trapd  : Option CTrap
  grantf : Option (DWord × Nat)
  exited : Bool
  deriving DecidableEq, Repr

/-- A rendezvous object (06_consistency R150). -/
structure Rv where
  gen  : Nat
  init : Bool
  exp  : Nat
  pend : Nat
  deriving DecidableEq, Repr

/-- A copy on a tag (05_copy_engine R115 to R119), as issued: `sub` its kind, `wix` its warp, `seq` its place among the warp's
accesses, `order` its name. `gva`: the global address; `sp`: the scratchpad address, and `at_` what it decodes to; `shape`: row
bytes, rows, stride; `mbox`: the mailbox; `slot`, `fmt`: the slot and its format; `row`, `col`, `ct`: the accumulator rows and
their type; `writes`: the global writes made so far; `head`: the first 64 bytes written; `fault`: the cause and address of the
unit that failed; `last`: how many units its core's copies had when it last had one (R120). -/
structure Copy where
  sub    : Nat
  wix    : Nat
  seq    : Nat
  order  : Nat
  gva    : DWord
  sp     : Nat
  at_    : Nat × Nat × Nat
  len    : Nat
  shape  : Option (Nat × Nat × Int)
  rel    : Bool
  mbox   : Option DWord
  slot   : Nat
  fmt    : Nat
  row    : Nat
  col    : Nat
  ct     : Nat
  writes : List Nat
  head   : List Byte
  fault  : Option (Nat × DWord)
  last   : Nat
  deriving DecidableEq, Repr

/-- A tag (05_copy_engine R113, R114). -/
structure Tag where
  st    : Nat
  halt  : Bool
  dh    : Bool
  err   : Bool
  dir   : Nat
  cause : Nat
  prog  : Nat
  faddr : DWord
  cp    : Option Copy
  deriving DecidableEq, Repr

/-- A copy's post that still waits for the copy's writes to be performed at package scope (05_copy_engine R119 step 8): team
core, tag, mailbox address, the 16 words. -/
structure CPost where
  ci     : Nat
  tag    : Nat
  addr   : DWord
  data   : List Word
  writes : List Nat
  deriving DecidableEq, Repr

/-- An idle tag. -/
def Tag.reset : Tag := ⟨0, false, false, false, 0, 0, 0, 0, none⟩

/-- An operand slot (11_matrix_engine R245): its state word and the bytes of its image that are not zero. -/
structure Slot where
  cl    : Bool
  fmt   : Nat
  bytes : Table Byte
  deriving DecidableEq, Repr

/-- An unclaimed slot of zeros. -/
def Slot.reset : Slot := ⟨false, 0, []⟩

/-- A reservation entry (11_matrix_engine R265; 12_sparse_rows R272). `caps` are the scalars captured at issue, `passed` the
grants to others while it was eligible, `asked` the cluster cycle at which it asked for current (17_power R384), `rows` the lists of a
granted `mx.rw`, `lists` the list objects a scan has finished. -/
structure REnt where
  id      : Nat
  team    : Nat
  ctx     : Nat
  instr   : Instr
  va      : DWord
  mxc     : Word
  caps    : List Word
  after   : Option (Nat × Nat)
  sig     : Option Nat
  tiles   : List (Nat × Nat × Nat)
  passed  : Nat
  asked   : Option Nat
  granted : Option Nat
  rows    : List (List (Nat × Nat))
  lists   : Nat
  deriving DecidableEq, Repr

/-- How far a team's completion has come (14_execution_model R321, R323); `launching`: a block is launched once the writes that
its DEP has come from are performed at package scope. -/
inductive Step3 where
  | running
  | released (writes : List Nat)
  | decrementing (left : List DWord)
  | launching (block : DWord) (writes : List Nat) (left : List DWord)
  | complete
  deriving DecidableEq, Repr

/-- A save of a victim's state (15_traps_preemption R357, R360): the unit's number in its team, the core (of the cluster-level state
the cluster) where it was made, a warp's slot, the bytes in the snowpacks and those in the save region. -/
structure Save where
  unit  : Nat
  at_   : Nat
  wslot : Nat
  snow  : Nat
  spilt : Nat
  deriving DecidableEq, Repr

/-- A team (14_execution_model R307 to R309, R315). Lists indexed by team core: `cores`, `tagBase`, `tags`, `scratch` (bytes
that are not zero, by offset), `eown` (tiles owned by E), `uses`, `saved` (team-core state held by a save); `saves`: the saves made. `cplace`: where
the cluster-level state is (OPM slots, ACS blocks, CCC contexts; 15_traps_preemption R355). `posts`: copy posts
still to make; `ents`: the reservation entries that a save holds. -/
structure Team where
  set     : Nat
  stage   : Nat
  owner   : Byte
  sys     : Bool
  pktVA   : DWord
  pkt     : List DWord
  coord   : List Word
  cluster : Nat
  cur     : Nat
  succ    : List DWord
  args    : List Word
  cores   : List Nat
  tagBase : List Nat
  tags    : List (List Tag)
  scratch : List (Table Byte)
  eown    : List (Table Unit)
  uses    : List (Table Nat)
  saved   : List Bool
  saves   : List Save
  rv      : List Rv
  slots   : List Slot
  acc     : Table Word
  nlt     : Table (List DWord)
  warps   : List Warp
  cccs    : List Ccc
  posts   : List CPost
  ents    : List REnt
  cplace  : Place
  step    : Step3
  deriving DecidableEq, Repr

/-- Where a team set stands (14_execution_model R307, R317, R318). -/
inductive SetPhase where
  | queued (die : Nat)
  | admitted (cluster : Nat)
  deriving DecidableEq, Repr

/-- A team set: its grid, coordinates, the order in which it was offered and admitted, its teams, whether it is frozen or
killed, when the oldest of its saves was made (15_traps_preemption R361), and the L2 slice that its affinity selects, if any
(14_execution_model R316). -/
structure TSet where
  grid    : Nat
  x       : Nat
  y       : Nat
  z       : Nat
  cls     : Nat
  phase   : SetPhase
  order   : Nat
  teams   : List Nat
  frozen  : Bool
  killed  : Bool
  savedAt : Nat
  slice   : Option Nat
  deriving DecidableEq, Repr

/-- A grid (14_execution_model R307, R311, R312): its packet copy, its queue, how many sets have been offered and how many
teams have completed; `refused`: it is refused for a cause, and waits to report it (15_traps_preemption R345). -/
structure Grid where
  mbox    : Option Nat
  owner   : Byte
  sys     : Bool
  pktVA   : DWord
  pkt     : List DWord
  args    : List Word
  queue   : Nat
  offered : Nat
  done    : Nat
  refused : Option Nat
  deriving DecidableEq, Repr

/-- The requesters of a cluster's current arbiter, in the order of 17_power R383; a vector pipe by its core within the cluster and
its number, a lane crossbar by its core. -/
inductive Requester where
  | mxe
  | pipe (core k : Nat)
  | xbar (core : Nat)
  | cpe
  | nzs
  | tre
  deriving DecidableEq, Repr

/-- A waiting request or a held reservation of the current arbiter (17_power R384, R385): the team, the quarters, the cluster cycle
of request or grant, the copy, walk or entry, the units, events or beats left, the bytes charged. -/
structure CurReq where
  who    : Requester
  team   : Nat
  need   : Nat
  time   : Nat
  tag    : Nat
  left   : Nat
  charge : Nat
  deriving DecidableEq, Repr

/-- Power gating of a cluster, and the cluster cycle at which it began (17_power R391). -/
inductive Power where
  | active
  | gating (since : Nat)
  | gated
  deriving DecidableEq, Repr

/-- A pre-emption of a cluster in progress (15_traps_preemption R354 to R357): the incoming set and the victims left to
stop and to save, as a team and a number (a warp's; then the team core indices; then the cluster-level state). -/
structure Preempt where
  set   : Nat
  stops : List (Nat × Nat)
  saves : List (Nat × Nat)
  deriving DecidableEq, Repr

/-- A cluster (00_scope R2; 11 R244, R265; 12 R276; 17 R384, R387, R390, R391). Gather and instruction cache lines are keyed by
line · 256 + key; `cpeTurn` is the core that the copy engine serves next, `cpeUnits` the units it has performed for each; `busyAt` is the last cycle
with work; `walkQ` holds the waiting requests for walk blocks: team, warp, fragment, and the block. -/
structure Cluster where
  entries : List REnt
  entryQ  : List UnitId
  turn    : Nat
  gcache  : Table (List Byte)
  icache  : Table (List Byte)
  reqs    : List CurReq
  held    : List CurReq
  cpeTurn : Nat
  cpeUnits : List Nat
  passes  : List Nat
  copied  : List Nat
  ratio   : Nat
  power   : Power
  clk     : Nat
  busyAt  : Nat
  walkQ   : List ((Nat × Nat × Nat) × (Nat × Nat × Nat))
  preempt : Option Preempt
  deriving DecidableEq, Repr

/-- A cluster after module reset. -/
def Cluster.reset : Cluster :=
  ⟨[], [], 0, [], [], [], [], 0, [0, 0, 0, 0], [0, 0, 0, 0], [0, 0, 0, 0], 8, .active, 0, 0, [], none⟩

/-- A core (00 R2; 04 R83, R87; 07 R167, R173, R179; 14 R320). Lines of the L1 and of the instruction cache L0 are keyed by
line · 256 + key; `scopeQ` holds the waiting
`scope.open` requests as team, warp, fragment and registers / 8. -/
structure Core where
  ifcnt  : DWord
  clk    : Nat
  l1     : Table (List Byte)
  l0     : Table (List Byte)
  lent   : Nat
  last   : Nat
  scopeQ : List (Nat × Nat × Nat × Nat)
  deriving DecidableEq, Repr

/-- A core after module reset. -/
def Core.reset : Core := ⟨0, 0, [], [], 0, 0, []⟩

/-- The clock map at module reset: every numerator is 8 (17_power R392). -/
def clkmapReset : DWord := 0x8888#64

/-- The management values in force on a die in its current period: CLKMAP, GIDLE, and CBUD by class; and the number of that period,
counted from module reset (17_power R387, R392). -/
structure Die where
  clkmap : DWord
  gidle  : DWord
  cbud   : List DWord
  period : Nat
  deriving DecidableEq, Repr

/-- A die after module reset. -/
def Die.reset : Die := ⟨clkmapReset, 0, [0, 0, 0, 0], 0⟩

/-- A write in flight (06_consistency R133 to R138, R146): up to 16 contiguous bytes, or up to a line's on a replicated page;
`pg`: its page's size as a power of two. `whole`: part of a write of a whole
256-byte block, all of whose parts have been issued (18_host_and_trust R406). `home`: 0 to 7 a compute die, 8 and 9 an I/O die. `sent`: it has left its die; `preds`: the writes applied there before it left; `dies`: where it has been
applied; `locked`: the dies that have locked its line (replicated pages only). -/
structure Write where
  id     : Nat
  src    : Option UnitId
  seq    : Nat
  die    : Nat
  owner  : Byte
  va     : DWord
  tgt    : Target
  addr   : Nat
  bytes  : List Byte
  key    : Byte
  repl   : Bool
  pg     : Nat
  whole  : Bool
  home   : Nat
  gate   : Option Gate
  sent   : Bool
  preds  : List Nat
  dies   : List Nat
  locked : List Nat
  deriving DecidableEq, Repr

/-- The key under which a 16-byte unit of memory was last written, which write gave it, and which gave the key before it, so
that its unwritten bytes keep what a read under the key returned (03_memory_tiers R71). -/
structure UKey where
  key   : Byte
  epoch : Nat
  base  : Nat
  deriving DecidableEq, Repr

/-- Check value metadata of a 256-byte block (18_host_and_trust R406); an absent block has V = 0. -/
structure Check where
  crc : Word
  key : Byte
  bad : Bool
  deriving DecidableEq, Repr

/-- One entry of a translation cache (03_memory_tiers R72): a table entry of level 0 to 3 that covers the addresses with
the given index prefix, or (level 4) an owner entry, with its words. -/
structure TEnt where
  owner : Byte
  lvl   : Nat
  pfx   : Nat
  w0    : DWord
  w1    : DWord
  deriving DecidableEq, Repr

/-- A moraine ring entry (15_traps_preemption R346), SEQ apart. -/
structure RingEnt where
  code    : Nat
  kind    : Nat
  owner   : Byte
  core    : Nat
  clus    : Nat
  ctx     : Nat
  isc     : Bool
  wsl     : Nat
  va      : DWord
  aux     : DWord
  teamid  : Nat
  payload : List Word
  deriving DecidableEq, Repr

/-- An invalidation in progress (03_memory_tiers R75, R76) and who waits for it. -/
structure Inval where
  owner : Byte
  mode  : Nat
  vpn   : Nat
  by_   : Option (UnitId × Nat)
  rq    : Option PortReq
  deriving DecidableEq, Repr

/-- The package-wide control registers (15_traps_preemption R351). -/
structure Csrs where
  owntab  : DWord
  mbxtab  : DWord
  tinva   : Word
  tinvc   : Word
  ctxbase : DWord
  rbase   : DWord
  rctl    : Word
  rwi     : Word
  rri     : Word
  deriving DecidableEq, Repr

/-- What the module has sent through its ports (18_host_and_trust R395 to R398, R404): the port, the JobID, the kind and a
status or error code, and the bytes carried. -/
structure Sent where
  port  : Nat
  job   : Nat
  err   : Bool
  code  : Nat
  addr  : DWord
  data  : List Byte
  deriving DecidableEq, Repr

/-- A put whose writes are not yet all performed at package scope (18_host_and_trust R397). -/
structure PutWait where
  rq     : PortReq
  writes : List Nat
  deriving DecidableEq, Repr

/-- The firmware that runs and the fused minimum (18_host_and_trust R402, R403). -/
structure Firmware where
  svn    : Word
  minSvn : Word
  digest : List Byte
  ok     : Bool
  deriving DecidableEq, Repr

/-- The management registers (18_host_and_trust R399, R405; 17_power R392): the words that are not at their reset value, by
number. -/
structure Mgmt where
  regs   : Table DWord
  locked : Bool
  keyv   : List DWord
  keyctl : DWord
  keyRq  : Option PortReq
  keys   : Table (List DWord)
  deriving DecidableEq, Repr

/-- Which fragment of a unit is meant: a live slot, the handler, or a CCC context's point of control. -/
inductive Sel where
  | live0
  | live1
  | handler
  | ctx
  deriving DecidableEq, Repr

/-- The unit and fragment that issues. -/
structure Cur where
  unit : UnitId
  sel  : Sel
  deriving DecidableEq, Repr

/-- A cache that lets lines go: a core's L1 or L0, a cluster's gather or instruction cache (00_scope R2). -/
inductive CacheKind where
  | l1
  | l0
  | gather
  | code
  deriving DecidableEq, Repr

/-- Whose turn it is: a core's or a CCC's next slice cycle, an event, one lane access of a counted operation, the
advance of cycle counts by some cluster cycles, a line let go by a cache, or a line of code taken by the instruction cache of a
unit's core (`l0`) or cluster. -/
inductive Turn where
  | core (c : Nat)
  | ccc (cluster : Nat)
  | event (i : Instr)
  | perform (u : UnitId) (seq lane : Nat) (fresh : Bool)
  | tick (cores clusters : List Nat) (n : Nat)
  | evict (cache : CacheKind) (node key : Nat)
  | prefetch (u : UnitId) (va : VAddr) (l0 : Bool)
  deriving DecidableEq, Repr, Inhabited

/-- The state of the module. `mem` lists the bytes of global memory written since reset, by physical address; `keys` their
units' keys; `pend` the writes that no home has serialised, in issue order; `flight` those serialised and not yet applied
everywhere, in coherence order. `agenda`, `fresh` and `nextId` are the model's own: the turns to come, the counter that
free values are drawn with, and the next name. -/
structure State where
  mem     : List Host.Cell
  keys    : Table UKey
  checks  : Table Check
  pend    : List Write
  flight  : List Write
  tlbs    : Table (List TEnt)
  inval   : Option Inval
  invalQ  : List Inval
  invDone : List (UnitId × Nat)
  csrs    : Csrs
  ringHeld : List (RingSrc × RingEnt)
  ringWait : List (RingSrc × RingEnt)
  ringOut : List Nat
  grids   : Table Grid
  rrobin  : List Nat
  sets    : Table TSet
  teams   : Table Team
  cores   : Table Core
  clusters : Table Cluster
  dies    : Table Die
  mgmt    : Mgmt
  fw      : Firmware
  sent    : List Sent
  puts    : List PutWait
  cur     : Option Cur
  agenda  : List Turn
  fresh   : Nat
  nextId  : Nat
  deriving DecidableEq, Repr

/-- The reasons the machine stops. -/
inductive Fault where
  /-- `exec` was asked to run an instruction with no issuing context in `State.cur` that exists; no step raises it (the
  step sets the context first), so it is safe: it says nothing of the hardware. -/
  | noIssuer
  deriving DecidableEq, Repr

/-- The reasons an instruction has no meaning here. -/
inductive Refusal where
  /-- The instruction of that mnemonic has no meaning yet; raised by its arm of `exec` only; safe. -/
  | notModelled (mnemonic : String)
  deriving DecidableEq, Repr

/-- The control registers at module reset (15_traps_preemption R351). -/
def Csrs.reset : Csrs := ⟨0, 0, 0, 0, 0, 0, 0, 0, 0⟩

/-- The management registers at module reset (18_host_and_trust R394, R399, R400, R405; 17_power R392). -/
def Mgmt.reset : Mgmt :=
  ⟨[], false, [0, 0, 0, 0], 0, none, []⟩

/-- The firmware after module reset: accepted, with security version 0 and no digest recorded (log entry 13). -/
def Firmware.reset : Firmware := ⟨0, 0, [], true⟩

/-- The machine right after module reset: memory unwritten, no grid, team or write, every control register zero. -/
def State.reset : State where
  mem := []
  keys := []
  checks := []
  pend := []
  flight := []
  tlbs := []
  inval := none
  invalQ := []
  invDone := []
  csrs := Csrs.reset
  ringHeld := []
  ringWait := []
  ringOut := []
  grids := []
  rrobin := [0, 0, 0, 0]
  sets := []
  teams := []
  cores := []
  clusters := []
  dies := []
  mgmt := Mgmt.reset
  fw := Firmware.reset
  sent := []
  puts := []
  cur := none
  agenda := []
  fresh := 0
  nextId := 1

end Sys2Proof.Machine
end

