-- ==== Sys2Proof/Config.lean ====
section
/-!
DEFINITION. What the spec leaves open or each module fixes: constants with no body, which nothing can evaluate, so that a
claim is true whatever they are (log entries 2, 4, 7, 10, 13, 21, 64, 85).
-/
namespace Sys2Proof.Config

/-- The turn taken when the agenda is empty (log entry 4). -/
opaque turn : Nat → Machine.Turn

/-- A byte of global memory that was never written, or is read under another key than its unit's: by address, key and the
write that last gave the unit its key (03_memory_tiers R71; log entry 2). -/
opaque freeByte (addr : Nat) (key : Byte) (epoch : Nat) : Byte

/-- The set of a cache into which a line falls (04_caches_scratchpad R83; 12_sparse_rows R276; log entry 21). `kind`: 0 an L1, 1 a gather cache,
2 an L0, 3 a cluster's instruction cache. -/
opaque cacheSet (kind line : Nat) : Nat

/-- What a scalar form reads of %lane, under its fragment's map: the form has no lane (07_registers R167; 08_lane_arithmetic R211; log
entry 64). -/
opaque scalarLane (map : Lanes) : Word

/-- The high word of a 64-bit operand that names an index or special register, which has 32 bits: by its number and its value
(08_lane_arithmetic R190; log entry 10). -/
opaque highWord (num : Nat) (low : Word) : Word

/-- The word that a trap frame gives for the lowest voting lane where no lane votes (09_narrow_formats R219; log entry 85). -/
opaque emptyVote : Word

/-- How far the result of a transcendental form lies from the exact value, before it is held to the stated bound: by form
and operand bits (08_lane_arithmetic R210; log entry 7). -/
opaque error (form : Nat) (x : Word) : Int

/-- The fused digests of the two firmware public keys (18_host_and_trust R402). -/
opaque fusedRsaDigest : List Byte
opaque fusedSlhDigest : List Byte

/-- The 128-bit device identity (18_host_and_trust R404). -/
opaque deviceId : List Byte

/-- The signatures that the device makes of a report under its identity keys, which never leave it, and their public keys
(18_host_and_trust R404; log entry 13). `n`: a fresh number, since a signature takes a random salt. -/
opaque rsaSign (n : Nat) (report : List Byte) : List Byte
opaque slhSign (n : Nat) (report : List Byte) : List Byte
opaque rsaModulus : List Byte
opaque slhPublic : List Byte

end Sys2Proof.Config
end

