-- ==== Sys2Proof/Machine/Flags.lean ====
section
/-!
DEFINITION. The status flags: the five floating flags of %fst and MXS, and the three of %wst (07_registers R166;
08_lane_arithmetic R189, R195; 11_matrix_engine R257).
-/
namespace Sys2Proof.Machine

/-- Invalid operation (08_lane_arithmetic R195). -/
def flIV : Word := 1
/-- Division by zero. -/
def flDZ : Word := 2
/-- Overflow. -/
def flOF : Word := 4
/-- Underflow. -/
def flUF : Word := 8
/-- Inexact. -/
def flIX : Word := 16

/-- %wst.ABSC: a `brx` met an absent condition lane (07_registers R166). -/
def wsABSC : Word := 1
/-- %wst.JLOST: a join was released with lanes missing. -/
def wsJLOST : Word := 2
/-- %wst.NEGLEN: a `rebal` met a negative length. -/
def wsNEGLEN : Word := 4

/-- A flag when a condition holds. -/
def flagIf (b : Bool) (f : Word) : Word := if b then f else 0

/-- The flags of several lanes together (08_lane_arithmetic R189). -/
def flagsOr (l : List Word) : Word := l.foldl (· ||| ·) 0

end Sys2Proof.Machine
end

