-- ==== Sys2Proof/Machine/Float.lean ====
section
/-!
DEFINITION. Floating-point arithmetic: exact values, one rounding per form, flags, conversions and the transcendental forms
(08_lane_arithmetic R191 to R195, R205 to R210).
-/
namespace Sys2Proof.Machine

/-- A format: fraction bits and exponent bits (08_lane_arithmetic R191). -/
structure Fmt where
  p  : Nat
  eb : Nat
  deriving DecidableEq, Repr

/-- FP32. -/
def f32 : Fmt := ⟨23, 8⟩
/-- FP16. -/
def f16 : Fmt := ⟨10, 5⟩
/-- BF16. -/
def bf16 : Fmt := ⟨7, 8⟩

/-- Exponent bias. -/
def Fmt.bias (f : Fmt) : Nat := 2 ^ (f.eb - 1) - 1
/-- The sign bit's weight. -/
def Fmt.top (f : Fmt) : Nat := 2 ^ (f.p + f.eb)
/-- The bits of +infinity. -/
def Fmt.infBits (f : Fmt) : Nat := (2 ^ f.eb - 1) * 2 ^ f.p
/-- The canonical quiet NaN (08_lane_arithmetic R192). -/
def Fmt.nan (f : Fmt) : Nat := f.infBits + 2 ^ (f.p - 1)
/-- The exponent of the smallest subnormal. -/
def Fmt.qmin (f : Fmt) : Int := 1 - (f.bias : Int) - f.p

/-- A decoded value: `fin neg m e` is (−1)^neg · m · 2^e. -/
inductive FV where
  | nan (signalling : Bool)
  | inf (neg : Bool)
  | fin (neg : Bool) (m : Nat) (e : Int)
  deriving DecidableEq, Repr

/-- Decode (08_lane_arithmetic R192). -/
def fdec (f : Fmt) (bits : Nat) : FV :=
  let neg := bits / f.top % 2 == 1
  let e := bits / 2 ^ f.p % 2 ^ f.eb
  let m := bits % 2 ^ f.p
  if e = 2 ^ f.eb - 1 then
    if m = 0 then .inf neg else .nan (m / 2 ^ (f.p - 1) == 0)
  else if e = 0 then .fin neg m f.qmin
  else .fin neg (m + 2 ^ f.p) (f.qmin + e - 1)

/-- A rounding mode: 0 nearest even, 1 toward zero, 2 up, 3 down (08_lane_arithmetic R193). -/
abbrev RMode := Nat

/-- Round m · 2^e to a multiple of 2^q: the multiple, and whether anything was lost. -/
def roundAt (rm : RMode) (neg : Bool) (m : Nat) (e q : Int) : Nat × Bool :=
  if q ≤ e then (m * 2 ^ (e - q).toNat, false)
  else
    let d := 2 ^ (q - e).toNat
    let n := m / d
    let r := m % d
    let up := if rm = 0 then decide (2 * r > d) || (2 * r == d && n % 2 == 1)
      else if rm = 1 then false
      else if rm = 2 then !neg && r != 0
      else neg && r != 0
    (if up then n + 1 else n, r != 0)

/-- The exponent of the leading bit of n · 2^q, for n > 0. -/
def leadExp (n : Nat) (q : Int) : Int := (Nat.log2 n : Int) + q

/-- The largest exponent of a finite value. -/
def Fmt.emax (f : Fmt) : Int := f.bias

/-- Round an exact magnitude into a format: the bits and the flags (08_lane_arithmetic R193, R195). -/
def fround (f : Fmt) (rm : RMode) (neg : Bool) (m : Nat) (e : Int) : Nat × Word :=
  let sg := if neg then f.top else 0
  if m = 0 then (sg, 0)
  else
    let qn := leadExp m e - f.p
    let u := roundAt rm neg m e qn
    let top := leadExp u.1 qn
    if top > f.emax then
      let toInf := rm = 0 ∨ (rm = 2 ∧ neg = false) ∨ (rm = 3 ∧ neg = true)
      (sg + (if toInf then f.infBits else f.infBits - 1), flOF ||| flIX)
    else
      let q := max qn f.qmin
      let r := roundAt rm neg m e q
      let tiny := decide (top < 1 - (f.bias : Int))
      (sg + (q - f.qmin).toNat * 2 ^ f.p + r.1, flagIf r.2 flIX ||| flagIf (tiny && r.2) flUF)

/-- Round a signed exact value; an exact zero takes the sign given. -/
def froundInt (f : Fmt) (rm : RMode) (zneg : Bool) (v : Int) (e : Int) : Nat × Word :=
  if v = 0 then (if zneg then f.top else 0, 0) else fround f rm (decide (v < 0)) v.natAbs e

/-- The flag of signalling operands (08_lane_arithmetic R194). -/
def snan (l : List FV) : Word := flagIf (l.any fun v => v == .nan true) flIV

/-- Is a value a NaN? -/
def FV.isNan : FV → Bool
  | .nan _ => true
  | _ => false

/-- Negate a value. -/
def FV.neg : FV → FV
  | .nan s => .nan s
  | .inf n => .inf (!n)
  | .fin n m e => .fin (!n) m e

/-- The sum of two values (08_lane_arithmetic R193, R195, R205). -/
def faddV (f : Fmt) (rm : RMode) (a b : FV) : Nat × Word :=
  let s := snan [a, b]
  match a, b with
  | .nan _, _ => (f.nan, s)
  | _, .nan _ => (f.nan, s)
  | .inf x, .inf y => if x = y then (if x then f.top + f.infBits else f.infBits, 0) else (f.nan, flIV)
  | .inf x, _ => (if x then f.top + f.infBits else f.infBits, 0)
  | _, .inf y => (if y then f.top + f.infBits else f.infBits, 0)
  | .fin n1 m1 e1, .fin n2 m2 e2 =>
    let e := min e1 e2
    let v1 : Int := (if n1 then -1 else 1) * ((m1 * 2 ^ (e1 - e).toNat : Nat) : Int)
    let v2 : Int := (if n2 then -1 else 1) * ((m2 * 2 ^ (e2 - e).toNat : Nat) : Int)
    froundInt f rm (if n1 = n2 then n1 else rm == 3) (v1 + v2) e

/-- The product, exact or special, before rounding; the flag of 0 × ∞ (08_lane_arithmetic R195). -/
def fmulV (a b : FV) : FV × Word :=
  match a, b with
  | .nan _, _ => (.nan false, snan [a, b])
  | _, .nan _ => (.nan false, snan [a, b])
  | .inf x, .inf y => (.inf (x != y), 0)
  | .inf x, .fin n m _ => if m = 0 then (.nan false, flIV) else (.inf (x != n), 0)
  | .fin n m _, .inf y => if m = 0 then (.nan false, flIV) else (.inf (n != y), 0)
  | .fin n1 m1 e1, .fin n2 m2 e2 => (.fin (n1 != n2) (m1 * m2) (e1 + e2), 0)

/-- Round a value into a format. -/
def froundV (f : Fmt) (rm : RMode) : FV → Nat × Word
  | .nan _ => (f.nan, 0)
  | .inf n => (if n then f.top + f.infBits else f.infBits, 0)
  | .fin n m e => fround f rm n m e

/-- `fadd` on bits. -/
def faddB (f : Fmt) (rm : RMode) (a b : FV) : Nat × Word := faddV f rm a b

/-- `fmul` on bits. -/
def fmulB (f : Fmt) (rm : RMode) (a b : FV) : Nat × Word :=
  let p := fmulV a b
  let r := froundV f rm p.1
  (r.1, p.2 ||| r.2)

/-- `ffma`: a × b + d, rounded once (08_lane_arithmetic R205). -/
def ffmaB (f : Fmt) (rm : RMode) (a b d : FV) : Nat × Word :=
  let p := fmulV a b
  let r := faddV f rm p.1 d
  (r.1, p.2 ||| r.2 ||| snan [d])

/-- Order of two values that are not NaNs, with −0 below +0: −1, 0 or 1. -/
def fcmpTotal (a b : FV) : Int :=
  let key (v : FV) : Bool × Bool × Nat × Int :=
    match v with
    | .inf n => (n, true, 0, 0)
    | .fin n m e => (n, false, m, e)
    | .nan _ => (false, false, 0, 0)
  match a, b with
  | .fin n1 m1 e1, .fin n2 m2 e2 =>
    let e := min e1 e2
    let v1 : Int := (if n1 then -1 else 1) * ((m1 * 2 ^ (e1 - e).toNat : Nat) : Int)
    let v2 : Int := (if n2 then -1 else 1) * ((m2 * 2 ^ (e2 - e).toNat : Nat) : Int)
    if v1 < v2 then -1 else if v2 < v1 then 1
    else if m1 = 0 ∧ n1 ≠ n2 then (if n1 then -1 else 1) else 0
  | .inf x, .inf y => if x = y then 0 else if x then -1 else 1
  | .inf x, _ => if x then -1 else 1
  | _, .inf y => if y then 1 else -1
  | a, b => if key a = key b then 0 else 0

/-- Order of two ordered values, with −0 equal to +0. -/
def fcmpNum (a b : FV) : Int :=
  match a, b with
  | .fin _ 0 _, .fin _ 0 _ => 0
  | a, b => fcmpTotal a b

/-- `fmin` (with `mx` false) and `fmax` (08_lane_arithmetic R206); the operands' bits pass through. -/
def fminmax (f : Fmt) (mx : Bool) (ab bb : Nat) (a b : FV) : Nat × Word :=
  let s := snan [a, b]
  if a.isNan && b.isNan then (f.nan, s)
  else if a.isNan then (bb, s)
  else if b.isNan then (ab, s)
  else
    let c := fcmpTotal a b
    (if (if mx then decide (c ≥ 0) else decide (c ≤ 0)) then ab else bb, s)

/-- `fcmp`: the truth value and the flag (08_lane_arithmetic R207). -/
def fcmpB (cc : FCc) (a b : FV) : Bool × Word :=
  let un := a.isNan || b.isNan
  let c := fcmpNum a b
  let sig := match cc with
    | .lt | .le | .gt | .ge => flagIf un flIV
    | _ => 0
  let r := match cc with
    | .eq => !un && c == 0
    | .ne => un || c != 0
    | .lt => !un && decide (c < 0)
    | .le => !un && decide (c ≤ 0)
    | .gt => !un && decide (c > 0)
    | .ge => !un && decide (c ≥ 0)
    | .un => un
    | .ord => !un
  (r, sig ||| snan [a, b])

/-- `fclass` (08_lane_arithmetic R208). -/
def fclassB (f : Fmt) (v : FV) : Nat :=
  match v with
  | .nan true => 2 ^ 0
  | .nan false => 2 ^ 1
  | .inf true => 2 ^ 2
  | .inf false => 2 ^ 9
  | .fin n m _ =>
    if m = 0 then (if n then 2 ^ 5 else 2 ^ 6)
    else if m < 2 ^ f.p then (if n then 2 ^ 4 else 2 ^ 7)
    else (if n then 2 ^ 3 else 2 ^ 8)

/-- `frnd`: an integral value of the same type (08_lane_arithmetic R208). -/
def frndB (f : Fmt) (rm : RMode) (v : FV) : Nat × Word :=
  match v with
  | .fin n m e =>
    let r := roundAt rm n m e 0
    if 0 ≤ e then ((fround f 1 n m e).1, 0) else ((fround f 1 n r.1 0).1, 0)
  | .nan s => (f.nan, flagIf s flIV)
  | v => froundV f rm v

/-- Float to float (08_lane_arithmetic R209). -/
def fcvtFF (t : Fmt) (rm : RMode) (v : FV) : Nat × Word :=
  let r := froundV t rm v
  (r.1, r.2 ||| snan [v])

/-- Integer to float (08_lane_arithmetic R209). -/
def fcvtIF (t : Fmt) (rm : RMode) (v : Int) : Nat × Word := froundInt t rm false v 0

/-- Float to an integer type of `w` bits: the result and the flag (08_lane_arithmetic R209). -/
def fcvtFI (w : Nat) (signed : Bool) (rm : RMode) (v : FV) : Int × Word :=
  let lo : Int := if signed then -(2 ^ (w - 1)) else 0
  let hi : Int := if signed then 2 ^ (w - 1) - 1 else 2 ^ w - 1
  match v with
  | .nan _ => (0, flIV)
  | .inf n => (if n then lo else hi, flIV)
  | .fin n m e =>
    let r := roundAt rm n m e 0
    let x : Int := if n then -(r.1 : Int) else r.1
    if x < lo then (lo, flIV) else if x > hi then (hi, flIV) else (x, flagIf r.2 flIX)

/-- Integer square root, from the bit of weight 2^k down. -/
def isqrtGo (n : Nat) : Nat → Nat → Nat
  | 0, r => r
  | k + 1, r => let t := r + 2 ^ k; isqrtGo n k (if t * t ≤ n then t else r)

/-- Integer square root. -/
def isqrt (n : Nat) : Nat := isqrtGo n (Nat.log2 n / 2 + 1) 0

/-- `fsqrt` of a finite positive value, correctly rounded: the root of m · 2^e with many extra bits and a sticky bit. -/
def fsqrtM (f : Fmt) (rm : RMode) (m : Nat) (e : Int) : Nat × Word :=
  let m1 := if e % 2 = 0 then m else 2 * m
  let e1 := if e % 2 = 0 then e else e - 1
  let n := m1 * 2 ^ 80
  let r := isqrt n
  let st := if r * r = n then 0 else 1
  fround f rm false (2 * r + st) (e1 / 2 - 40 - 1)

/-- A power of two: its exponent. -/
def pow2Exp (m : Nat) (e : Int) : Option Int :=
  if m = 2 ^ Nat.log2 m then some ((Nat.log2 m : Int) + e) else none

/-- One ulp of FP32 at an estimate v · 2^e, in units of 2^e; subnormal numbers are 2^-149 apart. -/
def ulpAt (v : Int) (e : Int) : Nat := max (2 ^ (Nat.log2 v.natAbs - 23)) (2 ^ (-149 - e).toNat)

/-- A value between v · 2^e and the next multiple of 2^e, above (`up`) or below, moved by the free error held within `b` of that value
in units of 2^e, then rounded to FP32 toward it (08_lane_arithmetic R210; log entry 7). It is inexact; beyond the range it is
infinite, below it tiny (R193, R195); the sign of a zero is free as well. -/
def approx (form : Nat) (x : Word) (up : Bool) (v : Int) (e : Int) (b : Nat) : Nat × Word :=
  let d := max (-(b : Int) + bit up) (min ((b : Int) - bit (!up)) (Config.error form x))
  let r := froundInt f32 (if decide (d > 0) then 3 else 2) (decide (Config.error (form + 8) x < 0)) (v + d) e
  if r.2 &&& flOF != 0 then froundInt f32 0 false (v + d) e
  else (r.1, flIX ||| flagIf (decide (r.1 % f32.top < 2 ^ f32.p)) flUF)

/-- 2^(2^-i), scaled by 2^96, from the square root of the one before. -/
def exp2Roots : Nat → Nat → List Nat
  | 0, _ => []
  | k + 1, c => let r := isqrt (c * 2 ^ 96); r :: exp2Roots k r

/-- 2^(f · 2^-64), scaled by 2^96, for 0 ≤ f < 2^64. -/
def exp2Frac (f : Nat) : Nat :=
  ((exp2Roots 64 (2 ^ 97)).zip (List.range 64)).foldl
    (fun a c => if bitOf f (63 - c.2) then a * c.1 / 2 ^ 96 else a) (2 ^ 96)

/-- The binary logarithm of y · 2^-96 in [1, 2), scaled by 2^k, by repeated squaring. -/
def log2Frac : Nat → Nat → Nat → Nat
  | 0, _, a => a
  | k + 1, y, a =>
    let z := y * y / 2 ^ 96
    if z ≥ 2 ^ 97 then log2Frac k (z / 2) (2 * a + 1) else log2Frac k z (2 * a)

/-- π, scaled by 2^256. -/
def piScaled : Nat := 0x3243F6A8885A308D313198A2E03707344A4093822299F31D0082EFA98EC4E6C89

/-- The Taylor terms of a sine or cosine, summed from the term `t` of order `k`, in fixed point of 512 bits. -/
def trigSum (y : Int) : Nat → Nat → Int → Int → Int
  | 0, _, _, a => a
  | n + 1, k, t, a =>
    let t' := -(t * y / 2 ^ 512 * y / 2 ^ 512) / ((k + 1) * (k + 2) : Nat)
    trigSum y n (k + 2) t' (a + t')

/-- sin (form 5) or cos (form 6) of m · 2^e with sign, scaled by 2^512, so that it lies on the same side as the exact
value of every number that the bounds are measured from (08_lane_arithmetic R210, exact reduction). -/
def trigScaled (cos : Bool) (neg : Bool) (m : Nat) (e : Int) : Int :=
  let y : Int := (m * 2 ^ (e + 512).toNat % (2 ^ 257 * piScaled) : Nat)
  let s := if cos then trigSum y 30 0 (2 ^ 512) (2 ^ 512) else trigSum y 30 1 y y
  if neg && !cos then -s else s

/-- The transcendental forms but `fsqrt`, on an FP32 operand: 0 frcp, 1 frsq, 3 fexp2, 4 flog2, 5 fsin, 6 fcos. -/
def transc32 (form : Nat) (x : Word) : Nat × Word :=
  let v := fdec f32 x.toNat
  let inf (n : Bool) : Nat := if n then f32.top + f32.infBits else f32.infBits
  let zero (n : Bool) : Nat := if n then f32.top else 0
  match v with
  | .nan s => (f32.nan, flagIf s flIV)
  | .inf n =>
    if form = 0 then (zero n, 0)
    else if form = 1 then (if n then (f32.nan, flIV) else (0, 0))
    else if form = 3 then (if n then (0, 0) else (inf false, 0))
    else if form = 4 then (if n then (f32.nan, flIV) else (inf false, 0))
    else (f32.nan, flIV)
  | .fin n m e =>
    if m = 0 then
      if form = 0 then (inf n, flDZ) else if form = 1 then (inf n, flDZ)
      else if form = 3 then (0x3F800000, 0) else if form = 4 then (inf true, flDZ)
      else if form = 5 then (zero n, 0) else (0x3F800000, 0)
    else if form = 0 then
      match pow2Exp m e with
      | some k => fround f32 0 n 1 (-k)
      | none =>
        let q : Int := (2 ^ 100 / m : Nat)
        approx 0 x (!n) (if n then -q else q) (-100 - e) (ulpAt q (-100 - e))
    else if form = 1 then
      if n then (f32.nan, flIV)
      else
        let ev := match pow2Exp m e with
          | some k => if k % 2 = 0 then some (k / 2) else none
          | none => none
        match ev with
        | some k => fround f32 0 false 1 (-k)
        | none =>
          let m1 := if e % 2 = 0 then m else 2 * m
          let e1 := if e % 2 = 0 then e else e - 1
          let q : Int := isqrt (2 ^ 180 / m1)
          approx 1 x true q (-90 - e1 / 2) (ulpAt q (-90 - e1 / 2))
    else if form = 3 then
      let big := decide (leadExp m e > 8)
      if big then
        (if n then approx 3 x true 0 (-213) (2 * ulpAt 0 (-213)) else (inf false, flOF ||| flIX))
      else
        let w : Int := if n then -(m : Int) else m
        let s := if e ≥ -64 then w * 2 ^ (e + 64).toNat else w / 2 ^ (-(e + 64)).toNat
        let k := s / 2 ^ 64
        let fr := (s % 2 ^ 64).toNat
        let exact := if e ≥ 0 then true else decide (m % 2 ^ (-e).toNat = 0)
        if exact && decide (-149 ≤ k) then fround f32 0 false 1 k
        else let q : Int := exp2Frac fr; approx 3 x true q (k - 96) (2 * ulpAt q (k - 96))
    else if form = 4 then
      if n then (f32.nan, flIV)
      else match pow2Exp m e with
        | some k => froundInt f32 0 false k 0
        | none =>
          let y := m * 2 ^ 96 / 2 ^ Nat.log2 m
          let q : Int := ((Nat.log2 m : Int) + e) * 2 ^ 90 + log2Frac 90 y 0
          approx 4 x true q (-90) (2 * ulpAt (if q < 0 then q + 1 else q) (-90))
    else
      let q := trigScaled (form = 6) n m e
      approx form x true q (-512) (max (2 * ulpAt q (-512)) (2 ^ 488))

/-- A transcendental form on a value of any of the three types: widen, take the FP32 result, round to nearest even
(08_lane_arithmetic R210). `bits` are the operand's own. -/
def transcB (f : Fmt) (form : Nat) (bits : Nat) : Nat × Word :=
  let v := fdec f bits
  let w := (froundV f32 0 v).1
  let r := transc32 form (BitVec.ofNat 32 w)
  let sig := snan [v]
  if f = f32 then (r.1, r.2 ||| sig)
  else
    let c := froundV f 0 (fdec f32 r.1)
    let inex := r.2 &&& flIX != 0 || c.2 &&& flIX != 0
    let mag := c.1 % f.top
    let tiny := decide (mag < 2 ^ f.p)
    (c.1, sig ||| (r.2 &&& (flIV ||| flDZ ||| flOF)) ||| (c.2 &&& flOF) ||| flagIf inex flIX ||| flagIf (tiny && inex) flUF)

/-- `fsqrt`, correctly rounded in each type (08_lane_arithmetic R210). -/
def fsqrtB (f : Fmt) (rm : RMode) (bits : Nat) : Nat × Word :=
  match fdec f bits with
  | .nan s => (f.nan, flagIf s flIV)
  | .inf n => if n then (f.nan, flIV) else (f.infBits, 0)
  | .fin n m e =>
    if m = 0 then (if n then f.top else 0, 0)
    else if n then (f.nan, flIV)
    else fsqrtM f rm m e

end Sys2Proof.Machine
end

