-- ==== Sys2Proof/Machine/Access.lean ====
section
/-!
DEFINITION. Reading and changing the parts of the state: teams, warps, CCC contexts, fragments, registers. Every other
definition goes through these.
-/
namespace Sys2Proof.Machine

/-- The team a unit belongs to. -/
def teamOf : UnitId → Nat
  | .warp t _ => t
  | .ccc t _ => t

/-- A team by its TEAMID. -/
def State.team? (s : State) (t : Nat) : Option Team := tget s.teams t

/-- Change a team. -/
def State.modTeam (s : State) (t : Nat) (f : Team → Team) : State := { s with teams := tmod s.teams t f }

/-- The team core indices. -/
def Team.cis (x : Team) : List Nat := List.range x.cores.length

/-- A warp by team and %wix. -/
def State.warp? (s : State) (t w : Nat) : Option Warp := (s.team? t).bind fun x => x.warps[w]?

/-- Change a warp. -/
def State.modWarp (s : State) (t w : Nat) (f : Warp → Warp) : State :=
  s.modTeam t fun x => { x with warps := lmod x.warps w f }

/-- A CCC context by team and entry index. -/
def State.ccc? (s : State) (t i : Nat) : Option Ccc := (s.team? t).bind fun x => x.cccs[i]?

/-- Change a CCC context. -/
def State.modCcc (s : State) (t i : Nat) (f : Ccc → Ccc) : State :=
  s.modTeam t fun x => { x with cccs := lmod x.cccs i f }

/-- The registers of a warp or context. -/
def State.regs? (s : State) : UnitId → Option Regs
  | .warp t w => (s.warp? t w).map (·.regs)
  | .ccc t i => (s.ccc? t i).map (·.regs)

/-- Change the registers of a warp or context. -/
def State.modRegs (s : State) (u : UnitId) (f : Regs → Regs) : State :=
  match u with
  | .warp t w => s.modWarp t w fun x => { x with regs := f x.regs }
  | .ccc t i => s.modCcc t i fun x => { x with regs := f x.regs }

/-- The fragment that a selector names in a warp. -/
def Warp.frag? (w : Warp) : Sel → Option Frag
  | .live0 => w.live0
  | .live1 => w.live1
  | .handler => w.handler
  | .ctx => none

/-- Replace the fragment that a selector names. -/
def Warp.setFrag (w : Warp) (k : Sel) (f : Option Frag) : Warp :=
  match k with
  | .live0 => { w with live0 := f }
  | .live1 => { w with live1 := f }
  | .handler => { w with handler := f }
  | .ctx => w

/-- The issuing fragment; for a CCC context its point of control. -/
def State.frag? (s : State) (c : Cur) : Option Frag :=
  match c.unit with
  | .warp t w => (s.warp? t w).bind (·.frag? c.sel)
  | .ccc t i => (s.ccc? t i).map (·.frag)

/-- Change the issuing fragment. -/
def State.modFrag (s : State) (c : Cur) (f : Frag → Frag) : State :=
  match c.unit with
  | .warp t w => s.modWarp t w fun x => x.setFrag c.sel ((x.frag? c.sel).map f)
  | .ccc t i => s.modCcc t i fun x => { x with frag := f x.frag }

/-- A team set. -/
def State.set? (s : State) (n : Nat) : Option TSet := tget s.sets n

/-- Change a team set. -/
def State.modSet (s : State) (n : Nat) (f : TSet → TSet) : State := { s with sets := tmod s.sets n f }

/-- A core. -/
def State.core (s : State) (c : Nat) : Core := tgetD s.cores c Core.reset

/-- Change a core. -/
def State.modCore (s : State) (c : Nat) (f : Core → Core) : State :=
  { s with cores := tset Core.reset s.cores c (f (s.core c)) }

/-- A cluster. -/
def State.cluster (s : State) (c : Nat) : Cluster := tgetD s.clusters c Cluster.reset

/-- Change a cluster. -/
def State.modCluster (s : State) (c : Nat) (f : Cluster → Cluster) : State :=
  { s with clusters := tset Cluster.reset s.clusters c (f (s.cluster c)) }

/-- A die. -/
def State.die (s : State) (d : Nat) : Die := tgetD s.dies d Die.reset

/-- Change a die. -/
def State.modDie (s : State) (d : Nat) (f : Die → Die) : State :=
  { s with dies := tset Die.reset s.dies d (f (s.die d)) }

/-- The cluster a unit runs in. -/
def State.clusterOf (s : State) (u : UnitId) : Nat := ((s.team? (teamOf u)).map (·.cluster)).getD 0

/-- The compute die of a cluster (03_memory_tiers R54). -/
def dieOfCluster (c : Nat) : Nat := c / 24

/-- The die a unit runs on. -/
def State.dieOf (s : State) (u : UnitId) : Nat := dieOfCluster (s.clusterOf u)

/-- The core a warp runs on; none for a CCC context. -/
def State.coreOf (s : State) : UnitId → Option Nat
  | .warp t w => (s.warp? t w).map (·.core)
  | .ccc _ _ => none

/-- A team's owner. -/
def State.ownerOf (s : State) (u : UnitId) : Byte := ((s.team? (teamOf u)).map (·.owner)).getD 0

/-- A team's set. -/
def State.setOf (s : State) (t : Nat) : Nat := ((s.team? t).map (·.set)).getD 0

/-- A word of a packet copy (14_execution_model R313): bits `hi` to `lo` of the 64-bit word at byte offset `o`. -/
def pktBits (p : List DWord) (o hi lo : Nat) : Nat := bitsOf (p.getD (o / 8) 0).toNat hi lo

/-- The values of a scalar register (07_registers R162). -/
def Regs.s (r : Regs) (n : Nat) : Word := tgetD r.sc n 0

/-- Write a scalar register. -/
def Regs.setS (r : Regs) (n : Nat) (v : Word) : Regs := { r with sc := tset 0 r.sc n v }

/-- Write consecutive scalar registers. -/
def Regs.setSs (r : Regs) (n : Nat) : List Word → Regs
  | [] => r
  | v :: l => (r.setS n v).setSs (n + 1) l

/-- An index register (07_registers R163). -/
def Regs.xv (r : Regs) (n : Nat) : Byte := tgetD r.x n 0

/-- A completion flag's count (02_instruction_words R24). -/
def Regs.flag (r : Regs) (n : Nat) : Nat := tgetD r.fl n 0

/-- Set a completion flag's count. -/
def Regs.setFlag (r : Regs) (n c : Nat) : Regs := { r with fl := tset 0 r.fl n c }

/-- A 64-bit value from two words, the low one first. -/
def dword (lo hi : Word) : DWord := BitVec.ofNat 64 (lo.toNat + 2 ^ 32 * hi.toNat)

/-- The low word of a 64-bit value. -/
def loWord (d : DWord) : Word := BitVec.ofNat 32 d.toNat

/-- The high word of a 64-bit value. -/
def hiWord (d : DWord) : Word := BitVec.ofNat 32 (d.toNat / 2 ^ 32)

/-- The occupancy map of a vector register (07_registers R159). -/
def vmap (r : VReg) : Lanes := laneMap fun l => (tget r l).isSome

/-- The value of an occupied lane. -/
def vlane (r : VReg) (l : Nat) : Word := tgetD r l 0

/-- A vector register from a value for each occupied lane. -/
def vbuild (g : Nat → Option Word) : VReg := (List.range 32).filterMap fun l => (g l).map fun v => (l, v)

/-- The destination rule (07_registers R160; 08_lane_arithmetic R186): lanes of E take the result, the other lanes of L
become absent or keep their state under KP, lanes outside L keep theirs. -/
def vmerge (lm e : Lanes) (kp : Bool) (old : VReg) (f : Nat → Word) : VReg :=
  vbuild fun l =>
    if e.getLsbD l then some (f l)
    else if lm.getLsbD l && !kp then none
    else tget old l

/-- A vector register of a warp. -/
def Warp.vr (w : Warp) (n : Nat) : VReg := tgetD w.v n []

/-- Replace a vector register. -/
def Warp.setV (w : Warp) (n : Nat) (r : VReg) : Warp := { w with v := tset [] w.v n r }

/-- Make registers vacant. -/
def Warp.free (w : Warp) (l : List Nat) : Warp := l.foldl (fun w n => w.setV n []) w

/-- A predicate register of a warp. -/
def Warp.pr (w : Warp) (n : Nat) : PReg := tgetD w.p n PReg.reset

/-- Replace a predicate register. -/
def Warp.setP (w : Warp) (n : Nat) (r : PReg) : Warp := { w with p := tset PReg.reset w.p n r }

/-- The destination rule for a predicate (07_registers R161); values outside the map are kept at 0. -/
def pmerge (lm e : Lanes) (kp : Bool) (old : PReg) (f : Nat → Bool) : PReg :=
  let m := laneMap fun l => e.getLsbD l || (old.map.getLsbD l && (kp || !lm.getLsbD l))
  ⟨m, laneMap fun l => if e.getLsbD l then f l else m.getLsbD l && old.val.getLsbD l⟩

/-- A warp's allotment A (07_registers R169). -/
def Warp.allot (w : Warp) : Nat := w.base + (w.scopes.map (·.2)).sum

/-- A rejoin register. -/
def Warp.jr (w : Warp) (m : Nat) : JReg := w.j.getD m (JReg.reset m)

/-- Replace a rejoin register. -/
def Warp.setJ (w : Warp) (m : Nat) (r : JReg) : Warp := { w with j := lset w.j m r }

/-- OR flags into %fst (08_lane_arithmetic R189). -/
def Warp.orFst (w : Warp) (f : Word) : Warp := { w with fst := w.fst ||| f }

/-- OR flags into %wst (07_registers R166). -/
def Warp.orWst (w : Warp) (f : Word) : Warp := { w with wst := w.wst ||| f }

/-- The live, spilled and handler fragments of a warp, with their places. -/
def Warp.active (w : Warp) : List Frag :=
  w.live0.toList ++ w.live1.toList ++ w.spill ++ w.handler.toList

/-- Every fragment of a warp (13_control_flow R287). -/
def Warp.frags (w : Warp) : List Frag := w.active ++ w.parks.map (·.2)

/-- The lowest return stack index no fragment holds (13_control_flow R288; log entry 9). -/
def Warp.freeFid (w : Warp) : Nat :=
  ((List.range 74).find? fun n => !(w.frags.any fun f => f.fid == n)).getD 74

/-- Is a feature accepted (18_host_and_trust R400)? -/
def State.feature (s : State) (n : Nat) : Bool := (tgetD s.mgmt.regs 0x504 0).getLsbD n

/-- The read of a management register kept as a plain word. -/
def State.mreg (s : State) (n : Nat) : DWord := tgetD s.mgmt.regs n 0

/-- A new name for a write, an entry or a grid. -/
def State.newId (s : State) : Nat × State := (s.nextId, { s with nextId := s.nextId + 1 })

end Sys2Proof.Machine
end

