-- ==== Sys2Proof/Machine/Operands.lean ====
section
/-!
DEFINITION. Operands: the registers a field names, the records that capture them at issue, and how a lane or scalar value is
read from a record (02_instruction_words R36 to R42; 07_registers R160, R170, R180; 15_traps_preemption R335). An
instruction computes from its records, at its first issue and at a replay alike.
-/
namespace Sys2Proof.Machine

/-- The first register a field names: NUM plus the index under X (07_registers R180). -/
def fldNum (r : Regs) (ix : BitVec 2) (f : Fld) : Nat :=
  f.rf.num.toNat + (if f.rf.x then (r.xv ix.toNat).toNat else 0)

/-- The registers a field names. -/
def fldNums (r : Regs) (ix : BitVec 2) (f : Fld) : List Nat := (List.range f.w).map (fldNum r ix f + ·)

/-- A vector field is within the allotment and, under X, aligned (07_registers R170, R180). -/
def fldBound (r : Regs) (allot : Nat) (ix : BitVec 2) (f : Fld) : Bool :=
  f.cls != 0 || (decide (fldNum r ix f + f.w ≤ allot) && (!f.rf.x || fldNum r ix f % fldAlign f.w == 0))
where
  /-- Alignment of a multiple field. -/
  fldAlign (w : Nat) : Nat := if w = 3 then 4 else w

/-- All fields of a form, D first. -/
def Shape.flds (s : Shape) : List Fld := s.d.toList ++ s.a.toList ++ s.b.toList ++ s.more

/-- The fields of a form that are read, in the order of their records (15_traps_preemption R335). -/
def Shape.ins (s : Shape) : List Fld := (if s.dIn then s.d.toList else []) ++ s.a.toList ++ s.b.toList ++ s.more

/-- The special registers of a unit: %wix, %tcore, %tx, %ty, %tz, %stage, %ntw, %fst, %wst, %clk by NUM (07_registers
R167; 02_instruction_words R37). -/
def State.special (s : State) (u : UnitId) (num : Nat) : Word :=
  let t := s.team? (teamOf u)
  let coord (k : Nat) : Word := (t.map fun x => x.coord.getD k 0).getD 0
  let w : Option Warp := match u with
    | .warp a b => s.warp? a b
    | .ccc _ _ => none
  let wix : Nat := match u with
    | .warp _ b => b
    | .ccc _ _ => 0
  if num = 0x81 then BitVec.ofNat 32 wix
  else if num = 0x82 then BitVec.ofNat 32 ((t.map fun x => wix % x.cores.length).getD 0)
  else if num = 0x83 then coord 0
  else if num = 0x84 then coord 1
  else if num = 0x85 then coord 2
  else if num = 0x86 then coord 3
  else if num = 0x87 then BitVec.ofNat 32 ((t.map (·.warps.length)).getD 0)
  else if num = 0x89 then (w.map (·.fst)).getD 0
  else if num = 0x8A then (w.map (·.wst)).getD 0
  else if num = 0x8B then
    BitVec.ofNat 32 (match w with
      | some x => (s.core x.core).clk
      | none => (s.cluster (s.clusterOf u)).clk)
  else 0

/-- Capture one register (15_traps_preemption R335). %lane and %here are vector records over L. -/
def captureReg (s : State) (u : UnitId) (lm : Lanes) (cls : BitVec 2) (n : Nat) : OpRec :=
  let r := (s.regs? u).getD ⟨[], [], [], [], 0⟩
  let w : Option Warp := match u with
    | .warp a b => s.warp? a b
    | .ccc _ _ => none
  if cls = 0 then
    let v := (w.map (·.vr n)).getD []
    let m := vmap v &&& lm
    ⟨n, 0, m, (lanesOf m).map (vlane v)⟩
  else if cls = 1 then
    ⟨n, 1, fullMap, [if 64 ≤ n then (r.xv (n - 64)).setWidth 32 else r.s n]⟩
  else if n < 16 then
    let p := (w.map (·.pr n)).getD PReg.reset
    ⟨n, 2, p.map &&& lm, [p.val]⟩
  else if n = 0x80 ∨ n = 0x88 then ⟨n, 2, lm, (lanesOf lm).map (BitVec.ofNat 32 ·)⟩
  else ⟨n, 2, fullMap, [s.special u n]⟩

/-- A field of a 64-bit form that names an index or special register: one register of 32 bits (log entry 10). -/
def Fld.single (f : Fld) : Bool := (f.cls == 1 && decide (64 ≤ f.rf.num.toNat)) || f.cls == 2

/-- The registers that a field reads. -/
def fldRegs (r : Regs) (ix : BitVec 2) (f : Fld) : List Nat := if f.single then [f.rf.num.toNat] else fldNums r ix f

/-- The records of every register an instruction reads. -/
def capture (s : State) (u : UnitId) (lm : Lanes) (sh : Shape) : List OpRec :=
  let r := (s.regs? u).getD ⟨[], [], [], [], 0⟩
  (sh.ins.map fun f => (fldRegs r sh.ix f).map (captureReg s u lm f.cls)).flatten

/-- How many records a field takes. -/
def fldCount (f : Fld) : Nat := if f.single then 1 else f.w

/-- Cut a list into pieces of the given lengths. -/
def cutList {α : Type} : List Nat → List α → List (List α)
  | [], _ => []
  | n :: ns, l => l.take n :: cutList ns (l.drop n)

/-- An instruction's operands as its body reads them: L, the lanes a replay may act on (all of them at first issue),
the first destination register, and the records of D, A, B and the further fields. -/
structure Env where
  lm   : Lanes
  only : Lanes
  dst  : Nat
  d    : List OpRec
  a    : List OpRec
  b    : List OpRec
  more : List (List OpRec)
  deriving DecidableEq, Repr

/-- Does a record hold one value per lane (a vector register, %here, %lane)? -/
def OpRec.perLane (r : OpRec) : Bool := r.cls == 0 || (r.cls == 2 && (r.num == 0x80 || r.num == 0x88))

/-- The value of a record in a lane. -/
def OpRec.lane (r : OpRec) (l : Nat) : Word :=
  if r.perLane then r.vals.getD (popcNat l r.map.toNat) 0 else if r.cls = 3 then r.vals.getD l 0 else r.vals.getD 0 0

/-- The high words, by lane, of an operand that has one register of 32 bits; class 3 marks that no register holds them (log
entry 10). -/
def OpRec.high (r : OpRec) : OpRec := ⟨r.num, 3, fullMap, (List.range 32).map fun l => Config.highWord r.num (r.lane l)⟩

/-- The records of a field as its instruction reads them. -/
def Fld.widen (f : Fld) (l : List OpRec) : List OpRec := if f.single && f.w == 2 then l ++ l.map OpRec.high else l

/-- Group records by the fields of a form. -/
def mkEnv (sh : Shape) (lm only : Lanes) (dst : Nat) (recs : List OpRec) : Env :=
  let cut (f : Option Fld) (l : List OpRec) : List OpRec := l.take ((f.map fldCount).getD 0)
  let wide (f : Option Fld) (l : List OpRec) : List OpRec := (f.map fun f => f.widen l).getD l
  let df := if sh.dIn then sh.d else none
  let d := cut df recs
  let r1 := recs.drop d.length
  let a := cut sh.a r1
  let r2 := r1.drop a.length
  let b := cut sh.b r2
  let r3 := r2.drop b.length
  ⟨lm, only, dst, d, wide sh.a a, wide sh.b b, cutList (sh.more.map fldCount) r3⟩

/-- The truth value of a predicate record in a lane. -/
def OpRec.truth (r : OpRec) (l : Nat) : Bool := (r.vals.getD 0 0).getLsbD l

/-- The map of an operand: the intersection over its registers (07_registers R160), or full for a single value. %lane
counts as full (02_instruction_words R38). -/
def opMap (l : List OpRec) : Lanes :=
  l.foldl (fun m r => m &&& (if r.cls == 2 && r.num == 0x80 then fullMap else r.map)) fullMap

/-- Is an operand one of the set V of vector and predicate operands, %here among them (08_lane_arithmetic R186, R187)? -/
def inV (l : List OpRec) : Bool :=
  l.any fun r => r.cls == 0 || (r.cls == 2 && (r.num == 0x88 || decide (r.num < 16)))

/-- The value of an operand in a lane: its registers little-endian, the low one first. -/
def opLane (l : List OpRec) (k : Nat) : Nat := l.foldr (fun r a => (r.lane k).toNat + 2 ^ 32 * a) 0

/-- The value of a scalar operand: its registers little-endian; of %lane, which has no value of its own there, any (log entry 64). -/
def opScal (l : List OpRec) : Nat :=
  l.foldr (fun r a => (if r.perLane then (Config.scalarLane r.map).toNat else (r.vals.getD 0 0).toNat) + 2 ^ 32 * a) 0

/-- Two operands of V differ within L: OCCMISM (08_lane_arithmetic R187). -/
def occMism (lm : Lanes) (ops : List (List OpRec)) : Bool :=
  match (ops.filter inV).map fun o => opMap o &&& lm with
  | [] => false
  | m :: r => r.any (· != m)

/-- The union of operand maps within L, kept in a replay entry of an OCCMISM trap (15_traps_preemption R334). -/
def unionMap (lm : Lanes) (ops : List (List OpRec)) : Lanes :=
  lm &&& (ops.filter inV).foldl (fun m o => m ||| opMap o) 0

/-- The lanes on which a lane form computes: L, the operand maps, the lanes a replay may act on (08_lane_arithmetic R186). -/
def effMap (e : Env) (ops : List (List OpRec)) : Lanes :=
  ops.foldl (fun m o => m &&& opMap o) (e.lm &&& e.only)

/-- The marked vector registers of a form's source fields; `dSrc`: its D field is a source (a store's data), whose bit 9 is
a mark and not KP (02_instruction_words R36; 07_registers R175). -/
def markedNums (r : Regs) (sh : Shape) (dSrc : Bool) : List Nat :=
  (((if dSrc then sh.d.toList else []) ++ sh.a.toList ++ sh.b.toList ++ sh.more).filter
    fun f => f.cls == 0 && f.rf.mark).flatMap (fldNums r sh.ix)

/-- The vector registers a form names, for the operand buffer (07_registers R173). -/
def namedNums (r : Regs) (sh : Shape) : List Nat := (sh.flds.filter fun f => f.cls == 0).flatMap (fldNums r sh.ix)

/-- The first register of a form's destination field. -/
def dNum (r : Regs) (sh : Shape) : Nat := (sh.d.map (fldNum r sh.ix)).getD 0

/-- KP of a form's destination. -/
def dKp (sh : Shape) : Bool := (sh.d.map (·.rf.mark)).getD false

end Sys2Proof.Machine
end

