-- ==== Sys2Proof/Machine/Memory.lean ====
section
/-!
DEFINITION. Global memory, translation and the order of accesses: the bytes a die sees, the walk, the access checks, the
performing of counted accesses, and the life of a write from issue to every die (03_memory_tiers, 04_caches_scratchpad,
06_consistency).
-/
namespace Sys2Proof.Machine

/-- Trap causes (15_traps_preemption R327). -/
def cILLENC : Nat := 0x01
def cILLPAIR : Nat := 0x02
def cILLCTX : Nat := 0x03
def cPRIV : Nat := 0x04
def cREGBOUND : Nat := 0x05
def cOCCMISM : Nat := 0x06
def cFMTDIV : Nat := 0x07
def cALIGN : Nat := 0x08
def cRANGE : Nat := 0x09
def cPERM : Nat := 0x0A
def cOWNER : Nat := 0x0B
def cSLOT : Nat := 0x0C
def cTLAND : Nat := 0x0D
def cORPHAN : Nat := 0x0E
def cDEADLOCK : Nat := 0x0F
def cSPLITOV : Nat := 0x10
def cSTACKOV : Nat := 0x11
def cINTEG : Nat := 0x12
def cNEGLEN : Nat := 0x13
def cSCOPE : Nat := 0x14
def cSWTRAP : Nat := 0x15
def cMCHK : Nat := 0x20

/-- Scope order, narrow to wide (06_consistency R131). -/
def scopeNum : Scope → Nat
  | .warp => 0
  | .team => 1
  | .die => 2
  | .pkg => 3
  | .sys => 4

/-- A byte range [a, a+n) meets [b, b+m). -/
def meets (a n b m : Nat) : Bool := decide (a < b + m) && decide (b < a + n)

/-- The home of a physical address: compute dies 0 to 7, I/O dies 8 and 9; none for a reserved address (03 R57). -/
def homeOf (pa : Nat) : Option Nat :=
  if pa < 0x8000000000 then some (pa / 2 ^ 36)
  else if 0x10000000000 ≤ pa ∧ pa < 0x1C000000000 then some 8
  else if 0x1C000000000 ≤ pa ∧ pa < 0x28000000000 then some 9
  else none

/-- The canonical form of memory: addresses strictly rising. An unlisted byte has never been written, or lost its contents
to a write under another key: it reads as a free value (log entry 2), so no listed entry equals it. -/
def Memory.wf (m : List Host.Cell) : Bool := tsorted 0 m

/-- What a 16-byte unit holds at one byte: the key and epoch of the unit, and the byte if it has one. -/
structure ByteSt where
  uk  : Option UKey
  val : Option Byte
  deriving DecidableEq, Repr

/-- The key of a unit after a write under another key than its own: the unit's other bytes keep what a read under the new key
gave, which hangs on the write that gave the unit its old key (03_memory_tiers R71). -/
def Write.rekey (w : Write) (uk : Option UKey) : UKey := ⟨w.key, w.id, (uk.map (·.epoch)).getD 0⟩

/-- The effect of a write on one byte of the unit it lies in (03_memory_tiers R71); `a`: the byte's address. -/
def ByteSt.apply (b : ByteSt) (w : Write) (a : Nat) : ByteSt :=
  let hit := decide (w.addr ≤ a) && decide (a < w.addr + w.bytes.length)
  let here : Option Byte := w.bytes[a - w.addr]?
  if (b.uk.map (·.key)) = some w.key then (if hit then ⟨b.uk, here⟩ else b)
  else ⟨some (w.rekey b.uk), if hit then here else none⟩

/-- Does a write touch the 16-byte unit of an address? -/
def Write.unitOf (w : Write) (a : Nat) : Bool := w.addr / 16 == a / 16

/-- The byte at an address in memory as applied everywhere. -/
def State.baseByte (s : State) (a : Nat) : ByteSt := ⟨tget s.keys (a / 16), tget s.mem a⟩

/-- Read a byte under a key: a byte of another key, or never written, is unpredictable (03_memory_tiers R71). -/
def ByteSt.read (b : ByteSt) (k : Byte) (a : Nat) : Byte :=
  match b.uk with
  | none => Config.freeByte a k 0
  | some u => if u.key = k then b.val.getD (Config.freeByte a k u.base) else Config.freeByte a k u.epoch

/-- The writes in flight that a die has applied. -/
def State.seenAt (s : State) (d : Nat) : List Write :=
  s.flight.filter fun w => w.tgt == .glob && !w.repl && w.dies.contains d

/-- The byte a die's L2 gives (06_consistency R133). -/
def State.dieByte (s : State) (d : Nat) (k : Byte) (a : Nat) : Byte :=
  (((s.seenAt d).filter (·.unitOf a)).foldl (fun b w => b.apply w a) (s.baseByte a)).read k a

/-- Bytes as a die's L2 gives them. -/
def State.dieBytes (s : State) (d : Nat) (k : Byte) (a n : Nat) : List Byte :=
  (List.range n).map fun i => s.dieByte d k (a + i)

/-- The address of a die's copy of a replicated page (03_memory_tiers R69). -/
def replAddr (d pa : Nat) : Nat := d * 2 ^ 36 + pa % 2 ^ 36

/-- The writes on their way that bytes come from, of those in flight that `sees` picks; a replicated write counts where it has
updated a copy (06_consistency R136, R137, R146). -/
def State.srcsOf (s : State) (sees : Write → Bool) (a n : Nat) : List Nat :=
  ((s.flight.filter fun w => w.tgt == .glob && !w.repl && sees w && Machine.meets a n w.addr w.bytes.length) ++
    s.pend.filter fun w => w.repl && w.dies.any fun k => Machine.meets a n (replAddr k w.addr) w.bytes.length).map (·.id)

/-- The writes on their way that the bytes a die's L2 gives come from. -/
def State.srcsAt (s : State) (d a n : Nat) : List Nat := s.srcsOf (·.dies.contains d) a n

/-- Bytes in coherence order at an I/O home: every serialised write counts. -/
def State.ioBytes (s : State) (k : Byte) (a n : Nat) : List Byte :=
  (List.range n).map fun i =>
    ((s.flight.filter fun w => w.tgt == .glob && !w.repl && w.unitOf (a + i)).foldl
      (fun b w => b.apply w (a + i)) (s.baseByte (a + i))).read k (a + i)

/-- Bytes as the home of their line gives them. -/
def State.homeBytes (s : State) (k : Byte) (a n : Nat) : List Byte :=
  match homeOf a with
  | some h => if h < 8 then s.dieBytes h k a n else s.ioBytes k a n
  | none => s.ioBytes k a n

/-- A block passes verification under a key: it carries no check value, another key made it, or its CRC matches its bytes
(18_host_and_trust R407). -/
def State.blockOk (s : State) (k : Byte) (b : Nat) : Bool :=
  !s.feature 10 ||
  match tget s.checks b with
  | none => true
  | some c => c.key != k || (!c.bad && c.crc == crc32c (s.homeBytes k (256 * b) 256))

/-- A part of a whole-block write, other than `w`, still has to reach the bytes that `w` has reached at a die. -/
def State.partsLeft (s : State) (w : Write) (d : Nat) : Bool :=
  s.pend.any fun e => e.whole && e.id != w.id && e.src == w.src && e.seq == w.seq && e.addr / 256 == w.addr / 256 && !e.dies.contains d

/-- The check value of a block after a write that `s0` did not hold is serialised (18_host_and_trust R406): the last part of a
whole-block write makes it anew (`last`), another write remakes it where there is one, a failed verification makes the block
bad. -/
def State.recheck (s0 s : State) (w : Write) (last : Bool) : State :=
  let b := w.addr / 256
  if !s.feature 10 || (!last && (tget s0.checks b).isNone) then s
  else
    let c : Check := ⟨crc32c (s.homeBytes w.key (256 * b) 256), w.key, !last && !s0.blockOk w.key b⟩
    { s with checks := tput s.checks b c }

/-- Key id under which the device reads its own tables (log entry 11). -/
def tableKey : Byte := 0

/-- A 64-bit table word as a die's L2 gives it. -/
def State.tableWord (s : State) (d pa : Nat) : DWord := BitVec.ofNat 64 (ofBytes (s.dieBytes d tableKey pa 8))

/-- The translation caches that an access looks in: its core's (if any), its die's, and the die's cache of pointer entries,
which holds owner entries too (03_memory_tiers R72; log entry 22): nodes 0 to 767, 768 to 775 and 776 to 783. -/
def tlbNodes (core : Option Nat) (d : Nat) : List Nat := core.toList ++ [768 + d, 776 + d]

/-- The entries that a translation cache has room for (03_memory_tiers R72). -/
def tlbRoom (node : Nat) : Nat := if node < 768 then 256 else if node < 776 then 16384 else 512

/-- The cached entry of a level for an address prefix. -/
def State.cached (s : State) (nodes : List Nat) (o : Byte) (lvl pfx : Nat) : Option TEnt :=
  (nodes.flatMap fun n => tgetD s.tlbs n []).find? fun e => e.owner == o && e.lvl == lvl && e.pfx == pfx

/-- Bits of an address below those that index a level's table (03_memory_tiers R63). -/
def lvlShift (lvl : Nat) : Nat := if lvl = 0 then 39 else if lvl = 1 then 30 else if lvl = 2 then 21 else 16

/-- The two words of an owner entry (03_memory_tiers R61). -/
def State.ownerWords (s : State) (nodes : List Nat) (d : Nat) (o : Byte) : DWord × DWord :=
  match s.cached nodes o 4 0 with
  | some e => (e.w0, e.w1)
  | none =>
    let a := s.csrs.owntab.toNat + 32 * o.toNat
    (s.tableWord d a, s.tableWord d (a + 8))

/-- What a translation gives (03_memory_tiers R63, R66). -/
structure Leaf where
  pa   : Nat
  r    : Bool
  w    : Bool
  x    : Bool
  repl : Bool
  key  : Byte
  pg   : Nat
  deriving DecidableEq, Repr

/-- The address at which a die finds a page's bytes: its own copy of a replicated page (03_memory_tiers R69, R70). -/
def Leaf.at_ (l : Leaf) (d : Nat) : Nat := if l.repl then replAddr d l.pa else l.pa

/-- A leaf entry at a level, or none where the walk ends in RANGE (03_memory_tiers R67; 18_host_and_trust R401). -/
def State.leafOf (s : State) (lvl : Nat) (e : DWord) (va : Nat) : Option Leaf :=
  let n := e.toNat
  let size := bitsOf n 51 50
  let tier := bitsOf n 53 52
  let base := bitsOf n 41 8 * 256
  let pg := 2 ^ lvlShift lvl
  let repl := bitOf n 5
  let home := homeOf base
  let hbm := home.any fun h => decide (h < 8)
  if lvl = 0 ∨ size ≠ 3 - lvl ∨ base % pg ≠ 0 ∨ tier ≥ 2 ∨ home = none ∨ (tier = 0 ∧ hbm = false) ∨ (tier = 1 ∧ hbm = true)
      ∨ (repl = true ∧ tier = 1) ∨ (tier = 1 ∧ s.feature 2 = false) ∨ (repl = true ∧ s.feature 3 = false) then none
  else some ⟨base + va % pg, bitOf n 2, bitOf n 3, bitOf n 4, repl, BitVec.ofNat 8 (bitsOf n 49 42), lvlShift lvl⟩

/-- The walk from a level's table down (03_memory_tiers R66, R67), with `fuel` levels left. A pointer is followed as it stands, aligned
or not (log entry 84). -/
def State.walk (s : State) (nodes : List Nat) (d : Nat) (o : Byte) (va : Nat) : Nat → Nat → Nat → Option Leaf
  | 0, _, _ => none
  | fuel + 1, lvl, tbl =>
    let pfx := va / 2 ^ lvlShift lvl
    let idx := if lvl = 3 then pfx % 32 else pfx % 512
    let e := match s.cached nodes o lvl pfx with
      | some c => c.w0
      | none => s.tableWord d (tbl + 8 * idx)
    if e.getLsbD 0 = false then none
    else if e.getLsbD 1 then s.leafOf lvl e va
    else if lvl = 3 then none
    else
      let nxt := bitsOf e.toNat 41 8 * 256
      if (homeOf nxt).isNone then none else s.walk nodes d o va fuel (lvl + 1) nxt

/-- The addresses of the table entries that a walk from a level's table reads from memory (03_memory_tiers R66). -/
def State.walkReads (s : State) (nodes : List Nat) (d : Nat) (o : Byte) (va : Nat) : Nat → Nat → Nat → List Nat
  | 0, _, _ => []
  | fuel + 1, lvl, tbl =>
    let pfx := va / 2 ^ lvlShift lvl
    let a := tbl + 8 * (if lvl = 3 then pfx % 32 else pfx % 512)
    let here := s.cached nodes o lvl pfx
    let e := match here with
      | some c => c.w0
      | none => s.tableWord d a
    let nxt := bitsOf e.toNat 41 8 * 256
    (if here.isNone then [a] else []) ++
      (if e.getLsbD 0 = false ∨ e.getLsbD 1 = true ∨ lvl = 3 ∨ (homeOf nxt).isNone = true then []
       else s.walkReads nodes d o va fuel (lvl + 1) nxt)

/-- A cached leaf for an address. -/
def State.cachedLeaf (s : State) (nodes : List Nat) (o : Byte) (va : Nat) : Option (Nat × DWord) :=
  [3, 2, 1].findSome? fun lvl =>
    match s.cached nodes o lvl (va / 2 ^ lvlShift lvl) with
    | some e => if e.w0.getLsbD 1 then some (lvl, e.w0) else none
    | none => none

/-- Translate an address of an owner's space; none is RANGE (03_memory_tiers R60, R66, R67). -/
def State.translate (s : State) (core : Option Nat) (d : Nat) (o : Byte) (va : DWord) : Option Leaf :=
  let v := va.toNat
  let nodes := tlbNodes core d
  if 2 ^ 48 ≤ v then none
  else
    let ow := (s.ownerWords nodes d o).1
    if ow.getLsbD 0 = false then none
    else match s.cachedLeaf nodes o v with
      | some (lvl, e) => s.leafOf lvl e v
      | none =>
        let root := bitsOf ow.toNat 41 12 * 4096
        if (homeOf root).isNone then none else s.walk nodes d o v 4 0 root

/-- The addresses of the owner and table entries that a translation reads from memory. -/
def State.lookupReads (s : State) (core : Option Nat) (d : Nat) (o : Byte) (va : DWord) : List Nat :=
  let nodes := tlbNodes core d
  let ow := (s.ownerWords nodes d o).1
  let root := bitsOf ow.toNat 41 12 * 4096
  if 2 ^ 48 ≤ va.toNat then []
  else
    let a := s.csrs.owntab.toNat + 32 * o.toNat
    (if (s.cached nodes o 4 0).isNone then [a, a + 8] else []) ++
      (if ow.getLsbD 0 = false ∨ (s.cachedLeaf nodes o va.toNat).isSome = true ∨ (homeOf root).isNone = true then []
       else s.walkReads nodes d o va.toNat 4 0 root)

/-- All eight compute dies. -/
def allDies (l : List Nat) : Bool := (List.range 8).all l.contains

/-- Some die has not applied a write yet. -/
def Write.spreading (w : Write) : Bool := !allDies w.dies

/-- All the writes on their way. -/
def State.writes (s : State) : List Write := s.pend ++ s.flight

/-- Is a write still on its way: not performed at package scope (06_consistency R136)? -/
def State.onWay (s : State) (id : Nat) : Bool := s.pend.any (·.id == id) || s.flight.any fun w => w.id == id && w.spreading

/-- A lookup is not over: it has read an entry from a write that is not yet performed at package scope, and its reads are
acquire loads of that scope (03_memory_tiers R64; 06_consistency R137). -/
def State.lookupOpen (s : State) (core : Option Nat) (d : Nat) (o : Byte) (va : DWord) : Bool :=
  !s.writes.isEmpty && (s.lookupReads core d o va).any fun a => (s.srcsAt d a 8).any s.onWay

/-- A lookup of a unit at an address is not over; the instruction stays at issue (03_memory_tiers R74). -/
def State.lookups (s : State) (u : UnitId) (vas : List DWord) : Bool :=
  vas.any (s.lookupOpen (s.coreOf u) (s.dieOf u) (s.ownerOf u))

/-- A key is permitted to an owner (03_memory_tiers R62). -/
def State.keyOk (s : State) (core : Option Nat) (d : Nat) (o k : Byte) : Bool :=
  let w1 := (s.ownerWords (tlbNodes core d) d o).2.toNat
  k == o || (List.range 4).any fun i => bitOf w1 (32 + i) && bitsOf w1 (8 * i + 7) (8 * i) == k.toNat

/-- What an access needs of its page (03_memory_tiers R68). -/
inductive Need where
  | read | write | rw | atomic | exec
  deriving DecidableEq, Repr

/-- The leaf gives what the access needs. -/
def Leaf.allows (l : Leaf) : Need → Bool
  | .read => l.r
  | .write => l.w
  | .rw => l.r && l.w
  | .atomic => l.r && l.w && !l.repl
  | .exec => l.x

/-- RANGE, then PERM, of an access that lies in one page; the leaf where it passes (03_memory_tiers R77). -/
def State.access (s : State) (core : Option Nat) (d : Nat) (o : Byte) (va : DWord) (need : Need) : Except Nat Leaf :=
  match s.translate core d o va with
  | none => .error cRANGE
  | some l => if l.allows need && s.keyOk core d o l.key then .ok l else .error cPERM

/-- A global access of a unit, ALIGN first (04_caches_scratchpad R101). -/
def State.globAcc (s : State) (u : UnitId) (lane : Nat) (va : DWord) (n : Nat) (need : Need) : Except Nat Acc :=
  if va.toNat % n ≠ 0 then .error cALIGN
  else match s.access (s.coreOf u) (s.dieOf u) (s.ownerOf u) va need with
    | .error c => .error c
    | .ok l => .ok ⟨lane, .glob, l.pa, va, n, l.key, l.repl, l.pg⟩

/-- Tiles per team core, N (14_execution_model R313). -/
def Team.tiles (t : Team) : Nat := pktBits t.pkt 0x00 56 50

/-- Stages of a set, S. -/
def Team.stages (t : Team) : Nat := pktBits t.pkt 0x00 15 14 + 1

/-- The team and team core an address names (04_caches_scratchpad R89): the target TEAMID, CI and OFFSET. -/
def State.spDecode (s : State) (t : Nat) (a : Nat) : Option (Nat × Nat × Nat) :=
  match s.team? t with
  | none => none
  | some me =>
    let sel := a / 2 ^ 22 % 8
    let ci := a / 2 ^ 20 % 4
    let off := a % 2 ^ 20
    let tgt := if sel = 0 then some t else if 4 ≤ sel ∧ sel - 4 < me.stages then ((s.set? me.set).bind fun x => x.teams[sel - 4]?) else none
    match tgt with
    | none => none
    | some g =>
      match s.team? g with
      | none => none
      | some x =>
        if a < 2 ^ 25 ∧ ci < x.cores.length ∧ off < 4096 * x.tiles ∧ ¬(ci = 0 ∧ off < 0x100) then some (g, ci, off) else none

/-- Is a tile owned by E (04_caches_scratchpad R92)? -/
def State.tileE (s : State) (t ci tile : Nat) : Bool :=
  ((s.team? t).bind fun x => (x.eown[ci]?).bind fun m => tget m tile).isSome

/-- Set a tile's owner bit. -/
def State.setTile (s : State) (t ci tile : Nat) (e : Bool) : State :=
  s.modTeam t fun x => { x with eown := lmod x.eown ci fun m => if e then tput m tile () else tdel m tile }

/-- A tile's use count (05_copy_engine R119). -/
def State.tileUse (s : State) (t ci tile : Nat) : Nat :=
  ((s.team? t).bind fun x => (x.uses[ci]?).map fun m => tgetD m tile 0).getD 0

/-- Set a tile's use count. -/
def State.setUse (s : State) (t ci tile n : Nat) : State :=
  s.modTeam t fun x => { x with uses := lmod x.uses ci fun m => tset 0 m tile n }

/-- A thread's scratchpad access: ALIGN, RANGE, OWNER (04_caches_scratchpad R101). -/
def State.spAcc (s : State) (t : Nat) (lane a n : Nat) : Except Nat Acc :=
  if a % n ≠ 0 then .error cALIGN
  else match s.spDecode t a with
    | none => .error cRANGE
    | some (g, ci, off) =>
      if s.tileE g ci (off / 4096) then .error cOWNER
      else .ok ⟨lane, .scratch g ci, off, BitVec.ofNat 64 a, n, 0, false, 0⟩

/-- Is the team core's state held by a save (04_caches_scratchpad R91)? -/
def State.coreSaved (s : State) (t ci : Nat) : Bool := ((s.team? t).bind fun x => x.saved[ci]?).getD false

/-- A scratchpad byte; unlisted bytes are zero (04_caches_scratchpad R93). -/
def State.spByte (s : State) (t ci off : Nat) : Byte :=
  ((s.team? t).bind fun x => (x.scratch[ci]?).map fun m => tgetD m off 0).getD 0

/-- Scratchpad bytes. -/
def State.spBytes (s : State) (t ci off n : Nat) : List Byte := (List.range n).map fun i => s.spByte t ci (off + i)

/-- Write bytes into a table whose unlisted bytes are zero. -/
def putBytes (m : Table Byte) (off : Nat) : List Byte → Table Byte
  | [] => m
  | b :: r => putBytes (tset 0 m off b) (off + 1) r

/-- Write scratchpad bytes. -/
def State.setSp (s : State) (t ci off : Nat) (bs : List Byte) : State :=
  s.modTeam t fun x => { x with scratch := lmod x.scratch ci fun m => putBytes m off bs }

/-- An accumulator element (11_matrix_engine R251). -/
def State.accElem (s : State) (t i : Nat) : Word := ((s.team? t).map fun x => tgetD x.acc i 0).getD 0

/-- Put the bytes that a write gives to the unit at an address into memory under its key: bytes of the unit under another key are
lost (03 R71). -/
def State.commit (s : State) (w : Write) (a : Nat) : State :=
  let u := a / 16
  let same := (tget s.keys u).map (·.key) = some w.key
  let m := if same then s.mem else (List.range 16).foldl (fun m i => tdel m (16 * u + i)) s.mem
  let bs := w.bytes.take (16 - a % 16)
  let m := (bs.zip (List.range bs.length)).foldl (fun m e => tput m (a + e.2) e.1) m
  { s with mem := m, keys := if same then s.keys else tput s.keys u (w.rekey (tget s.keys u)) }

/-- Every lane of a counted operation has been performed. -/
def Op.performed (o : Op) : Bool := o.accs.all fun a => (tget o.vals a.lane).isSome

/-- Two accesses touch a common byte. -/
def Acc.meets (a b : Acc) : Bool := a.tgt == b.tgt && Machine.meets a.addr a.len b.addr b.len

/-- An access and a write touch a common byte. -/
def Acc.meetsW (a : Acc) (w : Write) : Bool := a.tgt == w.tgt && Machine.meets a.addr a.len w.addr w.bytes.length

/-- A write has been applied at a die, or everywhere. -/
def State.appliedAt (s : State) (d id : Nat) : Bool :=
  (s.pend ++ s.flight).all fun w => w.id != id || w.dies.contains d

/-- A write is performed at die scope, or in its scratchpad (06_consistency R136). -/
def Write.dieDone (w : Write) : Bool := w.tgt == .glob && w.dies.contains w.die

/-- A write of one of the unit's accesses is not yet performed at die scope. -/
def State.ownOpen (s : State) (u : UnitId) (seq : Nat) : Bool := s.writes.any fun w => w.src == some u && w.seq == seq && !w.dieDone

/-- An acquire among earlier operations is not yet performed at its scope (06_consistency R137): an atomic's update counts too.
At package scope and wider it is performed when it completes. -/
def State.acqOpen (s : State) (u : UnitId) (o : Op) (minScope : Nat) : Bool :=
  match o.acq with
  | none => false
  | some sc => decide (minScope ≤ scopeNum sc) && (decide (3 ≤ scopeNum sc) || !o.performed || s.ownOpen u o.seq)

/-- The fragments of a unit; of a context its point of control. -/
def State.fragsOf (s : State) : UnitId → List Frag
  | .warp t w => ((s.warp? t w).map (·.frags)).getD []
  | .ccc t i => ((s.ccc? t i).map fun x => [x.frag]).getD []

/-- A fence of the unit in its second part holds back its access of number `seq` (06_consistency R140). -/
def State.fenceHold (s : State) (u : UnitId) (seq : Nat) : Bool :=
  (s.fragsOf u).any fun f => match f.wait with
    | some (.fence n) => decide (n ≤ seq)
    | _ => false

/-- An acquire or a fence of the unit is not yet performed: what follows it in every cell of kind K waits (06 R142 to R144). -/
def State.acqPending (s : State) (u : UnitId) : Bool :=
  (((s.regs? u).map (·.ops)).getD []).any (fun o => s.acqOpen u o 0) ||
    s.fenceHold u (((s.regs? u).map (·.seq)).getD 0)

/-- Every earlier access of the unit is performed at die scope, and in its scratchpad (06_consistency R138, R140). -/
def State.quiet (s : State) (u : UnitId) (seq : Nat) : Bool :=
  ((s.regs? u).map fun r => r.ops.all fun o => decide (seq ≤ o.seq) || o.performed).getD true &&
  s.writes.all fun w => w.src != some u || decide (seq ≤ w.seq) || w.dieDone

/-- A release may go: what it must follow is performed (06_consistency R138). -/
def State.gateOpen (s : State) (u : UnitId) (seq : Nat) (g : Gate) : Bool :=
  s.quiet u seq && (decide (scopeNum g.scope < 3) || g.snap.all fun i => !s.onWay i)

/-- The gate a release makes at issue. -/
def State.mkGate (s : State) (d : Nat) (sc : Scope) : Gate :=
  ⟨sc, ((s.writes.filter fun w => w.dies.contains d).map (·.id))⟩

/-- The line of a replicated write is locked at a die (06_consistency R146, R147). -/
def State.lockedLine (s : State) (d pa : Nat) : Bool :=
  s.writes.any fun w => w.repl && w.locked.contains d && !w.dies.contains d && w.addr / 128 == pa / 128

/-- An atomic's operator and size code. -/
def atomOf : Instr → Option (AOp × BitVec 3)
  | .atomG op w => some (op, w.sz)
  | .atomSp op w => some (op, w.sz)
  | _ => none

/-- The target is scratchpad held by a save (04_caches_scratchpad R91). -/
def State.savedTgt (s : State) : Target → Bool
  | .scratch t ci => s.coreSaved t ci
  | _ => false

/-- One lane of a counted operation may be performed now, locks of its line apart (06_consistency R142 to R145; 04 R103). -/
def State.mayPerform (s : State) (u : UnitId) (o : Op) (a : Acc) : Bool :=
  let earlier := ((s.regs? u).map (·.ops)).getD [] |>.filter fun e => decide (e.seq < o.seq)
  let free := if o.plain then
      earlier.all fun e => !s.acqOpen u e 2 && (!e.plain || e.accs.all fun x => !x.meets a || (tget e.vals x.lane).isSome)
    else
      (earlier.all fun e => !s.acqOpen u e 0 && e.accs.all fun x => !x.meets a || (tget e.vals x.lane).isSome) &&
      s.writes.all fun w => w.src != some u || decide (o.seq ≤ w.seq) || !a.meetsW w || w.dieDone
  free && !s.fenceHold u o.seq && (o.gate.all fun g => s.gateOpen u o.seq g) &&
    (o.accs.all fun x => decide (a.lane ≤ x.lane) || !(x.addr == a.addr && x.tgt == a.tgt) ||
      (atomOf o.instr).isNone || (tget o.vals x.lane).isSome) &&
    !s.savedTgt a.tgt

/-- What an L2 gives for an access: the bytes, and the writes on their way they come from. -/
def State.readL2 (s : State) (d : Nat) (a : Acc) : List Byte × List Nat :=
  let at_ := if a.repl then replAddr d a.addr else a.addr
  (s.dieBytes d a.key at_ a.len, s.srcsAt d at_ a.len)

/-- The key of a cached line. -/
def lineKey (a : Acc) : Nat := a.addr / 128 * 256 + a.key.toNat

/-- Invalidate a core's L1 and its cluster's gather cache (04_caches_scratchpad R86; 12_sparse_rows R283). -/
def State.dropCaches (s : State) (core : Option Nat) (cl : Nat) : State :=
  let s := match core with
    | some c => s.modCore c fun x => { x with l1 := [] }
    | none => s
  s.modCluster cl fun x => { x with gcache := [] }

/-- An access of a unit has been performed: its earlier operations that touch a common byte must complete if the unit stops
(15_traps_preemption R332). -/
def State.passed (s : State) (u : UnitId) (seq : Nat) (tgt : Target) (addr len : Nat) : State :=
  s.modRegs u fun r => { r with ops := r.ops.map fun o =>
    if o.seq < seq && o.accs.any fun a => a.tgt == tgt && Machine.meets a.addr a.len addr len then { o with passed := true } else o }

/-- Record what a lane has read. -/
def State.setVal (s : State) (u : UnitId) (seq lane : Nat) (bs : List Byte) (srcs : List Nat) : State :=
  s.modRegs u fun r => { r with ops := r.ops.map fun o =>
    if o.seq = seq then { o with vals := tput o.vals lane bs, srcs := o.srcs ++ srcs } else o }

/-- The counted operation of a unit with a number. -/
def State.op? (s : State) (u : UnitId) (seq : Nat) : Option Op := (s.regs? u).bind fun r => r.ops.find? (·.seq == seq)

/-- An acquire of die scope that has just been performed invalidates the caches (04_caches_scratchpad R86; 06 R137). -/
def State.acqDrop (s : State) (u : UnitId) (seq : Nat) : State :=
  if (s.op? u seq).any fun o => o.acq == some .die && o.performed && !s.ownOpen u seq then s.dropCaches (s.coreOf u) (s.clusterOf u)
  else s

/-- The new value of an atomic (04_caches_scratchpad R105): old, operand, and the value of `cas`. -/
def atomNew (op : AOp) (sz : BitVec 3) (old v v2 : Nat) : Nat :=
  let w := if sz = 2 ∨ sz = 3 then 64 else 32
  let sg := sz = 0 ∨ sz = 2
  let lt (x y : Nat) : Bool := if sg then decide (sextNat w x < sextNat w y) else decide (x < y)
  match op with
  | .add => (old + v) % 2 ^ w
  | .min => if lt v old then v else old
  | .max => if lt old v then v else old
  | .and => Nat.land old v
  | .or => Nat.lor old v
  | .xor => Nat.xor old v
  | .exch => v
  | .cas => if old = v then v2 else old
  | .fadd =>
    if sz = 4 then (faddB f32 0 (fdec f32 old) (fdec f32 v)).1
    else
      let f := if sz = 5 then f16 else bf16
      let h (x y : Nat) : Nat := (faddB f 0 (fdec f x) (fdec f y)).1
      h (old % 65536) (v % 65536) + 65536 * h (old / 65536) (v / 65536)

/-- An atomic's operands in a lane: v, and v_new of `cas` (04_caches_scratchpad R105). -/
def atomArgs (op : AOp) (sz : BitVec 3) (d : List OpRec) (lane : Nat) : Nat × Nat :=
  let n := if sz = 2 ∨ sz = 3 then 2 else 1
  let v := opLane (d.take n) lane
  if op = .cas then (v, opLane (d.drop n) lane) else (v, 0)

/-- The writes applied at a die that are still in flight: the causal predecessors of a write that leaves it now (06 R135). -/
def State.predsAt (s : State) (d : Nat) : List Nat := (s.writes.filter fun w => w.dies.contains d).map (·.id)

/-- Read bytes at their home and write what `f` gives for their value there, indivisibly (04_caches_scratchpad R109; 06 R133 to
R135). `w` says who writes, where, and its causal predecessors. It answers the old bytes and the writes read from and made;
none while a predecessor has not been applied at the home. -/
def State.rmw (s : State) (w : Write) (n : Nat) (f : Nat → Nat) : Option (State × List Byte × List Nat) :=
  let home := (homeOf w.addr).getD 8
  if home < 8 ∧ ¬ w.preds.all (s.appliedAt home) then none
  else
    let old := s.homeBytes w.key w.addr n
    let from_ := s.srcsOf (fun _ => true) w.addr n
    let w : Write := { w with id := s.nextId, tgt := .glob, repl := false, bytes := toBytes n (f (ofBytes old)), home := home, sent := true,
                              dies := if home < 8 then [home] else [] }
    some (s.recheck { s with flight := s.flight ++ [w], nextId := s.nextId + 1 } w false, old, s.nextId :: from_)

/-- A write by a unit of a die, not yet given its bytes. -/
def blankWrite (src : Option UnitId) (seq d : Nat) (owner : Byte) (va : DWord) (addr : Nat) (key : Byte) (repl : Bool) (pg : Nat) : Write :=
  ⟨0, src, seq, d, owner, va, .glob, addr, [], key, repl, pg, false, (homeOf addr).getD 8, none, false, [], [], []⟩

/-- Perform one lane of an atomic: read and update its bytes at their home, or in the tile (04 R109, R110). -/
def State.performAtomic (s : State) (u : UnitId) (o : Op) (op : AOp) (sz : BitVec 3) (a : Acc) : Option State :=
  let args := atomArgs op sz (o.recs.take (atomRegs op sz)) a.lane
  let new (old : Nat) : Nat := atomNew op sz old args.1 args.2
  match a.tgt with
  | .scratch t ci =>
    let old := s.spBytes t ci a.addr a.len
    some ((s.setSp t ci a.addr (toBytes a.len (new (ofBytes old)))).setVal u o.seq a.lane old [])
  | .acc _ => none
  | .glob =>
    let d := s.dieOf u
    let w := { blankWrite (some u) o.seq d (s.ownerOf u) a.va a.addr a.key false a.pg with preds := o.preds.getD (s.predsAt d) }
    (s.rmw w a.len new).map fun r => r.1.setVal u o.seq a.lane r.2.1 r.2.2

/-- A cache has room for a line in its set; how lines fall into sets is not stated (04_caches_scratchpad R83; 12 R276). -/
def cacheRoom (kind ways sets : Nat) (t : Table (List Byte)) (k : Nat) : Bool :=
  decide ((t.filter fun e => Config.cacheSet kind (e.1 / 256) % sets == Config.cacheSet kind (k / 256) % sets).length < ways)

/-- A cache lets go what it holds of a line, under whichever key (03_memory_tiers R71). -/
def cacheDrop (t : Table (List Byte)) (k : Nat) : Table (List Byte) := t.filter fun e => e.1 / 256 != k / 256

/-- A cache takes a line: the same line under another key goes first; a set with no room left takes nothing, since lines may be
let go at any turn (03_memory_tiers R71; log entry 21). -/
def cacheFill (kind ways sets : Nat) (t : Table (List Byte)) (k : Nat) (l : List Byte) : Table (List Byte) :=
  let t := cacheDrop t k
  if cacheRoom kind ways sets t k then tput t k l else t

/-- A core's L1 takes a line: 12 ways of 1,024 sets, less the ways lent (04_caches_scratchpad R83, R87). -/
def Core.fill (c : Core) (k : Nat) (l : List Byte) : Core := { c with l1 := cacheFill 0 (12 - c.lent) 1024 c.l1 k l }

/-- A cluster's gather cache takes a line: 16 ways of 128 sets (12_sparse_rows R276). -/
def Cluster.gfill (c : Cluster) (k : Nat) (l : List Byte) : Cluster := { c with gcache := cacheFill 1 16 128 c.gcache k l }

/-- Does a form read through the gather cache? -/
def viaGather : Instr → Bool
  | .gfLd _ => true
  | _ => false

/-- The line of a plain load's lane in the cache that it reads (04_caches_scratchpad R84; 12_sparse_rows R276). -/
def State.cachedLine (s : State) (u : UnitId) (o : Op) (a : Acc) : Option (List Byte) :=
  if !o.plain || a.tgt != .glob then none
  else if viaGather o.instr then tget (s.cluster (s.clusterOf u)).gcache (lineKey a)
  else (s.coreOf u).bind fun c => tget (s.core c).l1 (lineKey a)

/-- The cache that a plain load reads takes a line. -/
def State.fillLine (s : State) (u : UnitId) (o : Op) (k : Nat) (l : List Byte) : State :=
  if viaGather o.instr then s.modCluster (s.clusterOf u) (·.gfill k l)
  else match s.coreOf u with
    | some c => s.modCore c (·.fill k l)
    | none => s

/-- Perform one lane of a load, a plain one through the core's L1 or the gather cache (04_caches_scratchpad R84, R85). `fresh`:
the cache is passed over, as it may let its line go at any moment. -/
def State.performLoad (s : State) (u : UnitId) (o : Op) (a : Acc) (fresh : Bool) : State :=
  match a.tgt with
  | .scratch t ci => s.setVal u o.seq a.lane (s.spBytes t ci a.addr a.len) []
  | .acc t => s.setVal u o.seq a.lane (toBytes 4 (s.accElem t (a.addr / 4)).toNat) []
  | .glob =>
    let d := s.dieOf u
    let r := s.readL2 d a
    if !o.plain then s.setVal u o.seq a.lane r.1 r.2
    else match s.cachedLine u o a, fresh with
      | some l, false => s.setVal u o.seq a.lane ((l.drop (a.addr % 128)).take a.len) []
      | _, _ =>
        (s.fillLine u o (lineKey a) (s.readL2 d { a with addr := a.addr / 128 * 128, len := 128 }).1).setVal u o.seq a.lane r.1 r.2

/-- A lane has to wait at a locked line: it does not hit a cache (06_consistency R147). -/
def State.lockStalls (s : State) (u : UnitId) (o : Op) (a : Acc) (fresh : Bool) : Bool :=
  a.repl && s.lockedLine (s.dieOf u) a.addr && (fresh || (s.cachedLine u o a).isNone)

/-- Two lanes of a load take their values together: they name the same bytes, or share a line of a cache (04 R85, R102). -/
def Op.together (o : Op) (a x : Acc) : Bool :=
  x.lane == a.lane || (x.tgt == a.tgt && (x.addr == a.addr || (o.plain && a.tgt == .glob && lineKey x == lineKey a)))

/-- Perform one lane of a counted operation if the order of accesses allows it, with the lanes of a load that take their values
together. A lane that only a locked line keeps waiting is marked (06_consistency R147). -/
def State.performLane (s : State) (u : UnitId) (seq lane : Nat) (fresh : Bool) : Option State :=
  match s.op? u seq with
  | none => none
  | some o =>
    match o.accs.find? (·.lane == lane) with
    | none => none
    | some a =>
      if (tget o.vals lane).isSome || !s.mayPerform u o a then none
      else if s.lockStalls u o a fresh then
        some (s.modRegs u fun r => { r with ops := r.ops.map fun x =>
          if x.seq = seq then { x with stalled := lane :: x.stalled.filter (· != lane) } else x })
      else
        let group := if (atomOf o.instr).isSome then [a]
          else o.accs.filter fun x => o.together a x && (tget o.vals x.lane).isNone && s.mayPerform u o x
        let r := match atomOf o.instr, group with
          | some (op, sz), _ => s.performAtomic u o op sz a
          | none, [] => none
          | none, g :: gs => some (gs.foldl (fun s x => s.performLoad u o x false) (s.performLoad u o g fresh))
        r.map fun s => (group.foldl (fun s x => s.passed u seq x.tgt x.addr x.len) s).acqDrop u seq

/-- Perform every lane of a counted operation, in ascending order; none where one cannot be performed now. -/
def State.performOp (s : State) (u : UnitId) (seq : Nat) (fresh : Bool) : Option State :=
  match s.op? u seq with
  | none => none
  | some o => (o.accs.foldl (fun r a => r.bind fun s =>
      if ((s.op? u seq).bind fun o => tget o.vals a.lane).isSome then some s
      else s.performLane u seq a.lane fresh) (some s)).filter fun s => (s.op? u seq).any Op.performed

/-- Do earlier accesses of its unit hold a write back (06_consistency R137, R138, R142)? -/
def State.mayLeave (s : State) (w : Write) : Bool :=
  match w.src with
  | none => true
  | some u =>
    (((s.regs? u).map (·.ops)).getD []).all (fun e => decide (w.seq ≤ e.seq) || (!s.acqOpen u e 0 &&
      e.accs.all fun x => !x.meetsW w || (tget e.vals x.lane).isSome)) &&
    !s.fenceHold u w.seq && w.gate.all fun g => s.gateOpen u w.seq g

/-- An earlier write of the same unit, copy or put to a common byte has not been serialised. -/
def State.behindOwn (s : State) (w : Write) : Bool :=
  s.pend.any fun e => e.src == w.src && decide ((w.src.isSome ∧ e.seq < w.seq) ∨ (e.seq = w.seq ∧ e.id < w.id)) && e.tgt == w.tgt &&
    Machine.meets e.addr e.bytes.length w.addr w.bytes.length

/-- Mark a write that has left its die, with its causal predecessors (06_consistency R135). -/
def State.leave (s : State) (w : Write) : Write := if w.sent then w else { w with sent := true, preds := s.predsAt w.die }

/-- Add writes in issue order; each that nothing holds back leaves its die at once if its home is remote. -/
def State.addWrites (s : State) (ws : List Write) : State :=
  ws.foldl (fun s w =>
    let w := { w with id := s.nextId }
    let w := if w.tgt == .glob && !w.repl && w.home != w.die && s.mayLeave w then s.leave w else w
    { s with pend := s.pend ++ [w], nextId := s.nextId + 1 }) s

/-- A store lane as a write. -/
def State.mkWrite (s : State) (u : UnitId) (seq : Nat) (a : Acc) (bs : List Byte) (g : Option Gate) : Write :=
  { blankWrite (some u) seq (s.dieOf u) (s.ownerOf u) a.va a.addr a.key a.repl a.pg with tgt := a.tgt, bytes := bs, gate := g }

/-- Bytes from an address cut at the multiples of `g`, with the address of each piece. -/
def cutAt (g : Nat) : Nat → Nat → List Byte → List (Nat × List Byte)
  | 0, _, _ => []
  | fuel + 1, a, bs =>
    if bs.isEmpty then [] else (a, bs.take (g - a % g)) :: cutAt g fuel (a + (g - a % g)) (bs.drop (g - a % g))

/-- The pieces in which bytes go to memory: 16-byte units, and whole lines of a replicated page, which commit as one
(06_consistency R132, R146). -/
def pieces (repl : Bool) (a : Nat) (bs : List Byte) : List (Nat × List Byte) := cutAt (if repl then 128 else 16) bs.length a bs

/-- An engine's write of bytes that lie in one page (06_consistency R132, R135, R141): `w` says who writes, from where, and in which
page. -/
def State.engineWrite (s : State) (w : Write) (bs : List Byte) : State :=
  s.addWrites ((pieces w.repl w.addr bs).map fun p => { w with addr := p.1, bytes := p.2 })

/-- Move the writes that are applied everywhere into memory, in coherence order within each 16-byte unit. -/
def State.retireDone (s : State) : State :=
  s.flight.foldl (fun (s : State) (w : Write) =>
    if allDies w.dies && (s.flight.takeWhile (·.id != w.id)).all (fun e => e.addr / 16 != w.addr / 16) then
      { s.commit w w.addr with flight := s.flight.filter (·.id != w.id) }
    else s) s

/-- The applications of two writes to one die are ordered by coherence: they touch a common byte, or one unit under two keys. -/
def Write.clash (e w : Write) : Bool :=
  Machine.meets e.addr e.bytes.length w.addr w.bytes.length || (e.addr / 16 == w.addr / 16 && e.key != w.key)

/-- A write of a unit is performed at die scope or in its tile: an acquire of die scope may be performed with it
(06_consistency R137; 15_traps_preemption R332). -/
def State.performed (s : State) (w : Write) : State :=
  match w.src with
  | some u => (s.passed u w.seq w.tgt w.addr w.bytes.length).acqDrop u w.seq
  | none => s

/-- A write has been applied at a die, perhaps its own. -/
def State.performedAt (s : State) (w : Write) (d : Nat) : State := if d = w.die then s.performed w else s

/-- A write is applied at a die (06_consistency R133 to R135): its home serialises it first; then every other die applies it
after its causal predecessors and after earlier writes to its bytes. Die 10 stands for leaving its own die for a remote home. A
scratchpad write is applied to its tile. Nothing happens where the order forbids it. -/
def State.applyWrite (s : State) (id d : Nat) : State :=
  match s.pend.find? (·.id == id) with
  | some w =>
    if !(w.sent || s.mayLeave w) then s
    else match w.tgt with
      | .scratch t ci =>
        if s.behindOwn w || s.coreSaved t ci then s
        else { s.setSp t ci w.addr w.bytes with pend := s.pend.filter (·.id != id) }.performed w
      | .acc _ => s
      | .glob =>
        if d = 10 then
          if w.home = w.die then s else { s with pend := s.pend.map fun x => if x.id = id then s.leave x else x }
        else
          let w := s.leave w
          if w.repl = false ∧ d = w.home ∧ s.behindOwn w = false ∧ (8 ≤ d ∨ w.preds.all (s.appliedAt d) = true) then
            (s.recheck { s with pend := s.pend.filter (·.id != id), flight := s.flight ++ [{ w with dies := if d < 8 then [d] else [] }] } w
              (w.whole && !s.partsLeft w d)).performedAt w d
          else s
  | none =>
    match s.flight.find? (·.id == id) with
    | none => s
    | some w =>
      let before := s.flight.takeWhile (·.id != id)
      if d < 8 ∧ w.dies.contains d = false ∧ w.preds.all (s.appliedAt d) = true ∧
          (before.all fun e => !e.clash w || e.dies.contains d) = true then
        let w' := { w with dies := d :: w.dies }
        let s' : State := { s with flight := s.flight.map fun (x : Write) => if x.id = id then w' else x }
        (if allDies w'.dies then s'.retireDone else s').performedAt w d
      else s

end Sys2Proof.Machine
end

