-- ==== Sys2Proof/Machine/Counted.lean ====
section
/-!
DEFINITION. Completion of counted operations: what each form writes when its accesses have been performed, and the fall of its
flag (02_instruction_words R24, R28 to R30; 04_caches_scratchpad R97, R100, R104, R110; 10_lane_crossbar R241).
-/
namespace Sys2Proof.Machine

/-- A loaded value extended to a register (04_caches_scratchpad R97): codes 1 and 3 are signed. -/
def loadExt (sz : BitVec 3) (bs : List Byte) : List Word :=
  let n := ofBytes bs
  if sz = 1 then [BitVec.ofInt 32 (sextNat 8 n)]
  else if sz = 3 then [BitVec.ofInt 32 (sextNat 16 n)]
  else if sz = 0 ∨ sz = 2 then [BitVec.ofNat 32 n]
  else (List.range (szRegs sz)).map fun i => BitVec.ofNat 32 (n / 2 ^ (32 * i))

/-- The element at row `r`, column `c` of a transposed block, `es` bytes wide, from the rows read (10_lane_crossbar R240). -/
def blockElem (vals : Table (List Byte)) (es r c : Nat) : Nat := ofBytes (((tgetD vals r []).drop (c * es)).take es)

/-- The registers of a lane of `ld.sp.t` (10_lane_crossbar R241). -/
def blockLane (sz : BitVec 3) (vals : Table (List Byte)) (l : Nat) : List Word :=
  if sz = 0 then
    [BitVec.ofNat 32 (((List.range 4).map fun h => blockElem vals 1 (4 * (l % 4) + h) (l / 4) * 2 ^ (8 * h)).sum)]
  else if sz = 2 then
    [BitVec.ofNat 32 (((List.range 2).map fun h => blockElem vals 2 (2 * (l % 8) + h) (l / 8) * 2 ^ (16 * h)).sum)]
  else [BitVec.ofNat 32 (blockElem vals 4 (2 * (l % 8)) (l / 8)), BitVec.ofNat 32 (blockElem vals 4 (2 * (l % 8) + 1) (l / 8))]

/-- The words a counted operation writes in a lane, one per destination register. -/
def Op.lane (o : Op) (l : Nat) : List Word :=
  let bs := tgetD o.vals l []
  match o.instr with
  | .ldG w => loadExt w.sz bs
  | .ldC w => loadExt w.sz bs
  | .ldSp w => loadExt w.sz bs
  | .sLd w => loadExt w.sz bs
  | .ldSpT w => blockLane w.sz o.vals l
  | .atomG _ w => loadExt (if w.sz = 2 ∨ w.sz = 3 then 5 else 4) bs
  | .atomSp _ w => loadExt (if w.sz = 2 ∨ w.sz = 3 then 5 else 4) bs
  | _ => [BitVec.ofNat 32 (ofBytes bs)]

/-- Destination registers of a counted form. -/
def countedRegs : Instr → Nat
  | .ldG w => szRegs w.sz
  | .ldC w => szRegs w.sz
  | .ldSp w => szRegs w.sz
  | .sLd w => szRegs w.sz
  | .ldSpT w => if w.sz = 4 then 2 else 1
  | .atomG _ w => if w.sz = 2 ∨ w.sz = 3 then 2 else 1
  | .atomSp _ w => if w.sz = 2 ∨ w.sz = 3 then 2 else 1
  | _ => 1

/-- Is the form counted (02_instruction_words R24)? -/
def isCounted : Instr → Bool
  | .ldG _ | .ldSp _ | .ldC _ | .ldSpT _ | .sLd _ | .gfLd _ | .acLd _ | .atomG _ _ | .atomSp _ _ => true
  | _ => false

/-- Write a vector destination of one or more registers by the destination rule. -/
def Warp.writeV (w : Warp) (d n : Nat) (lm e : Lanes) (kp : Bool) (f : Nat → List Word) : Warp :=
  (List.range n).foldl (fun w i => w.setV (d + i) (vmerge lm e kp (w.vr (d + i)) fun l => (f l).getD i 0)) w

/-- Chunks of a register in the fast operand buffer (07_registers R172). -/
def Warp.chunks (w : Warp) (n : Nat) : Nat := cdiv (w.vr n).length 8

/-- Write back buffered registers until the slot's 96 chunks suffice: first those `rgn` did not select, least recently named
first, never one in `keep` (07_registers R173). `buf` has the most recently named first; a vacant register takes no chunk and
stays. -/
def evictBuf (w : Warp) (keep : List Nat) : Nat → List Nat → List Nat
  | 0, buf => buf
  | n + 1, buf =>
    if (buf.map w.chunks).sum ≤ 96 then buf
    else
      let cand := buf.reverse.filter fun r => !keep.contains r && w.chunks r != 0
      match (cand.filter fun r => !w.rsel.contains r) ++ (cand.filter fun r => w.rsel.contains r) with
      | [] => buf
      | r :: _ => evictBuf w keep n (buf.erase r)

/-- Registers not buffered and not vacant: each costs an implicit fill (07_registers R173). -/
def Warp.fills (w : Warp) (named : List Nat) : List Nat :=
  named.eraseDups.filter fun n => !w.buf.contains n && !(w.vr n).isEmpty

/-- The buffer after an instruction that names registers (07_registers R172, R173), the first of them most recently (log
entry 77). -/
def Warp.rebuf (w : Warp) (named : List Nat) : Warp :=
  let named := named.eraseDups
  let buf := named ++ w.buf.filter fun n => !named.contains n
  { w with buf := evictBuf w named buf.length buf }

/-- Room for the registers that a completion has written: they stay as recently named as they were (07_registers R173; log
entry 77). -/
def Warp.widen (w : Warp) (written : List Nat) : Warp :=
  let buf := w.buf ++ written.filter fun n => !w.buf.contains n && !(w.vr n).isEmpty
  { w with buf := evictBuf w written buf.length buf }

/-- An instruction uses the buffer: implicit fills are counted, marked registers are freed, the registers named are buffered
(07_registers R173, R175). `s0`: the state before its effect. -/
def State.useBuf (s0 s : State) (t w : Nat) (marks named : List Nat) : State :=
  match s0.warp? t w with
  | none => s
  | some w0 =>
    let fills := (w0.fills named).length
    let s := if fills = 0 then s else s.modCore w0.core fun x => { x with ifcnt := x.ifcnt + BitVec.ofNat 64 fills }
    s.modWarp t w fun x => (x.free marks).rebuf named

/-- The unit has exited. -/
def State.exitedU (s : State) : UnitId → Bool
  | .warp t w => (s.warp? t w).any (·.exited)
  | .ccc t i => (s.ccc? t i).any (·.exited)

/-- The destination of a counted operation takes its values; an exited warp takes nothing (02_instruction_words R30). -/
def State.writeBack (s : State) (u : UnitId) (o : Op) : State :=
  match o.instr with
  | .sLd _ => if s.exitedU u then s else s.modRegs u fun r => r.setSs o.dst (o.lane 0)
  | _ =>
    match u with
    | .warp t w => s.modWarp t w fun x =>
        if x.exited then x
        else (x.writeV o.dst (countedRegs o.instr) o.lmap o.emap (dKp (shape o.instr)) o.lane).widen ((List.range (countedRegs o.instr)).map (o.dst + ·))
    | .ccc _ _ => s

/-- Drop a counted operation and lower its flag. -/
def State.uncount (s : State) (u : UnitId) (o : Op) : State :=
  s.modRegs u fun r => { r.setFlag o.flag (r.flag o.flag - 1) with ops := r.ops.filter (·.seq != o.seq) }

/-- A counted operation completes: its remaining lanes are performed, an acquire waits until its updates are performed at die
scope, and at package scope or wider until what it read and wrote is performed there, and then invalidates the caches (06_consistency R137);
the destination is written and the flag falls. None where it cannot complete yet. -/
def State.complete (s : State) (u : UnitId) (seq : Nat) (fresh : Bool) : Option State :=
  match s.performOp u seq fresh with
  | none => none
  | some s =>
    match s.op? u seq with
    | none => none
    | some o =>
      let wide := o.acq.any fun sc => decide (3 ≤ scopeNum sc)
      if (o.acq.isSome && s.ownOpen u seq) || (wide && o.srcs.any s.onWay) then none
      else
        let s := if wide then s.dropCaches (s.coreOf u) (s.clusterOf u) else s
        some ((s.writeBack u o).uncount u o)

end Sys2Proof.Machine
end

