-- ==== Sys2Proof/Machine/Waits.lean ====
section
/-!
DEFINITION. What waiting fragments and contexts wait for (13_control_flow R286): rendezvous objects, tags, bricks, reservation
entries, passes, tiles, walks, ring slots, and the one test of whether a wait is over.
-/
namespace Sys2Proof.Machine

/-- The team whose header holds a point: points 16 to 23 are those of the stage-0 team (06_consistency R149). -/
def State.rvTeam (s : State) (t pt : Nat) : Nat :=
  if pt < 16 then t else ((s.set? (s.setOf t)).bind fun x => x.teams[0]?).getD t

/-- A rendezvous object (06_consistency R150). -/
def State.rv (s : State) (t pt : Nat) : Rv :=
  (((s.team? (s.rvTeam t pt)).bind fun x => x.rv[pt]?)).getD ⟨0, false, 0, 0⟩

/-- Replace a rendezvous object. -/
def State.setRv (s : State) (t pt : Nat) (o : Rv) : State :=
  s.modTeam (s.rvTeam t pt) fun x => { x with rv := lset x.rv pt o }

/-- The phase that a target names is complete (06_consistency R155). -/
def rvPassed (gen t : Nat) : Bool := decide ((gen + 16 - t % 16) % 16 ≤ 7)

/-- One arrival of count `c` on an object; none where it exceeds PEND (06_consistency R154). -/
def Rv.arrive (o : Rv) (c : Nat) : Option Rv :=
  if o.pend < c then none
  else if o.pend = c then some { o with gen := (o.gen + 1) % 16, pend := o.exp }
  else some { o with pend := o.pend - c }

/-- The tags of a team core. -/
def State.tags (s : State) (t ci : Nat) : List Tag := ((s.team? t).bind fun x => x.tags[ci]?).getD []

/-- A tag of a team core. -/
def State.tag? (s : State) (t ci n : Nat) : Option Tag := (s.tags t ci)[n]?

/-- Change a tag. -/
def State.modTag (s : State) (t ci n : Nat) (f : Tag → Tag) : State :=
  s.modTeam t fun x => { x with tags := lmod x.tags ci fun l => lmod l n f }

/-- The masked tags of a team core, lowest first, with their numbers. -/
def State.masked (s : State) (t ci mask : Nat) : List (Nat × Tag) :=
  ((List.range 64).zip (s.tags t ci)).filter fun e => bitOf mask e.1

/-- The team core index of a warp (07_registers R167); 0 for a CCC context. -/
def State.ownCi (s : State) : UnitId → Nat
  | .warp t w => ((s.team? t).map fun x => w % x.cores.length).getD 0
  | .ccc _ _ => 0

/-- The brick runs in use on a core (07_registers R169), of the warps whose registers stand there. -/
def State.bricksOf (s : State) (core : Nat) : List (Nat × Nat) :=
  s.teams.flatMap fun t => t.2.warps.flatMap fun w =>
    match w.place with
    | .saved => []
    | _ => if w.core = core then w.bricks else []

/-- Is a run of bricks free of others? -/
def runFree (used : List (Nat × Nat)) (a n : Nat) : Bool := a + n ≤ 512 && used.all fun r => !meets a n r.1 r.2

/-- The lowest free run of `n` bricks. -/
def State.findRun (s : State) (core n : Nat) : Option Nat := (List.range 512).find? fun a => runFree (s.bricksOf core) a n

/-- `scope.open` may proceed: its request is the oldest of the core and the bricks are free (07_registers R177, R179). -/
def State.scopeGo (s : State) (core t w fid : Nat) : Bool :=
  match (s.core core).scopeQ with
  | [] => false
  | q :: _ => q.1 == t && q.2.1 == w && q.2.2.1 == fid && (s.findRun core q.2.2.2).isSome

/-- No counted operation of the warp writes a register of the top scope (07_registers R178). -/
def Warp.scopeFree (w : Warp) : Bool :=
  match w.scopes with
  | [] => true
  | (b, n) :: _ => w.regs.ops.all fun o =>
      match o.instr with
      | .sLd _ => true
      | i => !meets o.dst (countedRegs i) b n

/-- The slots a matrix entry reads (11_matrix_engine R255). -/
def slotsOf : Instr → List Nat
  | .mxIp w => [w.a.toNat, w.b.toNat]
  | .mxOp w => [w.a.toNat, w.b.toNat]
  | .mxRw w => [w.b.toNat]
  | _ => []

/-- A granted pass of the team reads a slot (11_matrix_engine R247). -/
def State.passReads (s : State) (t k : Nat) : Bool :=
  let cl := ((s.team? t).map (·.cluster)).getD 0
  (s.cluster cl).entries.any fun e => e.team == t && e.granted.isSome && (slotsOf e.instr).contains k

/-- A reservation entry is free for a context: the table has room and it is first in the queue (11_matrix_engine R265). -/
def State.entryGo (s : State) (u : UnitId) : Bool :=
  let c := s.cluster (s.clusterOf u)
  decide (c.entries.length < 32) && c.entryQ.head? == some u

/-- A context's own entries (11_matrix_engine R257). -/
def State.entriesOf (s : State) (t i : Nat) : List REnt :=
  (s.cluster (((s.team? t).map (·.cluster)).getD 0)).entries.filter fun e => e.team == t && e.ctx == i

/-- An access or a write in flight touches a run of tiles of a team core (05_copy_engine R129). -/
def State.tilesBusy (s : State) (t ci first n : Nat) : Bool :=
  let hit (tgt : Target) (a k : Nat) : Bool := tgt == .scratch t ci && meets a k (4096 * first) (4096 * n)
  (s.writes.any fun w => hit w.tgt w.addr w.bytes.length) ||
  s.teams.any fun x =>
    let regs := x.2.warps.map (·.regs) ++ x.2.cccs.map (·.regs)
    regs.any fun r => r.ops.any fun o => o.accs.any fun a => hit a.tgt a.addr a.len && (tget o.vals a.lane).isNone

/-- A unit's own scratchpad accesses, or an acquire or fence of its, are not yet performed (06_consistency R143 column give). -/
def State.spOpen (s : State) (u : UnitId) : Bool :=
  s.acqPending u || (s.writes.any fun w => w.src == some u && w.tgt != .glob) ||
    (((s.regs? u).map (·.ops)).getD []).any fun o => o.accs.any fun a => (match a.tgt with
      | .scratch _ _ => true
      | _ => false) && (tget o.vals a.lane).isNone

/-- What `own.give` waits for: the accesses to its tiles, and its warp's own (05_copy_engine R129; 06_consistency R143, R145). -/
def State.giveBusy (s : State) (u : UnitId) (t ci first n : Nat) : Bool := s.tilesBusy t ci first n || s.spOpen u

/-- The walk contexts in use in a cluster: those of warps that are not saved (16_traversal R376, R382). -/
def State.walksIn (s : State) (cl : Nat) : List Walk :=
  s.teams.flatMap fun t => if t.2.cluster = cl then t.2.warps.flatMap fun w => (match w.place with
    | .saved => []
    | _ => w.walks) else []

/-- Some walk is in progress on a block. -/
def State.blockWalked (s : State) (bt bci boff : Nat) : Bool :=
  s.teams.any fun t => t.2.warps.any fun w => w.walks.any fun x => x.team == bt && x.ci == bci && x.off == boff

/-- A walk block is free (16_traversal R376, R379): no walk runs on it, and a fragment's request for it is the oldest. -/
def State.blockGo (s : State) (t w fid bt bci boff : Nat) : Bool :=
  let cl := ((s.team? t).map (·.cluster)).getD 0
  !s.blockWalked bt bci boff &&
    (((s.cluster cl).walkQ.filter fun q => q.2 == (bt, bci, boff)).head?).map (·.1) == some (t, w, fid)

/-- A walk has ended: every lane has stopped (16_traversal R376). -/
def Walk.done (k : Walk) : Bool := (lanesOf k.lmap).all fun l => (tget k.stops l).isSome

/-- A walk block's request is served next: one of the 16 walk contexts is free, and no older request of the cluster has its
block free (16_traversal R376). -/
def State.contextGo (s : State) (cl : Nat) (me : (Nat × Nat × Nat) × (Nat × Nat × Nat)) : Bool :=
  decide ((s.walksIn cl).length < 16) &&
    (((s.cluster cl).walkQ.find? fun q => s.blockGo q.1.1 q.1.2.1 q.1.2.2 q.2.1 q.2.2.1 q.2.2.2) == some me)

/-- A source's pending slot is occupied, or events already wait for it (15_traps_preemption R345). -/
def State.ringBusy (s : State) (src : RingSrc) : Bool :=
  s.ringHeld.any (·.1 == src) || s.ringWait.any (·.1 == src)

/-- The ring source of a unit. -/
def State.ringSrc (s : State) (u : UnitId) : RingSrc :=
  match s.coreOf u with
  | some c => .core c
  | none => .ccc (s.clusterOf u)

/-- The number the next access of a unit takes: every access so far is earlier. -/
def State.seqOf (s : State) (u : UnitId) : Nat := ((s.regs? u).map (·.seq)).getD 0

/-- Withdraw a fragment's waiting requests. -/
def State.dequeue (s : State) (u : UnitId) (fid : Nat) : State :=
  let s := s.modCluster (s.clusterOf u) fun c => { c with entryQ := c.entryQ.filter (· != u) }
  match u with
  | .ccc _ _ => s
  | .warp t w =>
    let s := s.modCluster (s.clusterOf u) fun c => { c with walkQ := c.walkQ.filter (·.1 != (t, w, fid)) }
    match s.coreOf u with
    | none => s
    | some k => s.modCore k fun c => { c with scopeQ := c.scopeQ.filter fun q => !(q.1 == t && q.2.1 == w && q.2.2.1 == fid) }

/-- Withdraw every waiting request of a team. -/
def State.dequeueTeam (s : State) (t : Nat) : State :=
  match s.team? t with
  | none => s
  | some x =>
    let s := s.modCluster x.cluster fun c =>
      { c with entryQ := c.entryQ.filter (teamOf · != t), walkQ := c.walkQ.filter (·.1.1 != t) }
    x.cores.foldl (fun s k => s.modCore k fun c => { c with scopeQ := c.scopeQ.filter (·.1 != t) }) s

/-- The clause WAIT of a header is satisfied (02_instruction_words R26). -/
def Regs.flagsClear (r : Regs) (wait : BitVec 12) : Bool := (List.range 12).all fun i => !wait.getLsbD i || r.flag i == 0

/-- A wait is over: the fragment is no longer blocked. `fence` and `stall` never block (13_control_flow R286). -/
def State.waitOver (s : State) (u : UnitId) (f : Frag) : WaitOn → Bool
  | .flags => f.hdr.all fun h => (s.regs? u).all fun r => r.flagsClear h.wait
  | .rendezvous pt => rvPassed (s.rv (teamOf u) pt).gen (f.tg.getD pt 1)
  | .arrival => s.quiet u (s.seqOf u)
  | .tagAny ci mask =>
    let l := s.masked (teamOf u) ci mask
    decide (2 ≤ f.phase) || (l.any fun e => e.2.st == 2) || l.all fun e => e.2.st != 1
  | .tagAll ci mask =>
    let l := s.masked (teamOf u) ci mask
    decide (2 ≤ f.phase) || (l.any fun e => e.2.st == 0) || l.all fun e => e.2.st == 2
  | .tagIssue n => (s.tag? (teamOf u) (s.ownCi u) n).all fun e => e.st != 1
  | .scopeOpen => match u with
    | .warp t w => s.scopeGo ((s.coreOf u).getD 0) t w f.fid
    | .ccc _ _ => true
  | .scopeClose => match u with
    | .warp t w => (s.warp? t w).all (·.scopeFree)
    | .ccc _ _ => true
  | .entry => s.entryGo u
  | .pass k => !s.passReads (teamOf u) k
  | .give t ci first n => !s.giveBusy u t ci first n
  | .halt n => (s.tag? (teamOf u) (s.ownCi u) n).all fun e => e.st != 1
  | .walk => match u with
    | .warp t w => (s.warp? t w).all fun x => x.walks.all fun k => k.fid != f.fid || k.done
    | .ccc _ _ => true
  | .block t ci off => match u with
    | .warp a w => s.blockGo a w f.fid t ci off
    | .ccc _ _ => true
  | .context t ci off => match u with
    | .warp a w => s.contextGo (s.clusterOf u) ((a, w, f.fid), (t, ci, off))
    | .ccc _ _ => true
  | .ring => !s.ringBusy (s.ringSrc u)
  | .exit => match u with
    | .warp _ _ => (s.regs? u).all fun r => r.ops.all fun o => o.fid != f.fid
    | .ccc t i => (s.entriesOf t i).isEmpty
  | .invalidation => s.invDone.any (· == (u, f.fid))
  | .fence _ => true
  | .stall => true

/-- The key of a line of code in an instruction cache. -/
def Leaf.codeKey (l : Leaf) (d : Nat) : Nat := l.at_ d / 128 * 256 + l.key.toNat

/-- The bytes of a word of code as a unit fetches it (13_control_flow R302): from its core's L0, else its cluster's instruction
cache, else the L2. Nothing orders a fetch with stores, so a line taken earlier still gives the old word
(02_instruction_words R34; log entry 76). -/
def State.codeBytes (s : State) (u : UnitId) (l : Leaf) : List Byte :=
  let d := s.dieOf u
  let a := l.at_ d
  let k := l.codeKey d
  match ((s.coreOf u).bind fun c => tget (s.core c).l0 k).or (tget (s.cluster (s.clusterOf u)).icache k) with
  | some bs => (bs.drop (a % 128)).take 8
  | none => s.dieBytes d l.key a 8

/-- Fetch a word for a unit: RANGE, PERM (02_instruction_words R23). -/
def State.fetch (s : State) (u : UnitId) (va : DWord) : Except Nat DWord :=
  (s.access (s.coreOf u) (s.dieOf u) (s.ownerOf u) va .exec).map fun l => BitVec.ofNat 64 (ofBytes (s.codeBytes u l))

/-- A fragment stands before a clause whose WAIT is not satisfied (02_instruction_words R26). -/
def State.headerWaits (s : State) (u : UnitId) (f : Frag) : Bool :=
  f.hdr.isNone && f.slot == 0 && match s.fetch u f.cpc with
    | .error _ => false
    | .ok w => (decodeHeader w).any fun h => !(s.regs? u).all fun r => r.flagsClear h.wait

/-- Is a fragment blocked (13_control_flow R286)? -/
def State.blocked (s : State) (u : UnitId) (f : Frag) : Bool :=
  (f.wait.any fun k => !s.waitOver u f k) || s.headerWaits u f

end Sys2Proof.Machine
end

