-- ==== Sys2Proof/Machine/Ops.lean ====
section
/-!
DEFINITION. The shared operations of every instruction: the checks of issue, retirement, waiting; taking a trap, escalation
and the moraine ring; the return from a trap (02_instruction_words R19, R31 to R33, R53; 13_control_flow; 15_traps_preemption).
-/
namespace Sys2Proof.Machine

/-- The place of an issuing instruction: who issues, the fragment, its map, its clause. -/
structure Ctx where
  cur  : Cur
  fid  : Nat
  kind : Kind
  lm   : Lanes
  hdr  : Header
  cpc  : DWord
  slot : Nat
  phase : Nat
  deriving DecidableEq, Repr

/-- A trap as its instruction raises it: cause, AUX, the faulting lanes with cause and address, CMAP (15 R330, R331, R334). -/
structure TrapInfo where
  code  : Nat
  aux   : DWord
  lanes : List (Nat × Nat × DWord)
  cmap  : Lanes
  deriving DecidableEq, Repr

/-- What an instruction's body comes to: it retires and the next word follows; it has moved its fragments itself; the same
with its issue settled; it traps; it waits. -/
inductive Res where
  | retire (s : State)
  | placed (s : State)
  | done (s : State)
  | trap (t : TrapInfo) (s : State)
  | wait (k : WaitOn) (s : State)

/-- A trap without a fault record. -/
def plainTrap (code : Nat) (aux : DWord := 0) : TrapInfo := ⟨code, aux, [], 0⟩

/-- A trap with a single-access record: lane 0 holds the address (15_traps_preemption R330). -/
def oneTrap (code : Nat) (addr : DWord) : TrapInfo := ⟨code, 0, [(0, code, addr)], 0⟩

/-- A trap with a per-lane record; CODE is the lowest faulting lane's cause. -/
def laneTrap (lanes : List (Nat × Nat × DWord)) (cmap : Lanes) : TrapInfo :=
  ⟨(lanes.head?.map (·.2.1)).getD 0, 0, lanes, cmap⟩

/-- The faulting-lane map of a trap. -/
def TrapInfo.tfmap (t : TrapInfo) : Lanes := laneMap fun l => t.lanes.any (·.1 == l)

/-- The instructions that end a clause (02_instruction_words R19). -/
def endsClause : Instr → Bool
  | .bra _ | .brx _ | .jmpi _ | .call _ | .calli _ | .ret | .exit | .exitSpawn _ | .rte | .halt | .twRet _ => true
  | _ => false

/-- The FS bit of a counted form: true for `.fb` (02_instruction_words R24). -/
def fsBit : Instr → Bool
  | .ldG w => w.fs
  | .ldC w => w.fs
  | .sLd w => w.fs
  | .atomG _ w => w.fs
  | .ldSp w => w.fs
  | .atomSp _ w => w.fs
  | .ldSpT w => w.fs
  | .gfLd w => w.fs
  | .acLd w => w.fs
  | _ => false

/-- The flag a counted form names in a clause; 15 for none (02_instruction_words R24). -/
def flagOf (h : Header) (i : Instr) : Nat := if fsBit i then h.setb else h.seta

/-- The forms a disabled feature makes illegal (18_host_and_trust R401). -/
def featureOk (s : State) : Instr → Bool
  | .opClaim w => s.feature 4 && (w.fmt != 3 || s.feature 5)
  | .opRel _ | .opSt _ | .mxFeed _ | .acLd _ | .acClr _ | .mxCfg _ | .mxIp _ | .mxOp _ | .mxRw _ | .mxNzs _
  | .cpS2o _ | .cpA2s _ => s.feature 4
  | .kdot8 w => w.ty != 1 || s.feature 5
  | .kpack w => w.ty != 1 || s.feature 5
  | .kunpack w => w.ty != 1 || s.feature 5
  | .twNlt _ | .twRun _ | .twRet _ | .twCut _ | .twResume _ => s.feature 6
  | .gfLd _ => s.feature 7
  | _ => true

/-- The forms a CCC context may issue (02_instruction_words R49). -/
def cccMay : Instr → Bool
  | .nop | .yield | .yieldW | .bra _ | .jmpi _ | .call _ | .calli _ | .ret | .exit | .exitSpawn _
  | .sAdd _ | .sSub _ | .sMul _ | .sMin _ | .sMax _ | .sAnd _ | .sOr _ | .sXor _ | .sNot _ | .sShl _ | .sShr _ | .sSar _
  | .sCmp _ _ | .sMov _ | .sLd _ | .fence _ | .tagWany _ | .tagWall _ | .tagFfr _ | .tagClr _ | .tagRd _
  | .opClaim _ | .opRel _ | .acClr _ | .mxCfg _ | .mxIp _ | .mxOp _ | .mxRw _ | .mxNzs _
  | .rvInit _ | .rvArrive _ | .rvWait _ | .rvArrw _ | .mbxPost _ | .perfReq _ | .trap _ | .csrRd _ => true
  | _ => false

/-- The forms only CCC contexts issue: MAJ 0x7A (02_instruction_words R49, R51). -/
def cccOnly : Instr → Bool
  | .mxCfg _ | .mxIp _ | .mxOp _ | .mxRw _ | .mxNzs _ => true
  | _ => false

/-- The forms only a trap handler issues (02_instruction_words R49). -/
def handlerOnly : Instr → Bool
  | .rte | .rqRd _ | .rqWr _ | .trapDrop _ | .ringPost _ => true
  | _ => false

/-- The forms barred in a trap handler (15_traps_preemption R336). -/
def barredInHandler : Instr → Bool
  | .brx _ | .jarm _ | .join _ | .jmpi _ | .calli _ | .call _ | .ret | .exitSpawn _ | .twRun _ | .twCut _ | .twResume _
  | .twRet _ => true
  | _ => false

/-- The forms barred in an invocation (16_traversal R374). -/
def barredInInv : Instr → Bool
  | .twNlt _ | .twRun _ | .twCut _ | .twResume _ | .exit | .exitSpawn _ => true
  | _ => false

/-- Arrivals that count lanes; a CCC context has none (06_consistency R152). -/
def countsLanes : Instr → Bool
  | .rvArrive w => w.ln
  | .rvArrw w => w.ln
  | _ => false

/-- Who may name a control register: 0 any, 1 warps, 2 CCC contexts, 3 system contexts (15_traps_preemption R351). -/
def csrWho (num : Nat) : Nat :=
  if num = 0x001 then 0 else if num = 0x002 ∨ num = 0x003 then 1 else if num = 0x008 ∨ num = 0x009 then 2 else 3

/-- The control register a form names. -/
def csrOf : Instr → Option Nat
  | .csrRd w => some w.num.toNat
  | .csrWr w => some w.num.toNat
  | _ => none

/-- The read-only control registers (15_traps_preemption R351). -/
def csrRo (num : Nat) : Bool := num < 0x100 || num == 0x112

/-- Is the unit a CCC context? -/
def isCcc : UnitId → Bool
  | .warp _ _ => false
  | .ccc _ _ => true

/-- The issuing team has the system attribute (02_instruction_words R51). -/
def State.isSys (s : State) (u : UnitId) : Bool := ((s.team? (teamOf u)).map (·.sys)).getD false

/-- The privileged forms (02_instruction_words R51). -/
def privForm : Instr → Bool
  | .csrWr _ | .halt => true
  | _ => false

/-- The D register of a pair slot, and A where it is a register. -/
def slotReads (p : PSlot) : List Nat := p.d.toNat :: (if p.imm then [] else [p.a.toNat])

/-- The legality rules of a pair word (02_instruction_words R47). -/
def pairOk (ch : Bool) (a b : PSlot) : Bool :=
  let r2 := if ch then (slotReads b).filter (· != a.d.toNat) else slotReads b
  let reads := slotReads a ++ r2
  a.d.toNat % 4 != b.d.toNat % 4 && ((List.range 4).all fun k => decide ((reads.filter (· % 4 == k)).length ≤ 2)) &&
    (ch || (slotReads b).all (· != a.d.toNat))

/-- A field of a CCC form names a vector or predicate register, or a special register a context has not (02 R49; 07 R167). -/
def cccField (f : Fld) : Bool :=
  f.cls == 0 || (f.cls == 2 && (decide (f.rf.num.toNat < 0x83) || (decide (0x88 ≤ f.rf.num.toNat) && f.rf.num != 0x8B)))

/-- Registers named by `rgn` and by pair slots, beyond the fields of the shape table. -/
def extraNums : Instr → List Nat
  | .rgn w => (lanesOf w.mask).map (w.base.toNat + ·)
  | .pairWord _ a b => slotReads a ++ slotReads b
  | _ => []

/-- A `tw.ret` stands where it may: in an invocation, at depth 0, with M as its lanes' event asks (16_traversal R375). -/
def State.retOk (s : State) (c : Ctx) (w : TwRetW) : Bool :=
  match c.cur.unit, c.kind with
  | .warp t wx, .inv id =>
    ((s.frag? c.cur).any (·.stk.isEmpty)) && ((s.warp? t wx).bind fun x => x.walks.find? (·.id == id)).any fun k =>
      (k.invs.filter fun v => c.lm.getLsbD v.1 && v.2.stage == 2).all fun v => w.m == (v.2.evt == .prune)
  | _, _ => false

/-- The first failing check of 02_instruction_words R53 before an instruction's own traps. -/
def issueCheck (s : State) (c : Ctx) (i : Instr) : Option Nat :=
  let u := c.cur.unit
  let sh := shape i
  let r := (s.regs? u).getD ⟨[], [], [], [], 0⟩
  let allot : Nat := match u with
    | .warp t w => ((s.warp? t w).map (·.allot)).getD 0
    | .ccc _ _ => 0
  if !featureOk s i || (endsClause i && c.slot + 1 != c.hdr.len) || (isCounted i && flagOf c.hdr i == 15) ||
      (isCcc u && cccMay i && sh.flds.any cccField) then some cILLENC
  else if (match i with
      | .pairWord ch a b => !pairOk ch a b
      | _ => false) then some cILLPAIR
  else if (if isCcc u then !cccMay i || countsLanes i else cccOnly i) || (handlerOnly i && c.kind != .handler) ||
      (barredInHandler i && c.kind == .handler) || (match i with
        | .twRet w => !s.retOk c w
        | _ => false) || (barredInInv i && (c.kind != .handler && c.kind != .normal)) ||
      (csrOf i).any (fun n => (csrWho n == 1 && isCcc u) || (csrWho n == 2 && !isCcc u)) then some cILLCTX
  else if !s.isSys u && (privForm i || (csrOf i).any fun n => csrWho n == 3) then some cPRIV
  else if (match i with
      | .csrWr w => csrRo w.num.toNat
      | _ => false) then some cPRIV
  else if !isCcc u && (!(sh.flds.all (fldBound r allot sh.ix)) || (extraNums i).any fun n => decide (allot ≤ n)) then some cREGBOUND
  else none

/-- A fragment at its next word: the next slot, or the header that follows the clause (02_instruction_words R18). -/
def Frag.advance (f : Frag) (len : Nat) : Frag :=
  if f.slot + 1 < len then { f with slot := f.slot + 1, wait := none, phase := 0, snap := [] }
  else { f with cpc := f.cpc + BitVec.ofNat 64 (8 * (len + 1)), slot := 0, hdr := none, wait := none, phase := 0, snap := [] }

/-- A fragment at a clause header. -/
def Frag.goto (f : Frag) (pc : DWord) : Frag := { f with cpc := pc, slot := 0, hdr := none, wait := none, phase := 0, snap := [] }

/-- The address of the header that follows a clause. -/
def nextHeader (c : Ctx) : DWord := c.cpc + BitVec.ofNat 64 (8 * (c.hdr.len + 1))

/-- One issue of a warp: the issuing fragment's AGE becomes 0, and the others that were ready before it gain one; the issuing
fragment goes on with its run, or begins one (13_control_flow R303). `s0` is the state before the effect. -/
def State.bumpAges (s0 s : State) (t w fid : Nat) : State :=
  let ready : List Nat := ((((s0.warp? t w).map (·.frags)).getD []).filter fun f => !s0.blocked (.warp t w) f).map (·.fid)
  let g (f : Frag) : Frag :=
    if f.fid = fid then { f with age := 0 }
    else if ready.contains f.fid then { f with age := min 255 (f.age + 1) } else f
  s.modWarp t w fun x => { x with live0 := x.live0.map g, live1 := x.live1.map g, spill := x.spill.map g,
                                  last := fid, other := false, run := if x.last = fid ∧ x.run < 16 ∧ x.other = false then x.run + 1 else 1 }

/-- The forms whose D field is a source: its bit 9 is a last-read mark (04_caches_scratchpad R104). -/
def dIsSource : Instr → Bool
  | .stG _ | .stSp _ => true
  | _ => false

/-- The registers an instruction marks. -/
def marksOf (r : Regs) (i : Instr) : List Nat :=
  match i with
  | .pairWord _ a b => (if a.al then [a.a.toNat] else []) ++ (if b.al then [b.a.toNat] else [])
  | _ => markedNums r (shape i) (dIsSource i)

/-- Every vector register an instruction names. -/
def namedOf (r : Regs) (i : Instr) : List Nat :=
  namedNums r (shape i) ++ (match i with
    | .pairWord _ a b => slotReads a ++ slotReads b
    | _ => [])

/-- What every issued instruction does besides its own effect: implicit fills, freeing of marked sources, the buffer, ages
(07_registers R173, R175; 13_control_flow R303). `s0` is the state before the effect. -/
def State.settleIssue (s0 s : State) (c : Ctx) (i : Instr) : State :=
  match c.cur.unit with
  | .ccc _ _ => s
  | .warp t w =>
    match s0.warp? t w with
    | none => s
    | some w0 =>
      let s := (s0.useBuf s t w (marksOf w0.regs i) (namedOf w0.regs i)).modCore w0.core fun x => { x with last := w0.wslot }
      if c.kind = .handler then s else s0.bumpAges s t w c.fid

/-- An instruction has retired: the next word follows. -/
def State.retire (s0 s : State) (c : Ctx) (i : Instr) : State :=
  (s0.settleIssue s c i).modFrag c.cur (·.advance c.hdr.len)

/-- A fragment's record number in the trap frame (15_traps_preemption R329); 127 when the fragment is gone. -/
def Warp.recNum (w : Warp) (fid : Nat) : Nat :=
  let hit (o : Option Frag) : Bool := o.any (·.fid == fid)
  if hit w.live0 then 0
  else if hit w.live1 then 1
  else match (w.spill.reverse.zip (List.range 64)).find? fun e => e.1.fid == fid with
    | some e => 2 + e.2
    | none => match w.parks.find? fun e => e.2.fid == fid with
      | some e => 66 + e.1
      | none => 127

/-- The eight words of a fragment record (13_control_flow R288); `st`: 0 live, 1 spilled, 2 parked. -/
def fragWords (blk : Bool) (f : Frag) (st : Nat) : List Word :=
  [BitVec.ofNat 32 f.cpc.toNat,
   BitVec.ofNat 32 (pack [(16, f.cpc.toNat / 2 ^ 32), (4, f.slot), (4, 0), (8, f.age)]),
   f.lmap,
   BitVec.ofNat 32 (pack [(6, f.stk.length), (4, f.rj), (2, st), (1, bit blk), (7, f.fid)]),
   BitVec.ofNat 32 (pack ((f.tg.take 8).map fun t => (4, t))),
   BitVec.ofNat 32 (pack (((f.tg.drop 8).take 8).map fun t => (4, t))),
   BitVec.ofNat 32 (pack ((f.tg.drop 16).map fun t => (4, t))), 0]

/-- The eight words of a rejoin register in the frame (13_control_flow R289; 15 R329). -/
def jWords (j : JReg) (pk : Bool) : List Word :=
  [j.exp, j.arr, BitVec.ofNat 32 j.jpc.toNat, BitVec.ofNat 32 (j.jpc.toNat / 2 ^ 32 % 2 ^ 16),
   BitVec.ofNat 32 (pack [(4, j.out), (6, j.dj), (1, bit pk), (3, j.ord)]), 0, 0, 0]

/-- Put words into a table from a word index on. -/
def putWords (t : Table Word) (k : Nat) : List Word → Table Word
  | [] => t
  | v :: r => putWords (tset 0 t k v) (k + 1) r

/-- The read-only part of the frame at 0x180 to 0xBFF, by word index (15_traps_preemption R329). The layout has no place for a team's
slot state words and launch state (log entry 87). -/
def Warp.frameRo (w : Warp) (blk : Frag → Bool) : Table Word :=
  let recs := (w.live0.toList.map fun f => (0, f, 0)) ++ (w.live1.toList.map fun f => (1, f, 0)) ++
    ((w.spill.reverse.zip (List.range 64)).map fun e => (2 + e.2, e.1, 1)) ++ (w.parks.map fun e => (66 + e.1, e.2, 2))
  let t := recs.foldl (fun t e => putWords t (0x180 / 4 + 8 * e.1) (fragWords (blk e.2.1) e.2.1 e.2.2)) []
  let t := (List.range 8).foldl (fun t m => putWords t (0xAC0 / 4 + 8 * m) (jWords (w.jr m) (tget w.parks m).isSome)) t
  putWords t (0xBC0 / 4) ((List.range 3).map fun k =>
    BitVec.ofNat 32 (pack ((List.range 4).map fun b => (8, w.regs.flag (4 * k + b)))))

/-- The replay entry of a withdrawn operation (15_traps_preemption R332, R334). -/
def entryOf (w : Warp) (o : Op) : Entry :=
  ⟨encode o.instr, o.instr, o.cpc, o.slot, w.recNum o.fid, o.fid, true, false, false, o.lmap, o.emap, o.emap, o.recs, o.dst, []⟩

/-- Must a counted operation complete when its unit stops: an atomic, or a load some of whose bytes a later access has already
been performed on (15_traps_preemption R332)? -/
def Op.mustComplete (o : Op) : Bool := (atomOf o.instr).isSome || o.passed

/-- The counted operations that a stop withdraws, at most `limit`: of those that need not complete, the newest (15 R332). -/
def Regs.withdrawn (r : Regs) (limit : Nat) : List Op :=
  let can := r.ops.filter fun o => !o.mustComplete
  can.drop (can.length - limit)

/-- Complete the counted operations that a stop does not withdraw; none while one cannot complete (15 R332). -/
def State.completeRest (s : State) (u : UnitId) (limit : Nat) : Option State :=
  match s.regs? u with
  | none => some s
  | some r => (r.ops.filter fun o => !(r.withdrawn limit).contains o).foldl
      (fun x o => x.bind fun s => s.complete u o.seq false) (some s)

/-- Settle a warp's counted operations (15_traps_preemption R332): complete those that must, and the oldest beyond `limit`;
withdraw the rest. None while one that must complete cannot. -/
def State.settle (s : State) (t wx limit : Nat) : Option (State × List Entry) :=
  (s.completeRest (.warp t wx) limit).map fun s1 =>
    match s1.warp? t wx with
    | none => (s1, [])
    | some w1 => (w1.regs.ops.foldl (fun s o => s.uncount (.warp t wx) o) s1, w1.regs.ops.map (entryOf w1))

/-- Replay entries that a warp can still take: at most 8 exist (15_traps_preemption R332). -/
def Warp.entryRoom (w : Warp) : Nat := 8 - (((w.frame.map (·.ents)).getD []).filter (·.v)).length - w.queue.length

/-- A warp of a frozen set stops: what R332 withdraws is withdrawn and kept; the other operations go on to completion. -/
def State.freezeWarp (s : State) (t wx : Nat) : State :=
  match s.warp? t wx with
  | none => s
  | some w =>
    let l := w.regs.withdrawn w.entryRoom
    (l.foldl (fun s o => s.uncount (.warp t wx) o) s).modWarp t wx fun x => { x with queue := x.queue ++ l.map (entryOf w) }

/-- The moraine ring is enabled and not full (15_traps_preemption R344). -/
def State.ringRoom (s : State) : Bool :=
  let rsz := s.csrs.rctl.toNat % 32
  s.csrs.rbase != 0 && decide (4 ≤ rsz) && decide (rsz ≤ 16) && decide ((s.csrs.rwi - s.csrs.rri).toNat < 2 ^ rsz)

/-- The ring can take an entry now: the one before has been performed and RWI has gone past it (15_traps_preemption R344). -/
def State.ringFree (s : State) : Bool := s.ringRoom && s.ringOut.isEmpty

/-- The sixteen words of a ring entry (15_traps_preemption R346). -/
def ringWords (e : RingEnt) (seq : Word) : List Word :=
  [BitVec.ofNat 32 (pack [(8, e.code), (8, e.kind), (8, e.owner.toNat)]),
   BitVec.ofNat 32 (pack [(10, e.core), (8, e.clus), (3, e.ctx), (1, bit e.isc), (6, e.wsl)]),
   loWord e.va, hiWord e.va, loWord e.aux, hiWord e.aux, BitVec.ofNat 32 e.teamid, seq] ++
  (List.range 8).map fun k => e.payload.getD k 0

/-- The die from which a source's ring entries are written: its own; C0 for the package distributor and IO0, C3 for IO1
(06_consistency R135; log entry 71). -/
def ringDie : RingSrc → Nat
  | .core n => n / 96
  | .ccc c | .cpe c | .completion c => dieOfCluster c
  | .package => 0
  | .dieDist d => d
  | .check d => if d < 8 then d else if d = 8 then 0 else 3

/-- Write a ring entry at RWI under key id 0; RWI advances once its bytes are performed at package scope (15 R344). -/
def State.ringWrite (s : State) (src : RingSrc) (e : RingEnt) : State :=
  let rsz := s.csrs.rctl.toNat % 32
  let a := s.csrs.rbase.toNat + 64 * (s.csrs.rwi.toNat % 2 ^ rsz)
  let s1 := s.engineWrite (blankWrite none 0 (ringDie src) 0 0 a 0 false 0) ((ringWords e s.csrs.rwi).flatMap fun w => toBytes 4 w.toNat)
  { s1 with ringOut := (List.range (s1.nextId - s.nextId)).map (s.nextId + ·) }

/-- RWI advances past an entry whose bytes are performed at package scope (15_traps_preemption R344). -/
def State.ringAdvance (s : State) : State :=
  if s.ringOut.isEmpty || s.ringOut.any s.onWay then s
  else { s with ringOut := [], csrs := { s.csrs with rwi := s.csrs.rwi + 1 } }

/-- An entry is held in its source's pending slot; ROVF is set where the ring is full or disabled (15_traps_preemption R345). -/
def State.ringHold (s : State) (src : RingSrc) (e : RingEnt) : State :=
  let s := { s with ringHeld := s.ringHeld ++ [(src, e)] }
  if s.ringRoom then s else { s with csrs := { s.csrs with rctl := s.csrs.rctl ||| 0x80000000#32 } }

/-- An event forms a ring entry: it is written, or held in the source's pending slot, or waits for the slot
(15_traps_preemption R344, R345). A check unit's further errors are counted in its held entry. -/
def State.ringPut (s : State) (src : RingSrc) (e : RingEnt) : State :=
  if s.ringBusy src then
    match src with
    | .check d => { s with ringHeld := s.ringHeld.map fun h => if h.1 = .check d then (h.1, { h.2 with aux := h.2.aux + 1 }) else h }
    | _ => { s with ringWait := s.ringWait ++ [(src, e)] }
  else if s.ringFree then s.ringWrite src e
  else s.ringHold src e

/-- A ring entry about a unit (15_traps_preemption R346). -/
def State.unitEnt (s : State) (u : UnitId) (kind code : Nat) (va aux : DWord) (payload : List Word) : RingEnt :=
  let core := (s.coreOf u).getD 1023
  let wsl : Nat := match u with
    | .warp t w => ((s.warp? t w).map (·.wslot)).getD 0
    | .ccc _ _ => 0
  let ctx : Nat := match u with
    | .warp _ _ => 0
    | .ccc t i => ((s.ccc? t i).map (·.ctx)).getD 0
  ⟨code, kind, s.ownerOf u, core, s.clusterOf u, ctx, isCcc u, wsl, va, aux, teamOf u, payload⟩

/-- Freeze a team set: nothing of it issues again; its counted operations are settled as R332 gives (15 R343). -/
def State.freeze (s : State) (set : Nat) : State :=
  let s := s.modSet set fun x => { x with frozen := true }
  (((s.set? set).map (·.teams)).getD []).foldl (fun s t =>
    match s.team? t with
    | none => s
    | some x => (List.range x.warps.length).foldl (fun s w => s.freezeWarp t w) (s.dequeueTeam t)) s

/-- AUX of the ring entry of a trap: the slot index, and TFMAP (15_traps_preemption R346). -/
def trapAux (rsl : Nat) (tf : Lanes) : DWord := BitVec.ofNat 64 (rsl + 2 ^ 32 * tf.toNat)

/-- An escalated trap of a warp: the set freezes and a ring entry is formed (15_traps_preemption R343, R346). -/
def State.escalate (s : State) (t w : Nat) (kind : Nat) (code : Nat) (rpc : DWord) (rsl : Nat) (tf : Lanes) : State :=
  let u : UnitId := .warp t w
  let e := s.unitEnt u kind code rpc (trapAux rsl tf) []
  (s.freeze (s.setOf t)).ringPut (s.ringSrc u) e

/-- The eight words of a CCC trap record (15_traps_preemption R347). -/
def ctrapWords (r : CTrap) : List Word :=
  [BitVec.ofNat 32 (pack [(8, r.code), (1, bit r.dfr), (1, bit r.arrw), (6, 0), (4, r.rsl)]), 0,
   loWord r.aux, hiWord r.aux, loWord r.addr, hiWord r.addr, loWord r.rpc, BitVec.ofNat 32 (r.rpc.toNat / 2 ^ 32 % 2 ^ 16)]

/-- A trap of a CCC context: its record is formed and the trap escalates; `tf` is its TFMAP, 1 at a single-access fault
(15_traps_preemption R328, R330, R346, R347). -/
def State.cccTrap (s : State) (t i : Nat) (kind : Nat) (tf : Lanes) (r : CTrap) : State :=
  let u : UnitId := .ccc t i
  let s := s.modCcc t i fun x => { x with trapd := some r }
  let e := s.unitEnt u kind r.code r.rpc (trapAux r.rsl tf) (ctrapWords r)
  (s.freeze (s.setOf t)).ringPut (s.ringSrc u) e

/-- The causes and forms whose trapping instruction takes a replay entry (15_traps_preemption R333). -/
def fltCause (c : Nat) : Bool := [cOCCMISM, cFMTDIV, cALIGN, cRANGE, cPERM, cOWNER, cSLOT, cNEGLEN].contains c

/-- Lane, memory, crossbar forms, `op.st`, `mx.feed`, `gf.ld`, `ac.ld` (15_traps_preemption R333). -/
def fltForm : Instr → Bool
  | .iadd _ | .isub _ | .iabs _ | .imin _ | .imax _ | .imul _ | .imulhi _ | .imad _ | .and _ | .or _ | .xor _ | .not _
  | .shl _ | .shr _ | .sar _ | .popc _ | .clz _ | .brev _ | .bfe _ | .bfi _ | .lea _ | .sel _ | .icmp _ _ | .mov _
  | .movi _ | .movh _ | .cvt _ | .fadd _ | .fsub _ | .fmul _ | .ffma _ | .fmin _ | .fmax _ | .fcmp _ _ | .fclass _
  | .frnd _ | .fcvt _ | .frcp _ | .frsq _ | .fsqrt _ | .fexp2 _ | .flog2 _ | .fsin _ | .fcos _ | .kdot4 _ | .kdot8 _
  | .kscale _ | .kpack _ | .kunpack _ | .occGet _ | .occSet _ | .occAnd _ | .occFill _ | .occPack _ | .occUnpack _
  | .occCnt _ | .shflIdx _ | .shflUp _ | .shflDn _ | .shflXor _ | .voteAny _ | .voteAll _ | .voteBal _ | .scan _ _
  | .red _ _ | .rebal _ | .ldSpT _ | .sRdl _ | .vBcast _ | .ldG _ | .stG _ | .ldC _ | .ldSp _ | .stSp _ | .atomG _ _
  | .atomSp _ _ | .gfLd _ | .sLd _ | .opSt _ | .mxFeed _ | .acLd _ | .pairWord _ _ _ => true
  | _ => false

/-- The records of a pair word: slot 1's D and A, then slot 2's; under CH slot 2's reads of slot 1's D are forwarded and
have no record (15_traps_preemption R335; log entry 14). -/
def pairRecs (s : State) (u : UnitId) (lm : Lanes) (ch : Bool) (a b : PSlot) : List OpRec :=
  let fwd (n : BitVec 8) : Bool := ch && n == a.d
  let reg (n : BitVec 8) : List OpRec := [captureReg s u lm 0 n.toNat]
  let rd (p : PSlot) : List OpRec := if p.imm then [] else reg p.a
  reg a.d ++ rd a ++ reg b.d ++ (if !b.imm && fwd b.a then [] else rd b)

/-- The operand records of an instruction (15_traps_preemption R335). -/
def recsOf (s : State) (u : UnitId) (lm : Lanes) (i : Instr) : List OpRec :=
  match i with
  | .pairWord ch a b => pairRecs s u lm ch a b
  | _ => capture s u lm (shape i)

/-- A fragment of a warp by its index. -/
def Warp.byFid (w : Warp) (fid : Nat) : Option Frag := w.frags.find? (·.fid == fid)

/-- Change every fragment of a warp. -/
def Warp.modFrags (w : Warp) (g : Frag → Frag) : Warp :=
  { w with live0 := w.live0.map g, live1 := w.live1.map g, spill := w.spill.map g, handler := w.handler.map g,
           parks := w.parks.map fun e => (e.1, g e.2) }

/-- Change a fragment of a warp by its index. -/
def Warp.modFid (w : Warp) (fid : Nat) (g : Frag → Frag) : Warp := w.modFrags fun f => if f.fid = fid then g f else f

/-- A fragment whose fence waits in its second part issues it anew when its warp goes on (06_consistency R140; log entry 72). -/
def Frag.unfence (f : Frag) : Frag :=
  match f.wait with
  | some (.fence _) => { f with wait := none, phase := 0, snap := [] }
  | _ => f
def Warp.unfence (w : Warp) : Warp := w.modFrags Frag.unfence

/-- The fragment stands in the wait of `rv.arrw`, its arrival applied (15_traps_preemption R330). -/
def Frag.arrived (f : Frag) : Option Instr → Bool
  | some (.rvArrw _) => f.phase == 1
  | none => f.phase == 1 && f.wait.any fun k => match k with
    | .rendezvous _ => true
    | _ => false
  | _ => false

/-- TAKING A TRAP on a fragment of a warp (15_traps_preemption R328 to R336, R343): the counted operations are settled, the
frame is formed with the registers it saves, and the handler fragment starts at TRAPPC; with no handler, in the handler, or
for MCHK, the trap escalates. `ents`: replay entries that already stand before the settled ones; `flt`: the trapping
instruction takes the last entry. None while an operation that must complete first cannot. -/
def State.takeTrap (s : State) (t wx fid : Nat) (i : Option Instr) (ti : TrapInfo) (ents : List Entry) : Option State :=
  match s.warp? t wx with
  | none => none
  | some w0 =>
    match w0.byFid fid with
    | none => none
    | some f0 =>
      let u : UnitId := .warp t wx
      let flt : List Entry := match i with
        | some i => if ents.isEmpty && fltCause ti.code && fltForm i then
            [⟨encode i, i, f0.cpc, f0.slot, w0.recNum fid, fid, true, true, false, f0.lmap, ti.cmap, ti.cmap, recsOf s u f0.lmap i,
              dNum w0.regs (shape i), marksOf w0.regs i⟩] else []
        | none => []
      match s.settle t wx (if w0.handler.isSome then w0.entryRoom else 8 - ents.length - flt.length) with
      | none => none
      | some (s1, set) =>
        let all := ents ++ set ++ flt
        let trappc : DWord := ((s1.team? t).map fun x => x.pkt.getD 3 0).getD 0
        match s1.warp? t wx with
        | none => none
        | some w =>
          if w.handler.isSome then
            some ((s1.modWarp t wx fun x => { x with queue := x.queue ++ set }).escalate t wx (if ti.code = cMCHK then 3 else 1) ti.code f0.cpc f0.slot ti.tfmap)
          else
            let fr : Frame :=
              { code := ti.code, dfr := false, arrw := f0.arrived i, res := ti.code == cSWTRAP,
                flte := (if !ents.isEmpty then 0 else if flt.isEmpty then 15 else all.length - 1),
                tlmap := f0.lmap, tfmap := ti.tfmap, frg := w.recNum fid, rpc := f0.cpc, rsl := f0.slot, aux := ti.aux,
                rfst := w.fst, rwst := w.wst, ssave := (List.range 8).map fun k => w.regs.s (56 + k),
                lcause := tputs [] (ti.lanes.map fun e => (e.1, e.2.1)), laddr := tputs [] (ti.lanes.map fun e => (e.1, e.2.2)),
                ro := w.frameRo (s1.blocked u), ents := all, fid := fid }
            let run := ti.code != cMCHK && trappc != 0
            let hf : Frag := { Frag.start f0.lmap trappc 74 with tg := f0.tg, kind := .handler }
            let s2 := s1.modWarp t wx fun x => { x.unfence with frame := some fr, handler := if run then some hf else none }
            if run then some s2
            else some (s2.escalate t wx (if ti.code = cMCHK then 3 else 0) ti.code f0.cpc f0.slot ti.tfmap)

/-- A trap raised by the issuing instruction, of a warp or of a context; while it cannot be taken yet the fragment stalls. -/
def State.trapNow (s : State) (c : Ctx) (i : Instr) (ti : TrapInfo) : State :=
  match c.cur.unit with
  | .warp t w => (s.takeTrap t w c.fid (some i) ti []).getD (s.modFrag c.cur fun f => { f with wait := some .stall })
  | .ccc t k =>
    let one := ti.lanes.head?
    s.cccTrap t k (if ti.code = cMCHK then 3 else 2) ti.tfmap
      ⟨ti.code, false, false, c.slot, ti.aux, (one.map (·.2.2)).getD 0, c.cpc⟩

/-- The issuing context of a state, if it exists and stands in a clause. -/
def State.ctx? (s : State) : Option Ctx :=
  match s.cur with
  | none => none
  | some cur =>
    match s.frag? cur with
    | none => none
    | some f => f.hdr.map fun h => ⟨cur, f.fid, f.kind, f.lmap, h, f.cpc, f.slot, f.phase⟩

/-- Finish an instruction from what its body came to. -/
def finish (s : State) (c : Ctx) (i : Instr) : Res → State
  | .retire s' => s.retire s' c i
  | .placed s' => s.settleIssue s' c i
  | .done s' => s'
  | .trap t s' => s'.trapNow c i t
  | .wait k s' => s'.modFrag c.cur fun f => { f with wait := some k }

/-- Issue an instruction: the checks of 02_instruction_words R53 in order, then its body. -/
def issue (s : State) (i : Instr) (body : Ctx → State → Res) : Host.Outcome State Fault Refusal :=
  match s.ctx? with
  | none => .fault .noIssuer
  | some c =>
    match issueCheck s c i with
    | some cause => .next (s.trapNow c i (plainTrap cause))
    | none => .next (finish s c i (body c s))

/-- The operands of an instruction at its first issue. -/
def State.envOf (s : State) (c : Ctx) (i : Instr) : Env :=
  mkEnv (shape i) c.lm fullMap (((s.regs? c.cur.unit).map fun r => dNum r (shape i)).getD 0) (recsOf s c.cur.unit c.lm i)

/-- Issue a form that reads operands: they are captured once, and the body reads the records (15_traps_preemption R335). -/
def issueOps (s : State) (i : Instr) (body : Env → Ctx → State → Res) : Host.Outcome State Fault Refusal :=
  issue s i fun c s => body (s.envOf c i) c s

/-- A release at package scope that a form makes before its effect, as `fence` does: every write applied at its die, among them
those that the unit's loads have read from, is performed at package scope (06_consistency R136, R138, R140). -/
def releaseThen (c : Ctx) (s : State) (k : State → Res) : Res :=
  let u := c.cur.unit
  if c.phase = 0 then
    if !s.quiet u (s.seqOf u) then .wait .stall s
    else
      let snap := s.predsAt (s.dieOf u)
      if snap = [] then k s else .wait .stall (s.modFrag c.cur fun f => { f with phase := 1, snap := snap })
  else if (((s.frag? c.cur).map (·.snap)).getD []).any s.onWay then .wait .stall s
  else k s

/-- The warp of a context, or an empty stand-in where there is none. -/
def State.warpD (s : State) (u : UnitId) (f : Warp → State) : State :=
  match u with
  | .warp t w => match s.warp? t w with
    | some x => f x
    | none => s
  | .ccc _ _ => s

end Sys2Proof.Machine
end

