-- ==== Sys2Proof/Machine/Lane.lean ====
section
/-!
DEFINITION. The execution template of the lane forms, and the integer, address, compare, select, move and conversion forms on
lanes (08_lane_arithmetic R186 to R190, R196 to R203).
-/
namespace Sys2Proof.Machine

/-- A value as registers of 32 bits, the low one first. -/
def words (n v : Nat) : List Word := (List.range n).map fun i => BitVec.ofNat 32 (v / 2 ^ (32 * i))

/-- Write lane results to `n` registers by the destination rule and OR the flags into %fst (R186, R189). -/
def State.writeLanes (s : State) (u : UnitId) (dst n : Nat) (lm e : Lanes) (kp : Bool) (f : Nat → Nat) (fl : Word) : State :=
  match u with
  | .warp t w => s.modWarp t w fun x => (x.writeV dst n lm e kp fun l => words n (f l)).orFst fl
  | .ccc _ _ => s

/-- Write a predicate by the destination rule. -/
def State.writePred (s : State) (u : UnitId) (dst : Nat) (lm e : Lanes) (kp : Bool) (f : Nat → Bool) (fl : Word) : State :=
  match u with
  | .warp t w => s.modWarp t w fun x => (x.setP dst (pmerge lm e kp (x.pr dst) f)).orFst fl
  | .ccc _ _ => s

/-- The OCCMISM check of a strict form (R187): its operands' maps within the lanes acted on. -/
def strictTrap (e : Env) (strict : Bool) (ops : List (List OpRec)) : Option TrapInfo :=
  if strict && occMism (e.lm &&& e.only) ops then some { plainTrap cOCCMISM with cmap := unionMap e.lm ops } else none

/-- The template of R186 for a form that writes vector registers. -/
def laneRun (i : Instr) (e : Env) (c : Ctx) (s : State) (strict : Bool) (ops : List (List OpRec)) (n : Nat)
    (f : Nat → Nat) (fl : Nat → Word) : Res :=
  match strictTrap e strict ops with
  | some t => .trap t s
  | none =>
    let m := effMap e ops
    .retire (s.writeLanes c.cur.unit e.dst n e.lm m (dKp (shape i)) f (flagsOr ((lanesOf m).map fl)))

/-- The template of R186 for a form that writes a predicate. -/
def predRun (i : Instr) (e : Env) (c : Ctx) (s : State) (strict : Bool) (ops : List (List OpRec))
    (f : Nat → Bool) (fl : Nat → Word) : Res :=
  match strictTrap e strict ops with
  | some t => .trap t s
  | none =>
    let m := effMap e ops
    .retire (s.writePred c.cur.unit e.dst e.lm m (dKp (shape i)) f (flagsOr ((lanesOf m).map fl)))

/-- The value of raw bits as an integer type (R190). -/
def intOf (ty : BitVec 3) (x : Nat) : Int :=
  if tySigned ty then sextNat (tyBits ty) x else ((x % 2 ^ tyBits ty : Nat) : Int)

/-- Negate when the bit is set (R196). -/
def negIf (b : Bool) (x : Int) : Int := if b then -x else x

/-- Clamp or wrap an exact result to its type, then extend it to the registers (R190, R196). -/
def deliver (ty : BitVec 3) (sat : Bool) (x : Int) : Nat :=
  let w := tyBits ty
  let lo : Int := if tySigned ty then -(2 ^ (w - 1)) else 0
  let hi : Int := if tySigned ty then 2 ^ (w - 1) - 1 else 2 ^ w - 1
  let y : Int := if sat then max lo (min hi x) else intOf ty (wrapNat w x)
  wrapNat (32 * iw ty) y

/-- The immediate of an FI word as raw bits of 64 (02_instruction_words R42). -/
def immRaw (imm : BitVec 24) : Nat := wrapNat 64 (sextNat 24 imm.toNat)

/-- Type of a form with an F and an FI variant. -/
def giTy : GI → BitVec 3
  | .reg w => w.ty
  | .imm w => w.ty

/-- Strictness of a form with two variants. -/
def giStrict : GI → Bool
  | .reg w => w.strict
  | .imm w => w.strict

/-- Saturation; FI words wrap (02_instruction_words R41). -/
def giSat : GI → Bool
  | .reg w => w.sat
  | .imm _ => false

/-- Operand A of an integer form in a lane. -/
def giA (g : GI) (e : Env) (l : Nat) : Int :=
  match g with
  | .reg w => negIf w.na (intOf w.ty (opLane e.a l))
  | .imm w => intOf w.ty (opLane e.a l)

/-- Operand B of an integer form in a lane. -/
def giB (g : GI) (e : Env) (l : Nat) : Int :=
  match g with
  | .reg w => negIf w.nb (intOf w.ty (opLane e.b l))
  | .imm w => intOf w.ty (immRaw w.imm)

/-- Operand B as raw bits: a shift amount or an address offset (R198, R200). -/
def giRaw (g : GI) (e : Env) (l : Nat) : Nat :=
  match g with
  | .reg _ => opLane e.b l
  | .imm w => immRaw w.imm

/-- The exact results of the two-operand integer forms (R197). -/
def iaddF (a b : Int) : Int := a + b
def isubF (a b : Int) : Int := a - b
def iminF (a b : Int) : Int := min a b
def imaxF (a b : Int) : Int := max a b
def imulF (a b : Int) : Int := a * b

/-- A bitwise form on raw bits: operands here are unsigned (R197). -/
def bitF (f : Nat → Nat → Nat) (a b : Int) : Int := (f a.toNat b.toNat : Nat)

/-- A two-operand integer form. -/
def intRun (i : Instr) (g : GI) (f : Int → Int → Int) (e : Env) (c : Ctx) (s : State) : Res :=
  laneRun i e c s (giStrict g) [e.a, e.b] (iw (giTy g)) (fun l => deliver (giTy g) (giSat g) (f (giA g e l) (giB g e l))) fun _ => 0

/-- A shift by an amount modulo the width (R198). -/
def shiftRun (i : Instr) (g : GI) (f : Nat → Int → Nat → Int) (e : Env) (c : Ctx) (s : State) : Res :=
  let w := tyBits (giTy g)
  laneRun i e c s (giStrict g) [e.a, e.b] (iw (giTy g)) (fun l => deliver (giTy g) false (f w (giA g e l) (giRaw g e l % w))) fun _ => 0

/-- Left shift, logical right shift and arithmetic right shift of R198. -/
def shlF (_ : Nat) (a : Int) (n : Nat) : Int := a * 2 ^ n
def shrF (_ : Nat) (a : Int) (n : Nat) : Int := a / 2 ^ n

/-- A one-operand form on raw bits. -/
def oneRun (i : Instr) (w : GenW) (n : Nat) (f : Nat → Nat) (e : Env) (c : Ctx) (s : State) : Res :=
  laneRun i e c s w.strict [e.a] n (fun l => f (opLane e.a l)) fun _ => 0

/-- Bit reversal of 32 bits (R197). -/
def brev32 (x : Nat) : Nat := ((List.range 32).map fun i => if bitOf x (31 - i) then 2 ^ i else 0).sum

/-- Leading zero bits of 32 (R197). -/
def clz32 (x : Nat) : Nat := if x % 2 ^ 32 = 0 then 32 else 31 - Nat.log2 (x % 2 ^ 32)

/-- Field position and length of `bfe` and `bfi` (R199). -/
def bfPos (b : Nat) : Nat := b % 256
def bfLen (b : Nat) : Nat := min (b / 256 % 256) 32

/-- `bfe` (R199). -/
def bfeF (signed : Bool) (a b : Nat) : Nat :=
  let len := bfLen b
  let bitAt (j : Nat) : Bool := if j < 32 then bitOf a j else signed && bitOf a 31
  let r := ((List.range len).map fun i => if bitAt (bfPos b + i) then 2 ^ i else 0).sum
  if len = 0 then 0 else if signed then wrapNat 32 (sextNat len r) else r

/-- `bfi` (R199). -/
def bfiF (d a b : Nat) : Nat :=
  let pos := bfPos b
  let len := bfLen b
  ((List.range 32).map fun j =>
    if (if pos ≤ j ∧ j < pos + len then bitOf a (j - pos) else bitOf d j) then 2 ^ j else 0).sum

/-- The conditions of `icmp` and `s.cmp` (R201). -/
def ccHolds (cc : Cc) (a b : Int) : Bool :=
  match cc with
  | .eq => a == b
  | .ne => a != b
  | .lt => decide (a < b)
  | .le => decide (a ≤ b)
  | .gt => decide (a > b)
  | .ge => decide (a ≥ b)

/-- `lea` (R200). -/
def leaF (g : GI) (e : Env) (l : Nat) : Nat :=
  match g with
  | .reg w =>
    let k := w.opx.toNat % 4
    let b := opLane e.b l % 2 ^ 32
    let b' : Int := if w.opx.getLsbD 2 then sextNat 32 b else b
    deliver w.ty false (intOf w.ty (opLane e.a l) + b' * 2 ^ k)
  | .imm w => deliver w.ty false (intOf w.ty (opLane e.a l) + intOf w.ty (immRaw w.imm))

/-- The bodies of the integer forms, by instruction. -/
def iabsRun (w : GenW) (e : Env) (c : Ctx) (s : State) : Res :=
  laneRun (.iabs w) e c s w.strict [e.a] (iw w.ty)
    (fun l => deliver w.ty w.sat ((intOf w.ty (opLane e.a l)).natAbs : Int)) fun _ => 0

/-- `imulhi` (R197). -/
def imulhiRun (w : GenW) (e : Env) (c : Ctx) (s : State) : Res :=
  laneRun (.imulhi w) e c s w.strict [e.a, e.b] (iw w.ty)
    (fun l => deliver w.ty false (intOf w.ty (opLane e.a l) * intOf w.ty (opLane e.b l) / 2 ^ tyBits w.ty)) fun _ => 0

/-- `imad` (R197): a × b + d. -/
def imadRun (w : GenW) (e : Env) (c : Ctx) (s : State) : Res :=
  laneRun (.imad w) e c s w.strict [e.a, e.b, e.d] (iw w.ty)
    (fun l => deliver w.ty w.sat (negIf w.na (intOf w.ty (opLane e.a l)) * negIf w.nb (intOf w.ty (opLane e.b l)) +
      intOf w.ty (opLane e.d l))) fun _ => 0

/-- `not` (R197). -/
def notRun (w : GenW) (e : Env) (c : Ctx) (s : State) : Res :=
  oneRun (.not w) w (iw w.ty) (fun a => 2 ^ tyBits w.ty - 1 - a % 2 ^ tyBits w.ty) e c s

/-- `bfe`. -/
def bfeRun (w : GenW) (e : Env) (c : Ctx) (s : State) : Res :=
  laneRun (.bfe w) e c s w.strict [e.a, e.b] 1 (fun l => bfeF (tySigned w.ty) (opLane e.a l) (opLane e.b l)) fun _ => 0

/-- `bfi`. -/
def bfiRun (w : GenW) (e : Env) (c : Ctx) (s : State) : Res :=
  laneRun (.bfi w) e c s w.strict [e.a, e.b, e.d] 1 (fun l => bfiF (opLane e.d l) (opLane e.a l) (opLane e.b l)) fun _ => 0

/-- `lea`. -/
def leaRun (g : GI) (e : Env) (c : Ctx) (s : State) : Res :=
  laneRun (.lea g) e c s (giStrict g) [e.a, e.b] (iw (giTy g)) (leaF g e) fun _ => 0

/-- `sel` (R200): the predicate is an operand of V. -/
def selRun (w : GenW) (e : Env) (c : Ctx) (s : State) : Res :=
  let p := e.more.headD []
  laneRun (.sel w) e c s w.strict [e.a, e.b, p] (iw w.ty)
    (fun l => if p.any (·.truth l) then opLane e.a l else opLane e.b l) fun _ => 0

/-- `icmp` (R201). -/
def icmpRun (cc : Cc) (g : GI) (e : Env) (c : Ctx) (s : State) : Res :=
  predRun (.icmp cc g) e c s (giStrict g) [e.a, e.b] (fun l => ccHolds cc (giA g e l) (giB g e l)) fun _ => 0

/-- `mov` (R202). -/
def movRun (w : GenW) (e : Env) (c : Ctx) (s : State) : Res := oneRun (.mov w) w (iw w.ty) id e c s

/-- `movi` (R202): E = L. -/
def moviRun (w : ImmW) (e : Env) (c : Ctx) (s : State) : Res :=
  laneRun (.movi w) e c s w.strict [] 1 (fun _ => wrapNat 32 (sextNat 24 w.imm.toNat)) fun _ => 0

/-- `movh` (R202). -/
def movhRun (w : ImmW) (e : Env) (c : Ctx) (s : State) : Res :=
  laneRun (.movh w) e c s w.strict [e.d] 1 (fun l => opLane e.d l % 2 ^ 16 + 2 ^ 16 * (w.imm.toNat % 2 ^ 16)) fun _ => 0

/-- `cvt` (R203): OPX holds the source type. -/
def cvtRun (w : GenW) (e : Env) (c : Ctx) (s : State) : Res :=
  laneRun (.cvt w) e c s w.strict [e.a] (iw w.ty)
    (fun l => deliver w.ty w.sat (intOf (w.opx.setWidth 3) (opLane e.a l))) fun _ => 0

/-- The integer forms as instructions. -/
def execIadd (w : GI) (s : State) : Host.Outcome State Fault Refusal := issueOps s (.iadd w) (intRun (.iadd w) w iaddF)
def execIsub (w : GI) (s : State) : Host.Outcome State Fault Refusal := issueOps s (.isub w) (intRun (.isub w) w isubF)
def execIabs (w : GenW) (s : State) : Host.Outcome State Fault Refusal := issueOps s (.iabs w) (iabsRun w)
def execImin (w : GI) (s : State) : Host.Outcome State Fault Refusal := issueOps s (.imin w) (intRun (.imin w) w iminF)
def execImax (w : GI) (s : State) : Host.Outcome State Fault Refusal := issueOps s (.imax w) (intRun (.imax w) w imaxF)
def execImul (w : GI) (s : State) : Host.Outcome State Fault Refusal := issueOps s (.imul w) (intRun (.imul w) w imulF)
def execImulhi (w : GenW) (s : State) : Host.Outcome State Fault Refusal := issueOps s (.imulhi w) (imulhiRun w)
def execImad (w : GenW) (s : State) : Host.Outcome State Fault Refusal := issueOps s (.imad w) (imadRun w)
def execAnd (w : GI) (s : State) : Host.Outcome State Fault Refusal := issueOps s (.and w) (intRun (.and w) w (bitF Nat.land))
def execOr (w : GI) (s : State) : Host.Outcome State Fault Refusal := issueOps s (.or w) (intRun (.or w) w (bitF Nat.lor))
def execXor (w : GI) (s : State) : Host.Outcome State Fault Refusal := issueOps s (.xor w) (intRun (.xor w) w (bitF Nat.xor))
def execNot (w : GenW) (s : State) : Host.Outcome State Fault Refusal := issueOps s (.not w) (notRun w)
def execShl (w : GI) (s : State) : Host.Outcome State Fault Refusal := issueOps s (.shl w) (shiftRun (.shl w) w shlF)
def execShr (w : GI) (s : State) : Host.Outcome State Fault Refusal := issueOps s (.shr w) (shiftRun (.shr w) w shrF)
def execSar (w : GI) (s : State) : Host.Outcome State Fault Refusal := issueOps s (.sar w) (shiftRun (.sar w) w shrF)
def execPopc (w : GenW) (s : State) : Host.Outcome State Fault Refusal := issueOps s (.popc w) (oneRun (.popc w) w 1 (popcNat 32))
def execClz (w : GenW) (s : State) : Host.Outcome State Fault Refusal := issueOps s (.clz w) (oneRun (.clz w) w 1 clz32)
def execBrev (w : GenW) (s : State) : Host.Outcome State Fault Refusal := issueOps s (.brev w) (oneRun (.brev w) w 1 brev32)
def execBfe (w : GenW) (s : State) : Host.Outcome State Fault Refusal := issueOps s (.bfe w) (bfeRun w)
def execBfi (w : GenW) (s : State) : Host.Outcome State Fault Refusal := issueOps s (.bfi w) (bfiRun w)
def execLea (w : GI) (s : State) : Host.Outcome State Fault Refusal := issueOps s (.lea w) (leaRun w)
def execSel (w : GenW) (s : State) : Host.Outcome State Fault Refusal := issueOps s (.sel w) (selRun w)
def execIcmp (cc : Cc) (w : GI) (s : State) : Host.Outcome State Fault Refusal := issueOps s (.icmp cc w) (icmpRun cc w)
def execMov (w : GenW) (s : State) : Host.Outcome State Fault Refusal := issueOps s (.mov w) (movRun w)
def execMovi (w : ImmW) (s : State) : Host.Outcome State Fault Refusal := issueOps s (.movi w) (moviRun w)
def execMovh (w : ImmW) (s : State) : Host.Outcome State Fault Refusal := issueOps s (.movh w) (movhRun w)
def execCvt (w : GenW) (s : State) : Host.Outcome State Fault Refusal := issueOps s (.cvt w) (cvtRun w)

end Sys2Proof.Machine
end

