-- ==== Sys2Proof/Machine/Occ.lean ====
section
/-!
DEFINITION. The occupancy forms: reading, thinning, filling, packing and unpacking lane maps (07_registers R182 to R185).
-/
namespace Sys2Proof.Machine

/-- Write consecutive scalars of a unit. -/
def State.setScal (s : State) (u : UnitId) (n : Nat) (v : List Word) : State := s.modRegs u fun r => r.setSs n v

/-- Write lanes of a vector destination, with no operand check; `g` gives the lanes written and their values. -/
def vecRun (i : Instr) (e : Env) (c : Ctx) (s : State) (n : Nat) (m : Lanes) (f : Nat → Nat) (fl : Word) : Res :=
  .retire (s.writeLanes c.cur.unit e.dst n e.lm m (dKp (shape i)) f fl)

/-- `occ.get`: the map within L to a scalar (07_registers R183). -/
def occGetRun (_ : GenW) (e : Env) (c : Ctx) (s : State) : Res :=
  .retire (s.setScal c.cur.unit e.dst [opMap e.a &&& e.lm &&& e.only])

/-- `occ.cnt`: the number of occupied lanes within L. -/
def occCntRun (_ : GenW) (e : Env) (c : Ctx) (s : State) : Res :=
  .retire (s.setScal c.cur.unit e.dst [BitVec.ofNat 32 (popcount (opMap e.a &&& e.lm &&& e.only))])

/-- `occ.set`: presence as a predicate over all of L. -/
def occSetRun (w : GenW) (e : Env) (c : Ctx) (s : State) : Res :=
  .retire (s.writePred c.cur.unit e.dst e.lm (e.lm &&& e.only) (dKp (shape (.occSet w))) (fun l => (opMap e.a).getLsbD l) 0)

/-- A scalar operand as a map. -/
def scalMap (l : List OpRec) : Lanes := BitVec.ofNat 32 (opScal l)

/-- `occ.and`: thin a register by a scalar map (07_registers R184). -/
def occAndRun (w : GenW) (e : Env) (c : Ctx) (s : State) : Res :=
  vecRun (.occAnd w) e c s 1 (opMap e.a &&& e.lm &&& e.only &&& scalMap e.b) (opLane e.a) 0

/-- `occ.fill`: fill a register's gaps. -/
def occFillRun (w : GenW) (e : Env) (c : Ctx) (s : State) : Res :=
  let ma := opMap e.a
  vecRun (.occFill w) e c s 1 (e.lm &&& e.only &&& (ma ||| opMap e.b))
    (fun l => if ma.getLsbD l then opLane e.a l else opLane e.b l) 0

/-- The position of a lane in a map: how many set bits lie below it. -/
def rankOf (m : Lanes) (l : Nat) : Nat := popcNat l m.toNat

/-- `occ.pack`: the occupied lanes of A within L to the lowest lanes of L (07_registers R185). -/
def occPackRun (w : GenW) (e : Env) (c : Ctx) (s : State) : Res :=
  let m := opMap e.a &&& e.lm &&& e.only
  let n := popcount m
  vecRun (.occPack w) e c s 1 (laneMap fun l => e.lm.getLsbD l && decide (rankOf e.lm l < n))
    (fun l => opLane e.a (laneAt m (rankOf e.lm l))) 0

/-- `occ.unpack`: the lanes of A back to the lanes of a mask. -/
def occUnpackRun (w : GenW) (e : Env) (c : Ctx) (s : State) : Res :=
  let m := scalMap e.b &&& e.lm &&& e.only
  vecRun (.occUnpack w) e c s 1 (laneMap fun q => m.getLsbD q && (opMap e.a).getLsbD (laneAt e.lm (rankOf m q)))
    (fun q => opLane e.a (laneAt e.lm (rankOf m q))) 0

/-- The occupancy forms as instructions. -/
def execOccGet (w : GenW) (s : State) : Host.Outcome State Fault Refusal := issueOps s (.occGet w) (occGetRun w)
def execOccSet (w : GenW) (s : State) : Host.Outcome State Fault Refusal := issueOps s (.occSet w) (occSetRun w)
def execOccAnd (w : GenW) (s : State) : Host.Outcome State Fault Refusal := issueOps s (.occAnd w) (occAndRun w)
def execOccFill (w : GenW) (s : State) : Host.Outcome State Fault Refusal := issueOps s (.occFill w) (occFillRun w)
def execOccPack (w : GenW) (s : State) : Host.Outcome State Fault Refusal := issueOps s (.occPack w) (occPackRun w)
def execOccUnpack (w : GenW) (s : State) : Host.Outcome State Fault Refusal := issueOps s (.occUnpack w) (occUnpackRun w)
def execOccCnt (w : GenW) (s : State) : Host.Outcome State Fault Refusal := issueOps s (.occCnt w) (occCntRun w)

end Sys2Proof.Machine
end

