-- ==== Sys2Proof/Machine/Current.lean ====
section
/-!
DEFINITION. Current reservations, budgets, classes, slice clocks and power gating (17_power R383 to R392).
-/
namespace Sys2Proof.Machine

/-- A team's current class (14_execution_model R315). -/
def State.curOf (s : State) (t : Nat) : Nat := ((s.team? t).map (·.cur)).getD 0

/-- Place of a requester in the table of 17_power R383. -/
def Requester.rank : Requester → Nat
  | .mxe => 0
  | .pipe c k => 1 + 2 * c + k
  | .xbar c => 9 + c
  | .cpe => 13
  | .nzs => 14
  | .tre => 15

/-- Quarters of a requester's macro-operation at slice ratio n (17_power R383). -/
def Requester.quarters (n : Nat) : Requester → Nat
  | .mxe => 36
  | .pipe _ _ => cdiv (3 * n) 4
  | .xbar _ => cdiv (3 * n) 4
  | .cpe => 3
  | .nzs => 3
  | .tre => 2

/-- Cluster cycles after which a reservation is released at the latest, at slice ratio n (17_power R385). -/
def Requester.limit (n : Nat) : Requester → Nat
  | .pipe _ _ => cdiv 128 n
  | .xbar _ => cdiv 128 n
  | _ => 152

/-- The reservation a requester holds. -/
def State.curHeld (s : State) (cl : Nat) (who : Requester) : Option CurReq := (s.cluster cl).held.find? (·.who == who)

/-- Ask for a reservation (17_power R383, R384): a requester has one request or one reservation at a time; a request for other work
takes the place of one that has not been granted. -/
def State.curAsk (s : State) (cl : Nat) (who : Requester) (team tag left charge : Nat) : State :=
  s.modCluster cl fun c =>
    if c.held.any (·.who == who) || c.reqs.any (fun r => r.who == who && r.tag == tag) then c
    else { c with reqs := c.reqs.filter (·.who != who) ++ [⟨who, team, who.quarters c.ratio, c.clk, tag, left, charge⟩] }

/-- Release a requester's reservation and withdraw its request (17_power R385). -/
def State.curFree (s : State) (cl : Nat) (who : Requester) : State :=
  s.modCluster cl fun c => { c with held := c.held.filter (·.who != who), reqs := c.reqs.filter (·.who != who) }

/-- Release a reservation, and withdraw a request, of work that has ended (17_power R385). -/
def State.curEnd (s : State) (cl : Nat) (who : Requester) (tag : Nat) : State :=
  let keep (r : CurReq) : Bool := r.who != who || r.tag != tag
  s.modCluster cl fun c => { c with held := c.held.filter keep, reqs := c.reqs.filter keep }

/-- Use up one unit or event of a reservation; the last one releases it (17_power R383, R385). -/
def State.curUse (s : State) (cl : Nat) (who : Requester) : State :=
  s.modCluster cl fun c => { c with held := c.held.filterMap fun x =>
    if x.who == who then (if x.left ≤ 1 then none else some { x with left := x.left - 1 }) else some x }

/-- The effective class of a waiting request (17_power R384). -/
def State.effClass (s : State) (cl : Nat) (r : CurReq) : Nat := min 7 (s.curOf r.team + ((s.cluster cl).clk - r.time) / 256)

/-- One request goes before another (17_power R384). -/
def State.reqBefore (s : State) (cl : Nat) (a b : CurReq) : Bool :=
  let x := s.effClass cl a
  let y := s.effClass cl b
  decide (y < x) || (x == y && (decide (a.time < b.time) || (a.time == b.time && decide (a.who.rank < b.who.rank))))

/-- Put one into a list in order: in front of the first that it goes before. -/
def insertBy {α : Type} (before : α → α → Bool) (x : α) (l : List α) : List α :=
  let k := (l.takeWhile fun y => !before x y).length
  l.take k ++ x :: l.drop k

/-- Walk the ordered requests and grant those that fit (17_power R384): free quarters, grants left, the grants. -/
def grantWalk (clk : Nat) : Nat → Nat → List CurReq → List CurReq
  | _, _, [] => []
  | _, 0, _ => []
  | free, n + 1, r :: l =>
    if r.need ≤ free then r :: grantWalk clk (free - r.need) n l
    else if 64 ≤ clk - r.time then []
    else grantWalk clk free (n + 1) l

/-- One cycle of the current arbiter, at the slice ratio in force; a granted copy burst is charged (17_power R383, R384, R387). -/
def State.currentGrant (s : State) (cl : Nat) : State :=
  let c := s.cluster cl
  let now := c.reqs.map fun r => { r with need := r.who.quarters c.ratio }
  let order := now.foldr (insertBy (s.reqBefore cl)) []
  let got := grantWalk c.clk (64 - (c.held.map (·.need)).sum) 4 order
  let copied := got.foldl (fun l r => lmod l (s.curOf r.team) (· + r.charge)) c.copied
  s.modCluster cl fun c =>
    { c with reqs := now.filter (fun r => !got.contains r)
             held := c.held ++ got.map (fun r => { r with time := c.clk })
             copied := copied }

/-- Reservations end after 152 cluster cycles, a vector or crossbar macro-operation after 128 / n; an unfinished copy burst or
traversal run asks again for the rest of its work, which has been charged (17_power R385, R387). -/
def State.reservationTimeout (s : State) (cl : Nat) : State :=
  s.modCluster cl fun c =>
    let late (r : CurReq) : Bool := decide (r.who.limit c.ratio ≤ c.clk - r.time)
    { c with held := c.held.filter fun r => !late r
             reqs := c.reqs ++ (c.held.filter fun r => late r && (r.who == .cpe || r.who == .tre)).map fun r =>
               { r with time := c.clk, charge := 0 } }

/-- The budget word of a class in force on a cluster's die (17_power R392). -/
def State.budget (s : State) (cl k : Nat) : Nat := ((s.die (dieOfCluster cl)).cbud.getD k 0).toNat

/-- A request is held back: its count has reached its limit, unless the class conserves work and no other class waits
(17_power R388). -/
def State.budgetHeld (s : State) (cl k limit count : Nat) (othersWait : Bool) : Bool :=
  limit != 0 && decide (limit ≤ count) && !(bitOf (s.budget cl k) 32 && !othersWait)

/-- Cluster cycles of a die since module reset: those of its clusters that have counted most. -/
def State.dieClk (s : State) (d : Nat) : Nat := ((List.range 24).map fun q => (s.cluster (24 * d + q)).clk).foldl max 0

/-- A new period of 1,024 cluster cycles, once it is due: the counts are reset, and the management values written before it come
into force (17_power R387, R392). -/
def State.budgetPeriod (s : State) (d : Nat) : State :=
  if s.dieClk d / 1024 ≤ (s.die d).period then s
  else
  let s := s.modDie d fun _ =>
    ⟨tgetD s.mgmt.regs 0x200 clkmapReset, s.mreg 0x201, (List.range 4).map fun k => s.mreg (0x210 + k), s.dieClk d / 1024⟩
  (List.range 24).foldl (fun s q => s.modCluster (24 * d + q) fun c => { c with passes := [0, 0, 0, 0], copied := [0, 0, 0, 0] }) s

/-- A team's state is all saved (15_traps_preemption R355, R358). -/
def Team.away (x : Team) : Bool := (match x.cplace with
  | .saved => true
  | _ => false) || x.saved.all id

/-- The power class of a cluster: of the teams admitted to it that are neither saved nor frozen (17_power R390). -/
def State.powerClass (s : State) (cl : Nat) : Nat :=
  (s.teams.map fun t =>
    let live := match (s.set? t.2.set).map fun x => (x.phase, x.frozen) with
      | some (.admitted _, fr) => !fr
      | _ => false
    if t.2.cluster = cl ∧ live = true ∧ t.2.away = false then t.2.cur else 0).foldl max 0

/-- The slice ratio that a power class gives (17_power R390, R392). -/
def State.ratioFor (s : State) (cl : Nat) : Nat :=
  let k := s.powerClass cl
  let n := bitsOf (s.die (dieOfCluster cl)).clkmap.toNat (4 * k + 3) (4 * k)
  if 4 ≤ n ∧ n ≤ 12 then n else 8

/-- A cluster has work: an admitted team, a pending copy or a table entry (17_power R391). -/
def State.clusterBusy (s : State) (cl : Nat) : Bool :=
  !(s.cluster cl).entries.isEmpty || s.teams.any fun t => t.2.cluster == cl

/-- Power gating begins after GIDLE idle cycles (17_power R391). -/
def State.gateBegin (s : State) (cl : Nat) : State :=
  let g := (s.die (dieOfCluster cl)).gidle.toNat % 2 ^ 24
  let c := s.cluster cl
  if g = 0 ∨ s.clusterBusy cl = true ∨ c.power ≠ .active ∨ c.clk - c.busyAt < g then s
  else s.modCluster cl fun c => { c with power := .gating c.clk }

/-- Gating reaches its commit point: the caches are lost (17_power R391). -/
def State.gateCommit (s : State) (cl : Nat) : State :=
  match (s.cluster cl).power with
  | .gating t =>
    if (s.cluster cl).clk - t < 32 ∨ s.clusterBusy cl = true then s
    else
      let s := (coresOf4 cl).foldl (fun s c => (s.dropCaches (some c) cl).modCore c fun x => { x with l0 := [] }) s
      s.modCluster cl fun c => { c with power := .gated, icache := [] }
  | _ => s
where
  /-- The cores of a cluster. -/
  coresOf4 (cl : Nat) : List Nat := (List.range 4).map (4 * cl + ·)

/-- Gating has reached its commit point: a set finds no cluster here before it wakes (17_power R391). -/
def Cluster.asleep (c : Cluster) : Bool :=
  match c.power with
  | .active => false
  | .gating t => decide (32 ≤ c.clk - t)
  | .gated => true

/-- `perf.req` (17_power R389). -/
def perfReqRun (w : PerfW) (e : Env) (c : Ctx) (s : State) : Res :=
  let v := if w.im then w.c.toNat else opScal e.a
  let t := teamOf c.cur.unit
  if 3 < v then .trap (oneTrap cRANGE 0) s
  else .retire (s.modTeam t fun x => { x with cur := min v (pktBits x.pkt 0x00 13 12) })

/-- The power forms and events as instructions. -/
def execPerfReq (w : PerfW) (s : State) : Host.Outcome State Fault Refusal := issueOps s (.perfReq w) (perfReqRun w)
def execReservationTimeout (cluster : Nat) (s : State) : Host.Outcome State Fault Refusal := .next (s.reservationTimeout cluster)
def execBudgetPeriod (die : Nat) (s : State) : Host.Outcome State Fault Refusal := .next (s.budgetPeriod die)
def execClockRatioChange (cluster : Nat) (s : State) : Host.Outcome State Fault Refusal :=
  .next (s.modCluster cluster fun c => { c with ratio := s.ratioFor cluster })
def execPowerGatingBegin (cluster : Nat) (s : State) : Host.Outcome State Fault Refusal := .next (s.gateBegin cluster)
def execPowerGatingCommit (cluster : Nat) (s : State) : Host.Outcome State Fault Refusal := .next (s.gateCommit cluster)

end Sys2Proof.Machine
end

