-- ==== Sys2Proof/Machine/FloatForms.lean ====
section
/-!
DEFINITION. The floating-point forms on lanes: element layout, operands, arithmetic, compares, classification, conversion and
the transcendental forms (08_lane_arithmetic R190, R204 to R210).
-/
namespace Sys2Proof.Machine

/-- The format of a floating TY code (02_instruction_words R40). -/
def fmtOf (ty : BitVec 3) : Fmt := if ty = 0 then f32 else if ty = 1 ∨ ty = 3 then f16 else bf16

/-- Does a floating type hold two elements per lane? -/
def isX2 (ty : BitVec 3) : Bool := ty == 3 || ty == 4

/-- Element `i` of a lane's bits (08_lane_arithmetic R190). -/
def elemOf (ty : BitVec 3) (i x : Nat) : Nat := if ty = 0 then x % 2 ^ 32 else x / 2 ^ (16 * i) % 2 ^ 16

/-- Compute each element of a lane on its own and join the flags (08_lane_arithmetic R189, R205). -/
def perElem (ty : BitVec 3) (g : Nat → Nat × Word) : Nat × Word :=
  if isX2 ty then ((g 0).1 % 2 ^ 16 + 2 ^ 16 * (g 1).1, (g 0).2 ||| (g 1).2) else g 0

/-- Flip the sign bit when the bit is set (08_lane_arithmetic R194). -/
def flipIf (f : Fmt) (b : Bool) (x : Nat) : Nat := if b then Nat.xor x f.top else x

/-- A floating immediate as lane bits (02_instruction_words R42). -/
def fimmBits (ty : BitVec 3) (imm : BitVec 24) : Nat :=
  if ty = 0 then imm.toNat * 256
  else if isX2 ty then imm.toNat % 2 ^ 16 * (2 ^ 16 + 1)
  else imm.toNat % 2 ^ 16

/-- The rounding mode of a form with two variants; FI words round to nearest (08_lane_arithmetic R193). -/
def giRm (g : GI) : RMode :=
  match g with
  | .reg w => w.rm.toNat
  | .imm _ => 0

/-- Element bits of operand A, its sign flipped under NA. -/
def gfA (g : GI) (e : Env) (l i : Nat) : Nat :=
  match g with
  | .reg w => flipIf (fmtOf w.ty) w.na (elemOf w.ty i (opLane e.a l))
  | .imm w => elemOf w.ty i (opLane e.a l)

/-- Element bits of operand B, its sign flipped under NB. -/
def gfB (g : GI) (e : Env) (l i : Nat) : Nat :=
  match g with
  | .reg w => flipIf (fmtOf w.ty) w.nb (elemOf w.ty i (opLane e.b l))
  | .imm w => elemOf w.ty i (fimmBits w.ty w.imm)

/-- A two-operand operation on element bits: format, rounding mode, the operands. -/
abbrev FOp := Fmt → RMode → Nat → Nat → Nat × Word

/-- `fadd`, `fsub`, `fmul`, `fmin`, `fmax` on element bits (08_lane_arithmetic R205, R206). -/
def faddOp : FOp := fun f rm a b => faddB f rm (fdec f a) (fdec f b)
def fsubOp : FOp := fun f rm a b => faddB f rm (fdec f a) (fdec f b).neg
def fmulOp : FOp := fun f rm a b => fmulB f rm (fdec f a) (fdec f b)
def fminOp : FOp := fun f _ a b => fminmax f false a b (fdec f a) (fdec f b)
def fmaxOp : FOp := fun f _ a b => fminmax f true a b (fdec f a) (fdec f b)

/-- A lane of a two-operand floating form. -/
def fltLane (op : FOp) (g : GI) (e : Env) (l : Nat) : Nat × Word :=
  perElem (giTy g) fun i => op (fmtOf (giTy g)) (giRm g) (gfA g e l i) (gfB g e l i)

/-- A two-operand floating form. -/
def fltRun (i : Instr) (op : FOp) (g : GI) (e : Env) (c : Ctx) (s : State) : Res :=
  laneRun i e c s (giStrict g) [e.a, e.b] 1 (fun l => (fltLane op g e l).1) fun l => (fltLane op g e l).2

/-- A lane of `ffma`: OPX bit 0 negates d (08_lane_arithmetic R205). -/
def ffmaLane (w : GenW) (e : Env) (l : Nat) : Nat × Word :=
  let f := fmtOf w.ty
  perElem w.ty fun i => ffmaB f w.rm.toNat (fdec f (flipIf f w.na (elemOf w.ty i (opLane e.a l))))
    (fdec f (flipIf f w.nb (elemOf w.ty i (opLane e.b l)))) (fdec f (flipIf f (w.opx.getLsbD 0) (elemOf w.ty i (opLane e.d l))))

/-- `ffma`. -/
def ffmaRun (w : GenW) (e : Env) (c : Ctx) (s : State) : Res :=
  laneRun (.ffma w) e c s w.strict [e.a, e.b, e.d] 1 (fun l => (ffmaLane w e l).1) fun l => (ffmaLane w e l).2

/-- A lane of `fcmp` (08_lane_arithmetic R207). -/
def fcmpLane (cc : FCc) (g : GI) (e : Env) (l : Nat) : Bool × Word :=
  let f := fmtOf (giTy g)
  fcmpB cc (fdec f (gfA g e l 0)) (fdec f (gfB g e l 0))

/-- `fcmp`. -/
def fcmpRun (cc : FCc) (g : GI) (e : Env) (c : Ctx) (s : State) : Res :=
  predRun (.fcmp cc g) e c s (giStrict g) [e.a, e.b] (fun l => (fcmpLane cc g e l).1) fun l => (fcmpLane cc g e l).2

/-- A one-operand floating form on element bits. -/
def flt1Run (i : Instr) (w : GenW) (op : Fmt → RMode → Nat → Nat × Word) (e : Env) (c : Ctx) (s : State) : Res :=
  let g (l : Nat) : Nat × Word := perElem w.ty fun i => op (fmtOf w.ty) w.rm.toNat (elemOf w.ty i (opLane e.a l))
  laneRun i e c s w.strict [e.a] 1 (fun l => (g l).1) fun l => (g l).2

/-- `fclass` and `frnd` on element bits (08_lane_arithmetic R208). -/
def fclassOp (f : Fmt) (_ : RMode) (x : Nat) : Nat × Word := (fclassB f (fdec f x), 0)
def frndOp (f : Fmt) (rm : RMode) (x : Nat) : Nat × Word := frndB f rm (fdec f x)

/-- The transcendental forms on element bits (08_lane_arithmetic R210). -/
def transcOp (form : Nat) (f : Fmt) (_ : RMode) (x : Nat) : Nat × Word := transcB f form x
def fsqrtOp (f : Fmt) (rm : RMode) (x : Nat) : Nat × Word := fsqrtB f rm x

/-- Registers that `fcvt` writes. -/
def fcvtRegs (w : GenW) : Nat := if w.nb then iw (w.opx.setWidth 3) else 1

/-- A lane of `fcvt` (08_lane_arithmetic R209): NB is TOI, OPX the other type. -/
def fcvtLane (w : GenW) (e : Env) (l : Nat) : Nat × Word :=
  let f := fmtOf w.ty
  let rm := w.rm.toNat
  let it : BitVec 3 := w.opx.setWidth 3
  if w.nb then
    let r := fcvtFI (tyBits it) (tySigned it) rm (fdec f (elemOf w.ty 0 (opLane e.a l)))
    (deliver it false r.1, r.2)
  else if 8 ≤ w.opx.toNat then fcvtIF f rm (intOf it (opLane e.a l))
  else if isX2 w.ty then
    perElem w.ty fun i => fcvtFF f rm (fdec f32 (elemOf 0 0 (opLane (if i = 0 then e.a else e.b) l)))
  else fcvtFF f rm (fdec (fmtOf it) (elemOf it 0 (opLane e.a l)))

/-- `fcvt`. -/
def fcvtRun (w : GenW) (e : Env) (c : Ctx) (s : State) : Res :=
  laneRun (.fcvt w) e c s w.strict [e.a, e.b] (fcvtRegs w) (fun l => (fcvtLane w e l).1) fun l => (fcvtLane w e l).2

/-- The floating forms as instructions. -/
def execFadd (w : GI) (s : State) : Host.Outcome State Fault Refusal := issueOps s (.fadd w) (fltRun (.fadd w) faddOp w)
def execFsub (w : GI) (s : State) : Host.Outcome State Fault Refusal := issueOps s (.fsub w) (fltRun (.fsub w) fsubOp w)
def execFmul (w : GI) (s : State) : Host.Outcome State Fault Refusal := issueOps s (.fmul w) (fltRun (.fmul w) fmulOp w)
def execFfma (w : GenW) (s : State) : Host.Outcome State Fault Refusal := issueOps s (.ffma w) (ffmaRun w)
def execFmin (w : GI) (s : State) : Host.Outcome State Fault Refusal := issueOps s (.fmin w) (fltRun (.fmin w) fminOp w)
def execFmax (w : GI) (s : State) : Host.Outcome State Fault Refusal := issueOps s (.fmax w) (fltRun (.fmax w) fmaxOp w)
def execFcmp (cc : FCc) (w : GI) (s : State) : Host.Outcome State Fault Refusal := issueOps s (.fcmp cc w) (fcmpRun cc w)
def execFclass (w : GenW) (s : State) : Host.Outcome State Fault Refusal := issueOps s (.fclass w) (flt1Run (.fclass w) w fclassOp)
def execFrnd (w : GenW) (s : State) : Host.Outcome State Fault Refusal := issueOps s (.frnd w) (flt1Run (.frnd w) w frndOp)
def execFcvt (w : GenW) (s : State) : Host.Outcome State Fault Refusal := issueOps s (.fcvt w) (fcvtRun w)
def execFrcp (w : GenW) (s : State) : Host.Outcome State Fault Refusal := issueOps s (.frcp w) (flt1Run (.frcp w) w (transcOp 0))
def execFrsq (w : GenW) (s : State) : Host.Outcome State Fault Refusal := issueOps s (.frsq w) (flt1Run (.frsq w) w (transcOp 1))
def execFsqrt (w : GenW) (s : State) : Host.Outcome State Fault Refusal := issueOps s (.fsqrt w) (flt1Run (.fsqrt w) w fsqrtOp)
def execFexp2 (w : GenW) (s : State) : Host.Outcome State Fault Refusal := issueOps s (.fexp2 w) (flt1Run (.fexp2 w) w (transcOp 3))
def execFlog2 (w : GenW) (s : State) : Host.Outcome State Fault Refusal := issueOps s (.flog2 w) (flt1Run (.flog2 w) w (transcOp 4))
def execFsin (w : GenW) (s : State) : Host.Outcome State Fault Refusal := issueOps s (.fsin w) (flt1Run (.fsin w) w (transcOp 5))
def execFcos (w : GenW) (s : State) : Host.Outcome State Fault Refusal := issueOps s (.fcos w) (flt1Run (.fcos w) w (transcOp 6))

end Sys2Proof.Machine
end

