-- ==== Sys2Proof/Machine/Xbar.lean ====
section
/-!
DEFINITION. The lane crossbar: membership masks, shuffles, votes, scans, reductions and the rebalance search
(10_lane_crossbar R228 to R239, R242).
-/
namespace Sys2Proof.Machine

/-- Issue a form that reads lanes outside L: its records hold whole registers (07_registers R168; 10_lane_crossbar R242). -/
def issueWide (s : State) (i : Instr) (body : Env → Ctx → State → Res) : Host.Outcome State Fault Refusal :=
  issue s i fun c s => body (mkEnv (shape i) c.lm fullMap (((s.regs? c.cur.unit).map fun r => dNum r (shape i)).getD 0)
    (capture s c.cur.unit fullMap (shape i))) c s

/-- The membership mask M (10_lane_crossbar R230). -/
def members (w : XbW) (e : Env) : Lanes :=
  if w.mi then laneMap fun l => decide (w.msk.toNat % 32 ≤ l) && decide (l ≤ w.msk.toNat / 32) else scalMap (e.more.headD [])

/-- A trap OCCMISM of a crossbar form. -/
def xbTrap (e : Env) (ops : List (List OpRec)) : TrapInfo := { plainTrap cOCCMISM with cmap := unionMap e.lm ops }

/-- The shuffles' `b` in a lane (10_lane_crossbar R231). -/
def shflB (w : XbW) (e : Env) (l : Nat) : Nat := if w.bi then w.b.num.toNat else opLane e.b l % 2 ^ 32

/-- A shuffle (10_lane_crossbar R232, R233): `src l b` is the source lane, none where it is negative. -/
def shflRun (i : Instr) (w : XbW) (src : Nat → Nat → Option Nat) (e : Env) (c : Ctx) (s : State) : Res :=
  let m := members w e
  let here := e.lm &&& m &&& e.only
  let ma := opMap e.a
  let from_ (l : Nat) : Option Nat := (src l (shflB w e l)).filter fun k => decide (k < 32) && m.getLsbD k && ma.getLsbD k
  let en := laneMap fun l => (here &&& opMap e.b).getLsbD l && (from_ l).isSome
  if w.strict && en != here then .trap (xbTrap e [e.a, e.b]) s
  else vecRun i e c s (xw w.ty) en (fun l => opLane e.a ((from_ l).getD 0)) 0

/-- The source lanes of the four shuffles (10_lane_crossbar R231). -/
def shflIdxF (_ b : Nat) : Option Nat := some b
def shflUpF (l b : Nat) : Option Nat := if b ≤ l then some (l - b) else none
def shflDnF (l b : Nat) : Option Nat := some (l + b)
def shflXorF (l b : Nat) : Option Nat := some (Nat.xor l b)

/-- Voters and the lanes whose truth value is 1 (10_lane_crossbar R234): M within L, P, T. -/
def voteSets (w : XbW) (e : Env) : Lanes × Lanes × Lanes :=
  let here := e.lm &&& members w e &&& e.only
  let p := opMap e.a &&& here
  (here, p, laneMap fun l => p.getLsbD l && e.a.any (·.truth l))

/-- `vote.any` and `vote.all` (10_lane_crossbar R234). -/
def voteRun (i : Instr) (w : XbW) (all : Bool) (e : Env) (c : Ctx) (s : State) : Res :=
  let v := voteSets w e
  if w.strict && v.2.1 != v.1 then .trap (xbTrap e [e.a]) s
  else
    let r := if all then v.2.2 == v.2.1 else v.2.2 != 0
    .retire (s.writePred c.cur.unit e.dst e.lm v.1 (dKp (shape i)) (fun _ => r) 0)

/-- `vote.bal` (10_lane_crossbar R234). -/
def voteBalRun (w : XbW) (e : Env) (c : Ctx) (s : State) : Res :=
  let v := voteSets w e
  if w.strict && v.2.1 != v.1 then .trap (xbTrap e [e.a]) s
  else .retire (s.setScal c.cur.unit e.dst [v.2.2])

/-- The combination of two values under an operator: bits and flags (10_lane_crossbar R236). -/
def xopF (op : XOp) (ty : BitVec 3) (a b : Nat) : Nat × Word :=
  let f := fmtOf ty
  let n := tyBits ty
  let ia := intOf ty a
  let ib := intOf ty b
  match op with
  | .add => ((a + b) % 2 ^ n, 0)
  | .min => (if ia ≤ ib then a else b, 0)
  | .max => (if ib ≤ ia then a else b, 0)
  | .and => (Nat.land a b, 0)
  | .or => (Nat.lor a b, 0)
  | .xor => (Nat.xor a b, 0)
  | .fadd => faddOp f 0 a b
  | .fmin => fminOp f 0 a b
  | .fmax => fmaxOp f 0 a b

/-- The leaf c(x): a NaN becomes canonical, a signalling one raises IV (10_lane_crossbar R236, R237). -/
def xopLeaf (op : XOp) (ty : BitVec 3) (x : Nat) : Nat × Word :=
  if XOp.isInt op then (x, 0)
  else
    let f := fmtOf ty
    match fdec f x with
    | .nan sg => (f.nan, flagIf sg flIV)
    | _ => (x, 0)

/-- The identities (10_lane_crossbar R235). -/
def xopId (op : XOp) (ty : BitVec 3) : Nat :=
  let n := tyBits ty
  let f := fmtOf ty
  match op with
  | .min => if tySigned ty then 2 ^ (n - 1) - 1 else 2 ^ n - 1
  | .max => if tySigned ty then 2 ^ (n - 1) else 0
  | .and => 2 ^ n - 1
  | .fadd => f.top
  | .fmin => f.infBits
  | .fmax => f.top + f.infBits
  | _ => 0

/-- The largest power of two below `n`, for n ≥ 2. -/
def halfBelow (n : Nat) : Nat := 2 ^ Nat.log2 (n - 1)

/-- The architected tree over a list of values (10_lane_crossbar R236); six levels cover 32 values. -/
def xopTree (op : XOp) (ty : BitVec 3) : Nat → List Nat → Nat × Word
  | _, [] => (xopId op ty, 0)
  | _, [x] => xopLeaf op ty x
  | 0, x :: _ => xopLeaf op ty x
  | k + 1, l =>
    let h := halfBelow l.length
    let a := xopTree op ty k (l.take h)
    let b := xopTree op ty k (l.drop h)
    let r := xopF op ty a.1 b.1
    (r.1, a.2 ||| b.2 ||| r.2)

/-- The bits of an operand that an operator reads (10_lane_crossbar R235; 08_lane_arithmetic R190). -/
def xopBits (op : XOp) (ty : BitVec 3) (x : Nat) : Nat := if XOp.isInt op then x % 2 ^ tyBits ty else elemOf ty 0 x

/-- The present members P and the members of the fragment (10_lane_crossbar R236). -/
def scanSets (w : XbW) (e : Env) : Lanes × Lanes :=
  let here := e.lm &&& members w e &&& e.only
  (here, opMap e.a &&& here)

/-- The compacted values of P. -/
def scanVals (op : XOp) (w : XbW) (e : Env) (p : Lanes) : List Nat := (lanesOf p).map fun l => xopBits op w.ty (opLane e.a l)

/-- `scan` (10_lane_crossbar R236): OPT is `.exc`. -/
def scanRun (op : XOp) (w : XbW) (e : Env) (c : Ctx) (s : State) : Res :=
  let q := scanSets w e
  if w.strict && q.2 != q.1 then .trap (xbTrap e [e.a]) s
  else
    let xs := scanVals op w e q.2
    let res := (List.range xs.length).map fun k => xopTree op w.ty 6 (xs.take (if w.opt then k else k + 1))
    vecRun (.scan op w) e c s (xopW op w.ty) q.2 (fun l => (res.getD (rankOf q.2 l) (0, 0)).1) (flagsOr (res.map (·.2)))

/-- `red` (10_lane_crossbar R236): OPT is the scalar destination. -/
def redRun (op : XOp) (w : XbW) (e : Env) (c : Ctx) (s : State) : Res :=
  let q := scanSets w e
  if w.strict && q.2 != q.1 then .trap (xbTrap e [e.a]) s
  else
    let r := xopTree op w.ty 6 (scanVals op w e q.2)
    if w.opt then
      let s := s.setScal c.cur.unit e.dst (words (xopW op w.ty) r.1)
      match c.cur.unit with
      | .warp t k => .retire (s.modWarp t k fun x => x.orFst r.2)
      | .ccc _ _ => .retire s
    else vecRun (.red op w) e c s (xopW op w.ty) q.2 (fun _ => r.1) (if q.2 = 0 then 0 else r.2)

/-- The prefix sums S_0, S_1, … of lengths. -/
def prefixSums (a : Nat) : List Nat → List Nat
  | [] => [a]
  | x :: r => a :: prefixSums (a + x) r

/-- The item of the flattened sequence at index `x`: the position k of its row, and x − S_k (10_lane_crossbar R239). -/
def rebalAt (x : Nat) : Nat → List Nat → Option (Nat × Nat)
  | _, [] => none
  | k, n :: r => if x < n then some (k, x) else rebalAt (x - n) (k + 1) r

/-- `rebal` (10_lane_crossbar R239). A replay takes the rows of its lanes; the outputs go to the lanes of L (log entry 16).
A NEGLEN trap keeps the rows as its CMAP (log entry 86). -/
def rebalRun (w : RebalW) (e : Env) (c : Ctx) (s : State) : Res :=
  let p := opMap e.a &&& e.lm &&& e.only
  let rows := lanesOf p
  let raw := rows.map fun l => sextNat 32 (opLane e.a l)
  let neg := raw.any (· < 0)
  let lens := raw.map Int.toNat
  let total := lens.sum
  if neg && w.strict then .trap { plainTrap cNEGLEN with cmap := p } s
  else
    let base := opScal e.b % 2 ^ 32
    let item (l : Nat) : Option (Nat × Nat) :=
      if e.lm.getLsbD l ∧ base + rankOf e.lm l < total then rebalAt (base + rankOf e.lm l) 0 lens else none
    let s := s.setScal c.cur.unit w.ts.toNat [BitVec.ofNat 32 (min total (2 ^ 32 - 1))]
    let s := s.writeLanes c.cur.unit e.dst 2 e.lm (laneMap fun l => (item l).isSome) (dKp (shape (.rebal w)))
      (fun l => match item l with
        | some (k, o) => rows.getD k 0 + 2 ^ 32 * o
        | none => 0) 0
    match c.cur.unit with
    | .warp t k => .retire (if neg then s.modWarp t k fun x => x.orWst wsNEGLEN else s)
    | .ccc _ _ => .retire s

/-- The crossbar forms as instructions. -/
def execShflIdx (w : XbW) (s : State) : Host.Outcome State Fault Refusal :=
  issueWide s (.shflIdx w) (shflRun (.shflIdx w) w shflIdxF)
def execShflUp (w : XbW) (s : State) : Host.Outcome State Fault Refusal :=
  issueWide s (.shflUp w) (shflRun (.shflUp w) w shflUpF)
def execShflDn (w : XbW) (s : State) : Host.Outcome State Fault Refusal :=
  issueWide s (.shflDn w) (shflRun (.shflDn w) w shflDnF)
def execShflXor (w : XbW) (s : State) : Host.Outcome State Fault Refusal :=
  issueWide s (.shflXor w) (shflRun (.shflXor w) w shflXorF)
def execVoteAny (w : XbW) (s : State) : Host.Outcome State Fault Refusal :=
  issueOps s (.voteAny w) (voteRun (.voteAny w) w false)
def execVoteAll (w : XbW) (s : State) : Host.Outcome State Fault Refusal :=
  issueOps s (.voteAll w) (voteRun (.voteAll w) w true)
def execVoteBal (w : XbW) (s : State) : Host.Outcome State Fault Refusal := issueOps s (.voteBal w) (voteBalRun w)
def execScan (op : XOp) (w : XbW) (s : State) : Host.Outcome State Fault Refusal := issueOps s (.scan op w) (scanRun op w)
def execRed (op : XOp) (w : XbW) (s : State) : Host.Outcome State Fault Refusal := issueOps s (.red op w) (redRun op w)
def execRebal (w : RebalW) (s : State) : Host.Outcome State Fault Refusal := issueOps s (.rebal w) (rebalRun w)

end Sys2Proof.Machine
end

