-- ==== Sys2Proof/Machine/Scalar.lean ====
section
/-!
DEFINITION. The scalar forms, and the two forms that move values between a lane and the scalar side (08_lane_arithmetic
R211, R213).
-/
namespace Sys2Proof.Machine

/-- Operand A of a scalar form (08_lane_arithmetic R211). -/
def scA (g : GI) (e : Env) : Int := intOf (giTy g) (opScal e.a)

/-- Operand B of a scalar form, as raw bits. -/
def scRaw (g : GI) (e : Env) : Nat :=
  match g with
  | .reg _ => opScal e.b
  | .imm w => immRaw w.imm

/-- Operand B of a scalar form. -/
def scB (g : GI) (e : Env) : Int := intOf (giTy g) (scRaw g e)

/-- A scalar result. -/
def scalRun (n v : Nat) (e : Env) (c : Ctx) (s : State) : Res := .retire (s.setScal c.cur.unit e.dst (words n v))

/-- A two-operand scalar form. -/
def scal2Run (g : GI) (f : Int → Int → Int) (e : Env) (c : Ctx) (s : State) : Res :=
  scalRun (iw (giTy g)) (deliver (giTy g) (giSat g) (f (scA g e) (scB g e))) e c s

/-- A scalar shift (08_lane_arithmetic R198, R211). -/
def scalShiftRun (g : GI) (f : Nat → Int → Nat → Int) (e : Env) (c : Ctx) (s : State) : Res :=
  let w := tyBits (giTy g)
  scalRun (iw (giTy g)) (deliver (giTy g) false (f w (scA g e) (scRaw g e % w))) e c s

/-- `s.not`. -/
def sNotRun (w : GenW) (e : Env) (c : Ctx) (s : State) : Res :=
  scalRun (iw w.ty) (2 ^ tyBits w.ty - 1 - opScal e.a % 2 ^ tyBits w.ty) e c s

/-- `s.cmp`: one register. -/
def sCmpRun (cc : Cc) (g : GI) (e : Env) (c : Ctx) (s : State) : Res :=
  scalRun 1 (bit (ccHolds cc (scA g e) (scB g e))) e c s

/-- `s.mov`: the register form copies, the FI form gives the immediate. -/
def sMovRun (g : GI) (e : Env) (c : Ctx) (s : State) : Res :=
  scalRun (iw (giTy g)) (match g with
    | .reg _ => opScal e.a
    | .imm w => immRaw w.imm) e c s

/-- The lane that `s.rdl` and `v.bcast` name (08_lane_arithmetic R213). -/
def rdLane (e : Env) : Nat := opScal e.b % 32

/-- A strict `s.rdl` or `v.bcast` whose lane is absent. -/
def rdTrap (e : Env) (strict : Bool) : Option TrapInfo :=
  if strict && !(opMap e.a).getLsbD (rdLane e) then some { plainTrap cOCCMISM with cmap := unionMap e.lm [e.a] } else none

/-- `s.rdl` (08_lane_arithmetic R213). -/
def sRdlRun (w : GenW) (e : Env) (c : Ctx) (s : State) : Res :=
  match rdTrap e w.strict with
  | some t => .trap t s
  | none => scalRun (iw w.ty) (if (opMap e.a).getLsbD (rdLane e) then opLane e.a (rdLane e) else 0) e c s

/-- `v.bcast` (08_lane_arithmetic R213). -/
def vBcastRun (w : GenW) (e : Env) (c : Ctx) (s : State) : Res :=
  match rdTrap e w.strict with
  | some t => .trap t s
  | none =>
    vecRun (.vBcast w) e c s (iw w.ty) (if (opMap e.a).getLsbD (rdLane e) then e.lm &&& e.only else 0)
      (fun _ => opLane e.a (rdLane e)) 0

/-- The scalar forms as instructions. -/
def execSAdd (w : GI) (s : State) : Host.Outcome State Fault Refusal := issueOps s (.sAdd w) (scal2Run w iaddF)
def execSSub (w : GI) (s : State) : Host.Outcome State Fault Refusal := issueOps s (.sSub w) (scal2Run w isubF)
def execSMul (w : GI) (s : State) : Host.Outcome State Fault Refusal := issueOps s (.sMul w) (scal2Run w imulF)
def execSMin (w : GI) (s : State) : Host.Outcome State Fault Refusal := issueOps s (.sMin w) (scal2Run w iminF)
def execSMax (w : GI) (s : State) : Host.Outcome State Fault Refusal := issueOps s (.sMax w) (scal2Run w imaxF)
def execSAnd (w : GI) (s : State) : Host.Outcome State Fault Refusal := issueOps s (.sAnd w) (scal2Run w (bitF Nat.land))
def execSOr (w : GI) (s : State) : Host.Outcome State Fault Refusal := issueOps s (.sOr w) (scal2Run w (bitF Nat.lor))
def execSXor (w : GI) (s : State) : Host.Outcome State Fault Refusal := issueOps s (.sXor w) (scal2Run w (bitF Nat.xor))
def execSNot (w : GenW) (s : State) : Host.Outcome State Fault Refusal := issueOps s (.sNot w) (sNotRun w)
def execSShl (w : GI) (s : State) : Host.Outcome State Fault Refusal := issueOps s (.sShl w) (scalShiftRun w shlF)
def execSShr (w : GI) (s : State) : Host.Outcome State Fault Refusal := issueOps s (.sShr w) (scalShiftRun w shrF)
def execSSar (w : GI) (s : State) : Host.Outcome State Fault Refusal := issueOps s (.sSar w) (scalShiftRun w shrF)
def execSCmp (cc : Cc) (w : GI) (s : State) : Host.Outcome State Fault Refusal := issueOps s (.sCmp cc w) (sCmpRun cc w)
def execSMov (w : GI) (s : State) : Host.Outcome State Fault Refusal := issueOps s (.sMov w) (sMovRun w)
def execSRdl (w : GenW) (s : State) : Host.Outcome State Fault Refusal := issueWide s (.sRdl w) (sRdlRun w)
def execVBcast (w : GenW) (s : State) : Host.Outcome State Fault Refusal := issueWide s (.vBcast w) (vBcastRun w)

end Sys2Proof.Machine
end

