-- ==== Sys2Proof/Machine/Pair.lean ====
section
/-!
DEFINITION. Pair words: two lane operations of the form D := D op A in one word (02_instruction_words R43 to R47;
15_traps_preemption R334, R341).
-/
namespace Sys2Proof.Machine

/-- The floating type of a pair operation code (02_instruction_words R44). -/
def slotFty (op : Nat) : BitVec 3 :=
  if op < 0x15 then 0 else if op < 0x1A then 1 else if op < 0x1F then 2 else if op < 0x22 then 3 else 4

/-- The floating operation of a pair operation code (02_instruction_words R44). -/
def slotFop (op : Nat) : FOp :=
  let k := if op < 0x1F then (op - 0x10) % 5 else (op - 0x1F) % 3
  if k = 0 then faddOp else if k = 1 then fsubOp else if k = 2 then fmulOp else if k = 3 then fminOp else fmaxOp

/-- Is the operation a floating one? -/
def slotIsF (op : Nat) : Bool := decide (0x10 ≤ op) && decide (op < 0x25)

/-- The immediate of a slot as lane bits (02_instruction_words R45). -/
def slotImm (p : PSlot) : Nat :=
  let v := sextNat 8 p.a.toNat
  if slotIsF p.op.toNat then
    let ty := slotFty p.op.toNat
    let x := (froundInt (fmtOf ty) 0 false v 0).1
    if isX2 ty then x * (2 ^ 16 + 1) else x
  else wrapNat 32 v

/-- One lane of a slot: the old D and the second source give the new D and the flags (02_instruction_words R44). -/
def slotLane (p : PSlot) (d a : Nat) : Nat × Word :=
  let op := p.op.toNat
  let s32 : BitVec 3 := 0
  let n32 : BitVec 3 := 1
  let i2 (ty : BitVec 3) (f : Int → Int → Int) : Nat × Word := (deliver ty p.sat (f (intOf ty d) (intOf ty a)), 0)
  if slotIsF op then perElem (slotFty op) fun i =>
    slotFop op (fmtOf (slotFty op)) p.rm.toNat (elemOf (slotFty op) i d) (elemOf (slotFty op) i a)
  else if op = 0x00 then i2 s32 iaddF
  else if op = 0x01 then i2 s32 isubF
  else if op = 0x02 then i2 s32 imulF
  else if op = 0x03 then i2 s32 iminF
  else if op = 0x04 then i2 s32 imaxF
  else if op = 0x05 then i2 n32 iminF
  else if op = 0x06 then i2 n32 imaxF
  else if op = 0x07 then i2 n32 (bitF Nat.land)
  else if op = 0x08 then i2 n32 (bitF Nat.lor)
  else if op = 0x09 then i2 n32 (bitF Nat.xor)
  else if op = 0x0A then (deliver n32 false (shlF 32 (intOf n32 d) (a % 32)), 0)
  else if op = 0x0B then (deliver n32 false (shrF 32 (intOf n32 d) (a % 32)), 0)
  else if op = 0x0C then (deliver s32 false (shrF 32 (intOf s32 d) (a % 32)), 0)
  else if op = 0x0D then (a, 0)
  else if op = 0x0E then (2 ^ 32 - 1 - a % 2 ^ 32, 0)
  else if op = 0x0F then (deliver s32 false ((intOf s32 a).natAbs : Int), 0)
  else if op = 0x25 then (popcNat 32 a, 0)
  else if op = 0x26 then (clz32 a, 0)
  else (brev32 a, 0)

/-- A slot's operands: D's record, and A's (none for an immediate). -/
structure SlotEnv where
  d : List OpRec
  a : List OpRec
  deriving DecidableEq, Repr

/-- The value of the second source in a lane. -/
def slotSrc (p : PSlot) (x : SlotEnv) (l : Nat) : Nat := if p.imm then slotImm p else opLane x.a l

/-- The map a slot acts on within L (02_instruction_words R44). -/
def slotMap (lm : Lanes) (x : SlotEnv) : Lanes := lm &&& opMap x.d &&& opMap x.a

/-- A slot's contribution to CMAP: its map, or under OCCMISM the union of its operand maps (15_traps_preemption R334). -/
def slotCmap (lm : Lanes) (p : PSlot) (x : SlotEnv) (bad : Bool) : Lanes :=
  if p.strict && bad then unionMap lm [x.d, x.a] else slotMap lm x

/-- The record of slot 1's D as slot 1 leaves it (02_instruction_words R46): what slot 2 reads under CH. -/
def slotFwd (p : PSlot) (lm m : Lanes) (x : SlotEnv) : OpRec :=
  let old := opMap x.d
  let mp := laneMap fun l => m.getLsbD l || (p.kp && lm.getLsbD l && old.getLsbD l)
  ⟨p.d.toNat, 0, mp, (lanesOf mp).map fun l => BitVec.ofNat 32
    (if m.getLsbD l then (slotLane p (opLane x.d l) (slotSrc p x l)).1 else opLane x.d l)⟩

/-- Write a slot's results. -/
def State.writeSlot (s : State) (u : UnitId) (p : PSlot) (lm m : Lanes) (x : SlotEnv) : State :=
  let r (l : Nat) : Nat × Word := slotLane p (opLane x.d l) (slotSrc p x l)
  s.writeLanes u p.d.toNat 1 lm m p.kp (fun l => (r l).1) (flagsOr ((lanesOf m).map fun l => (r l).2))

/-- The slots' operands from the records of the word (15_traps_preemption R335; log entry 14). -/
def pairEnvs (ch : Bool) (a b : PSlot) (recs : List OpRec) : SlotEnv × SlotEnv :=
  let n1 := if a.imm then 0 else 1
  let r := recs.drop (1 + n1)
  (⟨recs.take 1, (recs.drop 1).take n1⟩, ⟨r.take 1, if b.imm || (ch && b.a == a.d) then [] else (r.drop 1).take 1⟩)

/-- A pair word (02_instruction_words R46): slot 1, then slot 2; if either traps neither takes effect. `only`: the lanes a
replay may act on. -/
def pairRun (ch : Bool) (a b : PSlot) (lm only : Lanes) (recs : List OpRec) (c : Ctx) (s : State) : Res :=
  let x := pairEnvs ch a b recs
  let m1 := slotMap lm x.1 &&& only
  let y : SlotEnv := if ch && !b.imm && b.a == a.d then ⟨x.2.d, [slotFwd a lm m1 x.1]⟩ else x.2
  let m2 := slotMap lm y &&& only
  let bad1 := occMism (lm &&& only) [x.1.d, x.1.a]
  let bad2 := occMism (lm &&& only) [y.d, y.a]
  if (a.strict && bad1) || (b.strict && bad2) then
    .trap { plainTrap cOCCMISM with cmap := slotCmap lm a x.1 bad1 ||| slotCmap lm b y bad2 } s
  else .retire ((s.writeSlot c.cur.unit a lm m1 x.1).writeSlot c.cur.unit b lm m2 y)

/-- A pair word as an instruction. -/
def execPairWord (ch : Bool) (a b : PSlot) (s : State) : Host.Outcome State Fault Refusal :=
  issue s (.pairWord ch a b) fun c s => pairRun ch a b c.lm fullMap (pairRecs s c.cur.unit c.lm ch a b) c s

end Sys2Proof.Machine
end

