-- ==== Sys2Proof/Machine/Beats.lean ====
section
/-!
DEFINITION. The beats of lane and crossbar forms, and the current reservations that their macro-operations need before they start
(08_lane_arithmetic R188; 09_narrow_formats R226; 10_lane_crossbar R228; 17_power R383, R385).
-/
namespace Sys2Proof.Machine

/-- Beats of a set of lanes: 16 lanes a beat (08_lane_arithmetic R188). -/
def beatsFor (mult : Nat) (m : Lanes) : Nat := mult * cdiv (popcount m) 16

/-- The lanes of E of a lane form: L and the maps of what it reads. -/
def laneE (e : Env) : Lanes := effMap e ([e.d, e.a, e.b] ++ e.more)

/-- A form has a 64-bit operand or result. -/
def wideForm (i : Instr) : Bool := (shape i).flds.any fun f => f.w == 2

/-- Beats of a lane form on a vector pipe; 0 for a form that uses no pipe (08_lane_arithmetic R188, R212; 07_registers R184;
09_narrow_formats R226; 11_matrix_engine R248, R249). -/
def pipeBeats (e : Env) (i : Instr) : Nat :=
  match i with
  | .iadd _ | .isub _ | .iabs _ | .imin _ | .imax _ | .and _ | .or _ | .xor _ | .not _ | .shl _ | .shr _ | .sar _ | .icmp _ _
  | .mov _ | .sel _ | .lea _ | .cvt _ => beatsFor (if wideForm i then 2 else 1) (laneE e)
  | .imul _ | .imulhi _ | .imad _ => beatsFor (if wideForm i then 4 else 1) (laneE e)
  | .popc _ | .clz _ | .brev _ | .bfe _ | .bfi _ | .movi _ | .movh _ | .fadd _ | .fsub _ | .fmul _ | .ffma _ | .fmin _ | .fmax _
  | .fcmp _ _ | .fclass _ | .frnd _ | .fcvt _ | .kdot4 _ | .kdot8 _ | .kscale _ | .kpack _ | .opSt _ | .mxFeed _ =>
    beatsFor 1 (laneE e)
  | .kunpack _ => beatsFor 2 (laneE e)
  | .frcp _ | .frsq _ | .fsqrt _ | .fexp2 _ | .flog2 _ | .fsin _ | .fcos _ => beatsFor 4 (laneE e)
  | .occAnd _ => beatsFor 1 (opMap e.a &&& e.lm &&& scalMap e.b)
  | .occFill _ => beatsFor 1 (e.lm &&& (opMap e.a ||| opMap e.b))
  | .vBcast _ => beatsFor (if wideForm i then 2 else 1) (if (opMap e.a).getLsbD (opScal e.b % 32) then e.lm else 0)
  | _ => 0

/-- Beats of a crossbar form; 0 for any other (10_lane_crossbar R228; 07_registers R185). -/
def xbarBeats (e : Env) (i : Instr) : Nat :=
  let when_ (m : Lanes) (n : Nat) : Nat := if m = 0 then 0 else n
  match i with
  | .shflIdx w | .shflUp w | .shflDn w | .shflXor w => beatsFor (xw w.ty) (e.lm &&& members w e &&& opMap e.b)
  | .voteAny _ | .voteAll _ | .voteBal _ => 1
  | .scan op w | .red op w => when_ (scanSets w e).2 (6 * xopW op w.ty)
  | .rebal _ =>
    let p := opMap e.a &&& e.lm
    let total := ((lanesOf p).map fun l => (sextNat 32 (opLane e.a l)).toNat).sum
    when_ p (2 + beatsFor 1 (laneMap fun l => e.lm.getLsbD l && decide (opScal e.b % 2 ^ 32 + rankOf e.lm l < total)))
  | .ldSpT w => when_ (e.lm &&& ldtMask w) 2
  | .occPack _ => beatsFor 1 (opMap e.a &&& e.lm)
  | .occUnpack _ => beatsFor 1 (laneMap fun q =>
      let m := scalMap e.b &&& e.lm
      m.getLsbD q && (opMap e.a).getLsbD (laneAt e.lm (rankOf m q)))
  | _ => 0
where
  /-- The lanes of a transposed block (10_lane_crossbar R241). -/
  ldtMask (w : LdtW) : Lanes := if w.sz = 0 then 0xFFFF else fullMap

/-- What a warp's instruction needs of its core's two pipes and crossbar: requesters and beats. A full word goes to the pipe of its
warp slot's parity (log entry 8); the slots of a pair word go to the two pipes (08_lane_arithmetic R188). -/
def State.beatsOf (s : State) (c : Ctx) (w : Warp) (i : Instr) : List (Requester × Nat) :=
  let k := w.core % 4
  let l := match i with
    | .pairWord ch a b =>
      let x := pairEnvs ch a b (recsOf s c.cur.unit c.lm i)
      [(Requester.pipe k 0, beatsFor 1 (slotMap c.lm x.1)), (.pipe k 1, beatsFor 1 (slotMap c.lm x.2))]
    | _ =>
      let e := s.envOf c i
      [(.pipe k (w.wslot % 2), pipeBeats e i), (.xbar k, xbarBeats e i)]
  l.filter fun x => x.2 != 0

/-- A macro-operation takes beats: it ends with its sixteenth, and the rest of the instruction's beats begin another, which needs a
reservation of its own (08_lane_arithmetic R188; 17_power R385). -/
def State.spend (s : State) (cl t : Nat) (x : Requester × Nat) : State :=
  match s.curHeld cl x.1 with
  | none => s
  | some r =>
    let s1 := s.modCluster cl fun c => { c with held := c.held.filterMap fun y =>
      if y.who == x.1 then (if y.left ≤ x.2 then none else some { y with left := y.left - x.2 }) else some y }
    if r.left < x.2 then s1.curAsk cl x.1 t 0 (16 + r.left - x.2) 0 else s1

/-- What the issuing instruction of a warp needs: the cluster, the team, requesters and beats; nothing for a context. -/
def State.vectorNeeds (s : State) (i : Instr) : Nat × Nat × List (Requester × Nat) :=
  match s.ctx? with
  | none => (0, 0, [])
  | some c => match c.cur.unit with
    | .ccc _ _ => (0, 0, [])
    | .warp t k => match s.warp? t k with
      | none => (0, 0, [])
      | some w => (w.core / 4, t, s.beatsOf c w i)

/-- An instruction has the reservations that its first macro-operations need: it may issue (17_power R383, R385). -/
def State.vectorGo (s : State) (i : Instr) : Bool :=
  let n := s.vectorNeeds i
  n.2.2.all fun x => (s.curHeld n.1 x.1).isSome

/-- An instruction asks for the reservations that it needs and has not (17_power R383, R384). -/
def State.vectorAsk (s : State) (i : Instr) : State :=
  let n := s.vectorNeeds i
  n.2.2.foldl (fun s x => if (s.curHeld n.1 x.1).isSome then s else s.curAsk n.1 x.1 n.2.1 0 16 0) s

/-- What an instruction has used when it has issued from a fragment: `s` is the state before, `s'` that after its effect. One that
still waits has used nothing. -/
def State.vectorSpend (s : State) (cur : Cur) (i : Instr) (s' : State) : State :=
  let n := s.vectorNeeds i
  if (s'.frag? cur).any (·.wait.isSome) then s' else n.2.2.foldl (fun s x => s.spend n.1 n.2.1 x) s'

end Sys2Proof.Machine
end

