-- ==== Sys2Proof/Machine/Control.lean ====
section
/-!
DEFINITION. Control flow: transfers, splits, rejoin registers, fusion, indirect transfers, the end of a fragment
(13_control_flow; 14_execution_model R322).
-/
namespace Sys2Proof.Machine

/-- The target of a direct transfer (13_control_flow R290). -/
def offTarget (c : Ctx) (off : BitVec 30) : DWord := c.cpc + BitVec.ofInt 64 (8 * sextNat 30 off.toNat)

/-- Move the whole issuing fragment. -/
def moveTo (pc : DWord) (c : Ctx) (s : State) : Res := .placed (s.modFrag c.cur (·.goto pc))

/-- `nop` (13_control_flow R291). -/
def nopRun (_ : Ctx) (s : State) : Res := .retire s

/-- `yield`: the warp's next issue goes to its other live fragment (13_control_flow R291). -/
def yieldRun (c : Ctx) (s : State) : Res :=
  match c.cur.unit with
  | .warp t w => .done ((s.retire s c .yield).modWarp t w fun x => { x with other := true })
  | .ccc _ _ => .retire s

/-- `yield.w`: the warp stands aside for the core's next issue slot (13_control_flow R291). -/
def yieldWRun (c : Ctx) (s : State) : Res :=
  match c.cur.unit with
  | .warp t w => .retire (s.modWarp t w fun x => { x with aside := max x.aside 1 })
  | .ccc _ _ => .retire s

/-- `bra` (13_control_flow R292). -/
def braRun (w : OffW) (c : Ctx) (s : State) : Res := moveTo (offTarget c w.off) c s

/-- `call` (13_control_flow R292). -/
def callRun (w : OffW) (c : Ctx) (s : State) : Res :=
  let stk := ((s.frag? c.cur).map (·.stk)).getD []
  if 32 ≤ stk.length then .trap (plainTrap cSTACKOV) s
  else .placed (s.modFrag c.cur fun f => { f.goto (offTarget c w.off) with stk := nextHeader c :: f.stk })

/-- `ret` (13_control_flow R292). -/
def retRun (c : Ctx) (s : State) : Res :=
  match ((s.frag? c.cur).map (·.stk)).getD [] with
  | [] => .trap (plainTrap cSTACKOV) s
  | a :: r => .placed (s.modFrag c.cur fun f => { f.goto a with stk := r })

/-- The spilled fragment that fills a free slot: a ready one first, then the greatest AGE, then the nearest to the top
(13_control_flow R304). -/
def pickSpill (blk : Frag → Bool) (l : List Frag) : Option Nat :=
  let better (a b : Frag) : Bool := (!blk a && blk b) || (blk a == blk b && decide (b.age < a.age))
  (l.zip (List.range l.length)).foldl (fun r e => match r with
    | none => some e
    | some b => if better e.1 b.1 then some e else some b) none |>.map (·.2)

/-- Fill a warp's free live slots from its spill stack (13_control_flow R304). -/
def Warp.fill (blk : Frag → Bool) (w : Warp) : Warp :=
  let one (w : Warp) (k : Sel) : Warp :=
    match w.frag? k, pickSpill blk w.spill with
    | none, some i => { w.setFrag k w.spill[i]? with spill := w.spill.eraseIdx i }
    | _, _ => w
  one (one w .live0) .live1

/-- Fill a warp's free live slots. -/
def State.fillSlots (s : State) (t w : Nat) : State := s.modWarp t w (·.fill (s.blocked (.warp t w)))

/-- Place a new fragment: a free live slot, else the top of the spill stack (13_control_flow R287). -/
def Warp.addFrag (w : Warp) (f : Frag) : Warp :=
  if w.live0.isNone then { w with live0 := some f }
  else if w.live1.isNone then { w with live1 := some f }
  else { w with spill := f :: w.spill }

/-- Free live slots and spill records (13_control_flow R287). -/
def Warp.room (w : Warp) : Nat := bit w.live0.isNone + bit w.live1.isNone + (64 - w.spill.length)

/-- A copy of a fragment for other lanes at another place, under a return stack index of its own (13_control_flow R288). -/
def Warp.split (w : Warp) (f : Frag) (l : Lanes) (pc : DWord) : Frag :=
  { f.goto pc with lmap := l, age := 0, fid := w.freeFid }

/-- The issuing fragment ends: its slot is refilled, and the warp exits when no fragment remains; with a team's last warp its
halted copies go on (13_control_flow R292; 02_instruction_words R30; 05_copy_engine R124). -/
def State.endFrag (s : State) (c : Cur) : State :=
  match c.unit with
  | .ccc t i => s.modCcc t i fun x => { x with exited := true }
  | .warp t w =>
    let s := (s.modWarp t w fun x => x.setFrag c.sel none).fillSlots t w
    let s := s.modWarp t w fun x => if x.frags.isEmpty then { x with exited := true } else x
    s.modTeam t fun x => if x.warps.all (·.exited) then { x with tags := x.tags.map fun l => l.map fun g => { g with halt := false } } else x

/-- `exit`: a fragment ends; a context ends once its entries have completed (13_control_flow R292; 11_matrix_engine R243). -/
def exitRun (c : Ctx) (s : State) : Res :=
  match c.cur.unit with
  | .ccc t i => if (s.entriesOf t i).isEmpty then .placed (s.endFrag c.cur) else .wait .exit s
  | .warp _ _ => .placed (s.endFrag c.cur)

/-- A check of a successor block's address (14_execution_model R322). -/
def State.succCheck (s : State) (u : UnitId) (v : DWord) : Option Nat :=
  if v.toNat % 256 ≠ 0 then some cALIGN
  else match s.access (s.coreOf u) (s.dieOf u) (s.ownerOf u) v .rw with
    | .error k => some k
    | .ok _ => none

/-- `exit.spawn` (14_execution_model R322). -/
def exitSpawnRun (w : SpawnW) (e : Env) (c : Ctx) (s : State) : Res :=
  let u := c.cur.unit
  let vs := (List.range (w.n.toNat + 1)).map fun i => BitVec.ofNat 64 (opScal ((e.a.drop (2 * i)).take 2))
  let old := ((s.team? (teamOf u)).map (·.succ)).getD []
  if s.lookups u vs then .wait .stall s
  else match vs.findSome? fun v => (s.succCheck u v).map fun k => (k, v) with
  | some (k, v) => .trap (oneTrap k v) s
  | none =>
    let all := (old ++ vs).eraseDups
    match (List.range vs.length).find? fun i => decide (4 < ((old ++ vs.take (i + 1)).eraseDups).length) with
    | some i => .trap (oneTrap cRANGE (vs.getD i 0)) s
    | none => match exitRun c (s.modTeam (teamOf u) fun x => { x with succ := all }) with
      | .wait k _ => .wait k s
      | r => r

/-- `brx` (13_control_flow R294). -/
def brxRun (w : BrxW) (e : Env) (c : Ctx) (s : State) : Res :=
  match c.cur.unit with
  | .ccc _ _ => .retire s
  | .warp t k =>
    match s.warp? t k, s.frag? c.cur with
    | some x, some f =>
      let m := opMap e.a
      let tk := laneMap fun l => (c.lm &&& m).getLsbD l && e.a.any (·.truth l)
      let ft := laneMap fun l => (c.lm &&& m).getLsbD l && !e.a.any (·.truth l)
      let ab := c.lm &&& ~~~m
      if tk ≠ 0 ∧ ft ≠ 0 ∧ x.room = 0 then .trap (plainTrap cSPLITOV) s
      else
        let j := x.jr w.j.toNat
        let x1 := if ab ≠ 0 then (x.setJ w.j.toNat { j with arr := j.arr ||| ab }).orWst wsABSC else x
        let x2 :=
          if tk ≠ 0 ∧ ft ≠ 0 then
            (x1.addFrag (x1.split f tk (offTarget c w.off))).setFrag c.cur.sel (some { f.goto (nextHeader c) with lmap := ft })
          else if tk ≠ 0 then x1.setFrag c.cur.sel (some { f.goto (offTarget c w.off) with lmap := tk })
          else if ft ≠ 0 then x1.setFrag c.cur.sel (some { f.goto (nextHeader c) with lmap := ft })
          else x1.setFrag c.cur.sel (some (f.goto j.jpc))
        .placed (s.modWarp t k fun _ => x2)
    | _, _ => .retire s

/-- Arm a rejoin register: its order becomes 0 and those that were more recent move back (13_control_flow R295). -/
def Warp.arm (w : Warp) (m : Nat) (r : JReg) : Warp :=
  let old := (w.jr m).ord
  { w with j := (w.j.map fun (q : JReg) => if q.ord < old then { q with ord := q.ord + 1 } else q) }.setJ m { r with ord := 0 }

/-- `jarm` (13_control_flow R295). -/
def jarmRun (w : JarmW) (c : Ctx) (s : State) : Res :=
  match c.cur.unit with
  | .ccc _ _ => .retire s
  | .warp t k =>
    match s.warp? t k, s.frag? c.cur with
    | some x, some f =>
      let m := w.j.toNat
      let r : JReg := ⟨c.lm, (x.jr m).arr, offTarget c w.off, f.rj, f.stk.length, 0, f.stk⟩
      .retire (s.modWarp t k fun x => (x.arm m r).setFrag c.cur.sel (some { f with rj := m }))
    | _, _ => .retire s

/-- The later of two rendezvous targets (06_consistency R151). -/
def laterTg (a b : Nat) : Nat := let d := (b + 16 - a % 16) % 16; if 1 ≤ d ∧ d ≤ 7 then b else a

/-- One fragment takes in another: the union of the maps, the later targets, the larger AGE (13_control_flow R296, R299). -/
def Frag.merge (a b : Frag) : Frag :=
  { a with lmap := a.lmap ||| b.lmap, tg := (a.tg.zip b.tg).map fun p => laterTg p.1 p.2, age := max a.age b.age }

/-- Counted operations of a fragment that has been taken in belong to the one that took it. -/
def Warp.moveFid (w : Warp) (a b : Nat) : Warp :=
  { w with regs := { w.regs with ops := w.regs.ops.map fun o => if o.fid = a then { o with fid := b } else o } }

/-- `join` completes or parks (13_control_flow R296), after the issue has been settled. -/
def State.joinGo (s : State) (t k m : Nat) (c : Ctx) : State :=
  let s1 := s.modWarp t k fun x =>
    match x.frag? c.cur.sel with
    | none => x
    | some f =>
      let j := x.jr m
      let arr := j.arr ||| f.lmap
      if j.exp &&& ~~~arr = 0 then
        let f1 := match tget x.parks m with
          | some p => f.merge p
          | none => f
        let x1 := match tget x.parks m with
          | some p => x.moveFid p.fid f.fid
          | none => x
        { (x1.setJ m { j with exp := 0, arr := 0 }).setFrag c.cur.sel
            (some ({ f1 with lmap := arr, rj := j.out }.advance c.hdr.len)) with parks := tdel x.parks m }
      else
        let g := f.advance c.hdr.len
        let x1 := (x.setJ m { j with arr := arr }).setFrag c.cur.sel none
        match tget x.parks m with
        | none => { x1 with parks := tput x.parks m g }
        | some p => { x1.moveFid f.fid p.fid with parks := tput x.parks m (p.merge g) }
  s1.fillSlots t k

/-- `join` (13_control_flow R296). -/
def joinRun (m : BitVec 3) (c : Ctx) (s : State) : Res :=
  match c.cur.unit with
  | .ccc _ _ => .retire s
  | .warp t k =>
    match s.warp? t k, s.frag? c.cur with
    | some x, some f =>
      let j := x.jr m.toNat
      if c.cpc ≠ j.jpc ∨ c.slot ≠ 0 ∨ (j.exp ≠ 0 ∧ (f.stk.length ≠ j.dj ∨ f.stk ≠ j.stk)) then .trap (plainTrap cILLCTX) s
      else .done ((s.settleIssue s c (.join m)).joinGo t k m.toNat c)
    | _, _ => .retire s

/-- The check of an indirect target (13_control_flow R301). -/
def State.tgtCheck (s : State) (u : UnitId) (v : DWord) : Option Nat :=
  if v.toNat % 8 ≠ 0 then some cALIGN
  else match s.access (s.coreOf u) (s.dieOf u) (s.ownerOf u) v .exec with
    | .error k => some k
    | .ok l =>
      match decodeHeader (BitVec.ofNat 64 (ofBytes (s.codeBytes u l))) with
      | none => some cTLAND
      | some h => if h.lp then none else some cTLAND

/-- The distinct targets of a list of lanes, in ascending order. -/
def sortTargets (l : List Nat) : List Nat :=
  (l.foldl (fun t v => tput t v ()) ([] : Table Unit)).map (·.1)

/-- The target of a lane of `jmpi` or `calli`; none where it is absent (13_control_flow R300). -/
def indTarget (w : IndW) (e : Env) (l : Nat) : Option DWord :=
  if w.ac = 1 then some (BitVec.ofNat 64 (opScal e.a))
  else if (opMap e.a).getLsbD l then some (BitVec.ofNat 64 (opLane e.a l)) else none

/-- `jmpi` and `calli` (13_control_flow R300): the good lanes are grouped by target; the failing lanes stay and trap. -/
def indRun (w : IndW) (call : Bool) (e : Env) (c : Ctx) (s : State) : Res :=
  let u := c.cur.unit
  let chk (l : Nat) : Option (Nat × DWord) :=
    match indTarget w e l with
    | none => some (cRANGE, 0)
    | some v => (s.tgtCheck u v).map fun k => (k, v)
  let ls := lanesOf c.lm
  let bad := ls.filterMap fun l => (chk l).map fun r => (l, r.1, r.2)
  let good := ls.filter fun l => (chk l).isNone
  let tg (l : Nat) : Nat := ((indTarget w e l).getD 0).toNat
  let groups := (sortTargets (good.map tg)).map fun v => (BitVec.ofNat 64 v, laneMap fun l => good.contains l && tg l == v)
  let stk := ((s.frag? c.cur).map (·.stk)).getD []
  if s.lookups u (ls.filterMap (indTarget w e)) then .wait .stall s
  else match u with
  | .ccc _ _ =>
    match bad with
    | b :: _ => .trap (oneTrap b.2.1 b.2.2) s
    | [] =>
      if call && decide (32 ≤ stk.length) then .trap (plainTrap cSTACKOV) s
      else .placed (s.modFrag c.cur fun f =>
        { f.goto ((groups.head?.map (·.1)).getD 0) with stk := if call then nextHeader c :: f.stk else f.stk })
  | .warp t k =>
    match s.warp? t k, s.frag? c.cur with
    | some x, some f =>
      if x.room < groups.length - 1 + bit (!bad.isEmpty && !groups.isEmpty) then .trap (plainTrap cSPLITOV) s
      else if call && !groups.isEmpty && decide (32 ≤ stk.length) then .trap (plainTrap cSTACKOV) s
      else
        let g := if call then { f with stk := nextHeader c :: f.stk } else f
        let stay := laneMap fun l => bad.any (·.1 == l)
        let first := match bad, groups with
          | [], q :: _ => { g.goto q.1 with lmap := q.2 }
          | _, _ => { f with lmap := stay }
        let rest := if bad.isEmpty then groups.drop 1 else groups
        let x1 := rest.foldl (fun x q => x.addFrag (x.split g q.2 q.1)) (x.setFrag c.cur.sel (some first))
        let s1 := s.modWarp t k fun _ => x1
        if bad.isEmpty then .placed s1 else .trap (laneTrap bad stay) s1
    | _, _ => .retire s

/-- A fragment stands at slot 0 of a clause and has not issued its word 0: the word may wait, but has had no effect. -/
def Frag.atHeader (f : Frag) : Bool := f.slot == 0 && f.phase == 0 && f.wait.all (· != .walk)

/-- Two live fragments at one header fuse when they may (13_control_flow R299). -/
def canFuse (a b : Frag) : Bool :=
  a.cpc == b.cpc && a.atHeader && b.atHeader && a.stk == b.stk && a.rj == b.rj && a.kind == b.kind

/-- Fuse a warp's live fragments if they stand at one header with equal control state (13_control_flow R299). -/
def State.fuse (s : State) (t w : Nat) : State :=
  match s.warp? t w with
  | none => s
  | some x =>
    match x.live0, x.live1 with
    | some a, some b =>
      if canFuse a b then
        ((s.dequeue (.warp t w) b.fid).modWarp t w fun x =>
          { x.moveFid b.fid a.fid with live0 := some (a.merge b), live1 := none, last := if x.last = b.fid then a.fid else x.last }).fillSlots t w
      else s
    | _, _ => s

/-- The release rule (13_control_flow R297): the park record chosen when a warp has neither a live nor a spilled fragment. -/
def Warp.pickPark (w : Warp) : Option Nat :=
  let better (a b : Nat) : Bool :=
    let x := w.jr a
    let y := w.jr b
    decide (y.dj < x.dj) || (x.dj == y.dj && (decide (x.ord < y.ord) || (x.ord == y.ord && decide (a < b))))
  (w.parks.map (·.1)).foldl (fun r m => match r with
    | none => some m
    | some b => if better m b then some m else some b) none

/-- Release a park record (13_control_flow R297). -/
def Warp.releasePark (w : Warp) : Warp :=
  if w.live0.isSome || w.live1.isSome || !w.spill.isEmpty || w.handler.isSome then w
  else match w.pickPark with
    | none => w
    | some m =>
      let j := w.jr m
      match tget w.parks m with
      | none => w
      | some f => { (w.setJ m { j with exp := j.exp &&& ~~~j.arr, arr := 0 }).orWst wsJLOST with
          live0 := some { f with lmap := j.arr, rj := j.out }, parks := tdel w.parks m }

/-- The control forms as instructions. -/
def execNop (s : State) : Host.Outcome State Fault Refusal := issue s .nop nopRun
def execYield (s : State) : Host.Outcome State Fault Refusal := issue s .yield yieldRun
def execYieldW (s : State) : Host.Outcome State Fault Refusal := issue s .yieldW yieldWRun
def execBra (w : OffW) (s : State) : Host.Outcome State Fault Refusal := issue s (.bra w) (braRun w)
def execBrx (w : BrxW) (s : State) : Host.Outcome State Fault Refusal := issueOps s (.brx w) (brxRun w)
def execJmpi (w : IndW) (s : State) : Host.Outcome State Fault Refusal := issueOps s (.jmpi w) (indRun w false)
def execCall (w : OffW) (s : State) : Host.Outcome State Fault Refusal := issue s (.call w) (callRun w)
def execCalli (w : IndW) (s : State) : Host.Outcome State Fault Refusal := issueOps s (.calli w) (indRun w true)
def execRet (s : State) : Host.Outcome State Fault Refusal := issue s .ret retRun
def execJarm (w : JarmW) (s : State) : Host.Outcome State Fault Refusal := issue s (.jarm w) (jarmRun w)
def execJoin (j : BitVec 3) (s : State) : Host.Outcome State Fault Refusal := issue s (.join j) (joinRun j)
def execExitSpawn (w : SpawnW) (s : State) : Host.Outcome State Fault Refusal := issueOps s (.exitSpawn w) (exitSpawnRun w)

end Sys2Proof.Machine
end

