-- ==== Sys2Proof/Machine/Launch.lean ====
section
/-!
DEFINITION. How work reaches the machine: mailboxes, launch packets, grids, placement, admission, and `mbx.post`
(14_execution_model R307 to R319, R324).
-/
namespace Sys2Proof.Machine

/-- A 64-bit table word as the package reads it, under key id 0 (log entry 11). -/
def State.pkgWord (s : State) (pa : Nat) : DWord := BitVec.ofNat 64 (ofBytes (s.homeBytes tableKey pa 8))

/-- A word of a mailbox entry (14_execution_model R310). -/
def State.mboxWord (s : State) (m k : Nat) : DWord := s.pkgWord (s.csrs.mbxtab.toNat + 32 * m + 8 * k)

/-- Mailbox m takes a message of an owner for an address (14_execution_model R310; 18_host_and_trust R395, R401). -/
def State.mboxMatches (s : State) (owner : Byte) (a : DWord) (host : Bool) (m : Nat) : Bool :=
  let w := (s.mboxWord m 0).toNat
  bitOf w 0 && bitOf w (if host then 1 else 2) && (if bitOf w 3 then !host && s.feature 11 else true) &&
    bitsOf w 15 8 == owner.toNat && 64 * bitsOf w 57 16 == a.toNat

/-- The mailbox that a message is matched to: the lowest-numbered one (14_execution_model R310). -/
def State.mboxOf (s : State) (owner : Byte) (a : DWord) (host : Bool) : Option Nat :=
  (List.range 4096).find? (s.mboxMatches owner a host)

/-- A mailbox accepts a message: fewer than CRED of its grids are pending or running (14_execution_model R311). -/
def State.mboxHasCredit (s : State) (m : Nat) : Bool :=
  decide ((s.grids.filter fun g => g.2.mbox == some m).length < (s.mboxWord m 2).toNat % 256)

/-- A mailbox grants the system attribute (18_host_and_trust R399). -/
def State.mboxSys (s : State) (m : Nat) : Bool := (s.mreg (0x300 + m / 64)).getLsbD (m % 64)

/-- Warps of a team, W (14_execution_model R308). -/
def pktWarps (p : List DWord) : Nat := cdiv (pktBits p 0x00 43 32) 32

/-- Team cores, NC. -/
def pktCores (p : List DWord) : Nat := pktBits p 0x00 17 16 + 1

/-- Warps on a team core index: those w with w mod NC = ci. -/
def warpsOn (nw nc ci : Nat) : Nat := ((List.range nw).filter (· % nc == ci)).length

/-- A packet of features that are accepted (14_execution_model R314 row 6; 18_host_and_trust R401). -/
def State.pktFeatures (s : State) (p : List DWord) : Bool :=
  (s.feature 4 || (pktBits p 0x08 6 0 == 0 && pktBits p 0x08 11 7 == 0)) && (s.feature 8 || pktBits p 0x00 10 10 == 0) &&
    (s.feature 9 || pktBits p 0x00 9 9 == 0)

/-- Every field of a packet is in range and its set fits an empty cluster (14_execution_model R313, R314 row 7). -/
def pktFields (p : List DWord) : Bool :=
  let f (o hi lo : Nat) : Nat := pktBits p o hi lo
  let w := pktWarps p
  let nc := pktCores p
  let most := warpsOn w nc 0
  let sets := f 0x00 15 14 + 1
  let pc (o : Nat) : Bool := f o 63 0 != 0 && f o 63 0 % 8 == 0
  f 0x00 19 18 != 3 && f 0x00 21 20 != 3 && f 0x00 31 22 == 0 && decide (1 ≤ f 0x00 43 32) && decide (f 0x00 43 32 ≤ 3072) &&
    decide (1 ≤ f 0x00 49 44) && decide (f 0x00 49 44 ≤ 32) && decide (1 ≤ f 0x00 56 50) && decide (f 0x00 56 50 ≤ 96) &&
    decide (f 0x00 63 57 ≤ 64) && decide (f 0x08 6 0 ≤ 64) && decide (f 0x08 11 7 ≤ 16) && f 0x08 15 12 == 0 &&
    f 0x30 63 48 == 0 && f 0x48 63 32 == 0 && ((List.range 24).all fun n => bitsOf (p.getD (10 + n / 4) 0).toNat
      (16 * (n % 4) + 15) (16 * (n % 4) + 12) == 0) && f 0x80 63 32 == 0 &&
    ((List.range 7).all fun k => (p.getD (17 + k) 0) == 0) && decide (most ≤ 64) && pc 0x10 &&
    (f 0x00 19 18 == 0 || pc 0x20) && (decide (f 0x00 19 18 < 2) || pc 0x28) &&
    decide (sets * f 0x00 19 18 ≤ 8) && decide (sets * f 0x08 6 0 ≤ 64) && decide (sets * f 0x08 11 7 ≤ 16) &&
    decide (4 * cdiv (f 0x00 49 44) 4 * (most - 1) + f 0x00 49 44 ≤ 512)

/-- The bytes of a packet as the package distributor reads them, on C0. -/
def State.packetBytes (s : State) (l : Leaf) : List Byte :=
  if l.repl then s.dieBytes 0 l.key (l.at_ 0) 256 else s.homeBytes l.key l.pa 256

/-- Read and check a launch packet: its 32 words; or the cause of the refusal, with the words that were read
(14_execution_model R314). -/
def State.readPacket (s : State) (owner : Byte) (va : DWord) (sys : Bool) : Except (Nat × List DWord) (List DWord) :=
  if va.toNat % 256 ≠ 0 then .error (cALIGN, [])
  else match s.access none 0 owner va .read with
    | .error k => .error (k, [])
    | .ok l =>
      let bs := s.packetBytes l
      let p := (List.range 32).map fun k => BitVec.ofNat 64 (ofBytes ((bs.drop (8 * k)).take 8))
      if pktBits p 0x00 7 0 ≠ owner.toNat then .error (cPERM, p)
      else if pktBits p 0x00 8 8 = 1 ∧ sys = false then .error (cPRIV, p)
      else if !s.pktFeatures p then .error (cPRIV, p)
      else if !pktFields p then .error (cRANGE, p)
      else .ok p

/-- A packet cannot be read yet: the launch is an acquire at package scope, and waits until what it reads, the table entries of
its lookup and the packet, is performed there (14_execution_model R321; 06_consistency R137). -/
def State.packetOpen (s : State) (owner : Byte) (va : DWord) : Bool :=
  s.lookupOpen none 0 owner va || match s.access none 0 owner va .read with
    | .error _ => false
    | .ok l => (if l.repl then s.srcsAt 0 (l.at_ 0) 256 else s.srcsOf (fun _ => true) l.pa 256).any s.onWay

/-- The argument block in a packet (14_execution_model R313). -/
def pktArgs (p : List DWord) : List Word := ((p.drop 24).take 8).flatMap fun d => [loWord d, hiWord d]

/-- A grid joins its queue: that of its packet's class, and of its mailbox's or its block's number (14_execution_model R312). -/
def State.joinQueue (s : State) (mbox : Option Nat) (owner : Byte) (va : DWord) (p : List DWord) (args : List Word) (refused : Option Nat) :
    State :=
  let q := (mbox.getD (va.toNat / 256)) % 16
  let g : Grid := ⟨mbox, owner, pktBits p 0x00 8 8 == 1, va, p, args, 16 * pktBits p 0x00 13 12 + q, 0, 0, refused⟩
  { s with grids := tput s.grids s.nextId g, nextId := s.nextId + 1 }

/-- Launch a grid of a checked packet. -/
def State.addGrid (s : State) (mbox : Option Nat) (owner : Byte) (va : DWord) (p : List DWord) (args : List Word) : State :=
  s.joinQueue mbox owner va p args none

/-- The ring entry of a refused grid (14_execution_model R314; 15_traps_preemption R346). -/
def refusedEnt (owner : Byte) (va : DWord) (code : Nat) : RingEnt :=
  ⟨code, 4, owner, 1023, 255, 0, false, 0, va, 0, 0, []⟩

/-- A grid is refused: its entry is formed, or the grid waits in its queue for the distributor's pending slot, and those behind it
with it (15_traps_preemption R345; log entry 79: a packet that cannot be read gives class 0). -/
def State.refuseGrid (s : State) (mbox : Option Nat) (owner : Byte) (va : DWord) (p : List DWord) (code : Nat) : State :=
  if s.ringBusy .package then s.joinQueue mbox owner va p [] (some code) else s.ringPut .package (refusedEnt owner va code)

/-- The pending slot is free for the oldest refused grid that waits: its entry is formed, and its credit returns. -/
def State.refuseNext (s : State) : State :=
  match s.grids.find? (·.2.refused.isSome) with
  | none => s
  | some (id, g) => { s with grids := tdel s.grids id }.ringPut .package (refusedEnt g.owner g.pktVA (g.refused.getD 0))

/-- What becomes of a message that has found its mailbox (14_execution_model R311, R314, R324). -/
inductive Posted where
  | noCredit
  | waits
  | refused (s : State)
  | launched (s : State)

/-- A message to a local mailbox. -/
def State.postLocal (s : State) (m : Nat) (owner : Byte) (words : List Word) : Posted :=
  if !s.mboxHasCredit m then .noCredit
  else
    let va := s.mboxWord m 1
    if s.packetOpen owner va then .waits
    else match s.readPacket owner va (s.mboxSys m) with
    | .ok p => .launched (s.addGrid (some m) owner va p words)
    | .error (k, p) => .refused (s.refuseGrid (some m) owner va p k)

/-- A device post to a remote mailbox leaves from its port (18_host_and_trust R398). -/
def State.postRemote (s : State) (m : Nat) (a : DWord) (words : List Word) : State :=
  let w := (s.mboxWord m 3).toNat
  { s with sent := s.sent ++ [⟨bitsOf w 2 0, bitsOf w 31 8, false, bitsOf w 63 32, a, words.flatMap fun v => toBytes 4 v.toNat⟩] }

/-- The mailbox is remote. -/
def State.mboxRemote (s : State) (m : Nat) : Bool := (s.mboxWord m 0).getLsbD 3

/-- `mbx.post` (14_execution_model R324). -/
def mbxPostRun (_w : PostW) (e : Env) (c : Ctx) (s : State) : Res :=
  let u := c.cur.unit
  let a := BitVec.ofNat 64 (opScal e.a)
  let words := e.b.map fun r => r.vals.getD 0 0
  let status (s : State) (v : Word) : Res := .retire (s.setScal u e.dst [v])
  if a.toNat % 64 ≠ 0 then .trap (oneTrap cALIGN a) s
  else if 2 ^ 48 ≤ a.toNat then .trap (oneTrap cRANGE a) s
  else match s.mboxOf (s.ownerOf u) a false with
    | none => .trap (oneTrap cRANGE a) s
    | some m =>
      releaseThen c s fun s =>
        if s.mboxRemote m then status (s.postRemote m a words) 0
        else match s.postLocal m (s.ownerOf u) words with
          | .noCredit => status s 1
          | .waits => .wait .stall s
          | .refused s' => status s' 2
          | .launched s' => status s' 0

def execMbxPost (w : PostW) (s : State) : Host.Outcome State Fault Refusal := issueOps s (.mbxPost w) (mbxPostRun w)

/-- Warp slots taken on a core, by the warps whose state is there; a released context is no longer there (14 R318). -/
def State.slotsOn (s : State) (core : Nat) : List Nat :=
  s.teams.flatMap fun t => if t.2.step != .running then [] else t.2.warps.filterMap fun w =>
    match w.place with
    | .saved => none
    | _ => if w.core == core && !(w.exited && w.base == 0) then some w.wslot else none

/-- Free warp slots of some cores. -/
def State.freeSlots (s : State) (cores : List Nat) : Nat := (cores.map fun c => 64 - (s.slotsOn c).length).sum

/-- The cores of a cluster (03_memory_tiers R54). -/
def coresOf (cl : Nat) : List Nat := (List.range 4).map (4 * cl + ·)

/-- The die with the most free warp slots, the lowest on ties (14_execution_model R316). -/
def State.freestDie (s : State) : Nat :=
  let f (d : Nat) : Nat := s.freeSlots ((List.range 96).map (96 * d + ·))
  (List.range 8).foldl (fun b d => if f b < f d then d else b) 0

/-- The home die of a physical address for affinity (03_memory_tiers R58). -/
def affDie (pa : Nat) : Nat := match homeOf pa with
  | some 8 => 0
  | some 9 => 3
  | some h => h
  | none => 0

/-- The L2 slice of a physical address (03_memory_tiers R58). -/
def sliceOf (pa : Nat) : Nat :=
  [bitsOf pa 12 7, bitsOf pa 18 13, bitsOf pa 24 19, bitsOf pa 30 25, bitsOf pa 35 31].foldl Nat.xor 0

/-- The address that a set follows (14_execution_model R316). -/
def Grid.follows (g : Grid) (x y z : Nat) : DWord :=
  let f (o hi lo : Nat) : Nat := pktBits g.pkt o hi lo
  BitVec.ofInt 64 ((f 0x38 63 0 : Nat) + x * sextNat 32 (f 0x40 31 0) + y * sextNat 32 (f 0x40 63 32) + z * sextNat 32 (f 0x48 31 0))

/-- The die and the L2 slice of a set by affinity (14_execution_model R316; 03_memory_tiers R58). -/
def State.dieFor (s : State) (g : Grid) (x y z : Nat) : Nat × Option Nat :=
  let f (o hi lo : Nat) : Nat := pktBits g.pkt o hi lo
  let aff := f 0x00 21 20
  if aff = 1 then
    let h := (f 0x30 15 0 * x + f 0x30 31 16 * y + f 0x30 47 32 * z) % 512
    (h / 64, some (h % 64))
  else if aff = 2 then
    match s.translate none 0 g.owner (g.follows x y z) with
    | some l => (affDie l.pa, some (sliceOf l.pa))
    | none => (s.freestDie, none)
  else (s.freestDie, none)

/-- The extent of a grid in x, y and z. -/
def Grid.dims (g : Grid) : Nat × Nat × Nat := (pktBits g.pkt 0x08 31 16 + 1, pktBits g.pkt 0x08 47 32 + 1, pktBits g.pkt 0x08 63 48 + 1)

/-- Team sets of a grid. -/
def Grid.total (g : Grid) : Nat := g.dims.1 * g.dims.2.1 * g.dims.2.2

/-- The grid at the head of a queue: the first in arrival order with sets to offer (14_execution_model R312). -/
def State.queueHead (s : State) (q : Nat) : Option (Nat × Grid) := s.grids.find? fun g => g.2.queue == q && decide (g.2.offered < g.2.total)

/-- The queue served next: the highest class with work, its queues in turn; a refused grid at a queue's head holds it back
(14_execution_model R312; 15_traps_preemption R345). -/
def State.nextQueue (s : State) : Option Nat :=
  [3, 2, 1, 0].findSome? fun k =>
    ((List.range 16).map fun i => 16 * k + (s.rrobin.getD k 0 + i) % 16).find? fun q => (s.queueHead q).any (·.2.refused.isNone)

/-- The package distributor offers the next team set to its die (14_execution_model R307, R312, R316). -/
def State.place (s : State) (die : Nat) : State :=
  match s.nextQueue.bind fun q => (s.queueHead q).map fun g => (q, g) with
  | none => s
  | some (q, id, g) =>
    let d := g.dims
    let n := g.offered
    let x := n % d.1
    let y := n / d.1 % d.2.1
    let z := n / (d.1 * d.2.1)
    let dest := s.dieFor g x y z
    if dest.1 ≠ die || (pktBits g.pkt 0x00 21 20 == 2 && s.lookupOpen none 0 g.owner (g.follows x y z)) then s
    else
      let set : TSet := ⟨id, x, y, z, pktBits g.pkt 0x00 13 12, .queued die, s.nextId, [], false, false, 0, dest.2⟩
      { s with sets := tput s.sets s.nextId set, grids := tput s.grids id { g with offered := n + 1 },
               rrobin := lset s.rrobin (q / 16) ((q + 1) % 16), nextId := s.nextId + 1 }

def execPlacement (die : Nat) (s : State) : Host.Outcome State Fault Refusal := .next (s.place die)

/-- Tags taken on a core, as runs: a resident team's (05_copy_engine R112). -/
def State.tagRuns (s : State) (core : Nat) : List (Nat × Nat) :=
  s.teams.flatMap fun t => if t.2.step != .running then [] else
    ((t.2.cores.zip (List.range 4)).filter fun p => p.1 == core && !(t.2.saved.getD p.2 false)).map fun p =>
      (t.2.tagBase.getD p.2 0, pktBits t.2.pkt 0x00 63 57)

/-- Tiles taken on a core: a team's allocation is held until its set completes (04_caches_scratchpad R91). -/
def State.tilesOn (s : State) (core : Nat) : Nat :=
  (s.teams.map fun t => (((t.2.cores.zip (List.range 4)).filter fun p => p.1 == core && !(t.2.saved.getD p.2 false)).map
    fun _ => t.2.tiles).sum).sum

/-- Teams whose cluster-level state stands in a cluster (14_execution_model R318). -/
def State.teamsIn (s : State) (cl : Nat) : List Team :=
  (s.teams.map (·.2)).filter fun t => t.cluster == cl && t.step == .running && (match t.cplace with
    | .saved => false
    | _ => true)

/-- CCC contexts taken in a cluster. -/
def State.ctxsIn (s : State) (cl : Nat) : List Nat := (s.teamsIn cl).flatMap fun t => t.cccs.map (·.ctx)

/-- The cluster has the OPM slots, ACS blocks and contexts that a packet's team needs (14_execution_model R318). -/
def State.clusterRoom (s : State) (cl : Nat) (p : List DWord) : Bool :=
  let used (hi lo : Nat) : Nat := ((s.teamsIn cl).map fun t => pktBits t.pkt 0x08 hi lo).sum
  decide (used 6 0 + pktBits p 0x08 6 0 ≤ 64) && decide (used 11 7 + pktBits p 0x08 11 7 ≤ 16)

/-- A `scope.open` request of a core could be served now: it comes before admission (14_execution_model R318). -/
def State.scopeFirst (s : State) (core : Nat) : Bool :=
  match (s.core core).scopeQ with
  | [] => false
  | q :: _ => (s.findRun core q.2.2.2).isSome

/-- The registers of each of a warp's runs, as a base and a count: the base run, then the scopes in the order they opened
(07_registers R169, R177). -/
def Warp.runRegs (w : Warp) : List (Nat × Nat) := (0, w.base) :: w.scopes.reverse

/-- A warp's runs may move to first bricks: it is resident, and no outstanding counted operation has its destination in a run that
moves (14_execution_model R319). -/
def Warp.movable (w : Warp) (dest : List Nat) : Bool :=
  w.place == .resident && (dest.zip (w.bricks.zip w.runRegs)).all fun x => x.1 == x.2.1.1 || w.regs.ops.all fun o => match o.instr with
    | .sLd _ => true
    | i => !meets o.dst (countedRegs i) x.2.2.1 x.2.2.2

/-- Move a warp's runs to other first bricks if that keeps every run apart (14_execution_model R319). -/
def State.moveRuns (s : State) (m : Nat × Nat × List Nat) : Option State :=
  match s.team? m.1, s.warp? m.1 m.2.1 with
  | some t, some w =>
    let runs := m.2.2.zip (w.bricks.map (·.2))
    let s1 := s.modWarp m.1 m.2.1 fun x => { x with bricks := [] }
    if pktBits t.pkt 0x00 11 11 = 0 ∧ w.movable m.2.2 = true ∧ runs.length = w.bricks.length ∧ m.2.2.headD 0 % 4 = 0 ∧
        (runs.foldl (fun (r : Bool × List (Nat × Nat)) x => (r.1 && runFree r.2 x.1 x.2, x :: r.2)) (true, s1.bricksOf w.core)).1 = true
    then some (s.modWarp m.1 m.2.1 fun x => { x with bricks := runs })
    else none
  | _, _ => none

/-- The lanes of warp w of a team of `n` threads (14_execution_model R308). -/
def warpLanes (n w : Nat) : Lanes := laneMap fun l => decide (32 * w + l < n)

/-- The registers of a warp or context at admission: s0 to s15 hold the argument block (14_execution_model R309). -/
def startRegs (args : List Word) : Regs := Regs.setSs ⟨[], [], [], [], 0⟩ 0 (args.take 16)

/-- A warp at admission (14_execution_model R309). -/
def Warp.start (core wslot : Nat) (l : Lanes) (p : List DWord) (args : List Word) (brick : Nat) : Warp where
  core := core
  wslot := wslot
  place := .resident
  regs := startRegs args
  v := []
  p := []
  j := (List.range 8).map JReg.reset
  fst := 0
  wst := 0
  base := 8 * pktBits p 0x00 49 44
  scopes := []
  bricks := [(brick, pktBits p 0x00 49 44)]
  live0 := some (Frag.start l (p.getD 2 0) 0)
  live1 := none
  spill := []
  parks := []
  last := 0
  run := 0
  other := false
  aside := 0
  wage := 0
  handler := none
  frame := none
  queue := []
  walks := []
  buf := []
  rsel := []
  exited := false

/-- A rendezvous object at admission (06_consistency R150). -/
def startRv (p : List DWord) (n : Nat) : Rv :=
  let c := bitsOf (p.getD (10 + n / 4) 0).toNat (16 * (n % 4) + 11) (16 * (n % 4))
  ⟨0, c != 0, c, c⟩

/-- A CCC context at admission (11_matrix_engine R243). -/
def Ccc.start (ctx : Nat) (pc : DWord) (args : List Word) : Ccc :=
  ⟨ctx, startRegs args, Frag.start 1 pc 0, 0, 0, none, none, false⟩

/-- A team at admission (14_execution_model R308, R309, R315). -/
def Team.start (g : Grid) (set : TSet) (setId stage cl : Nat) (a : Admit) : Team :=
  let f (o hi lo : Nat) : Nat := pktBits g.pkt o hi lo
  let nc := pktCores g.pkt
  let n := f 0x00 43 32
  let per {α : Type} (x : α) : List α := List.replicate nc x
  { set := setId, stage := stage, owner := g.owner, sys := g.sys, pktVA := g.pktVA, pkt := g.pkt,
    coord := [set.x, set.y, set.z, stage].map (BitVec.ofNat 32 ·), cluster := cl, cur := f 0x00 13 12, succ := [], args := g.args,
    cores := a.cores, tagBase := a.tagBase, tags := per (List.replicate (f 0x00 63 57) Tag.reset), scratch := per [],
    eown := per [], uses := per [], saved := per false, saves := [], rv := (List.range 24).map (startRv g.pkt),
    slots := List.replicate (f 0x08 6 0) Slot.reset, acc := [], nlt := [],
    warps := (List.range (pktWarps g.pkt)).map fun w =>
      Warp.start (a.cores.getD (w % nc) 0) (a.wslots.getD w 0) (warpLanes n w) g.pkt g.args (a.bricks.getD w 0),
    cccs := (List.range (f 0x00 19 18)).map fun i => Ccc.start (a.ctxs.getD i 0) (g.pkt.getD (4 + i) 0) g.args,
    posts := [], ents := [], cplace := .resident, step := .running }

/-- Distinct elements. -/
def distinct {α : Type} [BEq α] (l : List α) : Bool := l.eraseDups.length == l.length

/-- What an admission chooses for a team is free and fits (14_execution_model R318). -/
def State.fits (s : State) (p : List DWord) (cl : Nat) (a : Admit) : Bool :=
  let nw := pktWarps p
  let nc := pktCores p
  let rb := pktBits p 0x00 49 44
  let tn := pktBits p 0x00 63 57
  let at_ (w : Nat) : Nat := a.cores.getD (w % nc) 0
  let ws := List.range nw
  a.teamid != 0 && decide (a.teamid < 2 ^ 32) && (s.team? a.teamid).isNone && (s.writes.all fun w => w.src.all (teamOf · != a.teamid)) &&
  a.cores.length == nc && distinct a.cores && a.cores.all (coresOf cl).contains &&
  a.tagBase.length == nc && a.wslots.length == nw && a.bricks.length == nw &&
  distinct (ws.map fun w => (at_ w, a.wslots.getD w 0)) &&
  (ws.all fun w => decide (a.wslots.getD w 0 < 64) && !(s.slotsOn (at_ w)).contains (a.wslots.getD w 0)) &&
  (ws.all fun w => a.bricks.getD w 0 % 4 == 0 && runFree (s.bricksOf (at_ w)) (a.bricks.getD w 0) rb &&
    ws.all fun v => decide (v = w) || at_ v != at_ w || !meets (a.bricks.getD w 0) rb (a.bricks.getD v 0) rb) &&
  (a.cores.zip a.tagBase).all (fun x => decide (x.2 + tn ≤ 64) && (s.tagRuns x.1).all fun r => !meets x.2 tn r.1 r.2) &&
  (a.cores.all fun c => decide (s.tilesOn c + pktBits p 0x00 56 50 ≤ 96) && !s.scopeFirst c) &&
  s.clusterRoom cl p && a.ctxs.length == pktBits p 0x00 19 18 && distinct a.ctxs &&
  a.ctxs.all fun x => decide (x < 8) && !(s.ctxsIn cl).contains x

/-- Invalidate the L1 of cores and the gather cache of their cluster, and their instruction caches, so that the launch finds the code
written before it (14_execution_model R318; 17_power R391; 02_instruction_words R34). -/
def State.invalidateFor (s : State) (cl : Nat) (cores : List Nat) : State :=
  (cores.foldl (fun s c => (s.dropCaches (some c) cl).modCore c fun x => { x with l0 := [] }) s).modCluster cl fun x => { x with icache := [] }

/-- A place is saved. -/
def Place.isSaved : Place → Bool
  | .saved => true
  | _ => false

/-- A set has saved state (15_traps_preemption R361). -/
def State.hasSaved (s : State) (x : TSet) : Bool :=
  x.teams.any fun t => (s.team? t).any fun t => t.warps.any (·.place.isSaved) || t.saved.any id || t.cplace.isSaved

/-- Sets that wait in a die's admission queues, and saved state to resume there, go before a set: a higher class, or the same
class and older; saved state also of the same class (14_execution_model R318; 15_traps_preemption R361). -/
def State.admitNext (s : State) (id : Nat) (set : TSet) (die : Nat) : Bool :=
  s.sets.all fun x => x.1 == id || match x.2.phase with
    | .queued d => d != die || decide (x.2.cls < set.cls ∨ (x.2.cls = set.cls ∧ set.order < x.2.order))
    | .admitted cl => dieOfCluster cl != die || decide (x.2.cls < set.cls) || x.2.frozen || !s.hasSaved x.2

/-- What a core has free: warp slots, bricks and tiles by count, and the tag and brick runs taken. -/
structure Room where
  slots  : Nat
  bricks : Nat
  tiles  : Nat
  tags   : List (Nat × Nat)
  runs   : List (Nat × Nat)
  deriving DecidableEq, Repr

/-- The room on a core; a `scope.open` request that can be served takes the bricks first. -/
def State.room (s : State) (core : Nat) : Room :=
  ⟨64 - (s.slotsOn core).length, 512 - ((s.bricksOf core).map (·.2)).sum, 96 - s.tilesOn core, s.tagRuns core,
    if s.scopeFirst core then [(0, 512)] else s.bricksOf core⟩

/-- Take runs of bricks for some warps, each at the lowest place. -/
def takeRuns (rb : Nat) : Nat → List (Nat × Nat) → Option (List (Nat × Nat))
  | 0, used => some used
  | n + 1, used => match (List.range 128).find? fun a => runFree used (4 * a) rb with
    | none => none
    | some a => takeRuns rb n ((4 * a, rb) :: used)

/-- The room left when a core takes team core `ci` of a packet's team (14_execution_model R318); `still`: no warp's runs move. -/
def Room.take (still : Bool) (r : Room) (p : List DWord) (ci : Nat) : Option Room :=
  let w := warpsOn (pktWarps p) (pktCores p) ci
  let rb := pktBits p 0x00 49 44
  let b := 4 * cdiv rb 4 * (w - 1) + rb
  let n := pktBits p 0x00 56 50
  let tn := pktBits p 0x00 63 57
  match (List.range 65).find? fun a => decide (a + tn ≤ 64) && r.tags.all fun x => !meets a tn x.1 x.2 with
  | none => none
  | some a =>
    if w ≤ r.slots ∧ b ≤ r.bricks ∧ n ≤ r.tiles then
      (if still then takeRuns rb w r.runs else some r.runs).map fun runs =>
        ⟨r.slots - w, r.bricks - b, r.tiles - n, if tn = 0 then r.tags else (a, tn) :: r.tags, runs⟩
    else none

/-- The rooms after one team core, for each core that can take it. -/
def placeCore (still : Bool) (p : List DWord) (ci : Nat) (x : List Room × List Nat) : List (List Room × List Nat) :=
  (List.range x.1.length).filterMap fun c =>
    if x.2.contains c then none else ((x.1[c]?).bind fun r => r.take still p ci).map fun r => (lset x.1 c r, c :: x.2)

/-- The rooms after one team, for each choice of distinct cores. -/
def placeTeam (still : Bool) (p : List DWord) (rs : List Room) : List (List Room) :=
  (((List.range (pktCores p)).foldl (fun acc ci => acc.flatMap (placeCore still p ci)) [(rs, [])]).map (·.1)).eraseDups

/-- The cores of a cluster have room for every team of a set. -/
def State.coresFit (s : State) (still : Bool) (cl : Nat) (p : List DWord) : Bool :=
  !((List.range (pktBits p 0x00 15 14 + 1)).foldl (fun acc _ => (acc.flatMap (placeTeam still p)).eraseDups) [(coresOf cl).map s.room]).isEmpty

/-- The cluster has the slots, blocks and contexts that every team of a set needs. -/
def State.clusterFit (s : State) (cl : Nat) (p : List DWord) : Bool :=
  let n := pktBits p 0x00 15 14 + 1
  let used (hi lo : Nat) : Nat := ((s.teamsIn cl).map fun t => pktBits t.pkt 0x08 hi lo).sum
  decide (used 6 0 + n * pktBits p 0x08 6 0 ≤ 64) && decide (used 11 7 + n * pktBits p 0x08 11 7 ≤ 16) &&
    decide ((s.ctxsIn cl).length + n * pktBits p 0x00 19 18 ≤ 8)

/-- The set would fit, by count. -/
def State.setFits (s : State) (cl : Nat) (p : List DWord) : Bool := s.clusterFit cl p && s.coresFit false cl p

/-- A cluster can admit a set at once, with no warp's runs moved (14_execution_model R318; 17_power R391). -/
def State.takes (s : State) (cl : Nat) (p : List DWord) : Bool :=
  !(s.cluster cl).asleep && s.clusterFit cl p && s.coresFit true cl p

/-- A cluster of a die comes before another in the order in which a set is offered; both by their local numbers
(14_execution_model R317). -/
def State.offeredFirst (s : State) (die : Nat) (set : TSet) (a b : Nat) : Bool :=
  match set.slice with
  | some k =>
    let r (q : Nat) : Nat := (q - 24 * k / 64) + (24 * k / 64 - q)
    decide (r a < r b) || (r a == r b && decide (a < b))
  | none => decide (s.freeSlots (coresOf (24 * die + b)) < s.freeSlots (coresOf (24 * die + a)))

/-- A cluster that comes before this one admits the set at once: the set goes there (14_execution_model R317; log entry 80). -/
def State.passedOver (s : State) (cl : Nat) (set : TSet) (p : List DWord) : Bool :=
  let d := dieOfCluster cl
  (List.range 24).any fun q => s.offeredFirst d set q (cl % 24) && s.takes (24 * d + q) p

/-- A cluster admits a set with a plan for each team, all at once (14_execution_model R318; 17_power R391). -/
def State.placeSet (s : State) (id cl : Nat) (plan : List Admit) : Option State :=
  match s.set? id with
  | none => none
  | some set =>
    match tget s.grids set.grid, set.phase with
    | some g, .queued die =>
      if dieOfCluster cl ≠ die ∨ 192 ≤ cl ∨ s.admitNext id set die = false ∨ (s.cluster cl).asleep = true ∨
          s.passedOver cl set g.pkt = true ∨ plan.length ≠ pktBits g.pkt 0x00 15 14 + 1 then none
      else
        let r := (plan.zip (List.range 4)).foldl (fun (r : Option State) p => r.bind fun s =>
          (p.1.moves.foldl (fun (r : Option State) m => r.bind (·.moveRuns m)) (some s)).bind fun s =>
            if s.fits g.pkt cl p.1 then
              some { s.invalidateFor cl p.1.cores with teams := tput s.teams p.1.teamid (Team.start g set id p.2 cl p.1) }
            else none) (some s)
        r.map fun s =>
          let s := s.modSet id fun x => { x with phase := .admitted cl, teams := plan.map (·.teamid), order := s.nextId }
          { s.modCluster cl fun c => { c with power := .active, preempt := c.preempt.filter (·.set != id) } with nextId := s.nextId + 1 }
    | _, _ => none

/-- A gated cluster wakes for a set that is held: no cluster of the die admits it at once, and of those asleep this one comes
first (17_power R391). -/
def State.wake (s : State) (cl : Nat) : State :=
  let d := dieOfCluster cl
  let held (x : TSet) : Bool := x.phase == .queued d && (tget s.grids x.grid).any fun g =>
    ((List.range 24).all fun q => !s.takes (24 * d + q) g.pkt) &&
      (List.range 24).all fun q => !(s.cluster (24 * d + q)).asleep || !s.offeredFirst d x q (cl % 24)
  if (s.cluster cl).power == .gated && s.sets.any (fun x => held x.2) then
    s.modCluster cl fun c => { c with power := .active, busyAt := c.clk }
  else s

def execClusterWake (cluster : Nat) (s : State) : Host.Outcome State Fault Refusal := .next (s.wake cluster)

/-- The event that admits a set; a plan that does not fit changes nothing. -/
def execAdmission (set cluster : Nat) (plan : List Admit) (s : State) : Host.Outcome State Fault Refusal :=
  .next ((s.placeSet set cluster plan).getD s)

end Sys2Proof.Machine
end

