-- ==== Sys2Proof/Machine/Copy.lean ====
section
/-!
DEFINITION. The copy engine: copy commands, their units and completion, tags and tag waits, tile ownership (05_copy_engine).
-/
namespace Sys2Proof.Machine

/-- The scratchpad address of a copy (05_copy_engine R115). -/
def cpSp (w : CpW) (l : List OpRec) : Nat := ((if w.az then 0 else opScal l) + w.soff.toNat * 1024) % 2 ^ 32

/-- Image bytes of a slot format (05_copy_engine R117). -/
def imageBytes (fmt : Nat) : Nat := if fmt ≤ 1 then 32768 else if fmt = 2 then 34816 else 36864

/-- A scratchpad extent lies in one team core: its decoded start, or the failing address (05_copy_engine R119 row 5). -/
def State.extent (s : State) (t a len : Nat) : Except Nat (Nat × Nat × Nat) :=
  match s.spDecode t a, s.spDecode t (a + len - 1) with
  | none, _ => .error a
  | some _, none => .error (a + len - 1)
  | some x, some y => if x.1 = y.1 ∧ x.2.1 = y.2.1 then .ok x else .error (a + len - 1)

/-- The tiles that an extent touches (05_copy_engine R119). -/
def tilesOf (x : Nat × Nat × Nat) (len : Nat) : List (Nat × Nat × Nat) :=
  let first := x.2.2 / 4096
  (List.range ((x.2.2 + len - 1) / 4096 + 1 - first)).map fun i => (x.1, x.2.1, first + i)

/-- The scratchpad address of the lowest T-owned tile of an extent that starts at address `a` (05_copy_engine R119 row 7). -/
def State.tTile (s : State) (a : Nat) (tiles : List (Nat × Nat × Nat)) : Option Nat :=
  (tiles.find? fun x => !s.tileE x.1 x.2.1 x.2.2).map fun x => a / 2 ^ 20 * 2 ^ 20 + 4096 * x.2.2

/-- One more engine command uses tiles (05_copy_engine R119 step 2). -/
def State.useTiles (s : State) (l : List (Nat × Nat × Nat)) : State :=
  l.foldl (fun s x => s.setUse x.1 x.2.1 x.2.2 (s.tileUse x.1 x.2.1 x.2.2 + 1)) s

/-- An engine command lets go of tiles; a tile that nothing uses becomes T-owned (05_copy_engine R119 step 6). -/
def State.freeTiles (s : State) (l : List (Nat × Nat × Nat)) : State :=
  l.foldl (fun s x =>
    let n := s.tileUse x.1 x.2.1 x.2.2 - 1
    let s := s.setUse x.1 x.2.1 x.2.2 n
    if n = 0 then s.setTile x.1 x.2.1 x.2.2 false else s) s

/-- Is element (row, col) of a team's accumulator region (11_matrix_engine R251)? -/
def inRegion (nb row col : Nat) : Bool := decide (row < 512) && decide (col < 512) && decide (4 * (row / 128) + col / 128 < nb)

/-- Accumulator blocks of a team. -/
def State.blocksOf (s : State) (t : Nat) : Nat := ((s.team? t).map fun x => pktBits x.pkt 0x08 11 7).getD 0

/-- The units that a cluster's copy engine has performed for a core (05_copy_engine R120). -/
def State.unitsOn (s : State) (cl core : Nat) : Nat := (s.cluster cl).cpeUnits.getD (core % 4) 0

/-- A copy command before its checks: kind, addresses, length or shape. -/
def cpAsk (w : CpW) (sub : Nat) (e : Env) (s : State) (u : UnitId) (t : Nat) : Copy :=
  let d := w.d.toNat
  let b := w.b.toNat
  let shape : Option (Nat × Nat × Int) :=
    if sub ≤ 1 ∧ w.shp = true then
      some (opScal (e.b.take 1), opScal ((e.b.drop 1).take 1), sextNat 32 (opScal ((e.b.drop 2).take 1)))
    else none
  let wix := match u with
    | .warp _ k => k
    | .ccc _ _ => 0
  let ct := 2 * bit w.rel + bit w.shp
  let slot := d % 64
  let fmt := (((s.team? t).bind fun x => x.slots[slot]?).map (·.fmt)).getD 0
  let len := if sub = 2 then imageBytes fmt
    else if sub = 3 then (b % 128 + 1) * (if ct = 0 then 512 else 256)
    else if w.li then 128 * b
    else match shape with
      | some (r, n, _) => r * n
      | none => opScal e.b
  ⟨sub, wix, s.seqOf u, s.nextId, if sub ≤ 1 then BitVec.ofNat 64 (opScal (e.d.take 2)) else 0, cpSp w e.a, (0, 0, 0), len, shape,
    sub == 1 && w.rel, if sub = 1 ∧ w.mb = true then some (BitVec.ofNat 64 (opScal (e.d.drop 2))) else none, slot, fmt,
    d % 512, b / 128 % 4 * 128, if sub = 3 then ct else 0, [], [], none, s.unitsOn (s.clusterOf u) ((s.coreOf u).getD 0)⟩

/-- Row 2: the first misaligned address (05_copy_engine R119). -/
def Copy.misaligned (k : Copy) : Option DWord :=
  if k.sp % 16 ≠ 0 then some (BitVec.ofNat 64 k.sp)
  else if k.gva.toNat % 16 ≠ 0 then some k.gva
  else match k.mbox with
    | some m => if m.toNat % 64 ≠ 0 then some m else none
    | none => none

/-- Row 3: the failing global address, shape scalar or length (05_copy_engine R116, R119). -/
def Copy.badLen (k : Copy) : Option DWord :=
  let n (x : Nat) : Option DWord := some (BitVec.ofNat 64 x)
  let shapeBad : Option DWord := match k.shape with
    | none => none
    | some (r, c, st) =>
      if r % 16 ≠ 0 ∨ r < 16 ∨ 65536 < r then n r
      else if c < 1 ∨ 4096 < c then n c
      else if st % 16 ≠ 0 then n (wrapNat 32 st) else none
  if 1 < k.sub then none
  else if 2 ^ 48 ≤ k.gva.toNat then some k.gva
  else match shapeBad with
    | some v => some v
    | none =>
      if k.len = 0 ∨ k.len % 16 ≠ 0 ∨ 393216 < k.len ∨ (k.mbox.isSome ∧ k.len < 64) then n k.len else none

/-- Row 4: the slot is not claimed (05_copy_engine R119). -/
def State.badSlot (s : State) (t k : Nat) : Bool := ((s.team? t).bind fun x => x.slots[k]?).all fun x => !x.cl

/-- Row 6: the failing row count or accumulator element (05_copy_engine R119). -/
def Copy.badRows (k : Copy) (nb rows : Nat) : Option DWord :=
  if k.sub ≠ 3 then none
  else if 512 < k.row + rows then some (BitVec.ofNat 64 (k.row + rows))
  else ((List.range rows).find? fun i => !inRegion nb (k.row + i) k.col).map fun i =>
    BitVec.ofNat 64 (k.row + i + 2 ^ 16 * k.col)

/-- The checks of a copy in their order: the cause and the value reported (05_copy_engine R119). -/
def State.cpCheck (s : State) (t rows : Nat) (k : Copy) : Except (Nat × DWord) (Nat × Nat × Nat) :=
  match k.misaligned, k.badLen with
  | some a, _ => .error (cALIGN, a)
  | none, some v => .error (cRANGE, v)
  | none, none =>
    if k.sub = 2 ∧ s.badSlot t k.slot = true then .error (cSLOT, BitVec.ofNat 64 k.slot)
    else match s.extent t k.sp k.len with
      | .error a => .error (cRANGE, BitVec.ofNat 64 a)
      | .ok x =>
        match k.badRows (s.blocksOf t) rows, s.tTile k.sp (tilesOf x k.len) with
        | some v, _ => .error (cRANGE, v)
        | none, some a => .error (cOWNER, BitVec.ofNat 64 a)
        | none, none => .ok x

/-- What a tag wait has found when it is satisfied: the tag that `tag.wany` answers, or the tag whose fault is reported, with its
cause and address (05_copy_engine R126). -/
def tagFound (n : Nat) (g : Tag) : List Nat := if g.err then [n, g.cause, g.faddr.toNat] else [n]

/-- What `tag.wany` finds among its masked tags, if it is satisfied. -/
def wanyFound (l : List (Nat × Tag)) : Option (List Nat) := (l.find? (·.2.st == 2)).map fun x => tagFound x.1 x.2

/-- What `tag.wall` finds among its masked tags, if it is satisfied: nothing, or the lowest with a fault. -/
def wallFound (l : List (Nat × Tag)) : Option (List Nat) :=
  if l.all (·.2.st == 2) then some (((l.find? (·.2.err)).map fun x => tagFound x.1 x.2).getD []) else none

/-- A fragment that waits on tags of a team core keeps what its wait has found, once it is satisfied (05_copy_engine R126). -/
def State.satMark (s : State) (t ci : Nat) (f : Frag) : Frag :=
  let keep (r : Option (List Nat)) : Frag := match r with
    | some l => { f with phase := 3, snap := l }
    | none => f
  if 2 ≤ f.phase then f
  else match f.wait with
    | some (.tagAll k m) => if k = ci then keep (wallFound (s.masked t ci m)) else f
    | some (.tagAny k m) => if k = ci then keep (wanyFound (s.masked t ci m)) else f
    | _ => f

/-- Change every fragment of a team's warps and contexts. -/
def State.modFrags (s : State) (t : Nat) (h : Frag → Frag) : State :=
  s.modTeam t fun x => { x with warps := x.warps.map (·.modFrags h), cccs := x.cccs.map fun (v : Ccc) => { v with frag := h v.frag } }

/-- Issue a copy (05_copy_engine R119). A tag that was done may have satisfied a wait. -/
def cpRun (w : CpW) (sub : Nat) (e : Env) (c : Ctx) (s : State) : Res :=
  let u := c.cur.unit
  let t := teamOf u
  let ci := s.ownCi u
  let n := w.tag.toNat
  match s.tag? t ci n with
  | none => .trap (oneTrap cRANGE (BitVec.ofNat 64 n)) s
  | some g =>
    if g.st = 1 then .wait (.tagIssue n) s
    else
      let k := cpAsk w sub e s u t
      match s.cpCheck t (w.b.toNat % 128 + 1) k with
      | .error (cause, v) => .trap (oneTrap cause v) s
      | .ok x =>
        let k := { k with at_ := x }
        let tag : Tag := ⟨1, false, false, false, sub, 0, 0, 0, some k⟩
        let s := { s.modFrags t (s.satMark t ci) with nextId := s.nextId + 1 }
        .retire ((s.modTag t ci n fun _ => tag).useTiles (tilesOf x k.len))

/-- The global address of a byte of a copy (05_copy_engine R116). -/
def Copy.gaddr (k : Copy) (i : Nat) : DWord :=
  match k.shape with
  | none => k.gva + BitVec.ofNat 64 i
  | some (r, _, st) => BitVec.ofInt 64 ((k.gva.toNat : Int) + (i / r : Nat) * st + (i % r : Nat))

/-- The units of a copy up to and with `u` write the whole 256-byte block that starts at an address (18_host_and_trust R406). -/
def Copy.coversBlock (k : Copy) (u blk : Nat) : Bool :=
  let done := min k.len (256 * (u + 1))
  let hit (a : Nat) (start : Int) (n : Nat) : Bool := decide (start ≤ a) && decide ((a : Int) < start + n)
  (List.range 16).all fun i => match k.shape with
    | none => hit (blk + 16 * i) k.gva.toNat done
    | some (r, n, st) => (List.range n).any fun j => hit (blk + 16 * i) ((k.gva.toNat : Int) + j * st) (min r (done - j * r))

/-- Units of a copy (05_copy_engine R119 step 4). -/
def Copy.units (k : Copy) : Nat := cdiv k.len 256

/-- The offsets of the 16-byte pieces of a unit. -/
def Copy.parts (k : Copy) (u : Nat) : List Nat := ((List.range 16).map fun i => 256 * u + 16 * i).filter (· < k.len)

/-- The leaves of a unit's pieces, or the cause and address of the first that fails: translation and permission first, then
check values for a read (05_copy_engine R111, R120, R121). -/
def State.unitLeaves (s : State) (t : Nat) (k : Copy) (u : Nat) : Except (Nat × DWord) (List (Nat × Leaf)) :=
  let d := dieOfCluster (((s.team? t).map (·.cluster)).getD 0)
  let o := ((s.team? t).map (·.owner)).getD 0
  let r := (k.parts u).map fun i => (i, s.access none d o (k.gaddr i) (if k.sub = 0 then .read else .write))
  let ls := r.filterMap fun x => match x.2 with
    | .ok l => some (x.1, l)
    | .error _ => none
  match r.findSome? fun x => match x.2 with
      | .error c => some (c, k.gaddr x.1)
      | .ok _ => none with
  | some f => .error f
  | none =>
    match if k.sub = 0 then ls.find? fun x => !s.blockOk x.2.key (x.2.at_ d / 256) else none with
    | some x => .error (cINTEG, BitVec.ofNat 64 ((k.gaddr x.1).toNat / 256 * 256))
    | none => .ok ls

/-- A unit may not be performed yet, whatever bytes it touches: an acquire or a fence of the issuing warp that precedes the copy is
not yet performed (06_consistency R143, R144 column cp). -/
def State.unitHeld (s : State) (t : Nat) (k : Copy) : Bool :=
  let u : UnitId := .warp t k.wix
  s.fenceHold u k.seq || (((s.regs? u).map (·.ops)).getD []).any fun o => decide (o.seq < k.seq) && s.acqOpen u o 0

/-- A unit must wait for its global bytes: for a lookup, for accesses of the issuing warp to them that precede the copy, or for
a locked line that it reads (03_memory_tiers R64; 05_copy_engine R122 rule 3; 06_consistency R145 note 4, R147). -/
def State.unitWaits (s : State) (t : Nat) (k : Copy) (ls : List (Nat × Leaf)) : Bool :=
  let d := dieOfCluster (((s.team? t).map (·.cluster)).getD 0)
  let u : UnitId := .warp t k.wix
  ls.any fun x => (k.sub == 0 && x.2.repl && s.lockedLine d x.2.pa) ||
    (s.writes.any fun w => w.src == some u && decide (w.seq < k.seq) && w.tgt == .glob && !w.dies.contains d &&
      meets w.addr w.bytes.length x.2.pa 16) ||
    (((s.regs? u).map (·.ops)).getD []).any fun o => decide (o.seq < k.seq) && o.accs.any fun a =>
      a.tgt == .glob && meets a.addr a.len x.2.pa 16 && (tget o.vals a.lane).isNone

/-- Bytes of converted or copied accumulator elements (05_copy_engine R118). -/
def State.accBytes (s : State) (t : Nat) (k : Copy) (i n : Nat) : List Byte :=
  let es := if k.ct = 0 then 4 else 2
  (List.range (n / es)).flatMap fun j =>
    let x := i / es + j
    let v := (s.accElem t (512 * (k.row + x / 128) + k.col + x % 128)).toNat
    toBytes es (if k.ct = 0 then v else (fcvtFF (if k.ct = 1 then f16 else bf16) 0 (fdec f32 v)).1)

/-- A 16-byte piece of unit `q` of a `cp.s2g` as a write. -/
def State.pieceWrite (s : State) (t : Nat) (k : Copy) (q i : Nat) (l : Leaf) : Write :=
  let u : UnitId := .warp t k.wix
  let va := k.gaddr i
  { blankWrite none k.order (s.dieOf u) (s.ownerOf u) va l.pa l.key l.repl l.pg with
    bytes := s.spBytes k.at_.1 k.at_.2.1 (k.at_.2.2 + i) 16, whole := k.coversBlock q (va.toNat / 256 * 256) }

/-- Writes to one line of a replicated page go together: they commit as one (06_consistency R146). Newest first. -/
def joinLine (acc : List Write) (w : Write) : List Write :=
  match acc with
  | p :: r =>
    if p.repl && w.repl && p.key == w.key && w.addr == p.addr + p.bytes.length && p.addr / 128 == w.addr / 128 then
      { p with bytes := p.bytes ++ w.bytes } :: r
    else w :: acc
  | [] => [w]

/-- Add the writes of one put or copy; with the last part of a whole-block write its earlier parts count as such
(18_host_and_trust R406). -/
def State.addParts (s : State) (ws : List Write) : State :=
  let mark (e : Write) : Write :=
    if ws.any fun w => w.whole && w.src == e.src && w.seq == e.seq && w.addr / 256 == e.addr / 256 then { e with whole := true } else e
  { s with pend := s.pend.map mark }.addWrites (ws.foldl joinLine []).reverse

/-- Perform one unit whose pieces all pass (05_copy_engine R111, R118, R119): the state and the writes made. -/
def State.unitGo (s : State) (t : Nat) (k : Copy) (u : Nat) (ls : List (Nat × Leaf)) : State × List Nat :=
  let d := dieOfCluster (((s.team? t).map (·.cluster)).getD 0)
  let x := k.at_
  let i := 256 * u
  let n := min 256 (k.len - i)
  if k.sub = 0 then (s.setSp x.1 x.2.1 (x.2.2 + i) (ls.flatMap fun p => s.dieBytes d p.2.key (p.2.at_ d) 16), [])
  else if k.sub = 1 then
    let s1 := s.addParts (ls.map fun p => s.pieceWrite t k u p.1 p.2)
    (s1, (List.range (s1.nextId - s.nextId)).map (s.nextId + ·))
  else if k.sub = 2 then
    (s.modTeam t fun y => { y with slots := lmod y.slots k.slot fun z => { z with bytes := putBytes z.bytes i (s.spBytes x.1 x.2.1 (x.2.2 + i) n) } }, [])
  else (s.setSp x.1 x.2.1 (x.2.2 + i) (s.accBytes t k i n), [])

/-- A copy ends: its tiles are let go and its tag becomes done, with a fault or without (05_copy_engine R119, R121). -/
def State.endCopy (s : State) (t ci n : Nat) (k : Copy) (fault : Option (Nat × DWord)) : State :=
  (s.freeTiles (tilesOf k.at_ k.len)).modTag t ci n fun g =>
    { g with st := 2, halt := false, dh := false, err := fault.isSome, cause := (fault.map (·.1)).getD 0, faddr := (fault.map (·.2)).getD 0, cp := none }

/-- Bytes of the next burst of a copy (17_power R387). -/
def Copy.burst (k : Copy) (prog : Nat) : Nat := min (16 * 256) (k.len - 256 * prog)

/-- A copy of another class waits for the engine (17_power R388). -/
def State.copyRivals (s : State) (cl cls : Nat) : Bool :=
  s.teams.any fun t => t.2.cluster == cl && t.2.cur != cls && t.2.tags.any fun l => l.any fun g => g.st == 1 && !g.halt && !g.dh

/-- The copy may ask for its next burst's current: no budget holds it (17_power R388). -/
def State.copyAsk (s : State) (t : Nat) (k : Copy) (prog : Nat) : State :=
  let cl := ((s.team? t).map (·.cluster)).getD 0
  let cls := s.curOf t
  if s.budgetHeld cl cls (256 * bitsOf (s.budget cl cls) 31 16) ((s.cluster cl).copied.getD cls 0) (s.copyRivals cl cls) then s
  else s.curAsk cl .cpe t k.order (min 16 (k.units - prog)) (k.burst prog)

/-- A pending copy of a cluster that its engine can serve: team, team core, tag, physical core within the cluster, and the copy. -/
structure Job where
  t    : Nat
  ci   : Nat
  n    : Nat
  core : Nat
  cp   : Copy
  deriving DecidableEq, Repr

/-- No unit of the copy is left to perform: the last one is performed, or one has failed (05_copy_engine R119, R121). -/
def Copy.ended (k : Copy) (prog : Nat) : Bool := k.fault.isSome || decide (k.units ≤ prog)

/-- The copies of a cluster with units to perform: pending, not halted, their tiles there (05_copy_engine R120, R127). -/
def State.jobs (s : State) (cl : Nat) : List Job :=
  s.teams.flatMap fun p => if p.2.cluster != cl then [] else
    p.2.cis.flatMap fun ci => ((List.range 64).zip (p.2.tags.getD ci [])).filterMap fun g =>
      match g.2.cp with
      | none => none
      | some k => if g.2.st == 1 && !g.2.halt && !g.2.dh && !k.ended g.2.prog && !s.coreSaved k.at_.1 k.at_.2.1 then
          some ⟨p.1, ci, g.1, p.2.cores.getD ci 0 % 4, k⟩ else none

/-- The copy of a core that is served next (05_copy_engine R120): the oldest, but the one that has waited longest where going on
with the oldest would leave some copy without a unit among 64 of its core's (log entry 75). `units`: the core's units so far. -/
def serveNext (units : Nat) (l : List Job) : Option Job :=
  let old := l.foldl (fun (r : Option Job) x => match r with
    | none => some x
    | some y => if x.cp.order < y.cp.order then some x else some y) none
  let late := l.foldl (fun (r : Option Job) x => match r with
    | none => some x
    | some y => if x.cp.last < y.cp.last then some x else some y) none
  let due (k : Nat) : Nat := (l.filter fun x => some x != old && decide (64 - (units - x.cp.last) ≤ k)).length
  if (List.range 64).any fun k => decide (k < due k) then late else old

/-- The copy that a cluster's engine serves next (05_copy_engine R120): the one whose burst goes on, else the next core's in turn. -/
def State.nextJob (s : State) (cl : Nat) : Option Job :=
  let c := s.cluster cl
  let l := s.jobs cl
  match l.find? fun x => (c.held ++ c.reqs).any fun r => r.who == .cpe && r.tag == x.cp.order with
  | some x => some x
  | none => ((List.range 4).map fun i => (c.cpeTurn + i) % 4).findSome? fun core =>
      serveNext (c.cpeUnits.getD core 0) (l.filter (·.core == core))

/-- A unit of a copy has been performed: the engine's counts, and the next core in turn when a burst ends (05_copy_engine R120). -/
def State.unitDone (s : State) (cl core : Nat) : State :=
  let s := (s.modCluster cl fun c => { c with cpeUnits := lmod c.cpeUnits core (· + 1) }).curUse cl .cpe
  if (s.curHeld cl .cpe).isSome then s else s.modCluster cl fun c => { c with cpeTurn := (core + 1) % 4 }

/-- One unit of a copy, if the engine serves it next (05_copy_engine R119 step 4, R120, R121). The first unit of a burst asks for
current and waits for it. -/
def State.copyUnit (s : State) (t ci n : Nat) : State :=
  let cl := ((s.team? t).map (·.cluster)).getD 0
  match s.nextJob cl, s.tag? t ci n with
  | some j, some g =>
    let k := j.cp
    if (j.t, j.ci, j.n) ≠ (t, ci, n) then s
    else if (s.curHeld cl .cpe).all (·.tag != k.order) then s.copyAsk t k g.prog
    else if s.unitHeld t k then s
    else
      let go (ls : List (Nat × Leaf)) : State :=
        let r := s.unitGo t k g.prog ls
        let head := if g.prog = 0 then s.spBytes k.at_.1 k.at_.2.1 k.at_.2.2 64 else k.head
        (r.1.modTag t ci n fun g => { g with prog := g.prog + 1, cp := some { k with
          writes := k.writes ++ r.2, head := head, last := s.unitsOn cl j.core + 1 } }).unitDone cl j.core
      if 1 < k.sub then go []
      else if (k.parts g.prog).any fun i =>
          s.lookupOpen none (dieOfCluster cl) (((s.team? t).map (·.owner)).getD 0) (k.gaddr i) then s
      else match s.unitLeaves t k g.prog with
        | .error f => (s.modTag t ci n fun g => { g with cp := some { k with fault := some f } }).curEnd cl .cpe k.order
        | .ok ls => if s.unitWaits t k ls then s else go ls
  | _, _ => s

/-- The ring entry of a copy post that fails (14_execution_model R324; 15_traps_preemption R346). -/
def State.postFailed (s : State) (t : Nat) (p : CPost) : State :=
  let cl := ((s.team? t).map (·.cluster)).getD 0
  let o := ((s.team? t).map (·.owner)).getD 0
  s.ringPut (.cpe cl) ⟨0, 7, o, 1023, cl, 0, false, 0, p.addr, BitVec.ofNat 64 p.tag, t, []⟩

/-- Make a copy's post if it can be made now (05_copy_engine R119 step 8; 14 R324). -/
def State.makePost (s : State) (t : Nat) (p : CPost) : Option State :=
  let o := ((s.team? t).map (·.owner)).getD 0
  let cl := ((s.team? t).map (·.cluster)).getD 0
  let fail : Option State := if s.ringBusy (.cpe cl) then none else some (s.postFailed t p)
  if p.writes.any s.onWay then none
  else match if p.addr.toNat < 2 ^ 48 then s.mboxOf o p.addr false else none with
    | none => fail
    | some m =>
      if s.mboxRemote m then some (s.postRemote m p.addr p.data)
      else match s.postLocal m o p.data with
        | .noCredit => fail
        | .waits => none
        | .refused s' => some s'
        | .launched s' => some s'

/-- The words of a run of bytes. -/
def wordsOf : List Byte → List Word
  | a :: b :: c :: d :: r => BitVec.ofNat 32 (ofBytes [a, b, c, d]) :: wordsOf r
  | _ => []

/-- The end of a copy whose units are performed or have failed, and a copy's post (05_copy_engine R119 steps 5 to 8, R121, R122
rule 4). -/
def State.copyCompletion (s : State) (t ci n : Nat) : State :=
  match (((s.team? t).map (·.posts)).getD []).find? fun p => p.ci == ci && p.tag == n with
  | some p => ((s.makePost t p).map fun s => s.modTeam t fun x => { x with posts := x.posts.erase p }).getD s
  | none =>
    match s.tag? t ci n with
    | none => s
    | some g =>
      match g.cp with
      | none => s
      | some k =>
        let d := dieOfCluster (((s.team? t).map (·.cluster)).getD 0)
        if g.st ≠ 1 ∨ g.halt = true ∨ g.dh = true ∨ k.ended g.prog = false ∨ k.writes.all (s.appliedAt d) = false ∨
            (k.fault = none ∧ k.rel = true ∧ k.writes.any s.onWay = true) then s
        else
          let s := s.endCopy t ci n k k.fault
          match if k.fault = none then k.mbox else none with
          | none => s
          | some m => s.modTeam t fun x => { x with posts := x.posts ++ [⟨ci, n, m, wordsOf k.head, k.writes⟩] }

/-- `cp.halt` (05_copy_engine R125); a copy whose last unit is performed, or that has failed, completes instead. RANGE of the two
control forms has no fault record (log entry 74). -/
def cpHaltRun (tag : BitVec 6) (c : Ctx) (s : State) : Res :=
  let t := teamOf c.cur.unit
  let ci := s.ownCi c.cur.unit
  match s.tag? t ci tag.toNat with
  | none => .trap (plainTrap cRANGE) s
  | some g =>
    if g.st ≠ 1 ∨ g.halt = true then .retire s
    else if g.cp.any fun k => k.ended g.prog then .wait (.halt tag.toNat) s
    else
      let s := match g.cp with
        | some k => s.curEnd (s.clusterOf c.cur.unit) .cpe k.order
        | none => s
      .retire (s.modTag t ci tag.toNat fun g => { g with halt := true })

/-- `cp.go` (05_copy_engine R125). -/
def cpGoRun (tag : BitVec 6) (c : Ctx) (s : State) : Res :=
  let t := teamOf c.cur.unit
  let ci := s.ownCi c.cur.unit
  match s.tag? t ci tag.toNat with
  | none => .trap (plainTrap cRANGE) s
  | some g => .retire (if g.st = 1 then s.modTag t ci tag.toNat fun g => { g with halt := false } else s)

/-- The team core that a tag form acts on, or the cause of its trap (05_copy_engine R126). -/
def State.tagCi (s : State) (u : UnitId) (w : TagW) : Except Nat Nat :=
  if w.xc then
    if w.ci.toNat < ((s.team? (teamOf u)).map fun x => x.cores.length).getD 0 then .ok w.ci.toNat else .error cRANGE
  else if isCcc u then .error cILLCTX else .ok (s.ownCi u)

/-- The mask of a tag form. -/
def tagMask (w : TagW) (e : Env) : Nat := if w.mi then w.imm.toNat else opScal e.a

/-- The team core and mask of a tag form, checked (05_copy_engine R126). -/
def State.tagArgs (s : State) (u : UnitId) (w : TagW) (e : Env) : Except Nat (Nat × Nat) :=
  match s.tagCi u w with
  | .error k => .error k
  | .ok ci =>
    let m := tagMask w e
    if 2 ^ (s.tags (teamOf u) ci).length ≤ m then .error cRANGE else .ok (ci, m)

/-- The trap of a wait that has found a copy's fault: the tag, its cause and address (05_copy_engine R126; 15 R331). -/
def tagTrap (n cause : Nat) (faddr : DWord) : TrapInfo :=
  ⟨cause, if cause = cINTEG then faddr else BitVec.ofNat 64 n, [(0, cause, faddr)], 0⟩

/-- What a tag wait comes to from what it has found: the fault's trap, or `k`. -/
def tagEnd (found : List Nat) (s : State) (k : Res) : Res :=
  match found with
  | [n, cause, a] => .trap (tagTrap n cause (BitVec.ofNat 64 a)) s
  | _ => k

/-- ORPHAN with its AUX (15_traps_preemption R331). -/
def orphan (aux : Nat) : TrapInfo := plainTrap cORPHAN (BitVec.ofNat 64 aux)

/-- What a marked tag wait has kept: the AUX of its failure, or what it found (05_copy_engine R126). -/
def State.kept (s : State) (c : Ctx) : List Nat := ((s.frag? c.cur).map (·.snap)).getD []

/-- `tag.wany` (05_copy_engine R126); it waits for the warp's acquires and fences (06_consistency R143). RANGE and ILLCTX of the tag
forms have no fault record (log entry 74). -/
def tagWanyRun (w : TagW) (e : Env) (c : Ctx) (s : State) : Res :=
  match s.tagArgs c.cur.unit w e with
  | .error k => .trap (plainTrap k) s
  | .ok (ci, m) =>
    let l := s.masked (teamOf c.cur.unit) ci m
    let answer (r : List Nat) : Res := tagEnd r s (.retire (s.setScal c.cur.unit e.dst [BitVec.ofNat 32 (r.headD 0)]))
    if c.phase = 2 then .trap (orphan ((s.kept c).headD 0)) s
    else if s.acqPending c.cur.unit then .wait .stall s
    else if c.phase = 3 then answer (s.kept c)
    else match wanyFound l with
      | some r => answer r
      | none =>
        if l.all (·.2.st == 0) then .trap (orphan ((l.head?.map (·.1)).getD 64)) s else .wait (.tagAny ci m) s

/-- `tag.wall` (05_copy_engine R126), as `tag.wany`. -/
def tagWallRun (w : TagW) (e : Env) (c : Ctx) (s : State) : Res :=
  match s.tagArgs c.cur.unit w e with
  | .error k => .trap (plainTrap k) s
  | .ok (ci, m) =>
    let l := s.masked (teamOf c.cur.unit) ci m
    if c.phase = 2 then .trap (orphan ((s.kept c).headD 0)) s
    else if s.acqPending c.cur.unit then .wait .stall s
    else if c.phase = 3 then tagEnd (s.kept c) s (.retire s)
    else match l.find? (·.2.st == 0), wallFound l with
      | some (n, _), _ => .trap (orphan n) s
      | none, some r => tagEnd r s (.retire s)
      | none, none => .wait (.tagAll ci m) s

/-- `tag.ffr` (05_copy_engine R126). -/
def tagFfrRun (w : TagW) (e : Env) (c : Ctx) (s : State) : Res :=
  match s.tagArgs c.cur.unit w e with
  | .error k => .trap (plainTrap k) s
  | .ok (ci, m) =>
    let n := (((s.masked (teamOf c.cur.unit) ci m).find? (·.2.st == 2)).map fun x => BitVec.ofNat 32 x.1).getD 0xFFFFFFFF
    .retire (s.setScal c.cur.unit e.dst [n])

/-- What a waiting fragment whose wait was not satisfied becomes when tags go idle: its wait has failed if a masked tag of `tag.wall`, or every masked
tag of `tag.wany`, is idle at that instant (05_copy_engine R126). -/
def State.orphanMark (s : State) (t ci : Nat) (f : Frag) : Frag :=
  let mark (n : Nat) : Frag := { f with phase := 2, snap := [n] }
  if 2 ≤ f.phase then f
  else match f.wait with
    | some (.tagAll k m) =>
      if k ≠ ci then f else match (s.masked t ci m).find? (·.2.st == 0) with
        | some x => mark x.1
        | none => f
    | some (.tagAny k m) =>
      if k = ci ∧ (s.masked t ci m).all (·.2.st == 0) = true then mark (((s.masked t ci m).head?.map (·.1)).getD 64) else f
    | _ => f

/-- `tag.clr` (05_copy_engine R113, R126). -/
def tagClrRun (w : TagW) (e : Env) (c : Ctx) (s : State) : Res :=
  let t := teamOf c.cur.unit
  match s.tagArgs c.cur.unit w e with
  | .error k => .trap (plainTrap k) s
  | .ok (ci, m) =>
    let s1 := (s.masked t ci m).foldl (fun s x =>
      if x.2.st = 2 then s.modTag t ci x.1 fun g => { g with st := 0, err := false, cause := 0 } else s) s
    .retire (s1.modFrags t fun f => s1.orphanMark t ci (s.satMark t ci f))

/-- The state word of a tag (05_copy_engine R114). -/
def Tag.word (g : Tag) : Word :=
  BitVec.ofNat 32 (pack [(2, g.st), (1, bit g.halt), (1, bit g.dh), (1, bit g.err), (3, g.dir), (8, g.cause), (11, g.prog)])

/-- `tag.rd` (05_copy_engine R126). -/
def tagRdRun (w : TagW) (e : Env) (c : Ctx) (s : State) : Res :=
  let u := c.cur.unit
  match s.tagCi u w with
  | .error k => .trap (plainTrap k) s
  | .ok ci =>
    let l := s.tags (teamOf u) ci
    if w.imm.getLsbD 15 then
      let v := ((List.range 64).zip l).foldl (fun a x => if x.2.st = 2 then a + 2 ^ x.1 else a) 0
      .retire (s.setScal u e.dst [BitVec.ofNat 32 v, BitVec.ofNat 32 (v / 2 ^ 32)])
    else match l[w.imm.toNat % 64]? with
      | none => .trap (plainTrap cRANGE) s
      | some g => .retire (s.setScal u e.dst [g.word])

/-- The tiles of an ownership form: team, team core, first tile, count; or cause and address (05_copy_engine R128). -/
def State.ownArgs (s : State) (t : Nat) (w : OwnW) (e : Env) (give : Bool) : Except (Nat × Nat) (Nat × Nat × Nat × Nat) :=
  let a := ((if w.az then 0 else opScal e.a) + w.toff.toNat * 4096) % 2 ^ 32
  let n := w.nt.toNat + 1
  if a % 4096 ≠ 0 then .error (cALIGN, a)
  else match s.spDecode t (a + 0x100) with
    | none => .error (cRANGE, a)
    | some (g, ci, off) =>
      let first := off / 4096
      let total := ((s.team? g).map Team.tiles).getD 0
      if total < first + n ∨ (give = true ∧ ci = 0 ∧ first = 0) then .error (cRANGE, a) else .ok (g, ci, first, n)

/-- `own.give` (05_copy_engine R128, R129): it waits for the thread accesses to the tiles, and for the warp's own scratchpad
accesses, acquires and fences (06_consistency R143). -/
def ownGiveRun (w : OwnW) (e : Env) (c : Ctx) (s : State) : Res :=
  match s.ownArgs (teamOf c.cur.unit) w e true with
  | .error (k, a) => .trap (oneTrap k (BitVec.ofNat 64 a)) s
  | .ok (g, ci, first, n) =>
    if s.giveBusy c.cur.unit g ci first n then .wait (.give g ci first n) s
    else .retire ((List.range n).foldl (fun s i => s.setTile g ci (first + i) true) s)

/-- `own.test` (05_copy_engine R128, R130). -/
def ownTestRun (w : OwnW) (e : Env) (c : Ctx) (s : State) : Res :=
  match s.ownArgs (teamOf c.cur.unit) w e false with
  | .error (k, a) => .trap (oneTrap k (BitVec.ofNat 64 a)) s
  | .ok (g, ci, first, n) =>
    .retire (s.setScal c.cur.unit e.dst [laneMap fun i => decide (i < n) && !s.tileE g ci (first + i)])

/-- The forms as instructions, and the engine's events. -/
def execCpG2s (w : CpW) (s : State) : Host.Outcome State Fault Refusal := issueOps s (.cpG2s w) (cpRun w 0)
def execCpS2g (w : CpW) (s : State) : Host.Outcome State Fault Refusal := issueOps s (.cpS2g w) (cpRun w 1)
def execCpS2o (w : CpW) (s : State) : Host.Outcome State Fault Refusal := issueOps s (.cpS2o w) (cpRun w 2)
def execCpA2s (w : CpW) (s : State) : Host.Outcome State Fault Refusal := issueOps s (.cpA2s w) (cpRun w 3)
def execCpHalt (tag : BitVec 6) (s : State) : Host.Outcome State Fault Refusal := issue s (.cpHalt tag) (cpHaltRun tag)
def execCpGo (tag : BitVec 6) (s : State) : Host.Outcome State Fault Refusal := issue s (.cpGo tag) (cpGoRun tag)
def execTagWany (w : TagW) (s : State) : Host.Outcome State Fault Refusal := issueOps s (.tagWany w) (tagWanyRun w)
def execTagWall (w : TagW) (s : State) : Host.Outcome State Fault Refusal := issueOps s (.tagWall w) (tagWallRun w)
def execTagFfr (w : TagW) (s : State) : Host.Outcome State Fault Refusal := issueOps s (.tagFfr w) (tagFfrRun w)
def execTagClr (w : TagW) (s : State) : Host.Outcome State Fault Refusal := issueOps s (.tagClr w) (tagClrRun w)
def execTagRd (w : TagW) (s : State) : Host.Outcome State Fault Refusal := issueOps s (.tagRd w) (tagRdRun w)
def execOwnGive (w : OwnW) (s : State) : Host.Outcome State Fault Refusal := issueOps s (.ownGive w) (ownGiveRun w)
def execOwnTest (w : OwnW) (s : State) : Host.Outcome State Fault Refusal := issueOps s (.ownTest w) (ownTestRun w)
def execCopyUnit (team ci tag : Nat) (s : State) : Host.Outcome State Fault Refusal := .next (s.copyUnit team ci tag)
def execCopyCompletion (team ci tag : Nat) (s : State) : Host.Outcome State Fault Refusal := .next (s.copyCompletion team ci tag)

end Sys2Proof.Machine
end

