-- ==== Sys2Proof/Machine/Sign.lean ====
section
/-!
DEFINITION. The digests and signatures that firmware is checked with: SHA-256, SHA-384 and SHA-512, RSASSA-PSS with RSA-3072 and
SHA-384, and SLH-DSA-SHA2-192s (18_host_and_trust R402, R404). The spec names these algorithms; what each computes is taken from
FIPS 180-4, PKCS #1 version 2.2 and FIPS 205 (log entry 13).
-/
namespace Sys2Proof.Machine

/-- The value of big-endian bytes. -/
def beNat (l : List Byte) : Nat := l.foldl (fun n b => 256 * n + b.toNat) 0

/-- The `n` low bytes of `x`, the most significant first. -/
def beBytes (n x : Nat) : List Byte := (toBytes n x).reverse

/-- Exactly `n` bytes: the first ones of a list, zeros behind them. -/
def fit (n : Nat) (l : List Byte) : List Byte := (List.range n).map fun i => l.getD i 0

/-- The bytes from `k` on, `n` of them. -/
def slice (l : List Byte) (k n : Nat) : List Byte := (l.drop k).take n

/-- The greatest `r + t` below `r + 2^b` whose `n`-th power is at most `x`. -/
def rootFrom (n x : Nat) : Nat → Nat → Nat
  | 0, r => r
  | b + 1, r => rootFrom n x b (if (r + 2 ^ b) ^ n ≤ x then r + 2 ^ b else r)

/-- The first `w` bits of the fraction of the `n`-th root of a number below 512. -/
def rootBits (n w p : Nat) : BitVec w := BitVec.ofNat w (rootFrom n (p * 2 ^ (n * w)) (w + 5) 0)

/-- The first eighty primes. -/
def primes : List Nat := (List.range 410).filter fun n => decide (1 < n) && (List.range n).all fun d => decide (d < 2) || n % d != 0

/-- The parameters of a SHA-2 function of word size `w`: rounds, and the distances of its four bit functions. -/
structure Sha where
  w      : Nat
  rounds : Nat
  big0   : Nat × Nat × Nat
  big1   : Nat × Nat × Nat
  small0 : Nat × Nat × Nat
  small1 : Nat × Nat × Nat
  deriving DecidableEq, Repr

/-- The functions on 32-bit and on 64-bit words. -/
def sha32 : Sha := ⟨32, 64, (2, 13, 22), (6, 11, 25), (7, 18, 3), (17, 19, 10)⟩
def sha64 : Sha := ⟨64, 80, (28, 34, 39), (14, 18, 41), (1, 8, 7), (19, 61, 6)⟩

/-- The sum of three rotations. -/
def rot3 {w : Nat} (k : Nat × Nat × Nat) (x : BitVec w) : BitVec w := x.rotateRight k.1 ^^^ x.rotateRight k.2.1 ^^^ x.rotateRight k.2.2

/-- The sum of two rotations and a shift. -/
def rot2 {w : Nat} (k : Nat × Nat × Nat) (x : BitVec w) : BitVec w := x.rotateRight k.1 ^^^ x.rotateRight k.2.1 ^^^ (x >>> k.2.2)

/-- The message schedule, its last word first, from the block's words in the same order. -/
def Sha.schedule (p : Sha) : Nat → List (BitVec p.w) → List (BitVec p.w)
  | 0, l => l
  | n + 1, l =>
    Sha.schedule p n ((rot2 p.small1 (l.getD 1 0) + l.getD 6 0 + rot2 p.small0 (l.getD 14 0) + l.getD 15 0) :: l)

/-- FIPS 180-4's Ch and Maj: each bit of the first argument chooses a bit; each bit is the majority of three. -/
def shaCh {w : Nat} (x y z : BitVec w) : BitVec w := (x &&& y) ^^^ (~~~x &&& z)
def shaMaj {w : Nat} (x y z : BitVec w) : BitVec w := (x &&& y) ^^^ (x &&& z) ^^^ (y &&& z)

/-- One round on the eight working variables. -/
def Sha.round (p : Sha) (v : List (BitVec p.w)) (k x : BitVec p.w) : List (BitVec p.w) :=
  let var (i : Nat) : BitVec p.w := v.getD i 0
  let t := var 7 + rot3 p.big1 (var 4) + shaCh (var 4) (var 5) (var 6) + k + x
  (t + rot3 p.big0 (var 0) + shaMaj (var 0) (var 1) (var 2)) :: v.take 3 ++ (var 3 + t) :: (v.drop 4).take 3

/-- The round constants. -/
def Sha.consts (p : Sha) : List (BitVec p.w) := (primes.take p.rounds).map (rootBits 3 p.w)

/-- Bytes of a word. -/
def Sha.wb (p : Sha) : Nat := p.w / 8

/-- The hash value after one more block. -/
def Sha.block (p : Sha) (ks h : List (BitVec p.w)) (m : List Byte) : List (BitVec p.w) :=
  let x := (List.range 16).map fun i => BitVec.ofNat p.w (beNat (slice m (p.wb * i) p.wb))
  let sched := (p.schedule (p.rounds - 16) x.reverse).reverse
  (h.zip ((ks.zip sched).foldl (fun v e => p.round v e.1 e.2) h)).map fun e => e.1 + e.2

/-- The hash value after the blocks of a padded message. -/
def Sha.blocks (p : Sha) (ks : List (BitVec p.w)) : Nat → List (BitVec p.w) → List Byte → List (BitVec p.w)
  | 0, h, _ => h
  | n + 1, h, m => Sha.blocks p ks n (p.block ks h m) (m.drop (16 * p.wb))

/-- A message with its padding. -/
def Sha.pad (p : Sha) (m : List Byte) : List Byte :=
  let b := 16 * p.wb
  m ++ 0x80 :: List.replicate ((2 * b - (m.length + 1 + 2 * p.wb) % b) % b) 0 ++ beBytes (2 * p.wb) (8 * m.length)

/-- The digest of a message from a first hash value. -/
def Sha.digest (p : Sha) (h0 : List (BitVec p.w)) (m : List Byte) : List Byte :=
  let m := p.pad m
  (p.blocks p.consts (m.length / (16 * p.wb)) h0 m).flatMap fun x => beBytes p.wb x.toNat

def sha256 (m : List Byte) : List Byte := sha32.digest ((primes.take 8).map (rootBits 2 32)) m
def sha512 (m : List Byte) : List Byte := sha64.digest ((primes.take 8).map (rootBits 2 64)) m
def sha384 (m : List Byte) : List Byte := (sha64.digest (((primes.drop 8).take 8).map (rootBits 2 64)) m).take 48

/-- The mask of `n` bytes that MGF1 makes from a seed. -/
def mgf1 (hash : List Byte → List Byte) (hlen : Nat) (seed : List Byte) (n : Nat) : List Byte :=
  ((List.range (cdiv n hlen)).flatMap fun c => hash (seed ++ beBytes 4 c)).take n

/-- A power modulo `n`, with `fuel` bits of exponent. -/
def powMod (n b : Nat) : Nat → Nat → Nat
  | 0, _ => 1 % n
  | fuel + 1, e => let h := powMod n b fuel (e / 2); if e % 2 = 1 then h * h % n * b % n else h * h % n

/-- RSASSA-PSS verification with RSA-3072, SHA-384, MGF1 with SHA-384 and a salt of 48 bytes: `key` is the modulus, most
significant byte first, then the exponent 65,537 (18_host_and_trust R402, R404). -/
def rsaVerify (key msg sig : List Byte) : Bool :=
  let n := beNat (key.take 384)
  let em := beBytes 384 (powMod n (beNat sig) 17 65537)
  let masked := em.take 335
  let h := slice em 335 48
  let db := match List.zipWith (· ^^^ ·) masked (mgf1 sha384 48 h 335) with
    | [] => []
    | b :: r => (b &&& 0x7F) :: r
  key.length == 400 && decide (2 ^ 3071 ≤ n) && sig.length == 384 && decide (beNat sig < n) &&
    em.getLast? == some 0xBC && !(masked.headD 0).getLsbD 7 && db.take 287 == List.replicate 286 0 ++ [1] &&
    h == sha384 (List.replicate 8 0 ++ sha384 msg ++ db.drop 287)

/-- The part of a hash address that changes within a subtree: layer, tree, type and its three words (FIPS 205, compressed). -/
structure HashAdr where
  layer : Nat
  tree  : Nat
  kind  : Nat
  a     : Nat
  b     : Nat
  c     : Nat
  deriving DecidableEq, Repr

/-- A compressed address. -/
def HashAdr.bytes (d : HashAdr) : List Byte :=
  beBytes 1 d.layer ++ beBytes 8 d.tree ++ beBytes 1 d.kind ++ beBytes 4 d.a ++ beBytes 4 d.b ++ beBytes 4 d.c

/-- The hash of one 24-byte value, and that of several. -/
def slhF (seed : List Byte) (d : HashAdr) (m : List Byte) : List Byte :=
  (sha256 (seed ++ List.replicate 40 0 ++ d.bytes ++ m)).take 24
def slhT (seed : List Byte) (d : HashAdr) (m : List Byte) : List Byte :=
  (sha512 (seed ++ List.replicate 104 0 ++ d.bytes ++ m)).take 24

/-- `n` digits of `b` bits from the front of bytes. -/
def digits (l : List Byte) (b n : Nat) : List Nat :=
  (List.range n).map fun i => beNat l / 2 ^ (8 * l.length - b * (i + 1)) % 2 ^ b

/-- The root of a tree from a node of it and the authentication path above: `idx` the node's number, `ht` its height. -/
def climb (seed : List Byte) (d : HashAdr) : Nat → Nat → Nat → List Byte → List Byte → List Byte
  | 0, _, _, _, node => node
  | n + 1, ht, idx, path, node =>
    let sib := path.take 24
    climb seed d n (ht + 1) (idx / 2) (path.drop 24)
      (slhT seed { d with b := ht + 1, c := idx / 2 } (if idx % 2 = 0 then node ++ sib else sib ++ node))

/-- The end of a chain from its step `i` on. -/
def chainEnd (seed : List Byte) (d : HashAdr) : Nat → Nat → List Byte → List Byte
  | 0, _, x => x
  | n + 1, i, x => chainEnd seed d n (i + 1) (slhF seed { d with c := i } x)

/-- The one-time key that a signature of 51 chains gives for a 24-byte message. -/
def wotsKey (seed : List Byte) (d : HashAdr) (sig m : List Byte) : List Byte :=
  let lo := digits m 4 48
  let ds := lo ++ digits (beBytes 2 (16 * (lo.map (15 - ·)).sum)) 4 3
  slhT seed { d with kind := 1 } ((ds.zip (List.range 51)).flatMap fun e =>
    chainEnd seed { d with b := e.2 } (15 - e.1) e.1 (slice sig (24 * e.2) 24))

/-- The root of a subtree of height 9 from its signature, 60 values, of a message by its leaf `idx`. -/
def xmssRoot (seed : List Byte) (layer tree idx : Nat) (sig m : List Byte) : List Byte :=
  climb seed ⟨layer, tree, 2, 0, 0, 0⟩ 9 0 idx (sig.drop (24 * 51)) (wotsKey seed ⟨layer, tree, 0, idx, 0, 0⟩ sig m)

/-- The root of the hypertree, from layer `layer` up. -/
def hyperRoot (seed : List Byte) : Nat → Nat → Nat → Nat → List Byte → List Byte → List Byte
  | 0, _, _, _, _, m => m
  | n + 1, layer, tree, idx, sig, m =>
    hyperRoot seed n (layer + 1) (tree / 512) (tree % 512) (sig.drop (24 * 60)) (xmssRoot seed layer tree idx sig m)

/-- The key of the 17 trees of height 14 that their signature gives for 30 bytes of a digest. -/
def forsKey (seed : List Byte) (tree leaf : Nat) (sig md : List Byte) : List Byte :=
  let d : HashAdr := ⟨0, tree, 3, leaf, 0, 0⟩
  slhT seed { d with kind := 4 } (((digits md 14 17).zip (List.range 17)).flatMap fun e =>
    let part := sig.drop (24 * 15 * e.2)
    let idx := 2 ^ 14 * e.2 + e.1
    climb seed d 14 0 idx (part.drop 24) (slhF seed { d with c := idx } (part.take 24)))

/-- SLH-DSA-SHA2-192s verification of a message with an empty context: `key` is the public seed and root
(18_host_and_trust R402). -/
def slhVerify (key msg sig : List Byte) : Bool :=
  let seed := key.take 24
  let r := sig.take 24
  let dg := mgf1 sha512 64 (r ++ seed ++ sha512 (r ++ key ++ [0, 0] ++ msg)) 39
  let tree := beNat (slice dg 30 7) % 2 ^ 54
  let leaf := beNat (slice dg 37 2) % 2 ^ 9
  key.length == 48 && sig.length == 16224 &&
    hyperRoot seed 7 0 tree leaf (sig.drop (24 * 256)) (forsKey seed tree leaf (sig.drop 24) (dg.take 30)) == key.drop 24

end Sys2Proof.Machine
end

