-- ==== Sys2Proof/Machine/System.lean ====
section
/-!
DEFINITION. The trap and system forms but for `rte` and `exit`: `trap`, the trap frame through `rq.rd` and `rq.wr`,
`trap.drop`, the control registers, invalidations, `ring.post`, `halt` (15_traps_preemption R329 to R353; 03_memory_tiers R75,
R76).
-/
namespace Sys2Proof.Machine

/-- `trap imm` (15_traps_preemption R338). -/
def trapRun (code : BitVec 16) (_ : Ctx) (s : State) : Res := .trap (plainTrap cSWTRAP (code.setWidth 64)) s

/-- The words of an operand record (15_traps_preemption R335). -/
def recWords (r : OpRec) : List Word :=
  BitVec.ofNat 32 (pack [(8, r.num), (8, r.cls), (8, 2 + r.vals.length)]) :: r.map :: r.vals

/-- The words of a replay entry (15_traps_preemption R334). -/
def entWords (e : Entry) : List Word :=
  [loWord e.word, hiWord e.word, BitVec.ofNat 32 e.cpc.toNat,
   BitVec.ofNat 32 (pack [(16, e.cpc.toNat / 2 ^ 32), (4, e.slot), (7, e.frg), (1, bit e.v), (1, bit e.flt), (1, bit e.mode)]),
   e.lmap, e.cmap, e.emap, BitVec.ofNat 32 e.recs.length] ++ e.recs.flatMap recWords

/-- Replay entries in use. -/
def Frame.nrq (f : Frame) : Nat := f.ents.length

/-- A word of the trap frame, by word index (15_traps_preemption R329, R330). -/
def Frame.word (f : Frame) (k : Nat) : Word :=
  if k < 16 then
    ([BitVec.ofNat 32 (pack [(8, f.code), (1, bit f.dfr), (1, bit f.arrw), (1, bit f.res), (1, 0), (4, f.nrq), (4, f.flte)]),
      f.tlmap, f.tfmap, BitVec.ofNat 32 (f.frg % 128), BitVec.ofNat 32 f.rpc.toNat,
      BitVec.ofNat 32 (pack [(16, f.rpc.toNat / 2 ^ 32), (4, f.rsl)]), loWord f.aux, hiWord f.aux, f.rfst, f.rwst] : List Word).getD k 0
  else if k < 24 then f.ssave.getD (k - 16) 0
  else if k < 32 then BitVec.ofNat 32 (pack ((List.range 4).map fun i => (8, tgetD f.lcause (4 * (k - 24) + i) 0)))
  else if k < 96 then
    let a := tgetD f.laddr ((k - 32) / 2) 0
    if k % 2 = 0 then loWord a else hiWord a
  else if k < 768 then tgetD f.ro k 0
  else match f.ents[(k - 768) / 288]? with
    | none => 0
    | some e => (entWords e).getD ((k - 768) % 288) 0

/-- Write a value word of operand records; none where the word is not one (15_traps_preemption R335, R339). -/
def putRec : List OpRec → Nat → Word → Option (List OpRec)
  | [], _, _ => none
  | r :: l, k, v =>
    if k < 2 then none
    else if k < 2 + r.vals.length then some ({ r with vals := lset r.vals (k - 2) v } :: l)
    else (putRec l (k - (2 + r.vals.length)) v).map (r :: ·)

/-- Write the fields of a frame word that a handler may write; none where it has none (15_traps_preemption R330, R334, R339). -/
def Frame.put (f : Frame) (k : Nat) (v : Word) : Option Frame :=
  if k = 0 then some { f with res := v.getLsbD 10 }
  else if k = 8 then some { f with rfst := v }
  else if k = 9 then some { f with rwst := v }
  else if 16 ≤ k ∧ k < 24 then some { f with ssave := lset f.ssave (k - 16) v }
  else if k < 768 then none
  else
    let q := (k - 768) / 288
    let o := (k - 768) % 288
    if o = 3 then some { f with ents := lmod f.ents q fun e => if e.v then { e with mode := v.getLsbD 29 } else e }
    else match f.ents[q]? with
      | none => none
      | some e => if o < 8 then none else (putRec e.recs (o - 8) v).map fun r => { f with ents := lset f.ents q { e with recs := r } }

/-- The frame offset of `rq.rd` and `rq.wr`, exact (15_traps_preemption R339). -/
def rqOff (w : RqW) (e : Env) : Nat := 4 * w.off.toNat + (if w.rs then opScal e.a else 0)

/-- The frame of the issuing warp. -/
def State.frame? (s : State) (u : UnitId) : Option Frame :=
  match u with
  | .warp t w => (s.warp? t w).bind (·.frame)
  | .ccc _ _ => none

/-- Replace the frame of a warp. -/
def State.setFrame (s : State) (u : UnitId) (f : Frame) : State :=
  match u with
  | .warp t w => s.modWarp t w fun x => { x with frame := some f }
  | .ccc _ _ => s

/-- `rq.rd` (15_traps_preemption R339). -/
def rqRdRun (w : RqW) (e : Env) (c : Ctx) (s : State) : Res :=
  let o := rqOff w e
  match s.frame? c.cur.unit with
  | none => .retire s
  | some f =>
    if o % 4 ≠ 0 then .trap (plainTrap cALIGN) s
    else if 0x3000 ≤ o then .trap (plainTrap cRANGE) s
    else .retire (s.setScal c.cur.unit e.dst [f.word (o / 4)])

/-- `rq.wr` (15_traps_preemption R339). -/
def rqWrRun (w : RqW) (e : Env) (c : Ctx) (s : State) : Res :=
  let o := rqOff w e
  match s.frame? c.cur.unit with
  | none => .retire s
  | some f =>
    if o % 4 ≠ 0 then .trap (plainTrap cALIGN) s
    else if 0x3000 ≤ o then .trap (plainTrap cRANGE) s
    else match f.put (o / 4) (BitVec.ofNat 32 (opScal e.b)) with
      | none => .trap (plainTrap cPERM) s
      | some f' => .retire (s.setFrame c.cur.unit f')

/-- `trap.drop` (15_traps_preemption R340). -/
def trapDropRun (_ : DropW) (e : Env) (c : Ctx) (s : State) : Res :=
  let q := opScal e.a
  match s.frame? c.cur.unit with
  | none => .retire s
  | some f =>
    if (f.ents[q]?).any (·.v) then
      .retire (s.setFrame c.cur.unit { f with ents := lmod f.ents q fun x => { x with emap := x.emap &&& ~~~(BitVec.ofNat 32 (opScal e.b)) } })
    else .trap (plainTrap cRANGE) s

/-- COREID (15_traps_preemption R353). -/
def State.coreId (s : State) (u : UnitId) : Nat :=
  let wsl : Nat := match u with
    | .warp t w => ((s.warp? t w).map (·.wslot)).getD 0
    | .ccc _ _ => 0
  let ctx : Nat := match u with
    | .warp _ _ => 0
    | .ccc t i => ((s.ccc? t i).map (·.ctx)).getD 0
  pack [(10, (s.coreOf u).getD 1023), (8, s.clusterOf u), (3, ctx), (1, bit (isCcc u)), (6, wsl)]

/-- TAGS: the hardware tags of a core that are done (05_copy_engine R112, R114). -/
def State.tagsDone (s : State) (core : Nat) : Nat :=
  (s.teams.map fun t => (((t.2.cores.zip (List.range 4)).filter fun p => t.2.step == .running && p.1 == core && !(t.2.saved.getD p.2 false)).map fun p =>
    ((((t.2.tags.getD p.2 []).zip (List.range 64)).filter fun g => g.1.st == 2).map fun g => 2 ^ (t.2.tagBase.getD p.2 0 + g.2)).sum).sum).sum

/-- MXS (11_matrix_engine R257). -/
def State.mxs (s : State) (t i : Nat) : Nat :=
  pack [(5, ((s.ccc? t i).map (·.mxs.toNat)).getD 0), (3, 0), (6, (s.entriesOf t i).length)]

/-- TINVC as it is read (03_memory_tiers R75). -/
def State.tinvc (s : State) : Nat := s.csrs.tinvc.toNat % 1024 + 2 ^ 31 * bit s.inval.isSome

/-- The value of a control register (15_traps_preemption R351). -/
def State.csr (s : State) (u : UnitId) (n : Nat) : Nat :=
  let core := (s.coreOf u).getD 0
  let ci (f : Nat → Nat → Nat) : Nat := match u with
    | .ccc t i => f t i
    | .warp _ _ => 0
  if n = 0x001 then s.coreId u
  else if n = 0x002 then s.tagsDone core
  else if n = 0x003 then (s.core core).ifcnt.toNat
  else if n = 0x008 then ci fun t i => ((s.ccc? t i).map (·.mxc.toNat)).getD 0
  else if n = 0x009 then ci s.mxs
  else if n = 0x100 then s.csrs.owntab.toNat
  else if n = 0x101 then s.csrs.mbxtab.toNat
  else if n = 0x102 then s.csrs.tinva.toNat
  else if n = 0x103 then s.tinvc
  else if n = 0x104 then s.csrs.ctxbase.toNat
  else if n = 0x110 then s.csrs.rbase.toNat
  else if n = 0x111 then s.csrs.rctl.toNat
  else if n = 0x112 then s.csrs.rwi.toNat
  else if n = 0x113 then s.csrs.rri.toNat
  else 0

/-- `csr.rd` (15_traps_preemption R352). -/
def csrRdRun (w : CsrW) (e : Env) (c : Ctx) (s : State) : Res :=
  let v := BitVec.ofNat 64 (s.csr c.cur.unit w.num.toNat)
  .retire (s.setScal c.cur.unit e.dst (if w.w64 then [loWord v, hiWord v] else [loWord v]))

/-- An invalidation names an entry of a translation cache (03_memory_tiers R75): its page, its owner, or any; pointer and owner
entries of the owners concerned go in every mode. -/
def Inval.hits (v : Inval) (e : TEnt) : Bool :=
  let leaf := e.w0.getLsbD 1 && e.lvl != 4
  (v.mode == 2 || (decide (v.mode < 2) && e.owner == v.owner)) &&
    (!leaf || v.mode != 0 || e.pfx == v.vpn * 65536 / 2 ^ lvlShift e.lvl)

/-- An access through a translation that an invalidation names; `pg`: the access's page size as a power of two. -/
def Inval.covers (v : Inval) (owner : Byte) (va : DWord) (pg : Nat) : Bool :=
  v.mode == 2 || (v.mode == 1 && owner == v.owner) || (v.mode == 0 && owner == v.owner && va.toNat / 2 ^ pg == v.vpn * 65536 / 2 ^ pg)

/-- An invalidation begins: every cache drops its matching entries (03_memory_tiers R75, R76). -/
def State.beginInval (s : State) (v : Inval) : State :=
  { s with tlbs := s.tlbs.map fun t => (t.1, t.2.filter fun e => !v.hits e), inval := some v,
           csrs := { s.csrs with tinvc := BitVec.ofNat 32 (v.owner.toNat + 256 * v.mode) } }

/-- A write to TINVC: the invalidation begins, or waits for the one in progress (03_memory_tiers R76). It names the page that
TINVA holds when TINVC is written (log entry 73: the spec does not say which TINVA a waiting write uses). -/
def State.writeTinvc (s : State) (v : Word) (by_ : Option (UnitId × Nat)) (rq : Option PortReq) : State :=
  let i : Inval := ⟨BitVec.ofNat 8 v.toNat, bitsOf v.toNat 9 8, s.csrs.tinva.toNat, by_, rq⟩
  if s.inval.isSome then { s with invalQ := s.invalQ ++ [i] } else s.beginInval i

/-- Every access through a translation that the invalidation names has been performed at die scope (03_memory_tiers R76). -/
def State.invalDone (s : State) (v : Inval) : Bool :=
  (s.writes.all fun w => w.tgt != .glob || w.dieDone || !v.covers w.owner w.va w.pg) &&
  s.teams.all fun t => (t.2.warps.map (·.regs) ++ t.2.cccs.map (·.regs)).all fun r => r.ops.all fun o =>
    o.accs.all fun a => a.tgt != .glob || (tget o.vals a.lane).isSome || !v.covers t.2.owner a.va a.pg

/-- A write to RRI (15_traps_preemption R344). -/
def State.writeRri (s : State) (v : Word) : State :=
  if s.csrs.rwi - v ≤ s.csrs.rwi - s.csrs.rri then { s with csrs := { s.csrs with rri := v } } else s

/-- A write to TKILL: the set of a frozen team is killed; its copies run on to completion (15_traps_preemption R343, R351). -/
def State.writeTkill (s : State) (v : Word) : State :=
  match s.team? v.toNat with
  | none => s
  | some t => match s.set? t.set with
    | none => s
    | some x =>
      if !x.frozen then s
      else x.teams.foldl (fun s n => s.modTeam n fun y => { y with tags := y.tags.map fun l => l.map fun g => { g with halt := false } })
        (s.modSet t.set fun x => { x with killed := true })

/-- A write to a control register but TINVC (15_traps_preemption R351, R353). -/
def State.csrSet (s : State) (n : Nat) (v : DWord) : State :=
  let x := loWord v
  let k := s.csrs
  if n = 0x100 then { s with csrs := { k with owntab := v } }
  else if n = 0x101 then { s with csrs := { k with mbxtab := v } }
  else if n = 0x102 then { s with csrs := { k with tinva := x } }
  else if n = 0x104 then { s with csrs := { k with ctxbase := v } }
  else if n = 0x110 then { s with csrs := { k with rbase := v } }
  else if n = 0x111 then { s with csrs := { k with rctl := (x &&& 0x1F) ||| (k.rctl &&& ~~~x &&& 0x80000000#32) } }
  else if n = 0x113 then s.writeRri x
  else if n = 0x120 then s.writeTkill x
  else s

/-- `csr.wr` (15_traps_preemption R352); for TINVC it waits for the invalidation to retire (03_memory_tiers R76). -/
def csrWrRun (w : CsrW) (e : Env) (c : Ctx) (s : State) : Res :=
  let v := opScal e.a
  if w.num.toNat ≠ 0x103 then .retire (s.csrSet w.num.toNat (BitVec.ofNat 64 v))
  else if c.phase = 0 then
    .wait .invalidation ((s.writeTinvc (BitVec.ofNat 32 v) (some (c.cur.unit, c.fid)) none).modFrag c.cur fun f => { f with phase := 1 })
  else if s.invDone.contains (c.cur.unit, c.fid) then .retire { s with invDone := s.invDone.erase (c.cur.unit, c.fid) }
  else .wait .invalidation s

/-- `ring.post` (15_traps_preemption R345, R348). -/
def ringPostRun (w : RPostW) (e : Env) (c : Ctx) (s : State) : Res :=
  let u := c.cur.unit
  releaseThen c s fun s =>
    if s.ringBusy (s.ringSrc u) then .wait .ring s
    else .retire (s.ringPut (s.ringSrc u) (s.unitEnt u 8 0 0 (w.code.setWidth 64) (e.a.map fun r => r.vals.getD 0 0)))

/-- `halt` (15_traps_preemption R343, R345, R349). -/
def haltRun (c : Ctx) (s : State) : Res :=
  let u := c.cur.unit
  if s.ringBusy (s.ringSrc u) then .wait .ring s
  else .retire ((s.freeze (s.setOf (teamOf u))).ringPut (s.ringSrc u) (s.unitEnt u 9 0 c.cpc 0 []))

/-- A held ring entry is written when the ring has room; then the events that waited for its slot form theirs (15 R345). -/
def State.drainRing (s : State) (src : RingSrc) : State :=
  match s.ringHeld.find? (·.1 == src) with
  | some h => if s.ringFree then { s.ringWrite src h.2 with ringHeld := s.ringHeld.erase h } else s
  | none =>
    match s.ringWait.find? (·.1 == src) with
    | none => if src == .package then s.refuseNext else s
    | some h =>
      let s := { s with ringWait := s.ringWait.erase h }
      if s.ringFree then s.ringWrite src h.2 else s.ringHold src h.2

/-- The system forms and register events as instructions. -/
def execTrap (code : BitVec 16) (s : State) : Host.Outcome State Fault Refusal := issue s (.trap code) (trapRun code)
def execRqRd (w : RqW) (s : State) : Host.Outcome State Fault Refusal := issueOps s (.rqRd w) (rqRdRun w)
def execRqWr (w : RqW) (s : State) : Host.Outcome State Fault Refusal := issueOps s (.rqWr w) (rqWrRun w)
def execTrapDrop (w : DropW) (s : State) : Host.Outcome State Fault Refusal := issueOps s (.trapDrop w) (trapDropRun w)
def execCsrRd (w : CsrW) (s : State) : Host.Outcome State Fault Refusal := issueOps s (.csrRd w) (csrRdRun w)
def execCsrWr (w : CsrW) (s : State) : Host.Outcome State Fault Refusal := issueOps s (.csrWr w) (csrWrRun w)
def execRingPost (w : RPostW) (s : State) : Host.Outcome State Fault Refusal := issueOps s (.ringPost w) (ringPostRun w)
def execHalt (s : State) : Host.Outcome State Fault Refusal := issue s .halt haltRun

/-- A write of TINVC by the management endpoint (03_memory_tiers R76). -/
def execTinvcWrite (v : Word) (s : State) : Host.Outcome State Fault Refusal := .next (s.writeTinvc v none none)

/-- An answer to a port request (18_host_and_trust R394). -/
def portReply (err : Bool) (code : Nat) (data : List Byte) (r : PortReq) : Sent := ⟨r.port.toNat, r.job.toNat, err, code, 0, data⟩

/-- The invalidation in progress retires, and the next begins (03_memory_tiers R76). -/
def State.retireInval (s : State) : State :=
  match s.inval with
  | none => s
  | some v =>
    if !s.invalDone v then s
    else
      let s := { s with inval := none, invDone := s.invDone ++ v.by_.toList,
                        sent := s.sent ++ v.rq.toList.map (portReply false 0 []) }
      match s.invalQ with
      | [] => s
      | w :: q => { s.beginInval w with invalQ := q }

def execInvalidationRetire (s : State) : Host.Outcome State Fault Refusal := .next s.retireInval
def execTkillWrite (teamid : Word) (s : State) : Host.Outcome State Fault Refusal := .next (s.writeTkill teamid)
def execRriWrite (v : Word) (s : State) : Host.Outcome State Fault Refusal := .next (s.writeRri v)
def execPendingSlotWrite (src : RingSrc) (s : State) : Host.Outcome State Fault Refusal := .next (s.drainRing src)

end Sys2Proof.Machine
end

