-- ==== Sys2Proof/Machine/Endpoint.lean ====
section
/-!
DEFINITION. The module at its ports: host messages, puts and gets, the management endpoint, feature negotiation, owner keys,
firmware and attestation, module reset (18_host_and_trust R394 to R407; 15_traps_preemption R351).
-/
namespace Sys2Proof.Machine

/-- PRIV as an error completion code (18_host_and_trust R399 to R401). -/
def errPRIV : Nat := 0x04

/-- Send an answer to a port request. -/
def State.reply (s : State) (r : PortReq) (err : Bool) (code : Nat) (data : List Byte := []) : State :=
  { s with sent := s.sent ++ [portReply err code data r] }

/-- The owner under which a request of a kind (33 MSG, 34 RMA, 35 MGT) is served (18_host_and_trust R394). -/
def State.jobOwner (s : State) (r : PortReq) (kind : Nat) : Option Byte :=
  (List.range 256).findSome? fun i =>
    let e := (s.mreg (0x400 + i)).toNat
    if e % 2 ^ 24 = r.job.toNat ∧ bitOf e 32 = true ∧ bitOf e kind = true then some (BitVec.ofNat 8 (bitsOf e 31 24)) else none

/-- The origin of a port's accesses: C0 through IO0, C3 through IO1 (18_host_and_trust R397). -/
def portDie (r : PortReq) : Nat := if r.port.toNat < 4 then 0 else 3

/-- A request of a kind is refused before it is looked at: firmware (R403), job (R394), feature (R400, R401); the error code,
0 where the spec gives none. -/
def State.refuse (s : State) (r : PortReq) (kind feat : Nat) : Except Nat Byte :=
  if !s.fw.ok then .error 0
  else match s.jobOwner r kind with
    | none => .error 0
    | some o => if s.mgmt.locked && s.feature feat then .ok o else .error errPRIV

/-- A host mailbox message (18_host_and_trust R395). -/
def State.hostMessage (s : State) (r : PortReq) (va : DWord) (args : List Word) : State :=
  match s.refuse r 33 0 with
  | .error k => s.reply r true k
  | .ok o =>
    match s.mboxOf o va true with
    | none => s.reply r false 1
    | some m => match s.postLocal m o ((List.range 16).map fun i => args.getD i 0) with
      | .noCredit => s.reply r false 2
      | .waits => s
      | .refused s' => s'.reply r false 3
      | .launched s' => s'.reply r false 0

/-- The checks of a put or get of its address and length alone (18_host_and_trust R396): the cause that fails it. -/
def hostShape (va : DWord) (n : Nat) : Option Nat :=
  if va.toNat % 16 ≠ 0 ∨ n % 16 ≠ 0 then some cALIGN
  else if n < 16 ∨ 1048576 < n ∨ 2 ^ 48 < va.toNat + n then some cRANGE
  else none

/-- A lookup that a put or get needs is not over (03_memory_tiers R64, R73): it waits. -/
def State.hostOpen (s : State) (d : Nat) (o : Byte) (va : DWord) (n : Nat) : Bool :=
  (hostShape va n).isNone && (List.range ((va.toNat % 65536 + n - 1) / 65536 + 1)).any fun i => s.lookupOpen none d o (va + BitVec.ofNat 64 (65536 * i))

/-- The checks of a put or get (18_host_and_trust R396): the leaf of each 16-byte unit, or the cause. -/
def State.hostLeaves (s : State) (d : Nat) (o : Byte) (va : DWord) (n : Nat) (need : Need) : Except Nat (List (Nat × Leaf)) :=
  match hostShape va n with
  | some k => .error k
  | none =>
    let first := va.toNat / 65536
    let pages := (List.range ((va.toNat + n - 1) / 65536 - first + 1)).map fun i =>
      s.access none d o (BitVec.ofNat 64 (max va.toNat (65536 * (first + i)))) need
    match pages.findSome? fun p => match p with
        | .error k => some k
        | .ok _ => none with
    | some k => .error k
    | none => .ok ((List.range (n / 16)).filterMap fun i =>
        let a := va.toNat + 16 * i
        match pages[a / 65536 - first]? with
        | some (.ok l) => some (a, { l with pa := l.pa / 65536 * 65536 + a % 65536 })
        | _ => none)

/-- A put (18_host_and_trust R396, R397): its bytes become writes from its die, a line of a replicated page as one; the completion
follows. One that meets a lookup not yet over waits. -/
def State.hostPut (s : State) (r : PortReq) (va : DWord) (bytes : List Byte) : State :=
  match s.refuse r 34 1 with
  | .error k => s.reply r true k
  | .ok o =>
    let d := portDie r
    if s.hostOpen d o va bytes.length then s
    else match s.hostLeaves d o va bytes.length .write with
    | .error k => s.reply r true k
    | .ok ls =>
      let whole (a : Nat) : Bool := decide (va.toNat ≤ a / 256 * 256) && decide (a / 256 * 256 + 256 ≤ va.toNat + bytes.length)
      let ws := ls.map fun x =>
        { blankWrite none s.nextId d o (BitVec.ofNat 64 x.1) x.2.pa x.2.key x.2.repl x.2.pg with
            bytes := slice bytes (x.1 - va.toNat) 16, whole := whole x.1 }
      let s1 := { s with nextId := s.nextId + 1 }.addParts ws
      { s1 with puts := s1.puts ++ [⟨r, (List.range (s1.nextId - s.nextId - 1)).map (s.nextId + 1 + ·)⟩] }

/-- Send the completions of the puts whose every byte is performed at package scope (18_host_and_trust R397). -/
def State.sendPuts (s : State) : State :=
  let fin := s.puts.filter fun p => !p.writes.any s.onWay
  { s with puts := s.puts.filter (fun p => p.writes.any s.onWay), sent := s.sent ++ fin.map fun p => portReply false 0 [] p.rq }

/-- The bytes of a unit as performed at package scope. -/
def State.pkgBytes (s : State) (k : Byte) (a n : Nat) : List Byte :=
  (List.range n).map fun i =>
    ((s.flight.filter fun w => w.tgt == .glob && !w.repl && allDies w.dies && w.unitOf (a + i)).foldl
      (fun b w => b.apply w (a + i)) (s.baseByte (a + i))).read k (a + i)

/-- A get (18_host_and_trust R396, R397, R407); one that meets a locked line, or a lookup not yet over, waits. -/
def State.hostGet (s : State) (r : PortReq) (va : DWord) (len : Nat) : State :=
  match s.refuse r 34 1 with
  | .error k => s.reply r true k
  | .ok o =>
    let d := portDie r
    if s.hostOpen d o va len then s
    else match s.hostLeaves d o va len .read with
    | .error k => s.reply r true k
    | .ok ls =>
      if ls.any fun x => x.2.repl && s.lockedLine d x.2.pa then s
      else match ls.find? fun x => !s.blockOk x.2.key (x.2.at_ d / 256) with
        | some x => { s with sent := s.sent ++ [⟨r.port.toNat, r.job.toNat, true, cINTEG, BitVec.ofNat 64 (x.1 / 256 * 256), []⟩] }
        | none => s.reply r false 0 (ls.flatMap fun x =>
            if x.2.repl then s.dieBytes d x.2.key (x.2.at_ d) 16 else s.pkgBytes x.2.key x.2.pa 16)

/-- FEATCAP (18_host_and_trust R400; log entry 12). -/
def featCap : DWord := 0xFFF#64

/-- Set a management register kept as a plain word. -/
def State.setMreg (s : State) (n : Nat) (v : DWord) : State :=
  { s with mgmt := { s.mgmt with regs := tset (if n = 0x200 then clkmapReset else 0) s.mgmt.regs n v } }

/-- A write of FEATLCK (18_host_and_trust R400). -/
def State.featLock (s : State) (v : DWord) : State :=
  if v = 1 ∧ s.mgmt.locked = false then
    { s.setMreg 0x504 (s.mreg 0x502 &&& featCap) with mgmt := { (s.setMreg 0x504 (s.mreg 0x502 &&& featCap)).mgmt with locked := true } }
  else s

/-- The key of a key id: zeros until both halves are loaded (18_host_and_trust R405). -/
def Mgmt.key (m : Mgmt) (k : Nat) : List DWord :=
  match tget m.keys (2 * k), tget m.keys (2 * k + 1) with
  | some a, some b => a ++ b
  | _, _ => List.replicate 8 0

/-- A key load is in progress. -/
def State.keyBusy (s : State) : Bool := s.mgmt.keyctl.getLsbD 10

/-- A write of KEYCTL (18_host_and_trust R405): with GO, the lines of the key id are dropped and the load begins; a write that
finds a load in progress waits. -/
def State.keyLoad (s : State) (v : DWord) (rq : Option PortReq) : State :=
  let k := v.toNat % 256
  if s.keyBusy then s
  else if v.getLsbD 9 then
    let drop (t : Table (List Byte)) : Table (List Byte) := t.filter fun e => e.1 % 256 != k
    { s with mgmt := { s.mgmt with keyctl := BitVec.ofNat 64 (v.toNat % 1024 + 1024), keyRq := rq },
             cores := tmapv s.cores fun c => { c with l1 := drop c.l1, l0 := drop c.l0 },
             clusters := tmapv s.clusters fun c => { c with gcache := drop c.gcache, icache := drop c.icache } }
  else
    let s := { s with mgmt := { s.mgmt with keyctl := BitVec.ofNat 64 (v.toNat % 1024) } }
    match rq with
    | some r => s.reply r false 0
    | none => s

/-- An access under a key id is in progress. -/
def State.keyUsed (s : State) (k : Byte) : Bool :=
  (s.writes.any fun w => w.key == k && w.tgt == .glob) ||
  s.teams.any fun t => (t.2.warps.map (·.regs) ++ t.2.cccs.map (·.regs)).any fun r => r.ops.any fun o =>
    o.accs.any fun a => a.tgt == .glob && a.key == k && (tget o.vals a.lane).isNone

/-- A key load installs its half (18_host_and_trust R405). Under a new key, the contents written under the old one are
unpredictable (03_memory_tiers R71). -/
def State.keyInstall (s : State) : State :=
  let v := s.mgmt.keyctl.toNat
  let k := v % 256
  if !s.keyBusy || s.keyUsed (BitVec.ofNat 8 k) then s
  else
    let m := { s.mgmt with keys := tput s.mgmt.keys (2 * k + bit (bitOf v 8)) s.mgmt.keyv, keyctl := BitVec.ofNat 64 (v % 1024), keyRq := none }
    let lost (u : Nat) : Bool := m.key k != s.mgmt.key k && (tget s.keys u).any fun x => x.key.toNat == k
    let s1 := { s with mgmt := m, nextId := s.nextId + 1, mem := s.mem.filter (fun c => !lost (c.1 / 16)),
                       keys := s.keys.map fun e => (e.1, if lost e.1 then { e.2 with epoch := s.nextId, base := s.nextId } else e.2) }
    match s.mgmt.keyRq with
    | some r => s1.reply r false 0
    | none => s1

/-- The attestation report (18_host_and_trust R404). -/
def State.attReport (s : State) (nonce : DWord) : List Byte :=
  let w (v : Word) : List Byte := toBytes 4 v.toNat
  [0x41, 0x4B, 0x33, 0x52] ++ w 1 ++ w s.fw.svn ++ w s.fw.minSvn ++ fit 16 Config.deviceId ++ fit 48 s.fw.digest ++
    toBytes 8 (s.mreg 0x504).toNat ++ toBytes 8 (s.mreg 0x505).toNat ++ toBytes 8 nonce.toNat ++ List.replicate 152 0

/-- A write of ATTREQ: the report of 256 bytes, its two signatures of 384 and 16,224, and the two public keys, a modulus of 384
and a key of 48 (18_host_and_trust R404). -/
def State.attest (s : State) (r : PortReq) (nonce : DWord) : State :=
  let rep := s.attReport nonce
  { s.setMreg 0x700 nonce with fresh := s.fresh + 1 }.reply r false 0 (rep ++ fit 384 (Config.rsaSign s.fresh rep) ++
    fit 16224 (Config.slhSign s.fresh rep) ++ fit 384 Config.rsaModulus ++ fit 48 Config.slhPublic)

/-- Bits of a management register that hold its fields (17_power R392; 18_host_and_trust R394, R399). -/
def mregMask (n : Nat) : Option Nat :=
  if n = 0x200 then some 16 else if n = 0x201 then some 24
  else if 0x210 ≤ n ∧ n < 0x214 then some 33 else if 0x218 ≤ n ∧ n < 0x21C then some 49
  else if 0x300 ≤ n ∧ n < 0x340 then some 64 else if 0x400 ≤ n ∧ n < 0x500 then some 36
  else if n = 0x502 ∨ n = 0x503 then some 64 else none

/-- The package-wide control registers (15_traps_preemption R351). -/
def pkgCsr (n : Nat) : Bool := (decide (0x100 ≤ n) && decide (n ≤ 0x104)) || (decide (0x110 ≤ n) && decide (n ≤ 0x113)) || n == 0x120

/-- A port has a management request under way: requests are served in order (18_host_and_trust R399). -/
def State.portBusy (s : State) (r : PortReq) : Bool :=
  let mine (o : Option PortReq) : Bool := o.any (·.port == r.port)
  mine s.mgmt.keyRq || ((s.inval.toList ++ s.invalQ).any fun v => mine v.rq)

/-- A management request is served: firmware runs and the job permits it (18_host_and_trust R394, R403). -/
def State.mayManage (s : State) (r : PortReq) : Bool := s.fw.ok && (s.jobOwner r 35).isSome

/-- A management write (18_host_and_trust R399). -/
def State.mgmtWrite (s : State) (r : PortReq) (n : Nat) (v : DWord) : State :=
  if s.portBusy r then s
  else if !s.mayManage r then s.reply r true 0
  else if n = 0x103 then s.writeTinvc (loWord v) none (some r)
  else if pkgCsr n then (if n = 0x112 then s.reply r true errPRIV else (s.csrSet n v).reply r false 0)
  else if n = 0x506 then (s.featLock v).reply r false 0
  else if 0x600 ≤ n ∧ n < 0x604 then
    ({ s with mgmt := { s.mgmt with keyv := lset s.mgmt.keyv (n - 0x600) v } }).reply r false 0
  else if n = 0x604 then s.keyLoad v (some r)
  else if n = 0x700 then s.attest r v
  else match mregMask n with
    | none => s.reply r true errPRIV
    | some b =>
      let w := BitVec.ofNat 64 (v.toNat % 2 ^ b)
      ((if (n = 0x502 ∨ n = 0x503) ∧ s.mgmt.locked = true then s else s.setMreg n w).reply r false 0)

/-- A management read (18_host_and_trust R399, R405). -/
def State.mgmtRead (s : State) (r : PortReq) (n : Nat) : State :=
  let ok (v : DWord) : State := s.reply r false 0 (toBytes 8 v.toNat)
  if s.portBusy r then s
  else if !s.mayManage r then s.reply r true 0
  else if pkgCsr n then ok (BitVec.ofNat 64 (s.csr (.warp 0 0) n))
  else if n = 0x200 then ok (tgetD s.mgmt.regs 0x200 clkmapReset)
  else if n = 0x500 then ok featCap
  else if n = 0x506 then ok (if s.mgmt.locked then 1 else 0)
  else if n = 0x604 then ok s.mgmt.keyctl
  else if n = 0x501 ∨ (0x600 ≤ n ∧ n < 0x604) then ok 0
  else if (mregMask n).isSome ∨ n = 0x504 ∨ n = 0x505 ∨ n = 0x700 then ok (s.mreg n)
  else s.reply r true errPRIV

/-- The header of an image up to its signatures' range: 128 bytes (18_host_and_trust R402). -/
def FwImage.head (f : FwImage) : List Byte :=
  toBytes 4 f.magic.toNat ++ toBytes 4 f.version.toNat ++ toBytes 4 f.svn.toNat ++ toBytes 4 f.bodyLen.toNat ++
    fit 48 f.digest ++ fit 64 f.reserved

/-- The boot ROM accepts an image (18_host_and_trust R402). -/
def State.fwAccepts (s : State) (f : FwImage) : Bool :=
  let msg := FwImage.head f ++ f.body
  sha384 f.rsaKey == Config.fusedRsaDigest && sha384 f.slhKey == Config.fusedSlhDigest &&
    rsaVerify f.rsaKey msg f.rsaSig && slhVerify f.slhKey msg f.slhSig && decide (s.fw.minSvn.toNat ≤ f.svn.toNat)

/-- A firmware image is delivered (18_host_and_trust R402, R403). -/
def State.firmware (s : State) (f : FwImage) : State :=
  if s.fwAccepts f then { s with fw := ⟨f.svn, f.svn, sha384 f.body, true⟩ }
  else { s with fw := { s.fw with ok := false } }

/-- Module reset (15_traps_preemption R351; 18_host_and_trust R400, R405, R406). What was written under lost keys is
unpredictable; the running firmware, what has been sent, and the model's own counters stay. -/
def State.moduleReset (s : State) : State :=
  { State.reset with
    keys := tmapv s.keys fun e => { e with epoch := s.nextId, base := s.nextId }
    fw := s.fw
    sent := s.sent
    agenda := s.agenda
    fresh := s.fresh
    nextId := s.nextId + 1 }

def execModuleReset (s : State) : Host.Outcome State Fault Refusal := .next s.moduleReset
def execHostMailboxMessage (r : PortReq) (va : DWord) (args : List Word) (s : State) : Host.Outcome State Fault Refusal :=
  .next (s.hostMessage r va args)
def execHostPut (r : PortReq) (va : DWord) (bytes : List Byte) (s : State) : Host.Outcome State Fault Refusal :=
  .next (s.hostPut r va bytes)
def execHostGet (r : PortReq) (va : DWord) (len : Nat) (s : State) : Host.Outcome State Fault Refusal := .next (s.hostGet r va len)
def execManagementWrite (r : PortReq) (num : BitVec 12) (v : DWord) (s : State) : Host.Outcome State Fault Refusal :=
  .next (s.mgmtWrite r num.toNat v)
def execManagementRead (r : PortReq) (num : BitVec 12) (s : State) : Host.Outcome State Fault Refusal :=
  .next (s.mgmtRead r num.toNat)
def execFeatlckWrite (v : DWord) (s : State) : Host.Outcome State Fault Refusal := .next (s.featLock v)
def execKeyLoad (v : DWord) (s : State) : Host.Outcome State Fault Refusal := .next (s.keyLoad v none)
def execKeyInstall (s : State) : Host.Outcome State Fault Refusal := .next s.keyInstall
def execAttreqWrite (nonce : DWord) (s : State) : Host.Outcome State Fault Refusal := .next (s.attest ⟨0, 0⟩ nonce)
def execFirmwareImage (img : FwImage) (s : State) : Host.Outcome State Fault Refusal := .next (s.firmware img)

end Sys2Proof.Machine
end

