-- ==== Sys2Proof/Machine/Mem.lean ====
section
/-!
DEFINITION. The loads, stores, atomics and fences: addresses, the checks of each lane, counting, and the writes a store issues
(04_caches_scratchpad R95 to R110; 06_consistency R137 to R140; 08_lane_arithmetic R212; 10_lane_crossbar R240, R241).
-/
namespace Sys2Proof.Machine

/-- Bytes of a load or store of size code SZ (04_caches_scratchpad R97). -/
def szBytes (sz : BitVec 3) : Nat :=
  if sz = 0 ∨ sz = 1 then 1 else if sz = 2 ∨ sz = 3 then 2 else if sz = 4 then 4 else if sz = 5 then 8 else 16

/-- Bytes of an atomic. -/
def atomBytes (sz : BitVec 3) : Nat := if sz = 2 ∨ sz = 3 then 8 else 4

/-- The scope that a SCO field names. -/
def scopeOf (v : BitVec 3) : Scope :=
  if v = 0 then .warp else if v = 1 then .team else if v = 2 then .die else if v = 3 then .pkg else .sys

/-- The global address of a lane (04_caches_scratchpad R96): `k` the scale of B, `unit` that of OFF. -/
def gmAddrOf (w : GmW) (k unit : Nat) (e : Env) (l : Nat) : DWord :=
  let disp := w.off.toNat * unit
  if w.ow = 2 then BitVec.ofNat 64 (opLane e.a l + disp)
  else if w.ow = 3 then BitVec.ofNat 64 (opScal e.a + disp)
  else
    let b : Int := if w.ow = 1 then sextNat 32 (opLane e.b l) else (opLane e.b l % 2 ^ 32 : Nat)
    BitVec.ofInt 64 (opScal e.a + b * k + disp)

/-- The scratchpad address of a lane (04_caches_scratchpad R99). -/
def spAddrOf (w : SpW) (e : Env) (l : Nat) : Nat :=
  ((if w.az then 0 else opLane e.a l) + (w.b.toNat * 2048 + w.offl.toNat)) % 2 ^ 32

/-- An acquire's scope by ORD and SCO (06_consistency R137). -/
def acqOf (ord : BitVec 2) (sc : Scope) : Option Scope := if ord = 1 ∨ ord = 3 then some sc else none

/-- A release's scope by ORD and SCO (06_consistency R138). -/
def relOf (ord : BitVec 2) (sc : Scope) : Option Scope := if ord = 2 ∨ ord = 3 then some sc else none

/-- The accesses of the lanes of a map, or the faulting lanes with cause and address (04_caches_scratchpad R101). -/
def checkLanes (m : Lanes) (chk : Nat → Except Nat Acc) (va : Nat → DWord) : Except (List (Nat × Nat × DWord)) (List Acc) :=
  let r := (lanesOf m).map fun l => (l, chk l)
  let bad := r.filterMap fun x => match x.2 with
    | .error c => some (x.1, c, va x.1)
    | .ok _ => none
  if bad.isEmpty then .ok (r.filterMap fun x => match x.2 with
    | .ok a => some a
    | .error _ => none)
  else .error bad

/-- What a counted form brings to its issue: its destination, effective map, accesses, order. -/
structure Cnt where
  emap  : Lanes
  accs  : List Acc
  acq   : Option Scope
  rel   : Option Scope
  plain : Bool

/-- The flag a counted form counts on cannot rise further (02_instruction_words R25). -/
def State.flagFull (s : State) (c : Ctx) (i : Instr) : Bool :=
  decide (63 ≤ ((s.regs? c.cur.unit).map fun r => r.flag (flagOf c.hdr i)).getD 0)

/-- Issue a counted operation: it takes its number and counts on its flag; with no lane in E it completes at once
(02_instruction_words R24, R29; 04_caches_scratchpad R100). -/
def State.count (s : State) (c : Ctx) (i : Instr) (e : Env) (recs : List OpRec) (k : Cnt) : State :=
  let u := c.cur.unit
  let r := (s.regs? u).getD ⟨[], [], [], [], 0⟩
  let fl := flagOf c.hdr i
  let live := k.emap != 0
  let o : Op := ⟨r.seq, i, c.fid, c.cpc, c.slot, fl, e.dst, e.lm, k.emap, recs, k.accs, [], if live then k.acq else none,
    if live then k.rel.map (s.mkGate (s.dieOf u)) else none, k.plain, [], none, [], false⟩
  if live then s.modRegs u fun r => { r.setFlag fl (r.flag fl + 1) with ops := r.ops ++ [o], seq := r.seq + 1 }
  else s.writeBack u o

/-- The records of an environment, in order, without the words that no register holds. -/
def Env.recs (e : Env) : List OpRec := (e.d ++ e.a ++ e.b ++ e.more.flatten).filter (·.cls != 3)

/-- A lookup of some aligned lane of a global access is not over (03_memory_tiers R73, R74): the instruction stays at issue. -/
def State.lanesOpen (s : State) (u : UnitId) (m : Lanes) (va : Nat → DWord) (n : Nat) : Bool :=
  s.lookups u (((lanesOf m).map va).filter fun a => a.toNat % n == 0)

/-- A counted form over lanes: R25's stall and the lookups (`open_`: one is not over), the lane checks, then the count. -/
def countRun (i : Instr) (e : Env) (c : Ctx) (s : State) (open_ : Bool) (chk : Nat → Except Nat Acc) (va : Nat → DWord)
    (m : Lanes) (acq rel : Option Scope) (plain : Bool) : Res :=
  if s.flagFull c i || open_ then .wait .stall s
  else match checkLanes m chk va with
    | .error bad => .trap (laneTrap bad m) s
    | .ok accs => .retire (s.count c i e e.recs ⟨m, accs, acq, rel, plain⟩)

/-- `ld.g` (04_caches_scratchpad R104). -/
def ldGRun (w : GmW) (e : Env) (c : Ctx) (s : State) : Res :=
  let va := gmAddrOf w 1 8 e
  let m := effMap e [e.a, e.b]
  countRun (.ldG w) e c s (s.lanesOpen c.cur.unit m va (szBytes w.sz))
    (fun l => s.globAcc c.cur.unit l (va l) (szBytes w.sz) .read) va m (acqOf w.ord (scopeOf w.sco)) none (w.ord == 0 && !w.bp)

/-- `ld.c` (04_caches_scratchpad R96, R104). -/
def ldCRun (w : GmW) (e : Env) (c : Ctx) (s : State) : Res :=
  let n := szBytes w.sz
  let va := gmAddrOf w n n e
  let m := effMap e [e.a, e.b]
  countRun (.ldC w) e c s (s.lanesOpen c.cur.unit m va n) (fun l => s.globAcc c.cur.unit l (va l) n .read) va m none none true

/-- `ld.sp` (04_caches_scratchpad R104). -/
def ldSpRun (w : SpW) (e : Env) (c : Ctx) (s : State) : Res :=
  let a := spAddrOf w e
  countRun (.ldSp w) e c s false (fun l => s.spAcc (teamOf c.cur.unit) l (a l) (szBytes w.sz)) (fun l => BitVec.ofNat 64 (a l))
    (effMap e [e.a]) (acqOf w.ord .team) none false

/-- `atom.g` (04_caches_scratchpad R105 to R110). -/
def atomGRun (op : AOp) (w : GmW) (e : Env) (c : Ctx) (s : State) : Res :=
  let va := gmAddrOf w 1 8 e
  let m := effMap e [e.a, e.b, e.d]
  countRun (.atomG op w) e c s (s.lanesOpen c.cur.unit m va (atomBytes w.sz))
    (fun l => s.globAcc c.cur.unit l (va l) (atomBytes w.sz) .atomic) va m (acqOf w.ord (scopeOf w.sco)) (relOf w.ord (scopeOf w.sco)) false

/-- `atom.sp` (04_caches_scratchpad R108). -/
def atomSpRun (op : AOp) (w : SpW) (e : Env) (c : Ctx) (s : State) : Res :=
  let a := spAddrOf w e
  countRun (.atomSp op w) e c s false (fun l => s.spAcc (teamOf c.cur.unit) l (a l) (atomBytes w.sz))
    (fun l => BitVec.ofNat 64 (a l)) (effMap e [e.a, e.d]) (acqOf w.ord .team) (relOf w.ord .team) false

/-- `s.ld` (08_lane_arithmetic R212): one access, whatever L. A replay whose lane 0 was dropped accesses nothing. -/
def sLdRun (w : GmW) (e : Env) (c : Ctx) (s : State) : Res :=
  let m : Lanes := 1 &&& e.only
  let va := gmAddrOf w 1 8 e 0
  if s.flagFull c (.sLd w) || s.lanesOpen c.cur.unit m (fun _ => va) (szBytes w.sz) then .wait .stall s
  else if m = 0 then .retire s
  else match s.globAcc c.cur.unit 0 va (szBytes w.sz) .read with
    | .error k => .trap { oneTrap k va with cmap := 1 } s
    | .ok a => .retire (s.count c (.sLd w) e e.recs ⟨m, [a], acqOf w.ord (scopeOf w.sco), none, false⟩)

/-- Rows, element bytes and lanes of a transposed block (10_lane_crossbar R241). -/
def ldtRow (sz : BitVec 3) : Nat := if sz = 0 then 4 else if sz = 2 then 8 else 16
def ldtLanes (sz : BitVec 3) : Lanes := if sz = 0 then 0xFFFF else fullMap

/-- The address of a row (10_lane_crossbar R240). -/
def ldtAddr (w : LdtW) (e : Env) (r : Nat) : Nat :=
  (((if w.az then 0 else opScal e.a) + w.off.toNat) % 2 ^ 32 + r * (4 * w.b.toNat)) % 2 ^ 32

/-- `ld.sp.t` (10_lane_crossbar R240, R241): all sixteen rows are read; the lowest failing row traps. -/
def ldSpTRun (w : LdtW) (e : Env) (c : Ctx) (s : State) : Res :=
  let m := e.lm &&& e.only &&& ldtLanes w.sz
  if s.flagFull c (.ldSpT w) then .wait .stall s
  else
    let rows := if m = 0 then [] else List.range 16
    let r := rows.map fun r => (ldtAddr w e r, s.spAcc (teamOf c.cur.unit) r (ldtAddr w e r) (ldtRow w.sz))
    let bad := r.findSome? fun x => match x.2 with
      | .error k => some (k, x.1)
      | .ok _ => none
    match bad with
    | some (k, a) => .trap { oneTrap k (BitVec.ofNat 64 a) with cmap := m } s
    | none => .retire (s.count c (.ldSpT w) e e.recs ⟨m, r.filterMap fun x => match x.2 with
        | .ok a => some a
        | .error _ => none, none, none, false⟩)

/-- The bytes a lane stores: the low bytes of its data registers (04_caches_scratchpad R104). -/
def storeBytes (e : Env) (n l : Nat) : List Byte := toBytes n (opLane e.d l)

/-- Of lanes that name the same bytes only the highest stores (04_caches_scratchpad R102). -/
def lastLanes (accs : List Acc) : List Acc :=
  accs.filter fun a => accs.all fun x => decide (x.lane ≤ a.lane) || !(x.tgt == a.tgt && x.addr == a.addr)

/-- Issue the writes of a store (04_caches_scratchpad R104; 06_consistency R133, R138). -/
def State.store (s : State) (u : UnitId) (n : Nat) (e : Env) (accs : List Acc) (rel : Option Scope) : State :=
  if accs.isEmpty then s
  else
    let seq := ((s.regs? u).map (·.seq)).getD 0
    let g := rel.map (s.mkGate (s.dieOf u))
    let s := s.modRegs u fun r => { r with seq := r.seq + 1 }
    s.addWrites ((lastLanes accs).map fun a => s.mkWrite u seq a (storeBytes e n a.lane) g)

/-- A store form over lanes; `open_`: a lookup is not over. -/
def storeRun (e : Env) (c : Ctx) (s : State) (open_ : Bool) (chk : Nat → Except Nat Acc) (va : Nat → DWord) (n : Nat) (m : Lanes)
    (rel : Option Scope) : Res :=
  if open_ then .wait .stall s
  else match checkLanes m chk va with
  | .error bad => .trap (laneTrap bad m) s
  | .ok accs => .retire (s.store c.cur.unit n e accs rel)

/-- `st.g` (04_caches_scratchpad R104). -/
def stGRun (w : GmW) (e : Env) (c : Ctx) (s : State) : Res :=
  let va := gmAddrOf w 1 8 e
  let n := szBytes w.sz
  let m := effMap e [e.a, e.b, e.d]
  storeRun e c s (s.lanesOpen c.cur.unit m va n) (fun l => s.globAcc c.cur.unit l (va l) n .write) va n m (relOf w.ord (scopeOf w.sco))

/-- `st.sp` (04_caches_scratchpad R104). -/
def stSpRun (w : SpW) (e : Env) (c : Ctx) (s : State) : Res :=
  let a := spAddrOf w e
  let n := szBytes w.sz
  storeRun e c s false (fun l => s.spAcc (teamOf c.cur.unit) l (a l) n) (fun l => BitVec.ofNat 64 (a l)) n (effMap e [e.a, e.d])
    (relOf w.ord .team)

/-- `fence` (06_consistency R140): it waits for the earlier accesses, invalidates the caches, and from package scope on waits
until what its die has applied by then is applied everywhere; while it so waits every later access of its unit is held back,
and the caches are invalidated once more when it is performed (04_caches_scratchpad R86). -/
def fenceRun (sc : Scope) (c : Ctx) (s : State) : Res :=
  let u := c.cur.unit
  if c.phase = 0 then
    if !s.quiet u (s.seqOf u) then .wait .stall s
    else
      let s1 := if 2 ≤ scopeNum sc then s.dropCaches (s.coreOf u) (s.clusterOf u) else s
      let snap := s1.predsAt (s1.dieOf u)
      if scopeNum sc < 3 ∨ snap = [] then .retire s1
      else .wait (.fence (s.seqOf u)) (s1.modFrag c.cur fun f => { f with phase := 1, snap := snap })
  else
    let f := s.frag? c.cur
    if ((f.map (·.snap)).getD []).any s.onWay then .wait ((f.bind (·.wait)).getD .stall) s
    else .retire (s.dropCaches (s.coreOf u) (s.clusterOf u))

/-- The memory forms as instructions. -/
def execLdG (w : GmW) (s : State) : Host.Outcome State Fault Refusal := issueOps s (.ldG w) (ldGRun w)
def execLdC (w : GmW) (s : State) : Host.Outcome State Fault Refusal := issueOps s (.ldC w) (ldCRun w)
def execLdSp (w : SpW) (s : State) : Host.Outcome State Fault Refusal := issueOps s (.ldSp w) (ldSpRun w)
def execLdSpT (w : LdtW) (s : State) : Host.Outcome State Fault Refusal := issueOps s (.ldSpT w) (ldSpTRun w)
def execSLd (w : GmW) (s : State) : Host.Outcome State Fault Refusal := issueOps s (.sLd w) (sLdRun w)
def execStG (w : GmW) (s : State) : Host.Outcome State Fault Refusal := issueOps s (.stG w) (stGRun w)
def execStSp (w : SpW) (s : State) : Host.Outcome State Fault Refusal := issueOps s (.stSp w) (stSpRun w)
def execAtomG (op : AOp) (w : GmW) (s : State) : Host.Outcome State Fault Refusal := issueOps s (.atomG op w) (atomGRun op w)
def execAtomSp (op : AOp) (w : SpW) (s : State) : Host.Outcome State Fault Refusal := issueOps s (.atomSp op w) (atomSpRun op w)
def execFence (sc : Scope) (s : State) : Host.Outcome State Fault Refusal := issue s (.fence sc) (fenceRun sc)

end Sys2Proof.Machine
end

