-- ==== Sys2Proof/Machine/Narrow.lean ====
section
/-!
DEFINITION. Block-integer formats: elements, block sums, dot products, scaling, packing and unpacking, and the vote over format
words (09_narrow_formats).
-/
namespace Sys2Proof.Machine

/-- The NaN sum (09_narrow_formats R221). -/
def nanSum : Nat := 0x80000000

/-- Element `i` of a K8 run of bits; none is the NaN element (09_narrow_formats R214, R216). -/
def k8Elem (x i : Nat) : Option Int :=
  let b := x / 2 ^ (8 * i) % 256
  if b = 0x80 then none else some (sextNat 8 b)

/-- Element `i` of a K4 run of bits; none is the NaN element (09_narrow_formats R215, R216). -/
def k4Elem (x i : Nat) : Option Int :=
  let b := x / 2 ^ (4 * i) % 16
  if b = 8 then none else if b < 8 then some b else some (-((b - 8 : Nat) : Int))

/-- The exact sum of the products of elements; none where an element is a NaN. -/
def dotElems (el : Nat → Nat → Option Int) (a b : Nat) : Nat → Option Int
  | 0 => some 0
  | n + 1 =>
    match dotElems el a b n, el a n, el b n with
    | some s, some x, some y => some (s + x * y)
    | _, _, _ => none

/-- Add a dot product to a block sum (09_narrow_formats R222). -/
def addBlock (sat : Bool) (d : Nat) (dot : Option Int) : Nat :=
  match dot with
  | none => nanSum
  | some p =>
    if d = nanSum then nanSum
    else
      let x := sextNat 32 d + p
      if x.natAbs ≤ 2 ^ 31 - 1 then wrapNat 32 x
      else if sat then (if x > 0 then 2 ^ 31 - 1 else 2 ^ 31 + 1)
      else nanSum

/-- `kdot4` and `kdot8`: elements by type, `n` of them (09_narrow_formats R222). -/
def kdotRun (i : Instr) (w : GenW) (n : Nat) (e : Env) (c : Ctx) (s : State) : Res :=
  let el := if w.ty = 1 then k4Elem else k8Elem
  laneRun i e c s w.strict [e.a, e.b, e.d] 1
    (fun l => addBlock w.sat (opLane e.d l) (dotElems el (opLane e.a l) (opLane e.b l) n)) fun _ => 0

/-- A block sum as FP32 under two scale bytes (09_narrow_formats R223). -/
def kscaleB (a b : Nat) : Nat × Word :=
  let sa := b % 256
  let sb := b / 256 % 256
  if a = nanSum ∨ sa = 0x80 ∨ sb = 0x80 then (f32.nan, 0)
  else froundInt f32 0 false (sextNat 32 a) (sextNat 8 sa + sextNat 8 sb)

/-- `kscale`. -/
def kscaleRun (w : GenW) (e : Env) (c : Ctx) (s : State) : Res :=
  let g (l : Nat) : Nat × Word := kscaleB (opLane e.a l % 2 ^ 32) (opLane e.b l)
  laneRun (.kscale w) e c s w.strict [e.a, e.b] 1 (fun l => (g l).1) fun l => (g l).2

/-- An element's bits (09_narrow_formats R214, R215). -/
def elemBits (k4 : Bool) (neg : Bool) (q : Nat) : Nat :=
  if q = 0 then 0 else if k4 then (if neg then 8 + q else q) else if neg then 256 - q else q

/-- Quantise an FP32 value (09_narrow_formats R224): the element and the flags. -/
def quantise (k4 : Bool) (rm : RMode) (sc x : Nat) : Nat × Word :=
  let mx := if k4 then 7 else 127
  let nan := if k4 then 8 else 0x80
  match fdec f32 x with
  | .nan sg => (nan, flagIf sg flIV)
  | .inf n => if sc = 0x80 then (nan, 0) else (elemBits k4 n mx, flOF ||| flIX)
  | .fin n m e =>
    if sc = 0x80 then (nan, 0)
    else
      let r := roundAt rm n m (e - sextNat 8 sc) 0
      if mx < r.1 then (elemBits k4 n mx, flOF ||| flIX) else (elemBits k4 n r.1, flagIf r.2 flIX)

/-- `kpack` of one lane: the quad's bits, the scale, D's old bits (09_narrow_formats R224). -/
def kpackB (k4 hi : Bool) (rm : RMode) (a b d : Nat) : Nat × Word :=
  let q (i : Nat) : Nat × Word := quantise k4 rm (b % 256) (a / 2 ^ (32 * i) % 2 ^ 32)
  let fl := flagsOr ((List.range 4).map fun i => (q i).2)
  if k4 then
    let half := ((List.range 4).map fun i => (q i).1 * 2 ^ (4 * i)).sum
    (if hi then d % 2 ^ 16 + 2 ^ 16 * half else d % 2 ^ 32 / 2 ^ 16 * 2 ^ 16 + half, fl)
  else (((List.range 4).map fun i => (q i).1 * 2 ^ (8 * i)).sum, fl)

/-- `kpack`. -/
def kpackRun (w : GenW) (e : Env) (c : Ctx) (s : State) : Res :=
  let g (l : Nat) : Nat × Word :=
    kpackB (w.ty == 1) (w.opx.getLsbD 0) w.rm.toNat (opLane e.a l) (opLane e.b l) (opLane e.d l)
  laneRun (.kpack w) e c s w.strict [e.a, e.b, e.d] 1 (fun l => (g l).1) fun l => (g l).2

/-- `kunpack` of one lane: four FP32 values as one run of bits, and the flags (09_narrow_formats R225). -/
def kunpackB (k4 hi : Bool) (a b : Nat) : Nat × Word :=
  let sc := b % 256
  let v (i : Nat) : Nat × Word :=
    match (if k4 then k4Elem a (4 * bit hi + i) else k8Elem a i) with
    | none => (f32.nan, 0)
    | some x => if sc = 0x80 then (f32.nan, 0) else froundInt f32 0 false x (sextNat 8 sc)
  (((List.range 4).map fun i => (v i).1 * 2 ^ (32 * i)).sum, flagsOr ((List.range 4).map fun i => (v i).2))

/-- `kunpack`. -/
def kunpackRun (w : GenW) (e : Env) (c : Ctx) (s : State) : Res :=
  let g (l : Nat) : Nat × Word := kunpackB (w.ty == 1) (w.opx.getLsbD 0) (opLane e.a l) (opLane e.b l)
  laneRun (.kunpack w) e c s w.strict [e.a, e.b] 4 (fun l => (g l).1) fun l => (g l).2

/-- Is a format word valid, and its element format; K4 only where its feature is accepted (09_narrow_formats R218;
18_host_and_trust R401). -/
def fmtWord (k4 : Bool) (v : Nat) : Option Nat := if 0x40 ≤ v ∧ v ≤ 0x44 ∧ (v ≠ 0x43 ∨ k4 = true) then some (v - 0x40) else none

/-- The vote over format words (09_narrow_formats R219): the agreed format, or the lowest lane's word and the lowest lane that
differs from it, 32 where none does. -/
def fmtVote (k4 : Bool) (v : Lanes) (g : Nat → Nat) : Except (Nat × Nat) Nat :=
  match lanesOf v with
  | [] => .error (Config.emptyVote.toNat, 32)
  | l :: r =>
    match r.find? (fun k => g k != g l) with
    | some k => .error (g l, k)
    | none => match fmtWord k4 (g l) with
      | some f => .ok f
      | none => .error (g l, 32)

/-- The narrow forms as instructions. -/
def execKdot4 (w : GenW) (s : State) : Host.Outcome State Fault Refusal := issueOps s (.kdot4 w) (kdotRun (.kdot4 w) w 4)
def execKdot8 (w : GenW) (s : State) : Host.Outcome State Fault Refusal := issueOps s (.kdot8 w) (kdotRun (.kdot8 w) w 8)
def execKscale (w : GenW) (s : State) : Host.Outcome State Fault Refusal := issueOps s (.kscale w) (kscaleRun w)
def execKpack (w : GenW) (s : State) : Host.Outcome State Fault Refusal := issueOps s (.kpack w) (kpackRun w)
def execKunpack (w : GenW) (s : State) : Host.Outcome State Fault Refusal := issueOps s (.kunpack w) (kunpackRun w)

end Sys2Proof.Machine
end

