-- ==== Sys2Proof/Machine/Matrix.lean ====
section
/-!
DEFINITION. The matrix engine and the nonzero scan: operand slots, the accumulator store, reservation entries from issue to
completion, and what a pass computes (11_matrix_engine; 12_sparse_rows R271 to R275, R285).
-/
namespace Sys2Proof.Machine

/-- An access that counts as a store and is performed at retirement must wait: for an earlier acquire, or for an earlier load of
the same elements (06_consistency R143; 11_matrix_engine R250, R254; 12_sparse_rows R285). -/
def State.heldBack (s : State) (u : UnitId) (hit : Acc → Bool) : Bool :=
  s.acqPending u || (((s.regs? u).map (·.ops)).getD []).any fun o => o.accs.any fun a => hit a && (tget o.vals a.lane).isNone

/-- A team's operand slot. -/
def State.slot? (s : State) (t k : Nat) : Option Slot := (s.team? t).bind fun x => x.slots[k]?

/-- Change a slot. -/
def State.modSlot (s : State) (t k : Nat) (f : Slot → Slot) : State := s.modTeam t fun x => { x with slots := lmod x.slots k f }

/-- `op.claim` and `op.rel` (11_matrix_engine R247; 12_sparse_rows R285). -/
def slotRun (k : Nat) (f : Slot → Slot) (c : Ctx) (s : State) : Res :=
  let u := c.cur.unit
  let t := teamOf u
  if (s.slot? t k).isNone then .trap (plainTrap cSLOT) s
  else if s.passReads t k then .wait (.pass k) s
  else if s.heldBack u fun _ => false then .wait .stall s
  else .retire (s.modSlot t k f)

/-- `op.claim` (11_matrix_engine R247). -/
def opClaimRun (w : ClaimW) (c : Ctx) (s : State) : Res := slotRun w.k.toNat (fun z => { z with cl := true, fmt := w.fmt.toNat }) c s

/-- `op.rel` (11_matrix_engine R247). -/
def opRelRun (k : BitVec 6) (c : Ctx) (s : State) : Res := slotRun k.toNat (fun z => { z with cl := false }) c s

/-- `op.st` (11_matrix_engine R248). -/
def opStRun (w : OpStW) (e : Env) (c : Ctx) (s : State) : Res :=
  let t := teamOf c.cur.unit
  let k := w.k.toNat
  let n := szBytes w.sz
  let m := effMap e [e.a, e.b]
  let off (l : Nat) : Nat := opLane e.b l % 2 ^ 32 + 16 * w.off.toNat
  match strictTrap e w.strict [e.a, e.b] with
  | some x => .trap x s
  | none =>
    if s.badSlot t k then .trap { plainTrap cSLOT with cmap := m } s
    else
      let size := imageBytes (((s.slot? t k).map (·.fmt)).getD 0)
      let bad := (lanesOf m).filterMap fun l =>
        if off l % n ≠ 0 then some (l, cALIGN, BitVec.ofNat 64 (off l))
        else if size < off l + n then some (l, cRANGE, BitVec.ofNat 64 (off l)) else none
      if !bad.isEmpty then .trap (laneTrap bad m) s
      else if s.heldBack c.cur.unit fun _ => false then .wait .stall s
      else .retire (s.modSlot t k fun z => { z with bytes := (lanesOf m).foldl (fun b l => putBytes b (off l) (toBytes n (opLane e.a l))) z.bytes })

/-- The trap of a format vote (15_traps_preemption R331). -/
def fmtTrap (x : Nat × Nat) (cmap : Lanes) : TrapInfo :=
  { plainTrap cFMTDIV (BitVec.ofNat 64 (x.1 % 2 ^ 32 + 2 ^ 32 * x.2)) with cmap := cmap }

/-- `mx.feed` (11_matrix_engine R249); every lane of L that F holds votes, in a replay too (15_traps_preemption R341). Its RANGE and
SLOT traps have no fault record (log entry 81). -/
def mxFeedRun (w : FeedW) (e : Env) (c : Ctx) (s : State) : Res :=
  let t := teamOf c.cur.unit
  let k := w.k.toNat
  let m := effMap e [e.a, e.b]
  match strictTrap e w.strict [e.a, e.b] with
  | some x => .trap x s
  | none =>
    match fmtVote (s.feature 5) (opMap e.b &&& e.lm) (fun l => opLane e.b l % 2 ^ 32) with
    | .error x => .trap (fmtTrap x m) s
    | .ok fmt =>
      let sf := ((s.slot? t k).map (·.fmt)).getD 0
      if s.badSlot t k || !(fmt == sf || (fmt == 4 && decide (sf ≤ 1))) then .trap { plainTrap cSLOT with cmap := m } s
      else
        let n := if fmt = sf then 4 else 2
        let base := 32 * n * (w.seg.toNat + (if w.sr then opScal (e.more.headD []) else 0))
        if imageBytes sf < base + 32 * n then .trap { plainTrap cRANGE with cmap := m } s
        else if s.heldBack c.cur.unit fun _ => false then .wait .stall s
        else
          let v (l : Nat) : Nat × Word :=
            let x := opLane e.a l % 2 ^ 32
            if n = 4 then (x, 0) else fcvtFF (if sf = 0 then f16 else bf16) 0 (fdec f32 x)
          let s := s.modSlot t k fun z =>
            { z with bytes := (lanesOf m).foldl (fun b l => putBytes b (base + n * l) (toBytes n (v l).1)) z.bytes }
          match c.cur.unit with
          | .warp a b => .retire (s.modWarp a b fun x => x.orFst (flagsOr ((lanesOf m).map fun l => (v l).2)))
          | .ccc _ _ => .retire s

/-- `ac.ld` (11_matrix_engine R252). -/
def acLdRun (w : AcLdW) (e : Env) (c : Ctx) (s : State) : Res :=
  let t := teamOf c.cur.unit
  let row := w.row.toNat + (if w.rs then opScal e.a else 0)
  let col := 32 * w.cs.toNat
  let m := e.lm &&& e.only
  if s.flagFull c (.acLd w) then .wait .stall s
  else if !inRegion (s.blocksOf t) row col then
    .trap { oneTrap cRANGE (BitVec.ofNat 64 (row % 512 + 2 ^ 16 * col + 2 ^ 32 * (row / 512))) with cmap := m } s
  else .retire (s.count c (.acLd w) e e.recs
    ⟨m, (lanesOf m).map fun l => ⟨l, .acc t, 4 * (512 * row + col + l), 0, 4, 0, false, 0⟩, none, none, false⟩)

/-- The accumulator elements that an instruction clears or a pass writes: first row, rows, first column (11_matrix_engine R253,
R255). `caps` are its captured scalars. -/
def outRows (i : Instr) (caps : List Word) : Option (Nat × Nat × Nat) :=
  match i with
  | .acClr w => some (w.row.toNat + (if w.rs then (caps.getD 0 0).toNat else 0), w.nr.toNat + 1, 128 * w.cb.toNat)
  | .mxIp w => some (w.row0.toNat, 128, 128 * w.cb.toNat)
  | .mxOp w => some (w.row0.toNat, 128, 128 * w.cb.toNat)
  | .mxRw w => some (w.row0.toNat, (caps.getD 1 0).toNat, 128 * w.cb.toNat)
  | _ => none

/-- The rows lie within the team's region. -/
def rowsOk (nb : Nat) (x : Nat × Nat × Nat) : Bool :=
  decide (x.1 + x.2.1 ≤ 512) && inRegion nb x.1 x.2.2 && inRegion nb (x.1 + x.2.1 - 1) x.2.2

/-- Set accumulator elements to +0 (11_matrix_engine R253). -/
def State.clearAcc (s : State) (t : Nat) (x : Nat × Nat × Nat) : State :=
  s.modTeam t fun y => { y with acc := y.acc.filter fun e =>
    !(decide (x.1 ≤ e.1 / 512) && decide (e.1 / 512 < x.1 + x.2.1) && e.1 % 512 / 128 == x.2.2 / 128) }

/-- An access is to elements that an instruction clears. -/
def hitsRows (t : Nat) (x : Nat × Nat × Nat) (a : Acc) : Bool :=
  let i := a.addr / 4
  a.tgt == .acc t && decide (x.1 ≤ i / 512) && decide (i / 512 < x.1 + x.2.1) && i % 512 / 128 == x.2.2 / 128

/-- The virtual address of the issuing word. -/
def wordVA (c : Ctx) : DWord := c.cpc + BitVec.ofNat 64 (8 * (c.slot + 1))

/-- The `.after` and `.sig` points of an entry's instruction (11_matrix_engine R255; 12_sparse_rows R271). -/
def pointsOf : Instr → Option Nat × Option Nat
  | .mxIp w => (if w.ae then some w.apt.toNat else none, if w.se then some w.spt.toNat else none)
  | .mxOp w => (if w.ae then some w.apt.toNat else none, if w.se then some w.spt.toNat else none)
  | .mxRw w => (if w.ae then some w.apt.toNat else none, if w.se then some w.spt.toNat else none)
  | .mxNzs w => (if w.ae then some w.apt.toNat else none, if w.se then some w.spt.toNat else none)
  | _ => (none, none)

/-- A named point is not initialised (11_matrix_engine R265; 12_sparse_rows R272). -/
def State.pointBad (s : State) (t : Nat) (i : Instr) : Bool :=
  let p := pointsOf i
  p.1.any (fun n => !(s.rv t n).init) || p.2.any fun n => !(s.rv t n).init

/-- Wait for a reservation entry in the order of requests, then issue the entry (11_matrix_engine R265). While it waits, the
context keeps what the checks have captured. -/
def entryIssue (i : Instr) (caps : List Word) (tiles : List (Nat × Nat × Nat)) (c : Ctx) (s : State) : Res :=
  match c.cur.unit with
  | .warp _ _ => .retire s
  | .ccc t k =>
    let cl := s.clusterOf c.cur.unit
    let s := if (s.cluster cl).entryQ.contains c.cur.unit then s
      else s.modCluster cl fun x => { x with entryQ := x.entryQ ++ [c.cur.unit] }
    if !s.entryGo c.cur.unit then .wait .entry (s.modFrag c.cur fun f => { f with phase := 1, snap := caps.map (·.toNat) })
    else
      let p := pointsOf i
      let tg (n : Nat) : Nat := ((s.frag? c.cur).map fun f => f.tg.getD n 1).getD 1
      let ent : REnt :=
        { id := s.nextId, team := t, ctx := k, instr := i, va := wordVA c, mxc := ((s.ccc? t k).map (·.mxc)).getD 0, caps := caps,
          after := p.1.map fun n => (n, tg n), sig := p.2, tiles := tiles, passed := 0, asked := none, granted := none, rows := [],
          lists := 0 }
      let s := s.modCluster cl fun x => { x with entries := x.entries ++ [ent], entryQ := x.entryQ.filter (· != c.cur.unit) }
      let s := { s with nextId := s.nextId + 1 }
      let s := match p.1 with
        | some n => s.modFrag c.cur fun f => { f with tg := lset f.tg n ((tg n + 1) % 16) }
        | none => s
      .retire (s.useTiles tiles)

/-- The scalars that records hold. -/
def capsOf (e : Env) : List Word := e.recs.map fun r => r.vals.getD 0 0

/-- A form that becomes an entry: its checks are made once, then it waits for an entry (11_matrix_engine R265). `check`: the trap
of the first check that fails; `tiles`: its extent. -/
def entryForm (i : Instr) (check : State → List Word → Option TrapInfo) (tiles : State → List Word → List (Nat × Nat × Nat)) (e : Env)
    (c : Ctx) (s : State) : Res :=
  let kept : List Word := (((s.frag? c.cur).map (·.snap)).getD []).map (BitVec.ofNat 32 ·)
  if c.phase = 1 then entryIssue i kept (tiles s kept) c s
  else match check s (capsOf e) with
  | some x => .trap x s
  | none => entryIssue i (capsOf e) (tiles s (capsOf e)) c s

/-- `ac.clr`: at once in a warp, through an entry in a context (11_matrix_engine R253, R265). Its RANGE trap has no fault record (log
entry 81). -/
def acClrRun (w : AcClrW) (e : Env) (c : Ctx) (s : State) : Res :=
  let u := c.cur.unit
  let t := teamOf u
  let bad (s : State) (caps : List Word) : Option TrapInfo :=
    if (outRows (.acClr w) caps).any fun x => !rowsOk (s.blocksOf t) x then some (plainTrap cRANGE) else none
  match u with
  | .ccc _ _ => entryForm (.acClr w) bad (fun _ _ => []) e c s
  | .warp _ _ =>
    match bad s (capsOf e), outRows (.acClr w) (capsOf e) with
    | some x, _ => .trap x s
    | none, some x => if s.heldBack u (hitsRows t x) then .wait .stall s else .retire (s.clearAcc t x)
    | none, none => .retire s

/-- `mx.cfg` (11_matrix_engine R256). -/
def mxCfgRun (w : CfgW) (e : Env) (c : Ctx) (s : State) : Res :=
  let v : Word := if w.im then w.imm.setWidth 32 else BitVec.ofNat 32 (opScal e.a)
  if v.toNat / 4 % 4 ≠ 0 ∨ 2 ^ 11 ≤ v.toNat ∨ 32 < v.toNat / 16 % 64 then .trap (plainTrap cRANGE) s
  else match c.cur.unit with
    | .warp _ _ => .retire s
    | .ccc t k => .retire (s.modCcc t k fun x => { x with mxc := v, mxs := if w.cf then 0 else x.mxs })

/-- The first element that is some trap. -/
def firstTrap (l : List (Option TrapInfo)) : Option TrapInfo := l.findSome? id

/-- A check: a cause where the condition holds. -/
def trapIf (b : Bool) (x : TrapInfo) : Option TrapInfo := if b then some x else none

/-- The extent of engine lists fails R89 or touches a T-owned tile (11_matrix_engine R265 rows 5, 6). -/
def State.extentBad (s : State) (t a len : Nat) : Option TrapInfo :=
  match s.extent t a len with
  | .error x => some (oneTrap cRANGE (BitVec.ofNat 64 x))
  | .ok x => (s.tTile a (tilesOf x len)).map fun v => oneTrap cOWNER (BitVec.ofNat 64 v)

/-- The tiles of an extent. -/
def State.extentTiles (s : State) (t a len : Nat) : List (Nat × Nat × Nat) :=
  match s.extent t a len with
  | .error _ => []
  | .ok x => tilesOf x len

/-- `mx.ip` and `mx.op` (11_matrix_engine R265). -/
def mxDenseRun (i : Instr) (w : MxW) (e : Env) (c : Ctx) (s : State) : Res :=
  let t := teamOf c.cur.unit
  entryForm i (fun s _ => firstTrap [trapIf ((s.slot? t w.a.toNat).isNone || (s.slot? t w.b.toNat).isNone) (plainTrap cSLOT),
      trapIf (s.pointBad t i || !rowsOk (s.blocksOf t) (w.row0.toNat, 128, 128 * w.cb.toNat)) (plainTrap cRANGE)])
    (fun _ _ => []) e c s

/-- The checks of `mx.rw` (11_matrix_engine R265). -/
def mxRwCheck (w : MxW) (t : Nat) (s : State) (caps : List Word) : Option TrapInfo :=
  let p := (caps.getD 0 0).toNat
  let nr := (caps.getD 1 0).toNat
  firstTrap [trapIf (s.slot? t w.b.toNat).isNone (plainTrap cSLOT),
    trapIf (s.pointBad t (.mxRw w)) (plainTrap cRANGE),
    trapIf (nr == 0 || decide (128 < nr) || !rowsOk (s.blocksOf t) (w.row0.toNat, nr, 128 * w.cb.toNat)) (plainTrap cRANGE),
    trapIf (p % 1024 != 0) (oneTrap cALIGN (BitVec.ofNat 64 p)),
    s.extentBad t p (1024 * nr)]

/-- `mx.rw` (11_matrix_engine R263, R265). -/
def mxRwRun (w : MxW) (e : Env) (c : Ctx) (s : State) : Res :=
  let t := teamOf c.cur.unit
  entryForm (.mxRw w) (mxRwCheck w t) (fun s caps => s.extentTiles t (caps.getD 0 0).toNat (1024 * (caps.getD 1 0).toNat)) e c s

/-- The source bytes of a scan (12_sparse_rows R272). -/
def nzsLen (caps : List Word) : Nat := 256 * ((caps.getD 3 0).toNat - 1) + 2 * (caps.getD 2 0).toNat

/-- The checks of `mx.nzs` (12_sparse_rows R272); `caps`: list address, source address, n, nr. -/
def mxNzsCheck (w : NzsW) (t : Nat) (s : State) (caps : List Word) : Option TrapInfo :=
  let cap (k : Nat) : Nat := (caps.getD k 0).toNat
  let out := 1024 * cap 3
  let v (k : Nat) : DWord := BitVec.ofNat 64 (cap k)
  let range : Option TrapInfo := match s.extent t (cap 1) (nzsLen caps), s.extent t (cap 0) out with
    | .error x, _ => some (oneTrap cRANGE (BitVec.ofNat 64 x))
    | .ok _, .error x => some (oneTrap cRANGE (BitVec.ofNat 64 x))
    | .ok x, .ok y => trapIf (x.1 == y.1 && x.2.1 == y.2.1 && meets x.2.2 (nzsLen caps) y.2.2 out) (oneTrap cRANGE (v 0))
  firstTrap [trapIf (s.pointBad t (.mxNzs w) || cap 2 == 0 || decide (128 < cap 2) || cap 3 == 0 || decide (128 < cap 3)) (plainTrap cRANGE),
    trapIf (cap 1 % 16 != 0) (oneTrap cALIGN (v 1)),
    trapIf (cap 0 % 1024 != 0) (oneTrap cALIGN (v 0)),
    range, s.extentBad t (cap 1) (nzsLen caps), s.extentBad t (cap 0) out]

/-- `mx.nzs` (12_sparse_rows R272). -/
def mxNzsRun (w : NzsW) (e : Env) (c : Ctx) (s : State) : Res :=
  let t := teamOf c.cur.unit
  entryForm (.mxNzs w) (mxNzsCheck w t) (fun s caps => (s.extentTiles t (caps.getD 1 0).toNat (nzsLen caps) ++
    s.extentTiles t (caps.getD 0 0).toNat (1024 * (caps.getD 3 0).toNat)).eraseDups) e c s

/-- An entry's unit (12_sparse_rows R274). -/
def REnt.unit (x : REnt) : Requester := match x.instr with
  | .mxNzs _ => .nzs
  | _ => .mxe

/-- Two entries touch a common accumulator element or tile (11_matrix_engine R266). -/
def REnt.clash (a b : REnt) : Bool :=
  (match outRows a.instr a.caps, outRows b.instr b.caps with
    | some x, some y => x.2.2 == y.2.2 && meets x.1 x.2.1 y.1 y.2.1
    | _, _ => false) || a.tiles.any b.tiles.contains

/-- An entry is eligible (11_matrix_engine R266). -/
def State.eligible (s : State) (cl : Nat) (x : REnt) : Bool :=
  let set := (s.team? x.team).bind fun t => (s.set? t.set).map fun y => (t.cplace, y.frozen)
  x.granted.isNone && x.after.all (fun p => rvPassed (s.rv x.team p.1).gen p.2) &&
    set == some (.resident, false) && !(x.tiles.any fun y => s.coreSaved y.1 y.2.1) &&
    (s.cluster cl).entries.all fun y => decide (x.id ≤ y.id) || y.team != x.team || y.ctx != x.ctx || !x.clash y

/-- The effective class of an entry (11_matrix_engine R267). -/
def REnt.effClass (x : REnt) : Nat := min 7 (x.mxc.toNat % 4 + x.passed / 64)

/-- The entry that goes first: the highest effective class, then the earliest issued (11_matrix_engine R267). -/
def firstEnt (l : List REnt) : Option REnt :=
  l.foldl (fun r x => match r with
    | none => some x
    | some b => if b.effClass < x.effClass ∨ (b.effClass = x.effClass ∧ x.id < b.id) then some x else some b) none

/-- Is the entry a pass, which a budget counts (17_power R387)? -/
def REnt.isPass (x : REnt) : Bool := match x.instr with
  | .mxIp _ | .mxOp _ | .mxRw _ => true
  | _ => false

/-- The eligible entries of a unit. -/
def State.cands (s : State) (cl : Nat) (who : Requester) : List REnt :=
  (s.cluster cl).entries.filter fun x => x.unit == who && s.eligible cl x

/-- A pass of a class waits for the next period before it joins the arbitration (17_power R388). -/
def State.entryHeld (s : State) (cl : Nat) (who : Requester) (x : REnt) : Bool :=
  let k := s.curOf x.team
  x.isPass && s.budgetHeld cl k (bitsOf (s.budget cl k) 15 0) ((s.cluster cl).passes.getD k 0)
    ((s.cands cl who).any fun y => s.curOf y.team != k)

/-- The granted entry of a unit that was granted first; a scan whose tiles a save holds has stopped (12_sparse_rows R274). -/
def State.grantedEnt (s : State) (cl : Nat) (who : Requester) : Option REnt :=
  ((s.cluster cl).entries.filter fun x => x.unit == who && x.granted.isSome && (who != .nzs || !(x.tiles.any fun y => s.coreSaved y.1 y.2.1))).foldl
    (fun (r : Option REnt) x => match r with
      | none => some x
      | some b => if x.granted.getD 0 < b.granted.getD 0 then some x else some b) none

/-- The entries of a unit that have become eligible ask for current, and while the unit is free the one that is to be granted first
stands for it in the arbitration (11_matrix_engine R267; 17_power R383, R384, R388). -/
def State.entryAsk (s : State) (cl : Nat) (who : Requester) : State :=
  let l := (s.cands cl who).filter fun x => !s.entryHeld cl who x
  let ids := l.map (·.id)
  let s := s.modCluster cl fun c => { c with entries := c.entries.map fun x =>
    if x.unit != who then x else { x with asked := if ids.contains x.id then x.asked.or (some c.clk) else none } }
  s.modCluster cl fun c =>
    let c := { c with reqs := c.reqs.filter (·.who != who) }
    if c.held.any (·.who == who) || (s.grantedEnt cl who).isSome then c
    else match firstEnt (c.entries.filter fun x => ids.contains x.id) with
    | none => c
    | some x => { c with reqs := c.reqs ++ [⟨who, x.team, who.quarters c.ratio, x.asked.getD c.clk, x.id, 1, 0⟩] }

/-- The entries of both units ask for current. -/
def State.entryAsks (s : State) (cl : Nat) : State := (s.entryAsk cl .mxe).entryAsk cl .nzs

/-- K by slot format (11_matrix_engine R246). -/
def kOf (fmt : Nat) : Nat := if fmt ≤ 1 then 128 else if fmt = 2 then 256 else 512

/-- K-blocks a pass uses (11_matrix_engine R258). -/
def kBlocks (mxc : Word) (fmt : Nat) : Nat := if mxc.toNat / 16 % 64 = 0 then kOf fmt / 16 else mxc.toNat / 16 % 64

/-- A 32-bit word of scratchpad. -/
def State.spWord (s : State) (x : Nat × Nat × Nat) (off : Nat) : Nat := ofBytes (s.spBytes x.1 x.2.1 (x.2.2 + off) 4)

/-- The entries of a list object as (k, value); none where its count, or its order or range, is wrong (11 R263, R268). -/
def State.readList (s : State) (x : Nat × Nat × Nat) (nb : Nat) : Option (List (Nat × Nat)) :=
  let n := s.spWord x 0
  if 128 < n then none
  else
    let l := (List.range n).map fun j => let v := s.spWord x (4 + 4 * j); (v % 65536, v / 65536)
    if (l.zip (l.drop 1)).all (fun p => decide (p.1.1 < p.2.1)) && l.all fun p => decide (p.1 < 16 * nb) then some l else none

/-- The checks at grant: the lists read, or the cause of a grant fault (11_matrix_engine R268). -/
def State.grantCheck (s : State) (x : REnt) : Except Nat (List (List (Nat × Nat))) :=
  let slot (k : BitVec 6) : Option Slot := (s.slot? x.team k.toNat).filter (·.cl)
  let kn := x.mxc.toNat / 16 % 64
  match x.instr with
  | .mxRw w =>
    match slot w.b with
    | none => .error cSLOT
    | some z =>
      if 1 < z.fmt then .error cSLOT
      else if kOf z.fmt / 16 < kn then .error cRANGE
      else match s.spDecode x.team (x.caps.getD 0 0).toNat with
        | none => .error cRANGE
        | some a =>
          let ls := (List.range (x.caps.getD 1 0).toNat).map fun i => s.readList (a.1, a.2.1, a.2.2 + 1024 * i) (kBlocks x.mxc z.fmt)
          if ls.any (·.isNone) then .error cRANGE else .ok (ls.map fun l => l.getD [])
  | .mxIp w | .mxOp w =>
    match slot w.a, slot w.b with
    | some a, some b => if a.fmt ≠ b.fmt then .error cSLOT else if kOf a.fmt / 16 < kn then .error cRANGE else .ok []
    | _, _ => .error cSLOT
  | _ => .ok []

/-- An entry ends: its tiles are let go, its arrival is applied, and it leaves the table (11_matrix_engine R269). -/
def State.endEnt (s : State) (cl : Nat) (x : REnt) : State :=
  let s := s.freeTiles x.tiles
  let s := match x.sig with
    | none => s
    | some n => match (s.rv x.team n).arrive 1 with
      | some o => s.setRv x.team n o
      | none => s
  (s.modCluster cl fun c => { c with entries := c.entries.filter (·.id != x.id) }).curFree cl x.unit

/-- Grant an entry (11_matrix_engine R267, R268; 17_power R387). -/
def State.grantEnt (s : State) (cl : Nat) (x : REnt) : State :=
  let others := ((s.cluster cl).entries.filter fun y => y.id != x.id && s.eligible cl y).map (·.id)
  let k := s.curOf x.team
  let s1 := s.modCluster cl fun c =>
    { c with entries := c.entries.map fun y => if others.contains y.id then { y with passed := y.passed + 1 } else y
             passes := if x.isPass then lmod c.passes k (· + 1) else c.passes }
  match s1.grantCheck x with
  | .error cause =>
    (s1.modCcc x.team x.ctx fun y => { y with grantf := y.grantf <|> some (x.va, cause) }).endEnt cl x
  | .ok rows =>
    let s2 := s1.modCluster cl fun c =>
      { c with entries := c.entries.map fun y => if y.id = x.id then { y with granted := some s1.nextId, rows := rows } else y }
    { s2 with nextId := s2.nextId + 1 }

/-- The entry whose current reservation is granted. -/
def State.entryDue (s : State) (cl : Nat) (who : Requester) : Option REnt :=
  (s.curHeld cl who).bind fun r => (s.cands cl who).find? (·.id == r.tag)

/-- A reservation is released if its entry is no longer there or eligible. -/
def State.entryDrop (s : State) (cl : Nat) (who : Requester) : State :=
  if (s.grantedEnt cl who).isSome || (s.entryDue cl who).isSome then s
  else s.modCluster cl fun c => { c with held := c.held.filter (·.who != who) }

/-- The arbiter: of the entries whose reservation is granted the first is granted; it waits for a granted entry that touches
common elements or tiles, so that entries act one at a time in grant order (11_matrix_engine R267, R269; 12_sparse_rows R274). -/
def State.entryGrant (s : State) (cl : Nat) : State :=
  let s := ((s.entryAsks cl).entryDrop cl .mxe).entryDrop cl .nzs
  match firstEnt ([Requester.mxe, .nzs].filterMap (s.entryDue cl)) with
  | none => s
  | some x => if (s.cluster cl).entries.any fun y => y.granted.isSome && x.clash y then s else s.grantEnt cl x

/-- A context takes its grant fault at its next boundary (11_matrix_engine R268; 15_traps_preemption R328, R347). -/
def State.takeGrantFault (s : State) (t i : Nat) : State :=
  match s.ccc? t i with
  | none => s
  | some x =>
    match x.grantf with
    | none => s
    | some (va, cause) =>
      if x.exited || x.trapd.isSome || ((s.set? (s.setOf t)).map (·.frozen)).getD true then s
      else
        (s.modCcc t i fun y => { y with grantf := none }).cccTrap t i 2 0 ⟨cause, true, x.frag.arrived none, x.frag.slot, va, 0, x.frag.cpc⟩

/-- An element of an FP16 or BF16 image (11_matrix_engine R246): role A by row and k, role B by k and column. -/
def fpA (z : Slot) (i k : Nat) : Nat := ofBytes ((List.range 2).map fun j => tgetD z.bytes (256 * i + 2 * k + j) 0)
def fpB (z : Slot) (k n : Nat) : Nat := ofBytes ((List.range 2).map fun j => tgetD z.bytes (256 * k + 2 * n + j) 0)

/-- An element of a K8 or K4 image, none for a NaN, and its scale (11_matrix_engine R246). -/
def kA (z : Slot) (i k : Nat) : Option Int :=
  if z.fmt = 2 then k8Elem (tgetD z.bytes (256 * i + k) 0).toNat 0 else k4Elem (tgetD z.bytes (256 * i + k / 2) 0).toNat (k % 2)
def kB (z : Slot) (k n : Nat) : Option Int :=
  if z.fmt = 2 then k8Elem (tgetD z.bytes (128 * k + n) 0).toNat 0 else k4Elem (tgetD z.bytes (64 * k + n / 2) 0).toNat (n % 2)
def scaleA (z : Slot) (i kb : Nat) : Nat := (tgetD z.bytes (32768 + (if z.fmt = 2 then 16 else 32) * i + kb) 0).toNat
def scaleB (z : Slot) (kb n : Nat) : Nat := (tgetD z.bytes (32768 + 128 * kb + n) 0).toNat

/-- A block sum of floating products, with its flags (11_matrix_engine R259). -/
def fpBlock (f : Fmt) (q : List (Nat × Nat)) : Nat × Word :=
  let z (x : Nat) : Bool := x % f.top == 0
  let q := (q.filter fun p => !z p.1 && !z p.2).map fun p => (fdec f p.1, fdec f p.2)
  let sig := snan (q.flatMap fun p => [p.1, p.2])
  if q.any fun p => p.1.isNan || p.2.isNan then (f32.nan, sig)
  else
    let prod (p : FV × FV) : FV := (fmulV p.1 p.2).1
    let pos := q.any fun p => prod p == .inf false
    let neg := q.any fun p => prod p == .inf true
    if pos && neg then (f32.nan, sig ||| flIV)
    else if pos then (f32.infBits, sig)
    else if neg then (f32.top + f32.infBits, sig)
    else
      let e0 : Int := 2 * f.qmin
      let sum : Int := (q.map fun p => match prod p with
        | .fin n m e => (if n then -1 else 1) * ((m * 2 ^ (e - e0).toNat : Nat) : Int)
        | _ => 0).sum
      if sum = 0 then (0, sig)
      else
        let r := froundInt f32 0 false sum e0
        (r.1, sig ||| r.2)

/-- A block sum of integer products under their scales (11_matrix_engine R260). -/
def kBlock (q : List (Option Int × Option Int)) (sa sb : Nat) : Nat × Word :=
  if sa = 0x80 ∨ sb = 0x80 ∨ (q.any fun p => p.1.isNone || p.2.isNone) = true then (f32.nan, 0)
  else froundInt f32 0 false (q.map fun p => p.1.getD 0 * p.2.getD 0).sum (sextNat 8 sa + sextNat 8 sb)

/-- The block sum of a pass for an output element (11_matrix_engine R258 to R260, R263). -/
def State.blockSum (s : State) (x : REnt) (i n b : Nat) : Nat × Word :=
  let slot (k : BitVec 6) : Slot := (s.slot? x.team k.toNat).getD Slot.reset
  let ks := (List.range 16).map (16 * b + ·)
  match x.instr with
  | .mxRw w =>
    let z := slot w.b
    let l := x.rows.getD i []
    fpBlock (if z.fmt = 0 then f16 else bf16) (ks.filterMap fun k =>
      ((l.zip (List.range l.length)).find? fun p => p.1.1 == k).map fun p => (p.1.2, fpB z (if w.cx then p.2 else k) n))
  | .mxIp w | .mxOp w =>
    let a := slot w.a
    let z := slot w.b
    if a.fmt ≤ 1 then fpBlock (if a.fmt = 0 then f16 else bf16) (ks.map fun k => (fpA a i k, fpB z k n))
    else kBlock (ks.map fun k => (kA a i k, kB z k n)) (scaleA a i b) (scaleB z b n)
  | _ => (0, 0)

/-- One output element: the block sums added in ascending order (11_matrix_engine R258). -/
def State.passElem (s : State) (x : REnt) (nb i n c : Nat) : Nat × Word :=
  (List.range nb).foldl (fun r b =>
    let t := s.blockSum x i n b
    let v := faddB f32 0 (fdec f32 r.1) (fdec f32 t.1)
    (v.1, r.2 ||| t.2 ||| v.2)) (c, 0)

/-- `.clr` of a pass. -/
def clrOf : Instr → Bool
  | .mxIp w => w.clr
  | .mxOp w => w.clr
  | .mxRw w => w.clr
  | _ => false

/-- The format of the operands of a pass. -/
def State.passFmt (s : State) (x : REnt) : Nat :=
  let f (k : BitVec 6) : Nat := ((s.slot? x.team k.toNat).map (·.fmt)).getD 0
  match x.instr with
  | .mxIp w => f w.b
  | .mxOp w => f w.b
  | .mxRw w => f w.b
  | _ => 0

/-- Write every output element of a pass, and its flags into MXS (11_matrix_engine R258, R261). -/
def State.runPass (s : State) (x : REnt) : State :=
  match outRows x.instr x.caps with
  | none => s
  | some o =>
    if !x.isPass then s.clearAcc x.team o
    else
      let nb := kBlocks x.mxc (s.passFmt x)
      let one (j : Nat) : Nat × Nat × Word :=
        let k := 512 * (o.1 + j / 128) + o.2.2 + j % 128
        let r := s.passElem x nb (j / 128) (j % 128) (if clrOf x.instr then 0 else (s.accElem x.team k).toNat)
        (k, r.1, r.2)
      let rs := (List.range (128 * o.2.1)).map one
      let s1 := s.modTeam x.team fun y => { y with acc := rs.foldl (fun t r => tset 0 t r.1 (BitVec.ofNat 32 r.2.1)) y.acc }
      s1.modCcc x.team x.ctx fun y => { y with mxs := y.mxs ||| flagsOr (rs.map (·.2.2)) }

/-- The oldest granted pass completes (11_matrix_engine R269). -/
def State.passCompletion (s : State) (cl : Nat) : State :=
  match s.grantedEnt cl .mxe with
  | none => s
  | some x => (s.runPass x).endEnt cl x

/-- The list object of one source vector: its words from COUNT on (12_sparse_rows R273). -/
def listWords (es : List Nat) : List Nat :=
  let l := (es.zip (List.range es.length)).filter fun p => p.1 % 2 ^ 15 != 0
  l.length :: l.map fun p => p.1 * 65536 + p.2

/-- The granted scan writes its next list object; with the last one it completes (12_sparse_rows R273, R274). -/
def State.scanCompletion (s : State) (cl : Nat) : State :=
  match s.grantedEnt cl .nzs with
  | none => s
  | some x =>
    let cap (k : Nat) : Nat := (x.caps.getD k 0).toNat
    match s.spDecode x.team (cap 1), s.spDecode x.team (cap 0) with
    | some a, some d =>
      let i := x.lists
      let es := (List.range (cap 2)).map fun k => ofBytes (s.spBytes a.1 a.2.1 (a.2.2 + 256 * i + 2 * k) 2)
      let s1 := s.setSp d.1 d.2.1 (d.2.2 + 1024 * i) ((listWords es).flatMap (toBytes 4))
      if i + 1 = cap 3 then s1.endEnt cl x
      else s1.modCluster cl fun c => { c with entries := c.entries.map fun y => if y.id = x.id then { y with lists := i + 1 } else y }
    | _, _ => s

/-- The forms as instructions, and the engine's events. -/
def execOpClaim (w : ClaimW) (s : State) : Host.Outcome State Fault Refusal := issue s (.opClaim w) (opClaimRun w)
def execOpRel (k : BitVec 6) (s : State) : Host.Outcome State Fault Refusal := issue s (.opRel k) (opRelRun k)
def execOpSt (w : OpStW) (s : State) : Host.Outcome State Fault Refusal := issueOps s (.opSt w) (opStRun w)
def execMxFeed (w : FeedW) (s : State) : Host.Outcome State Fault Refusal := issueOps s (.mxFeed w) (mxFeedRun w)
def execAcLd (w : AcLdW) (s : State) : Host.Outcome State Fault Refusal := issueOps s (.acLd w) (acLdRun w)
def execAcClr (w : AcClrW) (s : State) : Host.Outcome State Fault Refusal := issueOps s (.acClr w) (acClrRun w)
def execMxCfg (w : CfgW) (s : State) : Host.Outcome State Fault Refusal := issueOps s (.mxCfg w) (mxCfgRun w)
def execMxIp (w : MxW) (s : State) : Host.Outcome State Fault Refusal := issueOps s (.mxIp w) (mxDenseRun (.mxIp w) w)
def execMxOp (w : MxW) (s : State) : Host.Outcome State Fault Refusal := issueOps s (.mxOp w) (mxDenseRun (.mxOp w) w)
def execMxRw (w : MxW) (s : State) : Host.Outcome State Fault Refusal := issueOps s (.mxRw w) (mxRwRun w)
def execMxNzs (w : NzsW) (s : State) : Host.Outcome State Fault Refusal := issueOps s (.mxNzs w) (mxNzsRun w)
def execCurrentGrant (cluster : Nat) (s : State) : Host.Outcome State Fault Refusal := .next ((s.entryAsks cluster).currentGrant cluster)
def execEntryGrant (cluster : Nat) (s : State) : Host.Outcome State Fault Refusal := .next (s.entryGrant cluster)
def execDeferredTrap (team idx : Nat) (s : State) : Host.Outcome State Fault Refusal := .next (s.takeGrantFault team idx)
def execPassCompletion (cluster : Nat) (s : State) : Host.Outcome State Fault Refusal := .next (s.passCompletion cluster)
def execScanCompletion (cluster : Nat) (s : State) : Host.Outcome State Fault Refusal := .next (s.scanCompletion cluster)

end Sys2Proof.Machine
end

