-- ==== Sys2Proof/Machine/Traversal.lean ====
section
/-!
DEFINITION. The traversal engine: node layout tables, walk blocks and their stacks, the events of a walk, its routines, and
`tw.nlt`, `tw.run`, `tw.ret`, `tw.cut`, `tw.resume` (16_traversal).
-/
namespace Sys2Proof.Machine

/-- What stops the engine at an access: it must wait for accesses of the warp, or a fault with its cause and address. -/
inductive EngStop where
  | wait
  | fault (code : Nat) (va : DWord)

/-- A layout entry (16_traversal R363). -/
structure Lay where
  nsz : Nat
  cenc : Nat
  csrc : Bool
  cfix : Nat
  lt : Bool
  lb : Nat
  coff : Nat
  poff : Nat
  koff : List Nat
  loff : Nat
  hn : Nat
  hb : Nat
  enter : DWord
  prune : DWord
  leave : DWord

/-- The fields of a layout entry's words. -/
def layOf (w : List DWord) : Lay :=
  let f (k hi lo : Nat) : Nat := bitsOf (w.getD k 0).toNat hi lo
  ⟨f 0 15 0, f 0 17 16, f 0 18 18 == 1, f 0 25 19, f 0 26 26 == 1, f 0 31 27, f 0 47 32, f 0 63 48,
    (List.range 4).map fun i => f 1 (16 * i + 15) (16 * i), f 2 15 0, f 2 63 32, f 3 63 0, w.getD 4 0, w.getD 5 0, w.getD 6 0⟩

/-- A used offset: its field, `n` bytes aligned to `al`, lies within the node. -/
def Lay.fits (y : Lay) (o al n : Nat) : Bool := o % al == 0 && decide (o + n ≤ y.nsz)

/-- Bytes of the field at POFF: the pointer array of a fixed count, else one child word. -/
def Lay.ptrBytes (y : Lay) : Nat := if y.cenc = 0 ∧ y.csrc = false then 8 * y.cfix else 8

/-- A routine address that an entry may hold. -/
def routineOk (a : DWord) : Bool := a == 0 || (a.toNat % 8 == 0 && decide (a.toNat < 2 ^ 48))

/-- An entry is valid (16_traversal R364). -/
def layValid (w : List DWord) : Bool :=
  let y := layOf w
  y.nsz % 4 == 0 && y.cenc != 3 && decide (y.cfix ≤ 64) &&
  (if y.csrc then y.fits y.coff 4 4 else y.coff == 0) && (if y.lt then y.fits y.loff 4 4 else y.loff == 0 && y.lb == 0) &&
  (y.koff.all fun o => o == 0xFFFF || y.fits o 4 4) &&
  (if y.cenc = 2 then y.poff == 0 && !y.csrc && y.cfix != 0 && y.hn != 0 && y.hb % 4 == 0
   else y.fits y.poff 8 y.ptrBytes && y.hn == 0 && y.hb == 0) &&
  routineOk y.enter && routineOk y.prune && routineOk y.leave && bitsOf (w.getD 2 0).toNat 31 16 == 0 && w.getD 7 0 == 0

/-- A team's layout table. -/
def State.nltOf (s : State) (t : Nat) : Table (List DWord) := ((s.team? t).map (·.nlt)).getD []

/-- A layout entry of a table; an entry never written is empty. -/
def layIn (nlt : Table (List DWord)) (id : Nat) : Lay := layOf (tgetD nlt id [])

/-- An access of the engine as an operation of its warp at a place in program order: it obeys the order of `ld.bp` (16 R371). -/
def engOp (since : Nat) (a : Acc) : Op :=
  ⟨since, .nop, 0, 0, 0, 15, 0, 0, 0, [], [a], [], none, none, false, [], none, [], false⟩

/-- A line of a replicated page that the bytes lie in is locked at a die (06_consistency R147). -/
def State.lockedRange (s : State) (d : Nat) (l : Leaf) (n : Nat) : Bool :=
  l.repl && s.writes.any fun w => w.repl && w.locked.contains d && !w.dies.contains d && meets l.pa n (w.addr / 128 * 128) 128

/-- The leaf through which the engine may access `n` bytes in one page. -/
def State.engAcc (s : State) (u : UnitId) (since : Nat) (va : DWord) (n : Nat) (need : Need) : Except EngStop Leaf :=
  let d := s.dieOf u
  if s.lookupOpen none d (s.ownerOf u) va then .error .wait
  else match s.access none d (s.ownerOf u) va need with
    | .error c => .error (.fault c va)
    | .ok l =>
      let a : Acc := ⟨0, .glob, l.pa, va, n, l.key, l.repl, l.pg⟩
      if s.mayPerform u (engOp since a) a && !s.lockedRange d l n then .ok l else .error .wait

/-- Bytes as the engine reads them, through its die's L2. -/
def State.engRead (s : State) (u : UnitId) (since : Nat) (va : DWord) (n : Nat) : Except EngStop (List Byte) :=
  (s.engAcc u since va n .read).map fun l => s.dieBytes (s.dieOf u) l.key (l.at_ (s.dieOf u)) n

/-- A 32-bit word of a node. -/
def State.engWord (s : State) (u : UnitId) (since a : Nat) : Except EngStop Nat :=
  (s.engRead u since (BitVec.ofNat 64 a) 4).map ofBytes

/-- A 64-bit word of a node. -/
def State.engDword (s : State) (u : UnitId) (since a : Nat) : Except EngStop Nat :=
  (s.engWord u since a).bind fun lo => (s.engWord u since (a + 4)).map fun hi => lo + 2 ^ 32 * hi

/-- The traversal engine of a unit's cluster writes bytes of one page, from its die (06_consistency R135, R141). -/
def State.engWrite (s : State) (u : UnitId) (va : DWord) (l : Leaf) (bs : List Byte) : State :=
  s.engineWrite (blankWrite none s.nextId (s.dieOf u) (s.ownerOf u) va l.pa l.key l.repl l.pg) bs

/-- The leaf of a spilled entry, once what the engine has written there is performed at its die: a stack is accessed in order, with
R and W (03_memory_tiers R68; 16_traversal R367). -/
def State.spillAcc (s : State) (u : UnitId) (since : Nat) (va : DWord) : Except EngStop Leaf :=
  (s.engAcc u since va 16 .rw).bind fun f =>
    let isOpen (w : Write) : Bool := w.src == none && w.die == s.dieOf u && w.tgt == .glob && meets f.pa 16 w.addr w.bytes.length && !w.dieDone
    if s.writes.any isOpen then .error .wait else .ok f

/-- A walk block: team, team core index, offset. -/
abbrev Block := Nat × Nat × Nat

/-- A number in a walk block. -/
def State.blkGet (s : State) (b : Block) (o n : Nat) : Nat := ofBytes (s.spBytes b.1 b.2.1 (b.2.2 + o) n)

/-- Write a number into a walk block. -/
def State.blkPut (s : State) (b : Block) (o n v : Nat) : State := s.setSp b.1 b.2.1 (b.2.2 + o) (toBytes n v)

/-- SP of a lane (16_traversal R367). -/
def State.stackSP (s : State) (b : Block) (l : Nat) : Nat := s.blkGet b (0x40 + 16 * l) 1

/-- Set SP and HOT of a lane. -/
def State.setStackSP (s : State) (b : Block) (l n : Nat) : State := (s.blkPut b (0x40 + 16 * l) 1 n).blkPut b (0x41 + 16 * l) 1 (min n 16)

/-- The address of a spilled entry (16_traversal R367). -/
def State.spillVA (s : State) (b : Block) (l i : Nat) : DWord := BitVec.ofNat 64 (s.blkGet b 0 8 + 4096 * l + 16 * i)

/-- The block offset of a hot entry (16_traversal R367). -/
def hotAt (l i : Nat) : Nat := 0x400 + 256 * l + 16 * (i % 16)

/-- A stack entry (16_traversal R368). -/
abbrev SEnt := DWord × DWord

/-- The bytes of an entry. -/
def entBytes (e : SEnt) : List Byte := toBytes 8 e.1.toNat ++ toBytes 8 e.2.toNat

/-- An entry from its bytes. -/
def entOf (bs : List Byte) : SEnt := (BitVec.ofNat 64 (ofBytes (bs.take 8)), BitVec.ofNat 64 (ofBytes (bs.drop 8)))

/-- The entry at a position of a lane's stack. -/
def State.stackGet (s : State) (u : UnitId) (since : Nat) (b : Block) (l i : Nat) : Except EngStop SEnt :=
  if s.stackSP b l ≤ i + 16 then .ok (entOf (s.spBytes b.1 b.2.1 (b.2.2 + hotAt l i) 16))
  else (s.spillAcc u since (s.spillVA b l i)).map fun f => entOf (s.dieBytes (s.dieOf u) f.key (f.at_ (s.dieOf u)) 16)

/-- Write a hot entry. -/
def State.hotPut (s : State) (b : Block) (l i : Nat) (e : SEnt) : State := s.setSp b.1 b.2.1 (b.2.2 + hotAt l i) (entBytes e)

/-- Push an entry; the lowest hot entry spills when the hot area is full (16_traversal R367). -/
def State.push (s : State) (u : UnitId) (since : Nat) (b : Block) (l : Nat) (e : SEnt) : Except EngStop State :=
  let n := s.stackSP b l
  let r : Except EngStop State :=
    if n < 16 then .ok s
    else (s.spillAcc u since (s.spillVA b l (n - 16))).map fun f =>
      s.engWrite u (s.spillVA b l (n - 16)) f (s.spBytes b.1 b.2.1 (b.2.2 + hotAt l (n - 16)) 16)
  r.map fun s => (s.hotPut b l n e).setStackSP b l (n + 1)

/-- Pop the top entry; the next spilled entry becomes hot. -/
def State.pop (s : State) (u : UnitId) (since : Nat) (b : Block) (l : Nat) : Except EngStop State :=
  let n := s.stackSP b l
  let r : Except EngStop State :=
    if n ≤ 16 then .ok s else (s.stackGet u since b l (n - 17)).map fun e => s.hotPut b l (n - 17) e
  r.map fun s => s.setStackSP b l (n - 1)

/-- Fields of an entry. -/
def SEnt.addr (e : SEnt) : Nat := bitsOf e.1.toNat 47 0
def SEnt.lid (e : SEnt) : Nat := bitsOf e.1.toNat 51 48
def SEnt.kind (e : SEnt) : Nat := bitsOf e.1.toNat 53 52
def SEnt.jr (e : SEnt) : Bool := bitOf e.1.toNat 54
def SEnt.depth (e : SEnt) : Nat := bitsOf e.1.toNat 63 56
def SEnt.cix (e : SEnt) : Nat := bitsOf e.2.toNat 5 0
def SEnt.user (e : SEnt) : Nat := bitsOf e.2.toNat 63 32

/-- An entry from its fields. -/
def mkEnt (addr lid kind : Nat) (jr : Bool) (depth cix cur user : Nat) : SEnt :=
  (BitVec.ofNat 64 (pack [(48, addr), (4, lid), (2, kind), (1, bit jr), (1, 0), (8, depth)]),
    BitVec.ofNat 64 (pack [(6, cix), (7, cur), (19, 0), (32, user)]))

/-- An entry with another user word. -/
def SEnt.setUser (e : SEnt) (v : Word) : SEnt := (e.1, BitVec.ofNat 64 (e.2.toNat % 2 ^ 32 + 2 ^ 32 * v.toNat))

/-- An open entry that its join record settles (16_traversal R379). -/
def SEnt.joined (e : SEnt) (rec_ : Nat) : SEnt :=
  (BitVec.ofNat 64 (pack [(48, rec_), (6, e.1.toNat / 2 ^ 48), (1, 1), (9, e.1.toNat / 2 ^ 55)]), e.2)

/-- What is read of a node (16_traversal R370). -/
structure Node where
  keys : List Word
  n    : Nat
  leaf : Bool

/-- The index of a heap node; none where it is not a node of the heap (16_traversal R363, R371). -/
def Lay.heapIx (y : Lay) (a : Nat) : Option Nat :=
  if y.hb ≤ a ∧ (a - y.hb) % y.nsz = 0 ∧ (a - y.hb) / y.nsz < y.hn then some ((a - y.hb) / y.nsz) else none

/-- A node's child count before its check (16_traversal R363). -/
def State.nodeCount (s : State) (u : UnitId) (since a : Nat) (y : Lay) : Except EngStop Nat :=
  if y.cenc = 2 then
    let i := (y.heapIx a).getD 0
    .ok ((List.range y.cfix).filter fun j => decide (y.cfix * i + 1 + j < y.hn)).length
  else if y.csrc then s.engWord u since (a + y.coff)
  else .ok y.cfix

/-- Read a node: its keys, its child count and the leaf test (16_traversal R370, R371). -/
def State.readNode (s : State) (u : UnitId) (since a : Nat) (y : Lay) : Except EngStop Node :=
  let va := BitVec.ofNat 64 a
  if a % 4 ≠ 0 then .error (.fault cALIGN va)
  else if y.nsz = 0 ∨ (y.cenc = 2 ∧ y.heapIx a = none) then .error (.fault cRANGE va)
  else
    let key (o : Nat) : Except EngStop Word :=
      if o = 0xFFFF then .ok 0 else (s.engWord u since (a + o)).map fun v => BitVec.ofNat 32 v
    (y.koff.mapM key).bind fun keys =>
    (s.nodeCount u since a y).bind fun n =>
      if 64 < n then .error (.fault cRANGE (BitVec.ofNat 64 (a + y.coff)))
      else if y.lt then (s.engWord u since (a + y.loff)).map fun v => ⟨keys, n, bitOf v y.lb⟩
      else .ok ⟨keys, n, n == 0⟩

/-- Child `j` of a node: its address and layout id (16_traversal R363, R371). -/
def State.child (s : State) (u : UnitId) (since a lid j : Nat) (nlt : Table (List DWord)) : Except EngStop (Nat × Nat) :=
  let y := layIn nlt lid
  if y.cenc = 2 then
    .ok (y.hb + y.nsz * (y.cfix * ((y.heapIx a).getD 0) + 1 + j), lid)
  else
    let p := a + y.poff + (if y.cenc = 0 then 8 * j else 0)
    (s.engDword u since p).bind fun w =>
      let id := bitsOf w 63 60
      let sz := (layIn nlt id).nsz
      if bitsOf w 59 48 ≠ 0 ∨ sz = 0 then .error (.fault cRANGE (BitVec.ofNat 64 p))
      else
        let va := bitsOf w 47 0 + (if y.cenc = 1 then j * sz else 0)
        if 2 ^ 48 ≤ va then .error (.fault cRANGE (BitVec.ofNat 64 va)) else .ok (va, id)

/-- The event code of a window register (16_traversal R373). -/
def WEvt.code : WEvt → Nat
  | .enter => 0
  | .prune => 1
  | .leave => 2

/-- The event information word, v254 (16_traversal R373). -/
def evtInfo (e : SEnt) (evt : WEvt) (leaf jrec : Bool) (n : Nat) : Word :=
  BitVec.ofNat 32 (pack [(8, e.depth), (4, e.lid), (2, evt.code), (1, bit leaf), (1, bit jrec), (7, n), (6, e.cix)])

/-- Write one lane of consecutive vector registers of a warp. -/
def Warp.poke (w : Warp) (d l : Nat) (v : List Word) : Warp :=
  (v.zip (List.range v.length)).foldl (fun w e => w.setV (d + e.2) (vmerge 0 (laneMap (· == l)) true (w.vr (d + e.2)) fun _ => e.1)) w

/-- A walk by its number. -/
def Warp.walk? (w : Warp) (id : Nat) : Option Walk := w.walks.find? (·.id == id)

/-- Change a walk. -/
def State.modWalk (s : State) (t wx id : Nat) (f : Walk → Walk) : State :=
  s.modWarp t wx fun x => { x with walks := x.walks.map fun k => if k.id = id then f k else k }

/-- The block of a walk. -/
def Walk.block (k : Walk) : Block := (k.team, k.ci, k.off)

/-- The place in program order that a lane's reads follow (16_traversal R371). -/
def Walk.from_ (k : Walk) (l : Nat) : Nat := tgetD k.since l k.seq

/-- A status word (16_traversal R369). -/
def statusWord (sk cause sp : Nat) : Word := BitVec.ofNat 32 (sk + 256 * cause + 65536 * sp)

/-- A lane stops (16_traversal R370). -/
def State.stopLane (s : State) (t wx : Nat) (k : Walk) (l sk cause : Nat) : State :=
  let st := statusWord sk cause (s.stackSP k.block l)
  s.modWalk t wx k.id fun k => { k with stops := tput k.stops l st, invs := tdel k.invs l, settles := tdel k.settles l }

/-- A lane stops at a fault, with the window registers that R371 names. -/
def State.faultLane (s : State) (t wx : Nat) (k : Walk) (l code : Nat) (va : DWord) (info : Word) : State :=
  (s.stopLane t wx k l 2 code).modWarp t wx fun x => x.poke 252 l [loWord va, hiWord va, info]

/-- A lane's event calls a routine, or is over for want of one. -/
def State.callLane (s : State) (t wx : Nat) (k : Walk) (l : Nat) (v : LaneInv) : State :=
  s.modWalk t wx k.id fun k => { k with invs := if v.pc = 0 then tdel k.invs l else tput k.invs l v }

/-- A lane begins to settle a record (16_traversal R380). -/
def State.beginSettle (s : State) (t wx : Nat) (k : Walk) (l : Nat) (r : DWord) (e : SEnt) : State :=
  let g : LaneSettle := ⟨r, none, [], e.1, e.2, s.seqOf (.warp t wx), false⟩
  s.modWalk t wx k.id fun k => { k with invs := tdel k.invs l, settles := tput k.settles l g }

/-- Open the top entry and push the children of a mask, so that the lowest comes to the top (16_traversal R370). -/
def State.openNode (s : State) (u : UnitId) (k : Walk) (l : Nat) (v : LaneInv) (m : Nat) : Except EngStop State :=
  let e : SEnt := (v.w0, v.w1)
  let js := (List.range v.n).filter fun j => bitOf m j
  let s1 := s.hotPut k.block l (s.stackSP k.block l - 1) (mkEnt e.addr e.lid 1 false e.depth e.cix js.length e.user)
  js.reverse.foldl (fun r j => r.bind fun s1 =>
    (s.child u (k.from_ l) e.addr e.lid j v.nlt).bind fun c =>
      s1.push u (k.from_ l) k.block l (mkEnt c.1 c.2 0 false (e.depth + 1) j 0 e.user)) (.ok s1)

/-- The event goes on after the enter decision `skip` (16_traversal R370). -/
def State.afterEnter (s : State) (t wx : Nat) (k : Walk) (l : Nat) (v : LaneInv) (skip : Bool) : Except EngStop State :=
  let u : UnitId := .warp t wx
  let y := layIn v.nlt (SEnt.lid (v.w0, v.w1))
  let stop (s : State) : State := s.callLane t wx k l { v with pc := 0 }
  if skip then (s.pop u (k.from_ l) k.block l).map stop
  else if v.leaf then
    (s.pop u (k.from_ l) k.block l).map fun s => s.callLane t wx k l { v with evt := .leave, pc := y.leave, stage := 0 }
  else if y.prune ≠ 0 then .ok (s.callLane t wx k l { v with evt := .prune, pc := y.prune, stage := 0 })
  else (s.openNode u k l v (2 ^ 64 - 1)).map stop

/-- A lane's next event (16_traversal R370). -/
def State.newEvent (s : State) (t wx : Nat) (k : Walk) (l : Nat) : Except EngStop State :=
  let u : UnitId := .warp t wx
  let n := s.stackSP k.block l
  if n = 0 then .ok (s.stopLane t wx k l 0 0)
  else (s.stackGet u (k.from_ l) k.block l (n - 1)).bind fun e =>
    let nlt := s.nltOf t
    let y := layIn nlt e.lid
    let used := s.blkGet k.block (0x44 + 16 * l) 4
    let inv (evt : WEvt) (pc : DWord) (d : Node) : LaneInv := ⟨evt, pc, false, 0, 0, e.1, e.2, d.keys, d.leaf, d.n, 0, nlt⟩
    if e.kind = 0 then
      if k.budget ≠ 0 ∧ used = k.budget then .ok (s.stopLane t wx k l 1 0)
      else (s.readNode u (k.from_ l) e.addr y).bind fun d =>
        if d.leaf = false ∧ (e.depth = 255 ∨ 255 < n + d.n) then .ok (s.stopLane t wx k l 2 cSTACKOV)
        else
          let s := s.blkPut k.block (0x44 + 16 * l) 4 (used + 1)
          if y.enter ≠ 0 then .ok (s.callLane t wx k l (inv .enter y.enter d))
          else s.afterEnter t wx k l (inv .enter 0 d) false
    else if e.kind = 1 ∧ e.jr = false then
      if y.leave = 0 then s.pop u (k.from_ l) k.block l
      else (s.readNode u (k.from_ l) e.addr y).bind fun d =>
        (s.pop u (k.from_ l) k.block l).map fun s => s.callLane t wx k l (inv .leave y.leave d)
    else (s.pop u (k.from_ l) k.block l).map fun s => s.beginSettle t wx k l (BitVec.ofNat 64 e.addr) e

/-- Start an invocation for the lanes chosen for a routine, if a slot or a spill record is free (16_traversal R372, R373). -/
def State.startInv (s : State) (t wx : Nat) (k : Walk) (v : LaneInv) : State :=
  let mine := k.invs.filter fun e => e.2.stage == 1 && e.2.evt == v.evt && e.2.pc == v.pc
  let lm := laneMap fun l => mine.any (·.1 == l)
  match s.warp? t wx with
  | none => s
  | some x =>
    if x.room = 0 then s
    else
      let tg := ((x.byFid k.fid).map (·.tg)).getD (List.replicate 24 1)
      let f : Frag := { Frag.start lm v.pc x.freeFid with tg := tg, kind := .inv k.id }
      let run (e : Nat × LaneInv) : Nat × LaneInv := if mine.any (·.1 == e.1) then (e.1, { e.2 with stage := 2 }) else e
      let s := s.modWalk t wx k.id fun k => { k with invs := k.invs.map run }
      s.modWarp t wx fun x => mine.foldl (fun x e =>
        let v := e.2
        let en : SEnt := (v.w0, v.w1)
        x.poke 248 e.1 ((List.range 4).map (v.keys.getD · 0) ++
          [BitVec.ofNat 32 en.addr, BitVec.ofNat 32 (en.addr / 2 ^ 32), evtInfo en v.evt v.leaf v.jrec v.n, BitVec.ofNat 32 en.user]))
        (x.addFrag f)

/-- The event goes on after its routine has returned (16_traversal R370, R380). -/
def State.afterReturn (s : State) (t wx : Nat) (k : Walk) (l : Nat) (v : LaneInv) : Except EngStop State :=
  match v.evt with
  | .enter => s.afterEnter t wx k l v (v.dec.getLsbD 0)
  | .prune => (s.openNode (.warp t wx) k l v v.dec.toNat).map fun s => s.callLane t wx k l { v with pc := 0 }
  | .leave => .ok (if v.then_ = 0 then s.callLane t wx k l { v with pc := 0 } else s.beginSettle t wx k l v.then_ (v.w0, v.w1))

/-- The walk of a warp that a lane takes part in and has not stopped in. -/
def Warp.walkOf (w : Warp) (l : Nat) : Option Walk := w.walks.find? fun k => k.lmap.getLsbD l && (tget k.stops l).isNone

/-- The engine may act for a warp: it is resident and its set is not frozen (15_traps_preemption R343; 16_traversal R382). -/
def State.walks (s : State) (t wx : Nat) : Bool :=
  (s.warp? t wx).any (fun x => x.place == .resident) && !((s.set? (s.setOf t)).any (·.frozen))

/-- The result of an event: done, waiting, or stopped at a fault with the stack as before (16_traversal R371). -/
def State.engDone (s : State) (t wx : Nat) (k : Walk) (l : Nat) (info : Word) : Except EngStop State → State
  | .ok s' => s'
  | .error .wait => s
  | .error (.fault c va) => s.faultLane t wx k l c va info

/-- One step of the engine for a lane: its next event, the choice of its lane for an invocation, the start of that
invocation, or what follows its return (16_traversal R370 to R372). A new event asks for current and waits for it. -/
def State.traversalEvent (s : State) (t wx l : Nat) : State :=
  if !s.walks t wx then s
  else match (s.warp? t wx).bind (·.walkOf l) with
    | none => s
    | some k =>
      let cl := s.clusterOf (.warp t wx)
      match tget k.invs l, tget k.settles l with
      | _, some _ => s
      | some v, none =>
        let info := evtInfo (v.w0, v.w1) v.evt v.leaf v.jrec v.n
        if v.stage = 0 then s.modWalk t wx k.id fun k => { k with invs := tput k.invs l { v with stage := 1 } }
        else if v.stage = 1 then s.startInv t wx k v
        else if v.stage = 2 then s
        else s.engDone t wx k l info (s.afterReturn t wx k l v)
      | none, none =>
        let top := entOf (s.spBytes k.team k.ci (k.off + hotAt l (s.stackSP k.block l - 1)) 16)
        let info := evtInfo top (if top.kind = 0 then .enter else .leave) false false 0
        if (s.curHeld cl .tre).all (·.tag != k.id) then
          if s.stackSP k.block l = 0 ∨ (top.kind = 0 ∧ k.budget ≠ 0 ∧ s.blkGet k.block (0x44 + 16 * l) 4 = k.budget) then
            s.engDone t wx k l info (s.newEvent t wx k l)
          else if (s.cluster cl).reqs.any (·.who == .tre) then s
          else s.curAsk cl .tre t k.id 16 0
        else match s.newEvent t wx k l with
          | .error .wait => s
          | r => (s.engDone t wx k l info r).curUse cl .tre

/-- The atomic of a settle: the count falls by one if it is not zero (16_traversal R380). It answers the old count and the writes it
has read from and made; none while the writes its die has applied before it are not applied at the home. -/
def State.settleAtomic (s : State) (u : UnitId) (l : Leaf) (va : DWord) : Option (State × Nat × List Nat) :=
  let d := s.dieOf u
  let w := { blankWrite none s.nextId d (s.ownerOf u) va l.pa l.key false l.pg with preds := s.predsAt d }
  (s.rmw w 4 (· - 1)).map fun r =>
    if ofBytes r.2.1 = 0 then (s, 0, r.2.2.drop 1) else (r.1, ofBytes r.2.1, r.2.2)

/-- A settle goes on (16_traversal R380): its release, its atomic, its acquire, and at zero the leave routine and the next
record. -/
def State.settleStep (s : State) (t wx l : Nat) : State :=
  if !s.walks t wx then s
  else match (s.warp? t wx).bind (·.walkOf l) with
    | none => s
    | some k =>
      match tget k.settles l with
      | none => s
      | some g =>
        let u : UnitId := .warp t wx
        let info (e : SEnt) : Word := evtInfo e .leave false true 0
        let fail (e : EngStop) : State := match e with
          | .wait => s
          | .fault c va => s.faultLane t wx k l c va (info (g.w0, g.w1))
        let put (s : State) (g : LaneSettle) : State := s.modWalk t wx k.id fun k => { k with settles := tput k.settles l g }
        match g.old with
        | none =>
          if !g.rel then if s.quiet u g.seq then put s { g with rel := true, snap := s.predsAt (s.dieOf u) } else s
          else if g.snap.any s.onWay || s.lookupOpen none (s.dieOf u) (s.ownerOf u) (g.rec_ + 0x10) then s
          else match s.access none (s.dieOf u) (s.ownerOf u) (g.rec_ + 0x10) .atomic with
            | .error c => s.faultLane t wx k l c g.rec_ (info (g.w0, g.w1))
            | .ok f => match s.settleAtomic u f (g.rec_ + 0x10) with
              | none => s
              | some (s', old, ids) => put s' { g with old := some old, snap := ids }
        | some old =>
          if g.snap.any s.onWay then s
          else if old = 0 then s.faultLane t wx k l cRANGE g.rec_ (info (g.w0, g.w1))
          else
            let s1 := (s.dropCaches (s.coreOf u) (s.clusterOf u)).modWalk t wx k.id fun k => { k with settles := tdel k.settles l }
            if old ≠ 1 then s1
            else
              let q := s.seqOf u
              let r : Except EngStop State :=
                (s.engRead u q g.rec_ 16).bind fun eb => (s.engRead u q (g.rec_ + 0x18) 8).bind fun pb =>
                  let e := entOf eb
                  let par := BitVec.ofNat 64 (ofBytes pb)
                  let y := layIn (s.nltOf t) e.lid
                  if y.leave ≠ 0 then
                    (s.readNode u q e.addr y).map fun d =>
                      s1.callLane t wx k l ⟨.leave, y.leave, true, par, 0, e.1, e.2, d.keys, d.leaf, d.n, 0, s.nltOf t⟩
                  else .ok (if par = 0 then s1 else s1.beginSettle t wx k l par e)
              match r with
              | .ok s' => s'
              | .error x => fail x

/-- `tw.nlt` (16_traversal R365): the entries are read as package-scope acquires; it retires when what it has read is performed
everywhere. -/
def twNltRun (w : NltW) (e : Env) (c : Ctx) (s : State) : Res :=
  let u := c.cur.unit
  let va := opScal e.a
  let at_ (i : Nat) : DWord := BitVec.ofNat 64 (va + 64 * i)
  let is := List.range (w.cnt.toNat + 1)
  if va % 64 ≠ 0 then .trap (oneTrap cALIGN (at_ 0)) s
  else
    let ls := is.map fun i => (i, s.engAcc u (s.seqOf u) (at_ i) 64 .read)
    match ls.findSome? fun x => match x.2 with
        | .error (.fault k v) => some (k, v)
        | _ => none with
    | some (k, v) => .trap (oneTrap k v) s
    | none =>
      let d := s.dieOf u
      let ok := ls.filterMap fun x => match x.2 with
        | .ok l => some (x.1, l)
        | .error _ => none
      let ents := ok.map fun x => (x.1, (List.range 8).map fun j =>
        BitVec.ofNat 64 (ofBytes ((s.dieBytes d x.2.key (x.2.at_ d) 64).drop (8 * j) |>.take 8)))
      if ok.length ≠ is.length ∨ (ok.any fun x => (s.srcsAt d (x.2.at_ d) 64).any s.onWay) = true then .wait .stall s
      else match ents.find? fun x => !layValid x.2 with
        | some x => .trap (oneTrap cRANGE (at_ x.1)) s
        | none => .retire ((s.dropCaches (s.coreOf u) (s.clusterOf u)).modTeam (teamOf u) fun y =>
            { y with nlt := tputs y.nlt (ents.map fun x => (w.first.toNat + x.1, x.2)) })

/-- The block that a scratchpad address names, or the cause of the trap: rows 3 to 5 of the table of R376. `spill`: SPILL is
checked; `valid`: VALID is. -/
def State.blockCheck (s : State) (t a : Nat) (spill valid : Bool) : Except Nat Block :=
  if a % 1024 ≠ 0 then .error cALIGN
  else match s.spDecode t a, s.spDecode t (a + 9215) with
    | some b, some z =>
      let v := s.blkGet b 0 8
      if b.1 ≠ z.1 ∨ b.2.1 ≠ z.2.1 ∨ z.2.2 ≠ b.2.2 + 9215 ∨ (spill = true ∧ (v % 4096 ≠ 0 ∨ 2 ^ 48 ≤ v)) ∨
          (valid = true ∧ s.blkGet b 8 1 % 2 = 0) then .error cRANGE
      else if (List.range (z.2.2 / 4096 - b.2.2 / 4096 + 1)).all fun i => s.tileE b.1 b.2.1 (b.2.2 / 4096 + i) then .ok b
      else .error cOWNER
    | _, _ => .error cRANGE

/-- The named scratchpad address of a walk block. -/
def blockAddr (e : Env) : Nat := ((e.more.getD 0 []).map fun r => (r.vals.getD 0 0).toNat).headD 0

/-- Ask for a walk block (16_traversal R376): a fragment has one request. -/
def State.askBlock (s : State) (t wx fid : Nat) (b : Block) : State :=
  s.modCluster (s.clusterOf (.warp t wx)) fun c =>
    if c.walkQ.contains ((t, wx, fid), b) then c else { c with walkQ := c.walkQ.filter (·.1 != (t, wx, fid)) ++ [((t, wx, fid), b)] }

/-- The walk block that a fragment has asked for: its instruction's checks have passed (16_traversal R376). -/
def State.askedBlock (s : State) (t wx fid : Nat) : Option Block :=
  ((s.cluster (s.clusterOf (.warp t wx))).walkQ.find? (·.1 == (t, wx, fid))).map (·.2)

/-- Withdraw a request for a walk block. -/
def State.dropBlock (s : State) (t wx fid : Nat) : State :=
  s.modCluster (s.clusterOf (.warp t wx)) fun c => { c with walkQ := c.walkQ.filter (·.1 != (t, wx, fid)) }

/-- Empty every lane's stack and mark the block as holding a walk. -/
def State.clearBlock (s : State) (b : Block) : State :=
  (List.range 32).foldl (fun s l => s.setStackSP b l 0) (s.blkPut b 8 8 1)

/-- The check of a root word: ALIGN, RANGE (16_traversal R376 row 6). -/
def State.rootCheck (s : State) (t : Nat) (v : Nat) : Option Nat :=
  if bitsOf v 47 0 % 4 ≠ 0 then some cALIGN
  else if bitsOf v 59 48 ≠ 0 ∨ (layIn (s.nltOf t) (bitsOf v 63 60)).nsz = 0 then some cRANGE
  else none

/-- The lanes of a root vector and its words. -/
def rootLanes (w : TwRunW) (e : Env) : Lanes := if w.st then e.lm &&& opMap e.a else 0

/-- The checks of `tw.run` after its context's (16_traversal R376 rows 2 to 6). -/
def State.runCheck (s : State) (t wx : Nat) (w : TwRunW) (e : Env) : Except TrapInfo Block :=
  let a := blockAddr e
  if ((s.warp? t wx).map (·.allot)).getD 0 < 256 then .error (plainTrap cREGBOUND)
  else match s.blockCheck t a w.st (!w.st) with
    | .error k => .error (oneTrap k (BitVec.ofNat 64 a))
    | .ok b =>
      let bad := (lanesOf (rootLanes w e)).filterMap fun l => (s.rootCheck t (opLane e.a l)).map fun k =>
        (l, k, BitVec.ofNat 64 (bitsOf (opLane e.a l) 47 0))
      if bad.isEmpty then .ok b else .error (laneTrap bad (rootLanes w e))

/-- `tw.run` (16_traversal R376): its checks, its waits, its start; once every lane has stopped, its status words. -/
def twRunRun (w : TwRunW) (e : Env) (c : Ctx) (s : State) : Res :=
  match c.cur.unit with
  | .ccc _ _ => .retire s
  | .warp t wx =>
    let u : UnitId := .warp t wx
    if c.phase = 1 then
      match (s.warp? t wx).bind fun x => x.walks.find? fun k => k.fid == c.fid with
      | none => .retire s
      | some k =>
        if !k.done then .wait .walk s
        else
          let s := (lanesOf k.lmap).foldl (fun s l => s.blkPut k.block (0x48 + 16 * l) 4 (tgetD k.stops l 0).toNat) s
          let s := (s.modWarp t wx fun x => { x with walks := x.walks.filter (·.id != k.id) }).curEnd (s.clusterOf u) .tre k.id
          .retire (s.writeLanes u e.dst 1 e.lm e.lm (dKp (shape (.twRun w))) (fun l => (tgetD k.stops l 0).toNat) 0)
    else match ((s.askedBlock t wx c.fid).map Except.ok).getD (s.runCheck t wx w e) with
      | .error ti => .trap ti s
      | .ok b =>
        let s := s.askBlock t wx c.fid b
        if !s.contextGo (s.clusterOf u) ((t, wx, c.fid), b) then .wait (.context b.1 b.2.1 b.2.2) s
        else
          let s := s.dropBlock t wx c.fid
          let s := if w.st then (lanesOf (rootLanes w e)).foldl (fun s l =>
            let v := opLane e.a l
            (s.hotPut b l 0 (mkEnt (bitsOf v 47 0) (bitsOf v 63 60) 0 false 0 0 0 0)).setStackSP b l 1) (s.clearBlock b) else s
          let s := (lanesOf e.lm).foldl (fun s l => s.blkPut b (0x44 + 16 * l) 4 0) s
          let k : Walk := ⟨s.nextId, b.1, b.2.1, b.2.2, c.fid, e.lm, opScal e.b, s.seqOf u, [], [], [], []⟩
          .wait .walk (({ s with nextId := s.nextId + 1 }.modWarp t wx fun x => { x with walks := x.walks ++ [k] }).modFrag c.cur
            fun f => { f with phase := 1 })

/-- `tw.ret`, where it may stand (`retOk`; 16_traversal R375). -/
def twRetRun (w : TwRetW) (e : Env) (c : Ctx) (s : State) : Res :=
  match c.cur.unit, c.kind with
  | .warp t wx, .inv id =>
    match s.warp? t wx, ((s.warp? t wx).bind (·.walk? id)) with
    | some x, some k =>
      let mine := k.invs.filter fun v => c.lm.getLsbD v.1 && v.2.stage == 2
      let em := e.lm &&& opMap e.a
      if w.strict && em != e.lm then .trap (plainTrap cOCCMISM) s
      else
        let a (l : Nat) : Nat := if w.ac = 1 then opScal e.a else opLane e.a l
        let dec (l : Nat) (v : LaneInv) : DWord :=
          if v.evt == .prune then (if em.getLsbD l then BitVec.ofNat 64 (a l) else BitVec.ofNat 64 (2 ^ 64 - 1))
          else if em.getLsbD l then BitVec.ofNat 64 (a l % 2) else 0
        let usr (l : Nat) (v : LaneInv) : LaneInv :=
          match tget (x.vr 255) l with
          | some z => if v.evt == .leave then v else { v with w1 := (SEnt.setUser (v.w0, v.w1) z).2 }
          | none => v
        let fin (v : Nat × LaneInv) : Nat × LaneInv :=
          if mine.any (·.1 == v.1) then (v.1, { usr v.1 v.2 with stage := 3, dec := dec v.1 v.2 }) else v
        let s := s.modWalk t wx id fun k =>
          { k with invs := k.invs.map fin, since := mine.foldl (fun m v => tput m v.1 (s.seqOf c.cur.unit)) k.since }
        .placed (s.endFrag c.cur)
    | _, _ => .trap (plainTrap cILLCTX) s
  | _, _ => .trap (plainTrap cILLCTX) s

/-- A lane's whole stack, from the bottom. -/
def State.stackAll (s : State) (u : UnitId) (b : Block) (l : Nat) : Except EngStop (List SEnt) :=
  (List.range (s.stackSP b l)).mapM fun i => s.stackGet u (s.seqOf u) b l i

/-- Rebuild a lane's stack. -/
def State.restack (s : State) (u : UnitId) (b : Block) (l : Nat) (es : List SEnt) : Except EngStop State :=
  es.foldl (fun r e => r.bind fun s => s.push u (s.seqOf u) b l e) (.ok (s.setStackSP b l 0))

/-- What the cut of a lane comes to (16_traversal R379): the object's entries, the new records as entry, count and parent, the
counts to raise, and the stack that stays. -/
structure CutPlan where
  obj   : List SEnt
  recs  : List (SEnt × Nat × Nat)
  adds  : List (Nat × Nat)
  stack : List SEnt

/-- Plan the cut of a lane's stack at depth `d` into the section at `sec`; none where there is nothing to cut (16 R379). -/
def planCut (d sec : Nat) (es : List SEnt) : Option CutPlan :=
  let ix := es.zip (List.range es.length)
  let mark := (ix.filter fun p => p.1.kind == 2).getLast?
  let lo := (mark.map fun p => p.2 + 1).getD 0
  let t := ix.filter fun p => decide (lo ≤ p.2)
  let isC (p : SEnt × Nat) : Bool := decide (lo ≤ p.2) && p.1.kind == 0 && decide (p.1.depth ≤ d)
  let cs := t.filter isC
  if cs.isEmpty then none
  else
    let deep := (cs.map fun p => p.1.depth).foldl max 0
    let opens := t.filter fun p => p.1.kind == 1
    let q := opens.filter fun p => decide (p.1.depth < deep)
    let nextOpen (i : Nat) : Nat := ((opens.find? fun p => decide (i < p.2)).map (·.2)).getD es.length
    let mine (i : Nat) : List SEnt := (cs.filter fun p => decide (i < p.2) && decide (p.2 < nextOpen i)).map (·.1)
    let k (p : SEnt × Nat) : Nat := bit !(mine p.2).isEmpty
    let below (p : SEnt × Nat) : Option (SEnt × Nat) := q.find? fun y => decide (p.2 < y.2)
    let above (p : SEnt × Nat) : Option (SEnt × Nat) := (q.filter fun y => decide (y.2 < p.2)).getLast?
    let c (p : SEnt × Nat) : Nat := bit ((below p).any fun y => !y.1.jr)
    let fresh := (q.filter fun p => !p.1.jr).reverse
    let recAt (p : SEnt × Nat) : Nat :=
      if p.1.jr then p.1.addr else sec + 0x1040 + 32 * ((fresh.map (·.2)).idxOf p.2)
    let top := (q.head?.map fun p => !p.1.jr).getD false
    let parent (p : SEnt × Nat) : Nat := match above p with
      | some y => recAt y
      | none => (mark.map fun m => m.1.addr).getD 0
    some
      { obj := (q.filter fun p => k p == 1).flatMap fun p => mkEnt (recAt p) p.1.lid 2 false p.1.depth 0 0 0 :: mine p.2
        recs := fresh.map fun p => (p.1, 1 + k p + c p, parent p)
        adds := (q.filter fun p => p.1.jr).map (fun p => (p.1.addr, k p + c p)) ++
          (if top then mark.toList.map fun m => (m.1.addr, 1) else [])
        stack := (ix.filter fun p => !isC p).map fun p =>
          if !p.1.jr && q.any fun y => y.2 == p.2 then p.1.joined (recAt p) else p.1 }

/-- The bytes of a section's entries or records, at their offset. -/
def CutPlan.pieces (p : CutPlan) : List (Nat × List Byte) :=
  [(0, toBytes 4 p.obj.length ++ toBytes 4 p.recs.length ++ List.replicate 56 0),
   (0x40, p.obj.flatMap entBytes),
   (0x1040, p.recs.flatMap fun r => entBytes r.1 ++ toBytes 8 r.2.1 ++ toBytes 8 r.2.2)]

/-- The leaf of a section or a record that a cut writes, or the lane's fault (16_traversal R377). -/
def State.cutLeaf (s : State) (u : UnitId) (va : Nat) (need : Need) : Except EngStop Leaf :=
  let v := BitVec.ofNat 64 va
  if s.lookupOpen none (s.dieOf u) (s.ownerOf u) v then .error .wait
  else match s.access none (s.dieOf u) (s.ownerOf u) v need with
    | .error k => .error (.fault k v)
    | .ok f => .ok f

/-- A count rises by a package-scope atomic (16_traversal R379); `preds`: what the engine's die had applied before the cut. It waits
while those writes are not applied at the home. -/
def State.raiseCount (s : State) (u : UnitId) (preds : List Nat) (f : Leaf) (va n : Nat) : Except EngStop State :=
  let w := { blankWrite none s.nextId (s.dieOf u) (s.ownerOf u) (BitVec.ofNat 64 va) f.pa f.key false f.pg with preds := preds }
  match s.rmw w 4 (fun old => (old + n) % 2 ^ 32) with
  | some r => .ok r.1
  | none => .error .wait

/-- Cut one lane: the state with its section and counts written and its stack rebuilt, and whether it got a handle; or the
lane's fault. -/
def State.cutLane (s : State) (u : UnitId) (b : Block) (preds : List Nat) (d sec l : Nat) : Except EngStop (State × Bool) :=
  (s.stackAll u b l).bind fun es =>
    match planCut d sec es with
    | none => .ok (s, false)
    | some p =>
      (s.cutLeaf u sec .rw).bind fun f =>
      (p.adds.mapM fun a => (s.cutLeaf u (a.1 + 0x10) .atomic).map fun g => (g, a)).bind fun adds =>
      (adds.foldlM (fun (s : State) g => s.raiseCount u preds g.1 (g.2.1 + 0x10) g.2.2) s).bind fun s =>
        let s := p.pieces.foldl (fun s x => s.engWrite u (BitVec.ofNat 64 (sec + x.1)) { f with pa := f.pa + x.1 } x.2) s
        (s.restack u b l p.stack).map fun s => (s, true)

/-- What lanes tried one by one come to: the faults. -/
def laneFaults {α : Type} (tries : List (Nat × Except EngStop α)) : List (Nat × Nat × DWord) :=
  tries.filterMap fun x => match x.2 with
    | .error (.fault k v) => some (x.1, k, v)
    | _ => none

/-- The cut of every lane, or the traps of those that fail; its writes are then waited for (16_traversal R377, R379). -/
def twCutGo (w : TwCutW) (e : Env) (c : Ctx) (t wx : Nat) (b : Block) (s : State) : Res :=
  let u : UnitId := .warp t wx
  let sec (l : Nat) : Nat := opScal e.b + 16384 * l
  let preds := s.predsAt (s.dieOf u)
  let cut (s : State) (l : Nat) : Except EngStop (State × Bool) := s.cutLane u b preds w.depth.toNat (sec l) l
  let bad := laneFaults ((lanesOf e.lm).map fun l => (l, cut s l))
  if !bad.isEmpty then .trap (laneTrap bad 0) (s.dropBlock t wx c.fid)
  else match (lanesOf e.lm).foldlM (fun (r : State × Lanes) l =>
      (cut r.1 l).map fun x => (x.1, if x.2 then r.2 ||| laneMap (· == l) else r.2)) (s, (0 : Lanes)) with
    | .error _ => .wait .stall s
    | .ok r =>
      let s1 := r.1.writeLanes u e.dst 2 e.lm r.2 (dKp (shape (.twCut w))) sec 0
      let ids := (List.range (r.1.nextId - s.nextId)).map (s.nextId + ·)
      if ids.any s1.onWay then .wait .stall (s1.modFrag c.cur fun f => { f with phase := 4, snap := ids })
      else .retire (s1.dropBlock t wx c.fid)

/-- `tw.cut` (16_traversal R377, R379): it waits for the block, then for the release, then cuts every lane or traps, then waits for
its writes. -/
def twCutRun (w : TwCutW) (e : Env) (c : Ctx) (s : State) : Res :=
  match c.cur.unit with
  | .ccc _ _ => .retire s
  | .warp t wx =>
    let a := blockAddr e
    let o := opScal e.b
    let checked : Except TrapInfo Block := match s.blockCheck t a false true with
      | .error k => .error (oneTrap k (BitVec.ofNat 64 a))
      | .ok b => if o % 16384 ≠ 0 then .error (oneTrap cALIGN (BitVec.ofNat 64 o)) else .ok b
    if c.phase = 4 then
      if (((s.frag? c.cur).map (·.snap)).getD []).any s.onWay then .wait .stall s else .retire (s.dropBlock t wx c.fid)
    else match ((s.askedBlock t wx c.fid).map Except.ok).getD checked with
      | .error ti => .trap ti s
      | .ok b =>
        let s := s.askBlock t wx c.fid b
        if !s.blockGo t wx c.fid b.1 b.2.1 b.2.2 then .wait (.block b.1 b.2.1 b.2.2) s
        else releaseThen c s (twCutGo w e c t wx b)

/-- The entries of the object at a handle, or the lane's fault (16_traversal R381). -/
def State.objEnts (s : State) (u : UnitId) (va : Nat) : Except EngStop (List SEnt) :=
  let v := BitVec.ofNat 64 va
  if va % 16384 ≠ 0 then .error (.fault cALIGN v)
  else (s.engAcc u (s.seqOf u) v 16384 .read).bind fun f =>
    let d := s.dieOf u
    let bs (o n : Nat) : List Byte := s.dieBytes d f.key (f.at_ d + o) n
    let n := ofBytes (bs 0 4)
    if 255 < n then .error (.fault cRANGE v)
    else if (s.srcsAt d (f.at_ d) (64 + 16 * n)).any s.onWay then .error .wait
    else .ok ((List.range n).map fun i => entOf (bs (0x40 + 16 * i) 16))

/-- `tw.resume` (16_traversal R381). -/
def twResumeRun (_ : TwResW) (e : Env) (c : Ctx) (s : State) : Res :=
  match c.cur.unit with
  | .ccc _ _ => .retire s
  | .warp t wx =>
    let u : UnitId := .warp t wx
    let a := blockAddr e
    match ((s.askedBlock t wx c.fid).map Except.ok).getD (s.blockCheck t a true false) with
    | .error k => .trap (oneTrap k (BitVec.ofNat 64 a)) s
    | .ok b =>
      let em := e.lm &&& opMap e.a
      let s := s.askBlock t wx c.fid b
      if !s.blockGo t wx c.fid b.1 b.2.1 b.2.2 then .wait (.block b.1 b.2.1 b.2.2) s
      else
        let load (s : State) (l : Nat) : Except EngStop State := (s.objEnts u (opLane e.a l)).bind fun es => s.restack u b l es
        let s0 := s.clearBlock b
        let bad := laneFaults ((lanesOf em).map fun l => (l, load s0 l))
        if !bad.isEmpty then .trap (laneTrap bad em) (s.dropBlock t wx c.fid)
        else match (lanesOf em).foldlM load s0 with
          | .error _ => .wait .stall s
          | .ok s1 => .retire ((s1.dropBlock t wx c.fid).dropCaches (s1.coreOf u) (s1.clusterOf u))

/-- The traversal forms and events as instructions. -/
def execTwNlt (w : NltW) (s : State) : Host.Outcome State Fault Refusal := issueOps s (.twNlt w) (twNltRun w)
def execTwRun (w : TwRunW) (s : State) : Host.Outcome State Fault Refusal := issueOps s (.twRun w) (twRunRun w)
def execTwRet (w : TwRetW) (s : State) : Host.Outcome State Fault Refusal := issueOps s (.twRet w) (twRetRun w)
def execTwCut (w : TwCutW) (s : State) : Host.Outcome State Fault Refusal := issueOps s (.twCut w) (twCutRun w)
def execTwResume (w : TwResW) (s : State) : Host.Outcome State Fault Refusal := issueOps s (.twResume w) (twResumeRun w)
def execTraversalEvent (team wix lane : Nat) (s : State) : Host.Outcome State Fault Refusal := .next (s.traversalEvent team wix lane)
def execSettle (team wix lane : Nat) (s : State) : Host.Outcome State Fault Refusal := .next (s.settleStep team wix lane)

end Sys2Proof.Machine
end

