-- ==== Sys2Proof/Machine/Events.lean ====
section
/-!
DEFINITION. Events of memory and of warps: table walks, the application of writes and the commit of replicated ones,
completion of counted operations, release of contexts, join release, the choice and swap of fragments, DEADLOCK, soft errors
(03_memory_tiers R65; 06_consistency R133, R146; 13_control_flow R297, R303, R304; 14_execution_model R325, R326; 15 R350).
-/
namespace Sys2Proof.Machine

/-- The entry that a walk reads at a level, if the walk gets there and the entry may be cached (03_memory_tiers R65 to R67). -/
def State.walkTo (s : State) (nodes : List Nat) (d : Nat) (o : Byte) (va goal : Nat) : Nat → Nat → Nat → Option DWord
  | 0, _, _ => none
  | fuel + 1, lvl, tbl =>
    let pfx := va / 2 ^ lvlShift lvl
    let e := match s.cached nodes o lvl pfx with
      | some c => c.w0
      | none => s.tableWord d (tbl + 8 * (if lvl = 3 then pfx % 32 else pfx % 512))
    let nxt := bitsOf e.toNat 41 8 * 256
    let ptr := !e.getLsbD 1 && lvl != 3 && (homeOf nxt).isSome
    if e.getLsbD 0 = false then none
    else if lvl = goal then (if ptr || (e.getLsbD 1 && (s.leafOf lvl e va).isSome) then some e else none)
    else if ptr then s.walkTo nodes d o va goal fuel (lvl + 1) nxt
    else none

/-- A translation cache holds entries of this kind: those of the cores and the shared ones hold leaves, the others pointer and owner
entries (03_memory_tiers R72; log entry 22). -/
def tlbHolds (node : Nat) (e : TEnt) : Bool := (e.lvl != 4 && e.w0.getLsbD 1) == decide (node < 776)

/-- A translation cache takes an entry if it has room, or lets one go (03_memory_tiers R64, R65, R72, R76). Level 4 is the owner
entry. -/
def State.tlbFill (s : State) (node : Nat) (o : Byte) (va : VAddr) (lvl : Nat) (keep : Bool) : State :=
  let v := va.toNat
  let core := if node < 768 then some node else none
  let d := if node < 768 then node / 96 else node % 8
  let pfx := if lvl = 4 then 0 else v / 2 ^ lvlShift lvl
  let others := (tgetD s.tlbs node []).filter fun e => !(e.owner == o && e.lvl == lvl && e.pfx == pfx)
  if 784 ≤ node ∨ 4 < lvl then s
  else if !keep then { s with tlbs := tset [] s.tlbs node others }
  else if s.lookupOpen core d o (va.setWidth 64) then s
  else
    let nodes := tlbNodes core d
    let ow := s.ownerWords nodes d o
    let root := bitsOf ow.1.toNat 41 12 * 4096
    let e : Option TEnt :=
      if ow.1.getLsbD 0 = false ∨ (homeOf root).isNone = true then none
      else if lvl = 4 then some ⟨o, 4, 0, ow.1, ow.2⟩
      else (s.walkTo nodes d o v lvl 4 0 root).map fun w => ⟨o, lvl, pfx, w, 0⟩
    match e with
    | none => s
    | some e =>
      if s.inval.any (·.hits e) || !tlbHolds node e || decide (tlbRoom node ≤ others.length) then s
      else { s with tlbs := tset [] s.tlbs node (e :: others) }

/-- A write to the line of a replicated write is under way: its commit has begun and is not over (06_consistency R146). -/
def State.lineBusy (s : State) (w : Write) : Bool :=
  s.pend.any fun e => e.repl && e.id != w.id && e.addr / 128 == w.addr / 128 && !e.locked.isEmpty

/-- A read has stalled on a line of a replicated page at a die and has not been served (06_consistency R147). -/
def State.stalledOn (s : State) (d line : Nat) : Bool :=
  s.teams.any fun t => dieOfCluster t.2.cluster == d && (t.2.warps.map (·.regs) ++ t.2.cccs.map (·.regs)).any fun r =>
    r.ops.any fun o => o.accs.any fun a => a.repl && a.addr / 128 == line && o.stalled.contains a.lane && (tget o.vals a.lane).isNone

/-- Step 1 of a replicated commit at one die (06_consistency R146, R147): causal predecessors first, and the reads stalled by the
line's last lock, then the lock. -/
def State.replLock (s : State) (id d : Nat) : State :=
  match s.pend.find? (·.id == id) with
  | none => s
  | some w =>
    if w.repl = false ∨ 8 ≤ d ∨ w.locked.contains d = true ∨ (!w.sent && !s.mayLeave w) = true ∨ s.behindOwn w = true ∨ s.lineBusy w = true ∨
        s.stalledOn d (w.addr / 128) = true then s
    else
      let w := s.leave w
      if w.preds.all (s.appliedAt d) then
        { s with pend := s.pend.map fun x => if x.id = id then { w with locked := d :: w.locked } else x }
      else s

/-- The bytes that a replicated write gives to a die's copy, in 16-byte units: they come after every write in flight there
(03_memory_tiers R70). -/
def State.copyWrites (s : State) (w : Write) (d : Nat) : List Write :=
  let ps := pieces false (replAddr d w.addr) w.bytes
  (ps.zip (List.range ps.length)).map fun p =>
    { w with id := s.nextId + p.2, src := none, tgt := .glob, addr := p.1.1, bytes := p.1.2, repl := false, sent := true, preds := [],
             dies := List.range 8, locked := [] }

/-- Step 2 of a replicated commit at one die (06_consistency R146): the copy takes the bytes and is unlocked. -/
def State.replUpdate (s : State) (id d : Nat) : State :=
  match s.pend.find? (·.id == id) with
  | none => s
  | some w =>
    if w.repl = false ∨ 8 ≤ d ∨ allDies w.locked = false ∨ w.dies.contains d = true then s
    else
      let ws := s.copyWrites w d
      let w1 := { w with dies := d :: w.dies }
      let s1 : State := { s with flight := s.flight ++ ws, nextId := s.nextId + ws.length,
                                 pend := if allDies w1.dies then s.pend.filter (·.id != id) else s.pend.map fun x => if x.id = id then w1 else x }
      ((s.recheck s1 { w with addr := replAddr d w.addr } (w.whole && !s.partsLeft w d)).retireDone).performedAt w d

/-- An exited warp's context is released once its flags are clear (02_instruction_words R30). -/
def State.releaseContext (s : State) (t w : Nat) : State :=
  s.modWarp t w fun x => if x.exited && x.regs.ops.isEmpty then { x with bricks := [], scopes := [], base := 0 } else x

/-- The fragment that a warp issues from: its live slot, or a place in the spill stack (13_control_flow R303). -/
inductive Pick where
  | live (k : Sel)
  | spilled (i : Nat)
  deriving DecidableEq, Repr

/-- The ready fragment of greatest AGE of at least `lo` in the order live slots first, then nearest the top. -/
def Warp.oldest (rd : Frag → Bool) (lo : Nat) (w : Warp) : Option Pick :=
  let all := (w.live0.toList.map fun f => (f, Pick.live .live0)) ++ (w.live1.toList.map fun f => (f, Pick.live .live1)) ++
    (w.spill.zip (List.range w.spill.length)).map fun p => (p.1, Pick.spilled p.2)
  ((all.filter fun p => rd p.1 && decide (lo ≤ p.1.age)).foldl (fun r p => match r with
    | none => some p
    | some b => if b.1.age < p.1.age then some p else some b) none).map (·.2)

/-- The choice among fragments (13_control_flow R303); `rd` says which are ready. In a handler only the handler issues. Where the last
to issue is no longer live and both live ones are ready, it is slot 0 (log entry 88). -/
def Warp.choose (rd : Frag → Bool) (w : Warp) : Option Pick :=
  match w.handler with
  | some h => if rd h then some (.live .handler) else none
  | none =>
    let up (k : Sel) : Bool := (w.frag? k).any rd
    let is (k : Sel) : Bool := (w.frag? k).any (·.fid == w.last)
    let last? : Option Sel := if is .live0 then some .live0 else if is .live1 then some .live1 else none
    let other : Sel := if last? = some .live0 then .live1 else if last? = some .live1 then .live0 else if up .live0 then .live0 else .live1
    match w.oldest rd 64 with
    | some p => some p
    | none =>
      let again := (last?.filter up).map Pick.live
      let next := if up other then some (Pick.live other) else none
      if w.run < 16 && !w.other then (again.or next).or (w.oldest rd 0) else (next.or again).or (w.oldest rd 0)

/-- Bring a spilled fragment into a live slot (13_control_flow R304): a free one, else that of the live fragment of smaller
AGE, or slot 1. -/
def Warp.bringIn (w : Warp) (i : Nat) : Warp × Sel :=
  let k : Sel := if w.live0.isNone then .live0 else if w.live1.isNone then .live1 else
    if ((w.live0.map (·.age)).getD 0) < ((w.live1.map (·.age)).getD 0) then .live0 else .live1
  let out := (w.frag? k).toList
  (({ w with spill := out ++ w.spill.eraseIdx i }).setFrag k w.spill[i]?, k)

/-- Bring in the spilled fragment that is to issue next, or fill free slots (13_control_flow R304). -/
def State.swapFrag (s : State) (t w : Nat) : State :=
  let rd (f : Frag) : Bool := !s.blocked (.warp t w) f
  s.modWarp t w fun x => if x.place != .resident || x.handler.isSome then x else
    match x.choose rd with
    | some (.spilled i) => (x.bringIn i).1
    | _ => x.fill (s.blocked (.warp t w))

/-- What counts as waiting for the DEADLOCK rule (14_execution_model R325). -/
def WaitOn.counts : WaitOn → Bool
  | .rendezvous _ | .tagAny _ _ | .tagAll _ _ | .tagIssue _ | .scopeOpen | .entry | .pass _ | .walk | .context _ _ _ => true
  | _ => false

/-- A fragment waits, as the DEADLOCK rule counts it. -/
def State.waits (s : State) (u : UnitId) (f : Frag) : Bool := s.blocked u f && f.wait.any WaitOn.counts

/-- A warp waits (13_control_flow R298; 14_execution_model R325). -/
def State.warpWaits (s : State) (t w : Nat) (x : Warp) : Bool :=
  let fs := x.live0.toList ++ x.live1.toList ++ x.spill
  x.place == .resident && x.queue.isEmpty && x.handler.isNone && !fs.isEmpty && fs.all (s.waits (.warp t w))

/-- A context waits. -/
def State.cccWaits (s : State) (t i : Nat) (x : Ccc) : Bool :=
  s.waits (.ccc t i) x.frag || (x.frag.wait == some .exit && s.blocked (.ccc t i) x.frag)

/-- A walk counts as a releaser (16_traversal R376): a lane has an event that needs no invocation, or one that is ready. -/
def Walk.moves (k : Walk) : Bool :=
  (lanesOf k.lmap).any fun l => (tget k.stops l).isNone && (tget k.invs l).all (·.stage != 2)

/-- The releasers of a set (14_execution_model R325 point 4). -/
def State.releaser (s : State) (x : TSet) : Bool :=
  let ts := x.teams.filterMap fun t => (s.team? t).map fun y => (t, y)
  (ts.any fun p => (p.2.warps.map (·.regs) ++ p.2.cccs.map (·.regs)).any fun r => !r.ops.isEmpty) ||
  (ts.any fun p => p.2.tags.any fun l => l.any fun g => g.st == 1 && !g.halt) ||
  (ts.any fun p => (s.cluster p.2.cluster).entries.any fun e => e.granted.isSome || s.eligible p.2.cluster e) ||
  (ts.any fun p => p.2.warps.any fun w => (w.frags.any fun f => f.wait == some .scopeOpen) &&
    s.teams.any fun q => q.1 != p.1 && q.2.warps.any fun v => v.core == w.core && !v.bricks.isEmpty && !v.place.isSaved) ||
  ts.any fun p => p.2.warps.any fun w => w.walks.any Walk.moves

/-- A team set is stuck (14_execution_model R325). -/
def State.stuck (s : State) (x : TSet) : Bool :=
  let ts := x.teams.filterMap fun t => (s.team? t).map fun y => (t, y)
  !x.frozen && !s.hasSaved x &&
  (ts.any fun p => p.2.warps.any (!·.exited) || p.2.cccs.any (!·.exited)) &&
  (ts.all fun p => p.2.cplace == .resident &&
    ((p.2.warps.zip (List.range p.2.warps.length)).all fun w => w.1.exited || s.warpWaits p.1 w.2 w.1) &&
    (p.2.cccs.zip (List.range p.2.cccs.length)).all fun c => c.1.exited || s.cccWaits p.1 c.2 c.1) &&
  !s.releaser x

/-- AUX of a DEADLOCK trap (15_traps_preemption R331). -/
def State.stuckAux (s : State) (t : Nat) (f : Frag) : DWord :=
  BitVec.ofNat 64 (match f.wait with
    | some (.tagAll ci m) => (((s.masked t ci m).find? fun e => e.2.st != 2).map (·.1)).getD 0
    | some (.tagAny ci m) => (((s.masked t ci m).find? fun e => e.2.st == 1).map (·.1)).getD 0
    | some (.tagIssue n) => n
    | some (.rendezvous p) => p
    | _ => 0)

/-- The fragment of a warp that DEADLOCK is raised on (14_execution_model R326). -/
def State.stuckFrag (s : State) (t w : Nat) (x : Warp) : Option Frag :=
  (x.live0.toList ++ x.live1.toList ++ x.spill).find? (s.blocked (.warp t w))

/-- DEADLOCK on the chosen fragment of a warp: its request is withdrawn and it traps. -/
def State.stuckWarp (s : State) (p : Nat × Nat × Nat × DWord) : State :=
  ((s.dequeue (.warp p.1 p.2.1) p.2.2.1).takeTrap p.1 p.2.1 p.2.2.1 none (plainTrap cDEADLOCK p.2.2.2) []).getD s

/-- DEADLOCK on a context. -/
def State.stuckCcc (s : State) (p : Nat × Nat × DWord) : State :=
  match s.ccc? p.1 p.2.1 with
  | none => s
  | some y =>
    let f := y.frag
    s.cccTrap p.1 p.2.1 2 0 ⟨cDEADLOCK, false, f.arrived none, f.slot, p.2.2, 0, f.cpc⟩

/-- The warps of a set that have not exited, each with the fragment that DEADLOCK is raised on and its AUX. -/
def State.stuckWarps (s : State) (x : TSet) : List (Nat × Nat × Nat × DWord) :=
  x.teams.flatMap fun t => (((s.team? t).map fun q => q.warps.zip (List.range q.warps.length)).getD []).filterMap fun y =>
    if y.1.exited then none else (s.stuckFrag t y.2 y.1).map fun f => (t, y.2, f.fid, s.stuckAux t f)

/-- The contexts of a set that have not exited, with their AUX. -/
def State.stuckCccs (s : State) (x : TSet) : List (Nat × Nat × DWord) :=
  x.teams.flatMap fun t => (((s.team? t).map fun q => q.cccs.zip (List.range q.cccs.length)).getD []).filterMap fun y =>
    if y.1.exited then none else some (t, y.2, s.stuckAux t y.1.frag)

/-- A stuck set traps, all at the same instant (14_execution_model R326). -/
def State.deadlock (s : State) (set : Nat) : State :=
  match s.set? set with
  | none => s
  | some x => if !s.stuck x then s else (s.stuckCccs x).foldl State.stuckCcc ((s.stuckWarps x).foldl State.stuckWarp s)

/-- An uncorrectable soft error (15_traps_preemption R350). -/
def State.softError (s : State) : SoftSite → State
  | .elsewhere d => s.ringPut (.check d) ⟨cMCHK, 3, 0, 1023, 255, 0, false, 0, 0, 1, 0, []⟩
  | .unit u =>
    if (s.set? (s.setOf (teamOf u))).any (·.frozen) then s
    else match u with
    | .warp t w => match (s.warp? t w).bind (·.frags.head?) with
      | none => s
      | some f => (s.takeTrap t w f.fid none (plainTrap cMCHK) []).getD s
    | .ccc t i => match s.ccc? t i with
      | none => s
      | some x => s.cccTrap t i 3 0 ⟨cMCHK, false, x.frag.arrived none, x.frag.slot, 0, 0, x.frag.cpc⟩

/-- The events as instructions. -/
def execTranslationWalk (node : Nat) (owner : Byte) (va : VAddr) (lvl : Nat) (keep : Bool) (s : State) :
    Host.Outcome State Fault Refusal := .next (s.tlbFill node owner va lvl keep)
def execWriteApplication (id die : Nat) (s : State) : Host.Outcome State Fault Refusal := .next (s.applyWrite id die).sendPuts.ringAdvance
def execReplLock (id die : Nat) (s : State) : Host.Outcome State Fault Refusal := .next (s.replLock id die)
def execReplUpdate (id die : Nat) (s : State) : Host.Outcome State Fault Refusal := .next (s.replUpdate id die).sendPuts.ringAdvance
def execCountedCompletion (u : UnitId) (seq : Nat) (fresh : Bool) (s : State) : Host.Outcome State Fault Refusal :=
  .next ((s.complete u seq fresh).getD s)
def execWarpContextRelease (team wix : Nat) (s : State) : Host.Outcome State Fault Refusal := .next (s.releaseContext team wix)
def execJoinRelease (team wix : Nat) (s : State) : Host.Outcome State Fault Refusal := .next (s.modWarp team wix (·.releasePark))
def execFragmentSwap (team wix : Nat) (s : State) : Host.Outcome State Fault Refusal := .next (s.swapFrag team wix)
def execDeadlock (set : Nat) (s : State) : Host.Outcome State Fault Refusal := .next (s.deadlock set)
def execSoftError (site : SoftSite) (s : State) : Host.Outcome State Fault Refusal := .next (s.softError site)

end Sys2Proof.Machine
end

