-- ==== Sys2Proof/Machine/Gather.lean ====
section
/-!
DEFINITION. The gather fetch unit: surface handles, formats, and `gf.ld` (12_sparse_rows R276 to R284). Handle, bitmap and
offset bytes are read as the instruction issues; each lane's value is read as the operation is performed.
-/
namespace Sys2Proof.Machine

/-- One byte through the gather cache, or from the die's L2 (12_sparse_rows R283). -/
def State.gatherByte (s : State) (u : UnitId) (plain : Bool) (l : Leaf) : State × Byte :=
  let d := s.dieOf u
  let cl := s.clusterOf u
  let a : Acc := ⟨0, .glob, l.pa, 0, 1, l.key, l.repl, l.pg⟩
  if !plain then (s, (s.readL2 d a).1.headD 0)
  else match tget (s.cluster cl).gcache (lineKey a) with
    | some bs => (s, bs.getD (l.pa % 128) 0)
    | none =>
      let bs := (s.readL2 d { a with addr := l.pa / 128 * 128, len := 128 }).1
      (s.modCluster cl (·.gfill (lineKey a) bs), bs.getD (l.pa % 128) 0)

/-- A byte that a lane reads: its address, and its page, with whether the page may be read; none where its translation fails. -/
abbrev GByte := DWord × Option (Leaf × Bool)

/-- The bytes that a lane reads from an address. -/
def State.gatherBytes (s : State) (u : UnitId) (va n : Nat) : List GByte :=
  (List.range n).map fun i =>
    let v := BitVec.ofNat 64 (va + i)
    (v, if 2 ^ 48 ≤ va + i then none else (s.translate (s.coreOf u) (s.dieOf u) (s.ownerOf u) v).map fun l =>
      (l, l.allows .read && s.keyOk (s.coreOf u) (s.dieOf u) (s.ownerOf u) l.key))

/-- The first byte whose translation fails. -/
def noPage (l : List GByte) : Option DWord := (l.find? fun b => b.2.isNone).map (·.1)

/-- The first byte that may not be read. -/
def noRead (l : List GByte) : Option DWord := (l.find? fun b => b.2.any fun x => !x.2).map (·.1)

/-- A byte's read at issue must wait: for a lock (06_consistency R147), or for earlier accesses of the warp to it: a plain read
for plain loads, a bypassing one for every load, atomic and store (06_consistency R143, R144; 12_sparse_rows R283). -/
def State.gatherHeld (s : State) (u : UnitId) (plain : Bool) (l : Leaf) : Bool :=
  let a : Acc := ⟨0, .glob, l.pa, 0, 1, l.key, l.repl, l.pg⟩
  (l.repl && s.lockedLine (s.dieOf u) l.pa && !(plain && (tget (s.cluster (s.clusterOf u)).gcache (lineKey a)).isSome)) ||
  ((((s.regs? u).map (·.ops)).getD []).any fun o => (!plain || o.plain) && o.accs.any fun x => x.meets a && (tget o.vals x.lane).isNone) ||
  (!plain && s.writes.any fun w => w.src == some u && a.meetsW w && !w.dieDone)

/-- Read bytes at issue, little-endian; none where they must wait (12_sparse_rows R281). -/
def State.gatherRead (s : State) (u : UnitId) (plain : Bool) (bs : List GByte) : Option (State × Nat) :=
  let ls := bs.filterMap fun b => b.2.map (·.1)
  if s.lookups u (bs.map (·.1)) || ls.any (s.gatherHeld u plain) then none
  else
    let q := ls.foldl (fun (q : State × List Byte) l => let b := q.1.gatherByte u plain l; (b.1, q.2 ++ [b.2])) (s, [])
    some (q.1, ofBytes q.2)

/-- A surface handle (12_sparse_rows R277): its eight 64-bit words. -/
abbrev Handle := List Nat

/-- Handle fields (12_sparse_rows R277). -/
def Handle.w (h : Handle) (k : Nat) : Nat := h.getD k 0
def Handle.base (h : Handle) : Nat := h.w 0
def Handle.sbase (h : Handle) : Nat := h.w 1
def Handle.mbase (h : Handle) : Nat := h.w 2
def Handle.obase (h : Handle) : Nat := h.w 3
def Handle.rows (h : Handle) : Nat := h.w 4 % 2 ^ 32
def Handle.cols (h : Handle) : Nat := h.w 4 / 2 ^ 32
def Handle.rstride (h : Handle) : Nat := h.w 5 % 2 ^ 32
def Handle.sstride (h : Handle) : Nat := h.w 5 / 2 ^ 32
def Handle.mstride (h : Handle) : Nat := h.w 6 % 2 ^ 32
def Handle.fmt (h : Handle) : Nat := h.w 6 / 2 ^ 32 % 16

/-- A handle is valid (12_sparse_rows R278). -/
def Handle.valid (h : Handle) : Bool :=
  let f := h.fmt
  let va (x : Nat) : Bool := decide (x < 2 ^ 48)
  decide (f ≤ 3) && h.w 6 / 2 ^ 36 == 0 && h.w 7 == 0 &&
  decide (1 ≤ h.rows) && decide (h.rows ≤ 2 ^ 24) && decide (1 ≤ h.cols) && decide (h.cols ≤ 2 ^ 24) &&
  (if f ≤ 1 then h.cols % 2 == 0 else h.cols % 16 == 0) && (f != 3 || decide (h.cols ≤ 4096)) &&
  va h.base && (decide (f ≤ 1) || va h.sbase) && (f != 3 || (va h.mbase && va h.obase)) &&
  h.base % (if f = 3 then 16 else 4) == 0 && h.rstride % 4 == 0 && h.obase % 4 == 0 &&
  (if f ≤ 1 then h.sbase == 0 && h.sstride == 0 else true) &&
  (if f = 3 then h.rstride == 0 else h.mbase == 0 && h.obase == 0 && h.mstride == 0)

/-- What a lane comes to at issue: an access (none for a block that is not stored), a fault, or a wait. -/
inductive GLane where
  | acc (s : State) (a : Option Acc)
  | bad (cause : Nat) (addr : DWord)
  | waits

/-- The access to the bytes that give a lane's value: their checks, RANGE before PERM, with those of the bytes read before them
(12_sparse_rows R282); `late` is an address whose RANGE comes after the translations. -/
def State.gatherAcc (s : State) (u : UnitId) (lane va n : Nat) (before : List GByte) (late : Option DWord) : GLane :=
  let bs := s.gatherBytes u va n
  if s.lookups u (bs.map (·.1)) then .waits
  else match noPage bs, late, noRead (before ++ bs), (bs.head?).bind (·.2) with
    | some v, _, _, _ => .bad cRANGE v
    | none, some v, _, _ => .bad cRANGE v
    | none, none, some v, _ => .bad cPERM v
    | none, none, none, some (l, _) => .acc s (some ⟨lane, .glob, l.pa, BitVec.ofNat 64 va, n, l.key, l.repl, l.pg⟩)
    | none, none, none, none => .acc s none

/-- A lane of `gf.ld` at issue (12_sparse_rows R281, R282): of a ZK8 surface the row's bitmap is read, and the row's offset where
the block is stored; RANGE of any byte comes before PERM of any. -/
def State.gatherLane (s : State) (u : UnitId) (w : GfW) (hva : DWord) (h : Handle) (lane r c : Nat) : GLane :=
  let plain := !w.bp
  if !w.sc && (if h.fmt ≤ 1 then c % 2 != 0 else h.fmt ≤ 3 && c % 4 != 0) then .bad cALIGN hva
  else if !h.valid || (w.sc && decide (h.fmt ≤ 1)) || decide (h.rows ≤ r) || decide (h.cols ≤ c) then .bad cRANGE hva
  else if w.sc then s.gatherAcc u lane (h.sbase + r * h.sstride + c / 16) 1 [] none
  else if h.fmt ≤ 1 then s.gatherAcc u lane (h.base + r * h.rstride + 2 * c) 4 [] none
  else if h.fmt = 2 then s.gatherAcc u lane (h.base + r * h.rstride + c) 4 [] none
  else
    let b := c / 16
    let bits := s.gatherBytes u (h.mbase + r * h.mstride) (cdiv (h.cols / 16) 8)
    match noPage bits, s.gatherRead u plain bits with
    | some v, _ => .bad cRANGE v
    | none, none => .waits
    | none, some (s1, m) =>
      if !bitOf m b then (match noRead bits with
        | some v => .bad cPERM v
        | none => .acc s1 none)
      else
        let oa := h.obase + 4 * r
        let offs := s1.gatherBytes u oa 4
        match noPage offs, s1.gatherRead u plain offs with
        | some v, _ => .bad cRANGE v
        | none, none => .waits
        | none, some (s2, off) =>
          s2.gatherAcc u lane (h.base + off + 16 * popcNat b m + c % 16) 4 (bits ++ offs)
            (if off % 16 = 0 then none else some (BitVec.ofNat 64 oa))

/-- All lanes of a map: the state with its cache lines, the accesses, the faults; none where a lane must wait. -/
def State.gatherLanes (s : State) (u : UnitId) (w : GfW) (hva : DWord) (h : Handle) (e : Env) (m : Lanes) :
    Option (State × List Acc × List (Nat × Nat × DWord)) :=
  (lanesOf m).foldl (fun q l => q.bind fun (s, as, bs) =>
    match s.gatherLane u w hva h l (opLane e.a l % 2 ^ 32) (opLane e.b l % 2 ^ 32) with
    | .acc s a => some (s, as ++ a.toList, bs)
    | .bad k v => some (s, as, bs ++ [(l, k, v)])
    | .waits => none) (some (s, [], []))

/-- The words of a handle from its bytes as one number. -/
def handleOf (n : Nat) : Handle := (List.range 8).map fun k => n / 2 ^ (64 * k) % 2 ^ 64

/-- `gf.ld` (12_sparse_rows R279 to R283). -/
def gfLdRun (w : GfW) (e : Env) (c : Ctx) (s : State) : Res :=
  let u := c.cur.unit
  let i := Instr.gfLd w
  let m := effMap e [e.a, e.b]
  let hva := BitVec.ofNat 64 (opScal (e.more.headD []))
  let every (k : Nat) : Res := .trap (laneTrap ((lanesOf m).map fun l => (l, k, hva)) m) s
  match strictTrap e w.strict [e.a, e.b] with
  | some t => .trap t s
  | none =>
    if s.flagFull c i then .wait .stall s
    else if m = 0 then .retire (s.count c i e e.recs ⟨0, [], none, none, !w.bp⟩)
    else if s.fenceHold u (s.seqOf u) || (((s.regs? u).map (·.ops)).getD []).any (fun o => s.acqOpen u o (if w.bp then 0 else 2)) ||
        (hva.toNat % 64 == 0 && s.lookups u [hva]) then .wait .stall s
    else match s.globAcc u 0 hva 64 .read with
      | .error k => every k
      | .ok _ =>
        match s.gatherRead u (!w.bp) (s.gatherBytes u hva.toNat 64) with
        | none => .wait .stall s
        | some (s1, n) =>
          match s1.gatherLanes u w hva (handleOf n) e m with
          | none => .wait .stall s
          | some (s2, as, []) => .retire (s2.count c i e e.recs ⟨m, as, none, none, !w.bp⟩)
          | some (s2, _, bs) => .trap (laneTrap bs m) s2

def execGfLd (w : GfW) (s : State) : Host.Outcome State Fault Refusal := issueOps s (.gfLd w) (gfLdRun w)

end Sys2Proof.Machine
end

