-- ==== Sys2Proof/Machine/Replay.lean ====
section
/-!
DEFINITION. The return from a trap: `rte`, and `exit` as a handler and as any other fragment issues it; the replay of
withdrawn and trapping instructions from their records (15_traps_preemption R332 to R342).
-/
namespace Sys2Proof.Machine

/-- The body that performs a form from its records; none for a form that takes no replay entry (15_traps_preemption R333). -/
def replayBody : Instr → Option (Env → Ctx → State → Res)
  | .iadd w => some (intRun (.iadd w) w iaddF)
  | .isub w => some (intRun (.isub w) w isubF)
  | .iabs w => some (iabsRun w)
  | .imin w => some (intRun (.imin w) w iminF)
  | .imax w => some (intRun (.imax w) w imaxF)
  | .imul w => some (intRun (.imul w) w imulF)
  | .imulhi w => some (imulhiRun w)
  | .imad w => some (imadRun w)
  | .and w => some (intRun (.and w) w (bitF Nat.land))
  | .or w => some (intRun (.or w) w (bitF Nat.lor))
  | .xor w => some (intRun (.xor w) w (bitF Nat.xor))
  | .not w => some (notRun w)
  | .shl w => some (shiftRun (.shl w) w shlF)
  | .shr w => some (shiftRun (.shr w) w shrF)
  | .sar w => some (shiftRun (.sar w) w shrF)
  | .popc w => some (oneRun (.popc w) w 1 (popcNat 32))
  | .clz w => some (oneRun (.clz w) w 1 clz32)
  | .brev w => some (oneRun (.brev w) w 1 brev32)
  | .bfe w => some (bfeRun w)
  | .bfi w => some (bfiRun w)
  | .lea w => some (leaRun w)
  | .sel w => some (selRun w)
  | .icmp cc w => some (icmpRun cc w)
  | .mov w => some (movRun w)
  | .movi w => some (moviRun w)
  | .movh w => some (movhRun w)
  | .cvt w => some (cvtRun w)
  | .fadd w => some (fltRun (.fadd w) faddOp w)
  | .fsub w => some (fltRun (.fsub w) fsubOp w)
  | .fmul w => some (fltRun (.fmul w) fmulOp w)
  | .ffma w => some (ffmaRun w)
  | .fmin w => some (fltRun (.fmin w) fminOp w)
  | .fmax w => some (fltRun (.fmax w) fmaxOp w)
  | .fcmp cc w => some (fcmpRun cc w)
  | .fclass w => some (flt1Run (.fclass w) w fclassOp)
  | .frnd w => some (flt1Run (.frnd w) w frndOp)
  | .fcvt w => some (fcvtRun w)
  | .frcp w => some (flt1Run (.frcp w) w (transcOp 0))
  | .frsq w => some (flt1Run (.frsq w) w (transcOp 1))
  | .fsqrt w => some (flt1Run (.fsqrt w) w fsqrtOp)
  | .fexp2 w => some (flt1Run (.fexp2 w) w (transcOp 3))
  | .flog2 w => some (flt1Run (.flog2 w) w (transcOp 4))
  | .fsin w => some (flt1Run (.fsin w) w (transcOp 5))
  | .fcos w => some (flt1Run (.fcos w) w (transcOp 6))
  | .kdot4 w => some (kdotRun (.kdot4 w) w 4)
  | .kdot8 w => some (kdotRun (.kdot8 w) w 8)
  | .kscale w => some (kscaleRun w)
  | .kpack w => some (kpackRun w)
  | .kunpack w => some (kunpackRun w)
  | .occGet w => some (occGetRun w)
  | .occSet w => some (occSetRun w)
  | .occAnd w => some (occAndRun w)
  | .occFill w => some (occFillRun w)
  | .occPack w => some (occPackRun w)
  | .occUnpack w => some (occUnpackRun w)
  | .occCnt w => some (occCntRun w)
  | .shflIdx w => some (shflRun (.shflIdx w) w shflIdxF)
  | .shflUp w => some (shflRun (.shflUp w) w shflUpF)
  | .shflDn w => some (shflRun (.shflDn w) w shflDnF)
  | .shflXor w => some (shflRun (.shflXor w) w shflXorF)
  | .voteAny w => some (voteRun (.voteAny w) w false)
  | .voteAll w => some (voteRun (.voteAll w) w true)
  | .voteBal w => some (voteBalRun w)
  | .scan op w => some (scanRun op w)
  | .red op w => some (redRun op w)
  | .rebal w => some (rebalRun w)
  | .ldSpT w => some (ldSpTRun w)
  | .sRdl w => some (sRdlRun w)
  | .vBcast w => some (vBcastRun w)
  | .ldG w => some (ldGRun w)
  | .stG w => some (stGRun w)
  | .ldC w => some (ldCRun w)
  | .ldSp w => some (ldSpRun w)
  | .stSp w => some (stSpRun w)
  | .atomG op w => some (atomGRun op w)
  | .atomSp op w => some (atomSpRun op w)
  | .gfLd w => some (gfLdRun w)
  | .sLd w => some (sLdRun w)
  | .opSt w => some (opStRun w)
  | .mxFeed w => some (mxFeedRun w)
  | .acLd w => some (acLdRun w)
  | _ => none

/-- The header of a clause as decoded again (02_instruction_words R32); none where it is no header or has no slot `k`. -/
def State.headerAt (s : State) (u : UnitId) (cpc : DWord) (k : Nat) : Option Header :=
  match s.fetch u cpc with
  | .error _ => none
  | .ok w => (decodeHeader w).filter fun h => decide (k < h.len)

/-- The vector registers that a replayed instruction writes (07_registers R173); its sources come from its records. -/
def Entry.dests (e : Entry) : List Nat :=
  match e.instr with
  | .pairWord _ a b => [a.d.toNat, b.d.toNat]
  | i => if dIsSource i then [] else
      ((shape i).d.toList.filter (·.cls == 0)).flatMap fun f => (List.range f.w).map (e.dst + ·)

/-- Perform a replay entry once (15_traps_preemption R341): from its records, on the lanes of EMAP and CMAP. -/
def State.performEntry (s : State) (t wx : Nat) (e : Entry) : Res :=
  let u : UnitId := .warp t wx
  match s.headerAt u e.cpc e.slot with
  | none => .trap (plainTrap cILLENC) s
  | some h =>
    if isCounted e.instr && flagOf h e.instr == 15 then .trap (plainTrap cILLENC) s
    else
      let only := e.emap &&& e.cmap
      let c : Ctx := ⟨⟨u, .handler⟩, e.fid, .handler, e.lmap, h, e.cpc, e.slot, 0⟩
      let r := match e.instr with
        | .pairWord ch a b => pairRun ch a b e.lmap only e.recs c s
        | i => match replayBody i with
          | some f => f (mkEnv (shape i) e.lmap only e.dst e.recs) c s
          | none => .retire s
      match r with
      | .retire s1 => .retire (s.useBuf s1 t wx e.marks e.dests)
      | r => r

/-- The place after an instruction (15_traps_preemption R341). -/
def State.placeAfter (s : State) (u : UnitId) (cpc : DWord) (k : Nat) : DWord × Nat :=
  match s.headerAt u cpc k with
  | none => (cpc, k)
  | some h => if k + 1 < h.len then (cpc, k + 1) else (cpc + BitVec.ofNat 64 (8 * (h.len + 1)), 0)

/-- The trapping fragment takes its resumption point (15_traps_preemption R341; 06_consistency R155): `past` after the
trapping instruction. A fragment that resumes at the wait of `rv.arrw` goes on with that wait, one at `tw.run` waits alone. -/
def State.resumeAt (s : State) (t wx : Nat) (fr : Frame) (past : Bool) : State :=
  let p := if past then s.placeAfter (.warp t wx) fr.rpc fr.rsl else (fr.rpc, fr.rsl)
  s.modWarp t wx fun x =>
    let waits := !past && (fr.arrw || x.walks.any (·.fid == fr.fid))
    x.modFid fr.fid fun f => { f with cpc := p.1, slot := p.2, hdr := none, snap := [], phase := bit waits,
                                      wait := if fr.arrw && !past then f.wait else none }

/-- A fragment leaves its warp, wherever it stands (13_control_flow R292; 15_traps_preemption R342). -/
def State.endFid (s : State) (t w fid : Nat) : State :=
  let out (o : Option Frag) : Option Frag := o.filter (·.fid != fid)
  let s := (s.modWarp t w fun x =>
    { x with live0 := out x.live0, live1 := out x.live1, spill := x.spill.filter (·.fid != fid),
             parks := x.parks.filter (·.2.fid != fid), walks := x.walks.filter (·.fid != fid) }).fillSlots t w
  let s := s.modWarp t w fun x => if x.frags.isEmpty then { x with exited := true } else x
  s.modTeam t fun x => if x.warps.all (·.exited) then { x with tags := x.tags.map fun l => l.map fun g => { g with halt := false } } else x

/-- End the handler and its frame. -/
def State.endHandler (s : State) (t wx : Nat) : State := s.modWarp t wx fun x => { x with handler := none, frame := none }

/-- The trapping fragment's own trapping instruction has been performed (15_traps_preemption R341). -/
def Frame.fltDone (fr : Frame) : Bool :=
  fr.ents.any fun e => e.flt && e.fid == fr.fid && e.cpc == fr.rpc && e.slot == fr.rsl && !e.v && !e.mode

/-- The warp after its trap has ended: the trapping fragment goes on, or leaves (15_traps_preemption R341, R342). -/
def State.endTrap (s : State) (t wx : Nat) (fr : Frame) (exiting stay : Bool) : State :=
  let s := s.endHandler t wx
  if exiting then s.endFid t wx fr.fid else s.resumeAt t wx fr (!stay && (fr.res || fr.fltDone))

/-- A performed entry has trapped: a new trap with that entry first and those not yet performed after it, each with its maps as
they stand and its fragment as it is numbered now (15_traps_preemption R341). None while it cannot be taken. -/
def State.retrap (s : State) (t wx : Nat) (fr : Frame) (exiting : Bool) (e : Entry) (rest : List Entry) (ti : TrapInfo) : Option State :=
  let s := s.endTrap t wx fr exiting (e.flt && e.fid == fr.fid)
  match s.warp? t wx with
  | none => some s
  | some x =>
    let keep (flt : Bool) (y : Entry) : Entry := { y with flt := flt, frg := x.recNum y.fid }
    match ((x.byFid e.fid).or (x.byFid fr.fid)).or x.frags.head? with
    | none => some s
    | some f => s.takeTrap t wx f.fid none ti (keep true e :: (rest.filter fun y => y.v && !y.mode).map (keep false))

/-- An entry of the frame has been performed or discarded. -/
def State.entryOff (s : State) (t wx q : Nat) : State :=
  s.modWarp t wx fun x => { x with frame := x.frame.map fun f => { f with ents := lmod f.ents q fun y => { y with v := false } } }

/-- Perform the entries that are left, in order, with the trap's end after the last (15_traps_preemption R341). False where an
entry must wait: those before it have been performed, and it comes next. -/
def State.replay (s : State) (t wx : Nat) (exiting : Bool) : Nat → State × Bool
  | 0 => (s, true)
  | n + 1 =>
    match (s.warp? t wx).bind (·.frame) with
    | none => (s, true)
    | some fr =>
      match (fr.ents.zip (List.range fr.ents.length)).find? fun p => p.1.v with
      | none => (s.endTrap t wx fr exiting false, true)
      | some (e, q) =>
        if e.mode then (s.entryOff t wx q).replay t wx exiting n
        else match s.performEntry t wx e with
          | .retire s' => (s'.entryOff t wx q).replay t wx exiting n
          | .placed s' => (s'.entryOff t wx q).replay t wx exiting n
          | .done s' => (s'.entryOff t wx q).replay t wx exiting n
          | .trap ti s' => match s'.retrap t wx fr exiting e (fr.ents.drop (q + 1)) ti with
            | some s2 => (s2, true)
            | none => (s, false)
          | .wait _ _ => (s, false)

/-- The frame's clauses, which the replay fetches and decodes again. -/
def State.frameClauses (s : State) (t wx : Nat) : List DWord :=
  (((s.warp? t wx).bind (·.frame)).map fun fr => fr.rpc :: fr.ents.map (·.cpc)).getD []

/-- What the handler leaves behind: s56 to s63, %fst, %wst and, at `rte`, the targets; at `exit`, the trapping fragment's
entries are discarded (15_traps_preemption R341, R342). -/
def State.restore (s : State) (t wx : Nat) (exiting : Bool) : State :=
  s.modWarp t wx fun x =>
    match x.frame with
    | none => x
    | some fr =>
      let tg := (x.handler.map (·.tg)).getD []
      let drop (e : Entry) : Entry := if exiting && e.fid == fr.fid then { e with v := false, mode := true } else e
      let y := { x with regs := x.regs.setSs 56 fr.ssave, fst := fr.rfst &&& 0x1F, wst := fr.rwst &&& 7,
                        frame := some { fr with ents := fr.ents.map drop } }
      if exiting then y else y.modFid fr.fid fun f => { f with tg := tg }

/-- The end of a trap by `rte` or by `exit` in the handler (15_traps_preemption R341, R342): it waits for the handler's counted
operations, restores, and replays; a replay that must wait goes on where it stopped. -/
def leaveHandler (exiting : Bool) (c : Ctx) (s : State) : Res :=
  match c.cur.unit with
  | .ccc _ _ => .retire s
  | .warp t wx =>
    if c.phase = 0 ∧ ((s.regs? c.cur.unit).any fun r => r.ops.any (·.fid == c.fid)) = true then .wait .exit s
    else
      let s := if c.phase = 0 then (s.restore t wx exiting).modFrag c.cur fun f => { f with phase := 1 } else s
      if s.lookups c.cur.unit (s.frameClauses t wx) then .wait .stall s
      else match s.replay t wx exiting 10 with
        | (s', true) => .done s'
        | (s', false) => .wait .stall s'

/-- `rte` (15_traps_preemption R341). -/
def rteRun (c : Ctx) (s : State) : Res := leaveHandler false c s

/-- `exit`: in a handler it ends the trapping fragment (13_control_flow R292; 15_traps_preemption R342). -/
def exitAnyRun (c : Ctx) (s : State) : Res := if c.kind = .handler then leaveHandler true c s else exitRun c s

def execRte (s : State) : Host.Outcome State Fault Refusal := issue s .rte rteRun
def execExit (s : State) : Host.Outcome State Fault Refusal := issue s .exit exitAnyRun

end Sys2Proof.Machine
end

