-- ==== Sys2Proof/Machine/Lifecycle.lean ====
section
/-!
DEFINITION. The end of teams and sets, and pre-emption: completion, release of killed sets, the choice of victims, their stop,
their saves and their resumption (14_execution_model R321, R323; 15_traps_preemption R343, R354 to R362; 16_traversal R382).
-/
namespace Sys2Proof.Machine

/-- Set how far a team's completion has come. -/
def State.setStep (s : State) (t : Nat) (k : Step3) : State := s.modTeam t fun x => { x with step := k }

/-- Every warp and context has exited, and every copy and post of the team is done (14_execution_model R321). -/
def Team.finished (x : Team) : Bool :=
  (x.warps.all fun w => w.exited && w.base == 0 && w.regs.ops.isEmpty) && (x.cccs.all (·.exited)) &&
    (x.tags.all fun l => l.all fun g => g.st != 1) && x.posts.isEmpty && x.ents.isEmpty

/-- The writes that a team's completion releases (14_execution_model R321 step 2; 06_consistency R138). -/
def State.teamWrites (s : State) (t : Nat) (x : Team) : List Nat :=
  (s.writes.filter fun w => w.tgt == .glob && (w.src.any (teamOf · == t) || w.dies.contains (dieOfCluster x.cluster))).map (·.id)

/-- Remove a set and its teams; a grid whose teams have all completed ends (14_execution_model R311, R321). -/
def State.endSet (s : State) (id : Nat) (x : TSet) : State :=
  let s := { s with teams := x.teams.foldl tdel s.teams, sets := tdel s.sets id,
                    invDone := s.invDone.filter fun p => !x.teams.contains (teamOf p.1) }
  match tget s.grids x.grid with
  | none => s
  | some g =>
    if g.total * (pktBits g.pkt 0x00 15 14 + 1) ≤ g.done then { s with grids := tdel s.grids x.grid } else s

/-- Teams of a grid count as complete. -/
def State.countDone (s : State) (grid n : Nat) : State :=
  match tget s.grids grid with
  | none => s
  | some g => { s with grids := tput s.grids grid { g with done := g.done + n } }

/-- A team is complete: it counts for its grid, and the last one of a set ends the set (14_execution_model R321). -/
def State.teamDone (s : State) (t : Nat) (x : Team) : State :=
  match s.set? x.set with
  | none => s
  | some z =>
    let s := (s.setStep t .complete).countDone z.grid 1
    if z.teams.all fun t => (s.team? t).all (·.step == .complete) then s.endSet x.set z else s

/-- One decrement of a successor's DEP, and its outcome: where the block is to be launched, the writes that its DEP has come from
(14_execution_model R323; 15_traps_preemption R345, R346). None while it waits for the completion unit's pending slot, for a
lookup, or for its causal predecessors. -/
def State.decrement (s : State) (x : Team) (v : DWord) : Option (State × Option (List Nat)) :=
  let src : RingSrc := .completion x.cluster
  let d := dieOfCluster x.cluster
  let report (kind code : Nat) : Option (State × Option (List Nat)) :=
    if s.ringBusy src then none
    else some (s.ringPut src ⟨code, kind, x.owner, 1023, x.cluster, 0, false, 0, v, 0, 0, []⟩, none)
  if s.lookupOpen none d x.owner v then none
  else match s.access none d x.owner v .atomic with
  | .error k => report 6 k
  | .ok l =>
    let a := l.pa + 0x80
    if ofBytes (s.homeBytes l.key a 4) = 0 then report 5 0
    else (s.rmw { blankWrite none s.nextId d x.owner v a l.key false l.pg with preds := s.predsAt d } 4 (· - 1)).map fun r =>
      (r.1, if ofBytes r.2.1 = 1 then some r.2.2 else none)

/-- Launch a successor block whose DEP has come to 0 (14_execution_model R314, R323). -/
def State.launchBlock (s : State) (x : Team) (v : DWord) : State :=
  match s.readPacket x.owner v x.sys with
  | .ok p => s.addGrid none x.owner v p (pktArgs p)
  | .error (k, p) => s.refuseGrid none x.owner v p k

/-- One step of a team's completion (14_execution_model R321, R323). A launch is an acquire at package scope. -/
def State.completeTeam (s : State) (t : Nat) : State :=
  match s.team? t with
  | none => s
  | some x =>
    match x.step with
    | .running =>
      if x.finished && !((s.set? x.set).map (·.frozen)).getD true then
        (s.dequeueTeam t).setStep t (.released (s.teamWrites t x))
      else s
    | .released l => if l.any s.onWay then s else s.setStep t (.decrementing x.succ)
    | .decrementing [] => s.teamDone t x
    | .decrementing (v :: r) => match s.decrement x v with
      | none => s
      | some (s, none) => s.setStep t (.decrementing r)
      | some (s, some ws) => s.setStep t (.launching v ws r)
    | .launching v ws r =>
      if ws.any s.onWay || s.packetOpen x.owner v then s else (s.launchBlock x v).setStep t (.decrementing r)
    | .complete => s

def execTeamCompletion (team : Nat) (s : State) : Host.Outcome State Fault Refusal := .next (s.completeTeam team)

/-- A team's copies, posts and granted entries are done (15_traps_preemption R343). -/
def State.quietTeam (s : State) (t : Nat) (x : Team) : Bool :=
  (x.tags.all fun l => l.all fun g => g.st != 1) && x.posts.isEmpty &&
    (s.cluster x.cluster).entries.all fun e => e.team != t || e.granted.isNone

/-- The warps of a team core. -/
def Team.warpsAt (x : Team) (ci : Nat) : List Nat := (List.range x.warps.length).filter (· % x.cores.length == ci)

/-- What may be evicted and saved, and comes back on its own, as a team and a number: a warp, a team core, or the cluster-level
state (15_traps_preemption R355). -/
abbrev UnitNo := Nat × Nat

/-- The number of a team core, and of the cluster-level state. -/
def Team.coreNo (x : Team) (ci : Nat) : Nat := x.warps.length + ci
def Team.clusterNo (x : Team) : Nat := x.warps.length + x.cores.length

/-- Is the unit there: neither stopped nor saved, and still holding resources? -/
def Team.here (x : Team) (n : Nat) : Bool :=
  if n < x.warps.length then (x.warps[n]?).any fun w => w.place == .resident && !w.exited
  else if n < x.clusterNo then !(x.saved.getD (n - x.warps.length) true)
  else x.cplace == .resident && x.step == .running

/-- Is the unit saved? -/
def Team.isAway (x : Team) (n : Nat) : Bool :=
  if n < x.warps.length then (x.warps[n]?).any (·.place.isSaved)
  else if n < x.clusterNo then x.saved.getD (n - x.warps.length) false
  else x.cplace.isSaved

/-- Mark a unit saved, or back. -/
def Team.mark (x : Team) (n : Nat) (p : Place) : Team :=
  if n < x.warps.length then { x with warps := lmod x.warps n fun w => { w with place := p } }
  else if n < x.clusterNo then { x with saved := lset x.saved (n - x.warps.length) p.isSaved }
  else { x with cplace := p }

/-- Bytes of a saved replay entry (15_traps_preemption R358). -/
def entSize (e : Entry) : Nat := 32 + 4 * (e.recs.map fun r => 2 + r.vals.length).sum

/-- Bytes of a unit's save (15_traps_preemption R358). -/
def State.saveBytes (s : State) (t : Nat) (x : Team) (n : Nat) : Nat :=
  if n < x.warps.length then
    ((x.warps[n]?).map fun w =>
      128 + 32 * (w.live0.toList.length + w.live1.toList.length + w.parks.length) + 640 +
        ((List.range w.allot).map fun i => 4 * (1 + popcount (vmap (w.vr i)))).sum +
        ((w.queue ++ w.regs.ops.map (entryOf w) ++ ((w.frame.map (·.ents)).getD [])).map entSize).sum +
        (if w.handler.isSome then 12224 else 0)).getD 0
  else if n < x.clusterNo then 4104 * x.tiles + 8 * (x.tags.getD (n - x.warps.length) []).length
  else (x.slots.map fun z => 4 + imageBytes z.fmt).sum + 65536 * pktBits x.pkt 0x08 11 7 + 512 * x.cccs.length +
    64 * (x.ents.length + ((s.cluster x.cluster).entries.filter (·.team == t)).length)

/-- The saves of all teams, each with its team. -/
def State.allSaves (s : State) : List (Team × Save) := s.teams.flatMap fun p => p.2.saves.map fun v => (p.2, v)

/-- Sum a measure over the saves of warps and team cores made on a core. -/
def State.savedOn (s : State) (core : Nat) (f : Team → Save → Nat) : Nat :=
  ((s.allSaves.filter fun p => p.2.at_ == core && decide (p.2.unit < p.1.clusterNo)).map fun p => f p.1 p.2).sum

/-- Sum a measure over the saves of cluster-level state made in a cluster. -/
def State.savedIn (s : State) (cl : Nat) (f : Save → Nat) : Nat :=
  ((s.allSaves.filter fun p => p.2.at_ == cl && p.2.unit == p.1.clusterNo).map fun p => f p.2).sum

/-- Bytes of saves in the snowpack of a core, of its own warps and team cores; and of the cluster-level state of a cluster. -/
def State.snowOn (s : State) (core : Nat) : Nat := s.savedOn core fun _ v => v.snow
def State.snowOf (s : State) (cl : Nat) : Nat := s.savedIn cl (·.snow)

/-- A core's snowpack: 8 ways of 128 KiB (15_traps_preemption R357). -/
def snowCap : Nat := 1048576

/-- Bytes left in the snowpacks of a cluster. -/
def State.snowLeft (s : State) (cl : Nat) : Nat := 4 * snowCap - ((coresOf cl).map s.snowOn).sum - s.snowOf cl

/-- Ways of a core's L1 that are lent now: for its own saves, then the cluster-level saves in the cores' order. -/
def State.lentWays (s : State) (cl k : Nat) : Nat :=
  let own (i : Nat) : Nat := s.snowOn (4 * cl + i)
  let before := ((List.range k).map fun i => snowCap - own i).sum
  cdiv (min snowCap (own k + (s.snowOf cl - before))) 131072

/-- Lend and return ways; an L1 whose ways are lent or returned is invalidated (04_caches_scratchpad R86; 15_traps_preemption
R357). -/
def State.relend (s : State) (cl : Nat) : State :=
  (List.range 4).foldl (fun s k =>
    let n := s.lentWays cl k
    s.modCore (4 * cl + k) fun c => { c with lent := n, l1 := if n = c.lent then c.l1 else [] }) s

/-- The core on which a unit of a team stands. -/
def Team.coreAt (x : Team) (n : Nat) : Nat :=
  if n < x.warps.length then ((x.warps[n]?).map (·.core)).getD 0 else x.cores.getD (n - x.warps.length) 0

/-- The save that a unit would make now: in the snowpacks first, the rest in the save region (15_traps_preemption R357, R360). -/
def State.saveOf (s : State) (t : Nat) (x : Team) (n : Nat) : Save :=
  let size := s.saveBytes t x n
  if n < x.clusterNo then
    let snow := min size (min (snowCap - s.snowOn (x.coreAt n)) (s.snowLeft x.cluster))
    ⟨n, x.coreAt n, ((x.warps[n]?).map (·.wslot)).getD 0, snow, size - snow⟩
  else
    let snow := min size (s.snowLeft x.cluster)
    ⟨n, x.cluster, 0, snow, size - snow⟩

/-- A save finds room: in the snowpacks, or, where the packet allows it, in its part of the save region: a warp save area holds one
save in 96 KiB, a core save area 512 KiB of team cores' saves, a cluster save area 4 MiB (15_traps_preemption R358, R360). -/
def State.saveFits (s : State) (x : Team) (v : Save) : Bool :=
  v.spilt == 0 || (pktBits x.pkt 0x00 10 10 == 1 &&
    if v.unit < x.warps.length then
      decide (v.spilt ≤ 0x18000) && !s.allSaves.any fun p =>
        decide (p.2.unit < p.1.warps.length) && p.2.at_ == v.at_ && p.2.wslot == v.wslot && p.2.spilt != 0
    else if v.unit < x.clusterNo then
      decide (s.savedOn v.at_ (fun y z => if y.warps.length ≤ z.unit then z.spilt else 0) + v.spilt ≤ 0x80000)
    else decide (s.savedIn v.at_ (·.spilt) + v.spilt ≤ 0x400000))

/-- A unit is saved as `v`. -/
def State.saveAs (s : State) (t : Nat) (v : Save) : State :=
  s.modTeam t fun x => { x.mark v.unit .saved with saves := x.saves ++ [v] }

/-- Units saved one after another, to see what their eviction would free; none where a save finds no room. -/
def State.evictUnits (s : State) (l : List UnitNo) : Option State :=
  l.foldl (fun r u => r.bind fun s => match s.team? u.1 with
    | none => some s
    | some x => if s.saveFits x (s.saveOf u.1 x u.2) then some (s.saveAs u.1 (s.saveOf u.1 x u.2)) else none) (some s)

/-- The teams of a cluster that may be victims of a class, with their numbers: a lower current class, not frozen; in the order of
choice: the lowest class, the most recently admitted (15_traps_preemption R354; 17_power R389). -/
def State.lowTeams (s : State) (cl cls : Nat) : List (Nat × Team) :=
  let order (p : Nat × Team) : Nat := ((s.set? p.2.set).map (·.order)).getD 0
  (s.teams.filter fun p => p.2.cluster == cl && decide (p.2.cur < cls) && (s.set? p.2.set).any fun z => !z.frozen && z.phase == .admitted cl).foldr
    (insertBy fun a b => decide (a.2.cur < b.2.cur ∨ (a.2.cur = b.2.cur ∧ order b < order a))) []

/-- The units of a team core that hold something: its warps, highest %wix first, and its tiles and tags. -/
def Team.coreUnits (y : Team) (t ci : Nat) : List UnitNo :=
  (((y.warpsAt ci).reverse ++ [y.coreNo ci]).filter y.here).map fun n => (t, n)

/-- The sets that may be victims whole, each as a choice: every team of theirs may be (15_traps_preemption R355; log entry 82). -/
def State.setUnits (s : State) (cl cls : Nat) : List (List UnitNo) :=
  let low := s.lowTeams cl cls
  let ids := ((low.reverse.map fun p => p.2.set).eraseDups.reverse).filter fun id => (s.set? id).any fun z => z.teams.all fun t => low.any (·.1 == t)
  ids.map fun id => (low.filter fun p => p.2.set == id).flatMap fun p =>
    (p.2.cis.flatMap (p.2.coreUnits p.1)) ++ (if p.2.here p.2.clusterNo then [(p.1, p.2.clusterNo)] else [])

/-- The choices on the cores of a cluster: on a core of level 1 whole warps, on one of level 2 team cores with their warps
(15_traps_preemption R355). `lv`: the levels by the core's place in the cluster. -/
def State.coreChoices (s : State) (cl cls : Nat) (lv : List Nat) : List (List UnitNo) :=
  let level (c : Nat) : Nat := lv.getD (c % 4) 0
  (s.lowTeams cl cls).flatMap fun p =>
    let y := p.2
    (((List.range y.warps.length).reverse.filter fun n => y.here n && level (y.coreAt n) == 1).map fun n => [(p.1, n)]) ++
      ((y.cis.reverse.filter fun ci => y.here (y.coreNo ci) && level (y.coreAt (y.coreNo ci)) == 2).map (y.coreUnits p.1))

/-- What is evicted on each core of a cluster, least first: team cores only where warps do not suffice. -/
def coreLevels : List (List Nat) :=
  let cost (l : List Nat) : Nat := 5 * (l.filter (· == 2)).length + (l.filter (· == 1)).length
  ((List.range 81).map fun k => [k / 27, k / 9 % 3, k / 3 % 3, k % 3]).foldr (insertBy fun a b => decide (cost a < cost b)) []

/-- Take choices in order until the set fits; a choice whose save finds no room is passed over. -/
def State.pick (fits : State → Bool) : State → List (List UnitNo) → List (List UnitNo) → Option (List (List UnitNo))
  | s, got, [] => if fits s then some got else none
  | s, got, g :: r =>
    if fits s then some got
    else match s.evictUnits g with
      | some s1 => State.pick fits s1 (got ++ [g]) r
      | none => State.pick fits s got r

/-- Drop the choices, from the last on, without which the set still fits. -/
def State.prune (fits : State → Bool) (s : State) (l : List (List UnitNo)) : List (List UnitNo) :=
  (List.range l.length).reverse.foldl (fun l i => if (s.evictUnits (l.eraseIdx i).flatten).any fits then l.eraseIdx i else l) l

/-- The victims that choices come to: no more than the set needs (15_traps_preemption R354). -/
def State.victimsOf (fits : State → Bool) (s : State) (l : List (List UnitNo)) : Option (List UnitNo) :=
  (State.pick fits s [] l).map fun l => (s.prune fits l).flatten

/-- The victims of a pre-emption: whole sets for cluster-level state, then what each core needs (15_traps_preemption R354, R355). -/
def State.choose (s : State) (cl cls : Nat) (p : List DWord) : Option (List UnitNo) :=
  (State.victimsOf (·.clusterFit cl p) s (s.setUnits cl cls)).bind fun a =>
  (s.evictUnits a).bind fun s1 =>
    (coreLevels.findSome? fun lv => State.victimsOf (·.coresFit false cl p) s1 (s1.coreChoices cl cls lv)).map (a ++ ·)

/-- A pre-emption of the cluster is in progress: its set is still queued (15_traps_preemption R354). -/
def State.preempting (s : State) (cl : Nat) : Option Preempt :=
  (s.cluster cl).preempt.filter fun p => (s.set? p.set).any fun x => match x.phase with
    | .queued _ => true
    | .admitted _ => false

/-- Admission requests pre-emption for a set that no cluster of the die has room for, on the first cluster in the order of R317
where evicting what teams of a lower class hold makes room (14_execution_model R318; 15_traps_preemption R354). -/
def State.requestPreempt (s : State) (id cl : Nat) : State :=
  match s.set? id with
  | none => s
  | some x =>
    match tget s.grids x.grid, x.phase with
    | some g, .queued d =>
      let busy := (s.preempting cl).any fun p => p.set != id || !p.saves.isEmpty
      let chosen (q : Nat) : Option (List UnitNo) := s.choose (24 * d + q) x.cls g.pkt
      if dieOfCluster cl ≠ d ∨ 192 ≤ cl ∨ busy = true ∨ s.admitNext id x d = false ∨
          ((List.range 24).any fun q => s.setFits (24 * d + q) g.pkt || (s.offeredFirst d x q (cl % 24) && (chosen q).isSome)) = true then s
      else match chosen (cl % 24) with
        | none => s
        | some l => s.modCluster cl fun c => { c with preempt := some ⟨id, l, l⟩ }
    | _, _ => s

def execPreemptionRequest (set cluster : Nat) (s : State) : Host.Outcome State Fault Refusal := .next (s.requestPreempt set cluster)

/-- A warp stops at its boundary: its counted operations are settled, its waiting requests withdrawn (15_traps_preemption
R356). None while an operation that must complete cannot. -/
def State.stopWarp (s : State) (t w : Nat) : Option State :=
  (s.settle t w (((s.warp? t w).map (·.entryRoom)).getD 0)).map fun r =>
    let u : UnitId := .warp t w
    let s := (s.fragsOf u).foldl (fun s f => s.dequeue u f.fid) r.1
    let s := (((s.warp? t w).map (·.walks)).getD []).foldl (fun s k => s.curEnd (s.clusterOf u) .tre k.id) s
    s.modWarp t w fun x => { x.unfence with queue := x.queue ++ r.2, place := .stopped }

/-- The copies that touch the tiles of a team core (15_traps_preemption R356). -/
def Copy.onCore (k : Copy) (t ci : Nat) : Bool := k.at_.1 == t && k.at_.2.1 == ci

/-- Copies that touch a team core's tiles stop at their unit boundary, or go on (15_traps_preemption R356, R361). -/
def State.setDh (s : State) (hit : Copy → Bool) (dh : Bool) : State :=
  let stop (g : Tag) : Tag := if g.st = 1 ∧ g.cp.any hit = true then { g with dh := dh } else g
  let orders := (s.teams.flatMap fun t => t.2.tags.flatMap fun l => l.filterMap fun g => g.cp.filter hit).map (·.order)
  let s := { s with teams := tmapv s.teams fun t => { t with tags := t.tags.map fun (l : List Tag) => l.map stop } }
  let keep (r : CurReq) : Bool := r.who != .cpe || !orders.contains r.tag
  { s with clusters := tmapv s.clusters fun c => { c with reqs := c.reqs.filter keep, held := c.held.filter keep } }

/-- The cluster-level state of a team stops: its contexts' operations and its granted pass first complete, a granted scan keeps its
grant and the lists it has made, and its entries leave the table (15_traps_preemption R332, R356; 12_sparse_rows R274). -/
def State.stopCluster (s : State) (t : Nat) (x : Team) : Option State :=
  let mine := (s.cluster x.cluster).entries.filter (·.team == t)
  if mine.any fun e => e.granted.isSome && e.unit != .nzs then none
  else ((List.range x.cccs.length).foldl (fun (r : Option State) i => r.bind fun s => s.completeRest (.ccc t i) 0) (some s)).map fun s =>
    let s := if mine.any fun e => e.granted.isSome then s.curFree x.cluster .nzs else s
    let s := s.modCluster x.cluster fun c =>
      { c with entries := c.entries.filter (·.team != t), entryQ := c.entryQ.filter (teamOf · != t) }
    s.modTeam t fun y => { y with ents := mine, cplace := .stopped }

/-- A team core stops: a granted pass on its tiles first completes, a granted scan on them stops at a list's end, copies that touch
them at a unit's end (15_traps_preemption R356; 12_sparse_rows R274). -/
def State.stopCore (s : State) (t ci : Nat) (x : Team) : Option State :=
  let hit := (s.cluster x.cluster).entries.filter fun e => e.granted.isSome && e.tiles.any fun y => y.1 == t && y.2.1 == ci
  if hit.any fun e => e.unit != .nzs then none
  else some ((if hit.isEmpty then s else s.curFree x.cluster .nzs).setDh (·.onCore t ci) true)

/-- One victim stops. -/
def State.stopUnit (s : State) (t n : Nat) : Option State :=
  match s.team? t with
  | none => some s
  | some x =>
    if n < x.warps.length then (if x.here n then s.stopWarp t n else some s)
    else if n < x.clusterNo then s.stopCore t (n - x.warps.length) x
    else if x.here n then s.stopCluster t x else some s

/-- The pre-emption of a team's cluster. -/
def State.preemptOf (s : State) (t : Nat) : Option (Nat × Preempt) :=
  (s.team? t).bind fun x => (s.cluster x.cluster).preempt.map fun p => (x.cluster, p)

/-- The event in which one victim stops (15_traps_preemption R356). -/
def State.victimStop (s : State) (t n : Nat) : State :=
  match s.preemptOf t with
  | none => s
  | some (cl, p) =>
    if !p.stops.contains (t, n) then s
    else match s.stopUnit t n with
      | none => s
      | some s => s.modCluster cl fun c => { c with preempt := some { p with stops := p.stops.erase (t, n) } }

def execVictimStop (team wix : Nat) (s : State) : Host.Outcome State Fault Refusal := .next (s.victimStop team wix)

/-- A stopped unit is saved; the first save of a set gives the time by which it resumes (15_traps_preemption R357, R361). -/
def State.saveUnit (s : State) (t n : Nat) : State :=
  match s.preemptOf t, s.team? t with
  | some (cl, p), some x =>
    if !p.saves.contains (t, n) || p.stops.contains (t, n) then s
    else
      let s := match s.set? x.set with
        | none => s
        | some z => if s.hasSaved z then s else
            { s.modSet x.set (fun y => { y with savedAt := s.nextId }) with nextId := s.nextId + 1 }
      let stopped := if n < x.warps.length then (x.warps[n]?).any (·.place == .stopped)
        else decide (n < x.clusterNo) || x.cplace == .stopped
      let s := if stopped then (s.saveAs t (s.saveOf t x n)).relend cl else s
      s.modCluster cl fun c => { c with preempt := some { p with saves := p.saves.erase (t, n) } }
  | _, _ => s

def execSnowpackSave (team wix : Nat) (s : State) : Host.Outcome State Fault Refusal := .next (s.saveUnit team wix)

/-- The resources of a killed set are released, with no decrement; its teams count as complete (15_traps_preemption R343). -/
def State.releaseFrozen (s : State) (id : Nat) : State :=
  match s.set? id with
  | none => s
  | some z =>
    if !z.killed || !z.teams.all fun t => (s.team? t).all (s.quietTeam t) then s
    else
      let left := (z.teams.filter fun t => (s.team? t).any (·.step != .complete)).length
      let s := z.teams.foldl (fun s t => match s.team? t with
        | none => s
        | some x => (s.dequeueTeam t).modCluster x.cluster fun c =>
            { c with entries := c.entries.filter (·.team != t), reqs := c.reqs.filter (·.team != t), held := c.held.filter (·.team != t) }) s
      let places := z.teams.flatMap fun t => ((s.team? t).map fun x => x.saves.map fun v => if v.unit < x.clusterNo then v.at_ / 4 else v.at_).getD []
      places.eraseDups.foldl (fun s cl => s.relend cl) ((s.countDone z.grid left).endSet id z)

def execFrozenSetRelease (set : Nat) (s : State) : Host.Outcome State Fault Refusal := .next (s.releaseFrozen set)

/-- Saved state of a set comes first at a die: the highest class, then the oldest save (15_traps_preemption R361). -/
def State.resumeNext (s : State) (id : Nat) (z : TSet) (die : Nat) : Bool :=
  s.sets.all fun x => x.1 == id || x.2.frozen || !s.hasSaved x.2 || (match x.2.phase with
    | .queued _ => true
    | .admitted cl => dieOfCluster cl != die) || decide (x.2.cls < z.cls) || (x.2.cls == z.cls && decide (z.savedAt < x.2.savedAt))

/-- A set is saved whole (15_traps_preemption R361). -/
def State.savedWhole (s : State) (z : TSet) : Bool :=
  z.teams.all fun t => (s.team? t).all fun x =>
    x.step == .running && x.cplace.isSaved && (x.saved.all id) && x.warps.all fun w => w.exited || w.place.isSaved

/-- Every write that the set has made or could have seen has reached a die (15_traps_preemption R362; 06_consistency R136). -/
def State.caughtUp (s : State) (z : TSet) (old new : Nat) : Bool :=
  s.writes.all fun w => w.tgt != .glob || w.dies.contains new ||
    !(w.dies.contains old || w.src.any fun u => z.teams.contains (teamOf u))

/-- A set saved whole moves to another cluster, if its packet has MIG = 1 (15_traps_preemption R361). -/
def State.migrate (s : State) (id cl : Nat) : Option State :=
  match s.set? id with
  | none => none
  | some z =>
    match z.phase with
    | .queued _ => none
    | .admitted old =>
      if old = cl then some s
      else if cl < 192 ∧ s.savedWhole z = true ∧ (z.teams.all fun t => (s.team? t).all fun x => pktBits x.pkt 0x00 9 9 == 1) = true ∧
          s.caughtUp z (dieOfCluster old) (dieOfCluster cl) = true then
        let s := z.teams.foldl (fun s t => s.modTeam t fun x => { x with cluster := cl }) s
        some (s.modSet id fun x => { x with phase := .admitted cl })
      else none

/-- A fragment that resumes executes its waiting instruction again from the phase it had reached, or enters its clause again
(15_traps_preemption R356). -/
def Frag.again (f : Frag) : Frag := { f with wait := none, hdr := if f.wait = some .flags then none else f.hdr }

/-- The operations withdrawn at the stop are performed from their entries, in order, before the warp issues again; one that must
wait goes on at a later turn, one that traps makes a trap with itself first and the rest after it (15_traps_preemption R341,
R356). -/
def State.performQueue (s : State) (t w : Nat) : Nat → State
  | 0 => s
  | n + 1 =>
    match (s.warp? t w).bind fun x => x.queue.head?.map fun e => (x, e) with
    | none => s
    | some (x, e) =>
      let off (s : State) : State := s.modWarp t w fun y => { y with queue := y.queue.drop 1 }
      match s.performEntry t w e with
      | .retire s => (off s).performQueue t w n
      | .placed s => (off s).performQueue t w n
      | .done s => (off s).performQueue t w n
      | .wait _ _ => s
      | .trap ti s1 =>
        match (x.byFid e.fid).or x.frags.head? with
        | none => off s1
        | some f =>
          let r := if x.handler.isSome then s1.takeTrap t w f.fid none ti []
            else (s1.modWarp t w fun y => { y with queue := [] }).takeTrap t w f.fid none ti ({ e with flt := true } :: x.queue.drop 1)
          r.getD s

/-- A saved warp takes a slot and runs of bricks on its team core (15_traps_preemption R361). -/
def State.resumeWarp (s : State) (t n : Nat) (x : Team) (a : Admit) : Option State :=
  match x.warps[n]? with
  | none => none
  | some w =>
    let core := x.cores.getD (n % x.cores.length) 0
    let slot := a.wslots.headD 0
    let runs := a.bricks.zip (w.bricks.map (·.2))
    let free := (runs.foldl (fun (r : Bool × List (Nat × Nat)) b => (r.1 && runFree r.2 b.1 b.2, b :: r.2)) (true, s.bricksOf core)).1
    if x.saved.getD (n % x.cores.length) true ∨ 64 ≤ slot ∨ (s.slotsOn core).contains slot = true ∨ runs.length ≠ w.bricks.length ∨
        a.bricks.headD 0 % 4 ≠ 0 ∨ free = false then none
    else
      let back (y : Warp) : Warp :=
        { y with place := .resident, wslot := slot, core := core, bricks := runs, buf := [], live0 := y.live0.map (·.again),
                 live1 := y.live1.map (·.again), spill := y.spill.map (·.again), handler := y.handler.map (·.again) }
      some ((s.invalidateFor x.cluster [core]).modWarp t n back)

/-- A saved team core takes tiles and tags on a core of the cluster; its copies go on once no tile that they touch is saved
(15_traps_preemption R361). -/
def State.resumeCore (s : State) (t ci : Nat) (x : Team) (core : Nat) (a : Admit) : Option State :=
  let tn := (x.tags.getD ci []).length
  let base := a.tagBase.headD 0
  let others := (x.cores.zip x.cis).filter fun p => p.2 != ci && !(x.saved.getD p.2 false)
  if !(coresOf x.cluster).contains core || others.any (·.1 == core) || decide (96 < s.tilesOn core + x.tiles) || decide (64 < base + tn) ||
      (s.tagRuns core).any fun r => meets base tn r.1 r.2 then none
  else
    let s := (s.invalidateFor x.cluster [core]).modTeam t fun y =>
      { y with cores := lset y.cores ci core, tagBase := lset y.tagBase ci base, saved := lset y.saved ci false,
               warps := (y.warps.zip (List.range y.warps.length)).map fun w => if w.2 % y.cores.length = ci then { w.1 with core := core } else w.1 }
    some (s.setDh (·.onCore t ci) false)

/-- Saved cluster-level state takes slots, blocks and contexts; its entries return behind those in the table (15 R361). -/
def State.resumeCluster (s : State) (t : Nat) (x : Team) (a : Admit) : Option State :=
  if !s.clusterRoom x.cluster x.pkt || a.ctxs.length != x.cccs.length || !distinct a.ctxs ||
      (a.ctxs.any fun c => decide (8 ≤ c) || (s.ctxsIn x.cluster).contains c) ||
      decide (32 < (s.cluster x.cluster).entries.length + x.ents.length) then none
  else
    let ids := (x.ents.zip (List.range x.ents.length)).map fun p => { p.1 with id := s.nextId + p.2 }
    let s := s.modCluster x.cluster fun c => { c with entries := c.entries ++ ids }
    some { s.modTeam t fun y => { y with cplace := .resident, ents := [], cccs := (y.cccs.zip a.ctxs).map fun p =>
      { p.1 with ctx := p.2, frag := p.1.frag.again } } with nextId := s.nextId + ids.length }

/-- Saved state resumes (15_traps_preemption R361). `cores`: the core of a team core, or any core of the cluster to resume
in. -/
def State.resume (s : State) (t n : Nat) (cores : List Nat) (a : Admit) : Option State :=
  match s.team? t with
  | none => none
  | some x0 =>
    let cl := (cores.head?.map (· / 4)).getD x0.cluster
    match s.set? x0.set with
    | none => none
    | some z =>
      if !x0.isAway n || (s.cluster cl).asleep || (s.preempting cl).any (fun p => (s.set? p.set).any fun q => decide (z.cls ≤ q.cls)) ||
          !(z.frozen || s.resumeNext x0.set z (dieOfCluster x0.cluster)) then none
      else (s.migrate x0.set cl).bind fun s =>
        (a.moves.foldl (fun (r : Option State) m => r.bind (·.moveRuns m)) (some s)).bind fun s =>
          match s.team? t with
          | none => none
          | some x =>
            let r := if n < x.warps.length then s.resumeWarp t n x a
              else if n < x.clusterNo then s.resumeCore t (n - x.warps.length) x (cores.headD 0) a
              else s.resumeCluster t x a
            let old := (x0.saves.filter (·.unit == n)).map fun v => if n < x0.clusterNo then v.at_ / 4 else v.at_
            r.map fun s =>
              let s := (s.modCluster cl fun c => { c with power := .active }).modTeam t fun y => { y with saves := y.saves.filter (·.unit != n) }
              (cl :: old).foldl (fun s k => s.relend k) s

/-- The event of resumption; a plan that does not fit changes nothing. -/
def execResume (team wix : Nat) (cores : List Nat) (plan : Admit) (s : State) : Host.Outcome State Fault Refusal :=
  .next ((s.resume team wix cores plan).getD s)

/-- Where the context area of a warp slot of a core lies (15_traps_preemption R358). -/
def State.ctxArea (s : State) (core slot : Nat) : Nat := s.csrs.ctxbase.toNat + 0x1000000 * core + 0x20000 * slot

/-- The state word of an operand slot (11_matrix_engine R245). -/
def Slot.stateWord (z : Slot) : Byte := BitVec.ofNat 8 (pack [(1, bit z.cl), (3, if z.cl then z.fmt else 0)])

/-- The launch state of a team, bytes 0x060 to 0x0FF of its header (14_execution_model R315; log entry 87). -/
def Team.launchBytes (t : Team) : List Byte :=
  toBytes 8 t.pktVA.toNat ++ toBytes 8 (pack [(8, t.owner.toNat), (2, t.cur)]) ++
    ((List.range 4).flatMap fun k => toBytes 4 (t.coord.getD k 0).toNat) ++
    ((List.range 4).flatMap fun k => toBytes 8 (t.succ.getD k 0).toNat) ++ List.replicate 32 0 ++
    (List.range 16).flatMap fun k => toBytes 4 (t.args.getD k 0).toNat

/-- The architected words of a warp's context area, by word index: the spill stack from its bottom, and the return stacks, oldest
address first (13_control_flow R287, R288; 15_traps_preemption R358; log entry 83). -/
def Warp.ctxWords (w : Warp) (blk : Frag → Bool) : Table Word :=
  let t := (w.spill.reverse.zip (List.range 64)).foldl (fun t e => putWords t (8 * e.2) (fragWords (blk e.1) e.1 1)) []
  (w.frags.filter fun f => decide (f.fid < 74)).foldl (fun t f =>
    putWords t (0x200 + 64 * f.fid) (f.stk.reverse.flatMap fun a => [loWord a, BitVec.ofNat 32 (a.toNat / 2 ^ 32 % 2 ^ 16)])) t

end Sys2Proof.Machine
end

