-- ==== Sys2Proof/Machine/RegForms.lean ====
section
/-!
DEFINITION. The forms that act on the register file itself: `rgn`, scopes and index registers (07_registers R174, R177 to R181).
-/
namespace Sys2Proof.Machine

/-- The registers that `rgn` selects, in ascending order (07_registers R174). -/
def rgnSel (w : RgnW) : List Nat := (lanesOf w.mask).map (w.base.toNat + ·)

/-- Fill selected registers in ascending order while the slot has room; registers that are not selected make room
(07_registers R173, R174). -/
def Warp.fillBuf (w : Warp) (sel : List Nat) : List Nat → Warp
  | [] => w
  | n :: r =>
    if w.buf.contains n || (w.vr n).isEmpty then w.fillBuf sel r
    else
      let buf := evictBuf w sel w.buf.length (w.buf ++ [n])
      if (buf.map w.chunks).sum ≤ 96 then { w with buf := buf }.fillBuf sel r else w

/-- `rgn` (07_registers R174). -/
def rgnRun (w : RgnW) (c : Ctx) (s : State) : Res :=
  match c.cur.unit with
  | .ccc _ _ => .retire s
  | .warp t k => .retire (s.modWarp t k fun x =>
      let sel := rgnSel w
      if sel.isEmpty then x else { x with rsel := sel }.fillBuf sel sel)

/-- `scope.open` (07_registers R177, R179): its request waits in order for a run of bricks. -/
def scopeOpenRun (n8 : BitVec 6) (c : Ctx) (s : State) : Res :=
  match c.cur.unit with
  | .ccc _ _ => .retire s
  | .warp t k =>
    match s.warp? t k with
    | none => .retire s
    | some x =>
      let n := 8 * n8.toNat
      if x.scopes.length = 7 ∨ 256 < x.allot + n then .trap (plainTrap cSCOPE) (s.dequeue c.cur.unit c.fid)
      else
        let asked := (s.core x.core).scopeQ.any fun q => q.1 == t && q.2.1 == k && q.2.2.1 == c.fid
        let s1 := if asked then s else s.modCore x.core fun y => { y with scopeQ := y.scopeQ ++ [(t, k, c.fid, n8.toNat)] }
        match s1.scopeGo x.core t k c.fid, s1.findRun x.core n8.toNat with
        | true, some a =>
          let s2 := s1.modCore x.core fun y => { y with scopeQ := y.scopeQ.drop 1 }
          .retire (s2.modWarp t k fun x =>
            { x.free ((List.range n).map (x.allot + ·)) with scopes := (x.allot, n) :: x.scopes, bricks := x.bricks ++ [(a, n8.toNat)] })
        | _, _ => .wait .scopeOpen s1

/-- `scope.close` (07_registers R178). -/
def scopeCloseRun (c : Ctx) (s : State) : Res :=
  match c.cur.unit with
  | .ccc _ _ => .retire s
  | .warp t k =>
    match s.warp? t k with
    | none => .retire s
    | some x =>
      match x.scopes with
      | [] => .trap (plainTrap cSCOPE) s
      | (b, n) :: r =>
        if !x.scopeFree then .wait .scopeClose s
        else .retire (s.modWarp t k fun x =>
          let l := (List.range n).map (b + ·)
          { x.free l with scopes := r, bricks := x.bricks.dropLast, buf := x.buf.filter fun m => !l.contains m,
                          rsel := x.rsel.filter fun m => !l.contains m })

/-- The operand of `xset` and `xadd`: a byte (07_registers R181). -/
def idxVal (w : IdxW) (e : Env) : Byte := if w.im then w.imm8 else BitVec.ofNat 8 (opScal e.a)

/-- Write an index register. -/
def Regs.setX (r : Regs) (n : Nat) (v : Byte) : Regs := { r with x := tset 0 r.x n v }

/-- `xset` (07_registers R181). -/
def xsetRun (w : IdxW) (e : Env) (c : Ctx) (s : State) : Res :=
  .retire (s.modRegs c.cur.unit fun r => r.setX w.d.toNat (idxVal w e))

/-- `xadd` (07_registers R181). -/
def xaddRun (w : IdxW) (e : Env) (c : Ctx) (s : State) : Res :=
  .retire (s.modRegs c.cur.unit fun r => r.setX w.d.toNat (r.xv w.d.toNat + idxVal w e))

/-- The forms as instructions. -/
def execRgn (w : RgnW) (s : State) : Host.Outcome State Fault Refusal := issue s (.rgn w) (rgnRun w)
def execScopeOpen (n8 : BitVec 6) (s : State) : Host.Outcome State Fault Refusal := issue s (.scopeOpen n8) (scopeOpenRun n8)
def execScopeClose (s : State) : Host.Outcome State Fault Refusal := issue s .scopeClose scopeCloseRun
def execXset (w : IdxW) (s : State) : Host.Outcome State Fault Refusal := issueOps s (.xset w) (xsetRun w)
def execXadd (w : IdxW) (s : State) : Host.Outcome State Fault Refusal := issueOps s (.xadd w) (xaddRun w)

end Sys2Proof.Machine
end

