-- ==== Sys2Proof/Machine/Sync.lean ====
section
/-!
DEFINITION. The rendezvous forms: `rv.init`, `rv.arrive`, `rv.wait`, `rv.arrw` (06_consistency R149 to R157).
-/
namespace Sys2Proof.Machine

/-- `rv.init` (06_consistency R153): an object is set once. -/
def rvInitRun (w : RvW) (e : Env) (c : Ctx) (s : State) : Res :=
  let t := teamOf c.cur.unit
  let o := s.rv t w.pt.toNat
  let n := if w.ci then w.cnt.toNat else opScal e.a
  if n = 0 ∨ 4095 < n ∨ o.init = true then .trap (plainTrap cRANGE) s
  else .retire (s.setRv t w.pt.toNat { o with init := true, exp := n, pend := n })

/-- The issuing fragment's target of a point (06_consistency R151). -/
def State.target (s : State) (c : Ctx) (pt : Nat) : Nat := ((s.frag? c.cur).map fun f => f.tg.getD pt 1).getD 1

/-- Set the issuing fragment's target of a point. -/
def State.setTarget (s : State) (c : Ctx) (pt v : Nat) : State := s.modFrag c.cur fun f => { f with tg := lset f.tg pt v }

/-- An arrival (06_consistency R154): after the release, one atomic step on the object; `k` goes on after it. -/
def arrival (w : RvW) (c : Ctx) (s : State) (k : State → Res) : Res :=
  let u := c.cur.unit
  let o := s.rv (teamOf u) w.pt.toNat
  if o.init = false then .trap (plainTrap cRANGE) s
  else if !s.quiet u (s.seqOf u) then .wait .arrival s
  else match o.arrive (if w.ln then popcount c.lm else 1) with
    | none => .trap (plainTrap cRANGE) s
    | some o' => k ((s.setTarget c w.pt.toNat ((o.gen + 1) % 16)).setRv (teamOf u) w.pt.toNat o')

/-- A wait (06_consistency R155): it passes once the phase of its target is complete, and consumes that phase. -/
def rvWaitRun (w : RvW) (c : Ctx) (s : State) : Res :=
  let u := c.cur.unit
  let o := s.rv (teamOf u) w.pt.toNat
  let t := s.target c w.pt.toNat
  if o.init = false then .trap (plainTrap cRANGE) s
  else if !rvPassed o.gen t then .wait (.rendezvous w.pt.toNat) s
  else if s.acqPending u then .wait .stall s
  else .retire (s.setTarget c w.pt.toNat ((t + 1) % 16))

/-- `rv.arrive` (06_consistency R154). -/
def rvArriveRun (w : RvW) (c : Ctx) (s : State) : Res := arrival w c s .retire

/-- `rv.arrw` (06_consistency R154, R155): once its arrival is applied, it resumes at the wait alone. -/
def rvArrwRun (w : RvW) (c : Ctx) (s : State) : Res :=
  if c.phase = 1 then rvWaitRun w c s
  else arrival w c s fun s => rvWaitRun w c (s.modFrag c.cur fun f => { f with phase := 1 })

/-- The rendezvous forms as instructions. -/
def execRvInit (w : RvW) (s : State) : Host.Outcome State Fault Refusal := issueOps s (.rvInit w) (rvInitRun w)
def execRvArrive (w : RvW) (s : State) : Host.Outcome State Fault Refusal := issue s (.rvArrive w) (rvArriveRun w)
def execRvWait (w : RvW) (s : State) : Host.Outcome State Fault Refusal := issue s (.rvWait w) (rvWaitRun w)
def execRvArrw (w : RvW) (s : State) : Host.Outcome State Fault Refusal := issue s (.rvArrw w) (rvArrwRun w)

end Sys2Proof.Machine
end

