-- ==== Sys2Proof/Machine/Dispatch.lean ====
section
/-!
DEFINITION. The meaning of every instruction and event: one arm per constructor of `Instr`, each a direct call.
-/
namespace Sys2Proof.Machine

def exec (i : Instr) (s : State) : Host.Outcome State Fault Refusal :=
  match i with
  | .nop => Sys2Proof.Machine.execNop s
  | .yield => Sys2Proof.Machine.execYield s
  | .yieldW => Sys2Proof.Machine.execYieldW s
  | .bra w => Sys2Proof.Machine.execBra w s
  | .brx w => Sys2Proof.Machine.execBrx w s
  | .jmpi w => Sys2Proof.Machine.execJmpi w s
  | .call w => Sys2Proof.Machine.execCall w s
  | .calli w => Sys2Proof.Machine.execCalli w s
  | .ret => Sys2Proof.Machine.execRet s
  | .jarm w => Sys2Proof.Machine.execJarm w s
  | .join j => Sys2Proof.Machine.execJoin j s
  | .exit => Sys2Proof.Machine.execExit s
  | .exitSpawn w => Sys2Proof.Machine.execExitSpawn w s
  | .rgn w => Sys2Proof.Machine.execRgn w s
  | .scopeOpen n8 => Sys2Proof.Machine.execScopeOpen n8 s
  | .scopeClose => Sys2Proof.Machine.execScopeClose s
  | .xset w => Sys2Proof.Machine.execXset w s
  | .xadd w => Sys2Proof.Machine.execXadd w s
  | .iadd w => Sys2Proof.Machine.execIadd w s
  | .isub w => Sys2Proof.Machine.execIsub w s
  | .iabs w => Sys2Proof.Machine.execIabs w s
  | .imin w => Sys2Proof.Machine.execImin w s
  | .imax w => Sys2Proof.Machine.execImax w s
  | .imul w => Sys2Proof.Machine.execImul w s
  | .imulhi w => Sys2Proof.Machine.execImulhi w s
  | .imad w => Sys2Proof.Machine.execImad w s
  | .and w => Sys2Proof.Machine.execAnd w s
  | .or w => Sys2Proof.Machine.execOr w s
  | .xor w => Sys2Proof.Machine.execXor w s
  | .not w => Sys2Proof.Machine.execNot w s
  | .shl w => Sys2Proof.Machine.execShl w s
  | .shr w => Sys2Proof.Machine.execShr w s
  | .sar w => Sys2Proof.Machine.execSar w s
  | .popc w => Sys2Proof.Machine.execPopc w s
  | .clz w => Sys2Proof.Machine.execClz w s
  | .brev w => Sys2Proof.Machine.execBrev w s
  | .bfe w => Sys2Proof.Machine.execBfe w s
  | .bfi w => Sys2Proof.Machine.execBfi w s
  | .lea w => Sys2Proof.Machine.execLea w s
  | .sel w => Sys2Proof.Machine.execSel w s
  | .icmp cc w => Sys2Proof.Machine.execIcmp cc w s
  | .mov w => Sys2Proof.Machine.execMov w s
  | .movi w => Sys2Proof.Machine.execMovi w s
  | .movh w => Sys2Proof.Machine.execMovh w s
  | .cvt w => Sys2Proof.Machine.execCvt w s
  | .fadd w => Sys2Proof.Machine.execFadd w s
  | .fsub w => Sys2Proof.Machine.execFsub w s
  | .fmul w => Sys2Proof.Machine.execFmul w s
  | .ffma w => Sys2Proof.Machine.execFfma w s
  | .fmin w => Sys2Proof.Machine.execFmin w s
  | .fmax w => Sys2Proof.Machine.execFmax w s
  | .fcmp cc w => Sys2Proof.Machine.execFcmp cc w s
  | .fclass w => Sys2Proof.Machine.execFclass w s
  | .frnd w => Sys2Proof.Machine.execFrnd w s
  | .fcvt w => Sys2Proof.Machine.execFcvt w s
  | .frcp w => Sys2Proof.Machine.execFrcp w s
  | .frsq w => Sys2Proof.Machine.execFrsq w s
  | .fsqrt w => Sys2Proof.Machine.execFsqrt w s
  | .fexp2 w => Sys2Proof.Machine.execFexp2 w s
  | .flog2 w => Sys2Proof.Machine.execFlog2 w s
  | .fsin w => Sys2Proof.Machine.execFsin w s
  | .fcos w => Sys2Proof.Machine.execFcos w s
  | .kdot4 w => Sys2Proof.Machine.execKdot4 w s
  | .kdot8 w => Sys2Proof.Machine.execKdot8 w s
  | .kscale w => Sys2Proof.Machine.execKscale w s
  | .kpack w => Sys2Proof.Machine.execKpack w s
  | .kunpack w => Sys2Proof.Machine.execKunpack w s
  | .occGet w => Sys2Proof.Machine.execOccGet w s
  | .occSet w => Sys2Proof.Machine.execOccSet w s
  | .occAnd w => Sys2Proof.Machine.execOccAnd w s
  | .occFill w => Sys2Proof.Machine.execOccFill w s
  | .occPack w => Sys2Proof.Machine.execOccPack w s
  | .occUnpack w => Sys2Proof.Machine.execOccUnpack w s
  | .occCnt w => Sys2Proof.Machine.execOccCnt w s
  | .shflIdx w => Sys2Proof.Machine.execShflIdx w s
  | .shflUp w => Sys2Proof.Machine.execShflUp w s
  | .shflDn w => Sys2Proof.Machine.execShflDn w s
  | .shflXor w => Sys2Proof.Machine.execShflXor w s
  | .voteAny w => Sys2Proof.Machine.execVoteAny w s
  | .voteAll w => Sys2Proof.Machine.execVoteAll w s
  | .voteBal w => Sys2Proof.Machine.execVoteBal w s
  | .scan op w => Sys2Proof.Machine.execScan op w s
  | .red op w => Sys2Proof.Machine.execRed op w s
  | .rebal w => Sys2Proof.Machine.execRebal w s
  | .ldSpT w => Sys2Proof.Machine.execLdSpT w s
  | .sAdd w => Sys2Proof.Machine.execSAdd w s
  | .sSub w => Sys2Proof.Machine.execSSub w s
  | .sMul w => Sys2Proof.Machine.execSMul w s
  | .sMin w => Sys2Proof.Machine.execSMin w s
  | .sMax w => Sys2Proof.Machine.execSMax w s
  | .sAnd w => Sys2Proof.Machine.execSAnd w s
  | .sOr w => Sys2Proof.Machine.execSOr w s
  | .sXor w => Sys2Proof.Machine.execSXor w s
  | .sNot w => Sys2Proof.Machine.execSNot w s
  | .sShl w => Sys2Proof.Machine.execSShl w s
  | .sShr w => Sys2Proof.Machine.execSShr w s
  | .sSar w => Sys2Proof.Machine.execSSar w s
  | .sCmp cc w => Sys2Proof.Machine.execSCmp cc w s
  | .sMov w => Sys2Proof.Machine.execSMov w s
  | .sLd w => Sys2Proof.Machine.execSLd w s
  | .sRdl w => Sys2Proof.Machine.execSRdl w s
  | .vBcast w => Sys2Proof.Machine.execVBcast w s
  | .ldG w => Sys2Proof.Machine.execLdG w s
  | .stG w => Sys2Proof.Machine.execStG w s
  | .ldC w => Sys2Proof.Machine.execLdC w s
  | .ldSp w => Sys2Proof.Machine.execLdSp w s
  | .stSp w => Sys2Proof.Machine.execStSp w s
  | .atomG op w => Sys2Proof.Machine.execAtomG op w s
  | .atomSp op w => Sys2Proof.Machine.execAtomSp op w s
  | .fence sc => Sys2Proof.Machine.execFence sc s
  | .gfLd w => Sys2Proof.Machine.execGfLd w s
  | .cpG2s w => Sys2Proof.Machine.execCpG2s w s
  | .cpS2g w => Sys2Proof.Machine.execCpS2g w s
  | .cpS2o w => Sys2Proof.Machine.execCpS2o w s
  | .cpA2s w => Sys2Proof.Machine.execCpA2s w s
  | .cpHalt tag => Sys2Proof.Machine.execCpHalt tag s
  | .cpGo tag => Sys2Proof.Machine.execCpGo tag s
  | .tagWany w => Sys2Proof.Machine.execTagWany w s
  | .tagWall w => Sys2Proof.Machine.execTagWall w s
  | .tagFfr w => Sys2Proof.Machine.execTagFfr w s
  | .tagClr w => Sys2Proof.Machine.execTagClr w s
  | .tagRd w => Sys2Proof.Machine.execTagRd w s
  | .ownGive w => Sys2Proof.Machine.execOwnGive w s
  | .ownTest w => Sys2Proof.Machine.execOwnTest w s
  | .opClaim w => Sys2Proof.Machine.execOpClaim w s
  | .opRel k => Sys2Proof.Machine.execOpRel k s
  | .opSt w => Sys2Proof.Machine.execOpSt w s
  | .mxFeed w => Sys2Proof.Machine.execMxFeed w s
  | .acLd w => Sys2Proof.Machine.execAcLd w s
  | .acClr w => Sys2Proof.Machine.execAcClr w s
  | .mxCfg w => Sys2Proof.Machine.execMxCfg w s
  | .mxIp w => Sys2Proof.Machine.execMxIp w s
  | .mxOp w => Sys2Proof.Machine.execMxOp w s
  | .mxRw w => Sys2Proof.Machine.execMxRw w s
  | .mxNzs w => Sys2Proof.Machine.execMxNzs w s
  | .twNlt w => Sys2Proof.Machine.execTwNlt w s
  | .twRun w => Sys2Proof.Machine.execTwRun w s
  | .twRet w => Sys2Proof.Machine.execTwRet w s
  | .twCut w => Sys2Proof.Machine.execTwCut w s
  | .twResume w => Sys2Proof.Machine.execTwResume w s
  | .rvInit w => Sys2Proof.Machine.execRvInit w s
  | .rvArrive w => Sys2Proof.Machine.execRvArrive w s
  | .rvWait w => Sys2Proof.Machine.execRvWait w s
  | .rvArrw w => Sys2Proof.Machine.execRvArrw w s
  | .mbxPost w => Sys2Proof.Machine.execMbxPost w s
  | .perfReq w => Sys2Proof.Machine.execPerfReq w s
  | .trap code => Sys2Proof.Machine.execTrap code s
  | .rte => Sys2Proof.Machine.execRte s
  | .rqRd w => Sys2Proof.Machine.execRqRd w s
  | .rqWr w => Sys2Proof.Machine.execRqWr w s
  | .trapDrop w => Sys2Proof.Machine.execTrapDrop w s
  | .csrRd w => Sys2Proof.Machine.execCsrRd w s
  | .csrWr w => Sys2Proof.Machine.execCsrWr w s
  | .ringPost w => Sys2Proof.Machine.execRingPost w s
  | .halt => Sys2Proof.Machine.execHalt s
  | .pairWord ch s1 s2 => Sys2Proof.Machine.execPairWord ch s1 s2 s
  | .tinvcWrite v => Sys2Proof.Machine.execTinvcWrite v s
  | .invalidationRetire => Sys2Proof.Machine.execInvalidationRetire s
  | .tkillWrite teamid => Sys2Proof.Machine.execTkillWrite teamid s
  | .frozenSetRelease set => Sys2Proof.Machine.execFrozenSetRelease set s
  | .rriWrite v => Sys2Proof.Machine.execRriWrite v s
  | .pendingSlotWrite src => Sys2Proof.Machine.execPendingSlotWrite src s
  | .countedCompletion u seq fresh => Sys2Proof.Machine.execCountedCompletion u seq fresh s
  | .warpContextRelease team wix => Sys2Proof.Machine.execWarpContextRelease team wix s
  | .translationWalk node owner va lvl keep => Sys2Proof.Machine.execTranslationWalk node owner va lvl keep s
  | .writeApplication id die => Sys2Proof.Machine.execWriteApplication id die s
  | .replLock id die => Sys2Proof.Machine.execReplLock id die s
  | .replUpdate id die => Sys2Proof.Machine.execReplUpdate id die s
  | .copyUnit team ci tag => Sys2Proof.Machine.execCopyUnit team ci tag s
  | .copyCompletion team ci tag => Sys2Proof.Machine.execCopyCompletion team ci tag s
  | .entryGrant cluster => Sys2Proof.Machine.execEntryGrant cluster s
  | .deferredTrap team idx => Sys2Proof.Machine.execDeferredTrap team idx s
  | .passCompletion cluster => Sys2Proof.Machine.execPassCompletion cluster s
  | .scanCompletion cluster => Sys2Proof.Machine.execScanCompletion cluster s
  | .joinRelease team wix => Sys2Proof.Machine.execJoinRelease team wix s
  | .fragmentSwap team wix => Sys2Proof.Machine.execFragmentSwap team wix s
  | .deadlock set => Sys2Proof.Machine.execDeadlock set s
  | .softError site => Sys2Proof.Machine.execSoftError site s
  | .moduleReset => Sys2Proof.Machine.execModuleReset s
  | .hostMailboxMessage r va args => Sys2Proof.Machine.execHostMailboxMessage r va args s
  | .hostPut r va bytes => Sys2Proof.Machine.execHostPut r va bytes s
  | .hostGet r va len => Sys2Proof.Machine.execHostGet r va len s
  | .managementWrite r num v => Sys2Proof.Machine.execManagementWrite r num v s
  | .managementRead r num => Sys2Proof.Machine.execManagementRead r num s
  | .featlckWrite v => Sys2Proof.Machine.execFeatlckWrite v s
  | .keyLoad v => Sys2Proof.Machine.execKeyLoad v s
  | .keyInstall => Sys2Proof.Machine.execKeyInstall s
  | .attreqWrite nonce => Sys2Proof.Machine.execAttreqWrite nonce s
  | .firmwareImage img => Sys2Proof.Machine.execFirmwareImage img s
  | .placement die => Sys2Proof.Machine.execPlacement die s
  | .admission set cluster plan => Sys2Proof.Machine.execAdmission set cluster plan s
  | .teamCompletion team => Sys2Proof.Machine.execTeamCompletion team s
  | .preemptionRequest set cluster => Sys2Proof.Machine.execPreemptionRequest set cluster s
  | .victimStop team wix => Sys2Proof.Machine.execVictimStop team wix s
  | .snowpackSave team wix => Sys2Proof.Machine.execSnowpackSave team wix s
  | .resume team wix cores plan => Sys2Proof.Machine.execResume team wix cores plan s
  | .traversalEvent team wix lane => Sys2Proof.Machine.execTraversalEvent team wix lane s
  | .settle team wix lane => Sys2Proof.Machine.execSettle team wix lane s
  | .currentGrant cluster => Sys2Proof.Machine.execCurrentGrant cluster s
  | .reservationTimeout cluster => Sys2Proof.Machine.execReservationTimeout cluster s
  | .budgetPeriod die => Sys2Proof.Machine.execBudgetPeriod die s
  | .clockRatioChange cluster => Sys2Proof.Machine.execClockRatioChange cluster s
  | .powerGatingBegin cluster => Sys2Proof.Machine.execPowerGatingBegin cluster s
  | .powerGatingCommit cluster => Sys2Proof.Machine.execPowerGatingCommit cluster s
  | .clusterWake cluster => Sys2Proof.Machine.execClusterWake cluster s

end Sys2Proof.Machine
end

