-- ==== Sys2Proof/Machine/Sched.lean ====
section
/-!
DEFINITION. Turns: which warp and fragment a core issues from, which context a CCC issues from, the entry into a clause, the
fetch of a word and its execution (02_instruction_words R18 to R32; 11_matrix_engine R244; 13_control_flow R297 to R304;
14_execution_model R320).
-/
namespace Sys2Proof.Machine

/-- A fragment stalls: it cannot issue its word now. -/
def State.hold (s : State) (cur : Cur) : State := s.modFrag cur fun f => { f with wait := some .stall }

/-- A trap at a boundary, before any word is read: a fetch fault or an illegal header or word (02_instruction_words R23, R52);
`top`: with slot index 0 (R32). While it cannot be taken the fragment keeps its place. -/
def State.boundaryTrap (s0 : State) (cur : Cur) (ti : TrapInfo) (top : Bool) : State :=
  let s := if top then s0.modFrag cur fun f => { f with slot := 0 } else s0
  match s.frag? cur with
  | none => s
  | some f => match cur.unit with
    | .warp t w => (s.takeTrap t w f.fid none ti []).getD (s0.hold cur)
    | .ccc t i => s.cccTrap t i 2 ti.tfmap ⟨ti.code, false, false, f.slot, ti.aux, ((ti.lanes.head?).map (·.2.2)).getD 0, f.cpc⟩

/-- Enter a clause: its header is fetched, checked and decoded, and at slot 0 its WAIT is waited for; true when the fragment's
word may be fetched (02_instruction_words R23, R26, R32, R52). -/
def State.enter (s : State) (cur : Cur) : State × Bool :=
  match s.frag? cur with
  | none => (s, false)
  | some f =>
    if f.hdr.isSome then (s, true)
    else
      let u := cur.unit
      if s.lookups u [f.cpc] then (s.hold cur, false)
      else match s.fetch u f.cpc with
      | .error k => (s.boundaryTrap cur (oneTrap k f.cpc) true, false)
      | .ok w => match decodeHeader w with
        | none => (s.boundaryTrap cur (plainTrap cILLENC) true, false)
        | some h =>
          if h.len ≤ f.slot then (s.boundaryTrap cur (plainTrap cILLENC) true, false)
          else
            let waits := f.slot == 0 && !(s.regs? u).all fun r => r.flagsClear h.wait
            (s.modFrag cur fun x => { x with hdr := some h, wait := if waits then some .flags else x.wait }, !waits)

/-- The address of a fragment's next word (02_instruction_words R18). -/
def Frag.wordAt (f : Frag) : DWord := f.cpc + BitVec.ofNat 64 (8 * (f.slot + 1))

/-- Fetch the fragment's next word, decode it and, once its first macro-operations have their reservations, execute it
(02_instruction_words R18, R23, R52; 17_power R385). -/
def State.issueWord (s : State) (cur : Cur) : Host.Outcome State Fault Refusal :=
  match s.frag? cur with
  | none => .next s
  | some f =>
    if s.lookups cur.unit [f.wordAt] then .next (s.hold cur)
    else match s.fetch cur.unit f.wordAt with
    | .error k => .next (s.boundaryTrap cur (oneTrap k f.wordAt) false)
    | .ok w => match decodeWord w with
      | .error _ => .next (s.boundaryTrap cur (plainTrap cILLENC) false)
      | .ok i =>
        let s : State := { s with cur := some cur }
        if !s.vectorGo i then .next ((s.vectorAsk i).hold cur)
        else match exec i s with
          | .next s' => .next (s.vectorSpend cur i s')
          | .fault k => .fault k
          | .refused k => .refused k

/-- The yield hint of a clause, after its last word has issued (02_instruction_words R22). -/
def State.hint (s : State) (t w : Nat) (h : Header) : State :=
  s.modWarp t w fun x =>
    if h.yh = 1 then { x with other := true }
    else if h.yh = 2 then { x with aside := max x.aside 1 }
    else if h.yh = 3 then { x with aside := 16 }
    else x

/-- The hint of the clause that a fragment has left by its last word. `f`: the fragment before the word. -/
def State.hintAfter (s : State) (cur : Cur) (f : Frag) : State :=
  match cur.unit, f.hdr with
  | .warp t w, some h =>
    let left := match (s.warp? t w).bind (·.byFid f.fid) with
      | none => true
      | some g => g.hdr.isNone
    if f.slot + 1 = h.len ∧ left = true then s.hint t w h else s
  | _, _ => s

/-- Issue from a fragment: enter its clause, then its word, then the clause's hint. -/
def State.runFrag (s : State) (cur : Cur) : Host.Outcome State Fault Refusal :=
  let r := s.enter cur
  if !r.2 then .next r.1
  else match r.1.frag? cur with
    | none => .next r.1
    | some f => match r.1.issueWord cur with
      | .next s' => .next (s'.hintAfter cur f)
      | .fault k => .fault k
      | .refused k => .refused k

/-- The set of a team may run: it is not frozen, and its team has not completed (15_traps_preemption R343). -/
def State.mayRun (s : State) (t : Nat) : Bool :=
  (s.team? t).any fun x => x.step == .running && (s.set? x.set).any (!·.frozen)

/-- Where a fragment of a warp stands. -/
def Warp.pickOf (w : Warp) (fid : Nat) : Pick :=
  if w.handler.any (·.fid == fid) then .live .handler
  else if w.live0.any (·.fid == fid) then .live .live0
  else if w.live1.any (·.fid == fid) then .live .live1
  else .spilled (w.spill.findIdx (·.fid == fid))

/-- The chosen fragment of a warp in a live slot (13_control_flow R304). -/
def State.takePick (s : State) (t w : Nat) (p : Pick) : State × Sel :=
  match p with
  | .live k => (s, k)
  | .spilled i => match s.warp? t w with
    | none => (s, .live0)
    | some x => (s.modWarp t w fun _ => (x.bringIn i).1, (x.bringIn i).2)

/-- A turn given to a stalled fragment would come to something: its word issues or traps, or gets further. -/
def State.stirs (s : State) (t w : Nat) (f : Frag) : Bool :=
  match s.warp? t w with
  | none => false
  | some x =>
    let r := s.takePick t w (x.pickOf f.fid)
    match r.1.runFrag ⟨.warp t w, r.2⟩ with
    | .next s' => s'.warp? t w != r.1.warp? t w || s'.clusters != r.1.clusters
    | _ => true

/-- The fragment has not issued for a reason that does not block it. -/
def Frag.held (f : Frag) : Bool := f.wait.any fun k => match k with
  | .stall | .fence _ => true
  | _ => false

/-- A fragment can issue: it is ready (13_control_flow R286), and does not go on stalling (log entry 78). -/
def State.readyFrag (s : State) (t w : Nat) (f : Frag) : Bool := !s.blocked (.warp t w) f && (!f.held || s.stirs t w f)

/-- The warps of a core whose code may run, as team and warp. -/
def State.warpsOn (s : State) (core : Nat) : List (Nat × Nat) :=
  s.teams.flatMap fun p => if !s.mayRun p.1 then [] else
    (List.range p.2.warps.length).filterMap fun w =>
      if (p.2.warps[w]?).any fun x => x.core == core && x.place == .resident && !x.exited then some (p.1, w) else none

/-- Live fragments at one header fuse; in a handler nothing does (13_control_flow R299; 15_traps_preemption R328). -/
def State.fuseNow (s : State) (t w : Nat) : State :=
  if (s.warp? t w).any fun x => x.handler.isSome then s else s.fuse t w

/-- What a core does to each of its warps before it chooses: the operations withdrawn at a stop, the release rule, fusion
(13_control_flow R297, R299; 15_traps_preemption R356, R361). -/
def State.openTurn (s : State) (core : Nat) : State :=
  (s.warpsOn core).foldl (fun s p => ((s.performQueue p.1 p.2 10).modWarp p.1 p.2 (·.releasePark)).fuseNow p.1 p.2) s

/-- A choice has been made: the warps that stand aside do so for one slot less (02_instruction_words R22). -/
def State.asideDown (s : State) (core : Nat) : State :=
  (s.warpsOn core).foldl (fun s p => s.modWarp p.1 p.2 fun x => { x with aside := x.aside - 1 }) s

/-- A ready warp of a core, with the fragment it issues from. -/
structure Cand where
  t    : Nat
  w    : Nat
  pick : Pick
  slot : Nat
  cls  : Nat
  wage : Nat
  away : Bool
  deriving DecidableEq, Repr

/-- The ready warps of a core: none that still has withdrawn operations to perform; `away` warps have been asked to stand aside
(14_execution_model R320; 15_traps_preemption R356). -/
def State.readyWarps (s : State) (core : Nat) : List Cand :=
  (s.warpsOn core).filterMap fun p => (s.warp? p.1 p.2).bind fun x => if !x.queue.isEmpty then none else
    (x.choose (s.readyFrag p.1 p.2)).map fun k => ⟨p.1, p.2, k, x.wslot, s.curOf p.1, x.wage, x.aside != 0⟩

/-- The first element that no other is better than. -/
def bestOf {α : Type} (better : α → α → Bool) (l : List α) : Option α :=
  l.foldl (fun r x => match r with
    | none => some x
    | some b => if better x b then some x else some b) none

/-- The choice among ready warps (14_execution_model R320). -/
def chooseWarp (last : Nat) (l : List Cand) : Option Cand :=
  let old := l.filter fun c => decide (32 ≤ c.wage)
  if !old.isEmpty then bestOf (fun a b => decide (b.wage < a.wage ∨ (a.wage = b.wage ∧ a.slot < b.slot))) old
  else
    let near := l.filter (!·.away)
    let l := if near.isEmpty then l else near
    let dist (c : Cand) : Nat := (c.slot + 127 - last) % 64
    bestOf (fun a b => decide (b.cls < a.cls ∨ (a.cls = b.cls ∧ dist a < dist b))) l

/-- Ages of the warps of a core after its choice (14_execution_model R320). -/
def State.ageWarps (s : State) (l : List Cand) (c : Cand) : State :=
  l.foldl (fun s x => s.modWarp x.t x.w fun y => { y with wage := if x.slot = c.slot then 0 else y.wage + 1 }) s

/-- A slice cycle of a core (14_execution_model R320). -/
def State.coreTurn (s : State) (core : Nat) : Host.Outcome State Fault Refusal :=
  let s1 := s.openTurn core
  let l := s1.readyWarps core
  let s2 := s1.asideDown core
  match chooseWarp (s1.core core).last l with
  | none => .next s2
  | some c =>
    let r := (s2.ageWarps l c).takePick c.t c.w c.pick
    r.1.runFrag ⟨.warp c.t c.w, r.2⟩

/-- The contexts of a cluster that are ready, or have a grant fault to take, as team, index and context number
(11_matrix_engine R244, R268). -/
def State.readyCtxs (s : State) (cl : Nat) : List (Nat × Nat × Nat) :=
  s.teams.flatMap fun p => if p.2.cluster != cl || !s.mayRun p.1 || p.2.cplace != .resident then [] else
    (p.2.cccs.zip (List.range p.2.cccs.length)).filterMap fun x =>
      if x.1.exited || (s.blocked (.ccc p.1 x.2) x.1.frag && x.1.grantf.isNone) then none else some (p.1, x.2, x.1.ctx)

/-- A slice cycle of a cluster's CCC: the ready contexts in turn, in ascending context number (11_matrix_engine R244). -/
def State.cccTurn (s : State) (cl : Nat) : Host.Outcome State Fault Refusal :=
  let dist (x : Nat × Nat × Nat) : Nat := (x.2.2 + 8 - (s.cluster cl).turn % 8) % 8
  match bestOf (fun a b => decide (dist a < dist b)) (s.readyCtxs cl) with
  | none => .next s
  | some (t, i, k) =>
    let s1 := s.modCluster cl fun c => { c with turn := (k + 1) % 8 }
    if ((s1.ccc? t i).bind (·.grantf)).isSome then .next (s1.takeGrantFault t i) else s1.runFrag ⟨.ccc t i, .ctx⟩

/-- Cycle counts go on by `n`; entries that have become eligible have asked for current (07_registers R167; 17_power R384, R391). -/
def State.tick (s : State) (cores clusters : List Nat) (n : Nat) : State :=
  let s := clusters.foldl (fun s k => s.entryAsks k) s
  let s := cores.foldl (fun s c => s.modCore c fun x => { x with clk := x.clk + n }) s
  clusters.foldl (fun s k =>
    let busy := s.clusterBusy k
    s.modCluster k fun x => { x with clk := x.clk + n, busyAt := if busy then x.clk + n else x.busyAt }) s

/-- A cache lets a line go (04_caches_scratchpad R83, R85; 12_sparse_rows R283). -/
def State.evict (s : State) (cache : CacheKind) (node key : Nat) : State :=
  match cache with
  | .l1 => s.modCore node fun c => { c with l1 := tdel c.l1 key }
  | .l0 => s.modCore node fun c => { c with l0 := tdel c.l0 key }
  | .gather => s.modCluster node fun c => { c with gcache := tdel c.gcache key }
  | .code => s.modCluster node fun c => { c with icache := tdel c.icache key }

/-- An instruction cache of `room` lines takes one. -/
def codeFill (room : Nat) (t : Table (List Byte)) (k : Nat) (l : List Byte) : Table (List Byte) :=
  let t := cacheDrop t k
  if t.length < room then tput t k l else t

/-- An instruction cache takes the line of code at an address of a unit's space: the cluster's, 128 KiB, from the L2; the core's
L0, 32 KiB, from the cluster's or the L2 (00_scope R2; 13_control_flow R302). -/
def State.prefetch (s : State) (u : UnitId) (va : DWord) (l0 : Bool) : State :=
  if s.lookups u [va] then s
  else match s.access (s.coreOf u) (s.dieOf u) (s.ownerOf u) va .exec with
  | .error _ => s
  | .ok l =>
    let d := s.dieOf u
    let cl := s.clusterOf u
    let k := l.codeKey d
    let below := s.dieBytes d l.key (l.at_ d / 128 * 128) 128
    if l0 then match s.coreOf u with
      | some c => s.modCore c fun x => { x with l0 := codeFill 256 x.l0 k ((tget (s.cluster cl).icache k).getD below) }
      | none => s
    else s.modCluster cl fun x => { x with icache := codeFill 1024 x.icache k below }

/-- Take a turn. -/
def State.turn (s : State) : Turn → Host.Outcome State Fault Refusal
  | .core c => s.coreTurn c
  | .ccc k => s.cccTurn k
  | .event i => if isEvent i then exec i s else .next s
  | .perform u seq lane fresh => .next ((s.performLane u seq lane fresh).getD s)
  | .tick cores clusters n => .next (s.tick cores clusters n)
  | .evict cache node key => .next (s.evict cache node key)
  | .prefetch u va l0 => .next (s.prefetch u (va.setWidth 64) l0)

/-- The turn to take: the first of the agenda, else one that nothing in the model decides (log entry 4). -/
def State.nextTurn (s : State) : Turn × State :=
  match s.agenda with
  | t :: r => (t, { s with agenda := r })
  | [] => (Config.turn s.fresh, { s with fresh := s.fresh + 1 })

end Sys2Proof.Machine
end

