-- ==== Sys2Proof/Machine/Step.lean ====
section
/-!
DEFINITION. One step of the module: one turn; and the placing of one instruction where the next step fetches it.
-/
namespace Sys2Proof.Machine

/-- One step: the next turn is taken. -/
def step (s : State) : Host.Outcome State Fault Refusal := s.nextTurn.2.turn s.nextTurn.1

/-- The packet of the team that runs a placed instruction: owner 1, 32 threads, one team core, one CCC context, 256 registers,
every tile, tag, slot and block, the system attribute. -/
def fetchPacket : List DWord :=
  [BitVec.ofNat 64 (1 + 2 ^ 8 + 2 ^ 18 + 32 * 2 ^ 32 + 32 * 2 ^ 44 + 96 * 2 ^ 50 + 64 * 2 ^ 57), BitVec.ofNat 64 (64 + 16 * 2 ^ 7)] ++
    List.replicate 30 0

/-- The grid, the set and the team that run a placed instruction. -/
def fetchGrid : Grid := ⟨none, 1, true, 0, fetchPacket, [], 0, 1, 0, none⟩
def fetchSet : TSet := ⟨1, 0, 0, 0, 0, .admitted 0, 0, [1], false, false, 0, none⟩
def fetchTeam : Team :=
  Team.start fetchGrid fetchSet 1 0 0 ⟨1, [0], [0], [0], [0], [0], []⟩

/-- An empty trap frame, in which a handler form runs. -/
def fetchFrame : Frame :=
  ⟨cSWTRAP, false, false, true, 15, fullMap, 0, 0, 0, 0, 0, 0, 0, List.replicate 8 0, [], [], [], [], 0⟩

/-- The team with its warp in the trap handler. -/
def handlerTeam : Team :=
  { fetchTeam with warps := lmod fetchTeam.warps 0 fun w =>
      { w with handler := some { Frag.start fullMap 0 74 with kind := .handler }, frame := some fetchFrame } }

/-- The header of a clause of one word that names f0 and f1. -/
def fetchHeader : Header := ⟨1, 0, 0, 1, true, 0⟩

/-- Place an instruction as the one word of a clause at address 0 of owner 1, mapped readable, writable and executable by the
translation caches of die 0, and give the next turn to a unit that stands there: a warp; a handler for the handler's forms;
a CCC context for the contexts' forms. Every feature is accepted, and the reservations that a vector form needs are granted. -/
def State.withFetchWord (s : State) (nbits w : Nat) : State :=
  let word := w % 2 ^ nbits
  let i := decodeTableWord nbits w
  let bytes := toBytes 8 (encodeHeader fetchHeader).toNat ++ toBytes 8 word
  let team := if i.any handlerOnly then handlerTeam else fetchTeam
  let granted := [Requester.pipe 0 0, .pipe 0 1, .xbar 0].map fun q => (⟨q, 1, q.quarters 8, 0, 0, 16, 0⟩ : CurReq)
  let placed : State := { s with
    mem := putCells s.mem 0 bytes
    keys := tput s.keys 0 ⟨1, 0, 0⟩
    flight := []
    pend := []
    tlbs := [(768, [⟨1, 3, 0, BitVec.ofNat 64 (31 + 2 ^ 42), 0⟩]), (776, [⟨1, 4, 0, 1, 0⟩])]
    grids := [(1, fetchGrid)]
    sets := [(1, fetchSet)]
    teams := [(1, team)]
    mgmt := { s.mgmt with regs := tput s.mgmt.regs 0x504 0xFFF }
    nextId := max s.nextId 2
    agenda := (if i.any cccOnly then Turn.ccc 0 else Turn.core 0) :: s.agenda }
  (placed.modCluster 0 fun c => { c with held := granted, icache := [] }).modCore 0 fun x => { x with l0 := [] }
where
  /-- Put bytes at successive addresses. -/
  putCells (m : List Host.Cell) (a : Nat) : List Byte → List Host.Cell
    | [] => m
    | b :: r => putCells (tput m a b) (a + 1) r

end Sys2Proof.Machine
end

