-- ==== Sys2Proof/Exact.lean ====
section
/-!
DEFINITION. The numbers that floating-point bits stand for, and what it is to round one exactly: the terms in which statements about
floating point are made, written from the tables of 08_lane_arithmetic R191 to R195 and R210 and not from the model's own rounding.
-/
namespace Sys2Proof.Machine

/-- The sign bit of a number's bits (08_lane_arithmetic R191). -/
def Fmt.sign (f : Fmt) (b : Nat) : Bool := b / f.top % 2 == 1

/-- The number that bits stand for (08_lane_arithmetic R192); none for an infinity and a NaN. -/
def Fmt.value (f : Fmt) (b : Nat) : Option ℚ :=
  let e := b / 2 ^ f.p % 2 ^ f.eb
  let m : ℚ := ((b % 2 ^ f.p : Nat) : ℚ) / 2 ^ f.p
  let s : ℚ := if f.sign b then -1 else 1
  if e = 2 ^ f.eb - 1 then none
  else if e = 0 then some (s * 2 ^ (1 - (f.bias : ℤ)) * m)
  else some (s * 2 ^ ((e : ℤ) - f.bias) * (1 + m))

/-- The place of bits in the order of the numbers and the infinities; none for a NaN (08_lane_arithmetic R192). -/
def Fmt.place (f : Fmt) (b : Nat) : Option (Int × ℚ) :=
  match f.value b with
  | some x => some (0, x)
  | none => if b % 2 ^ f.p = 0 then some (if f.sign b then -1 else 1, 0) else none

/-- One place lies below another. -/
def Below (p q : Int × ℚ) : Prop := p.1 < q.1 ∨ p.1 = q.1 ∧ p.2 < q.2

/-- A number of a format comes nearest to the real `v`, bits `b` of an even fraction where two come equally near (08_lane_arithmetic
R193). -/
def Nearest (f : Fmt) (v : ℝ) (b : Nat) (x : ℚ) : Prop :=
  ∀ z y, f.value z = some y → |(x : ℝ) - v| ≤ |(y : ℝ) - v| ∧ (|(x : ℝ) - v| = |(y : ℝ) - v| → y ≠ x → b % 2 = 0)

/-- The real `v` rounded to a format: the bits and the flags (08_lane_arithmetic R193, R195). It overflows where the result rounded
with no bound on the exponent exceeds the largest finite number: `lim` is the first power of two beyond it, `lim - step` the number
itself. It is tiny where that result lies below `low`, the smallest normal number. -/
def Rounds (f : Fmt) (rm : RMode) (v : ℝ) (r : Nat × Word) : Prop :=
  let lim : ℝ := 2 ^ ((f.bias : ℤ) + 1)
  let step : ℝ := 2 ^ ((f.bias : ℤ) - f.p)
  let low : ℝ := 2 ^ (1 - (f.bias : ℤ))
  let gap : ℝ := 2 ^ (-(f.bias : ℤ) - f.p)
  let away : Prop := rm = 2 ∧ 0 < v ∨ rm = 3 ∧ v < 0
  let beyond : Prop := rm = 0 ∧ lim - step / 2 ≤ |v| ∨ away ∧ lim - step < |v| ∨ lim ≤ |v|
  let tiny : Prop := rm = 0 ∧ |v| < low - gap / 2 ∨ away ∧ |v| ≤ low - gap ∨ rm ≠ 0 ∧ ¬away ∧ |v| < low
  (f.sign r.1 = true ↔ v < 0) ∧ r.1 < 2 * f.top ∧
    (beyond → r.1 % f.top = (if rm = 0 ∨ (rm = 2 ∧ f.sign r.1 = false) ∨ (rm = 3 ∧ f.sign r.1 = true) then f.infBits else f.infBits - 1) ∧
      r.2 = flOF ||| flIX) ∧
    (¬beyond → ∃ x, f.value r.1 = some x ∧
      (rm = 0 → Nearest f v r.1 x) ∧
      (rm = 2 ∨ rm = 1 ∧ v < 0 → v ≤ x ∧ ∀ z y, f.value z = some y → v ≤ y → x ≤ y) ∧
      (rm = 3 ∨ rm = 1 ∧ 0 < v → (x : ℝ) ≤ v ∧ ∀ z y, f.value z = some y → (y : ℝ) ≤ v → y ≤ x) ∧
      ((x : ℝ) = v → r.2 = 0) ∧ ((x : ℝ) ≠ v → tiny → r.2 = flIX ||| flUF) ∧ ((x : ℝ) ≠ v → ¬tiny → r.2 = flIX))

/-- A number rounded to an integer (08_lane_arithmetic R193, R208, R209). -/
def RoundsInt (rm : RMode) (v : ℚ) (n : Int) : Prop :=
  (rm = 0 → 2 * |v - n| < 1 ∨ 2 * |v - n| = 1 ∧ n % 2 = 0) ∧
    (rm = 2 ∨ rm = 1 ∧ v < 0 → v ≤ n ∧ (n : ℚ) < v + 1) ∧
    (rm = 3 ∨ rm = 1 ∧ 0 ≤ v → (n : ℚ) ≤ v ∧ v < n + 1)

/-- An inexact FP32 result lies within `n` ulp of the real `y`, or within `least` of it (08_lane_arithmetic R210): where |y| has the
exponent k, FP32 numbers are 2^(k−23) apart, and never closer than 2^-149. IX is raised, and UF below the normal numbers (R195). -/
def Approx (n least : ℝ) (y : ℝ) (r : Nat × Word) : Prop :=
  ∃ x, f32.value r.1 = some x ∧ |(x : ℝ) - y| ≤ max (n * 2 ^ max (Int.log 2 |y| - 23) (-149)) least ∧
    r.2 = if |x| < 2 ^ (-126 : ℤ) then flIX ||| flUF else flIX

end Sys2Proof.Machine
end

