-- ==== Sys2Proof/Safety.lean ====
section
/-!
DEFINITION. The terms in which claims are stated: safe runs, the canonical form of memory, an instruction that issues, what an
instruction leaves unchanged, and what it does when it retires.
-/
namespace Sys2Proof.Machine

/-- A step that neither faults nor refuses. -/
def Safe (s : State) : Prop := ∃ t, step s = .next t

/-- The memory of a state is in canonical form, with the keys of its units: addresses strictly rising. -/
def State.MemWf (s : State) : Prop := Memory.wf s.mem = true ∧ tsorted 0 s.keys = true

/-- The writes on their way are told apart by their names, all below the next one; those that a home has serialised go to global
memory, and to no replicated page. -/
def State.WritesWf (s : State) : Prop :=
  (s.writes.map (·.id)).Nodup ∧ (∀ w ∈ s.writes, w.id < s.nextId) ∧ ∀ w ∈ s.flight, w.tgt = .glob ∧ w.repl = false

/-- An instruction issues from a context: the context is the state's, and no check of 02_instruction_words R53 fails. -/
def Issues (s : State) (c : Ctx) (i : Instr) : Prop := s.ctx? = some c ∧ issueCheck s c i = none

/-- An instruction issues from warp `w` of team `t`, which is `x`. -/
def WarpIssues (s : State) (c : Ctx) (i : Instr) (t w : Nat) (x : Warp) : Prop :=
  Issues s c i ∧ c.cur.unit = .warp t w ∧ s.warp? t w = some x

/-- An instruction issues from CCC context `k` of team `t`, which is `y`. -/
def CccIssues (s : State) (c : Ctx) (i : Instr) (t k : Nat) (y : Ccc) : Prop :=
  Issues s c i ∧ c.cur.unit = .ccc t k ∧ s.ccc? t k = some y

/-- Everything of a team but its warps and contexts. -/
def Team.bare (x : Team) : Team := { x with warps := [], cccs := [] }

/-- A fragment but for its age. -/
def Frag.noAge (f : Frag) : Frag := { f with age := 0 }

/-- Everything of a warp but its vector registers, its operand buffer, its running fragments and which of them issued last. -/
def Warp.still (x : Warp) : Warp :=
  { x with v := [], buf := [], live0 := none, live1 := none, spill := [], handler := none, last := 0, run := 0, other := false }

/-- Every byte of global memory that a die sees, of scratchpad, and every accumulator element, is as before. -/
def SameMem (s t : State) : Prop :=
  (∀ d k a, t.dieByte d k a = s.dieByte d k a) ∧ (∀ g ci off, t.spByte g ci off = s.spByte g ci off) ∧
    ∀ g n, t.accElem g n = s.accElem g n

/-- The key under which the 16-byte unit of a byte was last written, as a die sees it (03_memory_tiers R71). -/
def State.unitKey (s : State) (d a : Nat) : Option Byte :=
  (((s.seenAt d).filter (·.unitOf a)).foldl (fun b w => b.apply w a) (s.baseByte a)).uk.map (·.key)

/-- Nothing changes but one warp or context, and the fill counts and last issuers of cores. -/
def OnlyUnit (s t : State) (u : UnitId) : Prop :=
  { t with teams := s.teams, cores := s.cores } = s ∧
    (∀ k, { t.core k with ifcnt := (s.core k).ifcnt, last := (s.core k).last } = s.core k) ∧
    (∀ a w, UnitId.warp a w ≠ u → t.warp? a w = s.warp? a w) ∧ (∀ a i, UnitId.ccc a i ≠ u → t.ccc? a i = s.ccc? a i) ∧
    ∀ a, (t.team? a).map Team.bare = (s.team? a).map Team.bare

/-- The issuing fragment stands at the next word (02_instruction_words R18). -/
def Advanced (s t : State) (c : Ctx) : Prop :=
  (t.frag? c.cur).map Frag.noAge = (s.frag? c.cur).map fun f => (f.advance c.hdr.len).noAge

/-- The fragments of a warp but one are as before, ages apart. -/
def OtherFrags (k : Sel) (x y : Warp) : Prop :=
  (∀ j, j ≠ k → (y.frag? j).map Frag.noAge = (x.frag? j).map Frag.noAge) ∧
    y.spill.map Frag.noAge = x.spill.map Frag.noAge

/-- A warp has issued from a fragment (13_control_flow R303): a handler's issue does not count; another begins the fragment's run of
issues or goes on with it, up to 16. -/
def Warp.Issued (x : Warp) (c : Ctx) (y : Warp) : Prop :=
  if c.kind = .handler then y.last = x.last ∧ y.run = x.run ∧ y.other = x.other
  else y.last = c.fid ∧ y.other = false ∧ y.run = if x.last = c.fid ∧ x.run < 16 ∧ x.other = false then x.run + 1 else 1

/-- Warp `w` of team `t` becomes `y` by an instruction that changes this warp alone, no memory, and goes on to the next word. -/
def WarpRetires (s s' : State) (c : Ctx) (t w : Nat) (x y : Warp) : Prop :=
  OnlyUnit s s' (.warp t w) ∧ SameMem s s' ∧ Advanced s s' c ∧ s'.warp? t w = some y ∧ OtherFrags c.cur.sel x y ∧ x.Issued c y

/-- A context becomes `z` by an instruction that changes it alone, no memory, and goes on to the next word. -/
def CccRetires (s s' : State) (c : Ctx) (t k : Nat) (z : Ccc) : Prop :=
  OnlyUnit s s' (.ccc t k) ∧ SameMem s s' ∧ Advanced s s' c ∧ s'.ccc? t k = some z

/-- A lane form has its effect (07_registers R160, R175; 08_lane_arithmetic R186, R189): the `n` registers from `d` on take
`f` in the lanes of `m`; the other lanes of the fragment become absent, or stay under KP; marked sources are vacant; the flags
`fl` join %fst; nothing else changes. -/
def LaneDone (s s' : State) (c : Ctx) (i : Instr) (t w : Nat) (x : Warp) (d n : Nat) (kp : Bool) (m : Lanes) (f : Nat → Nat)
    (fl : Word) : Prop :=
  ∃ y, WarpRetires s s' c t w x y ∧ { y.still with fst := x.fst } = x.still ∧ y.fst = x.fst ||| fl ∧
    ∀ r l, l < 32 → tget (y.vr r) l =
      if r ∈ marksOf x.regs i then none
      else if d ≤ r ∧ r < d + n then
        (if m.getLsbD l then some (BitVec.ofNat 32 (f l / 2 ^ (32 * (r - d))))
          else if c.lm.getLsbD l && !kp then none else tget (x.vr r) l)
      else tget (x.vr r) l

/-- The vector registers of a warp are as before, marked sources apart. -/
def OnlyMarks (i : Instr) (x y : Warp) : Prop := ∀ r, y.vr r = if r ∈ marksOf x.regs i then [] else x.vr r

/-- A form with a predicate destination has its effect (07_registers R161; 08_lane_arithmetic R186). -/
def PredDone (s s' : State) (c : Ctx) (i : Instr) (t w : Nat) (x : Warp) (d : Nat) (kp : Bool) (m : Lanes) (f : Nat → Bool)
    (fl : Word) : Prop :=
  ∃ y, WarpRetires s s' c t w x y ∧ { y.still with fst := x.fst, p := x.p } = x.still ∧ y.fst = x.fst ||| fl ∧
    OnlyMarks i x y ∧ (∀ r, r ≠ d → y.pr r = x.pr r) ∧ ∀ l, l < 32 →
      ((y.pr d).map.getLsbD l = (m.getLsbD l || ((x.pr d).map.getLsbD l && (kp || !c.lm.getLsbD l)))) ∧
      ((y.pr d).map.getLsbD l = true → (y.pr d).val.getLsbD l = if m.getLsbD l then f l else (x.pr d).val.getLsbD l)

/-- The OCCMISM trap of a strict form: CMAP is the union of its operands' maps within L (15_traps_preemption R334). -/
def mismTrap (lm : Lanes) (ops : List (List OpRec)) : TrapInfo := { plainTrap cOCCMISM with cmap := unionMap lm ops }

/-- A lane form: wherever it issues it completes, and the `n` registers from its destination on take `f` in the lanes present
in every operand, `fl` giving the flags a lane raises; but if it is strict and its operands' maps differ within L it traps
OCCMISM, with no effect of its own (08_lane_arithmetic R186, R187, R189). -/
def LaneForm (i : Instr) (strict : Bool) (ops : Env → List (List OpRec)) (n : Nat) (f : Env → Nat → Nat) (fl : Env → Nat → Word) :
    Prop :=
  ∀ s c t w x, WarpIssues s c i t w x →
    ((strict && occMism c.lm (ops (s.envOf c i))) = false → ∃ s', exec i s = .next s' ∧
      LaneDone s s' c i t w x (s.envOf c i).dst n (dKp (shape i)) (effMap (s.envOf c i) (ops (s.envOf c i))) (f (s.envOf c i))
        (flagsOr ((lanesOf (effMap (s.envOf c i) (ops (s.envOf c i)))).map (fl (s.envOf c i))))) ∧
    ((strict && occMism c.lm (ops (s.envOf c i))) = true → exec i s = .next (s.trapNow c i (mismTrap c.lm (ops (s.envOf c i)))))

/-- A lane form with a predicate destination, likewise. -/
def PredForm (i : Instr) (strict : Bool) (ops : Env → List (List OpRec)) (f : Env → Nat → Bool) (fl : Env → Nat → Word) : Prop :=
  ∀ s c t w x, WarpIssues s c i t w x →
    ((strict && occMism c.lm (ops (s.envOf c i))) = false → ∃ s', exec i s = .next s' ∧
      PredDone s s' c i t w x (s.envOf c i).dst (dKp (shape i)) (effMap (s.envOf c i) (ops (s.envOf c i))) (f (s.envOf c i))
        (flagsOr ((lanesOf (effMap (s.envOf c i) (ops (s.envOf c i)))).map (fl (s.envOf c i))))) ∧
    ((strict && occMism c.lm (ops (s.envOf c i))) = true → exec i s = .next (s.trapNow c i (mismTrap c.lm (ops (s.envOf c i)))))

/-- The operands of a form that reads lanes outside L: whole registers (07_registers R168; 10_lane_crossbar R242). -/
def State.wideEnv (s : State) (c : Ctx) (i : Instr) : Env :=
  mkEnv (shape i) c.lm fullMap (((s.regs? c.cur.unit).map fun r => dNum r (shape i)).getD 0)
    (capture s c.cur.unit fullMap (shape i))

/-- The operands A and B. -/
def opsAB (e : Env) : List (List OpRec) := [e.a, e.b]

/-- The operands A, B and D. -/
def opsABD (e : Env) : List (List OpRec) := [e.a, e.b, e.d]

/-- Operand A. -/
def opsA (e : Env) : List (List OpRec) := [e.a]

/-- No lane raises a flag. -/
def noFlag (_ : Env) (_ : Nat) : Word := 0

/-- The scalars from `d` on hold `v`, and no other register of the unit has changed. -/
def ScalarsSet (r r' : Regs) (d : Nat) (v : List Word) : Prop :=
  { r' with sc := r.sc } = r ∧ ∀ n, r'.s n = if d ≤ n ∧ n < d + v.length then v.getD (n - d) 0 else r.s n

/-- A form with a scalar destination has its effect in a warp (07_registers R162). -/
def ScalarDone (s s' : State) (c : Ctx) (i : Instr) (t w : Nat) (x : Warp) (d : Nat) (v : List Word) : Prop :=
  ∃ y, WarpRetires s s' c t w x y ∧ { y.still with regs := x.regs } = x.still ∧ OnlyMarks i x y ∧ ScalarsSet x.regs y.regs d v

/-- A form with a scalar destination has its effect in a CCC context. -/
def CccScalarDone (s s' : State) (c : Ctx) (t k : Nat) (y : Ccc) (d : Nat) (v : List Word) : Prop :=
  ∃ z, CccRetires s s' c t k z ∧ { z with regs := y.regs, frag := y.frag } = y ∧ ScalarsSet y.regs z.regs d v

/-- A form of warps and contexts completes with the scalars from the destination on set to `v`. -/
def ScalarForm (i : Instr) (v : State → Ctx → List Word) : Prop :=
  (∀ s c t w x, WarpIssues s c i t w x → ∃ s', exec i s = .next s' ∧ ScalarDone s s' c i t w x (s.envOf c i).dst (v s c)) ∧
    ∀ s c t k y, CccIssues s c i t k y → ∃ s', exec i s = .next s' ∧ CccScalarDone s s' c t k y (s.envOf c i).dst (v s c)

/-- The registers that the issuing instruction marks, by the index registers before it. -/
def State.marks (s : State) (c : Ctx) (i : Instr) : List Nat := ((s.regs? c.cur.unit).map fun r => marksOf r i).getD []

/-- An instruction whose own effect gives `s1` has been carried out: besides, its marked sources are vacant, the operand buffer,
the count of its fills and the ages of fragments have moved, and `g` has changed its fragment; nothing else has changed. -/
def Ends (s s1 s' : State) (c : Ctx) (i : Instr) (g : Frag → Frag) : Prop :=
  OnlyUnit s1 s' c.cur.unit ∧ SameMem s1 s' ∧
    (s'.frag? c.cur).map Frag.noAge = (s1.frag? c.cur).map (fun f => (g f).noAge) ∧
    (∀ t w x, c.cur.unit = .warp t w → s1.warp? t w = some x → ∃ y, s'.warp? t w = some y ∧ y.still = x.still ∧
      (∀ r, y.vr r = if r ∈ s.marks c i then [] else x.vr r) ∧ OtherFrags c.cur.sel x y ∧ x.Issued c y) ∧
    ∀ t k y, c.cur.unit = .ccc t k → s1.ccc? t k = some y → ∃ z, s'.ccc? t k = some z ∧ { z with frag := y.frag } = y

/-- The instruction completes: its own effect gives `s1`, and the next word follows (02_instruction_words R18). -/
def Retires (i : Instr) (s : State) (c : Ctx) (s1 : State) : Prop :=
  ∃ s', exec i s = .next s' ∧ Ends s s1 s' c i (·.advance c.hdr.len)

/-- The instruction completes: `g` moves its fragment, and it has no other effect. -/
def Goes (i : Instr) (s : State) (c : Ctx) (g : Frag → Frag) : Prop := ∃ s', exec i s = .next s' ∧ Ends s s s' c i g

/-- The instruction traps, with no effect of its own. -/
def Traps (i : Instr) (s : State) (c : Ctx) (ti : TrapInfo) : Prop := exec i s = .next (s.trapNow c i ti)

/-- The instruction waits in its place for `k`, and has changed the state to `s1`. -/
def Waits (i : Instr) (s : State) (c : Ctx) (k : WaitOn) (s1 : State) : Prop :=
  exec i s = .next (s1.modFrag c.cur fun f => { f with wait := some k })

/-- The running fragments of a warp but the one that a selector names, ages apart. -/
def Warp.others (x : Warp) (k : Sel) : List Frag := (x.setFrag k none).active.map Frag.noAge

/-- Nothing of a warp has changed but which fragments it runs, and whether it has exited. -/
def Warp.sameRest (x y : Warp) : Prop :=
  { y with live0 := x.live0, live1 := x.live1, spill := x.spill, handler := x.handler, exited := x.exited } = x

/-- The tags of a team whose warps have all exited: none is halted (05_copy_engine R124). -/
def Team.unhalt (q : Team) : Team :=
  if q.warps.all (·.exited) then { q with tags := q.tags.map fun l => l.map fun g => { g with halt := false } } else q

/-- The issuing fragment ends, and nothing else happens from `s1` on (13_control_flow R292): its slot is free, to be filled from
the spill stack; a warp without a fragment has exited. A context has exited. -/
def Ended (s s1 s' : State) (c : Ctx) (i : Instr) : Prop :=
  (∀ t k x, c.cur.unit = .warp t k → s1.warp? t k = some x → ∃ y, Ends s ((s1.modWarp t k fun _ => y).modTeam t Team.unhalt) s' c i id ∧
    x.sameRest y ∧ (y.active.map Frag.noAge).Perm (x.others c.cur.sel) ∧
    y.exited = (x.exited || (y.active.isEmpty && x.parks.isEmpty))) ∧
  ∀ t k, c.cur.unit = .ccc t k → Ends s (s1.modCcc t k fun y => { y with exited := true }) s' c i id

/-- The lanes of a map that fail a check, with cause and address (15_traps_preemption R330). -/
def badLanes (m : Lanes) (chk : Nat → Except Nat Acc) (va : Nat → DWord) : List (Nat × Nat × DWord) :=
  (lanesOf m).filterMap fun l => match chk l with
    | .error k => some (l, k, va l)
    | .ok _ => none

/-- An operation as it issues: the instruction and its place, its captured operands, its accesses, nothing performed
(02_instruction_words R24; 15_traps_preemption R335). -/
def newOp (i : Instr) (c : Ctx) (e : Env) (m : Lanes) (seq : Nat) (accs : List Acc) (acq : Option Scope) (gate : Option Gate)
    (plain : Bool) : Op where
  seq := seq
  instr := i
  fid := c.fid
  cpc := c.cpc
  slot := c.slot
  flag := flagOf c.hdr i
  dst := e.dst
  lmap := c.lm
  emap := m
  recs := e.recs
  accs := accs
  vals := []
  acq := acq
  gate := gate
  plain := plain
  srcs := []
  preds := none
  stalled := []
  passed := false

/-- A counted operation joins those in flight, and its flag rises by one. -/
def Regs.counts (r : Regs) (o : Op) : Regs :=
  { r.setFlag o.flag (r.flag o.flag + 1) with ops := r.ops ++ [o], seq := r.seq + 1 }

/-- A counted operation issues (02_instruction_words R24, R29; 04_caches_scratchpad R100): with a lane to access, it joins the
operations in flight and its flag rises by one; with none, its destination is written at once, every lane absent. -/
def Counted (i : Instr) (s : State) (c : Ctx) (t w : Nat) (x : Warp) (e : Env) (m : Lanes) (accs : List Acc) (acq rel : Option Scope)
    (plain : Bool) : Prop :=
  (m ≠ 0 → Retires i s c (s.modRegs c.cur.unit fun r =>
    r.counts (newOp i c e m r.seq accs acq (rel.map (s.mkGate (s.dieOf c.cur.unit))) plain))) ∧
  (m = 0 → x.exited = false → ∃ s', exec i s = .next s' ∧
    LaneDone s s' c i t w x e.dst (countedRegs i) (dKp (shape i)) m (fun _ => 0) 0)

/-- A lane with an aligned address whose lookup is not over (03_memory_tiers R73, R74); `n`: the bytes of an access. -/
def LookingUp (s : State) (u : UnitId) (m : Lanes) (va : Nat → DWord) (n : Nat) : Prop :=
  s.lookups u (((lanesOf m).map va).filter fun a => a.toNat % n == 0) = true

/-- A counted form with one access a lane: it stalls while its flag counts 63 (02_instruction_words R25) or a lookup of its is not
over (`busy`), traps if a lane fails its check, and else issues. -/
def CountForm (i : Instr) (s : State) (c : Ctx) (t w : Nat) (x : Warp) (e : Env) (busy : Prop) (m : Lanes) (chk : Nat → Except Nat Acc)
    (va : Nat → DWord) (acq rel : Option Scope) (plain : Bool) : Prop :=
  (63 ≤ x.regs.flag (flagOf c.hdr i) ∨ busy → Waits i s c .stall s) ∧
    (x.regs.flag (flagOf c.hdr i) < 63 → ¬busy → (badLanes m chk va ≠ [] → Traps i s c (laneTrap (badLanes m chk va) m)) ∧
      ∀ accs, (lanesOf m).map chk = accs.map Except.ok → Counted i s c t w x e m accs acq rel plain)

/-- A store form (04_caches_scratchpad R102, R104): it stalls while a lookup of its is not over (`busy`), traps if a lane fails its
check; else each lane's low bytes are writes
in flight to the bytes checked, of lanes with the same address the highest alone, and nothing else has changed. -/
def StoreForm (i : Instr) (s : State) (c : Ctx) (e : Env) (busy : Prop) (n : Nat) (m : Lanes) (chk : Nat → Except Nat Acc) (va : Nat → DWord)
    (rel : Option Scope) : Prop :=
  (busy → Waits i s c .stall s) ∧ (¬busy → badLanes m chk va ≠ [] → Traps i s c (laneTrap (badLanes m chk va) m)) ∧
    ∀ accs, ¬busy → (lanesOf m).map chk = accs.map Except.ok → (accs = [] → Retires i s c s) ∧
      (accs ≠ [] → ∃ (s1 : State) (ws : List Write) (seq : Nat), Retires i s c s1 ∧ SameMem s s1 ∧
        s1 = { s.modRegs c.cur.unit fun r => { r with seq := r.seq + 1 } with pend := s.pend ++ ws, nextId := s.nextId + ws.length } ∧
        (s.regs? c.cur.unit).map (·.seq) = some seq ∧
        ws.map (fun w => (w.src, w.seq, w.die, w.tgt, w.addr, w.bytes, w.key, w.gate)) =
          (accs.filter fun a => accs.all fun b => decide (b.lane ≤ a.lane) || !(b.tgt == a.tgt && b.addr == a.addr)).map fun a =>
            (some c.cur.unit, seq, s.dieOf c.cur.unit, a.tgt, a.addr, toBytes n (opLane e.d a.lane), a.key,
              rel.map (s.mkGate (s.dieOf c.cur.unit))))

/-- A form that a context issues through the reservation table (11_matrix_engine R265): it waits, in the order of requests, for
one of the 32 entries, keeping the scalars that its checks have captured, and then its entry is the youngest of the table, its `.after` point's target is taken, and its tiles have one
more user. -/
def EntryForm (i : Instr) (s : State) (c : Ctx) (t k : Nat) (y : Ccc) (caps : List Word) (tiles : List (Nat × Nat × Nat)) : Prop :=
  let me : UnitId := .ccc t k
  let cl := s.clusterOf me
  let x := s.cluster cl
  let q := if me ∈ x.entryQ then x.entryQ else x.entryQ ++ [me]
  let go : Prop := x.entries.length < 32 ∧ q.head? = some me
  (¬go → ∃ s0 : State, Waits i s c .entry (s0.modFrag c.cur fun f => { f with phase := 1, snap := caps.map (·.toNat) }) ∧ { s0 with clusters := s.clusters } = s ∧
    ∀ n, s0.cluster n = if n = cl then { x with entryQ := q } else s.cluster n) ∧
  (go → ∃ (s1 : State) (e : REnt), Retires i s c (s1.useTiles tiles) ∧ SameMem s (s1.useTiles tiles) ∧ s1.nextId = s.nextId + 1 ∧
    { s1 with clusters := s.clusters, nextId := s.nextId } = (s.modCcc t k fun _ =>
      { y with frag := { y.frag with tg := match (pointsOf i).1 with
        | some n => lset y.frag.tg n ((y.frag.tg.getD n 1 + 1) % 16)
        | none => y.frag.tg } }) ∧
    (∀ n, s1.cluster n = if n = cl then { x with entries := x.entries ++ [e], entryQ := q.filter (· != me) } else s.cluster n) ∧
    e = ⟨s.nextId, t, k, i, c.cpc + BitVec.ofNat 64 (8 * (c.slot + 1)), y.mxc, caps,
      (pointsOf i).1.map fun n => (n, y.frag.tg.getD n 1), (pointsOf i).2, tiles, 0, none, none, [], 0⟩)

/-- A form that a context issues through the reservation table: its checks are made once. `first` says what comes of them, given
the captured scalars; while it then waits, the scalars kept are those that it issues with, over the tiles they name. -/
def EntryChecked (i : Instr) (s : State) (c : Ctx) (t k : Nat) (y : Ccc) (tiles : List Word → List (Nat × Nat × Nat)) (first : Prop) : Prop :=
  (c.phase ≠ 1 → first) ∧
    (c.phase = 1 → let kept : List Word := y.frag.snap.map (BitVec.ofNat 32); EntryForm i s c t k y kept (tiles kept))

end Sys2Proof.Machine
end

