-- ==== Sys2Proof/Certificates/Slice0/Obligations.lean ====
section
/-!
DEFINITION. The statements for the provers: what the instructions and events of the AK3 module do, from the numbered rules of
the spec.
-/
section

open Sys2Proof Sys2Proof.Machine

/-- 08_lane_arithmetic R197: `iadd`, `isub`, `imin`, `imax`, `imul`, in the lanes of E (R186), delivered by R196, no flag raised
(R189).
And 08_lane_arithmetic R197, R200, R203: `iabs`, `imulhi`, `imad`, `lea`, `cvt`; `lea` reads B as 32 bits, extended by SX for a
64-bit type, and scales it; its FI form adds the immediate. -/
def Obligations.IntegerArithmetic : Prop := (∀ g : GI,
  LaneForm (.iadd g) (giStrict g) opsAB (iw (giTy g)) (fun e l => deliver (giTy g) (giSat g) (giA g e l + giB g e l)) noFlag ∧
  LaneForm (.isub g) (giStrict g) opsAB (iw (giTy g)) (fun e l => deliver (giTy g) (giSat g) (giA g e l - giB g e l)) noFlag ∧
  LaneForm (.imin g) (giStrict g) opsAB (iw (giTy g))
    (fun e l => deliver (giTy g) (giSat g) (if giA g e l ≤ giB g e l then giA g e l else giB g e l)) noFlag ∧
  LaneForm (.imax g) (giStrict g) opsAB (iw (giTy g))
    (fun e l => deliver (giTy g) (giSat g) (if giA g e l ≤ giB g e l then giB g e l else giA g e l)) noFlag ∧
  LaneForm (.imul g) (giStrict g) opsAB (iw (giTy g)) (fun e l => deliver (giTy g) (giSat g) (giA g e l * giB g e l)) noFlag) ∧
  ((∀ w : GenW,
  LaneForm (.iabs w) w.strict opsA (iw w.ty) (fun e l => deliver w.ty w.sat (intOf w.ty (opLane e.a l)).natAbs) noFlag ∧
  LaneForm (.imulhi w) w.strict opsAB (iw w.ty)
    (fun e l => deliver w.ty false (intOf w.ty (opLane e.a l) * intOf w.ty (opLane e.b l) / 2 ^ tyBits w.ty)) noFlag ∧
  LaneForm (.imad w) w.strict opsABD (iw w.ty)
    (fun e l => deliver w.ty w.sat ((if w.na then -intOf w.ty (opLane e.a l) else intOf w.ty (opLane e.a l)) *
      (if w.nb then -intOf w.ty (opLane e.b l) else intOf w.ty (opLane e.b l)) + intOf w.ty (opLane e.d l))) noFlag ∧
  LaneForm (.cvt w) w.strict opsA (iw w.ty)
    (fun e l => deliver w.ty w.sat (intOf (w.opx.setWidth 3) (opLane e.a l))) noFlag ∧
  LaneForm (.lea (.reg w)) w.strict opsAB (iw w.ty)
    (fun e l => deliver w.ty false (intOf w.ty (opLane e.a l) +
      (if w.opx.getLsbD 2 then sextNat 32 (opLane e.b l) else (opLane e.b l % 2 ^ 32 : Nat)) * 2 ^ (w.opx.toNat % 4))) noFlag) ∧
  ∀ w : ImmW, LaneForm (.lea (.imm w)) w.strict opsAB (iw w.ty)
    (fun e l => deliver w.ty false (intOf w.ty (opLane e.a l) + intOf w.ty (immRaw w.imm))) noFlag)

/-- 08_lane_arithmetic R197, R198: the bitwise forms and the shifts of the types the spec allows them, bit by bit: bit `j` of
the result below the type's width.
And 08_lane_arithmetic R197, R199: the bit counts, the bit reversal and the bit fields of the types the spec allows them. -/
def Obligations.BitForms : Prop := (∀ (g : GI) (op : GI → Instr) (f : Nat → Nat → Nat → Nat → Bool),
  (op, f) ∈ ([(Instr.and, fun _ a b j => bitOf a j && bitOf b j), (Instr.or, fun _ a b j => bitOf a j || bitOf b j),
    (Instr.xor, fun _ a b j => bitOf a j != bitOf b j),
    (Instr.shl, fun w a b j => decide (b % w ≤ j) && bitOf a (j - b % w)),
    (Instr.shr, fun w a b j => decide (j + b % w < w) && bitOf a (j + b % w)),
    (Instr.sar, fun w a b j => if j + b % w < w then bitOf a (j + b % w) else bitOf a (w - 1))] :
      List ((GI → Instr) × (Nat → Nat → Nat → Nat → Bool))) →
  legal (op g) = true → ∃ v : Env → Nat → Nat, LaneForm (op g) (giStrict g) opsAB (iw (giTy g)) v noFlag ∧
    ∀ e l j, j < tyBits (giTy g) → bitOf (v e l) j = f (tyBits (giTy g)) (opLane e.a l) (giRaw g e l) j) ∧
  (∀ w : GenW,
  (legal (.popc w) = true → LaneForm (.popc w) w.strict opsA 1
    (fun e l => ((List.range 32).filter fun j => bitOf (opLane e.a l) j).length) noFlag) ∧
  (legal (.clz w) = true → ∃ v : Env → Nat → Nat, LaneForm (.clz w) w.strict opsA 1 v noFlag ∧
    ∀ e l, v e l ≤ 32 ∧ opLane e.a l % 2 ^ 32 < 2 ^ (32 - v e l) ∧ (v e l < 32 → 2 ^ (31 - v e l) ≤ opLane e.a l % 2 ^ 32)) ∧
  (legal (.brev w) = true → ∃ v : Env → Nat → Nat, LaneForm (.brev w) w.strict opsA 1 v noFlag ∧
    ∀ e l j, j < 32 → bitOf (v e l) j = bitOf (opLane e.a l) (31 - j)) ∧
  (legal (.bfe w) = true → ∃ v : Env → Nat → Nat, LaneForm (.bfe w) w.strict opsAB 1 v noFlag ∧
    ∀ e l j, j < 32 →
      let a := opLane e.a l
      let pos := opLane e.b l % 256
      let len := min (opLane e.b l / 256 % 256) 32
      let src (k : Nat) : Bool := if k < 32 then bitOf a k else w.ty == 0 && bitOf a 31
      bitOf (v e l) j = (if len = 0 then false else if j < len then src (pos + j) else w.ty == 0 && src (pos + len - 1))) ∧
  (legal (.bfi w) = true → ∃ v : Env → Nat → Nat, LaneForm (.bfi w) w.strict (fun e => [e.a, e.b, e.d]) 1 v noFlag ∧
    ∀ e l j, j < 32 →
      let pos := opLane e.b l % 256
      let len := min (opLane e.b l / 256 % 256) 32
      bitOf (v e l) j = if pos ≤ j ∧ j < pos + len then bitOf (opLane e.a l) (j - pos) else bitOf (opLane e.d l) j))

/-- 08_lane_arithmetic R197 (`not`), R200 (`sel`), R201 (`icmp`), R202 (`mov`, `movi`, `movh`). -/
def Obligations.SelectCompareMove : Prop :=  (∀ w : GenW,
    LaneForm (.not w) w.strict opsA (iw w.ty) (fun e l => 2 ^ tyBits w.ty - 1 - opLane e.a l % 2 ^ tyBits w.ty) noFlag ∧
    LaneForm (.sel w) w.strict (fun e => [e.a, e.b, e.more.headD []]) (iw w.ty)
      (fun e l => if (e.more.headD []).any (·.truth l) then opLane e.a l else opLane e.b l) noFlag ∧
    LaneForm (.mov w) w.strict opsA (iw w.ty) (fun e l => opLane e.a l) noFlag) ∧
  (∀ w : ImmW,
    LaneForm (.movi w) w.strict (fun _ => []) 1 (fun _ _ => wrapNat 32 (sextNat 24 w.imm.toNat)) noFlag ∧
    LaneForm (.movh w) w.strict (fun e => [e.d]) 1
      (fun e l => opLane e.d l % 2 ^ 16 + 2 ^ 16 * (w.imm.toNat % 2 ^ 16)) noFlag) ∧
  ∀ g : GI,
    PredForm (.icmp .eq g) (giStrict g) opsAB (fun e l => decide (giA g e l = giB g e l)) noFlag ∧
    PredForm (.icmp .ne g) (giStrict g) opsAB (fun e l => decide (giA g e l ≠ giB g e l)) noFlag ∧
    PredForm (.icmp .lt g) (giStrict g) opsAB (fun e l => decide (giA g e l < giB g e l)) noFlag ∧
    PredForm (.icmp .le g) (giStrict g) opsAB (fun e l => decide (giA g e l ≤ giB g e l)) noFlag ∧
    PredForm (.icmp .gt g) (giStrict g) opsAB (fun e l => decide (giB g e l < giA g e l)) noFlag ∧
    PredForm (.icmp .ge g) (giStrict g) opsAB (fun e l => decide (giB g e l ≤ giA g e l)) noFlag

/-- 08_lane_arithmetic R190, R196, R197: what an integer form delivers. Read as its type, a result under SAT is the exact value
clamped to the type's range, and otherwise the value of the type that the exact one equals modulo 2^w; the registers hold it
extended by the type's signedness. Negation of an operand is exact.
And 07_registers R159 to R163, R167; 02_instruction_words R38: what a warp's operand records hold. A vector register gives its
lanes within L; a predicate its map within L and its truth values; a scalar or index register one value and the full map;
%lane and %here the lane number, %here with the map L. -/
def Obligations.OperandsAndDelivery : Prop := (∀ (ty : BitVec 3) (sat : Bool) (x : Int),
  let w := tyBits ty
  let lo : Int := if tySigned ty then -(2 ^ (w - 1)) else 0
  let hi : Int := if tySigned ty then 2 ^ (w - 1) - 1 else 2 ^ w - 1
  let y := intOf ty (deliver ty sat x)
  lo ≤ y ∧ y ≤ hi ∧ deliver ty sat x = wrapNat (32 * iw ty) y ∧
    (sat = true → y = if x < lo then lo else if hi < x then hi else x) ∧
    (sat = false → ∃ k : Int, x = y + k * 2 ^ w) ∧
    ∀ (w : GenW) (e : Env) (l : Nat), giA (.reg w) e l = (if w.na then -intOf w.ty (opLane e.a l) else intOf w.ty (opLane e.a l)) ∧
      giB (.reg w) e l = (if w.nb then -intOf w.ty (opLane e.b l) else intOf w.ty (opLane e.b l))) ∧
  (∀ (s : State) (t w : Nat) (x : Warp) (lm : Lanes) (n l : Nat),
  s.warp? t w = some x → l < 32 →
  let vec := captureReg s (.warp t w) lm 0 n
  let scl := captureReg s (.warp t w) lm 1 n
  let prd := captureReg s (.warp t w) lm 2 n
  ((opMap [vec]).getLsbD l = ((tget (x.vr n) l).isSome && lm.getLsbD l)) ∧
  (∀ v, lm.getLsbD l = true → tget (x.vr n) l = some v → opLane [vec] l = v.toNat) ∧
  opMap [scl] = fullMap ∧ (n < 64 → opLane [scl] l = (x.regs.s n).toNat ∧ opScal [scl] = (x.regs.s n).toNat) ∧
  (64 ≤ n → opLane [scl] l = (x.regs.xv (n - 64)).toNat) ∧
  (n < 16 → (opMap [prd]).getLsbD l = ((x.pr n).map.getLsbD l && lm.getLsbD l) ∧ prd.truth l = (x.pr n).val.getLsbD l) ∧
  (n = 0x80 → opMap [prd] = fullMap ∧ (lm.getLsbD l = true → opLane [prd] l = l)) ∧
  (n = 0x88 → opMap [prd] = lm ∧ (lm.getLsbD l = true → opLane [prd] l = l)) ∧
  (n = 0x81 → opLane [prd] l = w % 2 ^ 32) ∧ (n = 0x89 → opLane [prd] l = x.fst.toNat) ∧
  (n = 0x8A → opLane [prd] l = x.wst.toNat))

/-- 08_lane_arithmetic R205, R206: `fadd`, `fsub`, `fmul`, `ffma`, `fmin`, `fmax`, each element of each lane of E on its own,
with the flags it raises (R189, R190); negation flips the sign bit first (R194). 
A sum, a difference, a product and a fused product are the exact ones of the operands' numbers, rounded once under RM, and the
roundings and flags are those of R193 and R195; the zeros, the infinities and the order of `fmin` and `fmax` are given outright. -/
def Obligations.FloatArithmetic : Prop := (∀ g : GI, ∀ p ∈ ([(Instr.fadd, faddOp), (Instr.fsub, fsubOp), (Instr.fmul, fmulOp),
    (Instr.fmin, fminOp), (Instr.fmax, fmaxOp)] : List ((GI → Instr) × FOp)),
  LaneForm (p.1 g) (giStrict g) opsAB 1
    (fun e l => (perElem (giTy g) fun k => p.2 (fmtOf (giTy g)) (giRm g) (gfA g e l k) (gfB g e l k)).1)
    (fun e l => (perElem (giTy g) fun k => p.2 (fmtOf (giTy g)) (giRm g) (gfA g e l k) (gfB g e l k)).2)) ∧
  (∀ w : GenW, LaneForm (.ffma w) w.strict opsABD 1 (fun e l => (ffmaLane w e l).1) (fun e l => (ffmaLane w e l).2)) ∧
  ∀ f ∈ [f32, f16, bf16], ∀ rm < 4, ∀ a < 2 * f.top, ∀ b < 2 * f.top, ∀ d < 2 * f.top,
    let zero (neg : Bool) : Nat × Word := (if neg then f.top else 0, 0)
    let inf (neg : Bool) : Nat × Word := (if neg then f.top + f.infBits else f.infBits, 0)
    let sum0 (m n : Bool) : Nat × Word := zero (if m = n then m else rm == 3)
    let ps := f.sign a != f.sign b
    (fdec f (flipIf f true b) = (fdec f b).neg ∧ f.sign (flipIf f true b) = !f.sign b) ∧
    (∀ x y, f.value a = some x → f.value b = some y →
      (x + y ≠ 0 → Rounds f rm ((x + y : ℚ) : ℝ) (faddOp f rm a b)) ∧ (x + y = 0 → faddOp f rm a b = sum0 (f.sign a) (f.sign b)) ∧
      (x - y ≠ 0 → Rounds f rm ((x - y : ℚ) : ℝ) (fsubOp f rm a b)) ∧ (x - y = 0 → fsubOp f rm a b = sum0 (f.sign a) (!f.sign b)) ∧
      (x * y ≠ 0 → Rounds f rm ((x * y : ℚ) : ℝ) (fmulOp f rm a b)) ∧ (x * y = 0 → fmulOp f rm a b = zero ps) ∧
      ∀ z, f.value d = some z →
        (x * y + z ≠ 0 → Rounds f rm ((x * y + z : ℚ) : ℝ) (ffmaB f rm (fdec f a) (fdec f b) (fdec f d))) ∧
        (x * y + z = 0 → ffmaB f rm (fdec f a) (fdec f b) (fdec f d) = sum0 ps (f.sign d))) ∧
    (∀ m n, fdec f a = .inf m → fdec f b = .inf n → (m = n → faddOp f rm a b = inf m ∧ fsubOp f rm a b = (f.nan, flIV)) ∧
      (m ≠ n → faddOp f rm a b = (f.nan, flIV) ∧ fsubOp f rm a b = inf m) ∧ fmulOp f rm a b = inf ps) ∧
    (∀ m y, fdec f a = .inf m → f.value b = some y → faddOp f rm a b = inf m ∧ fsubOp f rm a b = inf m ∧
      faddOp f rm b a = inf m ∧ fsubOp f rm b a = inf (!m) ∧
      (y ≠ 0 → fmulOp f rm a b = inf ps ∧ fmulOp f rm b a = inf ps) ∧
      (y = 0 → fmulOp f rm a b = (f.nan, flIV) ∧ fmulOp f rm b a = (f.nan, flIV) ∧
        ∀ v, ffmaB f rm (fdec f a) (fdec f b) v = (f.nan, flIV) ∧ ffmaB f rm (fdec f b) (fdec f a) v = (f.nan, flIV))) ∧
    (∀ x y m, f.value a = some x → f.value b = some y → fdec f d = .inf m →
      ffmaB f rm (fdec f a) (fdec f b) (fdec f d) = inf m) ∧
    ∀ p q, f.place a = some p → f.place b = some q →
      (Below p q → fminOp f rm a b = (a, 0) ∧ fmaxOp f rm a b = (b, 0)) ∧
      (Below q p → fminOp f rm a b = (b, 0) ∧ fmaxOp f rm a b = (a, 0)) ∧
      (p = q → f.sign a = f.sign b → fminOp f rm a b = (a, 0) ∧ fmaxOp f rm a b = (a, 0)) ∧
      (p = q → f.sign a = true → f.sign b = false → fminOp f rm a b = (a, 0) ∧ fmaxOp f rm a b = (b, 0)) ∧
      (p = q → f.sign a = false → f.sign b = true → fminOp f rm a b = (b, 0) ∧ fmaxOp f rm a b = (a, 0))

/-- 08_lane_arithmetic R207, R208, R209: `fcmp` into a predicate; `fclass`, `frnd`, `fcvt` into lanes, with their flags. 
The compares are of the operands' places in the order of the numbers; the class is read off the fields; a rounding to an integral
number, the conversions and their flags are given outright. -/
def Obligations.FloatCompareConvert : Prop := (∀ (cc : FCc) (g : GI),
  PredForm (.fcmp cc g) (giStrict g) opsAB
    (fun e l => (fcmpB cc (fdec (fmtOf (giTy g)) (gfA g e l 0)) (fdec (fmtOf (giTy g)) (gfB g e l 0))).1)
    (fun e l => (fcmpB cc (fdec (fmtOf (giTy g)) (gfA g e l 0)) (fdec (fmtOf (giTy g)) (gfB g e l 0))).2)) ∧
  (∀ w : GenW,
    LaneForm (.fclass w) w.strict opsA 1
      (fun e l => (perElem w.ty fun k => (fclassB (fmtOf w.ty) (fdec (fmtOf w.ty) (elemOf w.ty k (opLane e.a l))), 0)).1)
      (fun e l => (perElem w.ty fun k => (fclassB (fmtOf w.ty) (fdec (fmtOf w.ty) (elemOf w.ty k (opLane e.a l))), 0)).2) ∧
    LaneForm (.frnd w) w.strict opsA 1
      (fun e l => (perElem w.ty fun k => frndB (fmtOf w.ty) w.rm.toNat (fdec (fmtOf w.ty) (elemOf w.ty k (opLane e.a l)))).1)
      (fun e l => (perElem w.ty fun k => frndB (fmtOf w.ty) w.rm.toNat (fdec (fmtOf w.ty) (elemOf w.ty k (opLane e.a l)))).2) ∧
    LaneForm (.fcvt w) w.strict opsAB (fcvtRegs w) (fun e l => (fcvtLane w e l).1) (fun e l => (fcvtLane w e l).2)) ∧
  (∀ (w : GenW) (e : Env) (l : Nat), let it : BitVec 3 := w.opx.setWidth 3
    fcvtLane w e l =
      if w.nb then
        (deliver it false (fcvtFI (tyBits it) (tySigned it) w.rm.toNat (fdec (fmtOf w.ty) (elemOf w.ty 0 (opLane e.a l)))).1,
          (fcvtFI (tyBits it) (tySigned it) w.rm.toNat (fdec (fmtOf w.ty) (elemOf w.ty 0 (opLane e.a l)))).2)
      else if 8 ≤ w.opx.toNat then fcvtIF (fmtOf w.ty) w.rm.toNat (intOf it (opLane e.a l))
      else if isX2 w.ty then
        let lo := fcvtFF (fmtOf w.ty) w.rm.toNat (fdec f32 (opLane e.a l % 2 ^ 32))
        let hi := fcvtFF (fmtOf w.ty) w.rm.toNat (fdec f32 (opLane e.b l % 2 ^ 32))
        (lo.1 % 2 ^ 16 + 2 ^ 16 * hi.1, lo.2 ||| hi.2)
      else fcvtFF (fmtOf w.ty) w.rm.toNat (fdec (fmtOf it) (elemOf it 0 (opLane e.a l)))) ∧
  (∀ f ∈ [f32, f16, bf16], ∀ a < 2 * f.top, ∀ b < 2 * f.top, ∀ p q, f.place a = some p → f.place b = some q →
    ∀ cc, (fcmpB cc (fdec f a) (fdec f b)).2 = 0 ∧ ((fcmpB cc (fdec f a) (fdec f b)).1 = true ↔ match cc with
      | .eq => p = q
      | .ne => p ≠ q
      | .lt => Below p q
      | .le => Below p q ∨ p = q
      | .gt => Below q p
      | .ge => Below q p ∨ p = q
      | .un => False
      | .ord => True)) ∧
  (∀ f ∈ [f32, f16, bf16], ∀ a < 2 * f.top, let e := a / 2 ^ f.p % 2 ^ f.eb; let m := a % 2 ^ f.p
    fclassB f (fdec f a) = 2 ^ (
      if e = 2 ^ f.eb - 1 then (if m = 0 then (if f.sign a then 2 else 9) else if m < 2 ^ (f.p - 1) then 0 else 1)
      else if e = 0 then (if m = 0 then (if f.sign a then 5 else 6) else if f.sign a then 4 else 7)
      else if f.sign a then 3 else 8)) ∧
  ∀ f ∈ [f32, f16, bf16], ∀ rm < 4, ∀ a < 2 * f.top,
    let sg (t : Fmt) : Nat := if f.sign a then t.top else 0
    (∀ x, f.value a = some x →
      (∃ n : Int, RoundsInt rm x n ∧ f.value (frndB f rm (fdec f a)).1 = some (n : ℚ) ∧
        f.sign (frndB f rm (fdec f a)).1 = f.sign a ∧ (frndB f rm (fdec f a)).2 = 0) ∧
      (∀ t ∈ [f32, f16, bf16], (x ≠ 0 → Rounds t rm (x : ℝ) (fcvtFF t rm (fdec f a))) ∧
        (x = 0 → fcvtFF t rm (fdec f a) = (sg t, 0))) ∧
      ∀ (w : Nat) (signed : Bool), 0 < w →
        let lo : Int := if signed then -(2 ^ (w - 1)) else 0
        let hi : Int := if signed then 2 ^ (w - 1) - 1 else 2 ^ w - 1
        ∃ n : Int, RoundsInt rm x n ∧ fcvtFI w signed rm (fdec f a) =
          if n < lo then (lo, flIV) else if hi < n then (hi, flIV) else (n, if (n : ℚ) = x then 0 else flIX)) ∧
    (∀ n, fdec f a = .inf n → frndB f rm (fdec f a) = (a, 0) ∧
      (∀ t, fcvtFF t rm (fdec f a) = (if n then t.top + t.infBits else t.infBits, 0)) ∧
      ∀ w signed, fcvtFI w signed rm (fdec f a) = (if n then (if signed then -(2 ^ (w - 1)) else 0)
        else if signed then 2 ^ (w - 1) - 1 else 2 ^ w - 1, flIV)) ∧
    (∀ sn, fdec f a = .nan sn → frndB f rm (fdec f a) = (f.nan, flagIf sn flIV) ∧
      (∀ t, fcvtFF t rm (fdec f a) = (t.nan, flagIf sn flIV)) ∧ ∀ w signed, fcvtFI w signed rm (fdec f a) = (0, flIV)) ∧
    ∀ v : Int, (v ≠ 0 → Rounds f rm (v : ℝ) (fcvtIF f rm v)) ∧ (v = 0 → fcvtIF f rm v = (0, 0))

/-- 08_lane_arithmetic R210: `frcp`, `frsq`, `fsqrt`, `fexp2`, `flog2`, `fsin`, `fcos`, and what they give for the special
FP32 operands: NaN, the infinities, the zeros, a negative root or logarithm.
And 08_lane_arithmetic R194, R206, R207: every NaN that an arithmetic form produces is the canonical one of its type, a
signalling operand raises IV; `fmin` and `fmax` give the operand that is no NaN; the compares with a NaN operand. 
A finite root is the exact one, rounded once. The exact cases of the other forms are exact; else an FP32 result lies within the
bound of R210, over 2^-30 of it in the forms whose exact value no rational number is (the model's own choice: log entry 7); the
result for FP16 and BF16 is the FP32 one for the widened operand, rounded to the type. -/
def Obligations.FloatFunctionsAndNaNs : Prop := ((∀ w : GenW,
  (∀ p ∈ ([(Instr.frcp, 0), (Instr.frsq, 1), (Instr.fexp2, 3), (Instr.flog2, 4), (Instr.fsin, 5), (Instr.fcos, 6)] :
      List ((GenW → Instr) × Nat)),
    LaneForm (p.1 w) w.strict opsA 1 (fun e l => (perElem w.ty fun k => transcB (fmtOf w.ty) p.2 (elemOf w.ty k (opLane e.a l))).1)
      (fun e l => (perElem w.ty fun k => transcB (fmtOf w.ty) p.2 (elemOf w.ty k (opLane e.a l))).2)) ∧
  LaneForm (.fsqrt w) w.strict opsA 1
    (fun e l => (perElem w.ty fun k => fsqrtB (fmtOf w.ty) w.rm.toNat (elemOf w.ty k (opLane e.a l))).1)
    (fun e l => (perElem w.ty fun k => fsqrtB (fmtOf w.ty) w.rm.toNat (elemOf w.ty k (opLane e.a l))).2)) ∧
  (∀ form, transcB f32 form 0x7FC00000 = (0x7FC00000, 0) ∧ transcB f32 form 0x7F800001 = (0x7FC00000, flIV)) ∧
  transcB f32 0 0 = (0x7F800000, flDZ) ∧ transcB f32 0 0x80000000 = (0xFF800000, flDZ) ∧
  transcB f32 0 0x7F800000 = (0, 0) ∧ transcB f32 0 0xFF800000 = (0x80000000, 0) ∧
  transcB f32 1 0 = (0x7F800000, flDZ) ∧ transcB f32 1 0x80000000 = (0xFF800000, flDZ) ∧ transcB f32 1 0x7F800000 = (0, 0) ∧
  transcB f32 3 0xFF800000 = (0, 0) ∧ transcB f32 3 0x7F800000 = (0x7F800000, 0) ∧
  transcB f32 4 0 = (0xFF800000, flDZ) ∧ transcB f32 4 0x80000000 = (0xFF800000, flDZ) ∧
  transcB f32 4 0x7F800000 = (0x7F800000, 0) ∧
  transcB f32 5 0x7F800000 = (0x7FC00000, flIV) ∧ transcB f32 6 0xFF800000 = (0x7FC00000, flIV) ∧
  transcB f32 5 0 = (0, 0) ∧ transcB f32 5 0x80000000 = (0x80000000, 0) ∧ transcB f32 6 0 = (0x3F800000, 0) ∧
  ∀ x : Word, 0x80000000 < x.toNat → x.toNat ≤ 0xFF800000 →
    transc32 1 x = (0x7FC00000, flIV) ∧ transc32 4 x = (0x7FC00000, flIV) ∧ ∀ rm, fsqrtB f32 rm x.toNat = (0x7FC00000, flIV)) ∧
  (∀ (f : Fmt) (rm : RMode) (a b d : FV) (x y : Nat),
  ((a.isNan || b.isNan) = true → (faddB f rm a b).1 = f.nan ∧ (fmulB f rm a b).1 = f.nan ∧ (ffmaB f rm a b d).1 = f.nan) ∧
  (d.isNan = true → (ffmaB f rm a b d).1 = f.nan) ∧
  (a = .nan true ∨ b = .nan true → (faddB f rm a b).2 &&& flIV = flIV ∧ (fmulB f rm a b).2 &&& flIV = flIV ∧
    (ffmaB f rm a b d).2 &&& flIV = flIV ∧ (∀ mx, (fminmax f mx x y a b).2 = flIV) ∧ ∀ cc, (fcmpB cc a b).2 = flIV) ∧
  (a.isNan = true → b.isNan = false → ∀ mx, (fminmax f mx x y a b).1 = y) ∧
  (a.isNan = false → b.isNan = true → ∀ mx, (fminmax f mx x y a b).1 = x) ∧
  (a.isNan = true → b.isNan = true → ∀ mx, (fminmax f mx x y a b).1 = f.nan) ∧
  ((a.isNan || b.isNan) = true → ∀ cc, (fcmpB cc a b).1 = (cc == .ne || cc == .un)) ∧
  (a = .nan false → b ≠ .nan true → (fcmpB .eq a b).2 = 0 ∧ (fcmpB .ne a b).2 = 0 ∧ (fcmpB .lt a b).2 = flIV ∧
    (fcmpB .le a b).2 = flIV ∧ (fcmpB .gt a b).2 = flIV ∧ (fcmpB .ge a b).2 = flIV ∧ (fcmpB .un a b).2 = 0 ∧
    (fcmpB .ord a b).2 = 0)) ∧
  (∀ f ∈ [f32, f16, bf16], ∀ rm < 4, ∀ b < f.top, ∀ x, f.value b = some x → 0 < x →
    Rounds f rm (Real.sqrt (x : ℝ)) (fsqrtB f rm b) ∧ fsqrtB f rm (f.top + b) = (f.nan, flIV) ∧
    fsqrtB f rm 0 = (0, 0) ∧ fsqrtB f rm f.top = (f.top, 0) ∧ fsqrtB f rm f.infBits = (f.infBits, 0)) ∧
  (∀ b < 2 * f32.top, ∀ x, f32.value b = some x → x ≠ 0 → let slack : ℝ := 2 + 2 ^ (-30 : ℤ)
    (∀ k : Int, |x| = 2 ^ k → k ≤ 127 → -127 ≤ k → f32.value (transcB f32 0 b).1 = some (1 / x) ∧ (transcB f32 0 b).2 = 0) ∧
    (|x| ≤ 2 ^ (-128 : ℤ) → transcB f32 0 b = (f32.infBits + (if f32.sign b then f32.top else 0), flOF ||| flIX)) ∧
    ((∀ k : Int, |x| ≠ 2 ^ k) → 2 ^ (-128 : ℤ) < |x| → Approx 1 0 (1 / (x : ℝ)) (transcB f32 0 b)) ∧
    (∀ k : Int, x = 2 ^ (2 * k) → f32.value (transcB f32 1 b).1 = some (2 ^ (-k)) ∧ (transcB f32 1 b).2 = 0) ∧
    (0 < x → (∀ k : Int, x ≠ 2 ^ (2 * k)) → Approx 1 0 (1 / Real.sqrt (x : ℝ)) (transcB f32 1 b)) ∧
    (∀ k : Int, x = k → -149 ≤ k → k ≤ 127 → f32.value (transcB f32 3 b).1 = some (2 ^ k) ∧ (transcB f32 3 b).2 = 0) ∧
    (128 ≤ x → transcB f32 3 b = (f32.infBits, flOF ||| flIX)) ∧
    (x < 128 → (∀ k : Int, x = k → k < -149) → Approx slack 0 ((2 : ℝ) ^ (x : ℝ)) (transcB f32 3 b)) ∧
    (∀ k : Int, x = 2 ^ k → f32.value (transcB f32 4 b).1 = some (k : ℚ) ∧ (transcB f32 4 b).2 = 0) ∧
    (0 < x → (∀ k : Int, x ≠ 2 ^ k) → Approx slack 0 (Real.logb 2 (x : ℝ)) (transcB f32 4 b)) ∧
    Approx slack ((1 + 2 ^ (-30 : ℤ)) * 2 ^ (-24 : ℤ)) (Real.sin (x : ℝ)) (transcB f32 5 b) ∧
    Approx slack ((1 + 2 ^ (-30 : ℤ)) * 2 ^ (-24 : ℤ)) (Real.cos (x : ℝ)) (transcB f32 6 b)) ∧
  ∀ f ∈ [f16, bf16], ∀ form ∈ [0, 1, 3, 4, 5, 6], ∀ b < 2 * f.top, ∀ x, f.value b = some x →
    ∃ w < 2 * f32.top, f32.value w = some x ∧ f32.sign w = f.sign b ∧
      let r := transcB f32 form w
      let n := fcvtFF f 0 (fdec f32 r.1)
      (transcB f form b).1 = n.1 ∧
      (transcB f form b).2 = (r.2 &&& (flIV ||| flDZ ||| flOF)) ||| (n.2 &&& flOF) |||
        flagIf ((r.2 ||| n.2) &&& flIX != 0) flIX |||
        flagIf ((r.2 ||| n.2) &&& flIX != 0 && decide (n.1 % f.top < 2 ^ f.p)) flUF

/-- 09_narrow_formats R222 to R225: the dot products, `kscale`, `kpack`, `kunpack`, in the lanes of E with their flags; and
what a NaN sum or a sum beyond the range gives. 
A dot product, a scaled sum, a quantised element and an unpacked one are given as the exact numbers they come from, with each
rounding and its flags, and where the elements stand in the register. -/
def Obligations.NarrowForms : Prop := (∀ w : GenW,
  LaneForm (.kdot4 w) w.strict opsABD 1
    (fun e l => addBlock w.sat (opLane e.d l) (dotElems (if w.ty = 1 then k4Elem else k8Elem) (opLane e.a l) (opLane e.b l) 4)) noFlag ∧
  LaneForm (.kdot8 w) w.strict opsABD 1
    (fun e l => addBlock w.sat (opLane e.d l) (dotElems (if w.ty = 1 then k4Elem else k8Elem) (opLane e.a l) (opLane e.b l) 8)) noFlag ∧
  LaneForm (.kscale w) w.strict opsAB 1 (fun e l => (kscaleB (opLane e.a l % 2 ^ 32) (opLane e.b l)).1)
    (fun e l => (kscaleB (opLane e.a l % 2 ^ 32) (opLane e.b l)).2) ∧
  LaneForm (.kpack w) w.strict opsABD 1
    (fun e l => (kpackB (w.ty == 1) (w.opx.getLsbD 0) w.rm.toNat (opLane e.a l) (opLane e.b l) (opLane e.d l)).1)
    (fun e l => (kpackB (w.ty == 1) (w.opx.getLsbD 0) w.rm.toNat (opLane e.a l) (opLane e.b l) (opLane e.d l)).2) ∧
  LaneForm (.kunpack w) w.strict opsAB 4 (fun e l => (kunpackB (w.ty == 1) (w.opx.getLsbD 0) (opLane e.a l) (opLane e.b l)).1)
    (fun e l => (kunpackB (w.ty == 1) (w.opx.getLsbD 0) (opLane e.a l) (opLane e.b l)).2)) ∧
  (∀ (sat : Bool) (d : Nat) (p : Int), d < 2 ^ 32 →
    addBlock sat d none = 0x80000000 ∧ addBlock sat 0x80000000 (some p) = 0x80000000 ∧
    (d ≠ 0x80000000 → -(2 ^ 31 - 1) ≤ sextNat 32 d + p → sextNat 32 d + p ≤ 2 ^ 31 - 1 →
      sextNat 32 (addBlock sat d (some p)) = sextNat 32 d + p) ∧
    (d ≠ 0x80000000 → 2 ^ 31 - 1 < sextNat 32 d + p → addBlock sat d (some p) = if sat then 0x7FFFFFFF else 0x80000000) ∧
    (d ≠ 0x80000000 → sextNat 32 d + p < -(2 ^ 31 - 1) → addBlock sat d (some p) = if sat then 0x80000001 else 0x80000000)) ∧
  (∀ el ∈ [k4Elem, k8Elem], ∀ a b n,
    ((∃ i < n, el a i = none ∨ el b i = none) → dotElems el a b n = none) ∧
    ∀ x y : Nat → Int, (∀ i < n, el a i = some (x i) ∧ el b i = some (y i)) →
      dotElems el a b n = some ((List.range n).map fun i => x i * y i).sum) ∧
  (∀ a < 2 ^ 32, ∀ b, let sa := b % 256; let sb := b / 256 % 256
    (a = 0x80000000 ∨ sa = 0x80 ∨ sb = 0x80 → kscaleB a b = (0x7FC00000, 0)) ∧
    (a ≠ 0x80000000 → sa ≠ 0x80 → sb ≠ 0x80 → if a = 0 then kscaleB a b = (0, 0)
      else Rounds f32 0 ((sextNat 32 a : ℝ) * 2 ^ (sextNat 8 sa + sextNat 8 sb)) (kscaleB a b))) ∧
  (∀ (k4 : Bool), ∀ rm < 4, ∀ sc < 256, ∀ x < 2 ^ 32,
    let mx : Int := if k4 then 7 else 127
    let r := quantise k4 rm sc x
    let el := (if k4 then k4Elem else k8Elem) r.1 0
    r.1 < (if k4 then 16 else 256) ∧
    (sc = 0x80 ∨ (fdec f32 x).isNan = true → el = none ∧ r.2 = if fdec f32 x = .nan true then flIV else 0) ∧
    (∀ n, sc ≠ 0x80 → fdec f32 x = .inf n → el = some (if n then -mx else mx) ∧ r.2 = flOF ||| flIX) ∧
    ∀ v, sc ≠ 0x80 → f32.value x = some v → let q := v * 2 ^ (-sextNat 8 sc)
      ∃ n : Int, RoundsInt rm q n ∧
        (mx < |n| → el = some (if n < 0 then -mx else mx) ∧ r.2 = flOF ||| flIX) ∧
        (|n| ≤ mx → el = some n ∧ r.2 = if (n : ℚ) = q then 0 else flIX)) ∧
  (∀ (hi : Bool) (rm : RMode) (a b d : Nat),
    let q (k4 : Bool) (i : Nat) : Nat × Word := quantise k4 rm (b % 256) (a / 2 ^ (32 * i) % 2 ^ 32)
    let base : Nat := if hi then 16 else 0
    (∀ k4, (kpackB k4 hi rm a b d).1 < 2 ^ 32 ∧
      (kpackB k4 hi rm a b d).2 = (q k4 0).2 ||| (q k4 1).2 ||| (q k4 2).2 ||| (q k4 3).2) ∧
    (∀ i < 4, (kpackB false hi rm a b d).1 / 2 ^ (8 * i) % 256 = (q false i).1 ∧
      (kpackB true hi rm a b d).1 / 2 ^ (base + 4 * i) % 16 = (q true i).1) ∧
    (kpackB true hi rm a b d).1 / 2 ^ (16 - base) % 2 ^ 16 = d / 2 ^ (16 - base) % 2 ^ 16) ∧
  ∀ (k4 hi : Bool) (a b : Nat), let sc := b % 256
    ∃ fl : Nat → Word, (kunpackB k4 hi a b).1 < 2 ^ 128 ∧ (kunpackB k4 hi a b).2 = fl 0 ||| fl 1 ||| fl 2 ||| fl 3 ∧
      ∀ i < 4, let w := (kunpackB k4 hi a b).1 / 2 ^ (32 * i) % 2 ^ 32
        let el := if k4 then k4Elem a (if hi then i + 4 else i) else k8Elem a i
        (el = none ∨ sc = 0x80 → w = 0x7FC00000 ∧ fl i = 0) ∧
        ∀ e, el = some e → sc ≠ 0x80 → if e = 0 then w = 0 ∧ fl i = 0
          else Rounds f32 0 ((e : ℝ) * 2 ^ sextNat 8 sc) (w, fl i)

/-- 07_registers R183 to R185: the occupancy forms read the map of A as data. `occ.get` and `occ.cnt` write a scalar, `occ.set`
a predicate over all of L, `occ.and` thins, `occ.fill` fills, `occ.pack` moves the k-th occupied lane of A within L to the k-th
lane of L, and `occ.unpack` moves the k-th lane of L of A to the k-th lane of the mask within L.
And 08_lane_arithmetic R213: `s.rdl` and `v.bcast` read lane s[B] mod 32 of A, whole registers whatever L; an absent lane gives
0 or no lane, or OCCMISM under `.x`. -/
def Obligations.OccupancyAndLaneMoves : Prop := (∀ (w : GenW) (s : State) (c : Ctx) (t k : Nat) (x : Warp),
  (WarpIssues s c (.occGet w) t k x → ∃ s', exec (.occGet w) s = .next s' ∧
    ScalarDone s s' c (.occGet w) t k x (s.envOf c (.occGet w)).dst [opMap (s.envOf c (.occGet w)).a &&& c.lm]) ∧
  (WarpIssues s c (.occCnt w) t k x → ∃ s', exec (.occCnt w) s = .next s' ∧
    ScalarDone s s' c (.occCnt w) t k x (s.envOf c (.occCnt w)).dst
      [BitVec.ofNat 32 (popcount (opMap (s.envOf c (.occCnt w)).a &&& c.lm))]) ∧
  (WarpIssues s c (.occSet w) t k x → ∃ s', exec (.occSet w) s = .next s' ∧
    PredDone s s' c (.occSet w) t k x (s.envOf c (.occSet w)).dst (dKp (shape (.occSet w))) c.lm
      (fun l => (opMap (s.envOf c (.occSet w)).a).getLsbD l) 0) ∧
  (WarpIssues s c (.occAnd w) t k x → ∃ s', exec (.occAnd w) s = .next s' ∧
    let e := s.envOf c (.occAnd w)
    LaneDone s s' c (.occAnd w) t k x e.dst 1 (dKp (shape (.occAnd w))) (opMap e.a &&& c.lm &&& BitVec.ofNat 32 (opScal e.b))
      (opLane e.a) 0) ∧
  (WarpIssues s c (.occFill w) t k x → ∃ s', exec (.occFill w) s = .next s' ∧
    let e := s.envOf c (.occFill w)
    LaneDone s s' c (.occFill w) t k x e.dst 1 (dKp (shape (.occFill w))) (c.lm &&& (opMap e.a ||| opMap e.b))
      (fun l => if (opMap e.a).getLsbD l then opLane e.a l else opLane e.b l) 0) ∧
  (WarpIssues s c (.occPack w) t k x → ∃ s', exec (.occPack w) s = .next s' ∧
    let e := s.envOf c (.occPack w)
    let m := opMap e.a &&& c.lm
    ∃ (en : Lanes) (f : Nat → Nat), LaneDone s s' c (.occPack w) t k x e.dst 1 (dKp (shape (.occPack w))) en f 0 ∧
      (∀ n, n < popcount m → en.getLsbD (laneAt c.lm n) = true ∧ f (laneAt c.lm n) = opLane e.a (laneAt m n)) ∧
      ∀ l, l < 32 → en.getLsbD l = true → ∃ n, n < popcount m ∧ l = laneAt c.lm n) ∧
  (WarpIssues s c (.occUnpack w) t k x → ∃ s', exec (.occUnpack w) s = .next s' ∧
    let e := s.envOf c (.occUnpack w)
    let m := BitVec.ofNat 32 (opScal e.b) &&& c.lm
    ∃ (en : Lanes) (f : Nat → Nat), LaneDone s s' c (.occUnpack w) t k x e.dst 1 (dKp (shape (.occUnpack w))) en f 0 ∧
      (∀ n, n < popcount m → en.getLsbD (laneAt m n) = (opMap e.a).getLsbD (laneAt c.lm n) ∧
        (en.getLsbD (laneAt m n) = true → f (laneAt m n) = opLane e.a (laneAt c.lm n))) ∧
      ∀ l, l < 32 → en.getLsbD l = true → m.getLsbD l = true)) ∧
  (∀ (w : GenW) (s : State) (c : Ctx) (t k : Nat) (x : Warp) (i : Instr),
  i ∈ [Instr.sRdl w, .vBcast w] → WarpIssues s c i t k x →
    let e := s.wideEnv c i
    let n := opScal e.b % 32
    let has := (opMap e.a).getLsbD n
    ((w.strict && !has) = true → exec i s = .next (s.trapNow c i (mismTrap c.lm [e.a]))) ∧
    ((w.strict && !has) = false → ∃ s', exec i s = .next s' ∧
      (i = .sRdl w → ScalarDone s s' c i t k x e.dst (words (iw w.ty) (if has then opLane e.a n else 0))) ∧
      (i = .vBcast w → LaneDone s s' c i t k x e.dst (iw w.ty) (dKp (shape i)) (if has then c.lm else 0) (fun _ => opLane e.a n) 0)))

/-- 10_lane_crossbar R230 to R233: the shuffles. A member lane of the fragment takes A of its source lane where that is in
range, a member, and occupied; the strict form traps OCCMISM unless every member of the fragment receives a value.
And 10_lane_crossbar R234: the votes. -/
def Obligations.ShufflesAndVotes : Prop := (∀ (w : XbW) (op : XbW → Instr) (src : Nat → Nat → Option Nat),
  (op, src) ∈ ([(Instr.shflIdx, fun _ b => some b), (Instr.shflUp, fun l b => if b ≤ l then some (l - b) else none),
    (Instr.shflDn, fun l b => some (l + b)), (Instr.shflXor, fun l b => some (Nat.xor l b))] :
      List ((XbW → Instr) × (Nat → Nat → Option Nat))) →
  ∀ (s : State) (c : Ctx) (t k : Nat) (x : Warp), WarpIssues s c (op w) t k x →
    let e := s.wideEnv c (op w)
    let m := members w e
    let b (l : Nat) : Nat := if w.bi then w.b.num.toNat else opLane e.b l % 2 ^ 32
    let gets (l : Nat) : Bool := (c.lm &&& m &&& opMap e.b).getLsbD l &&
      (src l (b l)).any fun j => decide (j < 32) && m.getLsbD j && (opMap e.a).getLsbD j
    ((w.strict && (List.range 32).any fun l => (c.lm &&& m).getLsbD l && !gets l) = true →
      exec (op w) s = .next (s.trapNow c (op w) (mismTrap c.lm [e.a, e.b]))) ∧
    ((w.strict && (List.range 32).any fun l => (c.lm &&& m).getLsbD l && !gets l) = false → ∃ s', exec (op w) s = .next s' ∧
      LaneDone s s' c (op w) t k x e.dst (xw w.ty) (dKp (shape (op w))) (laneMap gets)
        (fun l => opLane e.a ((src l (b l)).getD 0)) 0)) ∧
  (∀ (w : XbW) (i : Instr) (s : State) (c : Ctx) (t k : Nat) (x : Warp),
  i ∈ [Instr.voteAny w, .voteAll w, .voteBal w] → WarpIssues s c i t k x →
    let e := s.envOf c i
    let m := c.lm &&& members w e
    let p := opMap e.a &&& m
    let tr := laneMap fun l => p.getLsbD l && e.a.any (·.truth l)
    ((w.strict && p != m) = true → exec i s = .next (s.trapNow c i (mismTrap c.lm [e.a]))) ∧
    ((w.strict && p != m) = false → ∃ s', exec i s = .next s' ∧
      (i = .voteAny w → PredDone s s' c i t k x e.dst (dKp (shape i)) m (fun _ => decide (tr ≠ 0)) 0) ∧
      (i = .voteAll w → PredDone s s' c i t k x e.dst (dKp (shape i)) m (fun _ => decide (tr = p)) 0) ∧
      (i = .voteBal w → ScalarDone s s' c i t k x e.dst [tr])))

/-- 10_lane_crossbar R235 to R237: scans and reductions over the present members in lane order, through the architected tree;
and the tree itself: a leaf, or the halves at the largest power of two below the count; an integer addition is the sum. -/
def Obligations.ScansAndReductions : Prop := (∀ (op : XOp) (w : XbW) (s : State) (c : Ctx) (t k : Nat) (x : Warp),
  (WarpIssues s c (.scan op w) t k x →
    let e := s.envOf c (.scan op w)
    let m := c.lm &&& members w e
    let p := opMap e.a &&& m
    let xs := (lanesOf p).map fun l => xopBits op w.ty (opLane e.a l)
    let r (n : Nat) : Nat × Word := xopTree op w.ty 6 (xs.take (if w.opt then n else n + 1))
    ((w.strict && p != m) = true → exec (.scan op w) s = .next (s.trapNow c (.scan op w) (mismTrap c.lm [e.a]))) ∧
    ((w.strict && p != m) = false → ∃ s', exec (.scan op w) s = .next s' ∧ ∃ f : Nat → Nat,
      LaneDone s s' c (.scan op w) t k x e.dst (xopW op w.ty) (dKp (shape (.scan op w))) p f
        (flagsOr ((List.range (popcount p)).map fun n => (r n).2)) ∧
      ∀ n, n < popcount p → f (laneAt p n) = (r n).1)) ∧
  (WarpIssues s c (.red op w) t k x →
    let e := s.envOf c (.red op w)
    let m := c.lm &&& members w e
    let p := opMap e.a &&& m
    let r := xopTree op w.ty 6 ((lanesOf p).map fun l => xopBits op w.ty (opLane e.a l))
    ((w.strict && p != m) = true → exec (.red op w) s = .next (s.trapNow c (.red op w) (mismTrap c.lm [e.a]))) ∧
    ((w.strict && p != m) = false → ∃ s', exec (.red op w) s = .next s' ∧
      (w.opt = false → LaneDone s s' c (.red op w) t k x e.dst (xopW op w.ty) (dKp (shape (.red op w))) p (fun _ => r.1)
        (if p = 0 then 0 else r.2)) ∧
      (w.opt = true → ∃ y, WarpRetires s s' c t k x y ∧ { y.still with regs := x.regs, fst := x.fst } = x.still ∧
        y.fst = x.fst ||| r.2 ∧ OnlyMarks (.red op w) x y ∧ ScalarsSet x.regs y.regs e.dst (words (xopW op w.ty) r.1))))) ∧
  ∀ (op : XOp) (ty : BitVec 3), xopTree op ty 6 [] = (xopId op ty, 0) ∧
    (∀ v, xopTree op ty 6 [v] = xopLeaf op ty v) ∧
    (∀ l h : List Nat, l ≠ [] → h ≠ [] → h.length ≤ l.length → (l ++ h).length ≤ 32 → l.length = 2 ^ Nat.log2 l.length →
      (xopTree op ty 6 (l ++ h)).1 = (xopF op ty (xopTree op ty 6 l).1 (xopTree op ty 6 h).1).1) ∧
    ∀ l : List Nat, l.length ≤ 32 → (∀ v ∈ l, v < 2 ^ tyBits ty) → (xopTree .add ty 6 l).1 = l.sum % 2 ^ tyBits ty

/-- 10_lane_crossbar R239: `rebal`. With S the prefix sums of the row lengths, the j-th lane of L takes the row and the offset of
item base + j where that lies below the total; the total goes to a scalar, a negative length counts as zero and sets NEGLEN, and
the strict form traps on it. -/
def Obligations.Rebalance : Prop := (∀ (w : RebalW) (s : State) (c : Ctx) (t k : Nat) (x : Warp), WarpIssues s c (.rebal w) t k x →
    let e := s.envOf c (.rebal w)
    let p := opMap e.a &&& c.lm
    let raw := (lanesOf p).map fun l => sextNat 32 (opLane e.a l)
    let lens := raw.map Int.toNat
    let item (l : Nat) : Option (Nat × Nat) := if c.lm.getLsbD l then rebalAt (opScal e.b % 2 ^ 32 + rankOf c.lm l) 0 lens else none
    ((w.strict && raw.any (· < 0)) = true →
      exec (.rebal w) s = .next (s.trapNow c (.rebal w) { plainTrap cNEGLEN with cmap := p })) ∧
    ((w.strict && raw.any (· < 0)) = false → ∃ s' y, exec (.rebal w) s = .next s' ∧ WarpRetires s s' c t k x y ∧
      { y.still with regs := x.regs, wst := x.wst } = x.still ∧
      y.wst = (if raw.any (· < 0) then x.wst ||| wsNEGLEN else x.wst) ∧
      ScalarsSet x.regs y.regs w.ts.toNat [BitVec.ofNat 32 (min lens.sum (2 ^ 32 - 1))] ∧
      ∀ r l, l < 32 → tget (y.vr r) l =
        if r ∈ marksOf x.regs (.rebal w) then none
        else if r = e.dst ∨ r = e.dst + 1 then
          match item l with
          | some (n, o) => some (BitVec.ofNat 32 (if r = e.dst then (lanesOf p).getD n 0 else o))
          | none => if c.lm.getLsbD l && !dKp (shape (.rebal w)) then none else tget (x.vr r) l
        else tget (x.vr r) l)) ∧
  ∀ (v : Nat) (lens : List Nat) (n o : Nat), rebalAt v 0 lens = some (n, o) ↔
    n < lens.length ∧ v = (lens.take n).sum + o ∧ o < lens.getD n 0

/-- 02_instruction_words R43 to R46: a pair word performs slot 1 and then slot 2 in their lanes, with the flags of both; under CH
slot 2 reads slot 1's result; if a strict slot's operands differ, the word traps and neither slot takes effect.
And each slot computes what its full-word counterpart does, with D as the first source and A as the second; an immediate A is the
integer itself. -/
def Obligations.PairWords : Prop := (∀ (ch : Bool) (a b : PSlot) (s : State) (c : Ctx) (t k : Nat) (x : Warp),
  WarpIssues s c (.pairWord ch a b) t k x →
    let i : Instr := .pairWord ch a b
    let v := pairEnvs ch a b (pairRecs s c.cur.unit c.lm ch a b)
    let m1 := slotMap c.lm v.1
    let y : SlotEnv := if ch && !b.imm && b.a == a.d then ⟨v.2.d, [slotFwd a c.lm m1 v.1]⟩ else v.2
    let m2 := slotMap c.lm y
    let bad1 := occMism c.lm [v.1.d, v.1.a]
    let bad2 := occMism c.lm [y.d, y.a]
    let r1 (l : Nat) : Nat × Word := slotLane a (opLane v.1.d l) (slotSrc a v.1 l)
    let r2 (l : Nat) : Nat × Word := slotLane b (opLane y.d l) (slotSrc b y l)
    (((a.strict && bad1) || (b.strict && bad2)) = true → exec i s = .next (s.trapNow c i
      { plainTrap cOCCMISM with cmap := slotCmap c.lm a v.1 bad1 ||| slotCmap c.lm b y bad2 })) ∧
    (((a.strict && bad1) || (b.strict && bad2)) = false → ∃ s' z, exec i s = .next s' ∧ WarpRetires s s' c t k x z ∧
      { z.still with fst := x.fst } = x.still ∧
      z.fst = x.fst ||| flagsOr ((lanesOf m1).map fun l => (r1 l).2) ||| flagsOr ((lanesOf m2).map fun l => (r2 l).2) ∧
      ∀ r l, l < 32 → tget (z.vr r) l =
        if r ∈ marksOf x.regs i then none
        else if r = b.d.toNat then (if m2.getLsbD l then some (BitVec.ofNat 32 (r2 l).1)
          else if c.lm.getLsbD l && !b.kp then none else tget (x.vr r) l)
        else if r = a.d.toNat then (if m1.getLsbD l then some (BitVec.ofNat 32 (r1 l).1)
          else if c.lm.getLsbD l && !a.kp then none else tget (x.vr r) l)
        else tget (x.vr r) l)) ∧
  ∀ p : PSlot,
    let d : RF := ⟨p.kp, false, p.d⟩
    let src : RF := ⟨false, false, p.d⟩
    let a : RF := ⟨p.al, false, p.a⟩
    let two (ty : BitVec 3) : GenW := ⟨d, src, a, ty, p.rm, p.strict, false, 0, false, false, p.sat, 0, 0, 0⟩
    let one (ty : BitVec 3) : GenW := ⟨d, a, ⟨false, false, 0⟩, ty, p.rm, p.strict, false, 0, false, false, false, 0, 0, 0⟩
    let ints : List Instr := ([(Instr.iadd, 0), (.isub, 0), (.imul, 0), (.imin, 0), (.imax, 0), (.imin, 1), (.imax, 1), (.and, 1),
      (.or, 1), (.xor, 1), (.shl, 1), (.shr, 1), (.sar, 0)] : List ((GI → Instr) × BitVec 3)).map fun x => x.1 (.reg (two x.2))
    let flts : List Instr := ([(0, [Instr.fadd, .fsub, .fmul, .fmin, .fmax]), (1, [.fadd, .fsub, .fmul, .fmin, .fmax]),
      (2, [.fadd, .fsub, .fmul, .fmin, .fmax]), (3, [.fadd, .fsub, .fmul]), (4, [.fadd, .fsub, .fmul])] :
        List (BitVec 3 × List (GI → Instr))).flatMap fun x => x.2.map fun f => f (.reg (two x.1))
    (∀ n i, (ints[n]? = some i ∧ p.op.toNat = n ∨ flts[n]? = some i ∧ p.op.toNat = 0x10 + n) →
      LaneForm i p.strict opsAB 1 (fun e l => (slotLane p (opLane e.a l) (opLane e.b l)).1)
        (fun e l => (slotLane p (opLane e.a l) (opLane e.b l)).2)) ∧
    (∀ x ∈ ([(0x0D, .mov (one 1)), (0x0E, .not (one 1)), (0x0F, .iabs (one 0)), (0x25, .popc (one 1)), (0x26, .clz (one 1)),
        (0x27, .brev (one 1))] : List (Nat × Instr)), p.op.toNat = x.1 →
      ∀ old : Nat, LaneForm x.2 p.strict opsA 1 (fun e l => (slotLane p old (opLane e.a l)).1)
        (fun e l => (slotLane p old (opLane e.a l)).2)) ∧
    (p.imm = true → ∀ x l, (slotIsF p.op.toNat = false → slotSrc p x l = wrapNat 32 (sextNat 8 p.a.toNat)) ∧
      (slotIsF p.op.toNat = true → let ty := slotFty p.op.toNat; ∀ k < (if isX2 ty then 2 else 1),
        (fmtOf ty).value (elemOf ty k (slotSrc p x l)) = some (sextNat 8 p.a.toNat : ℚ)))

/-- 08_lane_arithmetic R198, R211, R213: the scalar arithmetic and logic forms, in a warp and in a CCC context alike; the
result is delivered as the lane forms deliver it.
And 08_lane_arithmetic R197, R201, R211: the scalar logic forms bit by bit, the compares and the moves, in a warp and in a CCC
context alike. -/
def Obligations.ScalarForms : Prop := (∀ g : GI,
  ScalarForm (.sAdd g) (fun s c => words (iw (giTy g)) (deliver (giTy g) (giSat g) (scA g (s.envOf c (.sAdd g)) + scB g (s.envOf c (.sAdd g))))) ∧
  ScalarForm (.sSub g) (fun s c => words (iw (giTy g)) (deliver (giTy g) (giSat g) (scA g (s.envOf c (.sSub g)) - scB g (s.envOf c (.sSub g))))) ∧
  ScalarForm (.sMul g) (fun s c => words (iw (giTy g)) (deliver (giTy g) (giSat g) (scA g (s.envOf c (.sMul g)) * scB g (s.envOf c (.sMul g))))) ∧
  ScalarForm (.sMin g) (fun s c => words (iw (giTy g)) (deliver (giTy g) (giSat g) (min (scA g (s.envOf c (.sMin g))) (scB g (s.envOf c (.sMin g)))))) ∧
  ScalarForm (.sMax g) (fun s c => words (iw (giTy g)) (deliver (giTy g) (giSat g) (max (scA g (s.envOf c (.sMax g))) (scB g (s.envOf c (.sMax g)))))) ∧
  ScalarForm (.sShl g) (fun s c => words (iw (giTy g))
    (deliver (giTy g) false (scA g (s.envOf c (.sShl g)) * 2 ^ (scRaw g (s.envOf c (.sShl g)) % tyBits (giTy g))))) ∧
  ScalarForm (.sShr g) (fun s c => words (iw (giTy g))
    (deliver (giTy g) false (scA g (s.envOf c (.sShr g)) / 2 ^ (scRaw g (s.envOf c (.sShr g)) % tyBits (giTy g))))) ∧
  ScalarForm (.sSar g) (fun s c => words (iw (giTy g))
    (deliver (giTy g) false (scA g (s.envOf c (.sSar g)) / 2 ^ (scRaw g (s.envOf c (.sSar g)) % tyBits (giTy g)))))) ∧
  ((∀ (g : GI) (op : GI → Instr) (f : Bool → Bool → Bool),
    (op, f) ∈ ([(Instr.sAnd, and), (Instr.sOr, or), (Instr.sXor, xor)] : List ((GI → Instr) × (Bool → Bool → Bool))) →
    legal (op g) = true → ∃ v : Env → Nat, ScalarForm (op g) (fun s c => words (iw (giTy g)) (v (s.envOf c (op g)))) ∧
      ∀ e j, j < tyBits (giTy g) → bitOf (v e) j = f (bitOf (opScal e.a) j) (bitOf (scRaw g e) j)) ∧
  (∀ w : GenW, ScalarForm (.sNot w)
    (fun s c => words (iw w.ty) (2 ^ tyBits w.ty - 1 - opScal (s.envOf c (.sNot w)).a % 2 ^ tyBits w.ty))) ∧
  (∀ (cc : Cc) (g : GI), ScalarForm (.sCmp cc g) (fun s c => [if ccHolds cc (scA g (s.envOf c (.sCmp cc g))) (scB g (s.envOf c (.sCmp cc g)))
    then 1 else 0])) ∧
  (∀ w : GenW, ScalarForm (.sMov (.reg w)) (fun s c => words (iw w.ty) (opScal (s.envOf c (.sMov (.reg w))).a))) ∧
  ∀ w : ImmW, ScalarForm (.sMov (.imm w)) (fun _ _ => words (iw w.ty) (wrapNat 64 (sextNat 24 w.imm.toNat))))

/-- 13_control_flow R291: `nop` has no effect; `yield` makes the warp's next issue go to its other live fragment, and `yield.w`
makes the warp stand aside for the next issue slot of its core; a context has no other fragment and no other warp.
And 13_control_flow R290, R292: `bra`, `call` and `ret` move the whole fragment, and change nothing else; the 33rd call and a
return with depth 0 trap STACKOV. -/
def Obligations.DirectTransfers : Prop := (∀ (s : State) (c : Ctx),
  (Issues s c .nop → Retires .nop s c s) ∧
  (Issues s c .yield → (∀ t k x, c.cur.unit = .warp t k → s.warp? t k = some x → ∃ s' y, exec .yield s = .next s' ∧
      OnlyUnit s s' (.warp t k) ∧ SameMem s s' ∧ Advanced s s' c ∧ s'.warp? t k = some y ∧ y.still = x.still ∧ (∀ r, y.vr r = x.vr r) ∧
      OtherFrags c.cur.sel x y ∧ y.other = true ∧ x.Issued c { y with other := if c.kind = .handler then x.other else false }) ∧
    (isCcc c.cur.unit = true → Retires .yield s c s)) ∧
  (Issues s c .yieldW →
    (∀ t k, c.cur.unit = .warp t k → Retires .yieldW s c (s.modWarp t k fun x => { x with aside := max x.aside 1 })) ∧
    (isCcc c.cur.unit = true → Retires .yieldW s c s))) ∧
  (∀ (w : OffW) (s : State) (c : Ctx) (f : Frag), s.frag? c.cur = some f →
  let target : DWord := c.cpc + BitVec.ofInt 64 (8 * sextNat 30 w.off.toNat)
  let next : DWord := c.cpc + BitVec.ofNat 64 (8 * (c.hdr.len + 1))
  let at_ (g : Frag) (pc : DWord) : Frag := { g with cpc := pc, slot := 0, hdr := none, wait := none, phase := 0, snap := [] }
  (Issues s c (.bra w) → Goes (.bra w) s c fun g => at_ g target) ∧
  (Issues s c (.call w) → (f.stk.length < 32 → Goes (.call w) s c fun g => { at_ g target with stk := next :: g.stk }) ∧
    (32 ≤ f.stk.length → Traps (.call w) s c (plainTrap cSTACKOV))) ∧
  (Issues s c .ret → (∀ a r, f.stk = a :: r → Goes .ret s c fun g => { at_ g a with stk := r }) ∧
    (f.stk = [] → Traps .ret s c (plainTrap cSTACKOV))))

/-- 13_control_flow R287, R294: `brx`. The present lanes of L go by the predicate's value; a split places the taken lanes in a new
fragment with the same control state, or traps SPLITOV where it has no place; the absent lanes arrive at the named register, and
where no lane is present all go to its JPC. Nothing else changes. -/
def Obligations.DivergentBranch : Prop := ∀ (w : BrxW) (s : State) (c : Ctx) (t k : Nat) (x : Warp) (f : Frag),
  WarpIssues s c (.brx w) t k x → x.frag? c.cur.sel = some f →
    let i : Instr := .brx w
    let p := x.pr w.p.toNat
    let tk := c.lm &&& p.map &&& p.val
    let ft := c.lm &&& p.map &&& ~~~p.val
    let ab := c.lm &&& ~~~p.map
    let target : DWord := c.cpc + BitVec.ofInt 64 (8 * sextNat 30 w.off.toNat)
    let full : Prop := x.live0.isSome ∧ x.live1.isSome ∧ 64 ≤ x.spill.length
    (tk ≠ 0 ∧ ft ≠ 0 ∧ full → Traps i s c (plainTrap cSPLITOV)) ∧
    (¬(tk ≠ 0 ∧ ft ≠ 0 ∧ full) → ∃ s' y, exec i s = .next s' ∧ Ends s (s.modWarp t k fun _ => y) s' c i id ∧
      { y with live0 := x.live0, live1 := x.live1, spill := x.spill, handler := x.handler, j := x.j, wst := x.wst } = x ∧
      y.j = (if ab = 0 then x.j else lset x.j w.j.toNat { x.jr w.j.toNat with arr := (x.jr w.j.toNat).arr ||| ab }) ∧
      y.wst = (if ab = 0 then x.wst else x.wst ||| wsABSC) ∧
      y.frag? c.cur.sel = some (if ft ≠ 0 then { f.goto (nextHeader c) with lmap := ft }
        else if tk ≠ 0 then { f.goto target with lmap := tk } else f.goto (x.jr w.j.toNat).jpc) ∧
      (let g : Frag := { f.goto target with lmap := tk, age := 0, fid := x.freeFid }
       if tk ≠ 0 ∧ ft ≠ 0 then (y.others c.cur.sel).Perm (g.noAge :: x.others c.cur.sel) ∧
           (x.live0.isSome → x.live1.isSome → y.spill = g :: x.spill)
         else y.others c.cur.sel = x.others c.cur.sel))

/-- 13_control_flow R295, R296: `jarm` arms a register for the fragment; `join` traps ILLCTX away from JPC or in another call, and
then completes with every arrived lane, or parks. Its slot, when free, is filled from the spill stack. -/
def Obligations.ArmAndJoin : Prop := ∀ (w : JarmW) (s : State) (c : Ctx) (t k : Nat) (x : Warp) (f : Frag),
  x.frag? c.cur.sel = some f →
  let m := w.j.toNat
  let j := x.jr m
  (WarpIssues s c (.jarm w) t k x → ∃ s' y, exec (.jarm w) s = .next s' ∧
    Ends s (s.modWarp t k fun _ => y) s' c (.jarm w) (·.advance c.hdr.len) ∧
    { y with live0 := x.live0, live1 := x.live1, handler := x.handler, j := x.j } = x ∧
    y.frag? c.cur.sel = some { f with rj := m } ∧ y.others c.cur.sel = x.others c.cur.sel ∧
    y.j = lset (x.j.map fun q => if q.ord < j.ord then { q with ord := q.ord + 1 } else q) m
      ⟨c.lm, j.arr, c.cpc + BitVec.ofInt 64 (8 * sextNat 30 w.off.toNat), f.rj, f.stk.length, 0, f.stk⟩) ∧
  (WarpIssues s c (.join w.j) t k x →
    let i : Instr := .join w.j
    let bad : Prop := c.cpc ≠ j.jpc ∨ c.slot ≠ 0 ∨ (j.exp ≠ 0 ∧ (f.stk.length ≠ j.dj ∨ f.stk ≠ j.stk))
    let arr := j.arr ||| f.lmap
    (bad → Traps i s c (plainTrap cILLCTX)) ∧
    (¬bad → ∃ s' y, exec i s = .next s' ∧ OnlyUnit s s' (.warp t k) ∧ SameMem s s' ∧ s'.warp? t k = some y ∧
      { y.still with j := x.j, parks := x.parks, regs := x.regs } = x.still ∧ OnlyMarks i x y ∧
      (j.exp &&& ~~~arr = 0 → y.j = lset x.j m { j with exp := 0, arr := 0 } ∧ y.parks = tdel x.parks m ∧
        y.regs = ((tget x.parks m).map fun p => (x.moveFid p.fid f.fid).regs).getD x.regs ∧
        (y.others c.cur.sel).Perm (x.others c.cur.sel) ∧
        (y.frag? c.cur.sel).map Frag.noAge = some (({ f with
          tg := ((tget x.parks m).map fun p => (f.tg.zip p.tg).map fun q => laterTg q.1 q.2).getD f.tg
          lmap := arr, rj := j.out } : Frag).advance c.hdr.len).noAge) ∧
      (j.exp &&& ~~~arr ≠ 0 → y.j = lset x.j m { j with arr := arr } ∧
        (y.active.map Frag.noAge).Perm (x.others c.cur.sel) ∧ (∀ n, n ≠ m → tget y.parks n = tget x.parks n) ∧
        y.regs = ((tget x.parks m).map fun p => (x.moveFid f.fid p.fid).regs).getD x.regs ∧
        (tget y.parks m).map Frag.noAge = some (match tget x.parks m with
          | none => (f.advance c.hdr.len).noAge
          | some p => { p with lmap := p.lmap ||| f.lmap, tg := (p.tg.zip f.tg).map fun q => laterTg q.1 q.2, age := 0 })))) ∧
  ∀ a b : Nat, a < 16 → b < 16 → (laterTg a b = if (b + 16 - a) % 16 ∈ [1, 2, 3, 4, 5, 6, 7] then b else a)

/-- 13_control_flow R300, R301: `jmpi` and `calli`. Every lane that passes its check is in a fragment at its own target; the lanes
that fail stay, and trap with their causes; the word stalls until the lookups of its targets are over. A context has one target. -/
def Obligations.IndirectTransfers : Prop := ∀ (w : IndW) (call : Bool) (i : Instr) (s : State) (c : Ctx),
  i = (if call then .calli w else .jmpi w) →
  let e := s.envOf c i
  let u := c.cur.unit
  let chk (l : Nat) : Option (Nat × DWord) :=
    match indTarget w e l with
    | none => some (cRANGE, 0)
    | some v => (s.tgtCheck u v).map fun n => (n, v)
  let bad := (lanesOf c.lm).filterMap fun l => (chk l).map fun r => (l, r.1, r.2)
  let good := (lanesOf c.lm).filter fun l => (chk l).isNone
  let dest (l : Nat) : DWord := (indTarget w e l).getD 0
  let stay := laneMap fun l => c.lm.getLsbD l && (chk l).isSome
  let busy : Prop := s.lookups u ((lanesOf c.lm).filterMap (indTarget w e)) = true
  (∀ (t k : Nat) (x : Warp) (f : Frag) (tgs : List DWord), WarpIssues s c i t k x → x.frag? c.cur.sel = some f → c.lm ≠ 0 →
    tgs.Nodup → (∀ v, v ∈ tgs ↔ ∃ l ∈ good, dest l = v) →
    let g : Frag := { f with stk := if call then nextHeader c :: f.stk else f.stk }
    let part (v : DWord) : Frag := { g.goto v with lmap := laneMap fun l => good.contains l && dest l == v, age := 0, fid := 0 }
    let split : Prop := x.room < tgs.length - 1 + (if bad ≠ [] ∧ tgs ≠ [] then 1 else 0)
    let deep : Prop := call = true ∧ tgs ≠ [] ∧ 32 ≤ f.stk.length
    let parts (y : Warp) : List Frag := y.active.map fun h => { h with age := 0, fid := 0 }
    (busy → Waits i s c .stall s) ∧
    (¬busy ∧ split → Traps i s c (plainTrap cSPLITOV)) ∧ (¬busy ∧ ¬split ∧ deep → Traps i s c (plainTrap cSTACKOV)) ∧
    (¬busy ∧ ¬split ∧ ¬deep → ∃ y, x.sameRest y ∧
      (bad = [] → (∃ s', exec i s = .next s' ∧ Ends s (s.modWarp t k fun _ => y) s' c i id) ∧
        (parts y).Perm (tgs.map part ++ parts (x.setFrag c.cur.sel none))) ∧
      (bad ≠ [] → exec i s = .next ((s.modWarp t k fun _ => y).trapNow c i (laneTrap bad stay)) ∧
        y.frag? c.cur.sel = some { f with lmap := stay } ∧
        (parts y).Perm (tgs.map part ++ { f with lmap := stay, age := 0, fid := 0 } :: parts (x.setFrag c.cur.sel none))))) ∧
  (∀ (t k : Nat) (y : Ccc) (l : Nat), CccIssues s c i t k y → lanesOf c.lm = [l] →
    (busy → Waits i s c .stall s) ∧ (∀ n v, ¬busy → chk l = some (n, v) → Traps i s c (oneTrap n v)) ∧
    (¬busy → chk l = none → (call = true ∧ 32 ≤ y.frag.stk.length → Traps i s c (plainTrap cSTACKOV)) ∧
      (¬(call = true ∧ 32 ≤ y.frag.stk.length) → Goes i s c fun f =>
        { f.goto (dest l) with stk := if call then nextHeader c :: f.stk else f.stk })))

/-- 13_control_flow R292; 14_execution_model R322: `exit` ends the fragment, and a context once it has no reservation entry;
`exit.spawn` first adds its successor blocks to the team's, each once, or traps with the first bad address, or with the first that
would be a fifth block. -/
def Obligations.Exit : Prop := ∀ (w : SpawnW) (s : State) (c : Ctx),
  let u := c.cur.unit
  let e := s.envOf c (.exitSpawn w)
  let vs := (List.range (w.n.toNat + 1)).map fun n => BitVec.ofNat 64 (opScal ((e.a.drop (2 * n)).take 2))
  let bad (v : DWord) : Option Nat := if v.toNat % 256 ≠ 0 then some cALIGN else
    match s.access (s.coreOf u) (s.dieOf u) (s.ownerOf u) v .rw with
    | .error n => some n
    | .ok _ => none
  let old := ((s.team? (teamOf u)).map (·.succ)).getD []
  let all := (old ++ vs).eraseDups
  let look : Prop := s.lookups u vs = true
  let busy : Prop := ∃ t k, u = .ccc t k ∧ s.entriesOf t k ≠ []
  (Issues s c .exit → c.kind ≠ .handler → (busy → Waits .exit s c .exit s) ∧ (¬busy → ∃ s', exec .exit s = .next s' ∧ Ended s s s' c .exit)) ∧
  (Issues s c (.exitSpawn w) → (look → Waits (.exitSpawn w) s c .stall s) ∧ (¬look →
    (∀ pre v post n, vs = pre ++ v :: post → (∀ q ∈ pre, bad q = none) → bad v = some n → Traps (.exitSpawn w) s c (oneTrap n v)) ∧
    (∀ pre v post, vs = pre ++ v :: post → (∀ q ∈ vs, bad q = none) → (old ++ pre).eraseDups.length ≤ 4 →
      4 < (old ++ pre ++ [v]).eraseDups.length → Traps (.exitSpawn w) s c (oneTrap cRANGE v)) ∧
    ((∀ v ∈ vs, bad v = none) → all.length ≤ 4 → busy → Waits (.exitSpawn w) s c .exit s))) ∧
  (Issues s c (.exitSpawn w) → s.lookups u vs = false → (∀ v ∈ vs, bad v = none) → all.length ≤ 4 → ¬busy →
    ∃ s', exec (.exitSpawn w) s = .next s' ∧ Ended s (s.modTeam (teamOf u) fun x => { x with succ := all }) s' c (.exitSpawn w))

/-- 07_registers R174, R181: `xset` and `xadd` write one index register, modulo 256; `rgn` selects registers and fills the
operand buffer, and changes no register's value.
And 07_registers R177 to R179: `scope.open` takes a free run of bricks in the order of the core's requests and makes its registers
vacant; `scope.close` gives the latest run back once no counted operation writes it; the eighth scope, registers past 256, and a
close without a scope trap SCOPE. -/
def Obligations.IndexAndScopes : Prop := (∀ (w : IdxW) (g : RgnW) (s : State) (c : Ctx),
  (∀ (i : Instr) (add : Bool) (r : Regs), i = (if add then .xadd w else .xset w) → Issues s c i → s.regs? c.cur.unit = some r →
    ∃ r', Retires i s c (s.modRegs c.cur.unit fun _ => r') ∧ { r' with x := r.x } = r ∧
      ∀ n, r'.xv n = if n = w.d.toNat then (if add then r.xv n else 0) +
        (if w.im then w.imm8 else BitVec.ofNat 8 (opScal (s.envOf c i).a)) else r.xv n) ∧
  ∀ (t k : Nat) (x : Warp), WarpIssues s c (.rgn g) t k x →
    ∃ y, Retires (.rgn g) s c (s.modWarp t k fun _ => y) ∧ { y with rsel := x.rsel, buf := x.buf } = x ∧
      (∀ n, n ∈ y.rsel ↔ if g.mask = 0 then n ∈ x.rsel else g.base.toNat ≤ n ∧ g.mask.getLsbD (n - g.base.toNat) = true) ∧
      (∀ n ∈ y.buf, n ∈ x.buf ∨ g.base.toNat ≤ n ∧ g.mask.getLsbD (n - g.base.toNat) = true) ∧
      ((x.buf.map x.chunks).sum ≤ 96 → (y.buf.map x.chunks).sum ≤ 96)) ∧
  (∀ (n8 : BitVec 6) (s : State) (c : Ctx) (t k : Nat) (x : Warp),
  (WarpIssues s c (.scopeOpen n8) t k x →
    let i : Instr := .scopeOpen n8
    let n := 8 * n8.toNat
    let beyond : Prop := x.scopes.length = 7 ∨ 256 < x.allot + n
    let me : Nat × Nat × Nat × Nat → Bool := fun q => q.1 == t && q.2.1 == k && q.2.2.1 == c.fid
    let s1 := if (s.core x.core).scopeQ.any me then s
      else s.modCore x.core fun y => { y with scopeQ := y.scopeQ ++ [(t, k, c.fid, n8.toNat)] }
    (beyond → exec i s = .next ((s.dequeue c.cur.unit c.fid).trapNow c i (plainTrap cSCOPE))) ∧
    (¬beyond → s1.scopeGo x.core t k c.fid = false ∨ s1.findRun x.core n8.toNat = none → Waits i s c .scopeOpen s1) ∧
    (∀ a, ¬beyond → s1.scopeGo x.core t k c.fid = true → s1.findRun x.core n8.toNat = some a → ∃ y,
      Retires i s c ((s1.modCore x.core fun y => { y with scopeQ := y.scopeQ.drop 1 }).modWarp t k fun _ => y) ∧
      { y with v := x.v, scopes := x.scopes, bricks := x.bricks } = x ∧ y.scopes = (x.allot, n) :: x.scopes ∧
      y.bricks = x.bricks ++ [(a, n8.toNat)] ∧ a + n8.toNat ≤ 512 ∧
      (∀ r ∈ s.bricksOf x.core, a + n8.toNat ≤ r.1 ∨ r.1 + r.2 ≤ a ∨ n8 = 0 ∨ r.2 = 0) ∧
      ∀ r, y.vr r = if x.allot ≤ r ∧ r < x.allot + n then [] else x.vr r)) ∧
  (WarpIssues s c .scopeClose t k x →
    (x.scopes = [] → Traps .scopeClose s c (plainTrap cSCOPE)) ∧
    ∀ b n r, x.scopes = (b, n) :: r →
      ((∃ o ∈ x.regs.ops, (∀ w, o.instr ≠ .sLd w) ∧ meets o.dst (countedRegs o.instr) b n = true) → Waits .scopeClose s c .scopeClose s) ∧
      ((∀ o ∈ x.regs.ops, (∀ w, o.instr ≠ .sLd w) → meets o.dst (countedRegs o.instr) b n = false) → ∃ y,
        Retires .scopeClose s c (s.modWarp t k fun _ => y) ∧
        { y with v := x.v, scopes := x.scopes, bricks := x.bricks, buf := x.buf, rsel := x.rsel } = x ∧
        y.scopes = r ∧ y.bricks = x.bricks.dropLast ∧ ∀ m, y.vr m = if b ≤ m ∧ m < b + n then [] else x.vr m)))

/-- 03_memory_tiers R68, R77; 04_caches_scratchpad R89, R101: the checks of an access. A global access fails with ALIGN, then RANGE
where the address has no translation, then PERM; a scratchpad access with ALIGN, then RANGE outside the team core or below 0x100
of team core 0, then OWNER in a tile that the engine owns.
And 03_memory_tiers R63, R65 to R67, R72: the walk of an address that no translation cache covers, level by level from the owner's
root; the address a leaf gives; and what a translation cache takes, within its room, and lets go. -/
def Obligations.TranslationAndChecks : Prop := ((∀ (s : State) (u : UnitId) (lane : Nat) (va : DWord) (n : Nat) (need : Need),
  s.globAcc u lane va n need =
    if va.toNat % n ≠ 0 then .error cALIGN
    else match s.translate (s.coreOf u) (s.dieOf u) (s.ownerOf u) va with
      | none => .error cRANGE
      | some l =>
        if (match need with
            | .read => l.r
            | .write => l.w
            | .rw => l.r && l.w
            | .atomic => l.r && l.w && !l.repl
            | .exec => l.x) && s.keyOk (s.coreOf u) (s.dieOf u) (s.ownerOf u) l.key
        then .ok ⟨lane, .glob, l.pa, va, n, l.key, l.repl, l.pg⟩ else .error cPERM) ∧
  (∀ (s : State) (core : Option Nat) (d : Nat) (o : Byte) (va : DWord), 2 ^ 48 ≤ va.toNat → s.translate core d o va = none) ∧
  ∀ (s : State) (t : Nat) (x : Team) (lane a n : Nat), s.team? t = some x → a / 2 ^ 22 = 0 →
    let ci := a / 2 ^ 20
    let off := a % 2 ^ 20
    s.spAcc t lane a n = if a % n ≠ 0 then .error cALIGN
      else if x.cores.length ≤ ci ∨ 4096 * x.tiles ≤ off ∨ (ci = 0 ∧ off < 0x100) then .error cRANGE
      else if s.tileE t ci (off / 4096) then .error cOWNER
      else .ok ⟨lane, .scratch t ci, off, BitVec.ofNat 64 a, n, 0, false, 0⟩) ∧
  ((∀ (s : State) (core : Option Nat) (d : Nat) (o : Byte) (va : DWord),
  va.toNat < 2 ^ 48 → (∀ n ∈ tlbNodes core d, tgetD s.tlbs n [] = []) →
    let v := va.toNat
    let word (a : Nat) : DWord := BitVec.ofNat 64 (ofBytes (s.dieBytes d 0 a 8))
    let own := word (s.csrs.owntab.toNat + 32 * o.toNat)
    let root := own.toNat / 2 ^ 12 % 2 ^ 30 * 4096
    let next (e : DWord) : Nat := e.toNat / 2 ^ 8 % 2 ^ 34 * 256
    let ptr (e : DWord) : Prop := e.getLsbD 0 = true ∧ e.getLsbD 1 = false ∧ (homeOf (next e)).isSome = true
    let stop (e : DWord) : Prop := e.getLsbD 0 = false ∨ (e.getLsbD 1 = false ∧ homeOf (next e) = none)
    let e0 := word (root + 8 * (v / 2 ^ 39 % 2 ^ 9))
    let e1 := word (next e0 + 8 * (v / 2 ^ 30 % 2 ^ 9))
    let e2 := word (next e1 + 8 * (v / 2 ^ 21 % 2 ^ 9))
    let e3 := word (next e2 + 8 * (v / 2 ^ 16 % 2 ^ 5))
    let got := s.translate core d o va
    (own.getLsbD 0 = false ∨ homeOf root = none → got = none) ∧
    (own.getLsbD 0 = true → (homeOf root).isSome = true →
      (stop e0 ∨ e0.getLsbD 1 = true → got = none) ∧
      (ptr e0 → (stop e1 → got = none) ∧ (e1.getLsbD 0 = true → e1.getLsbD 1 = true → got = s.leafOf 1 e1 v) ∧
        (ptr e1 → (stop e2 → got = none) ∧ (e2.getLsbD 0 = true → e2.getLsbD 1 = true → got = s.leafOf 2 e2 v) ∧
          (ptr e2 → (e3.getLsbD 0 = false ∨ e3.getLsbD 1 = false → got = none) ∧
            (e3.getLsbD 0 = true → e3.getLsbD 1 = true → got = s.leafOf 3 e3 v)))))) ∧
  (∀ (s : State) (lvl : Nat) (e : DWord) (v : Nat) (l : Leaf), s.leafOf lvl e v = some l →
    let size := if lvl = 1 then 2 ^ 30 else if lvl = 2 then 2 ^ 21 else 2 ^ 16
    let frame := e.toNat / 2 ^ 8 % 2 ^ 34 * 256
    1 ≤ lvl ∧ e.toNat / 2 ^ 50 % 4 = 3 - lvl ∧ frame % size = 0 ∧ (homeOf frame).isSome = true ∧ l.pa = frame + v % size ∧
      l.r = e.getLsbD 2 ∧ l.w = e.getLsbD 3 ∧ l.x = e.getLsbD 4 ∧ l.repl = e.getLsbD 5 ∧ l.key.toNat = e.toNat / 2 ^ 42 % 256) ∧
  ∀ (node : Nat) (o : Byte) (va : VAddr) (lvl : Nat) (keep : Bool) (s : State), node < 784 → lvl ≤ 4 → ∃ s',
    exec (.translationWalk node o va lvl keep) s = .next s' ∧ { s' with tlbs := s.tlbs } = s ∧
    (∀ n, n ≠ node → tgetD s'.tlbs n [] = tgetD s.tlbs n []) ∧
    let pfx := if lvl = 4 then 0 else va.toNat / 2 ^ lvlShift lvl
    let rest := (tgetD s.tlbs node []).filter fun e => !(e.owner == o && e.lvl == lvl && e.pfx == pfx)
    let d := if node < 768 then node / 96 else node % 8
    let core := if node < 768 then some node else none
    let room := if node < 768 then 256 else if node < 776 then 16384 else 512
    (keep = false → tgetD s'.tlbs node [] = rest) ∧
    (keep = true → s.lookupOpen core d o (va.setWidth 64) = true → tgetD s'.tlbs node [] = tgetD s.tlbs node []) ∧
    (keep = true → tgetD s'.tlbs node [] = tgetD s.tlbs node [] ∨ ∃ e, tgetD s'.tlbs node [] = e :: rest ∧ e.owner = o ∧ e.lvl = lvl ∧
      e.pfx = pfx ∧ e.w0.getLsbD 0 = true ∧ s.inval.any (·.hits e) = false ∧ rest.length < room ∧
      (node < 776 ↔ lvl ≠ 4 ∧ e.w0.getLsbD 1 = true)) ∧
    (keep = true → lvl = 4 → 776 ≤ node → s.inval = none → s.lookupOpen none d o (va.setWidth 64) = false →
      (∀ n ∈ tlbNodes none d, tgetD s.tlbs n [] = []) →
      let w0 : DWord := BitVec.ofNat 64 (ofBytes (s.dieBytes d 0 (s.csrs.owntab.toNat + 32 * o.toNat) 8))
      w0.getLsbD 0 = true → (homeOf (w0.toNat / 2 ^ 12 % 2 ^ 30 * 4096)).isSome = true → ∃ w1, tgetD s'.tlbs node [] = [⟨o, 4, 0, w0, w1⟩]))

/-- 04_caches_scratchpad R96 to R101, R104, R105; 02_instruction_words R24, R25: the loads and atomics of lanes. Each lane's
address is that of the form's addressing; every lane is checked before any effect, once the lookups of its address are over
(03_memory_tiers R73, R74); the operation then is in flight. -/
def Obligations.CountedForms : Prop := (∀ (w : GmW) (v : SpW) (op : AOp) (s : State) (c : Ctx) (t k : Nat) (x : Warp),
  let u := c.cur.unit
  (WarpIssues s c (.ldG w) t k x →
    let e := s.envOf c (.ldG w)
    let va := gmAddrOf w 1 8 e
    CountForm (.ldG w) s c t k x e (LookingUp s u (effMap e [e.a, e.b]) va (szBytes w.sz)) (effMap e [e.a, e.b]) (fun l => s.globAcc u l (va l) (szBytes w.sz) .read) va
      (acqOf w.ord (scopeOf w.sco)) none (w.ord == 0 && !w.bp)) ∧
  (WarpIssues s c (.ldC w) t k x →
    let e := s.envOf c (.ldC w)
    let va := gmAddrOf w (szBytes w.sz) (szBytes w.sz) e
    CountForm (.ldC w) s c t k x e (LookingUp s u (effMap e [e.a, e.b]) va (szBytes w.sz)) (effMap e [e.a, e.b]) (fun l => s.globAcc u l (va l) (szBytes w.sz) .read) va none none true) ∧
  (WarpIssues s c (.atomG op w) t k x →
    let e := s.envOf c (.atomG op w)
    let va := gmAddrOf w 1 8 e
    CountForm (.atomG op w) s c t k x e (LookingUp s u (effMap e [e.a, e.b, e.d]) va (atomBytes w.sz)) (effMap e [e.a, e.b, e.d]) (fun l => s.globAcc u l (va l) (atomBytes w.sz) .atomic) va
      (acqOf w.ord (scopeOf w.sco)) (relOf w.ord (scopeOf w.sco)) false) ∧
  (WarpIssues s c (.ldSp v) t k x →
    let e := s.envOf c (.ldSp v)
    let a := spAddrOf v e
    CountForm (.ldSp v) s c t k x e False (effMap e [e.a]) (fun l => s.spAcc t l (a l) (szBytes v.sz)) (fun l => BitVec.ofNat 64 (a l))
      (acqOf v.ord .team) none false) ∧
  (WarpIssues s c (.atomSp op v) t k x →
    let e := s.envOf c (.atomSp op v)
    let a := spAddrOf v e
    CountForm (.atomSp op v) s c t k x e False (effMap e [e.a, e.d]) (fun l => s.spAcc t l (a l) (atomBytes v.sz))
      (fun l => BitVec.ofNat 64 (a l)) (acqOf v.ord .team) (relOf v.ord .team) false)) ∧
  (∀ (w : GmW) (k unit : Nat) (e : Env) (l : Nat),
    (w.ow = 0 → gmAddrOf w k unit e l = BitVec.ofNat 64 (opScal e.a + opLane e.b l % 2 ^ 32 * k + w.off.toNat * unit)) ∧
    (w.ow = 1 → gmAddrOf w k unit e l = BitVec.ofInt 64 (opScal e.a + sextNat 32 (opLane e.b l) * k + w.off.toNat * unit)) ∧
    (w.ow = 2 → gmAddrOf w k unit e l = BitVec.ofNat 64 (opLane e.a l + w.off.toNat * unit)) ∧
    (w.ow = 3 → gmAddrOf w k unit e l = BitVec.ofNat 64 (opScal e.a + w.off.toNat * unit))) ∧
  ∀ (v : SpW) (e : Env) (l : Nat), spAddrOf v e l =
    ((if v.az then 0 else opLane e.a l) + v.b.toNat * 2 ^ 11 + v.offl.toNat) % 2 ^ 32

/-- 08_lane_arithmetic R212; 10_lane_crossbar R240, R241: `s.ld` makes one access, in warps and contexts; `ld.sp.t` reads sixteen
rows, or none where no lane takes part, and traps on the lowest failing row.
And 12_sparse_rows R277 to R283: `gf.ld` with a lane to load. The handle's page and bytes fail for every lane; each lane then fails
alone, or gives one access or (a block not stored) none, and the operation is in flight. -/
def Obligations.OtherLoads : Prop := ((∀ (w : GmW) (s : State) (c : Ctx) (r : Regs), Issues s c (.sLd w) →
  s.regs? c.cur.unit = some r →
    let i : Instr := .sLd w
    let u := c.cur.unit
    let e := s.envOf c i
    let va := gmAddrOf w 1 8 e 0
    let fl := flagOf c.hdr i
    let busy : Prop := va.toNat % szBytes w.sz = 0 ∧ s.lookups u [va] = true
    (63 ≤ r.flag fl ∨ busy → Waits i s c .stall s) ∧
    (r.flag fl < 63 → ¬busy →
      (∀ n, s.globAcc u 0 va (szBytes w.sz) .read = .error n → Traps i s c { oneTrap n va with cmap := 1 }) ∧
      ∀ a, s.globAcc u 0 va (szBytes w.sz) .read = .ok a → Retires i s c (s.modRegs u fun r =>
        r.counts (newOp i c e 1 r.seq [a] (acqOf w.ord (scopeOf w.sco)) none false)))) ∧
  ∀ (w : LdtW) (s : State) (c : Ctx) (t k : Nat) (x : Warp), WarpIssues s c (.ldSpT w) t k x →
    let i : Instr := .ldSpT w
    let e := s.envOf c i
    let m := c.lm &&& (if w.sz = 0 then 0xFFFF#32 else 0xFFFFFFFF#32)
    let row := if w.sz = 0 then 4 else if w.sz = 2 then 8 else 16
    let a (r : Nat) : Nat := (((if w.az then 0 else opScal e.a) + w.off.toNat) % 2 ^ 32 + r * (4 * w.b.toNat)) % 2 ^ 32
    let chk (r : Nat) : Except Nat Acc := s.spAcc t r (a r) row
    (63 ≤ x.regs.flag (flagOf c.hdr i) → Waits i s c .stall s) ∧
    (x.regs.flag (flagOf c.hdr i) < 63 →
      (∀ r n, m ≠ 0 → r < 16 → chk r = .error n → (∀ q, q < r → ∀ n', chk q ≠ .error n') →
        Traps i s c { oneTrap n (BitVec.ofNat 64 (a r)) with cmap := m }) ∧
      (∀ accs, m ≠ 0 → (List.range 16).map chk = accs.map Except.ok → Counted i s c t k x e m accs none none false) ∧
      (m = 0 → Counted i s c t k x e m [] none none false))) ∧
  (∀ (w : GfW) (s : State) (c : Ctx) (t k : Nat) (x : Warp), WarpIssues s c (.gfLd w) t k x →
  let i : Instr := .gfLd w
  let u := c.cur.unit
  let e := s.envOf c i
  let m := effMap e [e.a, e.b]
  let hva := BitVec.ofNat 64 (opScal (e.more.headD []))
  let mism := w.strict && occMism c.lm [e.a, e.b]
  let full : Prop := 63 ≤ x.regs.flag (flagOf c.hdr i)
  let held : Prop := s.fenceHold u x.regs.seq = true ∨ (∃ o ∈ x.regs.ops, s.acqOpen u o (if w.bp then 0 else 2) = true) ∨
    (hva.toNat % 64 = 0 ∧ s.lookups u [hva] = true)
  (mism = true → Traps i s c (mismTrap c.lm [e.a, e.b])) ∧
  (mism = false → full → Waits i s c .stall s) ∧
  (mism = false → ¬full → m = 0 → Counted i s c t k x e 0 [] none none (!w.bp)) ∧
  (mism = false → ¬full → m ≠ 0 →
    (held → Waits i s c .stall s) ∧
    (¬held →
      (∀ n, s.globAcc u 0 hva 64 .read = .error n → Traps i s c (laneTrap ((lanesOf m).map fun l => (l, n, hva)) m)) ∧
      ∀ a, s.globAcc u 0 hva 64 .read = .ok a →
        (s.gatherRead u (!w.bp) (s.gatherBytes u hva.toNat 64) = none → Waits i s c .stall s) ∧
        ∀ s1 n, s.gatherRead u (!w.bp) (s.gatherBytes u hva.toNat 64) = some (s1, n) →
          let h := handleOf n
          (s1.gatherLanes u w hva h e m = none → Waits i s c .stall s) ∧
          (∀ s2 accs bad, s1.gatherLanes u w hva h e m = some (s2, accs, bad) →
            (bad ≠ [] → exec i s = .next (s2.trapNow c i (laneTrap bad m))) ∧
            (bad = [] → Retires i s c (s2.modRegs u fun r => r.counts (newOp i c e m r.seq accs none none (!w.bp))))) ∧
          (h.valid = false → w.sc = true → ∀ l ∈ lanesOf m, s1.gatherLane u w hva h l (opLane e.a l % 2 ^ 32) (opLane e.b l % 2 ^ 32) =
            .bad cRANGE hva))))

/-- 06_consistency R140: `fence`. It waits until the unit's earlier accesses are performed at its die; at die scope and wider it
drops the caches of plain loads; at package scope and wider it goes on once the writes that its die has applied by then are applied
at every die, drops them again, and until then holds back every later access of its unit.
And 04_caches_scratchpad R102, R104; 06_consistency R133, R138: the stores. -/
def Obligations.StoresAndFences : Prop := (∀ (sc : Scope) (s : State) (c : Ctx) (f : Frag), Issues s c (.fence sc) → s.frag? c.cur = some f →
  let i : Instr := .fence sc
  let u := c.cur.unit
  let wide : Prop := sc = .die ∨ sc = .pkg ∨ sc = .sys
  let s1 := s.dropCaches (s.coreOf u) (s.clusterOf u)
  let seen := (s.writes.filter fun w => w.dies.contains (s.dieOf u)).map (·.id)
  (c.phase = 0 → s.quiet u (s.seqOf u) = false → Waits i s c .stall s) ∧
  (c.phase = 0 → s.quiet u (s.seqOf u) = true → (¬wide → Retires i s c s) ∧ (sc = .die → Retires i s c s1) ∧
    (sc = .pkg ∨ sc = .sys → (seen = [] → Retires i s c s1) ∧
      (seen ≠ [] → Waits i s c (.fence (s.seqOf u)) (s1.modFrag c.cur fun f => { f with phase := 1, snap := seen })))) ∧
  (c.phase ≠ 0 → (f.snap.any s.onWay = true → Waits i s c (f.wait.getD .stall) s) ∧ (f.snap.any s.onWay = false → Retires i s c s1)) ∧
  ((∀ n, (s1.cluster n).gcache = if n = s.clusterOf u then [] else (s.cluster n).gcache) ∧
    (∀ n, (s1.core n).l1 = if s.coreOf u = some n then [] else (s.core n).l1) ∧ SameMem s s1)) ∧
  (∀ (s : State) (u : UnitId) (f : Frag) (n : Nat), f ∈ s.fragsOf u → f.wait = some (.fence n) →
    (∀ (o : Op) (a : Acc), n ≤ o.seq → s.mayPerform u o a = false) ∧ ∀ w : Write, w.src = some u → n ≤ w.seq → s.mayLeave w = false) ∧
  (∀ (w : GmW) (v : SpW) (s : State) (c : Ctx) (t k : Nat) (x : Warp),
  (WarpIssues s c (.stG w) t k x →
    let e := s.envOf c (.stG w)
    let va := gmAddrOf w 1 8 e
    StoreForm (.stG w) s c e (LookingUp s c.cur.unit (effMap e [e.a, e.b, e.d]) va (szBytes w.sz)) (szBytes w.sz) (effMap e [e.a, e.b, e.d])
      (fun l => s.globAcc c.cur.unit l (va l) (szBytes w.sz) .write) va (relOf w.ord (scopeOf w.sco))) ∧
  (WarpIssues s c (.stSp v) t k x →
    let e := s.envOf c (.stSp v)
    let a := spAddrOf v e
    StoreForm (.stSp v) s c e False (szBytes v.sz) (effMap e [e.a, e.d]) (fun l => s.spAcc t l (a l) (szBytes v.sz))
      (fun l => BitVec.ofNat 64 (a l)) (relOf v.ord .team)))

/-- 04_caches_scratchpad R84, R85, R104, R105, R109, R110: one lane of a counted operation is performed. A load reads its bytes,
a plain one through the core's L1, which takes the line where its set has room; an atomic reads the old bytes at their home and puts the
new value there; nothing else in memory changes. A lane that meets a locked line waits (06_consistency R147), and an earlier operation
on the same bytes that is still open must complete if the unit stops (15_traps_preemption R332).
And 04_caches_scratchpad R97, R104, R105: what a load delivers, and the new values of the atomics. -/
def Obligations.PerformedAccesses : Prop := (∀ (s : State) (u : UnitId) (r : Regs) (o : Op) (a : Acc) (fresh : Bool),
  s.regs? u = some r → r.ops.find? (·.seq == o.seq) = some o → o.accs = [a] → tget o.vals a.lane = none →
  s.mayPerform u o a = true →
    let met (q : Op) : Prop := q.seq < o.seq ∧ ∃ b ∈ q.accs, b.meets a = true
    let ran (s' : State) (f : Op → Op) : Prop := ∃ g : Op → Op, s'.regs? u = some { r with ops := r.ops.map g } ∧
      ∀ q ∈ r.ops, g q = f q ∧ q.seq = o.seq ∨ q.seq ≠ o.seq ∧ (met q ∧ g q = { q with passed := true } ∨ ¬met q ∧ g q = q)
    let has (s' : State) (bs : List Byte) : Prop := ∃ srcs, ran s' fun q => { q with vals := tput q.vals a.lane bs, srcs := q.srcs ++ srcs }
    let locked : Prop := a.repl = true ∧ s.lockedLine (s.dieOf u) a.addr = true ∧ (fresh = true ∨ s.cachedLine u o a = none)
    (locked → ∃ s', s.performLane u o.seq a.lane fresh = some s' ∧ OnlyUnit s s' u ∧ s'.regs? u = some { r with ops := r.ops.map fun q =>
      if q.seq = o.seq then { q with stalled := a.lane :: q.stalled.filter (· != a.lane) } else q }) ∧
    (¬locked → (∀ t ci, a.tgt = .scratch t ci → atomOf o.instr = none → ∃ s', s.performLane u o.seq a.lane fresh = some s' ∧ SameMem s s' ∧
      (o.acq ≠ some .die → OnlyUnit s s' u) ∧ has s' ((List.range a.len).map fun n => s.spByte t ci (a.addr + n))) ∧
    (∀ t, a.tgt = .acc t → atomOf o.instr = none → ∃ s', s.performLane u o.seq a.lane fresh = some s' ∧ SameMem s s' ∧
      has s' (toBytes 4 (s.accElem t (a.addr / 4)).toNat)) ∧
    (a.tgt = .glob → atomOf o.instr = none → o.plain = false → ∃ s', s.performLane u o.seq a.lane fresh = some s' ∧ SameMem s s' ∧
      has s' (s.dieBytes (s.dieOf u) a.key (if a.repl then replAddr (s.dieOf u) a.addr else a.addr) a.len)) ∧
    (∀ k, a.tgt = .glob → atomOf o.instr = none → (∀ w, o.instr ≠ .gfLd w) → o.plain = true → o.acq = none → s.coreOf u = some k →
      ∃ s', s.performLane u o.seq a.lane fresh = some s' ∧ SameMem s s' ∧
        let rest := (s.core k).l1.filter fun e => e.1 / 256 != lineKey a / 256
        (∀ l, tget (s.core k).l1 (lineKey a) = some l → fresh = false →
          OnlyUnit s s' u ∧ has s' ((l.drop (a.addr % 128)).take a.len)) ∧
        (tget (s.core k).l1 (lineKey a) = none ∨ fresh = true →
          has s' (s.dieBytes (s.dieOf u) a.key (if a.repl then replAddr (s.dieOf u) a.addr else a.addr) a.len) ∧
          (s'.core k).l1 = (if cacheRoom 0 (12 - (s.core k).lent) 1024 rest (lineKey a) then
            tput rest (lineKey a) (s.readL2 (s.dieOf u) { a with addr := a.addr / 128 * 128, len := 128 }).1 else rest))) ∧
    (∀ t ci op sz x m, a.tgt = .scratch t ci → atomOf o.instr = some (op, sz) → s.team? t = some x → x.scratch[ci]? = some m →
      let old := (List.range a.len).map fun n => s.spByte t ci (a.addr + n)
      let args := atomArgs op sz (o.recs.take (atomRegs op sz)) a.lane
      ∃ s', s.performLane u o.seq a.lane fresh = some s' ∧ has s' old ∧ (∀ d k b, s'.dieByte d k b = s.dieByte d k b) ∧
        ∀ g c2 off, s'.spByte g c2 off = if g = t ∧ c2 = ci ∧ a.addr ≤ off ∧ off < a.addr + a.len then
          (toBytes a.len (atomNew op sz (ofBytes old) args.1 args.2)).getD (off - a.addr) 0 else s.spByte g c2 off) ∧
    (∀ op sz h, a.tgt = .glob → atomOf o.instr = some (op, sz) → homeOf a.addr = some h →
      let preds := o.preds.getD ((s.writes.filter fun w => w.dies.contains (s.dieOf u)).map (·.id))
      let old := s.homeBytes a.key a.addr a.len
      let args := atomArgs op sz (o.recs.take (atomRegs op sz)) a.lane
      (h < 8 → preds.all (s.appliedAt h) = false → s.performLane u o.seq a.lane fresh = none) ∧
      (8 ≤ h ∨ preds.all (s.appliedAt h) = true → ∃ s' w, s.performLane u o.seq a.lane fresh = some s' ∧ has s' old ∧
        s'.mem = s.mem ∧ s'.keys = s.keys ∧ s'.pend = s.pend ∧ s'.flight = s.flight ++ [w] ∧
        w.bytes = toBytes a.len (atomNew op sz (ofBytes old) args.1 args.2) ∧ w.addr = a.addr ∧ w.key = a.key ∧ w.tgt = .glob ∧
        w.preds = preds ∧ w.dies = if h < 8 then [h] else [])))) ∧
  ((∀ (sz : BitVec 3) (bs : List Byte),
  (sz = 0 ∨ sz = 2 → loadExt sz bs = [BitVec.ofNat 32 (ofBytes bs)]) ∧
  (∀ b, sz = 1 → bs = [b] → loadExt sz bs = [b.signExtend 32]) ∧
  (∀ b0 b1, sz = 3 → bs = [b0, b1] → loadExt sz bs = [(b1 ++ b0).signExtend 32]) ∧
  (∀ b0 b1 b2 b3, sz = 4 → bs = [b0, b1, b2, b3] → loadExt sz bs = [b3 ++ b2 ++ b1 ++ b0]) ∧
  (∀ lo hi, sz = 5 → lo.length = 4 → hi.length = 4 → bs = lo ++ hi → loadExt sz bs = loadExt 4 lo ++ loadExt 4 hi)) ∧
  (∀ (sz : BitVec 3) (old v v2 w : Nat), w = (if sz = 2 ∨ sz = 3 then 64 else 32) → old < 2 ^ w → v < 2 ^ w →
    atomNew .add sz old v v2 = (old + v) % 2 ^ w ∧ atomNew .exch sz old v v2 = v ∧
    atomNew .cas sz old v v2 = (if old = v then v2 else old) ∧
    (∀ j, bitOf (atomNew .and sz old v v2) j = (bitOf old j && bitOf v j)) ∧
    (∀ j, bitOf (atomNew .or sz old v v2) j = (bitOf old j || bitOf v j)) ∧
    (∀ j, bitOf (atomNew .xor sz old v v2) j = (bitOf old j).xor (bitOf v j)) ∧
    (sz = 1 ∨ sz = 3 → atomNew .min sz old v v2 = min old v ∧ atomNew .max sz old v v2 = max old v) ∧
    (sz = 0 ∨ sz = 2 → sextNat w (atomNew .min sz old v v2) = min (sextNat w old) (sextNat w v) ∧
      sextNat w (atomNew .max sz old v v2) = max (sextNat w old) (sextNat w v))) ∧
  ∀ old v v2 : Nat, atomNew .fadd 4 old v v2 = (faddB f32 0 (fdec f32 old) (fdec f32 v)).1)

/-- 02_instruction_words R24, R28 to R30; 06_consistency R137: a counted operation whose lanes have all been performed completes.
Its destination takes what they read, unless its unit has exited, and its flag falls by one; an acquire first waits until its updates
are performed at die scope, and one of package scope or wider until what it read is applied everywhere; that one then drops the
caches. -/
def Obligations.CountedCompletions : Prop := ∀ (u : UnitId) (seq : Nat) (fresh : Bool) (s : State) (r : Regs),
  s.regs? u = some r →
    let run := exec (.countedCompletion u seq fresh) s
    (r.ops.find? (·.seq == seq) = none → run = .next s) ∧
    ∀ o, r.ops.find? (·.seq == seq) = some o → o.performed = true →
      let wide : Prop := o.acq = some .pkg ∨ o.acq = some .sys
      let sld : Prop := ∃ w, o.instr = .sLd w
      let gone : Prop := s.exitedU u = true
      let early : Prop := (o.acq ≠ none ∧ s.ownOpen u seq = true) ∨ (wide ∧ o.srcs.any s.onWay = true)
      (early → run = .next s) ∧
      (¬early → ∃ s' r', run = .next s' ∧ SameMem s s' ∧ s'.pend = s.pend ∧ s'.flight = s.flight ∧
        (¬wide → OnlyUnit s s' u) ∧
        (wide → (s'.cluster (s.clusterOf u)).gcache = [] ∧ ∀ k, s.coreOf u = some k → (s'.core k).l1 = []) ∧
        s'.regs? u = some r' ∧ { r' with sc := r.sc, fl := r.fl, ops := r.ops } = r ∧ r'.ops = r.ops.filter (·.seq != seq) ∧
        (∀ n, r'.flag n = if n = o.flag then r.flag n - 1 else r.flag n) ∧
        (sld ∧ ¬gone → ∀ n, r'.s n = if o.dst ≤ n ∧ n < o.dst + (o.lane 0).length then (o.lane 0).getD (n - o.dst) 0 else r.s n) ∧
        (¬sld ∨ gone → ∀ n, r'.s n = r.s n) ∧
        ∀ t w x, u = .warp t w → s.warp? t w = some x → ∃ y, s'.warp? t w = some y ∧ { y with regs := x.regs, v := x.v, buf := x.buf } = x ∧
          ∀ q l, l < 32 → (¬sld ∧ x.exited = false ∧ o.dst ≤ q ∧ q < o.dst + countedRegs o.instr →
              tget (y.vr q) l = if o.emap.getLsbD l then some ((o.lane l).getD (q - o.dst) 0)
                else if o.lmap.getLsbD l && !dKp (shape o.instr) then none else tget (x.vr q) l) ∧
            (¬(¬sld ∧ x.exited = false ∧ o.dst ≤ q ∧ q < o.dst + countedRegs o.instr) → tget (y.vr q) l = tget (x.vr q) l))

/-- 06_consistency R133 to R135, R142; 03_memory_tiers R71: a write is applied. In a scratchpad it changes its bytes alone; at its
home it enters the coherence order, and that die alone sees its bytes; another die applies it after the writes it follows and those
before it that touch its bytes, or not yet. The other bytes of a 16-byte unit stay where the unit's key is the write's.
And 06_consistency R146: a write to a replicated page locks its line at every die, each after the writes it follows; then each
die's copy takes the bytes, and no other byte. -/
def Obligations.WritesReachDies : Prop := (∀ (id d : Nat) (s : State),
  let ends (s' : State) : State := ({ s' with puts := s'.puts.filter (fun p => p.writes.any s'.onWay), sent := s'.sent ++
    (s'.puts.filter fun p => !p.writes.any s'.onWay).map fun p => portReply false 0 [] p.rq } : State).ringAdvance
  (s.pend.find? (·.id == id) = none → s.flight.find? (·.id == id) = none → exec (.writeApplication id d) s = .next (ends s)) ∧
  (∀ w, s.pend.find? (·.id == id) = some w →
    (d ≠ 10 → (w.repl = true ∧ w.tgt = .glob) ∨ (w.sent = false ∧ s.mayLeave w = false) → exec (.writeApplication id d) s = .next (ends s)) ∧
    (w.repl = false → (w.sent = true ∨ s.mayLeave w = true) →
      (∀ t ci x m, w.tgt = .scratch t ci → s.team? t = some x → x.scratch[ci]? = some m →
        (s.behindOwn w = true ∨ s.coreSaved t ci = true → exec (.writeApplication id d) s = .next (ends s)) ∧
        (s.behindOwn w = false → s.coreSaved t ci = false → ∃ s', exec (.writeApplication id d) s = .next s' ∧
          s'.pend = s.pend.filter (·.id != id) ∧ s'.flight = s.flight ∧ (∀ d' k b, s'.dieByte d' k b = s.dieByte d' k b) ∧
          ∀ g c2 off, s'.spByte g c2 off = if g = t ∧ c2 = ci ∧ w.addr ≤ off ∧ off < w.addr + w.bytes.length then
            w.bytes.getD (off - w.addr) 0 else s.spByte g c2 off)) ∧
      (w.tgt = .glob → d = w.home → d < 8 → s.behindOwn w = false →
        (if w.sent then w.preds else (s.writes.filter fun e => e.dies.contains w.die).map (·.id)).all (s.appliedAt d) = true →
        ∃ s', exec (.writeApplication id d) s = .next s' ∧ s'.pend = s.pend.filter (·.id != id) ∧
          s'.flight.length = s.flight.length + 1 ∧ s'.mem = s.mem ∧
          (∀ d' k b, d' ≠ d ∨ b / 16 ≠ w.addr / 16 → s'.dieByte d' k b = s.dieByte d' k b) ∧
          ∀ b, b / 16 = w.addr / 16 → (w.addr ≤ b → b < w.addr + w.bytes.length → s'.dieByte d w.key b = w.bytes.getD (b - w.addr) 0) ∧
            (b < w.addr ∨ w.addr + w.bytes.length ≤ b → s.unitKey d b = some w.key → ∀ k, s'.dieByte d k b = s.dieByte d k b)))) ∧
  ∀ w, s.pend.find? (·.id == id) = none → s.flight.find? (·.id == id) = some w → d < 8 → w.dies.contains d = false →
    let first := (s.flight.takeWhile (·.id != id)).all fun e => e.dies.contains d ||
      !(meets e.addr e.bytes.length w.addr w.bytes.length || (e.addr / 16 == w.addr / 16 && e.key != w.key))
    (w.preds.all (s.appliedAt d) = false ∨ first = false → exec (.writeApplication id d) s = .next (ends s)) ∧
    (w.preds.all (s.appliedAt d) = true → first = true → allDies (d :: w.dies) = false → ∃ s', exec (.writeApplication id d) s = .next s' ∧
      s'.flight = s.flight.map (fun e => if e.id = id then { w with dies := d :: w.dies } else e) ∧ s'.pend = s.pend ∧ s'.mem = s.mem ∧
      s'.keys = s.keys ∧ (d ≠ w.die → s'.teams = s.teams ∧ s'.cores = s.cores))) ∧
  (∀ (id d : Nat) (s : State) (w : Write), s.pend.find? (·.id == id) = some w →
  w.repl = true → d < 8 →
    let left : Write := if w.sent then w else
      { w with sent := true, preds := (s.writes.filter fun e => e.dies.contains w.die).map (·.id) }
    let ready := (w.sent || s.mayLeave w) && !s.behindOwn w && !s.lineBusy w && !s.stalledOn d (w.addr / 128) &&
      left.preds.all (s.appliedAt d)
    let copy := replAddr d w.addr
    let took (b : Nat) : Prop := copy ≤ b ∧ b < copy + w.bytes.length
    (w.locked.contains d = true ∨ ready = false → exec (.replLock id d) s = .next s) ∧
    (w.locked.contains d = false → ready = true → exec (.replLock id d) s =
      .next { s with pend := s.pend.map fun e => if e.id = id then { left with locked := d :: left.locked } else e }) ∧
    (w.dies.contains d = false → allDies w.locked = true → s.WritesWf → ∃ s', exec (.replUpdate id d) s = .next s' ∧
      s'.pend = (if allDies (d :: w.dies) then s.pend.filter (·.id != id)
        else s.pend.map fun e => if e.id = id then { w with dies := d :: w.dies } else e) ∧
      (∀ g ci off, s'.spByte g ci off = s.spByte g ci off) ∧
      ∀ d' b, d' < 8 → (took b → s'.dieByte d' w.key b = w.bytes.getD (b - copy) 0) ∧
        (¬took b → s.unitKey d' b = some w.key ∨ (∀ n, n < w.bytes.length → b / 16 ≠ (copy + n) / 16) →
          ∀ k, s'.dieByte d' k b = s.dieByte d' k b)) ∧
    (w.dies.contains d = true ∨ allDies w.locked = false → exec (.replUpdate id d) s =
      (.next s.sendPuts.ringAdvance : Host.Outcome State Fault Refusal)))

/-- 02_instruction_words R49, R51, R53; 13_control_flow; 15_traps_preemption R336; 18_host_and_trust R401: an instruction that fails a
check before its own traps takes that trap and has no effect; one that fails none may issue: its feature is accepted, it ends its
clause if it must, its rights and its register numbers are good. -/
def Obligations.IssueChecks : Prop := (∀ (i : Instr) (s : State) (c : Ctx) (k : Nat), isEvent i = false → s.ctx? = some c →
  issueCheck s c i = some k → Traps i s c (plainTrap k) ∧ k ∈ [cILLENC, cILLPAIR, cILLCTX, cPRIV, cREGBOUND]) ∧
  (∀ (i : Instr) (s : State) (c : Ctx), s.ctx? = some c →
    (endsClause i = true → c.slot + 1 ≠ c.hdr.len → issueCheck s c i = some cILLENC) ∧
    (isCounted i = true → flagOf c.hdr i = 15 → issueCheck s c i = some cILLENC) ∧
    (Issues s c i → (handlerOnly i = true → c.kind = .handler) ∧ (barredInHandler i = true → c.kind ≠ .handler) ∧
      (cccOnly i = true → isCcc c.cur.unit = true) ∧ (isCcc c.cur.unit = true → cccMay i = true) ∧
      (privForm i = true → s.isSys c.cur.unit = true))) ∧
  (∀ (w : CsrW) (s : State) (c : Ctx), Issues s c (.csrWr w) → w.num.toNat ≠ 0x112 ∧ 0x100 ≤ w.num.toNat) ∧
  ∀ (i : Instr) (s : State) (c : Ctx) (t k : Nat) (x : Warp), WarpIssues s c i t k x → ∀ n, n ∈ namedOf x.regs i → n < x.allot

/-- 15_traps_preemption R328 to R336: a warp takes a trap. Of its counted operations those that must complete, and the oldest beyond
the entries that the frame has room for, complete first, or the trap waits; the others become replay entries, in order, and the
trapping instruction the last one where its cause and form say so; the frame holds the cause, AUX, the lanes and the place of the
fault, the fragment records, %fst, %wst and s56 to s63; the handler fragment starts at TRAPPC with the trapping fragment's lanes and
targets. Nothing else changes, but that a waiting fence will be issued anew (the model's choice: log entry 72). -/
def Obligations.TrapTaken : Prop := ∀ (i : Instr) (ti : TrapInfo) (s : State) (c : Ctx) (t k : Nat) (x : Warp) (f : Frag),
  WarpIssues s c i t k x → x.frag? c.cur.sel = some f → x.byFid c.fid = some f → x.handler = none → ti.code ≠ cMCHK →
  (x.regs.ops.map (·.seq)).Nodup →
    let own := fltCause ti.code && fltForm i
    let can := x.regs.ops.filter fun o => (atomOf o.instr).isNone && !o.passed
    let out := can.drop (can.length - (if own then 7 else 8))
    let done := (x.regs.ops.filter fun o => !out.contains o).foldl (fun a o => a.bind fun z => z.complete c.cur.unit o.seq false) (some s)
    (done = none → s.trapNow c i ti = s.modFrag c.cur fun g => { g with wait := some .stall }) ∧
    ∀ s1 y q, done = some s1 → s1.warp? t k = some y → y.handler = none → s1.team? t = some q → q.pkt.getD 3 0 ≠ 0 →
      ∃ (fr : Frame) (hf : Frag) (r : Regs),
      y.regs.ops.map (·.seq) = out.map (·.seq) ∧
      s.trapNow c i ti = (s1.modWarp t k fun z => { z.unfence with frame := some fr, handler := some hf, regs := r }) ∧
      { r with fl := y.regs.fl, ops := [] } = { y.regs with ops := [] } ∧ r.ops = [] ∧
      (∀ n, r.flag n = y.regs.flag n - (y.regs.ops.filter (·.flag == n)).length) ∧
      hf.cpc = q.pkt.getD 3 0 ∧ hf.slot = 0 ∧ hf.lmap = f.lmap ∧ hf.tg = f.tg ∧ hf.kind = .handler ∧ hf.stk = [] ∧ hf.rj = 15 ∧
      fr.code = ti.code ∧ fr.aux = ti.aux ∧ fr.tlmap = f.lmap ∧ fr.rpc = f.cpc ∧ fr.rsl = f.slot ∧ fr.res = (ti.code == cSWTRAP) ∧
      fr.dfr = false ∧ (fr.arrw = true ↔ f.phase = 1 ∧ ∃ w, i = .rvArrw w) ∧ fr.fid = c.fid ∧ fr.frg = y.recNum c.fid ∧
      fr.rfst = y.fst ∧ fr.rwst = y.wst ∧ (∀ n, n < 8 → fr.ssave.getD n 0 = y.regs.s (56 + n)) ∧
      (∀ l, l < 32 → fr.tfmap.getLsbD l = ti.lanes.any (·.1 == l)) ∧
      (∀ l n v, ti.lanes = [(l, n, v)] → tget fr.lcause l = some n ∧ tget fr.laddr l = some v) ∧
      fr.ents.take y.regs.ops.length = y.regs.ops.map (entryOf y) ∧
      fr.ents.drop y.regs.ops.length = (if own then [⟨encode i, i, f.cpc, f.slot, x.recNum c.fid, c.fid, true, true,
        false, f.lmap, ti.cmap, ti.cmap, recsOf s c.cur.unit f.lmap i, dNum x.regs (shape i), marksOf x.regs i⟩] else []) ∧
      fr.flte = if own then y.regs.ops.length else 15

/-- 15_traps_preemption R328, R343, R346, R347: a trap with no handler, in a handler, or MCHK, and every trap of a context, escalates:
the team set is frozen, and an entry for the moraine ring tells which unit trapped, why and where. Nothing of a frozen set issues
again: no turn of a core or of a CCC finds a warp or a context of it. -/
def Obligations.TrapEscalates : Prop := (∀ (s : State) (t : Nat) (q : Team) (z : TSet), s.team? t = some q → s.set? q.set = some z →
    z.frozen = true → (∀ core, (∀ w, (t, w) ∉ s.warpsOn core) ∧ ∀ n a, chooseWarp n (s.readyWarps core) = some a → a.t ≠ t) ∧
    ∀ cl better a, bestOf better (s.readyCtxs cl) = some a → a.1 ≠ t) ∧
  ∀ (i : Instr) (ti : TrapInfo) (s : State) (c : Ctx) (z : TSet) (q : Team),
  s.ctx? = some c → s.team? (teamOf c.cur.unit) = some q → s.set? q.set = some z →
    let out (s' : State) (kind : Nat) : Prop := ∃ (s1 : State) (e : RingEnt), s' = s1.ringPut (s.ringSrc c.cur.unit) e ∧
      (s1.set? q.set).map (·.frozen) = some true ∧ s1.mem = s.mem ∧ s1.csrs = s.csrs ∧ s1.ringHeld = s.ringHeld ∧
      e.code = ti.code ∧ e.kind = kind ∧ e.owner = q.owner ∧ e.clus = q.cluster ∧ e.teamid = teamOf c.cur.unit ∧ e.va = c.cpc ∧
      e.aux.toNat = c.slot + 2 ^ 32 * ti.tfmap.toNat ∧ e.isc = isCcc c.cur.unit
    c.slot < 16 → (∀ t k x, c.cur.unit = .warp t k → s.warp? t k = some x →
      (∃ f, x.byFid c.fid = some f ∧ f.cpc = c.cpc ∧ f.slot = c.slot) → x.regs.ops = [] →
      (x.handler.isSome = true → out (s.trapNow c i ti) (if ti.code = cMCHK then 3 else 1)) ∧
      (x.handler = none → ti.code = cMCHK ∨ q.pkt.getD 3 0 = 0 → out (s.trapNow c i ti) (if ti.code = cMCHK then 3 else 0))) ∧
    (∀ t k y, c.cur.unit = .ccc t k → s.ccc? t k = some y → out (s.trapNow c i ti) (if ti.code = cMCHK then 3 else 2) ∧
      ∃ z, (s.trapNow c i ti).ccc? t k = some z ∧ z.trapd.map (fun r => (r.code, r.aux, r.rpc, r.rsl)) =
        some (ti.code, ti.aux, c.cpc, c.slot))

/-- 15_traps_preemption R338, R341, R342; 13_control_flow R292: `trap` raises SWTRAP with its immediate; `rte` and `exit` wait for the
handler's counted operations; they restore s56 to s63, %fst and %wst, perform the replay entries that are left, in order, and then
end the handler, and resume the trapping fragment at its instruction, after it (RES, or its entry performed), or end it. An entry
that waits is performed later; one that traps begins a new trap, whose frame has it first and those not yet performed after it.
And 15_traps_preemption R329, R330, R334, R335, R339, R340: the trap frame as a handler reads and writes it, word by word, and the
removal of lanes from a replay entry. -/
def Obligations.HandlersAndReturn : Prop := ((∀ (code : BitVec 16) (s : State) (c : Ctx), Issues s c (.trap code) →
  Traps (.trap code) s c (plainTrap cSWTRAP (code.setWidth 64))) ∧
  (∀ (i : Instr) (s : State) (c : Ctx) (t k : Nat) (x : Warp) (fr : Frame) (hf : Frag), i = .rte ∨ i = .exit →
    WarpIssues s c i t k x → c.kind = .handler → c.cur.sel = .handler → x.handler = some hf → x.frame = some fr →
    hf.fid = c.fid → fr.fid ≠ c.fid →
    let s1 := (s.restore t k (decide (i = .exit))).modFrag c.cur fun f => { f with phase := 1 }
    let stall (z : State) : State := z.modFrag c.cur fun f => { f with wait := some .stall }
    let looking : Bool := s.lookups c.cur.unit (fr.rpc :: fr.ents.map (·.cpc))
    let goesOn (z : State) : Prop := exec i s = .next (if looking then stall z else
      if (z.replay t k (decide (i = .exit)) 10).2 then (z.replay t k (decide (i = .exit)) 10).1
        else stall (z.replay t k (decide (i = .exit)) 10).1)
    (c.phase = 0 → (∃ o ∈ x.regs.ops, o.fid = c.fid) → Waits i s c .exit s) ∧
    (c.phase = 0 → (∀ o ∈ x.regs.ops, o.fid ≠ c.fid) → goesOn s1) ∧ (c.phase ≠ 0 → goesOn s) ∧
    (c.phase = 0 → (∀ o ∈ x.regs.ops, o.fid ≠ c.fid) → looking = false → (∀ e ∈ fr.ents, e.v = true → i = .exit ∧ e.fid = fr.fid) →
      ∃ s' y, exec i s = .next s' ∧
      SameMem s s' ∧ s'.warp? t k = some y ∧ y.handler = none ∧ y.frame = none ∧ ScalarsSet x.regs y.regs 56 fr.ssave ∧
      y.fst = (fr.rfst &&& 0x1F) ∧ y.wst = (fr.rwst &&& 7) ∧ y.v = x.v ∧ y.p = x.p ∧ y.j = x.j ∧ y.bricks = x.bricks ∧
      (i = .rte → OnlyUnit s s' (.warp t k) ∧
        let past : Bool := fr.res || fr.ents.any fun e => e.flt && e.fid == fr.fid && e.cpc == fr.rpc && e.slot == fr.rsl && !e.mode
        let place : DWord × Nat := if past then s.placeAfter (.warp t k) fr.rpc fr.rsl else (fr.rpc, fr.rsl)
        let g (f : Frag) : Frag := if f.fid = fr.fid then { f with
          cpc := place.1, slot := place.2, tg := hf.tg, hdr := none, snap := [],
          phase := if past = false ∧ (fr.arrw = true ∨ x.walks.any (·.fid == fr.fid) = true) then 1 else 0
          wait := if fr.arrw && !past then f.wait else none } else f
        y.live0 = x.live0.map g ∧ y.live1 = x.live1.map g ∧ y.spill = x.spill.map g) ∧
      (i = .exit → (∀ f ∈ y.frags, f.fid ≠ fr.fid) ∧ (y.frags.isEmpty = true → y.exited = true) ∧
        ((y.frags).Perm ((x.live0.toList ++ x.live1.toList ++ x.spill ++ x.parks.map (·.2)).filter fun f => f.fid != fr.fid))))) ∧
  (∀ (s : State) (t k : Nat) (x : Warp) (fr : Frame) (exiting : Bool) (n q : Nat) (e : Entry), s.warp? t k = some x →
    x.frame = some fr → fr.ents[q]? = some e → e.v = true → (∀ j e', j < q → fr.ents[j]? = some e' → e'.v = false) →
    let off (z : State) : State := z.modWarp t k fun y => { y with frame := y.frame.map fun g =>
      { g with ents := lmod g.ents q fun d => { d with v := false } } }
    let run := s.replay t k exiting (n + 1)
    (e.mode = true → run = (off s).replay t k exiting n) ∧
    (e.mode = false →
      (∀ z, s.performEntry t k e = .retire z ∨ s.performEntry t k e = .placed z ∨ s.performEntry t k e = .done z →
        run = (off z).replay t k exiting n) ∧
      (∀ w z, s.performEntry t k e = .wait w z → run = (s, false)) ∧
      ∀ ti z, s.performEntry t k e = .trap ti z → run = ((z.retrap t k fr exiting e (fr.ents.drop (q + 1)) ti).map (·, true)).getD (s, false))) ∧
  ∀ (s : State) (t k : Nat) (x : Warp) (p : Team) (fr : Frame) (e : Entry) (rest : List Entry) (ti : TrapInfo) (f : Frag),
    s.team? t = some p → p.pkt.getD 3 0 ≠ 0 → s.warp? t k = some x → x.frame = some fr → x.regs.ops = [] → ti.code ≠ cMCHK →
    x.handler.all (·.fid != e.fid) = true → x.byFid e.fid = some f → ∃ s2 y g hf, s.retrap t k fr false e rest ti = some s2 ∧
      s2.warp? t k = some y ∧ y.handler = some hf ∧ hf.cpc = p.pkt.getD 3 0 ∧ hf.kind = .handler ∧ hf.lmap = f.lmap ∧
      y.frame = some g ∧ g.code = ti.code ∧ g.aux = ti.aux ∧ g.fid = e.fid ∧ g.flte = 0 ∧ g.tlmap = f.lmap ∧
      (e.fid ≠ fr.fid → g.rpc = f.cpc ∧ g.rsl = f.slot) ∧ (e.fid = fr.fid → e.flt = true → g.rpc = fr.rpc ∧ g.rsl = fr.rsl) ∧
      (∀ l, l < 32 → g.tfmap.getLsbD l = ti.lanes.any (·.1 == l)) ∧
      g.ents = { e with flt := true, frg := y.recNum e.fid } :: (rest.filter fun d => d.v && !d.mode).map fun d =>
        { d with flt := false, frg := y.recNum d.fid }) ∧
  ((∀ (w : RqW) (d : DropW) (s : State) (c : Ctx) (t k : Nat) (x : Warp) (fr : Frame), x.frame = some fr →
  (∀ i, i = .rqRd w ∨ i = .rqWr w → WarpIssues s c i t k x →
    let e := s.envOf c i
    let o := 4 * w.off.toNat + (if w.rs then opScal e.a else 0)
    (o % 4 ≠ 0 → Traps i s c (plainTrap cALIGN)) ∧ (o % 4 = 0 → 0x3000 ≤ o → Traps i s c (plainTrap cRANGE)) ∧
    (o % 4 = 0 → o < 0x3000 →
      (i = .rqRd w → ∃ s', exec i s = .next s' ∧ ScalarDone s s' c i t k x e.dst [fr.word (o / 4)]) ∧
      (i = .rqWr w → (fr.put (o / 4) (BitVec.ofNat 32 (opScal e.b)) = none → Traps i s c (plainTrap cPERM)) ∧
        ∀ f', fr.put (o / 4) (BitVec.ofNat 32 (opScal e.b)) = some f' →
          Retires i s c (s.modWarp t k fun y => { y with frame := some f' })))) ∧
  (WarpIssues s c (.trapDrop d) t k x →
    let e := s.envOf c (.trapDrop d)
    let n := opScal e.a
    ((∀ q, fr.ents[n]? = some q → q.v = false) → Traps (.trapDrop d) s c (plainTrap cRANGE)) ∧
    ∀ q, fr.ents[n]? = some q → q.v = true → Retires (.trapDrop d) s c (s.modWarp t k fun y =>
      { y with frame := some { fr with ents := lset fr.ents n { q with emap := q.emap &&& ~~~(BitVec.ofNat 32 (opScal e.b)) } } }))) ∧
  ∀ (fr : Frame) (v : Word) (k q : Nat),
    (fr.word 1 = fr.tlmap ∧ fr.word 2 = fr.tfmap ∧ fr.word 4 = loWord fr.rpc ∧ fr.word 6 = loWord fr.aux ∧ fr.word 7 = hiWord fr.aux ∧
      fr.word 8 = fr.rfst ∧ fr.word 9 = fr.rwst) ∧
    (fr.code < 256 → fr.ents.length < 16 → fr.flte < 16 → (fr.word 0).toNat =
      fr.code + 2 ^ 8 * bit fr.dfr + 2 ^ 9 * bit fr.arrw + 2 ^ 10 * bit fr.res + 2 ^ 12 * fr.ents.length + 2 ^ 16 * fr.flte) ∧
    (k < 8 → fr.word (16 + k) = fr.ssave.getD k 0) ∧
    (k < 32 → fr.word (32 + 2 * k) = loWord (tgetD fr.laddr k 0) ∧ fr.word (33 + 2 * k) = hiWord (tgetD fr.laddr k 0)) ∧
    (96 ≤ k → k < 768 → fr.word k = tgetD fr.ro k 0) ∧
    (∀ e, q < 8 → fr.ents[q]? = some e → fr.word (768 + 288 * q) = loWord e.word ∧ fr.word (769 + 288 * q) = hiWord e.word ∧
      fr.word (772 + 288 * q) = e.lmap ∧ fr.word (773 + 288 * q) = e.cmap ∧ fr.word (774 + 288 * q) = e.emap) ∧
    fr.put 0 v = some { fr with res := v.getLsbD 10 } ∧ fr.put 8 v = some { fr with rfst := v } ∧ fr.put 9 v = some { fr with rwst := v } ∧
    (k < 8 → fr.put (16 + k) v = some { fr with ssave := lset fr.ssave k v }) ∧
    (k < 768 → k ∉ [0, 8, 9] → ¬(16 ≤ k ∧ k < 24) → fr.put k v = none))

/-- 15_traps_preemption R351 to R353: the control registers, as warps and contexts read them.
And 15_traps_preemption R343, R344, R351 to R353; 03_memory_tiers R75, R76: the control registers that a system context writes. A write
of TINVC waits until its invalidation has retired. -/
def Obligations.ControlRegisters : Prop := (∀ w : CsrW,
  ScalarForm (.csrRd w) (fun s c =>
    let u := c.cur.unit
    let core := (s.coreOf u).getD 0
    let v : DWord :=
      if w.num = 0x001 then BitVec.ofNat 64 (s.coreId u)
      else if w.num = 0x002 then BitVec.ofNat 64 (s.tagsDone core)
      else if w.num = 0x003 then (s.core core).ifcnt
      else if w.num = 0x008 then (match u with
        | .ccc t k => ((s.ccc? t k).map fun y => y.mxc.setWidth 64).getD 0
        | .warp _ _ => 0)
      else if w.num = 0x009 then (match u with
        | .ccc t k => BitVec.ofNat 64 (((s.ccc? t k).map fun y => y.mxs.toNat % 32).getD 0 + 2 ^ 8 * ((s.entriesOf t k).length % 64))
        | .warp _ _ => 0)
      else if w.num = 0x100 then s.csrs.owntab
      else if w.num = 0x101 then s.csrs.mbxtab
      else if w.num = 0x102 then s.csrs.tinva.setWidth 64
      else if w.num = 0x103 then BitVec.ofNat 64 (s.csrs.tinvc.toNat % 2 ^ 10 + (if s.inval.isSome then 2 ^ 31 else 0))
      else if w.num = 0x104 then s.csrs.ctxbase
      else if w.num = 0x110 then s.csrs.rbase
      else if w.num = 0x111 then s.csrs.rctl.setWidth 64
      else if w.num = 0x112 then s.csrs.rwi.setWidth 64
      else if w.num = 0x113 then s.csrs.rri.setWidth 64
      else 0
    if w.w64 then [v.setWidth 32, (v >>> 32).setWidth 32] else [v.setWidth 32])) ∧
  (∀ (w : CsrW) (s : State) (c : Ctx), Issues s c (.csrWr w) →
  let i : Instr := .csrWr w
  let v : DWord := BitVec.ofNat 64 (opScal (s.envOf c i).a)
  let x : Word := v.setWidth 32
  let k := s.csrs
  let put (k : Csrs) : Prop := Retires i s c { s with csrs := k }
  (w.num = 0x100 → put { k with owntab := v }) ∧ (w.num = 0x101 → put { k with mbxtab := v }) ∧
  (w.num = 0x102 → put { k with tinva := x }) ∧ (w.num = 0x104 → put { k with ctxbase := v }) ∧
  (w.num = 0x110 → put { k with rbase := v }) ∧
  (w.num = 0x111 → put { k with rctl := (x &&& 0x1F#32) ||| (k.rctl &&& ~~~x &&& 0x80000000#32) }) ∧
  (w.num = 0x113 → (k.rwi - x ≤ k.rwi - k.rri → put { k with rri := x }) ∧ (¬ k.rwi - x ≤ k.rwi - k.rri → Retires i s c s)) ∧
  (w.num = 0x120 → ∃ s1, Retires i s c s1 ∧ exec (.tkillWrite x) s = .next s1) ∧
  (w.num = 0x103 → (c.phase = 0 → ∃ s1 : State, exec i s = .next (s1.modFrag c.cur fun f => { f with phase := 1, wait := some .invalidation }) ∧
      { s1 with tlbs := s.tlbs, inval := s.inval, invalQ := s.invalQ, csrs := s.csrs } = s ∧
      (s.inval = none → ∃ z, s1.inval = some z ∧ s1.invalQ = s.invalQ ∧ z.owner = x.setWidth 8 ∧ z.mode = x.toNat / 2 ^ 8 % 4 ∧
        z.vpn = k.tinva.toNat ∧ z.by_ = some (c.cur.unit, c.fid) ∧
        ∀ n, tgetD s1.tlbs n [] = (tgetD s.tlbs n []).filter fun e => !z.hits e) ∧
      (s.inval.isSome = true → s1.inval = s.inval ∧ s1.invalQ.length = s.invalQ.length + 1 ∧ s1.tlbs = s.tlbs)) ∧
    (c.phase ≠ 0 → ((c.cur.unit, c.fid) ∈ s.invDone → Retires i s c { s with invDone := s.invDone.erase (c.cur.unit, c.fid) }) ∧
      ((c.cur.unit, c.fid) ∉ s.invDone → Waits i s c .invalidation s))))

/-- 03_memory_tiers R75, R76: an invalidation drops the entries it names from every translation cache as it begins: all of them, an
owner's, or a page's, and the pointer and owner entries with them; one runs at a time; it retires once every access through what it
names has been performed at its die, and the next begins. -/
def Obligations.Invalidations : Prop := (∀ (v : Word) (s : State),
  let z : Inval := ⟨v.setWidth 8, v.toNat / 2 ^ 8 % 4, s.csrs.tinva.toNat, none, none⟩
  (s.inval.isSome = true → exec (.tinvcWrite v) s = .next { s with invalQ := s.invalQ ++ [z] }) ∧
  (s.inval = none → ∃ s', exec (.tinvcWrite v) s = .next s' ∧ s'.inval = some z ∧
    { s' with tlbs := s.tlbs, inval := s.inval, csrs := s.csrs } = s ∧
    { s'.csrs with tinvc := s.csrs.tinvc } = s.csrs ∧ s'.csrs.tinvc.toNat = v.toNat % 2 ^ 10 ∧
    ∀ n, tgetD s'.tlbs n [] = (tgetD s.tlbs n []).filter fun e => !z.hits e)) ∧
  (∀ (z : Inval) (e : TEnt), (z.mode = 2 → z.hits e = true) ∧ (z.mode = 1 → z.hits e = (e.owner == z.owner)) ∧
    (z.mode = 3 → z.hits e = false) ∧
    (z.mode = 0 → (z.hits e = true ↔ e.owner = z.owner ∧ (e.w0.getLsbD 1 = false ∨ e.lvl = 4 ∨
      e.pfx = z.vpn * 2 ^ 16 / 2 ^ (lvlShift e.lvl))))) ∧
  ∀ s : State, (s.inval = none → exec .invalidationRetire s = .next s) ∧
    ∀ z, s.inval = some z → (s.invalDone z = false → exec .invalidationRetire s = .next s) ∧
      (s.invalDone z = true → ∃ s', exec .invalidationRetire s = .next s' ∧ s'.invDone = s.invDone ++ z.by_.toList ∧
        s'.sent.length = s.sent.length + z.rq.toList.length ∧ s'.inval = s.invalQ.head? ∧ s'.invalQ = s.invalQ.tail ∧
        SameMem s s' ∧ s'.teams = s.teams)

/-- 15_traps_preemption R343 to R346, R348, R349: the moraine ring. An entry is written at RWI under key id 0 from its source's die
(log entry 71), and RWI advances once its bytes are performed at package scope; until then, and while the ring is full or absent, the
next waits in its source's pending slot, and ROVF is set where there was no room; a source whose slot is taken waits; `ring.post`
writes its eight scalars after a release at package scope.
And 15_traps_preemption R343, R344, R351: RRI follows the reader, never past RWI; TKILL kills the set of a frozen team, and lets its
copies run on; a killed set whose copies, posts and granted passes are done is released with its teams. -/
def Obligations.RingAndKill : Prop := ((∀ (s : State) (src : RingSrc) (e : RingEnt),
  let rsz := s.csrs.rctl.toNat % 32
  let room : Prop := s.csrs.rbase ≠ 0 ∧ 4 ≤ rsz ∧ rsz ≤ 16 ∧ (s.csrs.rwi - s.csrs.rri).toNat < 2 ^ rsz
  let at_ := s.csrs.rbase.toNat + 64 * (s.csrs.rwi.toNat % 2 ^ rsz)
  let written (s' : State) : Prop := ∃ ws : List Write, s' = { s with
      pend := s.pend ++ ws, nextId := s.nextId + ws.length, ringOut := ws.map (·.id), ringHeld := s'.ringHeld } ∧
    ws.map (·.id) = (List.range ws.length).map (s.nextId + ·) ∧
    (ws.flatMap (·.bytes)) = (ringWords e s.csrs.rwi).flatMap (fun w => toBytes 4 w.toNat) ∧
    (s.csrs.rbase.toNat % 64 = 0 → ws.map (·.addr) = [at_, at_ + 16, at_ + 32, at_ + 48]) ∧
    ∀ w ∈ ws, w.src = none ∧ w.die = ringDie src ∧ w.tgt = .glob ∧ w.key = 0 ∧ w.repl = false ∧ w.gate = none
  (s.ringBusy src = false → (room ∧ s.ringOut = [] → written (s.ringPut src e) ∧ (s.ringPut src e).ringHeld = s.ringHeld) ∧
    (room ∧ s.ringOut ≠ [] → s.ringPut src e = { s with ringHeld := s.ringHeld ++ [(src, e)] }) ∧
    (¬room → s.ringPut src e =
      { s with ringHeld := s.ringHeld ++ [(src, e)], csrs := { s.csrs with rctl := s.csrs.rctl ||| 0x80000000#32 } })) ∧
  (s.ringBusy src = true → (∀ d, src ≠ .check d) → s.ringPut src e = { s with ringWait := s.ringWait ++ [(src, e)] }) ∧
  (s.ringHeld.find? (·.1 == src) = some (src, e) →
    (¬(room ∧ s.ringOut = []) → exec (.pendingSlotWrite src) s = .next s) ∧
    (room ∧ s.ringOut = [] → ∃ s', exec (.pendingSlotWrite src) s = .next s' ∧ written s' ∧ s'.ringHeld = s.ringHeld.erase (src, e))) ∧
  (s.ringOut ≠ [] → s.ringOut.any s.onWay = false → s.ringAdvance = { s with ringOut := [], csrs := { s.csrs with rwi := s.csrs.rwi + 1 } }) ∧
  (s.ringOut = [] ∨ s.ringOut.any s.onWay = true → s.ringAdvance = s)) ∧
  (∀ (src : RingSrc) (n : Nat), (src = .core n → ringDie src = n / 96) ∧ (src = .ccc n ∨ src = .cpe n ∨ src = .completion n → ringDie src = n / 24) ∧
    (src = .package → ringDie src = 0) ∧ (src = .dieDist n → ringDie src = n)) ∧
  (∀ (w : RPostW) (s : State) (c : Ctx) (f : Frag), Issues s c (.ringPost w) → s.frag? c.cur = some f →
    let i : Instr := .ringPost w
    let u := c.cur.unit
    let seen := (s.writes.filter fun w => w.dies.contains (s.dieOf u)).map (·.id)
    let post : Prop := (s.ringBusy (s.ringSrc u) = true → Waits i s c .ring s) ∧
      (s.ringBusy (s.ringSrc u) = false → ∃ e : RingEnt, Retires i s c (s.ringPut (s.ringSrc u) e) ∧ e.kind = 8 ∧ e.code = 0 ∧
        e.aux = w.code.setWidth 64 ∧ e.owner = s.ownerOf u ∧ e.teamid = teamOf u ∧
        e.payload = (s.envOf c i).a.map fun r => r.vals.getD 0 0)
    (c.phase = 0 → s.quiet u (s.seqOf u) = false → Waits i s c .stall s) ∧
    (c.phase = 0 → s.quiet u (s.seqOf u) = true → seen ≠ [] → Waits i s c .stall (s.modFrag c.cur fun f => { f with phase := 1, snap := seen })) ∧
    (c.phase = 0 → s.quiet u (s.seqOf u) = true → seen = [] → post) ∧
    (c.phase ≠ 0 → f.snap.any s.onWay = true → Waits i s c .stall s) ∧ (c.phase ≠ 0 → f.snap.any s.onWay = false → post))) ∧
  (∀ (s : State) (v : Word) (n : Nat),
  (s.csrs.rwi - v ≤ s.csrs.rwi - s.csrs.rri → exec (.rriWrite v) s = .next { s with csrs := { s.csrs with rri := v } }) ∧
  (¬ s.csrs.rwi - v ≤ s.csrs.rwi - s.csrs.rri → exec (.rriWrite v) s = .next s) ∧
  (∀ q z, s.team? v.toNat = some q → s.set? q.set = some z → (z.frozen = false → exec (.tkillWrite v) s = .next s) ∧
    (z.frozen = true → ∃ s', exec (.tkillWrite v) s = .next s' ∧ s'.set? q.set = some { z with killed := true } ∧
      (∀ m, m ≠ q.set → s'.set? m = s.set? m) ∧ SameMem s s' ∧
      ∀ t, s'.team? t = (s.team? t).map fun y => if t ∈ z.teams then { y with tags := y.tags.map fun l => l.map fun g => { g with halt := false } }
        else y)) ∧
  (s.team? v.toNat = none → exec (.tkillWrite v) s = .next s) ∧
  (∀ z, s.set? n = some z →
    (z.killed = false ∨ (∃ t ∈ z.teams, ∃ q, s.team? t = some q ∧ s.quietTeam t q = false) → exec (.frozenSetRelease n) s = .next s) ∧
    (z.killed = true → (∀ t ∈ z.teams, ∀ q, s.team? t = some q → s.quietTeam t q = true) → ∃ s', exec (.frozenSetRelease n) s = .next s' ∧
      s'.set? n = none ∧ (∀ m, m ≠ n → s'.set? m = s.set? m) ∧ (∀ t, s'.team? t = if t ∈ z.teams then none else s.team? t) ∧
      s'.mem = s.mem ∧ s'.pend = s.pend ∧ s'.flight = s.flight ∧ s'.csrs = s.csrs ∧ s'.ringHeld = s.ringHeld)))

/-- 05_copy_engine R115 to R119: a copy command. It waits for its tag, makes its checks in their order, and then its tag is pending with
the copy, and every tile of its scratchpad extent has one more user; no memory has changed. -/
def Obligations.CopyCommands : Prop := (∀ (w : CpW) (i : Instr) (sub : Nat) (s : State) (c : Ctx) (t k : Nat) (x : Warp) (q : Team),
  (i, sub) ∈ [(Instr.cpG2s w, 0), (.cpS2g w, 1), (.cpS2o w, 2), (.cpA2s w, 3)] → WarpIssues s c i t k x → s.team? t = some q →
    let ci := k % q.cores.length
    let n := w.tag.toNat
    let a := cpAsk w sub (s.envOf c i) s c.cur.unit t
    (s.tag? t ci n = none → Traps i s c (oneTrap cRANGE (BitVec.ofNat 64 n))) ∧
    ∀ g, s.tag? t ci n = some g → (g.st = 1 → Waits i s c (.tagIssue n) s) ∧
      (g.st ≠ 1 → (∀ m v, s.cpCheck t (w.b.toNat % 128 + 1) a = .error (m, v) → Traps i s c (oneTrap m v)) ∧
        ∀ e, s.cpCheck t (w.b.toNat % 128 + 1) a = .ok e → ∃ s1, Retires i s c s1 ∧ SameMem s s1 ∧
          { s1 with teams := s.teams, nextId := s.nextId } = s ∧ s1.nextId = s.nextId + 1 ∧ (∀ u, s1.regs? u = s.regs? u) ∧
          (∀ j, s1.warp? t j = (s.warp? t j).map (·.modFrags (s.satMark t ci))) ∧
          s1.tag? t ci n = some ⟨1, false, false, false, sub, 0, 0, 0, some { a with at_ := e }⟩ ∧
          (∀ t' ci' n', (t', ci', n') ≠ (t, ci, n) → s1.tag? t' ci' n' = s.tag? t' ci' n') ∧
          (∀ t' ci' m, s1.tileE t' ci' m = s.tileE t' ci' m) ∧
          ∀ t' ci' m y u, s.team? t' = some y → y.uses[ci']? = some u → s1.tileUse t' ci' m = s.tileUse t' ci' m +
            if t' = e.1 ∧ ci' = e.2.1 ∧ e.2.2 / 4096 ≤ m ∧ m ≤ (e.2.2 + a.len - 1) / 4096 then 1 else 0)) ∧
  (∀ (w : CpW) (sub : Nat) (e : Env) (s : State) (u : UnitId) (t : Nat), sub ≤ 1 →
    let a := cpAsk w sub e s u t
    let shape := (opScal (e.b.take 1), opScal ((e.b.drop 1).take 1), sextNat 32 (opScal ((e.b.drop 2).take 1)))
    a.sub = sub ∧ a.gva = BitVec.ofNat 64 (opScal (e.d.take 2)) ∧
    a.sp = ((if w.az then 0 else opScal e.a) + w.soff.toNat * 1024) % 2 ^ 32 ∧
    a.shape = (if w.shp then some shape else none) ∧
    a.len = (if w.li then 128 * w.b.toNat else if w.shp then shape.1 * shape.2.1 else opScal e.b) ∧
    a.mbox = (if sub = 1 ∧ w.mb = true then some (BitVec.ofNat 64 (opScal (e.d.drop 2))) else none) ∧ (a.rel = true ↔ sub = 1 ∧ w.rel = true)) ∧
  ∀ (s : State) (t rows : Nat) (a : Copy),
    let fails (m v : Nat) : Prop := s.cpCheck t rows a = .error (m, BitVec.ofNat 64 v)
    let gva := a.gva.toNat
    let aligned : Prop := a.sp % 16 = 0 ∧ gva % 16 = 0 ∧ ∀ m, a.mbox = some m → m.toNat % 64 = 0
    let rowOk (r : Nat) : Prop := r % 16 = 0 ∧ 16 ≤ r ∧ r ≤ 65536
    let shaped : Prop := ∀ r n st, a.shape = some (r, n, st) → rowOk r ∧ 1 ≤ n ∧ n ≤ 4096 ∧ st % 16 = 0
    let lenOk : Prop := a.len ≠ 0 ∧ a.len % 16 = 0 ∧ a.len ≤ 393216 ∧ (a.mbox ≠ none → 64 ≤ a.len)
    let sized : Prop := a.sub ≤ 1 → gva < 2 ^ 48 ∧ shaped ∧ lenOk
    let claimed : Prop := a.sub = 2 → ∃ q z, s.team? t = some q ∧ q.slots[a.slot]? = some z ∧ z.cl = true
    let at_ (e : Nat × Nat × Nat) : Prop := s.spDecode t a.sp = some e ∧ (s.spDecode t (a.sp + a.len - 1)).map (fun x => (x.1, x.2.1)) = some (e.1, e.2.1)
    let rowed : Prop := a.sub = 3 → a.row + rows ≤ 512 ∧ ∀ r, r < rows → inRegion (s.blocksOf t) (a.row + r) a.col = true
    (a.sp % 16 ≠ 0 → fails cALIGN a.sp) ∧ (a.sp % 16 = 0 → gva % 16 ≠ 0 → fails cALIGN gva) ∧
    (∀ m, a.sp % 16 = 0 → gva % 16 = 0 → a.mbox = some m → m.toNat % 64 ≠ 0 → fails cALIGN m.toNat) ∧
    (aligned → a.sub ≤ 1 → (2 ^ 48 ≤ gva → fails cRANGE gva) ∧
      (∀ r n st, gva < 2 ^ 48 → a.shape = some (r, n, st) → (¬rowOk r → fails cRANGE r) ∧
        (rowOk r → ¬(1 ≤ n ∧ n ≤ 4096) → fails cRANGE n) ∧ (rowOk r → 1 ≤ n → n ≤ 4096 → st % 16 ≠ 0 → fails cRANGE (wrapNat 32 st))) ∧
      (gva < 2 ^ 48 → shaped → ¬lenOk → fails cRANGE a.len)) ∧
    (aligned → a.sub = 2 → ¬claimed → fails cSLOT a.slot) ∧
    (aligned → sized → claimed → (s.spDecode t a.sp = none → fails cRANGE a.sp) ∧
      (∀ e, s.spDecode t a.sp = some e → ¬at_ e → fails cRANGE (a.sp + a.len - 1)) ∧
      ∀ e, at_ e → let e7 (m : Nat) : Prop := e.2.2 / 4096 ≤ m ∧ m ≤ (e.2.2 + a.len - 1) / 4096
        (a.sub = 3 → 512 < a.row + rows → fails cRANGE (a.row + rows)) ∧
        (∀ r, a.sub = 3 → a.row + rows ≤ 512 → r < rows → inRegion (s.blocksOf t) (a.row + r) a.col = false →
          (∀ q, q < r → inRegion (s.blocksOf t) (a.row + q) a.col = true) → fails cRANGE (a.row + r + 2 ^ 16 * a.col)) ∧
        (∀ m, rowed → e7 m → s.tileE e.1 e.2.1 m = false → (∀ q, q < m → e7 q → s.tileE e.1 e.2.1 q = true) →
          fails cOWNER (a.sp / 2 ^ 20 * 2 ^ 20 + 4096 * m)) ∧
        (rowed → (∀ m, e7 m → s.tileE e.1 e.2.1 m = true) → s.cpCheck t rows a = .ok e))

/-- 05_copy_engine R118 to R121; 06_consistency R143, R145: the units of a copy. The engine serves a cluster's cores in turn, a burst to
its end; the copy served asks for current for its burst, and with it moves 256 bytes at a time once its warp's earlier accesses and
its lookups let it: from global memory to scratchpad, from scratchpad to writes in flight, to an operand slot, or from the
accumulator, converted or not; a unit that fails stops the copy.
And 05_copy_engine R119 steps 5 to 8, R121, R122, R124: a copy whose units are performed or have failed, and whose writes are applied at its
die (everywhere, under `.rel.pkg`), is done, with its fault: its tiles lose one user, those without a user go back to the threads, and
its post, if any, is to follow, but not after a fault. -/
def Obligations.CopyProgress : Prop := (∀ (t ci n core : Nat) (s : State) (g : Tag) (a : Copy) (q : Team), s.team? t = some q →
    let run := exec (.copyUnit t ci n) s
    let cl := q.cluster
    let d := dieOfCluster cl
    let off := 256 * g.prog
    let len := min 256 (a.len - off)
    let held : Prop := ∃ r, s.curHeld cl .cpe = some r ∧ r.tag = a.order
    let looks : Prop := ∃ i ∈ a.parts g.prog, s.lookupOpen none d q.owner (a.gaddr i) = true
    let one (s' : State) (ids : List Nat) : Prop := (∃ h, s'.tag? t ci n = some { g with prog := g.prog + 1, cp := some { a with
        writes := a.writes ++ ids, head := h, last := s.unitsOn cl core + 1 } } ∧
          h = if g.prog = 0 then s.spBytes a.at_.1 a.at_.2.1 a.at_.2.2 64 else a.head) ∧
      s'.flight = s.flight ∧ s'.mem = s.mem ∧ s'.keys = s.keys ∧ (s'.cluster cl).held = ((s.curUse cl .cpe).cluster cl).held
    ((∀ x b, s.nextJob cl ≠ some ⟨t, ci, n, x, b⟩) → run = .next s) ∧
    (s.nextJob cl = some ⟨t, ci, n, core, a⟩ → s.tag? t ci n = some g → g.cp = some a →
      (¬held → ∃ s', run = .next s' ∧ { s' with clusters := s.clusters } = s ∧ (s'.cluster cl).held = (s.cluster cl).held ∧
        ∀ r ∈ (s'.cluster cl).reqs, r ∈ (s.cluster cl).reqs ∨
          r = ⟨.cpe, t, 3, (s.cluster cl).clk, a.order, min 16 (a.units - g.prog), min 4096 (a.len - off)⟩) ∧
      (held → s.unitHeld t a = true → run = .next s) ∧
      (held → s.unitHeld t a = false →
      (a.sub ≤ 1 → looks → run = .next s) ∧
      (∀ l, a.sub ≤ 1 → ¬looks → s.unitLeaves t a g.prog = .ok l → s.unitWaits t a l = true → run = .next s) ∧
      (∀ l, a.sub = 0 → ¬looks → s.unitLeaves t a g.prog = .ok l → s.unitWaits t a l = false → ∃ s', run = .next s' ∧ one s' [] ∧
        s'.pend = s.pend ∧ ∀ y m, s.team? a.at_.1 = some y → y.scratch[a.at_.2.1]? = some m →
          ∀ b, s'.spByte a.at_.1 a.at_.2.1 b = if a.at_.2.2 + off ≤ b ∧ b < a.at_.2.2 + off + 16 * l.length then
            (l.flatMap fun p => s.dieBytes d p.2.key (if p.2.repl then replAddr d p.2.pa else p.2.pa) 16).getD (b - (a.at_.2.2 + off)) 0
            else s.spByte a.at_.1 a.at_.2.1 b) ∧
      (∀ l, a.sub = 1 → ¬looks → s.unitLeaves t a g.prog = .ok l → s.unitWaits t a l = false → ∃ s' old ws, run = .next s' ∧
        one s' ((List.range ws.length).map (s.nextId + ·)) ∧ SameMem s s' ∧ s'.pend = old ++ ws ∧
        old.map (fun w => { w with whole := false }) = s.pend.map (fun w => { w with whole := false }) ∧
        (∀ w ∈ ws, w.src = none ∧ w.seq = a.order ∧ w.die = d ∧ w.tgt = .glob ∧ w.gate = none) ∧
        ws.flatMap (fun w => (List.range w.bytes.length).map fun b => (w.addr + b, w.key, w.bytes.getD b 0, w.repl)) = l.flatMap fun p =>
          (List.range 16).map fun b => (p.2.pa + b, p.2.key, s.spByte a.at_.1 a.at_.2.1 (a.at_.2.2 + p.1 + b), p.2.repl)) ∧
      (a.sub = 2 → ∃ s', run = .next s' ∧ one s' [] ∧ SameMem s s' ∧ s'.pend = s.pend ∧ ∀ z, q.slots[a.slot]? = some z → ∃ z',
        (s'.team? t).bind (fun y => y.slots[a.slot]?) = some z' ∧ z'.cl = z.cl ∧ z'.fmt = z.fmt ∧ ∀ b, tgetD z'.bytes b 0 =
          if off ≤ b ∧ b < off + len then s.spByte a.at_.1 a.at_.2.1 (a.at_.2.2 + b) else tgetD z.bytes b 0) ∧
      (a.sub = 3 → len % 4 = 0 → ∃ s', run = .next s' ∧ one s' [] ∧ s'.pend = s.pend ∧
        ∀ y m, s.team? a.at_.1 = some y → y.scratch[a.at_.2.1]? = some m → ∀ b, b < len →
          let es := if a.ct = 0 then 4 else 2
          let e := (off + b) / es
          let v := (s.accElem t (512 * (a.row + e / 128) + a.col + e % 128)).toNat
          s'.spByte a.at_.1 a.at_.2.1 (a.at_.2.2 + off + b) = (toBytes es (if a.ct = 0 then v else
            (fcvtFF (if a.ct = 1 then f16 else bf16) 0 (fdec f32 v)).1)).getD (b % es) 0) ∧
      (∀ m v, a.sub ≤ 1 → ¬looks → s.unitLeaves t a g.prog = .error (m, v) → ∃ s', run = .next s' ∧ SameMem s s' ∧ s'.pend = s.pend ∧
        s'.tag? t ci n = some { g with cp := some { a with fault := some (m, v) } })))) ∧
  (∀ (s : State) (cl : Nat) (j : Job), s.nextJob cl = some j →
    let c := s.cluster cl
    let burst (x : Job) : Prop := ∃ r ∈ c.held ++ c.reqs, r.who = .cpe ∧ r.tag = x.cp.order
    j ∈ s.jobs cl ∧
    (burst j ∨ (∀ x ∈ s.jobs cl, ¬burst x) ∧ ∃ i, i < 4 ∧ j.core = (c.cpeTurn + i) % 4 ∧
      ∀ k, k < i → ∀ x ∈ s.jobs cl, x.core ≠ (c.cpeTurn + k) % 4)) ∧
  (∀ (t ci n : Nat) (s : State) (g : Tag) (a : Copy) (q : Team), s.team? t = some q →
  s.tag? t ci n = some g → g.cp = some a → (∀ p ∈ q.posts, ¬(p.ci = ci ∧ p.tag = n)) →
    let run := exec (.copyCompletion t ci n) s
    let ended : Prop := a.fault ≠ none ∨ a.units ≤ g.prog
    let beyond : Prop := g.st = 1 ∧ g.halt = false ∧ g.dh = false ∧ ended ∧ a.writes.all (s.appliedAt (dieOfCluster q.cluster)) = true ∧
      (a.fault = none → a.rel = true → ∀ id ∈ a.writes, s.onWay id = false)
    (¬beyond → run = .next s) ∧
    (beyond → 0 < a.len → ∃ s' tag, run = .next s' ∧ SameMem s s' ∧ { s' with teams := s.teams } = s ∧ s'.tag? t ci n = some tag ∧
      tag.st = 2 ∧ tag.halt = false ∧ tag.dh = false ∧ tag.cp = none ∧ tag.prog = g.prog ∧
      (a.fault = none → tag.err = false ∧ tag.cause = 0) ∧
      (∀ m v, a.fault = some (m, v) → tag.err = true ∧ tag.cause = m ∧ tag.faddr = v) ∧
      (s'.team? t).map (·.posts) = some (q.posts ++ if a.fault = none then
        (a.mbox.map fun m => (⟨ci, n, m, wordsOf a.head, a.writes⟩ : CPost)).toList else []) ∧
      ∀ y m u z, y = a.at_.1 → s.team? y = some z → z.uses[a.at_.2.1]? = some u →
        let hit : Prop := a.at_.2.2 / 4096 ≤ m ∧ m ≤ (a.at_.2.2 + a.len - 1) / 4096
        s'.tileUse y a.at_.2.1 m = (if hit then s.tileUse y a.at_.2.1 m - 1 else s.tileUse y a.at_.2.1 m) ∧
        s'.tileE y a.at_.2.1 m = (if hit ∧ s.tileUse y a.at_.2.1 m ≤ 1 then false else s.tileE y a.at_.2.1 m)))

/-- 05_copy_engine R124 to R126: `cp.halt`, `cp.go` and the tag forms. A wait passes on done tags, traps with the fault of one it
observes, and traps ORPHAN when nothing can end it; the other forms never wait. When tags change, a waiting fragment whose wait they
had satisfied keeps what it found, and one that nothing can end any more its failure.
And 05_copy_engine R126; 15_traps_preemption R331: what a wait's trap holds. -/
def Obligations.TagForms : Prop := (∀ (s : State) (t ci m : Nat) (f : Frag),
  let l := s.masked t ci m
  let found (p : Nat × Tag) : List Nat := if p.2.err then [p.1, p.2.cause, p.2.faddr.toNat] else [p.1]
  (2 ≤ f.phase → s.satMark t ci f = f ∧ s.orphanMark t ci f = f) ∧
  (f.phase < 2 → f.wait = some (.tagAll ci m) →
    ((∀ p ∈ l, p.2.st = 2) → s.satMark t ci f = { f with phase := 3, snap := ((l.find? (·.2.err)).map found).getD [] }) ∧
    ((∃ p ∈ l, p.2.st ≠ 2) → s.satMark t ci f = f) ∧
    (∀ n g, l.find? (·.2.st == 0) = some (n, g) → s.orphanMark t ci f = { f with phase := 2, snap := [n] }) ∧
    ((∀ p ∈ l, p.2.st ≠ 0) → s.orphanMark t ci f = f)) ∧
  (f.phase < 2 → f.wait = some (.tagAny ci m) →
    (∀ p, l.find? (·.2.st == 2) = some p → s.satMark t ci f = { f with phase := 3, snap := found p }) ∧
    ((∀ p ∈ l, p.2.st ≠ 2) → s.satMark t ci f = f) ∧
    ((∀ p ∈ l, p.2.st = 0) → s.orphanMark t ci f = { f with phase := 2, snap := [(l.head?.map (·.1)).getD 64] }) ∧
    ((∃ p ∈ l, p.2.st ≠ 0) → s.orphanMark t ci f = f))) ∧
  (∀ (n m : Nat) (a : DWord), (tagTrap n m a).code = m ∧ (tagTrap n m a).aux = (if m = cINTEG then a else BitVec.ofNat 64 n) ∧
    (tagTrap n m a).lanes = [(0, m, a)]) ∧
  (∀ (tag : BitVec 6) (s : State) (c : Ctx) (t k : Nat) (x : Warp) (q : Team), s.team? t = some q →
  let ci := k % q.cores.length
  let n := tag.toNat
  (WarpIssues s c (.cpHalt tag) t k x →
    (s.tag? t ci n = none → Traps (.cpHalt tag) s c (plainTrap cRANGE)) ∧
    ∀ g, s.tag? t ci n = some g → (g.st ≠ 1 ∨ g.halt = true → Retires (.cpHalt tag) s c s) ∧
      (g.st = 1 → g.halt = false → (∃ a, g.cp = some a ∧ (a.fault ≠ none ∨ a.units ≤ g.prog)) → Waits (.cpHalt tag) s c (.halt n) s) ∧
      (g.st = 1 → g.halt = false → (∀ a, g.cp = some a → a.fault = none ∧ g.prog < a.units) →
        ∃ s1 : State, Retires (.cpHalt tag) s c (s1.modTag t ci n fun g => { g with halt := true }) ∧ { s1 with clusters := s.clusters } = s ∧
          (∀ x, x ≠ q.cluster → s1.cluster x = s.cluster x) ∧ ∀ a, g.cp = some a →
            ∀ r ∈ (s1.cluster q.cluster).held ++ (s1.cluster q.cluster).reqs, ¬(r.who = .cpe ∧ r.tag = a.order))) ∧
  (WarpIssues s c (.cpGo tag) t k x →
    (s.tag? t ci n = none → Traps (.cpGo tag) s c (plainTrap cRANGE)) ∧
    ∀ g, s.tag? t ci n = some g → (g.st ≠ 1 → Retires (.cpGo tag) s c s) ∧
      (g.st = 1 → Retires (.cpGo tag) s c (s.modTag t ci n fun g => { g with halt := false })))) ∧
  ∀ (w : TagW) (i : Instr) (s : State) (c : Ctx) (q : Team), i ∈ [Instr.tagWany w, .tagWall w, .tagFfr w, .tagClr w, .tagRd w] →
    Issues s c i → s.team? (teamOf c.cur.unit) = some q →
    let u := c.cur.unit
    let e := s.envOf c i
    let ci := if w.xc then w.ci.toNat else s.ownCi u
    let tags := s.tags (teamOf u) ci
    let m := if w.mi then w.imm.toNat else opScal e.a
    let l := s.masked (teamOf u) ci m
    let kept := ((s.frag? c.cur).map (·.snap)).getD []
    let note := kept.headD 0
    let busy : Bool := s.acqPending u
    let ends (k : Prop) : Prop := (∀ n m v, kept = [n, m, v] → Traps i s c (tagTrap n m (BitVec.ofNat 64 v))) ∧ ((∀ n m v, kept ≠ [n, m, v]) → k)
    (w.xc = true → q.cores.length ≤ w.ci.toNat → Traps i s c (plainTrap cRANGE)) ∧
    (w.xc = false → isCcc u = true → Traps i s c (plainTrap cILLCTX)) ∧
    ((w.xc = true ∧ w.ci.toNat < q.cores.length) ∨ (w.xc = false ∧ isCcc u = false) →
      (i ≠ .tagRd w → 2 ^ tags.length ≤ m → Traps i s c (plainTrap cRANGE)) ∧
      (i ≠ .tagRd w → m < 2 ^ tags.length →
        (i = .tagWany w → (c.phase = 2 → Traps i s c (orphan note)) ∧
          (c.phase ≠ 2 → busy = true → Waits i s c .stall s) ∧
          (c.phase = 3 → busy = false → ends (Retires i s c (s.setScal u e.dst [BitVec.ofNat 32 note]))) ∧
          (c.phase < 2 → busy = false → (∀ n g, l.find? (·.2.st == 2) = some (n, g) → (g.err = true → Traps i s c (tagTrap n g.cause g.faddr)) ∧
              (g.err = false → Retires i s c (s.setScal u e.dst [BitVec.ofNat 32 n]))) ∧
            ((∀ p ∈ l, p.2.st ≠ 2) → ((∀ p ∈ l, p.2.st = 0) → Traps i s c (orphan ((l.head?.map (·.1)).getD 64))) ∧
              ((∃ p ∈ l, p.2.st ≠ 0) → Waits i s c (.tagAny ci m) s)))) ∧
        (i = .tagWall w → (c.phase = 2 → Traps i s c (orphan note)) ∧
          (c.phase ≠ 2 → busy = true → Waits i s c .stall s) ∧
          (c.phase = 3 → busy = false → ends (Retires i s c s)) ∧
          (c.phase < 2 → busy = false → (∀ n g, l.find? (·.2.st == 0) = some (n, g) → Traps i s c (orphan n)) ∧
            ((∀ p ∈ l, p.2.st = 2) → (∀ n g, l.find? (·.2.err) = some (n, g) → Traps i s c (tagTrap n g.cause g.faddr)) ∧
              ((∀ p ∈ l, p.2.err = false) → Retires i s c s)) ∧
            ((∀ p ∈ l, p.2.st ≠ 0) → (∃ p ∈ l, p.2.st ≠ 2) → Waits i s c (.tagAll ci m) s))) ∧
        (i = .tagFfr w → Retires i s c (s.setScal u e.dst
          [((l.find? (·.2.st == 2)).map fun p => BitVec.ofNat 32 p.1).getD 0xFFFFFFFF#32])) ∧
        (i = .tagClr w → ∃ s1, Retires i s c s1 ∧ { s1 with teams := s.teams } = s ∧ SameMem s s1 ∧
          (∀ t' ci', (t', ci') ≠ (teamOf u, ci) → s1.tags t' ci' = s.tags t' ci') ∧
          (∀ j, s1.warp? (teamOf u) j = (s.warp? (teamOf u) j).map (·.modFrags fun f => s1.orphanMark (teamOf u) ci (s.satMark (teamOf u) ci f))) ∧
          ∀ n g, n < 64 → s.tag? (teamOf u) ci n = some g → s1.tag? (teamOf u) ci n =
            some (if bitOf m n = true ∧ g.st = 2 then { g with st := 0, err := false, cause := 0 } else g))) ∧
      (i = .tagRd w →
        (w.imm.getLsbD 15 = true → ∃ v : DWord, Retires i s c (s.setScal u e.dst [loWord v, hiWord v]) ∧
          ∀ n, n < 64 → v.getLsbD n = (tags[n]?).any fun g => g.st == 2) ∧
        (w.imm.getLsbD 15 = false → (tags[w.imm.toNat % 64]? = none → Traps i s c (plainTrap cRANGE)) ∧
          ∀ g, tags[w.imm.toNat % 64]? = some g → ∃ v : Word, Retires i s c (s.setScal u e.dst [v]) ∧
            (g.st < 4 → g.dir < 8 → g.cause < 256 → g.prog < 2 ^ 11 → v.toNat = g.st + 2 ^ 2 * bit g.halt + 2 ^ 3 * bit g.dh +
              2 ^ 4 * bit g.err + 2 ^ 5 * g.dir + 2 ^ 8 * g.cause + 2 ^ 16 * g.prog))))

/-- 05_copy_engine R122, R128 to R130: `own.give` waits until no thread access touches the tiles, and the warp's own scratchpad accesses,
acquires and fences are performed (06_consistency R143, R145), and then gives them to the engine;
`own.test` reads which tiles are the threads'; both trap on a misaligned address and on a range that leaves the team core. -/
def Obligations.TileOwnership : Prop := ∀ (w : OwnW) (i : Instr) (s : State) (c : Ctx) (t k : Nat) (x : Warp),
  i ∈ [Instr.ownGive w, .ownTest w] → WarpIssues s c i t k x →
    let e := s.envOf c i
    let a := ((if w.az then 0 else opScal e.a) + w.toff.toNat * 4096) % 2 ^ 32
    let n := w.nt.toNat + 1
    let bad (m : Nat) : Prop := Traps i s c (oneTrap m (BitVec.ofNat 64 a))
    (a % 4096 ≠ 0 → bad cALIGN) ∧
    (a % 4096 = 0 → s.spDecode t (a + 0x100) = none → bad cRANGE) ∧
    ∀ g ci off y, a % 4096 = 0 → s.spDecode t (a + 0x100) = some (g, ci, off) → s.team? g = some y →
      let first := off / 4096
      (y.tiles < first + n ∨ (i = .ownGive w ∧ ci = 0 ∧ first = 0) → bad cRANGE) ∧
      (first + n ≤ y.tiles → ¬(i = .ownGive w ∧ ci = 0 ∧ first = 0) →
        (i = .ownGive w → s.tilesBusy g ci first n = true ∨ s.spOpen c.cur.unit = true → Waits i s c (.give g ci first n) s) ∧
        (i = .ownGive w → s.tilesBusy g ci first n = false → s.spOpen c.cur.unit = false → ∃ s1, Retires i s c s1 ∧
          { s1 with teams := s.teams } = s ∧ SameMem s s1 ∧ (∀ u, s1.regs? u = s.regs? u) ∧
          ∀ g' ci' m, (∃ o, y.eown[ci]? = some o) →
            s1.tileE g' ci' m = (s.tileE g' ci' m || (decide (g' = g) && decide (ci' = ci) && decide (first ≤ m) && decide (m < first + n)))) ∧
        (i = .ownTest w → n ≤ 32 → ∃ v : Word, (∃ s', exec i s = .next s' ∧ ScalarDone s s' c i t k x e.dst [v]) ∧
          ∀ b, b < 32 → v.getLsbD b = (decide (b < n) && !s.tileE g ci (first + b))))

/-- 11_matrix_engine R245 to R250: `op.claim` and `op.rel` wait for the passes that read the slot; `op.st` stores lanes into a claimed
slot, the highest lane last; `mx.feed` writes a row segment in the slot's format. Each traps before any effect.
And 11_matrix_engine R251 to R254, R256: `ac.ld` loads a row of elements, `ac.clr` clears rows at once in a warp and through an entry
in a context, `mx.cfg` sets MXC. -/
def Obligations.SlotsAndAccumulators : Prop := ((∀ (w : ClaimW) (s : State) (c : Ctx) (i : Instr) (f : Slot → Slot),
  (i, f) ∈ [(Instr.opClaim w, fun z : Slot => { z with cl := true, fmt := w.fmt.toNat }), (.opRel w.k, fun z => { z with cl := false })] →
  Issues s c i →
    let u := c.cur.unit
    let t := teamOf u
    let k := w.k.toNat
    (s.slot? t k = none → Traps i s c (plainTrap cSLOT)) ∧
    ((s.slot? t k).isSome = true → s.passReads t k = true → Waits i s c (.pass k) s) ∧
    ((s.slot? t k).isSome = true → s.passReads t k = false → s.heldBack u (fun _ => false) = true → Waits i s c .stall s) ∧
    ((s.slot? t k).isSome = true → s.passReads t k = false → s.heldBack u (fun _ => false) = false →
      Retires i s c (s.modTeam t fun x => { x with slots := lmod x.slots k f }))) ∧
  (∀ (w : OpStW) (s : State) (c : Ctx) (t k : Nat) (x : Warp), WarpIssues s c (.opSt w) t k x →
    let i : Instr := .opSt w
    let e := s.envOf c i
    let n := szBytes w.sz
    let m := effMap e [e.a, e.b]
    let off (l : Nat) : Nat := opLane e.b l % 2 ^ 32 + 16 * w.off.toNat
    let mism := w.strict && occMism c.lm [e.a, e.b]
    (mism = true → Traps i s c (mismTrap c.lm [e.a, e.b])) ∧
    (mism = false → (∀ z, s.slot? t w.k.toNat = some z → z.cl = false) → Traps i s c { plainTrap cSLOT with cmap := m }) ∧
    (∀ z, mism = false → s.slot? t w.k.toNat = some z → z.cl = true →
      let bad := (lanesOf m).filterMap fun l => if off l % n ≠ 0 then some (l, cALIGN, BitVec.ofNat 64 (off l))
        else if imageBytes z.fmt < off l + n then some (l, cRANGE, BitVec.ofNat 64 (off l)) else none
      (bad ≠ [] → Traps i s c (laneTrap bad m)) ∧
      (bad = [] → s.heldBack c.cur.unit (fun _ => false) = true → Waits i s c .stall s) ∧
      (bad = [] → s.heldBack c.cur.unit (fun _ => false) = false → ∃ z', Retires i s c (s.modSlot t w.k.toNat fun _ => z') ∧
        z'.cl = true ∧ z'.fmt = z.fmt ∧ ∀ b, tgetD z'.bytes b 0 =
          match ((lanesOf m).filter fun l => decide (off l ≤ b) && decide (b < off l + n)).getLast? with
          | some l => (toBytes n (opLane e.a l)).getD (b - off l) 0
          | none => tgetD z.bytes b 0))) ∧
  ∀ (w : FeedW) (s : State) (c : Ctx) (t k : Nat) (x : Warp), WarpIssues s c (.mxFeed w) t k x →
    let i : Instr := .mxFeed w
    let e := s.envOf c i
    let m := effMap e [e.a, e.b]
    let mism := w.strict && occMism c.lm [e.a, e.b]
    let vote := fmtVote (s.feature 5) (opMap e.b &&& c.lm) fun l => opLane e.b l % 2 ^ 32
    (mism = true → Traps i s c (mismTrap c.lm [e.a, e.b])) ∧
    (∀ v, mism = false → vote = .error v → Traps i s c (fmtTrap v m)) ∧
    (∀ f, mism = false → vote = .ok f → (∀ z, s.slot? t w.k.toNat = some z → z.cl = true → f ≠ z.fmt ∧ (f ≠ 4 ∨ 1 < z.fmt)) →
      Traps i s c { plainTrap cSLOT with cmap := m }) ∧
    (∀ f z, mism = false → vote = .ok f → s.slot? t w.k.toNat = some z → z.cl = true → f = z.fmt ∨ (f = 4 ∧ z.fmt ≤ 1) →
      let n := if f = z.fmt then 4 else 2
      let base := 32 * n * (w.seg.toNat + if w.sr then opScal (e.more.headD []) else 0)
      let v (l : Nat) : Nat × Word := if f = z.fmt then (opLane e.a l % 2 ^ 32, 0)
        else fcvtFF (if z.fmt = 0 then f16 else bf16) 0 (fdec f32 (opLane e.a l % 2 ^ 32))
      (imageBytes z.fmt < base + 32 * n → Traps i s c { plainTrap cRANGE with cmap := m }) ∧
      (base + 32 * n ≤ imageBytes z.fmt → s.heldBack c.cur.unit (fun _ => false) = true → Waits i s c .stall s) ∧
      (base + 32 * n ≤ imageBytes z.fmt → s.heldBack c.cur.unit (fun _ => false) = false → ∃ z',
        Retires i s c ((s.modSlot t w.k.toNat fun _ => z').modWarp t k fun y =>
          { y with fst := y.fst ||| flagsOr ((lanesOf m).map fun l => (v l).2) }) ∧ z'.cl = true ∧ z'.fmt = z.fmt ∧
        (∀ l j, m.getLsbD l = true → j < n → tgetD z'.bytes (base + n * l + j) 0 = (toBytes n (v l).1).getD j 0) ∧
        (∀ b, (∀ l j, m.getLsbD l = true → j < n → b ≠ base + n * l + j) → tgetD z'.bytes b 0 = tgetD z.bytes b 0)))) ∧
  ((∀ (w : AcLdW) (s : State) (c : Ctx) (t k : Nat) (x : Warp), WarpIssues s c (.acLd w) t k x →
  let i : Instr := .acLd w
  let e := s.envOf c i
  let row := w.row.toNat + (if w.rs then opScal e.a else 0)
  let col := 32 * w.cs.toNat
  (63 ≤ x.regs.flag (flagOf c.hdr i) → Waits i s c .stall s) ∧
  (x.regs.flag (flagOf c.hdr i) < 63 →
    (inRegion (s.blocksOf t) row col = false →
      Traps i s c { oneTrap cRANGE (BitVec.ofNat 64 (row % 512 + 2 ^ 16 * col + 2 ^ 32 * (row / 512))) with cmap := c.lm }) ∧
    (inRegion (s.blocksOf t) row col = true → Counted i s c t k x e c.lm
      ((lanesOf c.lm).map fun l => ⟨l, .acc t, 4 * (512 * row + col + l), 0, 4, 0, false, 0⟩) none none false))) ∧
  (∀ (w : AcClrW) (s : State) (c : Ctx), Issues s c (.acClr w) →
    let i : Instr := .acClr w
    let u := c.cur.unit
    let t := teamOf u
    let caps := (s.envOf c i).recs.map fun r => r.vals.getD 0 0
    let row := w.row.toNat + (if w.rs then (caps.getD 0 0).toNat else 0)
    let n := w.nr.toNat + 1
    let col := 128 * w.cb.toNat
    let ok := rowsOk (s.blocksOf t) (row, n, col)
    let hit (a : Acc) : Bool := hitsRows t (row, n, col) a
    (ok = false → isCcc u = false → Traps i s c (plainTrap cRANGE)) ∧
    (∀ k y, u = .ccc t k → s.ccc? t k = some y → EntryChecked i s c t k y (fun _ => [])
      ((ok = false → Traps i s c (plainTrap cRANGE)) ∧ (ok = true → EntryForm i s c t k y caps []))) ∧
    (ok = true → isCcc u = false → s.heldBack u hit = true → Waits i s c .stall s) ∧
    (∀ q, ok = true → isCcc u = false → s.heldBack u hit = false → s.team? t = some q → ∃ a,
      Retires i s c (s.modTeam t fun y => { y with acc := a }) ∧ ∀ r j, j < 512 → tgetD a (512 * r + j) 0 =
        if row ≤ r ∧ r < row + n ∧ col ≤ j ∧ j < col + 128 then 0 else tgetD q.acc (512 * r + j) 0)) ∧
  ∀ (w : CfgW) (s : State) (c : Ctx) (t k : Nat) (y : Ccc), CccIssues s c (.mxCfg w) t k y →
    let v : Word := if w.im then w.imm.setWidth 32 else BitVec.ofNat 32 (opScal (s.envOf c (.mxCfg w)).a)
    let bad : Prop := v.toNat / 4 % 4 ≠ 0 ∨ 2 ^ 11 ≤ v.toNat ∨ 32 < v.toNat / 16 % 64
    (bad → Traps (.mxCfg w) s c (plainTrap cRANGE)) ∧
    (¬bad → Retires (.mxCfg w) s c (s.modCcc t k fun z => { z with mxc := v, mxs := if w.cf then 0 else z.mxs })))

/-- 11_matrix_engine R255, R263, R265; 12_sparse_rows R271, R272: a pass or a scan is checked once as it issues, in the order of its rules,
and then issues through the reservation table with its scalars captured and its tiles in use. -/
def Obligations.MatrixEntries : Prop := (∀ (w : MxW) (i : Instr) (s : State) (c : Ctx) (t k : Nat) (y : Ccc), i ∈ [Instr.mxIp w, .mxOp w] →
  CccIssues s c i t k y →
    let slots : Prop := (s.slot? t w.a.toNat).isSome ∧ (s.slot? t w.b.toNat).isSome
    let rows := rowsOk (s.blocksOf t) (w.row0.toNat, 128, 128 * w.cb.toNat)
    EntryChecked i s c t k y (fun _ => []) (
    (¬slots → Traps i s c (plainTrap cSLOT)) ∧
    (slots → s.pointBad t i = true ∨ rows = false → Traps i s c (plainTrap cRANGE)) ∧
    (slots → s.pointBad t i = false → rows = true → EntryForm i s c t k y [] []))) ∧
  (∀ (w : MxW) (s : State) (c : Ctx) (t k : Nat) (y : Ccc), CccIssues s c (.mxRw w) t k y →
    let i : Instr := .mxRw w
    let e := s.envOf c i
    let p := opScal (e.a.take 1)
    let n := opScal (e.a.drop 1)
    let good : Prop := s.pointBad t i = false ∧ 1 ≤ n ∧ n ≤ 128 ∧ rowsOk (s.blocksOf t) (w.row0.toNat, n, 128 * w.cb.toNat) = true
    EntryChecked i s c t k y (fun v => s.extentTiles t (v.getD 0 0).toNat (1024 * (v.getD 1 0).toNat)) (
    (s.slot? t w.b.toNat = none → Traps i s c (plainTrap cSLOT)) ∧
    ((s.slot? t w.b.toNat).isSome = true → ¬good → Traps i s c (plainTrap cRANGE)) ∧
    ((s.slot? t w.b.toNat).isSome = true → good → p % 1024 ≠ 0 → Traps i s c (oneTrap cALIGN (BitVec.ofNat 64 p))) ∧
    ((s.slot? t w.b.toNat).isSome = true → good → p % 1024 = 0 →
      (∀ a, s.extent t p (1024 * n) = .error a → Traps i s c (oneTrap cRANGE (BitVec.ofNat 64 a))) ∧
      ∀ a, s.extent t p (1024 * n) = .ok a →
        (∀ v, s.tTile p (tilesOf a (1024 * n)) = some v → Traps i s c (oneTrap cOWNER (BitVec.ofNat 64 v))) ∧
        (s.tTile p (tilesOf a (1024 * n)) = none →
          EntryForm i s c t k y (e.recs.map fun r => r.vals.getD 0 0) (tilesOf a (1024 * n)))))) ∧
  ∀ (w : NzsW) (s : State) (c : Ctx) (t k : Nat) (y : Ccc), CccIssues s c (.mxNzs w) t k y →
    let i : Instr := .mxNzs w
    let e := s.envOf c i
    let d := opScal e.d
    let a := opScal e.a
    let n := opScal (e.b.take 1)
    let nr := opScal (e.b.drop 1)
    let src := 256 * (nr - 1) + 2 * n
    let good : Prop := s.pointBad t i = false ∧ 1 ≤ n ∧ n ≤ 128 ∧ 1 ≤ nr ∧ nr ≤ 128
    EntryChecked i s c t k y (fun v => (s.extentTiles t (v.getD 1 0).toNat (256 * ((v.getD 3 0).toNat - 1) + 2 * (v.getD 2 0).toNat) ++
      s.extentTiles t (v.getD 0 0).toNat (1024 * (v.getD 3 0).toNat)).eraseDups) (
    (¬good → Traps i s c (plainTrap cRANGE)) ∧
    (good → a % 16 ≠ 0 → Traps i s c (oneTrap cALIGN (BitVec.ofNat 64 a))) ∧
    (good → a % 16 = 0 → d % 1024 ≠ 0 → Traps i s c (oneTrap cALIGN (BitVec.ofNat 64 d))) ∧
    (good → a % 16 = 0 → d % 1024 = 0 →
      (∀ v, s.extent t a src = .error v → Traps i s c (oneTrap cRANGE (BitVec.ofNat 64 v))) ∧
      (∀ x v, s.extent t a src = .ok x → s.extent t d (1024 * nr) = .error v → Traps i s c (oneTrap cRANGE (BitVec.ofNat 64 v))) ∧
      ∀ x z, s.extent t a src = .ok x → s.extent t d (1024 * nr) = .ok z →
        let beyond : Prop := x.1 = z.1 ∧ x.2.1 = z.2.1 ∧ x.2.2 < z.2.2 + 1024 * nr ∧ z.2.2 < x.2.2 + src
        let ta := s.tTile a (tilesOf x src)
        let td := s.tTile d (tilesOf z (1024 * nr))
        (beyond → Traps i s c (oneTrap cRANGE (BitVec.ofNat 64 d))) ∧
        (∀ v, ¬beyond → ta = some v → Traps i s c (oneTrap cOWNER (BitVec.ofNat 64 v))) ∧
        (∀ v, ¬beyond → ta = none → td = some v → Traps i s c (oneTrap cOWNER (BitVec.ofNat 64 v))) ∧
        (¬beyond → ta = none → td = none → EntryForm i s c t k y (e.recs.map fun r => r.vals.getD 0 0)
          (tilesOf x src ++ tilesOf z (1024 * nr)).eraseDups)))

/-- 11_matrix_engine R266 to R269; 12_sparse_rows R273, R274: the arbiter grants the entry of the highest effective class, the earliest
of those, of the eligible ones whose current is granted, unless it touches what a granted entry touches; a failed check at grant ends
it and leaves its context a fault; a pass or a scan completes. -/
def Obligations.MatrixEvents : Prop := (∀ (cl : Nat) (s : State),
  let run := exec (.entryGrant cl) s
  let es := (s.cluster cl).entries
  let due (x : REnt) : Prop := x ∈ es ∧ s.eligible cl x = true ∧ ∃ r, s.curHeld cl x.unit = some r ∧ r.tag = x.id
  let bare (l : List REnt) : List REnt := l.map fun z => { z with asked := none }
  let idle : Prop := ∃ s', run = .next s' ∧ { s' with clusters := s.clusters } = s ∧ bare (s'.cluster cl).entries = bare es ∧
    ∀ n, n ≠ cl → s'.cluster n = s.cluster n
  (es.map (·.id)).Nodup → ((∀ x, ¬due x) → idle) ∧
  ∀ x, due x → (∀ z, due z → z ≠ x → z.effClass < x.effClass ∨ (z.effClass = x.effClass ∧ x.id < z.id)) →
    ((∃ z ∈ es, z.granted ≠ none ∧ x.clash z = true) → idle) ∧
    (∀ rows, (∀ z ∈ es, z.granted = none ∨ x.clash z = false) → s.grantCheck x = .ok rows →
      ∃ s', run = .next s' ∧ SameMem s s' ∧ s'.teams = s.teams ∧ s'.nextId = s.nextId + 1 ∧
      bare (s'.cluster cl).entries = bare (es.map fun z => if z.id = x.id then { z with granted := some s.nextId, rows := rows }
        else if s.eligible cl z then { z with passed := z.passed + 1 } else z)) ∧
    (∀ m y, (∀ z ∈ es, z.granted = none ∨ x.clash z = false) → s.grantCheck x = .error m → s.ccc? x.team x.ctx = some y →
      ∃ s', run = .next s' ∧ SameMem s s' ∧ ((s'.cluster cl).entries.map (·.id)) = (es.filter fun z => z.id != x.id).map (·.id) ∧
      (s'.ccc? x.team x.ctx).map (·.grantf) = some (y.grantf <|> some (x.va, m)))) ∧
  (∀ (t k : Nat) (s : State) (y : Ccc), s.ccc? t k = some y →
    let run := exec (.deferredTrap t k) s
    let may : Prop := y.exited = false ∧ y.trapd = none ∧ (s.set? (s.setOf t)).map (·.frozen) = some false
    (y.grantf = none ∨ ¬may → run = .next s) ∧
    (∀ va m, y.grantf = some (va, m) → may → ∃ s' z r, run = .next s' ∧ s'.ccc? t k = some z ∧ z.grantf = none ∧
      (s'.set? (s.setOf t)).map (·.frozen) = some true ∧ z.trapd = some r ∧ r.code = m ∧ r.dfr = true ∧ r.aux = va ∧ r.rpc = y.frag.cpc ∧
      r.rsl = y.frag.slot ∧ (r.arrw = true ↔ y.frag.phase = 1 ∧ ∃ pt, y.frag.wait = some (.rendezvous pt)))) ∧
  (∀ (cl : Nat) (s : State),
    (s.grantedEnt cl .mxe = none → exec (.passCompletion cl) s = .next s) ∧ (s.grantedEnt cl .nzs = none → exec (.scanCompletion cl) s = .next s) ∧
    ∀ x q o, s.grantedEnt cl .mxe = some x → s.team? x.team = some q → outRows x.instr x.caps = some o → o.2.2 % 128 = 0 → o.2.2 < 512 →
      ∃ s', exec (.passCompletion cl) s = .next s' ∧ s'.mem = s.mem ∧ s'.pend = s.pend ∧ s'.flight = s.flight ∧
        (s'.cluster cl).entries = (s.cluster cl).entries.filter (·.id != x.id) ∧
        ∀ r j, j < 512 → s'.accElem x.team (512 * r + j) =
          if o.1 ≤ r ∧ r < o.1 + o.2.1 ∧ o.2.2 ≤ j ∧ j < o.2.2 + 128 then
            if x.isPass = true then BitVec.ofNat 32 (s.passElem x (kBlocks x.mxc (s.passFmt x)) (r - o.1) (j - o.2.2)
              (if clrOf x.instr then 0 else (s.accElem x.team (512 * r + j)).toNat)).1 else 0
          else s.accElem x.team (512 * r + j)) ∧
  (∀ (s : State) (x : REnt) (n i j c : Nat), s.passElem x 0 i j c = (c, 0) ∧ s.passElem x (n + 1) i j c =
    let a := s.passElem x n i j c
    let b := s.blockSum x i j n
    let v := faddB f32 0 (fdec f32 a.1) (fdec f32 b.1)
    (v.1, a.2 ||| b.2 ||| v.2)) ∧
  ∀ (cl : Nat) (s : State) (x : REnt) (a d : Nat × Nat × Nat) (y : Team) (m : Table Byte), s.grantedEnt cl .nzs = some x →
    s.spDecode x.team (x.caps.getD 1 0).toNat = some a → s.spDecode x.team (x.caps.getD 0 0).toNat = some d →
    s.team? d.1 = some y → y.scratch[d.2.1]? = some m →
      let n := (x.caps.getD 2 0).toNat
      let e (k : Nat) : Nat := ofBytes ((List.range 2).map fun b => s.spByte a.1 a.2.1 (a.2.2 + 256 * x.lists + 2 * k + b))
      let nz := (List.range n).filter fun k => e k % 2 ^ 15 != 0
      let words := nz.length :: nz.map fun k => e k * 2 ^ 16 + k
      ∃ s', exec (.scanCompletion cl) s = .next s' ∧ s'.pend = s.pend ∧ s'.flight = s.flight ∧
        (∀ b, b < 4 * words.length → s'.spByte d.1 d.2.1 (d.2.2 + 1024 * x.lists + b) = (words.flatMap (toBytes 4)).getD b 0) ∧
        (x.lists + 1 = (x.caps.getD 3 0).toNat → (s'.cluster cl).entries = (s.cluster cl).entries.filter (·.id != x.id)) ∧
        (x.lists + 1 ≠ (x.caps.getD 3 0).toNat →
          (s'.cluster cl).entries = (s.cluster cl).entries.map fun z => if z.id = x.id then { z with lists := x.lists + 1 } else z)

/-- 06_consistency R151, R153 to R155: `rv.init` sets an object once; an arrival waits for its release, traps RANGE beyond PEND, and
else takes effect in one step; a wait ends once the phase of its target is complete and consumes it; `rv.arrw` is an arrival and
then a wait, which it resumes at. -/
def Obligations.Rendezvous : Prop := ∀ (w : RvW) (s : State) (c : Ctx) (f : Frag), s.frag? c.cur = some f → w.pt.toNat < f.tg.length →
  let u := c.cur.unit
  let t := teamOf u
  let pt := w.pt.toNat
  let o := s.rv t pt
  let k := if w.ci then w.cnt.toNat else opScal (s.envOf c (.rvInit w)).a
  let n := if w.ln then popcount c.lm else 1
  let after := (o.gen + 1) % 16
  let passed : Prop := (o.gen + 16 - f.tg.getD pt 1 % 16) % 16 ≤ 7
  let arrived (g : Frag → Frag) : State := (s.modFrag c.cur fun h => g { h with tg := lset h.tg pt after }).setRv t pt
    (if n = o.pend then { o with gen := after, pend := o.exp } else { o with pend := o.pend - n })
  let arrives (i : Instr) (done : Prop) : Prop :=
    (o.init = false → Traps i s c (plainTrap cRANGE)) ∧ (o.init = true → s.quiet u (s.seqOf u) = false → Waits i s c .arrival s) ∧
    (o.init = true → s.quiet u (s.seqOf u) = true → (o.pend < n → Traps i s c (plainTrap cRANGE)) ∧ (n ≤ o.pend → done))
  let waits (i : Instr) : Prop :=
    (o.init = false → Traps i s c (plainTrap cRANGE)) ∧ (o.init = true → ¬passed → Waits i s c (.rendezvous pt) s) ∧
    (o.init = true → passed → s.acqPending u = true → Waits i s c .stall s) ∧
    (o.init = true → passed → s.acqPending u = false →
      Retires i s c (s.modFrag c.cur fun h => { h with tg := lset h.tg pt ((f.tg.getD pt 1 + 1) % 16) }))
  (Issues s c (.rvInit w) → (k = 0 ∨ 4095 < k ∨ o.init = true → Traps (.rvInit w) s c (plainTrap cRANGE)) ∧
    (¬(k = 0 ∨ 4095 < k ∨ o.init = true) → Retires (.rvInit w) s c (s.setRv t pt ⟨o.gen, true, k, k⟩))) ∧
  (Issues s c (.rvArrive w) → arrives (.rvArrive w) (Retires (.rvArrive w) s c (arrived id))) ∧
  (Issues s c (.rvWait w) → waits (.rvWait w)) ∧
  (Issues s c (.rvArrw w) → (c.phase = 1 → waits (.rvArrw w)) ∧ (c.phase ≠ 1 → arrives (.rvArrw w)
    ((n < o.pend → Waits (.rvArrw w) s c (.rendezvous pt) (arrived fun h => { h with phase := 1 })) ∧
      (n = o.pend → s.acqPending u = true → Waits (.rvArrw w) s c .stall (arrived fun h => { h with phase := 1 })) ∧
      (n = o.pend → s.acqPending u = false → Retires (.rvArrw w) s c
        (arrived fun h => { h with phase := 1, tg := lset h.tg pt ((after + 1) % 16) })))))

/-- 14_execution_model R310, R311, R314, R321, R324; 06_consistency R138; 15_traps_preemption R345: `mbx.post` traps for a bad address
or an unmatched one, makes a release at package scope, waits until the packet and its lookup are performed there, and writes its
status: 0 launched, 1 no credit, 2 refused, with the ring entry of the refusal, or with the refused grid in its queue while the
distributor's pending slot is taken; a remote mailbox takes the message at its port. The mailbox is the lowest-numbered one that
matches. -/
def Obligations.MailboxPosts : Prop := (∀ (w : PostW) (s : State) (c : Ctx) (f : Frag), Issues s c (.mbxPost w) → s.frag? c.cur = some f →
  let i : Instr := .mbxPost w
  let u := c.cur.unit
  let e := s.envOf c i
  let a := BitVec.ofNat 64 (opScal e.a)
  let words := e.b.map fun r => r.vals.getD 0 0
  let o := s.ownerOf u
  let status (t : State) (v : Word) : State := t.modRegs u fun r => r.setS e.dst v
  let seen := (s.writes.filter fun w => w.dies.contains (s.dieOf u)).map (·.id)
  (a.toNat % 64 ≠ 0 → Traps i s c (oneTrap cALIGN a)) ∧
  (a.toNat % 64 = 0 → 2 ^ 48 ≤ a.toNat ∨ s.mboxOf o a false = none → Traps i s c (oneTrap cRANGE a)) ∧
  (∀ m, a.toNat % 64 = 0 → a.toNat < 2 ^ 48 → s.mboxOf o a false = some m →
    let va := s.mboxWord m 1
    let full : Prop := (s.mboxWord m 2).toNat % 256 ≤ (s.grids.filter fun g => g.2.mbox == some m).length
    let joins (p : List DWord) (args : List Word) (r : Option Nat) : State :=
      let g : Grid := ⟨some m, o, pktBits p 0 8 8 == 1, va, p, args, 16 * pktBits p 0 13 12 + m % 16, 0, 0, r⟩
      { s with nextId := s.nextId + 1, grids := tput s.grids s.nextId g }
    let post : Prop := ((s.mboxWord m 0).getLsbD 3 = true →
        let x := (s.mboxWord m 3).toNat
        let msg : Sent := ⟨x % 2 ^ 3, x / 2 ^ 8 % 2 ^ 24, false, x / 2 ^ 32, a, words.flatMap fun v => toBytes 4 v.toNat⟩
        Retires i s c (status { s with sent := s.sent ++ [msg] } 0)) ∧
      ((s.mboxWord m 0).getLsbD 3 = false →
        (full → Retires i s c (status s 1)) ∧
        (¬full → s.packetOpen o va = true → Waits i s c .stall s) ∧
        (¬full → s.packetOpen o va = false → (∀ p, s.readPacket o va (s.mboxSys m) = .ok p → Retires i s c (status (joins p words none) 0)) ∧
          ∀ k p, s.readPacket o va (s.mboxSys m) = .error (k, p) →
            (s.ringBusy .package = true → Retires i s c (status (joins p [] (some k)) 2)) ∧
            (s.ringBusy .package = false → Retires i s c (status
              (s.ringPut .package ⟨k, 4, o, 1023, 255, 0, false, 0, va, 0, 0, []⟩) 2))))
    (c.phase = 0 → s.quiet u (s.seqOf u) = false → Waits i s c .stall s) ∧
    (c.phase = 0 → s.quiet u (s.seqOf u) = true → seen ≠ [] → Waits i s c .stall (s.modFrag c.cur fun f => { f with phase := 1, snap := seen })) ∧
    (c.phase = 0 → s.quiet u (s.seqOf u) = true → seen = [] → post) ∧
    (c.phase ≠ 0 → f.snap.any s.onWay = true → Waits i s c .stall s) ∧ (c.phase ≠ 0 → f.snap.any s.onWay = false → post))) ∧
  ∀ (s : State) (o : Byte) (a : DWord) (host : Bool) (m : Nat), s.mboxOf o a host = some m ↔
    (m < 4096 ∧ s.mboxMatches o a host m = true ∧ ∀ n, n < m → s.mboxMatches o a host n = false)

/-- 17_power R383 to R392: `perf.req` sets the team's current class, at most the grid's; the current arbiter grants waiting requests in
order while quarters last, four a cycle, an eligible entry of the reservation table among them; a reservation ends after 152 cycles, a
vector or crossbar one after 128 / n, and an unfinished copy or traversal asks again for the rest; a new period, when it is due, resets
the counts of its die and takes the management values; the ratio follows the power class; an idle cluster begins gating, loses its
caches and wakes for a set that no other cluster takes. -/
def Obligations.CurrentAndPower : Prop := (∀ (w : PerfW) (s : State) (c : Ctx), Issues s c (.perfReq w) →
  let v := if w.im then w.c.toNat else opScal (s.envOf c (.perfReq w)).a
  (3 < v → Traps (.perfReq w) s c (oneTrap cRANGE 0)) ∧
  (v ≤ 3 → Retires (.perfReq w) s c (s.modTeam (teamOf c.cur.unit) fun x => { x with cur := min v (pktBits x.pkt 0 13 12) }))) ∧
  (∀ (q : Nat) (s : State), let x := s.cluster q
    ∃ (s1 s' : State) (got : List CurReq), exec (.currentGrant q) s = .next s' ∧
      let y := s1.cluster q
      let now := y.reqs.map fun r => { r with need := r.who.quarters x.ratio }
      { s1 with clusters := s.clusters } = s ∧ { s' with clusters := s.clusters } = s ∧ (∀ n, n ≠ q → s'.cluster n = s.cluster n) ∧
      { y with entries := x.entries, reqs := x.reqs } = x ∧
      y.entries.map (fun e => { e with asked := none }) = x.entries.map (fun e => { e with asked := none }) ∧
      (∀ r, r.who ≠ .mxe → r.who ≠ .nzs → (r ∈ y.reqs ↔ r ∈ x.reqs)) ∧
      (∀ r ∈ y.reqs, r.who = .mxe ∨ r.who = .nzs → ∃ e ∈ y.entries, e.id = r.tag ∧ e.unit = r.who ∧ e.team = r.team ∧
        s.eligible q e = true ∧ e.asked = some r.time) ∧
      got.length ≤ 4 ∧ (∀ r ∈ got, r ∈ now) ∧
      ((got.map (·.need)).sum ≤ 64 - (x.held.map (·.need)).sum) ∧
      s'.cluster q = { y with reqs := now.filter fun r => !got.contains r
                              held := x.held ++ got.map fun r => { r with time := x.clk }
                              copied := got.foldl (fun l r => lmod l (s.curOf r.team) (· + r.charge)) x.copied } ∧
      (∀ r, now = [r] → r.need ≤ 64 - (x.held.map (·.need)).sum → got = [r]) ∧
      (∀ a b, a ∈ now → b ∈ now → s.effClass q a < s.effClass q b → a.need = b.need → a ∈ got → b ∈ got)) ∧
  (∀ n c k : Nat, Requester.quarters n .mxe = 36 ∧ Requester.quarters n (.pipe c k) = (3 * n + 3) / 4 ∧
    Requester.quarters n (.xbar c) = (3 * n + 3) / 4 ∧ Requester.quarters n .cpe = 3 ∧ Requester.quarters n .nzs = 3 ∧ Requester.quarters n .tre = 2) ∧
  (∀ (q : Nat) (s : State),
    let n := (s.cluster q).ratio
    let late (r : CurReq) : Prop := (match r.who with
      | .pipe _ _ | .xbar _ => (128 + n - 1) / n
      | _ => 152) ≤ (s.cluster q).clk - r.time
    let again (r : CurReq) : Prop := late r ∧ (r.who = .cpe ∨ r.who = .tre)
    ∃ s', exec (.reservationTimeout q) s = .next s' ∧ { s' with clusters := s.clusters } = s ∧ (∀ m, m ≠ q → s'.cluster m = s.cluster m) ∧
      { s'.cluster q with held := (s.cluster q).held, reqs := (s.cluster q).reqs } = s.cluster q ∧
      (∀ r, r ∈ (s'.cluster q).held ↔ r ∈ (s.cluster q).held ∧ ¬late r) ∧
      ∀ r, r ∈ (s'.cluster q).reqs ↔ r ∈ (s.cluster q).reqs ∨ ∃ z ∈ (s.cluster q).held, again z ∧ r = { z with time := (s.cluster q).clk, charge := 0 }) ∧
  (∀ (d : Nat) (s : State), (s.dieClk d / 1024 ≤ (s.die d).period → exec (.budgetPeriod d) s = .next s) ∧
    ((s.die d).period < s.dieClk d / 1024 → ∃ s', exec (.budgetPeriod d) s = .next s' ∧ { s' with dies := s.dies, clusters := s.clusters } = s ∧
    (∀ n, s'.die n = if n = d then ⟨tgetD s.mgmt.regs 0x200 0x8888#64, s.mreg 0x201, [s.mreg 0x210, s.mreg 0x211, s.mreg 0x212, s.mreg 0x213],
      s.dieClk d / 1024⟩ else s.die n) ∧
    ∀ n, s'.cluster n = if n / 24 = d then { s.cluster n with passes := [0, 0, 0, 0], copied := [0, 0, 0, 0] } else s.cluster n)) ∧
  (∀ (q : Nat) (s : State),
    let n := ((s.die (q / 24)).clkmap.toNat) / 2 ^ (4 * s.powerClass q) % 16
    let counts (x : Team) : Prop := x.cluster = q ∧ x.away = false ∧ ∃ z, s.set? x.set = some z ∧ z.frozen = false ∧ ∃ k, z.phase = .admitted k
    exec (.clockRatioChange q) s = .next (s.modCluster q fun x => { x with ratio := if 4 ≤ n ∧ n ≤ 12 then n else 8 }) ∧
    (∀ p ∈ s.teams, counts p.2 → p.2.cur ≤ s.powerClass q) ∧ (s.powerClass q = 0 ∨ ∃ p ∈ s.teams, counts p.2 ∧ p.2.cur = s.powerClass q)) ∧
  (∀ (q : Nat) (s : State), let x := s.cluster q
    let g := (s.die (q / 24)).gidle.toNat % 2 ^ 24
    let may : Prop := g ≠ 0 ∧ s.clusterBusy q = false ∧ x.power = .active ∧ g ≤ x.clk - x.busyAt
    (may → exec (.powerGatingBegin q) s = .next (s.modCluster q fun y => { y with power := .gating x.clk })) ∧
    (¬may → exec (.powerGatingBegin q) s = .next s)) ∧
  (∀ (q : Nat) (s : State), let x := s.cluster q
    (∀ b, x.power = .gating b → 32 ≤ x.clk - b → s.clusterBusy q = false → ∃ s', exec (.powerGatingCommit q) s = .next s' ∧
      s'.cluster q = { x with power := .gated, gcache := [], icache := [] } ∧
      (∀ k, k < 4 → (s'.core (4 * q + k)).l1 = [] ∧ (s'.core (4 * q + k)).l0 = []) ∧
      { s' with clusters := s.clusters, cores := s.cores } = s) ∧
    ((∀ b, x.power = .gating b → x.clk - b < 32 ∨ s.clusterBusy q = true) → exec (.powerGatingCommit q) s = .next s)) ∧
  ∀ (q : Nat) (s : State), let x := s.cluster q
    let at_ (n : Nat) : Nat := 24 * (q / 24) + n
    let waits : Prop := ∃ p ∈ s.sets, ∃ g, p.2.phase = .queued (q / 24) ∧ tget s.grids p.2.grid = some g ∧
      (∀ n, n < 24 → s.takes (at_ n) g.pkt = false) ∧
      ∀ n, n < 24 → (s.cluster (at_ n)).asleep = true → s.offeredFirst (q / 24) p.2 n (q % 24) = false
    (x.power = .gated → waits → exec (.clusterWake q) s = .next (s.modCluster q fun y => { y with power := .active, busyAt := x.clk })) ∧
    (x.power ≠ .gated ∨ ¬waits → exec (.clusterWake q) s = .next s)

/-- 16_traversal R364, R365: `tw.nlt` reads its entries, checks each and replaces them; R376: `tw.run` is checked once, waits for its
block and a walk context, starts the walk of its lanes, and once every lane has stopped writes their status words and gives up the
engine's current; R373, R375: `tw.ret` outside an invocation of its kind does not stand, and else gives its lanes' decisions and ends
the invocation. -/
def Obligations.WalkForms : Prop := (∀ (w : NltW) (s : State) (c : Ctx) (t k : Nat) (x : Warp) (q : Team), WarpIssues s c (.twNlt w) t k x →
  s.team? t = some q →
    let i : Instr := .twNlt w
    let u := c.cur.unit
    let d := s.dieOf u
    let n := w.cnt.toNat + 1
    let va (j : Nat) : DWord := BitVec.ofNat 64 (opScal (s.envOf c i).a + 64 * j)
    let acc (j : Nat) : Except EngStop Leaf := s.engAcc u (s.seqOf u) (va j) 64 .read
    (opScal (s.envOf c i).a % 64 ≠ 0 → Traps i s c (oneTrap cALIGN (va 0))) ∧
    (opScal (s.envOf c i).a % 64 = 0 →
      (∀ j code v, j < n → acc j = .error (.fault code v) → (∀ h, h < j → ∀ a b, acc h ≠ .error (.fault a b)) → Traps i s c (oneTrap code v)) ∧
      ((∀ j, j < n → ∀ a b, acc j ≠ .error (.fault a b)) → (∃ j, j < n ∧ acc j = .error .wait) → Waits i s c .stall s) ∧
      ∀ f : Nat → Leaf, (∀ j, j < n → acc j = .ok (f j)) →
        let ent (j : Nat) : List DWord := (List.range 8).map fun h =>
          BitVec.ofNat 64 (ofBytes (s.dieBytes d (f j).key ((f j).at_ d + 8 * h) 8))
        let open_ : Prop := ∃ y ∈ s.seenAt d, s.onWay y.id = true ∧ ∃ j, j < n ∧ meets ((f j).at_ d) 64 y.addr y.bytes.length = true
        (open_ → Waits i s c .stall s) ∧
        (∀ j, ¬open_ → j < n → layValid (ent j) = false → (∀ h, h < j → layValid (ent h) = true) → Traps i s c (oneTrap cRANGE (va j))) ∧
        (¬open_ → (∀ j, j < n → layValid (ent j) = true) → ∃ m, Retires i s c ((s.dropCaches (s.coreOf u) (s.clusterOf u)).modTeam t fun y =>
          { y with nlt := m }) ∧ ∀ h, tget m h = if w.first.toNat ≤ h ∧ h < w.first.toNat + n then some (ent (h - w.first.toNat)) else tget q.nlt h))) ∧
  (∀ (w : TwRunW) (s : State) (c : Ctx) (t k : Nat) (x : Warp) (f : Frag), WarpIssues s c (.twRun w) t k x → s.frag? c.cur = some f →
    let i : Instr := .twRun w
    let u := c.cur.unit
    let e := s.envOf c i
    let a := blockAddr e
    let r := s.blockCheck t a w.st (!w.st)
    let em := if w.st then c.lm &&& opMap e.a else 0
    let root (l : Nat) : Nat := opLane e.a l
    let bad := (lanesOf em).filterMap fun l => (s.rootCheck t (root l)).map fun code => (l, code, BitVec.ofNat 64 (root l % 2 ^ 48))
    let asked := s.askedBlock t k c.fid
    (c.phase ≠ 1 → asked = none → (x.allot < 256 → Traps i s c (plainTrap cREGBOUND)) ∧
      (∀ code, 256 ≤ x.allot → r = .error code → Traps i s c (oneTrap code (BitVec.ofNat 64 a))) ∧
      (∀ b, 256 ≤ x.allot → r = .ok b → bad ≠ [] → Traps i s c (laneTrap bad em))) ∧
    (∀ b, c.phase ≠ 1 → asked = some b ∨ (asked = none ∧ 256 ≤ x.allot ∧ r = .ok b ∧ bad = []) →
      let s0 := s.askBlock t k c.fid b
      let go := s0.contextGo (s0.clusterOf u) ((t, k, c.fid), b)
      s0.askedBlock t k c.fid = some b ∧ (go = false → Waits i s c (.context b.1 b.2.1 b.2.2) s0) ∧
      (go = true → ((s.team? b.1).bind fun y => y.scratch[b.2.1]?).isSome = true → ∃ s1 y, Waits i s c .walk s1 ∧
        s1.frag? c.cur = some { f with phase := 1 } ∧ s1.warp? t k = some y ∧ s1.askedBlock t k c.fid = none ∧
        y.walks = x.walks ++ [⟨s.nextId, b.1, b.2.1, b.2.2, c.fid, c.lm, opScal e.b, x.regs.seq, [], [], [], []⟩] ∧
        (∀ l, l < 32 → s1.stackSP b l = if w.st then (if em.getLsbD l then 1 else 0) else s.stackSP b l) ∧
        (∀ l, em.getLsbD l = true → entOf (s1.spBytes b.1 b.2.1 (b.2.2 + hotAt l 0) 16) =
          mkEnt (root l % 2 ^ 48) (root l / 2 ^ 60 % 16) 0 false 0 0 0 0) ∧
        ∀ l, c.lm.getLsbD l = true → s1.blkGet b (0x44 + 16 * l) 4 = 0)) ∧
    (∀ z, c.phase = 1 → x.walks.find? (·.fid == c.fid) = some z → (z.done = false → Waits i s c .walk s) ∧
      (z.done = true → ((s.team? z.team).bind fun y => y.scratch[z.ci]?).isSome = true → ∃ s1 y, Retires i s c s1 ∧ s1.warp? t k = some y ∧
        (∀ r, r ∈ (s1.cluster (s.clusterOf u)).held ↔ r ∈ (s.cluster (s.clusterOf u)).held ∧ ¬(r.who = .tre ∧ r.tag = z.id)) ∧
        y.walks = x.walks.filter (·.id != z.id) ∧ ∀ l, c.lm.getLsbD l = true → tget (y.vr e.dst) l = some (tgetD z.stops l 0) ∧
          (z.lmap.getLsbD l = true → s1.blkGet z.block (0x48 + 16 * l) 4 = (tgetD z.stops l 0).toNat)))) ∧
  (∀ (w : TwRetW) (s : State) (c : Ctx) (t k : Nat) (x : Warp) (f : Frag), s.ctx? = some c → c.cur.unit = .warp t k → s.warp? t k = some x →
    s.frag? c.cur = some f →
    let bad : Prop := (∀ id, c.kind = .inv id → x.walk? id = none) ∨ ∃ id z, c.kind = .inv id ∧ x.walk? id = some z ∧
      (f.stk ≠ [] ∨ ∃ p ∈ z.invs, c.lm.getLsbD p.1 = true ∧ p.2.stage = 2 ∧ w.m ≠ (p.2.evt == .prune))
    bad → issueCheck s c (.twRet w) ≠ some cILLENC → Traps (.twRet w) s c (plainTrap cILLCTX)) ∧
  ∀ (w : TwRetW) (s : State) (c : Ctx) (t k : Nat) (x : Warp) (f : Frag), WarpIssues s c (.twRet w) t k x → s.frag? c.cur = some f →
    let i : Instr := .twRet w
    let e := s.envOf c i
    let em := c.lm &&& opMap e.a
    let a (l : Nat) : Nat := if w.ac = 1 then opScal e.a else opLane e.a l
    ∃ id z, c.kind = .inv id ∧ x.walk? id = some z ∧ f.stk = [] ∧ (∀ p ∈ z.invs, c.lm.getLsbD p.1 = true → p.2.stage = 2 → w.m = (p.2.evt == .prune)) ∧
      let mine (l : Nat) (v : LaneInv) : Prop := tget z.invs l = some v ∧ c.lm.getLsbD l = true ∧ v.stage = 2
      (w.strict = true → em ≠ c.lm → Traps i s c (plainTrap cOCCMISM)) ∧
      ((∀ h ∈ x.walks, h.id = id → h = z) → (z.invs.map (·.1)).Nodup → w.strict = false ∨ em = c.lm → ∃ (s' : State) (z' : Walk), exec i s = .next s' ∧
        Ended s (s.modWarp t k fun y => { y with walks := y.walks.map fun h => if h.id = id then z' else h }) s' c i ∧
        { z' with invs := z.invs, since := z.since } = z ∧
        (∀ l v, mine l v → ∃ v', tget z'.invs l = some v' ∧ { v' with stage := 2, dec := v.dec, w1 := v.w1 } = v ∧ v'.stage = 3 ∧
          v'.dec = (if v.evt = .prune then BitVec.ofNat 64 (if em.getLsbD l then a l else 2 ^ 64 - 1)
            else BitVec.ofNat 64 (if em.getLsbD l then a l % 2 else 0)) ∧
          v'.w1 = (match tget (x.vr 255) l with
            | none => v.w1
            | some r => if v.evt = .leave then v.w1 else BitVec.ofNat 64 (v.w1.toNat % 2 ^ 32 + 2 ^ 32 * r.toNat)) ∧
          tget z'.since l = some x.regs.seq) ∧
        ∀ l, (∀ v, ¬mine l v) → tget z'.invs l = tget z.invs l ∧ tget z'.since l = tget z.since l)

/-- 16_traversal R377, R379, R381: `tw.cut` is checked once, waits for its block and for its release, then cuts each lane into its
section or traps, and retires once what it has written is performed at package scope; there is nothing to cut where every unvisited
entry of that depth lies below a mark. `tw.resume` replaces the stacks of the block by those of its lanes' objects, as an acquire. -/
def Obligations.CutAndResume : Prop := (∀ (w : TwCutW) (s : State) (c : Ctx) (t k : Nat) (x : Warp) (f : Frag), WarpIssues s c (.twCut w) t k x →
  s.frag? c.cur = some f →
    let i : Instr := .twCut w
    let u := c.cur.unit
    let d := s.dieOf u
    let e := s.envOf c i
    let a := blockAddr e
    let o := opScal e.b
    let r := s.blockCheck t a false true
    let sec (l : Nat) : Nat := o + 16384 * l
    let asked := s.askedBlock t k c.fid
    (c.phase ≠ 4 → asked = none → (∀ code, r = .error code → Traps i s c (oneTrap code (BitVec.ofNat 64 a))) ∧
      ∀ b, r = .ok b → o % 16384 ≠ 0 → Traps i s c (oneTrap cALIGN (BitVec.ofNat 64 o))) ∧
    (c.phase = 4 → (f.snap.any s.onWay = true → Waits i s c .stall s) ∧ (f.snap.any s.onWay = false → Retires i s c (s.dropBlock t k c.fid))) ∧
    ∀ b, c.phase ≠ 4 → asked = some b ∨ (asked = none ∧ r = .ok b ∧ o % 16384 = 0) →
      let s0 := s.askBlock t k c.fid b
      let preds := s.predsAt d
      let cut (z : State) (l : Nat) := z.cutLane u b preds w.depth.toNat (sec l) l
      let go := s0.blockGo t k c.fid b.1 b.2.1 b.2.2
      let bad (l code : Nat) (v : DWord) : Prop := c.lm.getLsbD l = true ∧ cut s0 l = .error (.fault code v)
      (go = false → Waits i s c (.block b.1 b.2.1 b.2.2) s0) ∧
      (go = true → c.phase = 0 → s.quiet u x.regs.seq = false → Waits i s c .stall s0) ∧
      (go = true → c.phase = 0 → s.quiet u x.regs.seq = true → preds ≠ [] → Waits i s c .stall
        (s0.modFrag c.cur fun h => { h with phase := 1, snap := preds })) ∧
      (go = true → c.phase ≠ 0 → f.snap.any s.onWay = true → Waits i s c .stall s0) ∧
      (go = true → (c.phase = 0 ∧ s.quiet u x.regs.seq = true ∧ preds = []) ∨ (c.phase ≠ 0 ∧ f.snap.any s.onWay = false) →
        (∀ l code v, bad l code v → ∃ lanes, (∀ p, p ∈ lanes ↔ bad p.1 p.2.1 p.2.2) ∧
          exec i s = .next ((s0.dropBlock t k c.fid).trapNow c i (laneTrap lanes 0))) ∧
        ∀ (z : Nat → State) (h : Nat → Bool) (m : Nat), (∀ l code v, ¬bad l code v) → z 0 = s0 →
          (∀ n l, n < m → (lanesOf c.lm)[n]? = some l → cut (z n) l = .ok (z (n + 1), h l)) →
            (∀ l y, (lanesOf c.lm)[m]? = some l → cut (z m) l = .error y → Waits i s c .stall s0) ∧
            (m = (lanesOf c.lm).length →
              let got := laneMap fun l => c.lm.getLsbD l && h l
              let s1 := (z m).modWarp t k fun y => y.writeV e.dst 2 c.lm got (dKp (shape i)) fun l =>
                [BitVec.ofNat 32 (sec l), BitVec.ofNat 32 (sec l / 2 ^ 32)]
              let ids := (List.range (s1.nextId - s.nextId)).map (s.nextId + ·)
              (ids.any s1.onWay = true → Waits i s c .stall (s1.modFrag c.cur fun h => { h with phase := 4, snap := ids })) ∧
              (ids.any s1.onWay = false → Retires i s c (s1.dropBlock t k c.fid))))) ∧
  (∀ (d sec : Nat) (es : List SEnt), planCut d sec es = none ↔ ∀ (n : Nat) (e : SEnt), es[n]? = some e → SEnt.kind e = 0 → SEnt.depth e ≤ d →
    ∃ (j : Nat) (m : SEnt), n < j ∧ es[j]? = some m ∧ SEnt.kind m = 2) ∧
  (∀ (s : State) (u : UnitId) (b : Block) (preds : List Nat) (d sec l : Nat) (es : List SEnt), s.stackAll u b l = .ok es →
    (planCut d sec es = none → s.cutLane u b preds d sec l = .ok (s, false)) ∧
    (planCut d sec es ≠ none → s.lookupOpen none (s.dieOf u) (s.ownerOf u) (BitVec.ofNat 64 sec) = false →
      ∀ code, s.access none (s.dieOf u) (s.ownerOf u) (BitVec.ofNat 64 sec) .rw = .error code →
        s.cutLane u b preds d sec l = .error (.fault code (BitVec.ofNat 64 sec)))) ∧
  ∀ (w : TwResW) (s : State) (c : Ctx) (t k : Nat) (x : Warp), WarpIssues s c (.twResume w) t k x →
    let i : Instr := .twResume w
    let u := c.cur.unit
    let e := s.envOf c i
    let a := blockAddr e
    let r := s.blockCheck t a true false
    let em := c.lm &&& opMap e.a
    let asked := s.askedBlock t k c.fid
    let obj (l : Nat) := s.objEnts u (opLane e.a l)
    (∀ code, asked = none → r = .error code → Traps i s c (oneTrap code (BitVec.ofNat 64 a))) ∧
    ∀ b, asked = some b ∨ (asked = none ∧ r = .ok b) →
      let s0 := s.askBlock t k c.fid b
      let go := s0.blockGo t k c.fid b.1 b.2.1 b.2.2
      (go = false → Waits i s c (.block b.1 b.2.1 b.2.2) s0) ∧
      (∀ l code v, go = true → em.getLsbD l = true → obj l = .error (.fault code v) → ∃ lanes, (l, code, v) ∈ lanes ∧
        exec i s = .next ((s0.dropBlock t k c.fid).trapNow c i (laneTrap lanes em))) ∧
      (go = true → (∀ l, em.getLsbD l = true → obj l = .error .wait ∨ ∃ es, obj l = .ok es ∧ es.length ≤ 16) →
        (∃ l, em.getLsbD l = true ∧ obj l = .error .wait) → Waits i s c .stall s0) ∧
      (∀ es : Nat → List SEnt, go = true → (∀ l, em.getLsbD l = true → obj l = .ok (es l) ∧ (es l).length ≤ 16) →
        ((s.team? b.1).bind fun y => y.scratch[b.2.1]?).isSome = true → ∃ s1, Retires i s c s1 ∧ s1.askedBlock t k c.fid = none ∧
          (s1.cluster (s.clusterOf u)).gcache = [] ∧ (∀ q, s.coreOf u = some q → (s1.core q).l1 = []) ∧
          (∀ l, l < 32 → s1.stackSP b l = if em.getLsbD l then (es l).length else 0) ∧ s1.blkGet b 8 8 = 1 ∧
          ∀ l n v, em.getLsbD l = true → (es l)[n]? = some v → entOf (s1.spBytes b.1 b.2.1 (b.2.2 + hotAt l n) 16) = v)

/-- 16_traversal R370 to R372, R380: one event of a walk for a lane: it stops at an empty stack, a spent budget or a fault, visits the
node at the top or hands it to its routine, opens it onto its children, and goes on after a routine's return. A settle releases,
lowers the record's count, acquires, and at zero goes on to the leave routine or the next record. -/
def Obligations.TraversalEvents : Prop := ∀ (s : State) (t k l : Nat),
  let u : UnitId := .warp t k
  let run (i : Instr) (P : State → Prop) : Prop := ∃ s', exec i s = .next s' ∧ P s'
  let event (P : State → Prop) : Prop := run (.traversalEvent t k l) P
  let settle (P : State → Prop) : Prop := run (.settle t k l) P
  let same (s' : State) : Prop := s' = s
  (s.walks t k = false ∨ (s.warp? t k).bind (·.walkOf l) = none → event same ∧ settle same) ∧
  ∀ x z, s.walks t k = true → s.warp? t k = some x → x.walkOf l = some z → x.walk? z.id = some z →
    ((s.team? z.team).bind fun y => y.scratch[z.ci]?).isSome = true →
    let becomes (z' : Walk) (s' : State) : Prop := (s'.warp? t k).bind (·.walk? z.id) = some z'
    let b := z.block
    let n := s.stackSP b l
    let at_ (s' : State) (j : Nat) : SEnt := entOf (s'.spBytes b.1 b.2.1 (b.2.2 + hotAt l j) 16)
    let e := at_ s (n - 1)
    let nlt := s.nltOf t
    let y := layIn nlt e.lid
    let q := z.from_ l
    let used := s.blkGet b (0x44 + 16 * l) 4
    let stops (kind cause : Nat) (s' : State) : Prop := becomes { z with
      stops := tput z.stops l (BitVec.ofNat 32 (kind + 256 * cause + 65536 * n)), invs := tdel z.invs l, settles := tdel z.settles l } s'
    let faults (code : Nat) (va : DWord) (s' : State) : Prop := stops 2 code s' ∧ ∃ w, s'.warp? t k = some w ∧
      tget (w.vr 252) l = some (loWord va) ∧ tget (w.vr 253) l = some (hiWord va)
    let calls (v : LaneInv) (s' : State) : Prop := becomes { z with invs := if v.pc = 0 then tdel z.invs l else tput z.invs l v } s'
    let settles (r : DWord) (w0 w1 : DWord) (s' : State) : Prop := becomes { z with
      invs := tdel z.invs l, settles := tput (tdel z.settles l) l ⟨r, none, [], w0, w1, x.regs.seq, false⟩ } s'
    let beyond : Prop := n = 0 ∨ (e.kind = 0 ∧ z.budget ≠ 0 ∧ used = z.budget)
    (tget z.settles l ≠ none → event same) ∧
    (∀ v, tget z.settles l = none → tget z.invs l = some v →
      (v.stage = 0 → event (becomes { z with invs := tput z.invs l { v with stage := 1 } })) ∧ (v.stage = 2 → event same) ∧
      (v.stage = 1 → (z.invs.map (·.1)).Nodup →
        let mine (p : Nat × LaneInv) : Bool := p.2.stage == 1 && p.2.evt == v.evt && p.2.pc == v.pc
        (x.room = 0 → event same) ∧
        (0 < x.room → event fun s' => becomes { z with invs := z.invs.map fun p => if mine p then (p.1, { p.2 with stage := 2 }) else p } s' ∧
          ∃ w, s'.warp? t k = some w ∧ (w.active.map Frag.noAge).Perm (({ Frag.start (laneMap fun j => z.invs.any fun p => mine p && p.1 == j) v.pc
            x.freeFid with tg := ((x.byFid z.fid).map (·.tg)).getD (List.replicate 24 1), kind := .inv z.id } : Frag) :: x.active.map Frag.noAge) ∧
          ∀ p ∈ z.invs, mine p = true → p.1 < 32 → ∀ j r, (p.2.keys.take 4 ++ List.replicate (4 - p.2.keys.length) 0 ++
            [loWord (p.2.w0 &&& 0xFFFFFFFFFFFF#64), hiWord (p.2.w0 &&& 0xFFFFFFFFFFFF#64), evtInfo (p.2.w0, p.2.w1) p.2.evt p.2.leaf p.2.jrec p.2.n,
              hiWord p.2.w1])[j]? = some r → tget (w.vr (248 + j)) p.1 = some r)) ∧
      (2 < v.stage → v.evt = .enter → v.dec.getLsbD 0 = true → n ≤ 16 → event fun s' => becomes { z with invs := tdel z.invs l } s' ∧
        s'.stackSP b l = n - 1) ∧
      (2 < v.stage → v.evt = .enter → v.dec.getLsbD 0 = false → v.leaf = false → (layIn v.nlt (SEnt.lid (v.w0, v.w1))).prune ≠ 0 →
        event (becomes { z with invs := tput z.invs l { v with evt := .prune, pc := (layIn v.nlt (SEnt.lid (v.w0, v.w1))).prune, stage := 0 } })) ∧
      (2 < v.stage → v.evt = .leave → event fun s' => if v.then_ = 0 then becomes { z with invs := tdel z.invs l } s'
        else settles v.then_ v.w0 v.w1 s')) ∧
    (tget z.settles l = none → tget z.invs l = none →
      let held := (s.curHeld (s.clusterOf u) .tre).any (·.tag == z.id)
      (n = 0 → event (stops 0 0)) ∧ (n ≠ 0 → beyond → event (stops 1 0)) ∧
      (¬beyond → held = false → event fun s' => s' = if (s.cluster (s.clusterOf u)).reqs.any (·.who == .tre) then s
        else s.curAsk (s.clusterOf u) .tre t z.id 16 0) ∧
      (¬beyond → held = true → e.kind = 0 →
        (s.readNode u q e.addr y = .error .wait → event same) ∧
        (∀ code va, s.readNode u q e.addr y = .error (.fault code va) → event (faults code va)) ∧
        ∀ d, s.readNode u q e.addr y = .ok d →
          let deep : Prop := d.leaf = false ∧ (e.depth = 255 ∨ 255 < n + d.n)
          let inv (evt : WEvt) (pc : DWord) : LaneInv := ⟨evt, pc, false, 0, 0, e.1, e.2, d.keys, d.leaf, d.n, 0, nlt⟩
          (deep → event (stops 2 cSTACKOV)) ∧
          (¬deep → y.enter ≠ 0 → event fun s' => calls (inv .enter y.enter) s' ∧ s'.blkGet b (0x44 + 16 * l) 4 = (used + 1) % 2 ^ 32) ∧
          (¬deep → y.enter = 0 → d.leaf = true → n ≤ 16 → event fun s' => calls (inv .leave y.leave) s' ∧ s'.stackSP b l = n - 1) ∧
          (¬deep → y.enter = 0 → d.leaf = false → y.prune ≠ 0 → event (calls (inv .prune y.prune))) ∧
          ∀ f : Nat → Nat × Nat, ¬deep → y.enter = 0 → d.leaf = false → y.prune = 0 → n + d.n ≤ 16 →
            (∀ j, j < d.n → s.child u q e.addr e.lid j nlt = .ok (f j)) → event fun s' => s'.stackSP b l = n + d.n ∧
              at_ s' (n - 1) = mkEnt e.addr e.lid 1 false e.depth e.cix d.n e.user ∧
              ∀ j, j < d.n → at_ s' (n + d.n - 1 - j) = mkEnt (f j).1 (f j).2 0 false (e.depth + 1) j 0 e.user) ∧
      (¬beyond → held = true → e.kind = 1 → e.jr = false → y.leave = 0 → n ≤ 16 → event fun s' => becomes z s' ∧ s'.stackSP b l = n - 1) ∧
      (∀ d, ¬beyond → held = true → e.kind = 1 → e.jr = false → y.leave ≠ 0 → n ≤ 16 → s.readNode u q e.addr y = .ok d →
        let v : LaneInv := ⟨.leave, y.leave, false, 0, 0, e.1, e.2, d.keys, d.leaf, d.n, 0, nlt⟩
        event fun s' => calls v s' ∧ s'.stackSP b l = n - 1) ∧
      (¬beyond → held = true → e.kind ≠ 0 → e.kind ≠ 1 ∨ e.jr = true → n ≤ 16 → event fun s' =>
        settles (BitVec.ofNat 64 e.addr) e.1 e.2 s' ∧ s'.stackSP b l = n - 1)) ∧
    (tget z.settles l = none → settle same) ∧
    ∀ g, tget z.settles l = some g →
      let die := s.dieOf u
      let at_ := g.rec_ + 0x10
      let wait : Prop := g.old = none ∧ if g.rel then s.lookupOpen none die (s.ownerOf u) at_ = true else s.quiet u g.seq = false
      ((g.snap.any s.onWay = true ∧ (g.old ≠ none ∨ g.rel = true)) ∨ wait → settle same) ∧
      (g.old = none → g.rel = false → s.quiet u g.seq = true →
        settle (becomes { z with settles := tput z.settles l { g with rel := true, snap := s.predsAt die } })) ∧
      (g.old = none → g.rel = true → g.snap.any s.onWay = false → ¬wait →
        (∀ code, s.access none die (s.ownerOf u) at_ .atomic = .error code → settle (faults code g.rec_)) ∧
        ∀ f, s.access none die (s.ownerOf u) at_ .atomic = .ok f →
          let home := (homeOf f.pa).getD 8
          let late : Prop := home < 8 ∧ ∃ id ∈ s.predsAt die, s.appliedAt home id = false
          let old := ofBytes (s.homeBytes f.key f.pa 4)
          (late → settle same) ∧
          (¬late → settle fun s' => (∃ ids, becomes { z with settles := tput z.settles l { g with old := some old, snap := ids } } s' ∧
              (∀ id ∈ s.srcsOf (fun _ => true) f.pa 4, id ∈ ids) ∧ (old ≠ 0 → s.nextId ∈ ids)) ∧
            (old = 0 → s'.flight = s.flight) ∧ (old ≠ 0 → ∃ w, s'.flight = s.flight ++ [w] ∧ w.addr = f.pa ∧ w.key = f.key ∧
              w.bytes = toBytes 4 (old - 1) ∧ w.die = die))) ∧
      (∀ m, g.snap.any s.onWay = false → g.old = some m → (m = 0 → settle (faults cRANGE g.rec_)) ∧
        (1 < m → settle fun s' => becomes { z with settles := tdel z.settles l } s' ∧
          (s'.cluster (s.clusterOf u)).gcache = [] ∧ ∀ q, s.coreOf u = some q → (s'.core q).l1 = []) ∧
        ∀ eb pb, m = 1 → s.engRead u x.regs.seq g.rec_ 16 = .ok eb → s.engRead u x.regs.seq (g.rec_ + 0x18) 8 = .ok pb →
          let r := entOf eb
          let par := BitVec.ofNat 64 (ofBytes pb)
          let yr := layIn nlt r.lid
          (yr.leave = 0 → par = 0 → settle (becomes { z with settles := tdel z.settles l })) ∧
          (yr.leave = 0 → par ≠ 0 → settle (settles par r.1 r.2)) ∧
          ∀ d, yr.leave ≠ 0 → s.readNode u x.regs.seq r.addr yr = .ok d → let v : LaneInv := ⟨.leave, yr.leave, true, par, 0, r.1, r.2, d.keys, d.leaf, d.n, 0, nlt⟩
            settle (becomes { z with settles := tdel z.settles l, invs := tput z.invs l v }))

/-- 02_instruction_words R30; 13_control_flow R297, R304; 14_execution_model R325, R326; 15_traps_preemption R350: a warp with no live
and no spilled fragment releases the park record of greatest depth, then of most recent arming; a spilled fragment takes a free
slot, and none is lost; an exited warp's context is released; a stuck set traps on every warp and context and nothing else of it
changes; an uncorrectable error is a machine check. -/
def Obligations.WarpEvents : Prop := (∀ (s : State) (t k : Nat) (x : Warp), s.warp? t k = some x →
  let idle : Prop := x.live0 = none ∧ x.live1 = none ∧ x.spill = [] ∧ x.handler = none
  (¬idle ∨ x.parks = [] → exec (.joinRelease t k) s = .next s) ∧
  (idle → x.parks ≠ [] → (x.parks.map (·.1)).Nodup → ∃ m f y, tget x.parks m = some f ∧
    (∀ n, (tget x.parks n).isSome = true → (x.jr n).dj < (x.jr m).dj ∨ ((x.jr n).dj = (x.jr m).dj ∧
      ((x.jr m).ord < (x.jr n).ord ∨ ((x.jr m).ord = (x.jr n).ord ∧ m ≤ n)))) ∧
    exec (.joinRelease t k) s = .next (s.modWarp t k fun _ => y) ∧
    { y with live0 := x.live0, parks := x.parks, j := x.j, wst := x.wst } = x ∧ y.wst = x.wst ||| wsJLOST ∧
    y.parks = tdel x.parks m ∧ y.live0 = some { f with lmap := (x.jr m).arr, rj := (x.jr m).out } ∧
    y.j = lset x.j m { x.jr m with exp := (x.jr m).exp &&& ~~~(x.jr m).arr, arr := 0 })) ∧
  (∀ (s : State) (t k : Nat) (x : Warp), s.warp? t k = some x → ∃ y, exec (.fragmentSwap t k) s = .next (s.modWarp t k fun _ => y) ∧
    { y with live0 := x.live0, live1 := x.live1, spill := x.spill } = x ∧ y.active.Perm x.active ∧
    (x.place ≠ .resident ∨ x.handler.isSome = true → y = x) ∧
    (x.place = .resident → x.handler = none → x.spill ≠ [] → x.live0 = none ∨ x.live1 = none → y.spill.length < x.spill.length) ∧
    (x.spill = [] → y = x)) ∧
  (∀ (s : State) (t k : Nat) (x : Warp), s.warp? t k = some x →
    (x.exited = true → x.regs.ops = [] → exec (.warpContextRelease t k) s = .next (s.modWarp t k fun _ =>
      { x with bricks := [], scopes := [], base := 0 })) ∧
    (x.exited = false ∨ x.regs.ops ≠ [] → exec (.warpContextRelease t k) s = .next s)) ∧
  (∀ (s : State) (n : Nat) (z : TSet), s.set? n = some z → (s.stuck z = false → exec (.deadlock n) s = .next s) ∧
    (s.stuck z = true → ∃ s', exec (.deadlock n) s = .next s' ∧
      (∀ t, (s'.team? t).map (fun q => (q.rv, q.tags, q.scratch)) = (s.team? t).map fun q => (q.rv, q.tags, q.scratch)) ∧
      ∀ t ∈ z.teams, ∀ q, s.team? t = some q →
        (∀ k x, q.warps[k]? = some x → x.exited = false → ∃ y, s'.warp? t k = some y ∧ y.frame.map (·.code) = some cDEADLOCK) ∧
        ∀ k x, q.cccs[k]? = some x → x.exited = false → ∃ y, s'.ccc? t k = some y ∧ y.trapd.map (·.code) = some cDEADLOCK)) ∧
  ∀ (s : State) (d : Nat) (u : UnitId) (z : TSet),
    let n := s.setOf (teamOf u)
    exec (.softError (.elsewhere d)) s = .next (s.ringPut (.check d) ⟨cMCHK, 3, 0, 1023, 255, 0, false, 0, 0, 1, 0, []⟩) ∧
    (s.set? n = some z → z.frozen = true → exec (.softError (.unit u)) s = .next s) ∧
    (∀ t k x, u = .warp t k → s.warp? t k = some x → x.frags ≠ [] → x.handler = none → x.regs.ops = [] → s.set? n = some z → z.frozen = false →
      ∃ s' y, exec (.softError (.unit u)) s = .next s' ∧ s'.warp? t k = some y ∧ y.frame.map (·.code) = some cMCHK ∧ y.handler = none ∧
        (s'.set? n).map (·.frozen) = some true) ∧
    ∀ t k x, u = .ccc t k → s.ccc? t k = some x → s.set? n = some z → z.frozen = false → ∃ s' y, exec (.softError (.unit u)) s = .next s' ∧
      s'.ccc? t k = some y ∧ y.trapd.map (·.code) = some cMCHK ∧ (s'.set? n).map (·.frozen) = some true

/-- 18_host_and_trust R394 to R397, R400, R401, R403, R407: a host message, put or get is refused while no firmware runs, for a job
that is not permitted, and for a feature not accepted; a message launches or is answered with why not; a put becomes writes of 16
bytes, of a line of a replicated page as one, and its completion follows once they are performed; a get answers with the bytes or the
bad block. One that meets a lookup not yet over, or a get a locked line, waits. -/
def Obligations.HostRequests : Prop := (∀ (s : State) (r : PortReq) (kind feat : Nat),
  let x := s.refuse r kind feat
  let permits (e : Nat) : Prop := e % 2 ^ 24 = r.job.toNat ∧ bitOf e 32 = true ∧ bitOf e kind = true
  let entry (n : Nat) : Nat := (s.mreg (0x400 + n)).toNat
  (s.fw.ok = false → x = .error 0) ∧ (s.fw.ok = true → (∀ n, n < 256 → ¬permits (entry n)) → x = .error 0) ∧
  (∀ n, s.fw.ok = true → n < 256 → permits (entry n) → (∀ m, m < n → ¬permits (entry m)) →
    x = if s.mgmt.locked = true ∧ s.feature feat = true then .ok (BitVec.ofNat 8 (entry n / 2 ^ 24 % 256)) else .error 0x04)) ∧
  (∀ (s : State) (r : PortReq) (va : DWord) (args : List Word),
    let sent (err : Bool) (code : Nat) : List Sent := [⟨r.port.toNat, r.job.toNat, err, code, 0, []⟩]
    (∀ k, s.refuse r 33 0 = .error k → exec (.hostMailboxMessage r va args) s = .next { s with sent := s.sent ++ sent true k }) ∧
    (∀ o, s.refuse r 33 0 = .ok o → s.mboxOf o va true = none → exec (.hostMailboxMessage r va args) s = .next { s with sent := s.sent ++ sent false 1 }) ∧
    (∀ o m, s.refuse r 33 0 = .ok o → s.mboxOf o va true = some m →
      let at_ := s.mboxWord m 1
      let full : Prop := (s.mboxWord m 2).toNat % 256 ≤ (s.grids.filter fun g => g.2.mbox == some m).length
      let words := (List.range 16).map fun n => args.getD n 0
      let grid (p : List DWord) (a : List Word) (no : Option Nat) : Grid := ⟨some m, o, pktBits p 0 8 8 == 1, at_, p, a, 16 * pktBits p 0 13 12 + m % 16, 0, 0, no⟩
      (full → exec (.hostMailboxMessage r va args) s = .next { s with sent := s.sent ++ sent false 2 }) ∧
      (¬full → s.packetOpen o at_ = true → exec (.hostMailboxMessage r va args) s = .next s) ∧
      (∀ p, ¬full → s.packetOpen o at_ = false → s.readPacket o at_ (s.mboxSys m) = .ok p → exec (.hostMailboxMessage r va args) s = .next
        { s with nextId := s.nextId + 1, grids := tput s.grids s.nextId (grid p words none), sent := s.sent ++ sent false 0 }) ∧
      ∀ k p, ¬full → s.packetOpen o at_ = false → s.readPacket o at_ (s.mboxSys m) = .error (k, p) →
        (s.ringBusy .package = true → exec (.hostMailboxMessage r va args) s = .next
          { s with nextId := s.nextId + 1, grids := tput s.grids s.nextId (grid p [] (some k)), sent := s.sent ++ sent false 3 }) ∧
        (s.ringBusy .package = false →
          let s1 := s.ringPut .package ⟨k, 4, o, 1023, 255, 0, false, 0, at_, 0, 0, []⟩
          exec (.hostMailboxMessage r va args) s = .next { s1 with sent := s1.sent ++ sent false 3 }))) ∧
  (∀ (s : State) (r : PortReq) (va : DWord) (bytes : List Byte),
    let d := if r.port.toNat < 4 then 0 else 3
    let sent (code : Nat) : List Sent := [⟨r.port.toNat, r.job.toNat, true, code, 0, []⟩]
    (∀ k, s.refuse r 34 1 = .error k → exec (.hostPut r va bytes) s = .next { s with sent := s.sent ++ sent k }) ∧
    (∀ o, s.refuse r 34 1 = .ok o → s.hostOpen d o va bytes.length = true → exec (.hostPut r va bytes) s = .next s) ∧
    (∀ o k, s.refuse r 34 1 = .ok o → s.hostOpen d o va bytes.length = false → s.hostLeaves d o va bytes.length .write = .error k →
      exec (.hostPut r va bytes) s = .next { s with sent := s.sent ++ sent k }) ∧
    ∀ o ls, s.refuse r 34 1 = .ok o → s.hostOpen d o va bytes.length = false → s.hostLeaves d o va bytes.length .write = .ok ls →
      ∃ (s' : State) (old ws : List Write), exec (.hostPut r va bytes) s = .next s' ∧ { s' with pend := s.pend, puts := s.puts, nextId := s.nextId } = s ∧
        s'.pend = old ++ ws ∧ old.map (fun e => { e with whole := false }) = s.pend.map (fun e => { e with whole := false }) ∧
        ((∀ e ∈ s.pend, e.src ≠ none ∨ e.seq ≠ s.nextId) → old = s.pend) ∧ s'.nextId = s.nextId + 1 + ws.length ∧
        ws.map (·.id) = (List.range ws.length).map (s.nextId + 1 + ·) ∧ s'.puts = s.puts ++ [⟨r, ws.map (·.id)⟩] ∧
        (∀ w ∈ ws, w.die = d ∧ w.owner = o ∧ w.tgt = .glob ∧ w.src = none ∧ w.seq = s.nextId ∧
          (w.whole = true ↔ va.toNat ≤ w.va.toNat / 256 * 256 ∧ w.va.toNat / 256 * 256 + 256 ≤ va.toNat + bytes.length)) ∧
        (ws.flatMap fun w => (List.range w.bytes.length).map fun n => (w.addr + n, w.key, w.repl, w.bytes.getD n 0)) =
          (ls.flatMap fun x => (List.range 16).map fun n => (x.2.pa + n, x.2.key, x.2.repl, bytes.getD (x.1 - va.toNat + n) 0)) ∧
        (∀ w ∈ ws, w.repl = false → w.bytes.length = 16) ∧
        (∀ w ∈ ws, w.repl = true → (w.addr + w.bytes.length - 1) / 128 = w.addr / 128) ∧
        ∀ (n : Nat) (a b : Write), ws[n]? = some a → ws[n + 1]? = some b → a.repl = true → b.repl = true → a.key = b.key →
          b.addr = a.addr + a.bytes.length → a.addr / 128 ≠ b.addr / 128) ∧
  (∀ (s : State) (r : PortReq) (va : DWord) (len : Nat),
    let d := if r.port.toNat < 4 then 0 else 3
    let sent (err : Bool) (code : Nat) (a : DWord) (data : List Byte) : List Sent := [⟨r.port.toNat, r.job.toNat, err, code, a, data⟩]
    (∀ k, s.refuse r 34 1 = .error k → exec (.hostGet r va len) s = .next { s with sent := s.sent ++ sent true k 0 [] }) ∧
    (∀ o, s.refuse r 34 1 = .ok o → s.hostOpen d o va len = true → exec (.hostGet r va len) s = .next s) ∧
    (∀ o k, s.refuse r 34 1 = .ok o → s.hostOpen d o va len = false → s.hostLeaves d o va len .read = .error k →
      exec (.hostGet r va len) s = .next { s with sent := s.sent ++ sent true k 0 [] }) ∧
    ∀ o ls, s.refuse r 34 1 = .ok o → s.hostOpen d o va len = false → s.hostLeaves d o va len .read = .ok ls →
      let at_ (x : Leaf) : Nat := if x.repl then replAddr d x.pa else x.pa
      let locked : Prop := ∃ x ∈ ls, x.2.repl = true ∧ s.lockedLine d x.2.pa = true
      let ok (x : Nat × Leaf) : Bool := s.blockOk x.2.key (at_ x.2 / 256)
      (locked → exec (.hostGet r va len) s = .next s) ∧
      (∀ pre x post, ¬locked → ls = pre ++ x :: post → (∀ y ∈ pre, ok y = true) → ok x = false →
        exec (.hostGet r va len) s = .next { s with sent := s.sent ++ sent true cINTEG (BitVec.ofNat 64 (x.1 / 256 * 256)) [] }) ∧
      (¬locked → (∀ x ∈ ls, ok x = true) → exec (.hostGet r va len) s = .next { s with sent := s.sent ++ sent false 0 0 (ls.flatMap fun x =>
        if x.2.repl then s.dieBytes d x.2.key (at_ x.2) 16 else s.pkgBytes x.2.key x.2.pa 16) })) ∧
  ∀ (s : State) (d : Nat) (o : Byte) (va : DWord) (n : Nat) (need : Need),
    let x := s.hostLeaves d o va n need
    (va.toNat % 16 ≠ 0 ∨ n % 16 ≠ 0 → x = .error cALIGN) ∧
    (va.toNat % 16 = 0 → n % 16 = 0 → n < 16 ∨ 1048576 < n ∨ 2 ^ 48 < va.toNat + n → x = .error cRANGE)

/-- 15_traps_preemption R351; 18_host_and_trust R399 to R406: management requests are served in order at a port and answered; FEATLCK
accepts the features once; a key load drops the lines of its key, installs when no access under it is left; attestation and
firmware; module reset leaves every register at its reset value and no byte of memory readable as it was. -/
def Obligations.Management : Prop := (∀ (s : State) (r : PortReq) (n : BitVec 12) (v : DWord),
  let i : Instr := .managementWrite r n v
  let answer (t : State) (err : Bool) (code : Nat) : Prop := exec i s = .next
    { t with sent := t.sent ++ [⟨r.port.toNat, r.job.toNat, err, code, 0, []⟩] }
  let may : Prop := s.fw.ok = true ∧ s.jobOwner r 35 ≠ none
  let num := n.toNat
  let setReg (b : Nat) : State := s.setMreg num (BitVec.ofNat 64 (v.toNat % 2 ^ b))
  (s.portBusy r = true → exec i s = .next s) ∧ (s.portBusy r = false → ¬may → answer s true 0) ∧
  (s.portBusy r = false → may →
    (num ∈ [0x100, 0x101, 0x102, 0x104, 0x110, 0x111, 0x113, 0x120] → answer (s.csrSet num v) false 0) ∧
    (num = 0x103 → exec i s = .next (s.writeTinvc (loWord v) none (some r))) ∧ (num = 0x112 → answer s true 0x04) ∧
    (num = 0x200 → answer (setReg 16) false 0) ∧ (num = 0x201 → answer (setReg 24) false 0) ∧
    (0x210 ≤ num ∧ num < 0x214 → answer (setReg 33) false 0) ∧ (0x218 ≤ num ∧ num < 0x21C → answer (setReg 49) false 0) ∧
    (0x300 ≤ num ∧ num < 0x340 → answer (setReg 64) false 0) ∧ (0x400 ≤ num ∧ num < 0x500 → answer (setReg 36) false 0) ∧
    (num = 0x502 ∨ num = 0x503 → answer (if s.mgmt.locked then s else setReg 64) false 0) ∧
    (num ∈ [0x500, 0x501, 0x504, 0x505, 0x605, 0x701] → answer s true 0x04))) ∧
  (∀ (s : State) (r : PortReq) (n : BitVec 12),
    let i : Instr := .managementRead r n
    let answer (err : Bool) (code : Nat) (data : List Byte) : Prop := exec i s = .next
      { s with sent := s.sent ++ [⟨r.port.toNat, r.job.toNat, err, code, 0, data⟩] }
    let may : Prop := s.fw.ok = true ∧ s.jobOwner r 35 ≠ none
    let num := n.toNat
    (s.portBusy r = true → exec i s = .next s) ∧ (s.portBusy r = false → ¬may → answer true 0 []) ∧
    (s.portBusy r = false → may → (num = 0x504 ∨ (0x210 ≤ num ∧ num < 0x214) ∨ (0x400 ≤ num ∧ num < 0x500) →
        answer false 0 (toBytes 8 (s.mreg num).toNat)) ∧
      (num = 0x100 → answer false 0 (toBytes 8 s.csrs.owntab.toNat)) ∧ (0x600 ≤ num ∧ num < 0x604 → answer false 0 (toBytes 8 0)) ∧
      (num = 0x506 → answer false 0 (toBytes 8 (if s.mgmt.locked then 1 else 0))) ∧ (num = 0x701 → answer true 0x04 []))) ∧
  (∀ (s : State) (v : DWord), (v = 1 → s.mgmt.locked = false → ∃ s', exec (.featlckWrite v) s = .next s' ∧ s'.mgmt.locked = true ∧
      (∀ m, s'.mreg m = if m = 0x504 then s.mreg 0x502 &&& 0xFFF#64 else s.mreg m) ∧ { s' with mgmt := s.mgmt } = s) ∧
    (v ≠ 1 ∨ s.mgmt.locked = true → exec (.featlckWrite v) s = .next s)) ∧
  (∀ (s : State) (v : DWord), let busy := s.mgmt.keyctl.getLsbD 10
    (busy = true → exec (.keyLoad v) s = .next s) ∧
    (busy = false → v.getLsbD 9 = true → ∃ s', exec (.keyLoad v) s = .next s' ∧ { s' with mgmt := s.mgmt, cores := s.cores, clusters := s.clusters } = s ∧
      s'.mgmt = { s.mgmt with keyctl := BitVec.ofNat 64 (v.toNat % 2 ^ 10 + 2 ^ 10), keyRq := none } ∧
      ∀ n a, let kept (c' c : Table (List Byte)) : Prop := tget c' a = if a % 256 = v.toNat % 256 then none else tget c a
        kept (s'.core n).l1 (s.core n).l1 ∧ kept (s'.core n).l0 (s.core n).l0 ∧ kept (s'.cluster n).gcache (s.cluster n).gcache ∧
        kept (s'.cluster n).icache (s.cluster n).icache) ∧
    (busy = false → v.getLsbD 9 = false → exec (.keyLoad v) s = .next { s with mgmt := { s.mgmt with keyctl := BitVec.ofNat 64 (v.toNat % 2 ^ 10) } })) ∧
  (∀ s : State, let k := s.mgmt.keyctl.toNat % 256
    let half := if s.mgmt.keyctl.getLsbD 8 then 1 else 0
    (s.mgmt.keyctl.getLsbD 10 = false ∨ s.keyUsed (BitVec.ofNat 8 k) = true → exec .keyInstall s = .next s) ∧
    (s.mgmt.keyctl.getLsbD 10 = true → s.keyUsed (BitVec.ofNat 8 k) = false → ∃ s', exec .keyInstall s = .next s' ∧
      s'.mgmt.keyctl = BitVec.ofNat 64 (s.mgmt.keyctl.toNat % 2 ^ 10) ∧
      (∀ n, tget s'.mgmt.keys n = if n = 2 * k + half then some s.mgmt.keyv else tget s.mgmt.keys n) ∧
      s'.sent = s.sent ++ (s.mgmt.keyRq.toList.map fun r => ⟨r.port.toNat, r.job.toNat, false, 0, 0, []⟩) ∧
      (∀ a, (s'.mgmt.key k = s.mgmt.key k ∨ (tget s.keys (a / 16)).map (·.key) ≠ some (BitVec.ofNat 8 k)) → tget s'.mem a = tget s.mem a) ∧
      ∀ a, s'.mgmt.key k ≠ s.mgmt.key k → (tget s.keys (a / 16)).map (·.key) = some (BitVec.ofNat 8 k) → tget s'.mem a = none)) ∧
  (∀ (s : State) (nonce : DWord), ∃ s' rep rsa slh key pub, exec (.attreqWrite nonce) s = .next s' ∧ s'.mreg 0x700 = nonce ∧
    s'.sent = s.sent ++ [⟨0, 0, false, 0, 0, rep ++ rsa ++ slh ++ key ++ pub⟩] ∧ s'.fresh = s.fresh + 1 ∧
    { s' with sent := s.sent, fresh := s.fresh, mgmt := s.mgmt } = s ∧
    rep.length = 256 ∧ rsa.length = 384 ∧ slh.length = 16224 ∧ key.length = 384 ∧ pub.length = 48 ∧
    rep.take 16 = [0x41, 0x4B, 0x33, 0x52, 1, 0, 0, 0] ++ toBytes 4 s.fw.svn.toNat ++ toBytes 4 s.fw.minSvn.toNat ∧
    (∀ n, n < 48 → rep.getD (0x20 + n) 0 = s.fw.digest.getD n 0) ∧
    rep.drop 0x50 = toBytes 8 (s.mreg 0x504).toNat ++ toBytes 8 (s.mreg 0x505).toNat ++ toBytes 8 nonce.toNat ++ List.replicate 152 0) ∧
  (∀ (s : State) (f : FwImage),
    let head := toBytes 4 f.magic.toNat ++ toBytes 4 f.version.toNat ++ toBytes 4 f.svn.toNat ++ toBytes 4 f.bodyLen.toNat ++ f.digest ++ f.reserved
    let signed : Prop := sha384 f.rsaKey = Config.fusedRsaDigest ∧ sha384 f.slhKey = Config.fusedSlhDigest ∧
      rsaVerify f.rsaKey (head ++ f.body) f.rsaSig = true ∧ slhVerify f.slhKey (head ++ f.body) f.slhSig = true ∧ s.fw.minSvn.toNat ≤ f.svn.toNat
    f.digest.length = 48 → f.reserved.length = 64 →
      (signed → exec (.firmwareImage f) s = .next { s with fw := ⟨f.svn, f.svn, sha384 f.body, true⟩ }) ∧
      (¬signed → exec (.firmwareImage f) s = .next { s with fw := { s.fw with ok := false } })) ∧
  ∀ s : State, ∃ s', exec .moduleReset s = .next s' ∧
    { s' with keys := [], fw := State.reset.fw, sent := [], agenda := [], fresh := 0, nextId := 1 } = State.reset ∧
    s'.fw = s.fw ∧ s'.sent = s.sent ∧ s'.agenda = s.agenda ∧ s'.fresh = s.fresh ∧
    ∀ d k a, ∃ n, s'.dieByte d k a = Config.freeByte a k n ∧ (tget s.keys (a / 16) ≠ none → n = s.nextId)

/-- 14_execution_model R307 to R309, R312, R316 to R318; 15_traps_preemption R345: the distributor offers the next set of the highest class
with work, its queues in turn, to the die and the L2 slice that its affinity selects; a refused grid at its queue's head holds the queue
back; a cluster takes a set only if none that comes before it can (the model's reading: log entry 80); an admission that fits starts the team with every register, fragment and object at its initial value, and one
that does not fit changes nothing. -/
def Obligations.LaunchAndAdmission : Prop := (∀ s : State, let has (p : Nat) : Prop := ∃ h, s.queueHead p = some h ∧ h.2.refused = none
  (s.nextQueue = none ↔ ∀ p, p < 64 → ¬has p) ∧
  ∀ q, s.nextQueue = some q → q < 64 ∧ has q ∧ ∀ p, p < 64 → has p → p / 16 < q / 16 ∨ (p / 16 = q / 16 ∧
    let r := s.rrobin.getD (q / 16) 0 % 16
    (q % 16 + 16 - r) % 16 ≤ (p % 16 + 16 - r) % 16)) ∧
  (∀ (s : State) (die : Nat), (s.nextQueue = none → exec (.placement die) s = .next s) ∧
    ∀ q id g, s.nextQueue = some q → s.queueHead q = some (id, g) →
      let d := g.dims
      let n := g.offered
      let x := n % d.1
      let y := n / d.1 % d.2.1
      let z := n / (d.1 * d.2.1)
      let dest := s.dieFor g x y z
      let looks : Prop := pktBits g.pkt 0 21 20 = 2 ∧ s.lookupOpen none 0 g.owner (g.follows x y z) = true
      let set : TSet := ⟨id, x, y, z, pktBits g.pkt 0 13 12, .queued die, s.nextId, [], false, false, 0, dest.2⟩
      (dest.1 ≠ die ∨ looks → exec (.placement die) s = .next s) ∧
      (dest.1 = die → ¬looks → exec (.placement die) s = .next { s with
        sets := tput s.sets s.nextId set, grids := tput s.grids id { g with offered := n + 1 }
        rrobin := lset s.rrobin (q / 16) ((q + 1) % 16), nextId := s.nextId + 1 })) ∧
  (∀ (s : State) (g : Grid) (x y z : Nat), let f (o hi lo : Nat) : Nat := pktBits g.pkt o hi lo
    let free (e : Nat) : Nat := s.freeSlots ((List.range 96).map (96 * e + ·))
    let freest : Prop := (s.dieFor g x y z).2 = none ∧ (s.dieFor g x y z).1 < 8 ∧ ∀ d, d < 8 →
      free d < free (s.dieFor g x y z).1 ∨ (free d = free (s.dieFor g x y z).1 ∧ (s.dieFor g x y z).1 ≤ d)
    (f 0 21 20 = 1 → let h := (f 0x30 15 0 * x + f 0x30 31 16 * y + f 0x30 47 32 * z) % 512
      s.dieFor g x y z = (h / 64, some (h % 64))) ∧
    (f 0 21 20 = 0 → freest) ∧
    (f 0 21 20 = 2 →
      let v := BitVec.ofInt 64 ((f 0x38 63 0 : Nat) + x * sextNat 32 (f 0x40 31 0) + y * sextNat 32 (f 0x40 63 32) + z * sextNat 32 (f 0x48 31 0))
      (s.translate none 0 g.owner v = none → freest) ∧
      ∀ l, s.translate none 0 g.owner v = some l →
        let h := homeOf l.pa
        let b (k n : Nat) : Nat := l.pa / 2 ^ k % 2 ^ n
        s.dieFor g x y z = (if h = some 9 then 3 else if h = some 8 ∨ h = none then 0 else h.getD 0,
          some (b 7 6 ^^^ b 13 6 ^^^ b 19 6 ^^^ b 25 6 ^^^ b 31 5)))) ∧
  (∀ (s : State) (d : Nat) (z : TSet) (a b : Nat),
    let dist (k q : Nat) : Int := ((q : Int) - (24 * k / 64 : Nat)).natAbs
    (∀ k, z.slice = some k → (s.offeredFirst d z a b = true ↔ dist k a < dist k b ∨ (dist k a = dist k b ∧ a < b))) ∧
    (z.slice = none → (s.offeredFirst d z a b = true ↔
      s.freeSlots ((List.range 4).map (4 * (24 * d + b) + ·)) < s.freeSlots ((List.range 4).map (4 * (24 * d + a) + ·))))) ∧
  (∀ (s : State) (id cl : Nat) (plan : List Admit), (∀ z, s.set? id = some z → (∃ c, z.phase = .admitted c) ∨ tget s.grids z.grid = none ∨
      (∃ d, z.phase = .queued d ∧ (cl / 24 ≠ d ∨ s.admitNext id z d = false)) ∨ 192 ≤ cl ∨ (s.cluster cl).asleep = true ∨
      (∃ g q, tget s.grids z.grid = some g ∧ q < 24 ∧ s.offeredFirst (cl / 24) z q (cl % 24) = true ∧ s.takes (24 * (cl / 24) + q) g.pkt = true)) →
    exec (.admission id cl plan) s = .next s) ∧
  ∀ (s : State) (id cl d : Nat) (a : Admit) (z : TSet) (g : Grid), s.set? id = some z → tget s.grids z.grid = some g → z.phase = .queued d →
    cl / 24 = d → cl < 192 → s.admitNext id z d = true → (s.cluster cl).asleep = false →
    (∀ q, q < 24 → s.offeredFirst d z q (cl % 24) = true → s.takes (24 * d + q) g.pkt = false) → pktBits g.pkt 0 15 14 = 0 → a.moves = [] →
    (s.fits g.pkt cl a = false → exec (.admission id cl [a]) s = .next s) ∧
    (s.fits g.pkt cl a = true → ∃ s' q, exec (.admission id cl [a]) s = .next s' ∧ s'.team? a.teamid = some q ∧
      s'.set? id = some { z with phase := .admitted cl, teams := [a.teamid], order := s.nextId } ∧
      (∀ t, t ≠ a.teamid → s'.team? t = s.team? t) ∧ s'.mem = s.mem ∧ s'.pend = s.pend ∧ s'.flight = s.flight ∧
      (∀ k ∈ a.cores, (s'.core k).l1 = [] ∧ (s'.core k).l0 = []) ∧ (s'.cluster cl).gcache = [] ∧ (s'.cluster cl).icache = [] ∧ (s'.cluster cl).power = .active ∧
      q.owner = g.owner ∧ q.sys = g.sys ∧ q.cluster = cl ∧ q.cores = a.cores ∧ q.step = .running ∧ q.args = g.args ∧ q.succ = [] ∧
      q.cur = pktBits g.pkt 0 13 12 ∧ q.acc = [] ∧ q.nlt = [] ∧ q.warps.length = (pktBits g.pkt 0 43 32 + 31) / 32 ∧
      (∀ ci off, s'.spByte a.teamid ci off = 0) ∧
      (∀ k, k < 24 → let n := (g.pkt.getD (10 + k / 4) 0).toNat / 2 ^ (16 * (k % 4)) % 2 ^ 12
        q.rv[k]? = some ⟨0, n != 0, n, n⟩) ∧
      (∀ k w, q.warps[k]? = some w → w.core = a.cores.getD (k % a.cores.length) 0 ∧ w.wslot = a.wslots.getD k 0 ∧ w.place = .resident ∧
        w.exited = false ∧ w.allot = 8 * pktBits g.pkt 0 49 44 ∧ w.v = [] ∧ w.p = [] ∧ w.fst = 0 ∧ w.wst = 0 ∧
        (∀ r, w.regs.s r = if r < 16 then g.args.getD r 0 else 0) ∧ (∀ r, w.regs.xv r = 0 ∧ w.regs.flag r = 0) ∧
        w.live1 = none ∧ w.spill = [] ∧ w.parks = [] ∧ w.handler = none ∧ ∃ f, w.live0 = some f ∧ f.cpc = g.pkt.getD 2 0 ∧ f.slot = 0 ∧
          f.stk = [] ∧ f.rj = 15 ∧ f.age = 0 ∧ f.tg = List.replicate 24 1 ∧
          ∀ l, l < 32 → f.lmap.getLsbD l = decide (32 * k + l < pktBits g.pkt 0 43 32)) ∧
      q.cccs.length = pktBits g.pkt 0 19 18 ∧
      ∀ k x, q.cccs[k]? = some x → x.ctx = a.ctxs.getD k 0 ∧ x.frag.cpc = g.pkt.getD (4 + k) 0 ∧ x.mxc = 0 ∧ x.mxs = 0 ∧
        ∀ r, x.regs.s r = if r < 16 then g.args.getD r 0 else 0)

/-- 14_execution_model R321, R323; 15_traps_preemption R345: a team completes once its warps, contexts, copies and posts are done: it
releases its writes, lowers the DEP of each successor by an atomic of package scope, launches one that reaches zero once what its DEP
and its packet have come from is performed everywhere, and with the last team the set ends. -/
def Obligations.TeamCompletions : Prop := ∀ (s : State) (t : Nat) (q : Team), s.team? t = some q →
  let i : Instr := .teamCompletion t
  let frozen := ((s.set? q.set).map (·.frozen)).getD true
  let steps (k : Step3) (t' : State) : Prop := exec i s = .next (t'.modTeam t fun x => { x with step := k })
  (q.step = .running → q.finished = false ∨ frozen = true → exec i s = .next s) ∧
  (q.step = .running → q.finished = true → frozen = false → ∃ ids, steps (.released ids) (s.dequeueTeam t) ∧
    ∀ w ∈ s.pend ++ s.flight, w.tgt = .glob → (w.src.map teamOf = some t ∨ q.cluster / 24 ∈ w.dies) → w.id ∈ ids) ∧
  (∀ ids, q.step = .released ids → (ids.any s.onWay = true → exec i s = .next s) ∧ (ids.any s.onWay = false → steps (.decrementing q.succ) s)) ∧
  (q.step = .complete → exec i s = .next s) ∧
  (∀ v r, q.step = .decrementing (v :: r) →
    let src : RingSrc := .completion q.cluster
    let ent (kind code : Nat) : RingEnt := ⟨code, kind, q.owner, 1023, q.cluster, 0, false, 0, v, 0, 0, []⟩
    let reports (kind code : Nat) : Prop := (s.ringBusy src = true → exec i s = .next s) ∧
      (s.ringBusy src = false → steps (.decrementing r) (s.ringPut src (ent kind code)))
    let d := q.cluster / 24
    let looks := s.lookupOpen none d q.owner v
    let acc := s.access none d q.owner v .atomic
    (looks = true → exec i s = .next s) ∧ (∀ k, looks = false → acc = .error k → reports 6 k) ∧
    ∀ f, looks = false → acc = .ok f →
      let a := f.pa + 0x80
      let home := (homeOf a).getD 8
      let old := ofBytes (s.homeBytes f.key a 4)
      let late : Prop := home < 8 ∧ ∃ id ∈ s.predsAt d, s.appliedAt home id = false
      (old = 0 → reports 5 0) ∧ (old ≠ 0 → late → exec i s = .next s) ∧
      (old ≠ 0 → ¬late → ∃ s' w ids, exec i s = .next s' ∧ s'.flight = s.flight ++ [w] ∧ w.id = s.nextId ∧ w.addr = a ∧ w.key = f.key ∧
        w.bytes = toBytes 4 (old - 1) ∧ w.die = d ∧ s'.pend = s.pend ∧ s'.grids = s.grids ∧ (∀ n ∈ s.srcsOf (fun _ => true) a 4, n ∈ ids) ∧
        s'.team? t = some { q with step := if old = 1 then .launching v (s.nextId :: ids) r else .decrementing r })) ∧
  (∀ v ids r, q.step = .launching v ids r →
    let joins (p : List DWord) (args : List Word) (no : Option Nat) : State :=
      let g : Grid := ⟨none, q.owner, pktBits p 0 8 8 == 1, v, p, args, 16 * pktBits p 0 13 12 + v.toNat / 256 % 16, 0, 0, no⟩
      { s with nextId := s.nextId + 1, grids := tput s.grids s.nextId g }
    (ids.any s.onWay = true ∨ s.packetOpen q.owner v = true → exec i s = .next s) ∧
    (ids.any s.onWay = false → s.packetOpen q.owner v = false →
      (∀ p, s.readPacket q.owner v q.sys = .ok p → steps (.decrementing r) (joins p (pktArgs p) none)) ∧
      ∀ k p, s.readPacket q.owner v q.sys = .error (k, p) →
        (s.ringBusy .package = true → steps (.decrementing r) (joins p [] (some k))) ∧
        (s.ringBusy .package = false → steps (.decrementing r) (s.ringPut .package ⟨k, 4, q.owner, 1023, 255, 0, false, 0, v, 0, 0, []⟩)))) ∧
  (∀ z g, q.step = .decrementing [] → s.set? q.set = some z → tget s.grids z.grid = some g → ∃ s', exec i s = .next s' ∧
    let done (a : Nat) : Prop := a = t ∨ ∀ y, s.team? a = some y → y.step = .complete
    let last : Prop := ∀ a ∈ z.teams, done a
    (¬last → (s'.team? t).map (·.step) = some .complete ∧ tget s'.grids z.grid = some { g with done := g.done + 1 }) ∧
    (last → (∀ a ∈ z.teams, s'.team? a = none) ∧ s'.set? q.set = none ∧
      tget s'.grids z.grid = if g.total * (pktBits g.pkt 0 15 14 + 1) ≤ g.done + 1 then none else some { g with done := g.done + 1 }))

/-- 15_traps_preemption R332, R354 to R358, R361; 17_power R389: a pre-emption, on the first cluster where that makes room, names victims of
teams of a lower current class; each victim stops, a warp with its counted operations completed or withdrawn into its queue, a team core
with its copies at a unit's end, cluster-level state with its entries taken from the table and a granted scan still granted; and is
saved, ways of the L1s being lent; a saved warp resumes in a slot and runs of bricks of its core, with every register as it was. -/
def Obligations.Preemption : Prop := (∀ (s : State) (id cl d : Nat) (z : TSet) (g : Grid), s.set? id = some z → tget s.grids z.grid = some g →
  z.phase = .queued d →
    let i : Instr := .preemptionRequest id cl
    let busy := (s.preempting cl).any fun p => p.set != id || !p.saves.isEmpty
    let found (q : Nat) := s.choose (24 * d + q) z.cls g.pkt
    let no : Prop := cl / 24 ≠ d ∨ 192 ≤ cl ∨ busy = true ∨ s.admitNext id z d = false ∨
      ∃ q, q < 24 ∧ (s.setFits (24 * d + q) g.pkt = true ∨ (s.offeredFirst d z q (cl % 24) = true ∧ found q ≠ none))
    (no ∨ found (cl % 24) = none → exec i s = .next s) ∧
    ∀ l, ¬no → found (cl % 24) = some l → exec i s = .next (s.modCluster cl fun c => { c with preempt := some ⟨id, l, l⟩ }) ∧
      (∃ s1, s.evictUnits l = some s1 ∧ s1.setFits cl g.pkt = true) ∧ ∀ u ∈ l, ∃ q v, (u.1, q) ∈ s.teams ∧ q.cluster = cl ∧ q.cur < z.cls ∧
        s.set? q.set = some v ∧ v.frozen = false ∧ v.phase = .admitted cl) ∧
  (∀ (s : State) (t n : Nat) (q : Team) (p : Preempt), s.team? t = some q → (s.cluster q.cluster).preempt = some p →
    let stop : Instr := .victimStop t n
    let save : Instr := .snowpackSave t n
    let es := (s.cluster q.cluster).entries
    let left (s' : State) : Prop := exec stop s = .next s' ∧ (s'.cluster q.cluster).preempt = some { p with stops := p.stops.erase (t, n) }
    let kept (s' : State) : Prop := exec save s = .next s' ∧ (s'.cluster q.cluster).preempt = some { p with saves := p.saves.erase (t, n) } ∧
      ∀ k, k < 4 → (s'.core (4 * q.cluster + k)).lent ≠ (s.core (4 * q.cluster + k)).lent → (s'.core (4 * q.cluster + k)).l1 = []
    ((t, n) ∉ p.stops → exec stop s = .next s) ∧ ((t, n) ∉ p.saves ∨ (t, n) ∈ p.stops → exec save s = .next s) ∧
    (∀ x, (t, n) ∈ p.stops → q.warps[n]? = some x → x.place = .resident → x.exited = false → (x.regs.ops.map (·.seq)).Nodup →
      let can := x.regs.ops.filter fun o => (atomOf o.instr).isNone && !o.passed
      let out := can.drop (can.length - x.entryRoom)
      let done := (x.regs.ops.filter fun o => !out.contains o).foldl (fun a o => a.bind fun y => y.complete (.warp t n) o.seq false) (some s)
      (done = none → exec stop s = .next s) ∧
      ∀ s1 w, done = some s1 → s1.warp? t n = some w → ∃ s' y, left s' ∧ s'.warp? t n = some y ∧ y.place = .stopped ∧ y.regs.ops = [] ∧
        w.regs.ops.map (·.seq) = out.map (·.seq) ∧ y.queue = w.queue ++ w.regs.ops.map (entryOf w) ∧
        { y with place := w.place, regs := w.regs, queue := w.queue } = w.unfence ∧ { y.regs with fl := w.regs.fl, ops := w.regs.ops } = w.regs) ∧
    (∀ x, (t, n) ∈ p.stops → q.warps[n]? = some x → x.place ≠ .resident ∨ x.exited = true → ∃ s', left s' ∧ s'.teams = s.teams) ∧
    ((t, n) ∈ p.stops → q.warps.length ≤ n → n < q.clusterNo →
      let ci := n - q.warps.length
      let pass : Prop := ∃ e ∈ es, e.granted ≠ none ∧ e.unit ≠ .nzs ∧ ∃ y ∈ e.tiles, y.1 = t ∧ y.2.1 = ci
      (pass → exec stop s = .next s) ∧
      (¬pass → ∃ s', left s' ∧ (s'.cluster q.cluster).entries = es ∧ ∀ a v, s.team? a = some v → ∃ v', s'.team? a = some v' ∧ { v' with tags := v.tags } = v ∧
        v'.tags = v.tags.map (·.map fun g => if g.st = 1 ∧ g.cp.any (fun k => k.at_.1 == t && k.at_.2.1 == ci) = true then { g with dh := true } else g))) ∧
    ((t, n) ∈ p.stops → n = q.clusterNo → q.cplace = .resident → q.step = .running →
      ((∃ e ∈ es, e.team = t ∧ e.granted ≠ none ∧ e.unit ≠ .nzs) → exec stop s = .next s) ∧
      (∀ k c o, q.cccs[k]? = some c → (∀ j y, j < k → q.cccs[j]? = some y → y.regs.ops = []) → c.regs.ops.head? = some o →
        s.complete (.ccc t k) o.seq false = none → exec stop s = .next s) ∧
      ((∀ e ∈ es, e.team = t → e.granted ≠ none → e.unit = .nzs) → (∀ c ∈ q.cccs, c.regs.ops = []) → ∃ s' y, left s' ∧ s'.team? t = some y ∧
        y.cplace = .stopped ∧ y.ents = es.filter (·.team == t) ∧ (s'.cluster q.cluster).entries = es.filter (·.team != t))) ∧
    (∀ x, (t, n) ∈ p.saves → (t, n) ∉ p.stops → q.warps[n]? = some x → x.place = .stopped → ∃ s' y, kept s' ∧
      s'.warp? t n = some { x with place := .saved } ∧ s'.team? t = some y ∧ ∃ v, y.saves = q.saves ++ [v] ∧ v.unit = n ∧ v.at_ = x.core ∧
        v.wslot = x.wslot ∧ v.snow + v.spilt = s.saveBytes t q n) ∧
    (∀ ci, (t, n) ∈ p.saves → (t, n) ∉ p.stops → n = q.warps.length + ci → n < q.clusterNo → ci < q.saved.length → ∃ s' y, kept s' ∧
      s'.team? t = some y ∧ y.saved[ci]? = some true) ∧
    ((t, n) ∈ p.saves → (t, n) ∉ p.stops → n = q.clusterNo → q.cplace = .stopped → ∃ s' v, kept s' ∧
      s'.team? t = some { q with cplace := .saved, saves := q.saves ++ [v] } ∧ v.unit = n ∧ v.snow + v.spilt = s.saveBytes t q n)) ∧
  ∀ (s : State) (t n : Nat) (q : Team) (a : Admit) (z : TSet), s.team? t = some q → s.set? q.set = some z →
    let i : Instr := .resume t n [] a
    (q.isAway n = false → exec i s = .next s) ∧
    ∀ x, q.warps[n]? = some x → x.place = .saved → a.moves = [] → z.phase = .admitted q.cluster → (s.cluster q.cluster).asleep = false →
      s.preempting q.cluster = none → s.resumeNext q.set z (q.cluster / 24) = true →
      let ci := n % q.cores.length
      let core := q.cores.getD ci 0
      let slot := a.wslots.headD 0
      let runs := a.bricks.zip (x.bricks.map (·.2))
      q.saved.getD ci true = false → slot < 64 → slot ∉ s.slotsOn core → a.bricks.length = x.bricks.length → a.bricks.headD 0 % 4 = 0 →
      (∀ r ∈ runs, runFree (s.bricksOf core) r.1 r.2 = true) → runs.Pairwise (fun v w => meets v.1 v.2 w.1 w.2 = false) →
        ∃ s' y, exec i s = .next s' ∧ s'.warp? t n = some y ∧ y.place = .resident ∧ y.wslot = slot ∧ y.core = core ∧ y.bricks = runs ∧ y.queue = x.queue ∧
          y.regs = x.regs ∧ y.v = x.v ∧ y.p = x.p ∧ y.j = x.j ∧ y.parks = x.parks ∧ y.frame = x.frame ∧
          y.active = x.active.map fun f => { f with wait := none, hdr := if f.wait = some .flags then none else f.hdr }

/-- 15_traps_preemption R349 (and R345, R346): `halt` freezes the issuing team set with a KIND 9 entry, once its source's pending
slot is free. -/
def Obligations.Halt : Prop := ∀ (s : State) (c : Ctx) (z : TSet), Issues s c .halt → s.set? (s.setOf (teamOf c.cur.unit)) = some z →
  let u := c.cur.unit
  (s.ringBusy (s.ringSrc u) = true → Waits .halt s c .ring s) ∧
  (s.ringBusy (s.ringSrc u) = false → ∃ (s1 : State) (e : RingEnt), Retires .halt s c (s1.ringPut (s.ringSrc u) e) ∧ e.kind = 9 ∧ e.va = c.cpc ∧
    e.owner = s.ownerOf u ∧ e.teamid = teamOf u ∧ s1.set? (s.setOf (teamOf u)) = some { z with frozen := true } ∧ SameMem s s1)

/-- 09_narrow_formats R214: a K8 element is the two's-complement integer of its byte, but 0x80 is the NaN element; only 0x00 is
zero. -/
def Obligations.NarrowElements : Prop := ∀ (b : Byte), (k8Elem b.toNat 0 = none ↔ b = 0x80#8) ∧
  (∀ v, k8Elem b.toNat 0 = some v → v = b.toInt ∧ -127 ≤ v ∧ v ≤ 127) ∧ (k8Elem b.toNat 0 = some 0 ↔ b = 0x00#8)

/-- 02_instruction_words R16, R18, R22, R23, R32, R52; 11_matrix_engine R244, R268; 14_execution_model R320; 17_power R383, R385: a step takes
the next turn. A core's turn opens its warps, chooses one and its fragment; a CCC's turn serves its ready contexts in ascending number.
The fragment enters its clause, then its word is fetched and decoded, and the instruction that it decodes to is executed, a vector one
once the pipes and the crossbar that it needs hold reservations, which it uses up; the clause's hint comes after. A word that decodes to
none traps ILLENC. A fetch waits for its lookup. An event is executed as it stands. -/
def Obligations.StepRunsDecoded : Prop := (∀ (s : State) (k : Nat) (rest : List Turn), s.agenda = .core k :: rest →
    let s1 := ({ s with agenda := rest } : State).openTurn k
    let l := s1.readyWarps k
    (chooseWarp (s1.core k).last l = none → step s = .next (s1.asideDown k)) ∧
    ∀ p, chooseWarp (s1.core k).last l = some p →
      let r := ((s1.asideDown k).ageWarps l p).takePick p.t p.w p.pick
      step s = r.1.runFrag ⟨.warp p.t p.w, r.2⟩) ∧
  (∀ (s : State) (q : Nat) (rest : List Turn), s.agenda = .ccc q :: rest →
    let s1 : State := { s with agenda := rest }
    let l := s1.readyCtxs q
    let dist (n : Nat) : Nat := (n + 8 - (s.cluster q).turn % 8) % 8
    (l = [] → step s = .next s1) ∧
    (l ≠ [] → ∃ t k n, (t, k, n) ∈ l ∧ (∀ x ∈ l, dist n ≤ dist x.2.2) ∧
      let s2 := s1.modCluster q fun c => { c with turn := (n + 1) % 8 }
      (∀ y, s2.ccc? t k = some y → y.grantf ≠ none → step s = .next (s2.takeGrantFault t k)) ∧
      (∀ y, s2.ccc? t k = some y → y.grantf = none → step s = s2.runFrag ⟨.ccc t k, .ctx⟩))) ∧
  (∀ (s : State) (cur : Cur) (f : Frag), s.frag? cur = some f → f.hdr.isSome = true →
    let at_ := f.cpc + BitVec.ofNat 64 (8 * (f.slot + 1))
    let ends (s' : State) : Prop := s.runFrag cur = .next (s'.hintAfter cur f)
    let stall (s' : State) : State := s'.modFrag cur fun g => { g with wait := some .stall }
    let looks := s.lookups cur.unit [at_]
    (looks = true → ends (stall s)) ∧
    (∀ code, looks = false → s.fetch cur.unit at_ = .error code → ends (s.boundaryTrap cur (oneTrap code at_) false)) ∧
    ∀ w, looks = false → s.fetch cur.unit at_ = .ok w → let s1 : State := { s with cur := some cur }
      (∀ e, decodeWord w = .error e → ends (s.boundaryTrap cur (plainTrap cILLENC) false)) ∧
      (∀ i, decodeWord w = .ok i → s1.vectorGo i = false → ends (stall (s1.vectorAsk i))) ∧
      ∀ i s', decodeWord w = .ok i → s1.vectorGo i = true → exec i s1 = .next s' → ends (s1.vectorSpend cur i s')) ∧
  (∀ (s : State) (cur : Cur) (f : Frag), s.frag? cur = some f → f.hdr = none →
    let looks := s.lookups cur.unit [f.cpc]
    let traps (ti : TrapInfo) : Prop := s.runFrag cur = .next (s.boundaryTrap cur ti true)
    (looks = true → s.runFrag cur = .next (s.modFrag cur fun g => { g with wait := some .stall })) ∧
    (∀ code, looks = false → s.fetch cur.unit f.cpc = .error code → traps (oneTrap code f.cpc)) ∧
    ∀ w, looks = false → s.fetch cur.unit f.cpc = .ok w → (decodeHeader w = none → traps (plainTrap cILLENC)) ∧
      ∀ h, decodeHeader w = some h → (h.len ≤ f.slot → traps (plainTrap cILLENC)) ∧
        (f.slot < h.len →
          let ready := f.slot != 0 || (s.regs? cur.unit).all fun r => r.flagsClear h.wait
          (ready = true → s.runFrag cur = (s.modFrag cur fun g => { g with hdr := some h }).runFrag cur) ∧
          (ready = false → s.runFrag cur = .next (s.modFrag cur fun g => { g with hdr := some h, wait := some .flags })))) ∧
  (∀ (s : State) (i : Instr), s.vectorGo i = true ↔
    ∀ x ∈ (s.vectorNeeds i).2.2, ∃ r ∈ (s.cluster (s.vectorNeeds i).1).held, r.who = x.1) ∧
  (∀ (s : State) (q t n : Nat) (r : CurReq), r ∈ (s.cluster q).held → (∀ y ∈ (s.cluster q).held, y.who = r.who → y = r) →
    let s' := s.spend q t (r.who, n)
    (∀ y, y.who ≠ r.who → (y ∈ (s'.cluster q).held ↔ y ∈ (s.cluster q).held)) ∧
    (∀ y, y.who = r.who → (y ∈ (s'.cluster q).held ↔ n < r.left ∧ y = { r with left := r.left - n })) ∧
    (r.left < n → ∃ y ∈ (s'.cluster q).reqs, y.who = r.who)) ∧
  (∀ (s : State) (i : Instr) (rest : List Turn), s.agenda = .event i :: rest → isEvent i = true → step s = exec i { s with agenda := rest }) ∧
  ∀ s : State, s.agenda = [] → step s = ({ s with fresh := s.fresh + 1 } : State).turn (Config.turn s.fresh)

/-- 02_instruction_words R34 to R52 and the encoding tables: worked words of the spec decode to the instructions that they stand for, with
their fields at the values the tables give, and these encode to the same words. -/
def Obligations.DecodedWords : Prop := ∀ p ∈ ([
  (0x2000008060220000#64, Instr.fadd (.reg ⟨⟨false, false, 0⟩, ⟨true, false, 1⟩, ⟨true, false, 2⟩, 1, 0, false, false, 0, false, false, false, 0, 0, 0⟩)),
  (0x5080040110000010#64, .sAdd (.imm ⟨⟨false, false, 4⟩, ⟨false, false, 4⟩, 1, false, 0, 16⟩)),
  (0x0A0010000000FF00#64, .rgn ⟨16, 0xFF⟩),
  (0x0C00400000080003#64, .xset ⟨0, 0, true, 3⟩),
  (0x7004020000104C04#64, .cpS2g ⟨2, 0, 1, 1, false, false, true, true, false, 4⟩),
  (0x7300000000001001#64, .ownGive ⟨0, 0, 0, true, 1⟩),
  (0x7204000000080001#64, .tagWall ⟨0, 0, true, false, 0, 1⟩),
  (0x0904000100000000#64, .exitSpawn ⟨4, 0⟩),
  (0x7D10140480000000#64, .mbxPost ⟨0x14, 0x12, 0⟩)] : List (DWord × Instr)),
  decodeTableWord 64 p.1.toNat = some p.2 ∧ encode p.2 = p.1

/-- 15_traps_preemption R351; 18_host_and_trust R400; 07_registers R167; 17_power R392: what module reset leaves. -/
def Obligations.ResetState : Prop := State.reset.MemWf ∧ State.reset.WritesWf ∧ (∀ n, 0x100 ≤ n → State.reset.csr (.warp 0 0) n = 0) ∧
  (∀ n, n ≠ 0x200 → State.reset.mreg n = 0) ∧ State.reset.mgmt.locked = false ∧ (∀ n, State.reset.feature n = false) ∧
  (∀ d, (State.reset.die d).clkmap = 0x8888#64) ∧ (∀ n, (State.reset.core n).ifcnt = 0 ∧ (State.reset.core n).clk = 0) ∧
  (∀ n, (State.reset.cluster n).entries = [] ∧ (State.reset.cluster n).power = .active) ∧
  State.reset.teams = [] ∧ State.reset.grids = [] ∧ State.reset.pend = [] ∧ State.reset.flight = []

/-- The canonical form of memory (the model's own, log entry 2; 03_memory_tiers R71) is an invariant of every step, from every state; and
so is that the writes on their way have names of their own, and that those in coherence order go to global memory and to no
replicated page (06_consistency R133, R146). -/
def Obligations.MemoryStaysCanonical : Prop := (∀ s s' : State, s.MemWf → step s = .next s' → s'.MemWf) ∧
  ∀ s s' : State, s.WritesWf → step s = .next s' → s'.WritesWf

/-- 02_instruction_words R34 to R52: decoding the encoding of a well-formed instruction gives it back, with every field; and a word that
decodes is the encoding of what it decodes to, which is well formed, so no two words stand for one instruction. -/
def Obligations.EncodeDecode : Prop := (∀ i : Instr, WellFormed i → isEvent i = false → decodeWord (encode i) = .ok i) ∧
  ∀ (w : DWord) (i : Instr), decodeWord w = .ok i → WellFormed i ∧ encode i = w

end
end

