-- ==== Sys2Proof/Laws/Encode.lean ====
section
/-!
SUPPORT. The laws of the encodings: fields read back from a packed word, and every layout's record read back from its fields.
-/
set_option linter.unusedSimpArgs false

namespace Sys2Proof

open Machine

/-- The low field of a packed word, and the rest. -/
theorem pack_mod (w v r : Nat) : (v % 2 ^ w + 2 ^ w * r) % 2 ^ w = v % 2 ^ w := by
  rw [Nat.add_mul_mod_self_left, Nat.mod_mod]

theorem pack_div (w v r : Nat) : (v % 2 ^ w + 2 ^ w * r) / 2 ^ w = r := by
  rw [Nat.add_mul_div_left _ _ (Nat.two_pow_pos w), Nat.div_eq_of_lt (Nat.mod_lt _ (Nat.two_pow_pos w)), Nat.zero_add]

/-- Fields read back from the body they were packed into. -/
theorem unpack_bodyOf (ws vs : List Nat) (h : ws.length = vs.length) :
    unpack ws (bodyOf ws vs) = (ws.zip vs).map fun e => e.2 % 2 ^ e.1 := by
  induction ws generalizing vs with
  | nil => rfl
  | cons w ws ih =>
    cases vs with
    | nil => simp at h
    | cons v vs =>
      have h' : ws.length = vs.length := by simpa using h
      show (v % 2 ^ w + 2 ^ w * bodyOf ws vs) % 2 ^ w :: unpack ws ((v % 2 ^ w + 2 ^ w * bodyOf ws vs) / 2 ^ w) = _
      rw [pack_mod, pack_div, ih vs h']; rfl

/-- A packed body is below the power of the sum of its widths. -/
theorem bodyOf_lt (ws vs : List Nat) : bodyOf ws vs < 2 ^ ws.sum := by
  induction ws generalizing vs with
  | nil => cases vs <;> simp [bodyOf, pack]
  | cons w ws ih =>
    cases vs with
    | nil => simp [bodyOf, pack, Nat.two_pow_pos]
    | cons v vs =>
      have h := ih vs
      have hv := Nat.mod_lt v (Nat.two_pow_pos w)
      show v % 2 ^ w + 2 ^ w * bodyOf ws vs < 2 ^ (w + ws.sum)
      rw [Nat.pow_add]
      calc v % 2 ^ w + 2 ^ w * bodyOf ws vs < 2 ^ w + 2 ^ w * bodyOf ws vs := by omega
        _ = 2 ^ w * (bodyOf ws vs + 1) := by rw [Nat.mul_add, Nat.mul_one, Nat.add_comm]
        _ ≤ _ := Nat.mul_le_mul_left _ h

theorem bit_mod_two (b : Bool) : bit b % 2 ^ 1 = bit b := by cases b <;> rfl

theorem bit_beq_one (b : Bool) : (bit b == 1) = b := by cases b <;> rfl

/-- Every layout's record reads back from its packed fields. -/
theorem GenW.roundtrip (w : GenW) : GenW.ofVals (unpack GenW.widths (bodyOf GenW.widths w.vals)) = w := by
  rw [unpack_bodyOf _ _ (by rfl)]
  simp only [GenW.widths, GenW.vals, GenW.ofVals, List.zip_cons_cons, List.zip_nil_right, List.map_cons, List.map_nil,
    List.getD_cons_succ, List.getD_cons_zero, bit_mod_two, bit_beq_one, BitVec.toNat_mod_cancel, BitVec.ofNat_toNat, BitVec.setWidth_eq]

theorem ImmW.roundtrip (w : ImmW) : ImmW.ofVals (unpack ImmW.widths (bodyOf ImmW.widths w.vals)) = w := by
  rw [unpack_bodyOf _ _ (by rfl)]
  simp only [ImmW.widths, ImmW.vals, ImmW.ofVals, List.zip_cons_cons, List.zip_nil_right, List.map_cons, List.map_nil,
    List.getD_cons_succ, List.getD_cons_zero, bit_mod_two, bit_beq_one, BitVec.toNat_mod_cancel, BitVec.ofNat_toNat, BitVec.setWidth_eq]

theorem OffW.roundtrip (w : OffW) : OffW.ofVals (unpack OffW.widths (bodyOf OffW.widths w.vals)) = w := by
  rw [unpack_bodyOf _ _ (by rfl)]
  simp only [OffW.widths, OffW.vals, OffW.ofVals, List.zip_cons_cons, List.zip_nil_right, List.map_cons, List.map_nil,
    List.getD_cons_succ, List.getD_cons_zero, bit_mod_two, bit_beq_one, BitVec.toNat_mod_cancel, BitVec.ofNat_toNat, BitVec.setWidth_eq]

theorem XbW.roundtrip (w : XbW) : XbW.ofVals (unpack XbW.widths (bodyOf XbW.widths w.vals)) = w := by
  rw [unpack_bodyOf _ _ (by rfl)]
  simp only [XbW.widths, XbW.vals, XbW.ofVals, List.zip_cons_cons, List.zip_nil_right, List.map_cons, List.map_nil,
    List.getD_cons_succ, List.getD_cons_zero, bit_mod_two, bit_beq_one, BitVec.toNat_mod_cancel, BitVec.ofNat_toNat, BitVec.setWidth_eq]

theorem RebalW.roundtrip (w : RebalW) : RebalW.ofVals (unpack RebalW.widths (bodyOf RebalW.widths w.vals)) = w := by
  rw [unpack_bodyOf _ _ (by rfl)]
  simp only [RebalW.widths, RebalW.vals, RebalW.ofVals, List.zip_cons_cons, List.zip_nil_right, List.map_cons, List.map_nil,
    List.getD_cons_succ, List.getD_cons_zero, bit_mod_two, bit_beq_one, BitVec.toNat_mod_cancel, BitVec.ofNat_toNat, BitVec.setWidth_eq]

theorem LdtW.roundtrip (w : LdtW) : LdtW.ofVals (unpack LdtW.widths (bodyOf LdtW.widths w.vals)) = w := by
  rw [unpack_bodyOf _ _ (by rfl)]
  simp only [LdtW.widths, LdtW.vals, LdtW.ofVals, List.zip_cons_cons, List.zip_nil_right, List.map_cons, List.map_nil,
    List.getD_cons_succ, List.getD_cons_zero, bit_mod_two, bit_beq_one, BitVec.toNat_mod_cancel, BitVec.ofNat_toNat, BitVec.setWidth_eq]

theorem GmW.roundtrip (w : GmW) : GmW.ofVals (unpack GmW.widths (bodyOf GmW.widths w.vals)) = w := by
  rw [unpack_bodyOf _ _ (by rfl)]
  simp only [GmW.widths, GmW.vals, GmW.ofVals, List.zip_cons_cons, List.zip_nil_right, List.map_cons, List.map_nil,
    List.getD_cons_succ, List.getD_cons_zero, bit_mod_two, bit_beq_one, BitVec.toNat_mod_cancel, BitVec.ofNat_toNat, BitVec.setWidth_eq]

theorem SpW.roundtrip (w : SpW) : SpW.ofVals (unpack SpW.widths (bodyOf SpW.widths w.vals)) = w := by
  rw [unpack_bodyOf _ _ (by rfl)]
  simp only [SpW.widths, SpW.vals, SpW.ofVals, List.zip_cons_cons, List.zip_nil_right, List.map_cons, List.map_nil,
    List.getD_cons_succ, List.getD_cons_zero, bit_mod_two, bit_beq_one, BitVec.toNat_mod_cancel, BitVec.ofNat_toNat, BitVec.setWidth_eq]

theorem GfW.roundtrip (w : GfW) : GfW.ofVals (unpack GfW.widths (bodyOf GfW.widths w.vals)) = w := by
  rw [unpack_bodyOf _ _ (by rfl)]
  simp only [GfW.widths, GfW.vals, GfW.ofVals, List.zip_cons_cons, List.zip_nil_right, List.map_cons, List.map_nil,
    List.getD_cons_succ, List.getD_cons_zero, bit_mod_two, bit_beq_one, BitVec.toNat_mod_cancel, BitVec.ofNat_toNat, BitVec.setWidth_eq]

theorem CpW.roundtrip (w : CpW) : CpW.ofVals (unpack CpW.widths (bodyOf CpW.widths w.vals)) = w := by
  rw [unpack_bodyOf _ _ (by rfl)]
  simp only [CpW.widths, CpW.vals, CpW.ofVals, List.zip_cons_cons, List.zip_nil_right, List.map_cons, List.map_nil,
    List.getD_cons_succ, List.getD_cons_zero, bit_mod_two, bit_beq_one, BitVec.toNat_mod_cancel, BitVec.ofNat_toNat, BitVec.setWidth_eq]

theorem TagW.roundtrip (w : TagW) : TagW.ofVals (unpack TagW.widths (bodyOf TagW.widths w.vals)) = w := by
  rw [unpack_bodyOf _ _ (by rfl)]
  simp only [TagW.widths, TagW.vals, TagW.ofVals, List.zip_cons_cons, List.zip_nil_right, List.map_cons, List.map_nil,
    List.getD_cons_succ, List.getD_cons_zero, bit_mod_two, bit_beq_one, BitVec.toNat_mod_cancel, BitVec.ofNat_toNat, BitVec.setWidth_eq]

theorem OwnW.roundtrip (w : OwnW) : OwnW.ofVals (unpack OwnW.widths (bodyOf OwnW.widths w.vals)) = w := by
  rw [unpack_bodyOf _ _ (by rfl)]
  simp only [OwnW.widths, OwnW.vals, OwnW.ofVals, List.zip_cons_cons, List.zip_nil_right, List.map_cons, List.map_nil,
    List.getD_cons_succ, List.getD_cons_zero, bit_mod_two, bit_beq_one, BitVec.toNat_mod_cancel, BitVec.ofNat_toNat, BitVec.setWidth_eq]

theorem ClaimW.roundtrip (w : ClaimW) : ClaimW.ofVals (unpack ClaimW.widths (bodyOf ClaimW.widths w.vals)) = w := by
  rw [unpack_bodyOf _ _ (by rfl)]
  simp only [ClaimW.widths, ClaimW.vals, ClaimW.ofVals, List.zip_cons_cons, List.zip_nil_right, List.map_cons, List.map_nil,
    List.getD_cons_succ, List.getD_cons_zero, bit_mod_two, bit_beq_one, BitVec.toNat_mod_cancel, BitVec.ofNat_toNat, BitVec.setWidth_eq]

theorem OpStW.roundtrip (w : OpStW) : OpStW.ofVals (unpack OpStW.widths (bodyOf OpStW.widths w.vals)) = w := by
  rw [unpack_bodyOf _ _ (by rfl)]
  simp only [OpStW.widths, OpStW.vals, OpStW.ofVals, List.zip_cons_cons, List.zip_nil_right, List.map_cons, List.map_nil,
    List.getD_cons_succ, List.getD_cons_zero, bit_mod_two, bit_beq_one, BitVec.toNat_mod_cancel, BitVec.ofNat_toNat, BitVec.setWidth_eq]

theorem FeedW.roundtrip (w : FeedW) : FeedW.ofVals (unpack FeedW.widths (bodyOf FeedW.widths w.vals)) = w := by
  rw [unpack_bodyOf _ _ (by rfl)]
  simp only [FeedW.widths, FeedW.vals, FeedW.ofVals, List.zip_cons_cons, List.zip_nil_right, List.map_cons, List.map_nil,
    List.getD_cons_succ, List.getD_cons_zero, bit_mod_two, bit_beq_one, BitVec.toNat_mod_cancel, BitVec.ofNat_toNat, BitVec.setWidth_eq]

theorem AcLdW.roundtrip (w : AcLdW) : AcLdW.ofVals (unpack AcLdW.widths (bodyOf AcLdW.widths w.vals)) = w := by
  rw [unpack_bodyOf _ _ (by rfl)]
  simp only [AcLdW.widths, AcLdW.vals, AcLdW.ofVals, List.zip_cons_cons, List.zip_nil_right, List.map_cons, List.map_nil,
    List.getD_cons_succ, List.getD_cons_zero, bit_mod_two, bit_beq_one, BitVec.toNat_mod_cancel, BitVec.ofNat_toNat, BitVec.setWidth_eq]

theorem AcClrW.roundtrip (w : AcClrW) : AcClrW.ofVals (unpack AcClrW.widths (bodyOf AcClrW.widths w.vals)) = w := by
  rw [unpack_bodyOf _ _ (by rfl)]
  simp only [AcClrW.widths, AcClrW.vals, AcClrW.ofVals, List.zip_cons_cons, List.zip_nil_right, List.map_cons, List.map_nil,
    List.getD_cons_succ, List.getD_cons_zero, bit_mod_two, bit_beq_one, BitVec.toNat_mod_cancel, BitVec.ofNat_toNat, BitVec.setWidth_eq]

theorem CfgW.roundtrip (w : CfgW) : CfgW.ofVals (unpack CfgW.widths (bodyOf CfgW.widths w.vals)) = w := by
  rw [unpack_bodyOf _ _ (by rfl)]
  simp only [CfgW.widths, CfgW.vals, CfgW.ofVals, List.zip_cons_cons, List.zip_nil_right, List.map_cons, List.map_nil,
    List.getD_cons_succ, List.getD_cons_zero, bit_mod_two, bit_beq_one, BitVec.toNat_mod_cancel, BitVec.ofNat_toNat, BitVec.setWidth_eq]

theorem MxW.roundtrip (w : MxW) : MxW.ofVals (unpack MxW.widths (bodyOf MxW.widths w.vals)) = w := by
  rw [unpack_bodyOf _ _ (by rfl)]
  simp only [MxW.widths, MxW.vals, MxW.ofVals, List.zip_cons_cons, List.zip_nil_right, List.map_cons, List.map_nil,
    List.getD_cons_succ, List.getD_cons_zero, bit_mod_two, bit_beq_one, BitVec.toNat_mod_cancel, BitVec.ofNat_toNat, BitVec.setWidth_eq]

theorem NzsW.roundtrip (w : NzsW) : NzsW.ofVals (unpack NzsW.widths (bodyOf NzsW.widths w.vals)) = w := by
  rw [unpack_bodyOf _ _ (by rfl)]
  simp only [NzsW.widths, NzsW.vals, NzsW.ofVals, List.zip_cons_cons, List.zip_nil_right, List.map_cons, List.map_nil,
    List.getD_cons_succ, List.getD_cons_zero, bit_mod_two, bit_beq_one, BitVec.toNat_mod_cancel, BitVec.ofNat_toNat, BitVec.setWidth_eq]

theorem NltW.roundtrip (w : NltW) : NltW.ofVals (unpack NltW.widths (bodyOf NltW.widths w.vals)) = w := by
  rw [unpack_bodyOf _ _ (by rfl)]
  simp only [NltW.widths, NltW.vals, NltW.ofVals, List.zip_cons_cons, List.zip_nil_right, List.map_cons, List.map_nil,
    List.getD_cons_succ, List.getD_cons_zero, bit_mod_two, bit_beq_one, BitVec.toNat_mod_cancel, BitVec.ofNat_toNat, BitVec.setWidth_eq]

theorem TwRunW.roundtrip (w : TwRunW) : TwRunW.ofVals (unpack TwRunW.widths (bodyOf TwRunW.widths w.vals)) = w := by
  rw [unpack_bodyOf _ _ (by rfl)]
  simp only [TwRunW.widths, TwRunW.vals, TwRunW.ofVals, List.zip_cons_cons, List.zip_nil_right, List.map_cons, List.map_nil,
    List.getD_cons_succ, List.getD_cons_zero, bit_mod_two, bit_beq_one, BitVec.toNat_mod_cancel, BitVec.ofNat_toNat, BitVec.setWidth_eq]

theorem TwRetW.roundtrip (w : TwRetW) : TwRetW.ofVals (unpack TwRetW.widths (bodyOf TwRetW.widths w.vals)) = w := by
  rw [unpack_bodyOf _ _ (by rfl)]
  simp only [TwRetW.widths, TwRetW.vals, TwRetW.ofVals, List.zip_cons_cons, List.zip_nil_right, List.map_cons, List.map_nil,
    List.getD_cons_succ, List.getD_cons_zero, bit_mod_two, bit_beq_one, BitVec.toNat_mod_cancel, BitVec.ofNat_toNat, BitVec.setWidth_eq]

theorem TwCutW.roundtrip (w : TwCutW) : TwCutW.ofVals (unpack TwCutW.widths (bodyOf TwCutW.widths w.vals)) = w := by
  rw [unpack_bodyOf _ _ (by rfl)]
  simp only [TwCutW.widths, TwCutW.vals, TwCutW.ofVals, List.zip_cons_cons, List.zip_nil_right, List.map_cons, List.map_nil,
    List.getD_cons_succ, List.getD_cons_zero, bit_mod_two, bit_beq_one, BitVec.toNat_mod_cancel, BitVec.ofNat_toNat, BitVec.setWidth_eq]

theorem TwResW.roundtrip (w : TwResW) : TwResW.ofVals (unpack TwResW.widths (bodyOf TwResW.widths w.vals)) = w := by
  rw [unpack_bodyOf _ _ (by rfl)]
  simp only [TwResW.widths, TwResW.vals, TwResW.ofVals, List.zip_cons_cons, List.zip_nil_right, List.map_cons, List.map_nil,
    List.getD_cons_succ, List.getD_cons_zero, bit_mod_two, bit_beq_one, BitVec.toNat_mod_cancel, BitVec.ofNat_toNat, BitVec.setWidth_eq]

theorem RvW.roundtrip (w : RvW) : RvW.ofVals (unpack RvW.widths (bodyOf RvW.widths w.vals)) = w := by
  rw [unpack_bodyOf _ _ (by rfl)]
  simp only [RvW.widths, RvW.vals, RvW.ofVals, List.zip_cons_cons, List.zip_nil_right, List.map_cons, List.map_nil,
    List.getD_cons_succ, List.getD_cons_zero, bit_mod_two, bit_beq_one, BitVec.toNat_mod_cancel, BitVec.ofNat_toNat, BitVec.setWidth_eq]

theorem PostW.roundtrip (w : PostW) : PostW.ofVals (unpack PostW.widths (bodyOf PostW.widths w.vals)) = w := by
  rw [unpack_bodyOf _ _ (by rfl)]
  simp only [PostW.widths, PostW.vals, PostW.ofVals, List.zip_cons_cons, List.zip_nil_right, List.map_cons, List.map_nil,
    List.getD_cons_succ, List.getD_cons_zero, bit_mod_two, bit_beq_one, BitVec.toNat_mod_cancel, BitVec.ofNat_toNat, BitVec.setWidth_eq]

theorem PerfW.roundtrip (w : PerfW) : PerfW.ofVals (unpack PerfW.widths (bodyOf PerfW.widths w.vals)) = w := by
  rw [unpack_bodyOf _ _ (by rfl)]
  simp only [PerfW.widths, PerfW.vals, PerfW.ofVals, List.zip_cons_cons, List.zip_nil_right, List.map_cons, List.map_nil,
    List.getD_cons_succ, List.getD_cons_zero, bit_mod_two, bit_beq_one, BitVec.toNat_mod_cancel, BitVec.ofNat_toNat, BitVec.setWidth_eq]

theorem DropW.roundtrip (w : DropW) : DropW.ofVals (unpack DropW.widths (bodyOf DropW.widths w.vals)) = w := by
  rw [unpack_bodyOf _ _ (by rfl)]
  simp only [DropW.widths, DropW.vals, DropW.ofVals, List.zip_cons_cons, List.zip_nil_right, List.map_cons, List.map_nil,
    List.getD_cons_succ, List.getD_cons_zero, bit_mod_two, bit_beq_one, BitVec.toNat_mod_cancel, BitVec.ofNat_toNat, BitVec.setWidth_eq]

theorem RPostW.roundtrip (w : RPostW) : RPostW.ofVals (unpack RPostW.widths (bodyOf RPostW.widths w.vals)) = w := by
  rw [unpack_bodyOf _ _ (by rfl)]
  simp only [RPostW.widths, RPostW.vals, RPostW.ofVals, List.zip_cons_cons, List.zip_nil_right, List.map_cons, List.map_nil,
    List.getD_cons_succ, List.getD_cons_zero, bit_mod_two, bit_beq_one, BitVec.toNat_mod_cancel, BitVec.ofNat_toNat, BitVec.setWidth_eq]

theorem SpawnW.roundtrip (w : SpawnW) : SpawnW.ofVals (unpack SpawnW.widths (bodyOf SpawnW.widths w.vals)) = w := by
  rw [unpack_bodyOf _ _ (by rfl)]
  simp only [SpawnW.widths, SpawnW.vals, SpawnW.ofVals, List.zip_cons_cons, List.zip_nil_right, List.map_cons, List.map_nil,
    List.getD_cons_succ, List.getD_cons_zero, bit_mod_two, bit_beq_one, BitVec.toNat_mod_cancel, BitVec.ofNat_toNat, BitVec.setWidth_eq]

theorem RgnW.roundtrip (w : RgnW) : RgnW.ofVals (unpack RgnW.widths (bodyOf RgnW.widths w.vals)) = w := by
  rw [unpack_bodyOf _ _ (by rfl)]
  simp only [RgnW.widths, RgnW.vals, RgnW.ofVals, List.zip_cons_cons, List.zip_nil_right, List.map_cons, List.map_nil,
    List.getD_cons_succ, List.getD_cons_zero, bit_mod_two, bit_beq_one, BitVec.toNat_mod_cancel, BitVec.ofNat_toNat, BitVec.setWidth_eq]

theorem IndW.roundtrip (w : IndW) : IndW.ofVals (unpack IndW.widths (bodyOf IndW.widths w.vals)) = w := by
  rw [unpack_bodyOf _ _ (by rfl)]
  simp only [IndW.widths, IndW.vals, IndW.ofVals, List.zip_cons_cons, List.zip_nil_right, List.map_cons, List.map_nil,
    List.getD_cons_succ, List.getD_cons_zero, bit_mod_two, bit_beq_one, BitVec.toNat_mod_cancel, BitVec.ofNat_toNat, BitVec.setWidth_eq]

theorem IdxW.roundtrip (w : IdxW) : IdxW.ofVals (unpack idxWidths (bodyOf idxWidths w.vals)) = w := by
  rw [unpack_bodyOf _ _ (by rfl)]
  simp only [idxWidths, IdxW.vals, IdxW.ofVals, List.zip_cons_cons, List.zip_nil_right, List.map_cons, List.map_nil,
    List.getD_cons_succ, List.getD_cons_zero, bit_mod_two, bit_beq_one, BitVec.toNat_mod_cancel, BitVec.ofNat_toNat, BitVec.setWidth_eq]

theorem BrxW.roundtrip (w : BrxW) : BrxW.ofVals (unpack brxWidths (bodyOf brxWidths w.vals)) = w := by
  rw [unpack_bodyOf _ _ (by rfl)]
  simp only [brxWidths, BrxW.vals, BrxW.ofVals, List.zip_cons_cons, List.zip_nil_right, List.map_cons, List.map_nil,
    List.getD_cons_succ, List.getD_cons_zero, bit_mod_two, bit_beq_one, BitVec.toNat_mod_cancel, BitVec.ofNat_toNat, BitVec.setWidth_eq]

theorem JarmW.roundtrip (w : JarmW) : JarmW.ofVals (unpack brxWidths (bodyOf brxWidths w.vals)) = w := by
  rw [unpack_bodyOf _ _ (by rfl)]
  simp only [brxWidths, JarmW.vals, JarmW.ofVals, List.zip_cons_cons, List.zip_nil_right, List.map_cons, List.map_nil,
    List.getD_cons_succ, List.getD_cons_zero, bit_mod_two, bit_beq_one, BitVec.toNat_mod_cancel, BitVec.ofNat_toNat, BitVec.setWidth_eq]

theorem PSlot.roundtrip (w : PSlot) : PSlot.ofVals (unpack slotWidths (bodyOf slotWidths w.vals)) = w := by
  rw [unpack_bodyOf _ _ (by rfl)]
  simp only [slotWidths, PSlot.vals, PSlot.ofVals, List.zip_cons_cons, List.zip_nil_right, List.map_cons, List.map_nil,
    List.getD_cons_succ, List.getD_cons_zero, bit_mod_two, bit_beq_one, BitVec.toNat_mod_cancel, BitVec.ofNat_toNat, BitVec.setWidth_eq]

/-- The candidate of a packed full word is the candidate of its MAJ, SUB and body. -/
theorem candidate_pack (maj sub b : Nat) (hm : maj < 128) (hs : sub < 64) (hb : b < 2 ^ 50) :
    candidate (pack [(50, b), (6, sub), (7, maj)]) = candidateF maj sub b := by
  have e : pack [(50, b), (6, sub), (7, maj)] = b + 2 ^ 50 * (sub + 64 * maj) := by
    simp only [pack]; omega
  rw [e]; unfold candidate
  rw [if_neg (by omega)]
  congr 1 <;> omega

theorem pack_lt (maj sub b : Nat) : pack [(50, b), (6, sub), (7, maj)] < 2 ^ 64 := by
  simp only [pack]; omega

/-- A legal full word decodes to its instruction if the opcode map leads back to it. -/
theorem decodeWord_full {i : Instr} (maj sub b : Nat) (hl : legal i = true) (he : encodeNat i = pack [(50, b), (6, sub), (7, maj)])
    (hm : maj < 128) (hs : sub < 64) (hb : b < 2 ^ 50) (hc : candidateF maj sub b = some i) :
    decodeWord (encode i) = .ok i := by
  have ht : (encode i).toNat = encodeNat i := by
    rw [encode, he, BitVec.toNat_ofNat, Nat.mod_eq_of_lt (pack_lt ..)]
  unfold decodeWord
  rw [ht]
  conv => lhs; rw [he, candidate_pack _ _ _ hm hs hb, hc]
  simp [hl, he]

end Sys2Proof
end

