-- ==== Sys2Proof/Laws/Table.lean ====
section
/-!
SUPPORT. The laws of sparse tables and of list positions: what a read gives after a change, and that every change keeps the
keys strictly rising.
-/
namespace Sys2Proof.Machine

variable {α : Type}

@[simp] theorem tget_nil (k : Nat) : tget ([] : Table α) k = none := rfl

/-- A read after a put. -/
@[simp] theorem tget_tput (t : Table α) (k j : Nat) (x : α) : tget (tput t k x) j = if k = j then some x else tget t j := by
  induction t with
  | nil => simp [tput, tget]
  | cons e r ih =>
    obtain ⟨a, v⟩ := e
    simp only [tput]
    split
    · simp [tget]
    · split
      · subst_vars
        simp only [tget]
        split <;> simp_all
      · simp only [tget, ih]
        split <;> rename_i h₁ <;> simp_all

/-- A read after a delete. -/
@[simp] theorem tget_tdel (t : Table α) (k j : Nat) : tget (tdel t k) j = if k = j then none else tget t j := by
  induction t with
  | nil => simp [tdel, tget]
  | cons e r ih =>
    obtain ⟨a, v⟩ := e
    simp only [tdel]
    split
    · subst_vars
      simp only [ih, tget]
      split <;> simp_all
    · simp only [tget, ih]
      by_cases h : a = j <;> by_cases h' : k = j <;> simp_all

/-- A read after a change of one entry. -/
@[simp] theorem tget_tmod (t : Table α) (k j : Nat) (f : α → α) :
    tget (tmod t k f) j = if k = j then (tget t j).map f else tget t j := by
  induction t with
  | nil => simp [tmod, tget]
  | cons e r ih =>
    obtain ⟨a, v⟩ := e
    simp only [tmod]
    split
    · subst_vars
      simp only [tget]
      split <;> simp_all
    · simp only [tget, ih]
      by_cases h : a = j <;> by_cases h' : k = j <;> simp_all

/-- A read after a set, of a table whose unlisted keys hold `d`. -/
@[simp] theorem tgetD_tset [DecidableEq α] (d : α) (t : Table α) (k j : Nat) (x : α) :
    tgetD (tset d t k x) j d = if k = j then x else tgetD t j d := by
  unfold tset tgetD
  split <;> simp only [tget_tdel, tget_tput] <;> split <;> simp_all

@[simp] theorem tgetD_nil (k : Nat) (d : α) : tgetD ([] : Table α) k d = d := rfl

/-- Rising keys from a bound rise from any lower bound. -/
theorem tsorted_mono {t : Table α} {a b : Nat} (h : a ≤ b) (ht : tsorted b t = true) : tsorted a t = true := by
  cases t with
  | nil => rfl
  | cons e r => obtain ⟨k, v⟩ := e; simp [tsorted] at *; exact ⟨Nat.le_trans h ht.1, ht.2⟩

theorem tsorted_tput {t : Table α} {b k : Nat} (x : α) (hb : b ≤ k) (ht : tsorted b t = true) :
    tsorted b (tput t k x) = true := by
  induction t generalizing b with
  | nil => simpa [tput, tsorted] using hb
  | cons e r ih =>
    obtain ⟨a, v⟩ := e
    simp only [tsorted, Bool.and_eq_true, decide_eq_true_eq] at ht
    simp only [tput]
    split
    · simp only [tsorted, Bool.and_eq_true, decide_eq_true_eq]
      exact ⟨hb, ‹k < a›, ht.2⟩
    · split
      · subst_vars; simp only [tsorted, Bool.and_eq_true, decide_eq_true_eq]; exact ht
      · simp only [tsorted, Bool.and_eq_true, decide_eq_true_eq]
        exact ⟨ht.1, ih (by omega) ht.2⟩

theorem tsorted_tdel {t : Table α} {b : Nat} (k : Nat) (ht : tsorted b t = true) : tsorted b (tdel t k) = true := by
  induction t generalizing b with
  | nil => rfl
  | cons e r ih =>
    obtain ⟨a, v⟩ := e
    simp only [tsorted, Bool.and_eq_true, decide_eq_true_eq] at ht
    simp only [tdel]
    split
    · exact ih (tsorted_mono (by omega) ht.2)
    · simp only [tsorted, Bool.and_eq_true, decide_eq_true_eq]
      exact ⟨ht.1, ih ht.2⟩

theorem tsorted_tmod {t : Table α} {b : Nat} (k : Nat) (f : α → α) (ht : tsorted b t = true) :
    tsorted b (tmod t k f) = true := by
  induction t generalizing b with
  | nil => rfl
  | cons e r ih =>
    obtain ⟨a, v⟩ := e
    simp only [tsorted, Bool.and_eq_true, decide_eq_true_eq] at ht
    simp only [tmod]
    split <;> simp only [tsorted, Bool.and_eq_true, decide_eq_true_eq]
    · exact ht
    · exact ⟨ht.1, ih ht.2⟩

theorem tsorted_tset [DecidableEq α] {d : α} {t : Table α} {b k : Nat} (x : α) (hb : b ≤ k) (ht : tsorted b t = true) :
    tsorted b (tset d t k x) = true := by
  unfold tset
  split
  · exact tsorted_tdel k ht
  · exact tsorted_tput x hb ht

theorem tsorted_filter {t : Table α} {b : Nat} (p : Nat × α → Bool) (ht : tsorted b t = true) :
    tsorted b (t.filter p) = true := by
  induction t generalizing b with
  | nil => rfl
  | cons e r ih =>
    obtain ⟨a, v⟩ := e
    simp only [tsorted, Bool.and_eq_true, decide_eq_true_eq] at ht
    simp only [List.filter]
    split
    · simp only [tsorted, Bool.and_eq_true, decide_eq_true_eq]
      exact ⟨ht.1, ih ht.2⟩
    · exact ih (tsorted_mono (by omega) ht.2)

theorem tsorted_map {t : Table α} {b : Nat} (f : Nat × α → α) (ht : tsorted b t = true) :
    tsorted b (t.map fun e => (e.1, f e)) = true := by
  induction t generalizing b with
  | nil => rfl
  | cons e r ih =>
    obtain ⟨a, v⟩ := e
    simp only [tsorted, Bool.and_eq_true, decide_eq_true_eq, List.map] at *
    exact ⟨ht.1, ih ht.2⟩

/-- A read after every value has changed. -/
@[simp] theorem tget_tmapv (t : Table α) (f : α → α) (k : Nat) : tget (tmapv t f) k = (tget t k).map f := by
  induction t with
  | nil => rfl
  | cons e r ih =>
    obtain ⟨a, v⟩ := e
    show tget ((a, f v) :: tmapv r f) k = _
    simp only [tget]
    split
    · rfl
    · exact ih

/-- A put of another key leaves a put alone: equal contents are equal data. -/
theorem tput_same (t : Table α) (k : Nat) (x y : α) : tput (tput t k x) k y = tput t k y := by
  induction t with
  | nil => simp [tput]
  | cons e r ih =>
    obtain ⟨a, v⟩ := e
    simp only [tput]
    split
    · simp [tput]
    · split
      · subst_vars; simp [tput]
      · simp [tput, *]

/-- A run of `n` things from `a` on is its first thing and a run of the others behind it. -/
theorem run_succ {f g : Nat → α} (h : ∀ j, f (j + 1) = g j) (a b n : Nat) (y : α) :
    (if a + 1 ≤ b ∧ b < a + 1 + n then g (b - (a + 1)) else if a = b then f 0 else y) =
      if a ≤ b ∧ b < a + (n + 1) then f (b - a) else y := by
  rcases Nat.lt_trichotomy b a with hb | rfl | hb
  · grind
  · grind
  · rw [show b - a = b - (a + 1) + 1 by omega, h]; grind

@[simp] theorem getElem?_lset (l : List α) (n m : Nat) (x : α) :
    (lset l n x)[m]? = if n = m ∧ n < l.length then some x else l[m]? := by
  rw [lset, List.getElem?_set]
  split <;> split <;> simp_all

@[simp] theorem length_lset (l : List α) (n : Nat) (x : α) : (lset l n x).length = l.length := List.length_set

@[simp] theorem getElem?_lmod (l : List α) (n m : Nat) (f : α → α) :
    (lmod l n f)[m]? = if n = m then l[m]?.map f else l[m]? := by
  rw [lmod, List.getElem?_modify]
  split <;> simp

@[simp] theorem length_lmod (l : List α) (n : Nat) (f : α → α) : (lmod l n f).length = l.length := List.length_modify ..

/-- Two changes of one element are one change. -/
@[simp] theorem lmod_lmod (l : List α) (n : Nat) (f g : α → α) : lmod (lmod l n f) n g = lmod l n fun x => g (f x) := by
  refine List.ext_getElem? fun m => ?_
  rw [getElem?_lmod, getElem?_lmod, getElem?_lmod]
  split <;> simp [Function.comp_def]

/-- Two changes of one entry are one change. -/
@[simp] theorem tmod_tmod (t : Table α) (k : Nat) (f g : α → α) : tmod (tmod t k f) k g = tmod t k fun x => g (f x) := by
  induction t with
  | nil => rfl
  | cons e r ih =>
    obtain ⟨a, v⟩ := e
    simp only [tmod]
    split
    · simp [tmod, *]
    · simp [tmod, *]

end Sys2Proof.Machine
end

