-- ==== Sys2Proof/Laws/State.lean ====
section
/-!
SUPPORT. The laws of the state's accessors: one lemma per field for each update, and what a read of a team, warp, context,
fragment or register gives after a change of one.
-/
namespace Sys2Proof.Machine

@[simp] theorem State.modTeam_mem (s : State) (t : Nat) (f : Team → Team) : (s.modTeam t f).mem = s.mem := rfl
@[simp] theorem State.modTeam_keys (s : State) (t : Nat) (f : Team → Team) : (s.modTeam t f).keys = s.keys := rfl
@[simp] theorem State.modTeam_checks (s : State) (t : Nat) (f : Team → Team) : (s.modTeam t f).checks = s.checks := rfl
@[simp] theorem State.modTeam_pend (s : State) (t : Nat) (f : Team → Team) : (s.modTeam t f).pend = s.pend := rfl
@[simp] theorem State.modTeam_flight (s : State) (t : Nat) (f : Team → Team) : (s.modTeam t f).flight = s.flight := rfl
@[simp] theorem State.modTeam_tlbs (s : State) (t : Nat) (f : Team → Team) : (s.modTeam t f).tlbs = s.tlbs := rfl
@[simp] theorem State.modTeam_inval (s : State) (t : Nat) (f : Team → Team) : (s.modTeam t f).inval = s.inval := rfl
@[simp] theorem State.modTeam_invalQ (s : State) (t : Nat) (f : Team → Team) : (s.modTeam t f).invalQ = s.invalQ := rfl
@[simp] theorem State.modTeam_invDone (s : State) (t : Nat) (f : Team → Team) : (s.modTeam t f).invDone = s.invDone := rfl
@[simp] theorem State.modTeam_csrs (s : State) (t : Nat) (f : Team → Team) : (s.modTeam t f).csrs = s.csrs := rfl
@[simp] theorem State.modTeam_ringHeld (s : State) (t : Nat) (f : Team → Team) : (s.modTeam t f).ringHeld = s.ringHeld := rfl
@[simp] theorem State.modTeam_ringWait (s : State) (t : Nat) (f : Team → Team) : (s.modTeam t f).ringWait = s.ringWait := rfl
@[simp] theorem State.modTeam_ringOut (s : State) (t : Nat) (f : Team → Team) : (s.modTeam t f).ringOut = s.ringOut := rfl
@[simp] theorem State.modTeam_grids (s : State) (t : Nat) (f : Team → Team) : (s.modTeam t f).grids = s.grids := rfl
@[simp] theorem State.modTeam_rrobin (s : State) (t : Nat) (f : Team → Team) : (s.modTeam t f).rrobin = s.rrobin := rfl
@[simp] theorem State.modTeam_sets (s : State) (t : Nat) (f : Team → Team) : (s.modTeam t f).sets = s.sets := rfl
@[simp] theorem State.modTeam_cores (s : State) (t : Nat) (f : Team → Team) : (s.modTeam t f).cores = s.cores := rfl
@[simp] theorem State.modTeam_clusters (s : State) (t : Nat) (f : Team → Team) : (s.modTeam t f).clusters = s.clusters := rfl
@[simp] theorem State.modTeam_dies (s : State) (t : Nat) (f : Team → Team) : (s.modTeam t f).dies = s.dies := rfl
@[simp] theorem State.modTeam_mgmt (s : State) (t : Nat) (f : Team → Team) : (s.modTeam t f).mgmt = s.mgmt := rfl
@[simp] theorem State.modTeam_fw (s : State) (t : Nat) (f : Team → Team) : (s.modTeam t f).fw = s.fw := rfl
@[simp] theorem State.modTeam_sent (s : State) (t : Nat) (f : Team → Team) : (s.modTeam t f).sent = s.sent := rfl
@[simp] theorem State.modTeam_puts (s : State) (t : Nat) (f : Team → Team) : (s.modTeam t f).puts = s.puts := rfl
@[simp] theorem State.modTeam_cur (s : State) (t : Nat) (f : Team → Team) : (s.modTeam t f).cur = s.cur := rfl
@[simp] theorem State.modTeam_agenda (s : State) (t : Nat) (f : Team → Team) : (s.modTeam t f).agenda = s.agenda := rfl
@[simp] theorem State.modTeam_fresh (s : State) (t : Nat) (f : Team → Team) : (s.modTeam t f).fresh = s.fresh := rfl
@[simp] theorem State.modTeam_nextId (s : State) (t : Nat) (f : Team → Team) : (s.modTeam t f).nextId = s.nextId := rfl

@[simp] theorem State.modSet_mem (s : State) (n : Nat) (f : TSet → TSet) : (s.modSet n f).mem = s.mem := rfl
@[simp] theorem State.modSet_keys (s : State) (n : Nat) (f : TSet → TSet) : (s.modSet n f).keys = s.keys := rfl
@[simp] theorem State.modSet_checks (s : State) (n : Nat) (f : TSet → TSet) : (s.modSet n f).checks = s.checks := rfl
@[simp] theorem State.modSet_pend (s : State) (n : Nat) (f : TSet → TSet) : (s.modSet n f).pend = s.pend := rfl
@[simp] theorem State.modSet_flight (s : State) (n : Nat) (f : TSet → TSet) : (s.modSet n f).flight = s.flight := rfl
@[simp] theorem State.modSet_tlbs (s : State) (n : Nat) (f : TSet → TSet) : (s.modSet n f).tlbs = s.tlbs := rfl
@[simp] theorem State.modSet_inval (s : State) (n : Nat) (f : TSet → TSet) : (s.modSet n f).inval = s.inval := rfl
@[simp] theorem State.modSet_invalQ (s : State) (n : Nat) (f : TSet → TSet) : (s.modSet n f).invalQ = s.invalQ := rfl
@[simp] theorem State.modSet_invDone (s : State) (n : Nat) (f : TSet → TSet) : (s.modSet n f).invDone = s.invDone := rfl
@[simp] theorem State.modSet_csrs (s : State) (n : Nat) (f : TSet → TSet) : (s.modSet n f).csrs = s.csrs := rfl
@[simp] theorem State.modSet_ringHeld (s : State) (n : Nat) (f : TSet → TSet) : (s.modSet n f).ringHeld = s.ringHeld := rfl
@[simp] theorem State.modSet_ringWait (s : State) (n : Nat) (f : TSet → TSet) : (s.modSet n f).ringWait = s.ringWait := rfl
@[simp] theorem State.modSet_ringOut (s : State) (n : Nat) (f : TSet → TSet) : (s.modSet n f).ringOut = s.ringOut := rfl
@[simp] theorem State.modSet_grids (s : State) (n : Nat) (f : TSet → TSet) : (s.modSet n f).grids = s.grids := rfl
@[simp] theorem State.modSet_rrobin (s : State) (n : Nat) (f : TSet → TSet) : (s.modSet n f).rrobin = s.rrobin := rfl
@[simp] theorem State.modSet_teams (s : State) (n : Nat) (f : TSet → TSet) : (s.modSet n f).teams = s.teams := rfl
@[simp] theorem State.modSet_cores (s : State) (n : Nat) (f : TSet → TSet) : (s.modSet n f).cores = s.cores := rfl
@[simp] theorem State.modSet_clusters (s : State) (n : Nat) (f : TSet → TSet) : (s.modSet n f).clusters = s.clusters := rfl
@[simp] theorem State.modSet_dies (s : State) (n : Nat) (f : TSet → TSet) : (s.modSet n f).dies = s.dies := rfl
@[simp] theorem State.modSet_mgmt (s : State) (n : Nat) (f : TSet → TSet) : (s.modSet n f).mgmt = s.mgmt := rfl
@[simp] theorem State.modSet_fw (s : State) (n : Nat) (f : TSet → TSet) : (s.modSet n f).fw = s.fw := rfl
@[simp] theorem State.modSet_sent (s : State) (n : Nat) (f : TSet → TSet) : (s.modSet n f).sent = s.sent := rfl
@[simp] theorem State.modSet_puts (s : State) (n : Nat) (f : TSet → TSet) : (s.modSet n f).puts = s.puts := rfl
@[simp] theorem State.modSet_cur (s : State) (n : Nat) (f : TSet → TSet) : (s.modSet n f).cur = s.cur := rfl
@[simp] theorem State.modSet_agenda (s : State) (n : Nat) (f : TSet → TSet) : (s.modSet n f).agenda = s.agenda := rfl
@[simp] theorem State.modSet_fresh (s : State) (n : Nat) (f : TSet → TSet) : (s.modSet n f).fresh = s.fresh := rfl
@[simp] theorem State.modSet_nextId (s : State) (n : Nat) (f : TSet → TSet) : (s.modSet n f).nextId = s.nextId := rfl

@[simp] theorem State.modCore_mem (s : State) (c : Nat) (f : Core → Core) : (s.modCore c f).mem = s.mem := rfl
@[simp] theorem State.modCore_keys (s : State) (c : Nat) (f : Core → Core) : (s.modCore c f).keys = s.keys := rfl
@[simp] theorem State.modCore_checks (s : State) (c : Nat) (f : Core → Core) : (s.modCore c f).checks = s.checks := rfl
@[simp] theorem State.modCore_pend (s : State) (c : Nat) (f : Core → Core) : (s.modCore c f).pend = s.pend := rfl
@[simp] theorem State.modCore_flight (s : State) (c : Nat) (f : Core → Core) : (s.modCore c f).flight = s.flight := rfl
@[simp] theorem State.modCore_tlbs (s : State) (c : Nat) (f : Core → Core) : (s.modCore c f).tlbs = s.tlbs := rfl
@[simp] theorem State.modCore_inval (s : State) (c : Nat) (f : Core → Core) : (s.modCore c f).inval = s.inval := rfl
@[simp] theorem State.modCore_invalQ (s : State) (c : Nat) (f : Core → Core) : (s.modCore c f).invalQ = s.invalQ := rfl
@[simp] theorem State.modCore_invDone (s : State) (c : Nat) (f : Core → Core) : (s.modCore c f).invDone = s.invDone := rfl
@[simp] theorem State.modCore_csrs (s : State) (c : Nat) (f : Core → Core) : (s.modCore c f).csrs = s.csrs := rfl
@[simp] theorem State.modCore_ringHeld (s : State) (c : Nat) (f : Core → Core) : (s.modCore c f).ringHeld = s.ringHeld := rfl
@[simp] theorem State.modCore_ringWait (s : State) (c : Nat) (f : Core → Core) : (s.modCore c f).ringWait = s.ringWait := rfl
@[simp] theorem State.modCore_ringOut (s : State) (c : Nat) (f : Core → Core) : (s.modCore c f).ringOut = s.ringOut := rfl
@[simp] theorem State.modCore_grids (s : State) (c : Nat) (f : Core → Core) : (s.modCore c f).grids = s.grids := rfl
@[simp] theorem State.modCore_rrobin (s : State) (c : Nat) (f : Core → Core) : (s.modCore c f).rrobin = s.rrobin := rfl
@[simp] theorem State.modCore_sets (s : State) (c : Nat) (f : Core → Core) : (s.modCore c f).sets = s.sets := rfl
@[simp] theorem State.modCore_teams (s : State) (c : Nat) (f : Core → Core) : (s.modCore c f).teams = s.teams := rfl
@[simp] theorem State.modCore_clusters (s : State) (c : Nat) (f : Core → Core) : (s.modCore c f).clusters = s.clusters := rfl
@[simp] theorem State.modCore_dies (s : State) (c : Nat) (f : Core → Core) : (s.modCore c f).dies = s.dies := rfl
@[simp] theorem State.modCore_mgmt (s : State) (c : Nat) (f : Core → Core) : (s.modCore c f).mgmt = s.mgmt := rfl
@[simp] theorem State.modCore_fw (s : State) (c : Nat) (f : Core → Core) : (s.modCore c f).fw = s.fw := rfl
@[simp] theorem State.modCore_sent (s : State) (c : Nat) (f : Core → Core) : (s.modCore c f).sent = s.sent := rfl
@[simp] theorem State.modCore_puts (s : State) (c : Nat) (f : Core → Core) : (s.modCore c f).puts = s.puts := rfl
@[simp] theorem State.modCore_cur (s : State) (c : Nat) (f : Core → Core) : (s.modCore c f).cur = s.cur := rfl
@[simp] theorem State.modCore_agenda (s : State) (c : Nat) (f : Core → Core) : (s.modCore c f).agenda = s.agenda := rfl
@[simp] theorem State.modCore_fresh (s : State) (c : Nat) (f : Core → Core) : (s.modCore c f).fresh = s.fresh := rfl
@[simp] theorem State.modCore_nextId (s : State) (c : Nat) (f : Core → Core) : (s.modCore c f).nextId = s.nextId := rfl

@[simp] theorem State.modCluster_mem (s : State) (c : Nat) (f : Cluster → Cluster) : (s.modCluster c f).mem = s.mem := rfl
@[simp] theorem State.modCluster_keys (s : State) (c : Nat) (f : Cluster → Cluster) : (s.modCluster c f).keys = s.keys := rfl
@[simp] theorem State.modCluster_checks (s : State) (c : Nat) (f : Cluster → Cluster) : (s.modCluster c f).checks = s.checks := rfl
@[simp] theorem State.modCluster_pend (s : State) (c : Nat) (f : Cluster → Cluster) : (s.modCluster c f).pend = s.pend := rfl
@[simp] theorem State.modCluster_flight (s : State) (c : Nat) (f : Cluster → Cluster) : (s.modCluster c f).flight = s.flight := rfl
@[simp] theorem State.modCluster_tlbs (s : State) (c : Nat) (f : Cluster → Cluster) : (s.modCluster c f).tlbs = s.tlbs := rfl
@[simp] theorem State.modCluster_inval (s : State) (c : Nat) (f : Cluster → Cluster) : (s.modCluster c f).inval = s.inval := rfl
@[simp] theorem State.modCluster_invalQ (s : State) (c : Nat) (f : Cluster → Cluster) : (s.modCluster c f).invalQ = s.invalQ := rfl
@[simp] theorem State.modCluster_invDone (s : State) (c : Nat) (f : Cluster → Cluster) : (s.modCluster c f).invDone = s.invDone := rfl
@[simp] theorem State.modCluster_csrs (s : State) (c : Nat) (f : Cluster → Cluster) : (s.modCluster c f).csrs = s.csrs := rfl
@[simp] theorem State.modCluster_ringHeld (s : State) (c : Nat) (f : Cluster → Cluster) : (s.modCluster c f).ringHeld = s.ringHeld := rfl
@[simp] theorem State.modCluster_ringWait (s : State) (c : Nat) (f : Cluster → Cluster) : (s.modCluster c f).ringWait = s.ringWait := rfl
@[simp] theorem State.modCluster_ringOut (s : State) (c : Nat) (f : Cluster → Cluster) : (s.modCluster c f).ringOut = s.ringOut := rfl
@[simp] theorem State.modCluster_grids (s : State) (c : Nat) (f : Cluster → Cluster) : (s.modCluster c f).grids = s.grids := rfl
@[simp] theorem State.modCluster_rrobin (s : State) (c : Nat) (f : Cluster → Cluster) : (s.modCluster c f).rrobin = s.rrobin := rfl
@[simp] theorem State.modCluster_sets (s : State) (c : Nat) (f : Cluster → Cluster) : (s.modCluster c f).sets = s.sets := rfl
@[simp] theorem State.modCluster_teams (s : State) (c : Nat) (f : Cluster → Cluster) : (s.modCluster c f).teams = s.teams := rfl
@[simp] theorem State.modCluster_cores (s : State) (c : Nat) (f : Cluster → Cluster) : (s.modCluster c f).cores = s.cores := rfl
@[simp] theorem State.modCluster_dies (s : State) (c : Nat) (f : Cluster → Cluster) : (s.modCluster c f).dies = s.dies := rfl
@[simp] theorem State.modCluster_mgmt (s : State) (c : Nat) (f : Cluster → Cluster) : (s.modCluster c f).mgmt = s.mgmt := rfl
@[simp] theorem State.modCluster_fw (s : State) (c : Nat) (f : Cluster → Cluster) : (s.modCluster c f).fw = s.fw := rfl
@[simp] theorem State.modCluster_sent (s : State) (c : Nat) (f : Cluster → Cluster) : (s.modCluster c f).sent = s.sent := rfl
@[simp] theorem State.modCluster_puts (s : State) (c : Nat) (f : Cluster → Cluster) : (s.modCluster c f).puts = s.puts := rfl
@[simp] theorem State.modCluster_cur (s : State) (c : Nat) (f : Cluster → Cluster) : (s.modCluster c f).cur = s.cur := rfl
@[simp] theorem State.modCluster_agenda (s : State) (c : Nat) (f : Cluster → Cluster) : (s.modCluster c f).agenda = s.agenda := rfl
@[simp] theorem State.modCluster_fresh (s : State) (c : Nat) (f : Cluster → Cluster) : (s.modCluster c f).fresh = s.fresh := rfl
@[simp] theorem State.modCluster_nextId (s : State) (c : Nat) (f : Cluster → Cluster) : (s.modCluster c f).nextId = s.nextId := rfl

@[simp] theorem State.modDie_mem (s : State) (d : Nat) (f : Die → Die) : (s.modDie d f).mem = s.mem := rfl
@[simp] theorem State.modDie_keys (s : State) (d : Nat) (f : Die → Die) : (s.modDie d f).keys = s.keys := rfl
@[simp] theorem State.modDie_checks (s : State) (d : Nat) (f : Die → Die) : (s.modDie d f).checks = s.checks := rfl
@[simp] theorem State.modDie_pend (s : State) (d : Nat) (f : Die → Die) : (s.modDie d f).pend = s.pend := rfl
@[simp] theorem State.modDie_flight (s : State) (d : Nat) (f : Die → Die) : (s.modDie d f).flight = s.flight := rfl
@[simp] theorem State.modDie_tlbs (s : State) (d : Nat) (f : Die → Die) : (s.modDie d f).tlbs = s.tlbs := rfl
@[simp] theorem State.modDie_inval (s : State) (d : Nat) (f : Die → Die) : (s.modDie d f).inval = s.inval := rfl
@[simp] theorem State.modDie_invalQ (s : State) (d : Nat) (f : Die → Die) : (s.modDie d f).invalQ = s.invalQ := rfl
@[simp] theorem State.modDie_invDone (s : State) (d : Nat) (f : Die → Die) : (s.modDie d f).invDone = s.invDone := rfl
@[simp] theorem State.modDie_csrs (s : State) (d : Nat) (f : Die → Die) : (s.modDie d f).csrs = s.csrs := rfl
@[simp] theorem State.modDie_ringHeld (s : State) (d : Nat) (f : Die → Die) : (s.modDie d f).ringHeld = s.ringHeld := rfl
@[simp] theorem State.modDie_ringWait (s : State) (d : Nat) (f : Die → Die) : (s.modDie d f).ringWait = s.ringWait := rfl
@[simp] theorem State.modDie_ringOut (s : State) (d : Nat) (f : Die → Die) : (s.modDie d f).ringOut = s.ringOut := rfl
@[simp] theorem State.modDie_grids (s : State) (d : Nat) (f : Die → Die) : (s.modDie d f).grids = s.grids := rfl
@[simp] theorem State.modDie_rrobin (s : State) (d : Nat) (f : Die → Die) : (s.modDie d f).rrobin = s.rrobin := rfl
@[simp] theorem State.modDie_sets (s : State) (d : Nat) (f : Die → Die) : (s.modDie d f).sets = s.sets := rfl
@[simp] theorem State.modDie_teams (s : State) (d : Nat) (f : Die → Die) : (s.modDie d f).teams = s.teams := rfl
@[simp] theorem State.modDie_cores (s : State) (d : Nat) (f : Die → Die) : (s.modDie d f).cores = s.cores := rfl
@[simp] theorem State.modDie_clusters (s : State) (d : Nat) (f : Die → Die) : (s.modDie d f).clusters = s.clusters := rfl
@[simp] theorem State.modDie_mgmt (s : State) (d : Nat) (f : Die → Die) : (s.modDie d f).mgmt = s.mgmt := rfl
@[simp] theorem State.modDie_fw (s : State) (d : Nat) (f : Die → Die) : (s.modDie d f).fw = s.fw := rfl
@[simp] theorem State.modDie_sent (s : State) (d : Nat) (f : Die → Die) : (s.modDie d f).sent = s.sent := rfl
@[simp] theorem State.modDie_puts (s : State) (d : Nat) (f : Die → Die) : (s.modDie d f).puts = s.puts := rfl
@[simp] theorem State.modDie_cur (s : State) (d : Nat) (f : Die → Die) : (s.modDie d f).cur = s.cur := rfl
@[simp] theorem State.modDie_agenda (s : State) (d : Nat) (f : Die → Die) : (s.modDie d f).agenda = s.agenda := rfl
@[simp] theorem State.modDie_fresh (s : State) (d : Nat) (f : Die → Die) : (s.modDie d f).fresh = s.fresh := rfl
@[simp] theorem State.modDie_nextId (s : State) (d : Nat) (f : Die → Die) : (s.modDie d f).nextId = s.nextId := rfl

/-- A read of a team after a change of a team. -/
@[simp] theorem State.team?_modTeam (s : State) (t n : Nat) (f : Team → Team) :
    (s.modTeam t f).team? n = if t = n then (s.team? n).map f else s.team? n := tget_tmod _ _ _ _

@[simp] theorem State.set?_modSet (s : State) (t n : Nat) (f : TSet → TSet) :
    (s.modSet t f).set? n = if t = n then (s.set? n).map f else s.set? n := tget_tmod _ _ _ _

@[simp] theorem State.core_modCore (s : State) (c n : Nat) (f : Core → Core) :
    (s.modCore c f).core n = if c = n then f (s.core n) else s.core n := by
  by_cases h : c = n
  · subst h; simp [State.core, State.modCore]
  · simp [State.core, State.modCore, h]

@[simp] theorem State.cluster_modCluster (s : State) (c n : Nat) (f : Cluster → Cluster) :
    (s.modCluster c f).cluster n = if c = n then f (s.cluster n) else s.cluster n := by
  by_cases h : c = n
  · subst h; simp [State.cluster, State.modCluster]
  · simp [State.cluster, State.modCluster, h]

@[simp] theorem State.die_modDie (s : State) (c n : Nat) (f : Die → Die) :
    (s.modDie c f).die n = if c = n then f (s.die n) else s.die n := by
  by_cases h : c = n
  · subst h; simp [State.die, State.modDie]
  · simp [State.die, State.modDie, h]

/-- Teams, sets, cores, clusters and dies are apart. -/
@[simp] theorem State.team?_modCore (s : State) (c n : Nat) (f : Core → Core) : (s.modCore c f).team? n = s.team? n := rfl
@[simp] theorem State.team?_modCluster (s : State) (c n : Nat) (f : Cluster → Cluster) :
    (s.modCluster c f).team? n = s.team? n := rfl
@[simp] theorem State.team?_modSet (s : State) (c n : Nat) (f : TSet → TSet) : (s.modSet c f).team? n = s.team? n := rfl
@[simp] theorem State.warp?_modCore (s : State) (c t w : Nat) (f : Core → Core) : (s.modCore c f).warp? t w = s.warp? t w := rfl
@[simp] theorem State.warp?_modCluster (s : State) (c t w : Nat) (f : Cluster → Cluster) :
    (s.modCluster c f).warp? t w = s.warp? t w := rfl
@[simp] theorem State.ccc?_modCore (s : State) (c t w : Nat) (f : Core → Core) : (s.modCore c f).ccc? t w = s.ccc? t w := rfl
@[simp] theorem State.ccc?_modCluster (s : State) (c t w : Nat) (f : Cluster → Cluster) :
    (s.modCluster c f).ccc? t w = s.ccc? t w := rfl
@[simp] theorem State.core_modTeam (s : State) (t n : Nat) (f : Team → Team) : (s.modTeam t f).core n = s.core n := rfl
@[simp] theorem State.cluster_modTeam (s : State) (t n : Nat) (f : Team → Team) : (s.modTeam t f).cluster n = s.cluster n := rfl
@[simp] theorem State.set?_modTeam (s : State) (t n : Nat) (f : Team → Team) : (s.modTeam t f).set? n = s.set? n := rfl

/-- A read of a warp after a change of a team. -/
theorem State.warp?_modTeam (s : State) (t a w : Nat) (f : Team → Team) :
    (s.modTeam t f).warp? a w = if t = a then (s.team? a).bind (fun x => (f x).warps[w]?) else s.warp? a w := by
  by_cases h : t = a <;> simp [State.warp?, h, Option.bind_map, Function.comp_def]

theorem State.ccc?_modTeam (s : State) (t a w : Nat) (f : Team → Team) :
    (s.modTeam t f).ccc? a w = if t = a then (s.team? a).bind (fun x => (f x).cccs[w]?) else s.ccc? a w := by
  by_cases h : t = a <;> simp [State.ccc?, h, Option.bind_map, Function.comp_def]

/-- A read of a warp after a change of a warp. -/
@[simp] theorem State.warp?_modWarp (s : State) (t w a b : Nat) (f : Warp → Warp) :
    (s.modWarp t w f).warp? a b = if t = a ∧ w = b then (s.warp? a b).map f else s.warp? a b := by
  unfold State.modWarp
  rw [State.warp?_modTeam]
  by_cases h : t = a
  · subst h
    unfold State.warp?
    cases s.team? t with
    | none => simp
    | some x => by_cases h' : w = b <;> simp [h']
  · simp [h]

@[simp] theorem State.ccc?_modWarp (s : State) (t w a b : Nat) (f : Warp → Warp) :
    (s.modWarp t w f).ccc? a b = s.ccc? a b := by
  unfold State.modWarp
  rw [State.ccc?_modTeam]
  by_cases h : t = a
  · subst h; simp [State.ccc?]
  · simp [h]

@[simp] theorem State.ccc?_modCcc (s : State) (t w a b : Nat) (f : Ccc → Ccc) :
    (s.modCcc t w f).ccc? a b = if t = a ∧ w = b then (s.ccc? a b).map f else s.ccc? a b := by
  unfold State.modCcc
  rw [State.ccc?_modTeam]
  by_cases h : t = a
  · subst h
    unfold State.ccc?
    cases s.team? t with
    | none => simp
    | some x => by_cases h' : w = b <;> simp [h']
  · simp [h]

@[simp] theorem State.warp?_modCcc (s : State) (t w a b : Nat) (f : Ccc → Ccc) :
    (s.modCcc t w f).warp? a b = s.warp? a b := by
  unfold State.modCcc
  rw [State.warp?_modTeam]
  by_cases h : t = a
  · subst h; simp [State.warp?]
  · simp [h]

/-- Changes of units and fragments are changes of their team. -/
theorem State.modWarp_eq (s : State) (t w : Nat) (f : Warp → Warp) :
    s.modWarp t w f = s.modTeam t fun x => { x with warps := lmod x.warps w f } := rfl

theorem State.modCcc_eq (s : State) (t w : Nat) (f : Ccc → Ccc) :
    s.modCcc t w f = s.modTeam t fun x => { x with cccs := lmod x.cccs w f } := rfl

/-- Two changes of one warp are one change. -/
@[simp] theorem State.modWarp_modWarp (s : State) (t w : Nat) (f g : Warp → Warp) :
    (s.modWarp t w f).modWarp t w g = s.modWarp t w fun x => g (f x) := by
  simp [State.modWarp, State.modTeam]

@[simp] theorem State.modCcc_modCcc (s : State) (t w : Nat) (f g : Ccc → Ccc) :
    (s.modCcc t w f).modCcc t w g = s.modCcc t w fun x => g (f x) := by
  simp [State.modCcc, State.modTeam]

/-- A read of registers after a change of registers. -/
@[simp] theorem State.regs?_modRegs (s : State) (u v : UnitId) (f : Regs → Regs) :
    (s.modRegs u f).regs? v = if u = v then (s.regs? v).map f else s.regs? v := by
  cases u <;> cases v <;> simp only [State.modRegs, State.regs?, State.warp?_modWarp, State.ccc?_modCcc, State.ccc?_modWarp,
    State.warp?_modCcc, UnitId.warp.injEq, UnitId.ccc.injEq, reduceCtorEq, if_false] <;> split <;>
    simp [Option.map_map, Function.comp_def]

/-- Scalars, index registers and flags read back. -/
@[simp] theorem Regs.s_setS (r : Regs) (n m : Nat) (v : Word) : (r.setS n v).s m = if n = m then v else r.s m :=
  tgetD_tset _ _ _ _ _

theorem Regs.s_setSs (r : Regs) (n m : Nat) (l : List Word) :
    (r.setSs n l).s m = if n ≤ m ∧ m < n + l.length then l.getD (m - n) 0 else r.s m := by
  induction l generalizing r n with
  | nil => simp [Regs.setSs] <;> omega
  | cons v l ih =>
    rw [Regs.setSs, ih, Regs.s_setS, List.length_cons]
    exact run_succ (f := fun j => (v :: l).getD j 0) (g := fun j => l.getD j 0) (fun _ => rfl) n m l.length _

/-- A run of scalars changes the scalars only. -/
theorem Regs.setSs_rest (r : Regs) (n : Nat) (l : List Word) : { r.setSs n l with sc := r.sc } = r := by
  induction l generalizing r n with
  | nil => rfl
  | cons v l ih =>
    have h := ih (r.setS n v) (n + 1)
    simp only [Regs.setSs]
    calc { (r.setS n v).setSs (n + 1) l with sc := r.sc }
        = { { (r.setS n v).setSs (n + 1) l with sc := (r.setS n v).sc } with sc := r.sc } := rfl
      _ = { r.setS n v with sc := r.sc } := by rw [h]
      _ = r := rfl

@[simp] theorem Regs.flag_setFlag (r : Regs) (n m c : Nat) : (r.setFlag n c).flag m = if n = m then c else r.flag m :=
  tgetD_tset _ _ _ _ _

/-- Vector and predicate registers read back. -/
@[simp] theorem Warp.vr_setV (w : Warp) (n m : Nat) (r : VReg) : (w.setV n r).vr m = if n = m then r else w.vr m :=
  tgetD_tset _ _ _ _ _

@[simp] theorem Warp.pr_setP (w : Warp) (n m : Nat) (r : PReg) : (w.setP n r).pr m = if n = m then r else w.pr m :=
  tgetD_tset _ _ _ _ _

@[simp] theorem Warp.vr_free (w : Warp) (l : List Nat) (m : Nat) : (w.free l).vr m = if m ∈ l then [] else w.vr m := by
  unfold Warp.free
  induction l generalizing w with
  | nil => simp
  | cons a l ih =>
    rw [List.foldl_cons, ih, Warp.vr_setV]
    grind

/-- Freeing changes vector registers only. -/
theorem Warp.free_rest (w : Warp) (l : List Nat) : { w.free l with v := w.v } = w := by
  unfold Warp.free
  induction l generalizing w with
  | nil => rfl
  | cons a l ih =>
    have h := ih (w.setV a [])
    simp only [List.foldl_cons]
    calc { List.foldl (fun w n => w.setV n []) (w.setV a []) l with v := w.v }
        = { { List.foldl (fun w n => w.setV n []) (w.setV a []) l with v := (w.setV a []).v } with v := w.v } := rfl
      _ = { w.setV a [] with v := w.v } := by rw [h]
      _ = w := rfl

/-- A lane of a register that is built from lanes. -/
theorem tget_vbuild_from (g : Nat → Option Word) (l : Nat) : ∀ n k, tget ((List.range' k n).filterMap fun j => (g j).map fun v => (j, v)) l
    = if k ≤ l ∧ l < k + n then g l else none := by
  intro n
  induction n with
  | zero => intro k; simp <;> omega
  | succ n ih =>
    intro k
    simp only [List.range'_succ, List.filterMap_cons]
    cases h : g k <;> simp only [Option.map_none, Option.map_some, tget, ih] <;> grind

@[simp] theorem tget_vbuild (g : Nat → Option Word) (l : Nat) : tget (vbuild g) l = if l < 32 then g l else none := by
  have h := tget_vbuild_from g l 32 0
  simpa [vbuild, List.range_eq_range'] using h

/-- The destination rule, lane by lane (07_registers R160). -/
theorem tget_vmerge (lm e : Lanes) (kp : Bool) (old : VReg) (f : Nat → Word) (l : Nat) (h : l < 32) :
    tget (vmerge lm e kp old f) l =
      if e.getLsbD l then some (f l) else if lm.getLsbD l && !kp then none else tget old l := by
  simp [vmerge, h]

end Sys2Proof.Machine
end

