-- ==== Sys2Proof/Laws/Issue.lean ====
section
/-!
SUPPORT. The laws of issue and retirement: what `issue` answers, what every retiring instruction does besides its own effect,
and the effect of the shared templates.
-/
namespace Sys2Proof.Machine

theorem OnlyUnit.refl (s : State) (u : UnitId) : OnlyUnit s s u := by simp [OnlyUnit]

theorem OnlyUnit.trans {a b c : State} {u : UnitId} (h : OnlyUnit a b u) (g : OnlyUnit b c u) : OnlyUnit a c u := by
  obtain ⟨h1, h2, h3, h4, h5⟩ := h
  obtain ⟨g1, g2, g3, g4, g5⟩ := g
  refine ⟨?_, fun k => ?_, fun x y n => (g3 x y n).trans (h3 x y n), fun x y n => (g4 x y n).trans (h4 x y n),
    fun x => (g5 x).trans (h5 x)⟩
  · rw [← h1, ← g1]
  · rw [← h2 k, ← g2 k]

/-- A change of a unit alone leaves every memory as it is. -/
theorem OnlyUnit.sameMem {s t : State} {u : UnitId} (h : OnlyUnit s t u) : SameMem s t := by
  obtain ⟨h1, -, -, -, h5⟩ := h
  have hb {α : Type} (g : Nat) (f : Team → α) (hf : ∀ x, f x = f x.bare) : (t.team? g).map f = (s.team? g).map f := by
    have e (o : Option Team) : o.map f = (o.map Team.bare).map f := by cases o <;> simp [← hf]
    rw [e (t.team? g), e (s.team? g), h5 g]
  refine ⟨fun d k a => ?_, fun g ci off => ?_, fun g n => ?_⟩
  · have hf : t.flight = s.flight := by rw [← h1]
    have hk : t.keys = s.keys := by rw [← h1]
    have hm : t.mem = s.mem := by rw [← h1]
    unfold State.dieByte State.seenAt State.baseByte
    rw [hf, hk, hm]
  · have h := hb g (fun x => (x.scratch[ci]?).map fun m => tgetD m off 0) fun _ => rfl
    unfold State.spByte
    congr 1
    have e (o : Option Team) : (o.bind fun x => (x.scratch[ci]?).map fun m => tgetD m off (0 : Byte)) =
        (o.map fun x => (x.scratch[ci]?).map fun m => tgetD m off 0).bind id := by cases o <;> rfl
    rw [e, e, h]
  · have h := hb g (fun x => tgetD x.acc n 0) fun _ => rfl
    unfold State.accElem
    rw [h]

theorem SameMem.refl (s : State) : SameMem s s := by simp [SameMem]

theorem SameMem.trans {a b c : State} (h : SameMem a b) (g : SameMem b c) : SameMem a c :=
  ⟨fun d k x => (g.1 d k x).trans (h.1 d k x), fun t ci o => (g.2.1 t ci o).trans (h.2.1 t ci o),
    fun t n => (g.2.2 t n).trans (h.2.2 t n)⟩

/-- A change of a team's warps or contexts that leaves the other warps and contexts alone. -/
theorem onlyUnit_modTeam (s : State) (t : Nat) (u : UnitId) {f : Team → Team} (hf : ∀ x, (f x).bare = x.bare)
    (hw : ∀ a w, UnitId.warp a w ≠ u → (s.modTeam t f).warp? a w = s.warp? a w)
    (hc : ∀ a i, UnitId.ccc a i ≠ u → (s.modTeam t f).ccc? a i = s.ccc? a i) : OnlyUnit s (s.modTeam t f) u := by
  have hb (a : Nat) : ((s.modTeam t f).team? a).map Team.bare = (s.team? a).map Team.bare := by
    rw [State.team?_modTeam]
    split <;> cases s.team? a <;> simp [hf]
  exact ⟨rfl, fun _ => rfl, hw, hc, hb⟩

theorem onlyUnit_modWarp (s : State) (t w : Nat) (f : Warp → Warp) : OnlyUnit s (s.modWarp t w f) (.warp t w) :=
  onlyUnit_modTeam s t _ (fun _ => rfl) (fun _ _ h => by rw [← State.modWarp_eq, State.warp?_modWarp]; grind)
    fun _ _ _ => State.ccc?_modWarp ..

theorem onlyUnit_modCcc (s : State) (t k : Nat) (f : Ccc → Ccc) : OnlyUnit s (s.modCcc t k f) (.ccc t k) :=
  onlyUnit_modTeam s t _ (fun _ => rfl) (fun _ _ _ => State.warp?_modCcc ..)
    fun _ _ h => by rw [← State.modCcc_eq, State.ccc?_modCcc]; grind

theorem onlyUnit_modRegs (s : State) (u : UnitId) (f : Regs → Regs) : OnlyUnit s (s.modRegs u f) u := by
  cases u
  · exact onlyUnit_modWarp ..
  · exact onlyUnit_modCcc ..

theorem onlyUnit_modFrag (s : State) (c : Cur) (f : Frag → Frag) : OnlyUnit s (s.modFrag c f) c.unit := by
  unfold State.modFrag
  split <;> (rename_i h; rw [h])
  · exact onlyUnit_modWarp ..
  · exact onlyUnit_modCcc ..

/-- Of a core, an issue changes the count of fills and the last issuer alone. -/
theorem onlyUnit_modCore (s : State) (k : Nat) (u : UnitId) {f : Core → Core}
    (h : ∀ x, { f x with ifcnt := x.ifcnt, last := x.last } = x) : OnlyUnit s (s.modCore k f) u := by
  have hk (a : Nat) : { (s.modCore k f).core a with ifcnt := (s.core a).ifcnt, last := (s.core a).last } = s.core a := by
    rw [State.core_modCore]
    split
    · exact h _
    · rfl
  unfold OnlyUnit
  exact ⟨rfl, hk, by simp [State.warp?], by simp [State.ccc?], by simp⟩

@[simp] theorem Frag.noAge_age (f : Frag) (n : Nat) : Frag.noAge { f with age := n } = f.noAge := rfl

/-- Rewriting a buffer changes the buffer alone. -/
theorem Warp.rebuf_rest (x : Warp) (l : List Nat) : { x.rebuf l with buf := x.buf } = x := rfl

@[simp] theorem Warp.vr_rebuf (x : Warp) (l : List Nat) (r : Nat) : (x.rebuf l).vr r = x.vr r := rfl

theorem Warp.still_rebuf (x : Warp) (l : List Nat) : (x.rebuf l).still = x.still := rfl

theorem Warp.frag?_rebuf (x : Warp) (l : List Nat) (k : Sel) : (x.rebuf l).frag? k = x.frag? k := by cases k <;> rfl

theorem Warp.still_free (x : Warp) (l : List Nat) : (x.free l).still = x.still := by
  have h := congrArg Warp.still (Warp.free_rest x l)
  exact h

theorem Warp.frag?_free (x : Warp) (l : List Nat) (k : Sel) : (x.free l).frag? k = x.frag? k := by
  have h := congrArg (fun y : Warp => y.frag? k) (Warp.free_rest x l)
  cases k <;> exact h

theorem Warp.spill_free (x : Warp) (l : List Nat) : (x.free l).spill = x.spill := by
  have h := congrArg Warp.spill (Warp.free_rest x l)
  exact h

theorem Warp.last_free (x : Warp) (l : List Nat) : (x.free l).last = x.last := by
  have h := congrArg Warp.last (Warp.free_rest x l)
  exact h

theorem Warp.run_free (x : Warp) (l : List Nat) : (x.free l).run = x.run := by
  have h := congrArg Warp.run (Warp.free_rest x l)
  exact h

theorem Warp.other_free (x : Warp) (l : List Nat) : (x.free l).other = x.other := by
  have h := congrArg Warp.other (Warp.free_rest x l)
  exact h

/-- Ages alone change by a map that changes ages alone. -/
theorem noAge_map_option {g : Frag → Frag} (h : ∀ f, (g f).noAge = f.noAge) (o : Option Frag) :
    (o.map g).map Frag.noAge = o.map Frag.noAge := by
  cases o <;> simp [h]

theorem noAge_map_list {g : Frag → Frag} (h : ∀ f, (g f).noAge = f.noAge) (l : List Frag) :
    (l.map g).map Frag.noAge = l.map Frag.noAge := by
  simp [h]

/-- The count of an issue in the AGE of the ready fragments changes ages alone, and the issuer's run (13_control_flow R303). -/
theorem bumpAges_warp (s0 s : State) (t w fid : Nat) {x : Warp} (hx : s.warp? t w = some x) :
    OnlyUnit s (s0.bumpAges s t w fid) (.warp t w) ∧
    ∃ z, (s0.bumpAges s t w fid).warp? t w = some z ∧ z.still = x.still ∧ (∀ r, z.vr r = x.vr r) ∧
      (∀ k, (z.frag? k).map Frag.noAge = (x.frag? k).map Frag.noAge) ∧ z.spill.map Frag.noAge = x.spill.map Frag.noAge ∧
      z.last = fid ∧ z.other = false ∧ z.run = if x.last = fid ∧ x.run < 16 ∧ x.other = false then x.run + 1 else 1 := by
  refine ⟨onlyUnit_modWarp .., ?_⟩
  unfold State.bumpAges
  generalize ((((s0.warp? t w).map (·.frags)).getD []).filter fun f => !s0.blocked (.warp t w) f).map (·.fid) = ready
  simp only [State.warp?_modWarp, hx, and_self, if_true, Option.map_some]
  generalize hg : (fun f : Frag => if f.fid = fid then ({ f with age := 0 } : Frag)
    else if ready.contains f.fid = true then { f with age := min 255 (f.age + 1) } else f) = g
  have h : ∀ f, (g f).noAge = f.noAge := by
    intro f; subst hg; dsimp only
    repeat' split
    all_goals rfl
  exact ⟨_, rfl, rfl, fun _ => rfl, fun k => by cases k <;> first | rfl | exact noAge_map_option h _, noAge_map_list h _, rfl, rfl, rfl⟩

/-- The use of the operand buffer by a warp: the marked registers are vacant, those named are buffered. -/
theorem useBuf_warp (s0 s : State) (t w : Nat) (m n : List Nat) {x y : Warp} (hx : s0.warp? t w = some x) (hy : s.warp? t w = some y) :
    OnlyUnit s (s0.useBuf s t w m n) (.warp t w) ∧ (s0.useBuf s t w m n).warp? t w = some ((y.free m).rebuf n) := by
  unfold State.useBuf
  rw [hx]
  dsimp only
  split
  · exact ⟨onlyUnit_modWarp .., by simp [hy]⟩
  · exact ⟨(onlyUnit_modCore s x.core (.warp t w) (f := fun y => { y with ifcnt := y.ifcnt + BitVec.ofNat 64 (x.fills n).length })
      fun _ => rfl).trans (onlyUnit_modWarp ..), by simp [hy]⟩

/-- The settling of an issue by a warp that is gone leaves it gone. -/
theorem settleIssue_none {s s' : State} {c : Ctx} {i : Instr} {t w : Nat} {x : Warp} (hu : c.cur.unit = .warp t w)
    (hx : s.warp? t w = some x) (hy : s'.warp? t w = none) :
    OnlyUnit s' (s.settleIssue s' c i) (.warp t w) ∧ (s.settleIssue s' c i).warp? t w = none := by
  have h1 : OnlyUnit s' (s.useBuf s' t w (marksOf x.regs i) (namedOf x.regs i)) (.warp t w) ∧
      (s.useBuf s' t w (marksOf x.regs i) (namedOf x.regs i)).warp? t w = none := by
    unfold State.useBuf
    rw [hx]
    dsimp only
    split
    · exact ⟨onlyUnit_modWarp .., by simp [hy]⟩
    · exact ⟨(onlyUnit_modCore s' x.core (.warp t w) (f := fun y => { y with ifcnt := y.ifcnt + BitVec.ofNat 64 (x.fills (namedOf x.regs i)).length })
        fun _ => rfl).trans (onlyUnit_modWarp ..), by simp [hy]⟩
  unfold State.settleIssue
  rw [hu]; dsimp only; rw [hx]; dsimp only
  generalize s.useBuf s' t w (marksOf x.regs i) (namedOf x.regs i) = s1 at h1
  have h2 : OnlyUnit s' (s1.modCore x.core fun z => { z with last := x.wslot }) (.warp t w) :=
    h1.1.trans (onlyUnit_modCore _ _ _ fun _ => rfl)
  split
  · exact ⟨h2, by simp [h1.2]⟩
  · unfold State.bumpAges
    exact ⟨h2.trans (onlyUnit_modWarp ..), by simp [h1.2]⟩

/-- The warp after the settling of an issue: marked registers are vacant, it has issued, and the rest is as it was, buffer and ages
apart. -/
theorem settleIssue_warp {s s' : State} {c : Ctx} {i : Instr} {t w : Nat} {x y : Warp} (hu : c.cur.unit = .warp t w)
    (hx : s.warp? t w = some x) (hy : s'.warp? t w = some y) :
    OnlyUnit s' (s.settleIssue s' c i) (.warp t w) ∧
    ∃ z, (s.settleIssue s' c i).warp? t w = some z ∧ z.still = y.still ∧
      (∀ r, z.vr r = if r ∈ marksOf x.regs i then [] else y.vr r) ∧
      (∀ k, (z.frag? k).map Frag.noAge = (y.frag? k).map Frag.noAge) ∧ z.spill.map Frag.noAge = y.spill.map Frag.noAge ∧
      y.Issued c z := by
  obtain ⟨h1, e1⟩ := useBuf_warp s s' t w (marksOf x.regs i) (namedOf x.regs i) hx hy
  unfold State.settleIssue
  rw [hu]; dsimp only; rw [hx]; dsimp only
  generalize hs1 : (s.useBuf s' t w (marksOf x.regs i) (namedOf x.regs i)).modCore x.core (fun z => { z with last := x.wslot }) = s1
  have h2 : OnlyUnit s' s1 (.warp t w) := by
    rw [← hs1]; exact h1.trans (onlyUnit_modCore _ _ _ fun _ => rfl)
  have hz2 : s1.warp? t w = some ((y.free (marksOf x.regs i)).rebuf (namedOf x.regs i)) := by rw [← hs1]; simpa using e1
  have hst : ((y.free (marksOf x.regs i)).rebuf (namedOf x.regs i)).still = y.still := by
    rw [Warp.still_rebuf, Warp.still_free]
  have hv (r : Nat) : ((y.free (marksOf x.regs i)).rebuf (namedOf x.regs i)).vr r =
      if r ∈ marksOf x.regs i then [] else y.vr r := by simp
  have hf (k : Sel) : ((y.free (marksOf x.regs i)).rebuf (namedOf x.regs i)).frag? k = y.frag? k := by
    rw [Warp.frag?_rebuf, Warp.frag?_free]
  have hsp : ((y.free (marksOf x.regs i)).rebuf (namedOf x.regs i)).spill = y.spill := Warp.spill_free ..
  have hr : ((y.free (marksOf x.regs i)).rebuf (namedOf x.regs i)).last = y.last ∧
      ((y.free (marksOf x.regs i)).rebuf (namedOf x.regs i)).run = y.run ∧
      ((y.free (marksOf x.regs i)).rebuf (namedOf x.regs i)).other = y.other :=
    ⟨Warp.last_free .., Warp.run_free .., Warp.other_free ..⟩
  generalize (y.free (marksOf x.regs i)).rebuf (namedOf x.regs i) = z2 at hz2 hst hv hf hsp hr
  unfold Warp.Issued
  split
  · exact ⟨h2, z2, hz2, hst, hv, fun k => by rw [hf], by rw [hsp], hr⟩
  · obtain ⟨ho, z, a1, a2, a3, a4, a5, a6, a7, a8⟩ := bumpAges_warp s s1 t w c.fid hz2
    rw [hr.1, hr.2.1, hr.2.2] at a8
    exact ⟨h2.trans ho, z, a1, a2.trans hst, fun r => (a3 r).trans (hv r), fun k => (a4 k).trans (by rw [hf]),
      a5.trans (by rw [hsp]), a6, a7, a8⟩

theorem Warp.frag?_setFrag (x : Warp) (k j : Sel) (f : Option Frag) (h : k ≠ .ctx) :
    (x.setFrag k f).frag? j = if k = j then f else x.frag? j := by
  cases k <;> cases j <;> first | rfl | exact absurd rfl h

theorem Warp.still_setFrag (x : Warp) (k : Sel) (f : Option Frag) : (x.setFrag k f).still = x.still := by
  cases k <;> rfl

theorem Warp.vr_setFrag (x : Warp) (k : Sel) (f : Option Frag) (r : Nat) : (x.setFrag k f).vr r = x.vr r := by
  cases k <;> rfl

theorem Warp.spill_setFrag (x : Warp) (k : Sel) (f : Option Frag) : (x.setFrag k f).spill = x.spill := by
  cases k <;> rfl

/-- Which fragment issued last does not hang on what the fragments are. -/
theorem Warp.Issued.setFrag {x : Warp} {c : Ctx} {y : Warp} (h : x.Issued c y) (k : Sel) (f : Option Frag) : x.Issued c (y.setFrag k f) := by
  cases k <;> exact h

theorem Warp.Issued.ofSetFrag {x : Warp} {c : Ctx} {y : Warp} {k : Sel} {f : Option Frag} (h : (x.setFrag k f).Issued c y) :
    x.Issued c y := by
  cases k <;> exact h

theorem Frag.noAge_advance (f : Frag) (n : Nat) : (f.advance n).noAge = (f.noAge.advance n).noAge := by
  unfold Frag.advance Frag.noAge
  split <;> rfl

/-- A retiring instruction of a warp: besides its effect, marked registers become vacant and the next word follows. -/
theorem retire_warp {s s' : State} {c : Ctx} {i : Instr} {t w : Nat} {x y : Warp} (hu : c.cur.unit = .warp t w)
    (hx : s.warp? t w = some x) (hy : s'.warp? t w = some y) :
    OnlyUnit s' (s.retire s' c i) (.warp t w) ∧
    ∃ z, (s.retire s' c i).warp? t w = some z ∧ z.still = y.still ∧
      (∀ r, z.vr r = if r ∈ marksOf x.regs i then [] else y.vr r) ∧
      ((s.retire s' c i).frag? c.cur).map Frag.noAge = (y.frag? c.cur.sel).map (fun f => (f.advance c.hdr.len).noAge) ∧
      OtherFrags c.cur.sel y z ∧ y.Issued c z := by
  obtain ⟨ho, z, hz, hst, hv, hf, hsp, hi⟩ := settleIssue_warp (i := i) hu hx hy
  have hn (f : Option Frag) (n : Nat) : f.map (fun f => (f.advance n).noAge) =
      (f.map Frag.noAge).map fun f => (f.advance n).noAge := by
    cases f <;> simp [← Frag.noAge_advance]
  unfold State.retire
  refine ⟨ho.trans (by have h := onlyUnit_modFrag (s.settleIssue s' c i) c.cur (·.advance c.hdr.len); rwa [hu] at h), ?_⟩
  by_cases hc : c.cur.sel = .ctx
  · refine ⟨z, ?_, hst, hv, ?_, ⟨fun k hk => hf k, hsp⟩, hi⟩
    · simp [State.modFrag, hu, hz, hc, Warp.setFrag]
    · simp [State.frag?, State.modFrag, hu, hz, hc, Warp.setFrag, Warp.frag?]
  · refine ⟨z.setFrag c.cur.sel ((z.frag? c.cur.sel).map (·.advance c.hdr.len)), ?_, ?_, ?_, ?_, ⟨fun k hk => ?_, ?_⟩, hi.setFrag _ _⟩
    · simp [State.modFrag, hu, hz]
    · rw [Warp.still_setFrag, hst]
    · intro r; rw [Warp.vr_setFrag, hv]
    · simp only [State.frag?, State.modFrag, hu, hz, State.warp?_modWarp, and_self, if_true, Option.map_some, Option.bind_some,
        Warp.frag?_setFrag _ _ _ _ hc, Option.map_map, Function.comp_def]
      rw [hn, hf, ← hn]
    · rw [Warp.frag?_setFrag _ _ _ _ hc, if_neg (Ne.symm hk), hf]
    · rw [Warp.spill_setFrag, hsp]

end Sys2Proof.Machine
end

