-- ==== Sys2Proof/Laws/Forms.lean ====
section
/-!
SUPPORT. The laws of the shared templates: what `issue` answers, and what a form that writes vector registers, a predicate or
scalars does when it retires.
-/
namespace Sys2Proof.Machine

/-- An instruction that issues answers what its body comes to. -/
theorem issue_next {s : State} {c : Ctx} {i : Instr} (h : Issues s c i) (body : Ctx → State → Res) :
    issue s i body = .next (finish s c i (body c s)) := by
  unfold issue
  rw [h.1]; dsimp only; rw [h.2]

theorem issueOps_next {s : State} {c : Ctx} {i : Instr} (h : Issues s c i) (body : Env → Ctx → State → Res) :
    issueOps s i body = .next (finish s c i (body (s.envOf c i) c s)) := issue_next h _

/-- An instruction that fails a check traps with that cause (02_instruction_words R53). -/
theorem issue_check {s : State} {c : Ctx} {i : Instr} {k : Nat} (hc : s.ctx? = some c) (h : issueCheck s c i = some k)
    (body : Ctx → State → Res) : issue s i body = .next (s.trapNow c i (plainTrap k)) := by
  unfold issue
  rw [hc]; dsimp only; rw [h]

/-- The environment of an instruction acts on the fragment's lanes. -/
@[simp] theorem State.envOf_lm (s : State) (c : Ctx) (i : Instr) : (s.envOf c i).lm = c.lm := rfl

@[simp] theorem State.envOf_only (s : State) (c : Ctx) (i : Instr) : (s.envOf c i).only = fullMap := rfl

/-- The warp of an issuing context exists. -/
theorem warp_of_ctx {s : State} {c : Ctx} (h : s.ctx? = some c) {t w : Nat} (hu : c.cur.unit = .warp t w) : ∃ x, s.warp? t w = some x := by
  unfold State.ctx? at h
  split at h
  · cases h
  · split at h
    · cases h
    · rename_i cur _ f hf
      obtain ⟨hd, _, rfl⟩ := Option.map_eq_some_iff.mp h
      unfold State.frag? at hf
      dsimp only at hu
      rw [hu] at hf
      obtain ⟨x, hx, _⟩ := Option.bind_eq_some_iff.mp hf
      exact ⟨x, hx⟩

/-- What `settleIssue` does to a state, whatever the effect before it. -/
theorem ends_settle {s : State} {c : Ctx} (hc : s.ctx? = some c) (s1 : State) (i : Instr) :
    Ends s s1 (s.settleIssue s1 c i) c i id := by
  have hw := fun t w => warp_of_ctx hc (t := t) (w := w)
  clear hc
  obtain ⟨cur, fid, kind, lm, hdr, cpc, slot, ph⟩ := c
  obtain ⟨u, sel⟩ := cur
  cases u with
  | ccc t k =>
    exact ⟨.refl .., .refl _, rfl, (fun t w x h => by cases h), fun t k y _ hy => ⟨y, hy, rfl⟩⟩
  | warp t w =>
    obtain ⟨x0, hx⟩ := hw t w rfl
    have m : s.marks ⟨⟨.warp t w, sel⟩, fid, kind, lm, hdr, cpc, slot, ph⟩ i = marksOf x0.regs i := by
      simp only [State.marks, State.regs?, hx]; rfl
    cases hy : s1.warp? t w with
    | some y =>
      obtain ⟨ho, z, hz, hst, hv, hf, hsp, hi⟩ :=
        settleIssue_warp (c := ⟨⟨.warp t w, sel⟩, fid, kind, lm, hdr, cpc, slot, ph⟩) (i := i) rfl hx hy
      refine ⟨ho, ho.sameMem, ?_, (fun t' w' x' h hx' => ?_), fun t k y h => by cases h⟩
      · simp only [State.frag?, hz, hy, Option.bind_some, id, hf]
      · cases h
        rw [hy] at hx'; cases hx'
        exact ⟨z, hz, hst, fun r => by rw [m]; exact hv r, ⟨fun j _ => hf j, hsp⟩, hi⟩
    | none =>
      have key := settleIssue_none (c := ⟨⟨.warp t w, sel⟩, fid, kind, lm, hdr, cpc, slot, ph⟩) (i := i) rfl hx hy
      refine ⟨key.1, key.1.sameMem, ?_, (fun t' w' x' h hx' => ?_), fun t k y h => by cases h⟩
      · simp only [State.frag?, key.2, hy]; rfl
      · cases h; rw [hy] at hx'; cases hx'

/-- A change of the issuing fragment after the rest. -/
theorem Ends.modFrag {s s1 s' : State} {c : Ctx} {i : Instr} (h : Ends s s1 s' c i id) {g : Frag → Frag}
    (hg : ∀ f, (g f).noAge = (g f.noAge).noAge) : Ends s s1 (s'.modFrag c.cur g) c i g := by
  obtain ⟨h1, h2, h3, h4, h5⟩ := h
  have hn (f : Option Frag) : f.map (fun f => (g f).noAge) = (f.map Frag.noAge).map fun f => (g f).noAge := by
    cases f <;> simp [← hg]
  have ho := h1.trans (onlyUnit_modFrag s' c.cur g)
  obtain ⟨cur, fid, kind, lm, hdr, cpc, slot, ph⟩ := c
  obtain ⟨u, sel⟩ := cur
  refine ⟨ho, h2.trans (onlyUnit_modFrag s' _ g).sameMem, ?_, fun t w x hu hx => ?_, fun t k y hu hy => ?_⟩
  · have e : ((s'.modFrag ⟨u, sel⟩ g).frag? ⟨u, sel⟩) = (s'.frag? ⟨u, sel⟩).map g := by
      cases u with
      | warp t w =>
        simp only [State.frag?, State.modFrag, State.warp?_modWarp, and_self, if_true]
        cases hw : s'.warp? t w with
        | none => rfl
        | some x => cases sel <;> rfl
      | ccc t k =>
        simp only [State.frag?, State.modFrag, State.ccc?_modCcc, and_self, if_true]
        cases s'.ccc? t k <;> rfl
    change ((s'.modFrag ⟨u, sel⟩ g).frag? ⟨u, sel⟩).map Frag.noAge = _
    rw [e, Option.map_map]
    change (s'.frag? ⟨u, sel⟩).map (fun f => (g f).noAge) = _
    rw [hn]
    dsimp only at h3
    rw [h3]
    cases s1.frag? ⟨u, sel⟩ <;> simp [← hg]
  · dsimp only at hu
    subst hu
    obtain ⟨y, hy, hs, hv, ⟨hf, hsp⟩, hi⟩ := h4 t w x rfl hx
    refine ⟨y.setFrag sel ((y.frag? sel).map g), by simp [State.modFrag, hy], by rw [Warp.still_setFrag, hs],
      fun r => by rw [Warp.vr_setFrag, hv], ⟨fun j hj => ?_, by rw [Warp.spill_setFrag, hsp]⟩, hi.setFrag _ _⟩
    by_cases hc : sel = .ctx
    · subst hc; exact hf j hj
    · rw [Warp.frag?_setFrag _ _ _ _ hc, if_neg (Ne.symm hj)]; exact hf j hj
  · dsimp only at hu
    subst hu
    obtain ⟨z, hz, he⟩ := h5 t k y rfl hy
    exact ⟨{ z with frag := g z.frag }, by simp [State.modFrag, hz], he⟩

/-- A retiring instruction. -/
theorem ends_retire {s : State} {c : Ctx} (hc : s.ctx? = some c) (s1 : State) (i : Instr) :
    Ends s s1 (s.retire s1 c i) c i (·.advance c.hdr.len) :=
  (ends_settle hc s1 i).modFrag fun f => f.noAge_advance _

/-- An instruction whose body retires with `s1`. -/
theorem retires_of {s s1 : State} {c : Ctx} {i : Instr} {body : Ctx → State → Res} (h : Issues s c i)
    (he : exec i s = issue s i body) (hb : body c s = .retire s1) : Retires i s c s1 :=
  ⟨_, by rw [he, issue_next h, hb]; rfl, ends_retire h.1 ..⟩

/-- An instruction whose body traps with no effect. -/
theorem traps_of {s : State} {c : Ctx} {i : Instr} {body : Ctx → State → Res} {ti : TrapInfo} (h : Issues s c i)
    (he : exec i s = issue s i body) (hb : body c s = .trap ti s) : Traps i s c ti := by
  unfold Traps; rw [he, issue_next h, hb]; rfl

/-- An instruction whose body waits. -/
theorem waits_of {s s1 : State} {c : Ctx} {i : Instr} {body : Ctx → State → Res} {k : WaitOn} (h : Issues s c i)
    (he : exec i s = issue s i body) (hb : body c s = .wait k s1) : Waits i s c k s1 := by
  unfold Waits; rw [he, issue_next h, hb]; rfl

/-- A change of the issuing fragment, once made, is read back. -/
theorem frag?_modFrag (s : State) (c : Cur) (g : Frag → Frag) : (s.modFrag c g).frag? c = (s.frag? c).map g := by
  obtain ⟨u, sel⟩ := c
  cases u with
  | warp t w =>
    simp only [State.frag?, State.modFrag, State.warp?_modWarp, and_self, if_true]
    cases hw : s.warp? t w with
    | none => rfl
    | some x => cases sel <;> rfl
  | ccc t k =>
    simp only [State.frag?, State.modFrag, State.ccc?_modCcc, and_self, if_true]
    cases s.ccc? t k <;> rfl

/-- An instruction that has moved its fragment itself. -/
theorem ends_move {s : State} {c : Ctx} (hc : s.ctx? = some c) (s1 : State) (i : Instr) (g : Frag → Frag) :
    Ends s s1 (s.settleIssue (s1.modFrag c.cur g) c i) c i g := by
  obtain ⟨h1, h2, h3, h4, h5⟩ := ends_settle hc (s1.modFrag c.cur g) i
  refine ⟨(onlyUnit_modFrag s1 c.cur g).trans h1, (onlyUnit_modFrag s1 c.cur g).sameMem.trans h2, ?_, fun t w x hu hx => ?_,
    fun t k y hu hy => ?_⟩
  · rw [h3, frag?_modFrag]
    cases s1.frag? c.cur <;> rfl
  · obtain ⟨y, hy, hs, hv, ⟨hf, hsp⟩, hi⟩ := h4 t w (x.setFrag c.cur.sel ((x.frag? c.cur.sel).map g)) hu
      (by simp [State.modFrag, hu, hx])
    refine ⟨y, hy, by rw [hs, Warp.still_setFrag], fun r => by rw [hv, Warp.vr_setFrag], ⟨fun j hj => ?_, by
      rw [hsp, Warp.spill_setFrag]⟩, hi.ofSetFrag⟩
    rw [hf j hj]
    by_cases hc : c.cur.sel = .ctx
    · rw [hc]; rfl
    · rw [Warp.frag?_setFrag _ _ _ _ hc, if_neg (Ne.symm hj)]
  · obtain ⟨z, hz, he⟩ := h5 t k { y with frag := g y.frag } hu (by simp [State.modFrag, hu, hy])
    exact ⟨z, hz, by
      have e := congrArg (fun q : Ccc => ({ q with frag := y.frag } : Ccc)) he
      exact e⟩

/-- An instruction whose body moves its fragment and does nothing else. -/
theorem goes_of {s : State} {c : Ctx} {i : Instr} {body : Ctx → State → Res} {g : Frag → Frag} (h : Issues s c i)
    (he : exec i s = issue s i body) (hb : body c s = .placed (s.modFrag c.cur g)) : Goes i s c g :=
  ⟨_, by rw [he, issue_next h, hb]; rfl, ends_move h.1 ..⟩

/-- Lanes written to consecutive registers. -/
theorem Warp.vr_writeV (x : Warp) (d n : Nat) (lm e : Lanes) (kp : Bool) (f : Nat → List Word) (r : Nat) :
    (x.writeV d n lm e kp f).vr r =
      if d ≤ r ∧ r < d + n then vmerge lm e kp (x.vr r) fun l => (f l).getD (r - d) 0 else x.vr r := by
  unfold Warp.writeV
  induction n with
  | zero => simp <;> omega
  | succ n ih =>
    rw [List.range_succ, List.foldl_append]
    simp only [List.foldl_cons, List.foldl_nil, Warp.vr_setV]
    grind

/-- Writing lanes changes vector registers only. -/
theorem Warp.writeV_rest (x : Warp) (d n : Nat) (lm e : Lanes) (kp : Bool) (f : Nat → List Word) :
    { x.writeV d n lm e kp f with v := x.v } = x := by
  unfold Warp.writeV
  induction n with
  | zero => rfl
  | succ n ih =>
    rw [List.range_succ, List.foldl_append]
    exact ih

theorem words_getD (n v k : Nat) (h : k < n) : (words n v).getD k 0 = BitVec.ofNat 32 (v / 2 ^ (32 * k)) := by
  simp [words, h]

theorem words_length (n v : Nat) : (words n v).length = n := by simp [words]

/-- A retiring instruction of a warp that has changed that warp alone. -/
theorem WarpIssues.retires {s s' : State} {c : Ctx} {i : Instr} {t w : Nat} {x y : Warp} (h : WarpIssues s c i t w x)
    (ho : OnlyUnit s s' (.warp t w)) (hy : s'.warp? t w = some y) (hf : ∀ k, y.frag? k = x.frag? k) (hsp : y.spill = x.spill)
    (hl : y.last = x.last ∧ y.run = x.run ∧ y.other = x.other) :
    ∃ z, WarpRetires s (s.retire s' c i) c t w x z ∧ z.still = y.still ∧
      ∀ r, z.vr r = if r ∈ marksOf x.regs i then [] else y.vr r := by
  obtain ⟨-, hu, hx⟩ := h
  obtain ⟨h1, z, hz, hst, hv, ha, h2, hi⟩ := retire_warp (i := i) (c := c) hu hx hy
  have h3 := ho.trans h1
  refine ⟨z, ⟨h3, h3.sameMem, ?_, hz, ?_, by unfold Warp.Issued at hi ⊢; rwa [hl.1, hl.2.1, hl.2.2] at hi⟩, hst, hv⟩
  · unfold Advanced
    rw [ha, hf]
    simp [State.frag?, hu, hx]
  · exact ⟨fun j hj => by rw [h2.1 j hj, hf], by rw [h2.2, hsp]⟩

/-- The template of the lane forms (08_lane_arithmetic R186, R189). -/
theorem WarpIssues.laneDone {s : State} {c : Ctx} {i : Instr} {t w : Nat} {x : Warp} (h : WarpIssues s c i t w x)
    (d n : Nat) (kp : Bool) (m : Lanes) (f : Nat → Nat) (fl : Word) :
    LaneDone s (s.retire (s.writeLanes c.cur.unit d n c.lm m kp f fl) c i) c i t w x d n kp m f fl := by
  have hw : s.writeLanes c.cur.unit d n c.lm m kp f fl =
      s.modWarp t w fun x => (x.writeV d n c.lm m kp fun l => words n (f l)).orFst fl := by
    unfold State.writeLanes; rw [h.2.1]
  have hr := Warp.writeV_rest x d n c.lm m kp fun l => words n (f l)
  have hy : (s.writeLanes c.cur.unit d n c.lm m kp f fl).warp? t w =
      some ((x.writeV d n c.lm m kp fun l => words n (f l)).orFst fl) := by
    rw [hw]; simp [h.2.2]
  obtain ⟨z, h1, h2, h3⟩ := h.retires (by rw [hw]; exact onlyUnit_modWarp ..) hy
    (fun k => by have := congrArg (fun y : Warp => y.frag? k) hr; cases k <;> exact this)
    (by have := congrArg Warp.spill hr; exact this)
    ⟨by have := congrArg Warp.last hr; exact this, by have := congrArg Warp.run hr; exact this,
      by have := congrArg Warp.other hr; exact this⟩
  refine ⟨z, h1, ?_, ?_, fun r l hl => ?_⟩
  · rw [h2]; have e := congrArg (fun y : Warp => { y.still with fst := x.fst }) hr; exact e
  · have e : z.fst = ((x.writeV d n c.lm m kp fun l => words n (f l)).orFst fl).fst := by
      have e := congrArg Warp.fst h2; exact e
    rw [e]; have e := congrArg (fun y : Warp => y.fst ||| fl) hr; exact e
  · rw [h3]
    by_cases hm : r ∈ marksOf x.regs i
    · rw [if_pos hm, if_pos hm]; rfl
    · rw [if_neg hm, if_neg hm]
      have e : ((x.writeV d n c.lm m kp fun l => words n (f l)).orFst fl).vr r =
          (x.writeV d n c.lm m kp fun l => words n (f l)).vr r := rfl
      rw [e, Warp.vr_writeV]
      by_cases hd : d ≤ r ∧ r < d + n
      · rw [if_pos hd, if_pos hd, tget_vmerge _ _ _ _ _ _ hl, words_getD _ _ _ (by omega)]
      · rw [if_neg hd, if_neg hd]

/-- The bits of a lane map built from a test. -/
@[simp] theorem laneMap_getLsbD (p : Nat → Bool) (l : Nat) : (laneMap p).getLsbD l = (decide (l < 32) && p l) := by
  unfold laneMap
  rw [BitVec.getLsbD_setWidth, BitVec.getLsbD_ofBoolListLE]
  by_cases h : l < 32 <;> simp [h]

theorem pmerge_map (lm e : Lanes) (kp : Bool) (old : PReg) (f : Nat → Bool) (l : Nat) (h : l < 32) :
    (pmerge lm e kp old f).map.getLsbD l = (e.getLsbD l || (old.map.getLsbD l && (kp || !lm.getLsbD l))) := by
  unfold pmerge; dsimp only; rw [laneMap_getLsbD]; simp only [h, decide_true, Bool.true_and]

theorem pmerge_val (lm e : Lanes) (kp : Bool) (old : PReg) (f : Nat → Bool) (l : Nat) (h : l < 32)
    (hm : (pmerge lm e kp old f).map.getLsbD l = true) :
    (pmerge lm e kp old f).val.getLsbD l = if e.getLsbD l then f l else old.val.getLsbD l := by
  rw [pmerge_map _ _ _ _ _ _ h] at hm
  simp only [pmerge, laneMap_getLsbD, h, decide_true, Bool.true_and]
  split <;> simp_all

/-- The template of the forms with a predicate destination (07_registers R161; 08_lane_arithmetic R186). -/
theorem WarpIssues.predDone {s : State} {c : Ctx} {i : Instr} {t w : Nat} {x : Warp} (h : WarpIssues s c i t w x)
    (d : Nat) (kp : Bool) (m : Lanes) (f : Nat → Bool) (fl : Word) :
    PredDone s (s.retire (s.writePred c.cur.unit d c.lm m kp f fl) c i) c i t w x d kp m f fl := by
  have hw : s.writePred c.cur.unit d c.lm m kp f fl =
      s.modWarp t w fun x => (x.setP d (pmerge c.lm m kp (x.pr d) f)).orFst fl := by
    unfold State.writePred; rw [h.2.1]
  have hy : (s.writePred c.cur.unit d c.lm m kp f fl).warp? t w = some ((x.setP d (pmerge c.lm m kp (x.pr d) f)).orFst fl) := by
    rw [hw]; simp [h.2.2]
  have hp (r : Nat) : ((x.setP d (pmerge c.lm m kp (x.pr d) f)).orFst fl).pr r =
      if d = r then pmerge c.lm m kp (x.pr d) f else x.pr r := Warp.pr_setP _ _ _ _
  obtain ⟨p', hp'⟩ : ∃ p', (x.setP d (pmerge c.lm m kp (x.pr d) f)).orFst fl = { x with p := p', fst := x.fst ||| fl } := ⟨_, rfl⟩
  rw [hp'] at hp hy
  clear hp'
  obtain ⟨z, h1, h2, h3⟩ := h.retires (by rw [hw]; exact onlyUnit_modWarp ..) hy (fun k => by cases k <;> rfl) rfl ⟨rfl, rfl, rfl⟩
  have e : z.p = p' := by have e := congrArg Warp.p h2; exact e
  have hz (r : Nat) : z.pr r = Warp.pr { x with p := p', fst := x.fst ||| fl } r := by unfold Warp.pr; rw [e]
  have hd : z.pr d = pmerge c.lm m kp (x.pr d) f := by rw [hz, hp, if_pos rfl]
  have hf : z.fst = x.fst ||| fl := by have e := congrArg Warp.fst h2; exact e
  have ho (r : Nat) (hr : r ≠ d) : z.pr r = x.pr r := by rw [hz, hp, if_neg (Ne.symm hr)]
  refine ⟨z, h1, by rw [h2]; rfl, hf, h3, ho, fun l hl => ?_⟩
  rw [hd]
  exact ⟨pmerge_map _ _ _ _ _ _ hl, pmerge_val _ _ _ _ _ _ hl⟩

/-- The template of the forms with scalar destinations, in a warp (07_registers R162). -/
theorem WarpIssues.scalarDone {s : State} {c : Ctx} {i : Instr} {t w : Nat} {x : Warp} (h : WarpIssues s c i t w x)
    (d : Nat) (v : List Word) : ScalarDone s (s.retire (s.setScal c.cur.unit d v) c i) c i t w x d v := by
  have hw : s.setScal c.cur.unit d v = s.modWarp t w fun x => { x with regs := x.regs.setSs d v } := by
    unfold State.setScal State.modRegs; rw [h.2.1]
  have hy : (s.setScal c.cur.unit d v).warp? t w = some { x with regs := x.regs.setSs d v } := by
    rw [hw]; simp [h.2.2]
  obtain ⟨z, h1, h2, h3⟩ := h.retires (by rw [hw]; exact onlyUnit_modWarp ..) hy (fun k => by cases k <;> rfl) rfl ⟨rfl, rfl, rfl⟩
  have e : z.regs = x.regs.setSs d v := by have e := congrArg Warp.regs h2; exact e
  exact ⟨z, h1, by rw [h2]; rfl, h3, by rw [e]; exact Regs.setSs_rest .., fun n => by rw [e, Regs.s_setSs]⟩

/-- A retiring instruction of a context that has changed that context alone. -/
theorem CccIssues.retires {s s' : State} {c : Ctx} {i : Instr} {t k : Nat} {x y : Ccc} (h : CccIssues s c i t k x)
    (ho : OnlyUnit s s' (.ccc t k)) (hy : s'.ccc? t k = some y) (hf : y.frag = x.frag) :
    ∃ z, CccRetires s (s.retire s' c i) c t k z ∧ { z with frag := y.frag } = y := by
  obtain ⟨-, hu, hx⟩ := h
  have hr : s.retire s' c i = s'.modCcc t k fun x => { x with frag := x.frag.advance c.hdr.len } := by
    unfold State.retire State.settleIssue State.modFrag; rw [hu]
  have h3 : OnlyUnit s (s.retire s' c i) (.ccc t k) := by rw [hr]; exact ho.trans (onlyUnit_modCcc ..)
  refine ⟨{ y with frag := y.frag.advance c.hdr.len }, ⟨h3, h3.sameMem, ?_, by rw [hr]; simp [hy]⟩, rfl⟩
  simp [Advanced, State.frag?, hu, hr, hx, hy, hf]

/-- The template of the forms with scalar destinations, in a context. -/
theorem CccIssues.scalarDone {s : State} {c : Ctx} {i : Instr} {t k : Nat} {y : Ccc} (h : CccIssues s c i t k y)
    (d : Nat) (v : List Word) : CccScalarDone s (s.retire (s.setScal c.cur.unit d v) c i) c t k y d v := by
  have hw : s.setScal c.cur.unit d v = s.modCcc t k fun x => { x with regs := x.regs.setSs d v } := by
    unfold State.setScal State.modRegs; rw [h.2.1]
  have hy : (s.setScal c.cur.unit d v).ccc? t k = some { y with regs := y.regs.setSs d v } := by
    rw [hw]; simp [h.2.2]
  obtain ⟨z, h1, h2⟩ := h.retires (by rw [hw]; exact onlyUnit_modCcc ..) hy rfl
  have e : z.regs = y.regs.setSs d v := by have e := congrArg Ccc.regs h2; exact e
  refine ⟨z, h1, ?_, by rw [e]; exact Regs.setSs_rest .., fun n => by rw [e, Regs.s_setSs]⟩
  have e' := congrArg (fun z : Ccc => { z with regs := y.regs }) h2
  exact e'

/-- A lane form that does not trap retires with its lanes written (08_lane_arithmetic R186). -/
theorem laneRun_retires {i : Instr} {e : Env} {c : Ctx} {s : State} {strict : Bool} {ops : List (List OpRec)} {n : Nat}
    {f : Nat → Nat} {fl : Nat → Word} (h : strictTrap e strict ops = none) :
    laneRun i e c s strict ops n f fl =
      .retire (s.writeLanes c.cur.unit e.dst n e.lm (effMap e ops) (dKp (shape i)) f
        (flagsOr ((lanesOf (effMap e ops)).map fl))) := by
  unfold laneRun; rw [h]

theorem predRun_retires {i : Instr} {e : Env} {c : Ctx} {s : State} {strict : Bool} {ops : List (List OpRec)}
    {f : Nat → Bool} {fl : Nat → Word} (h : strictTrap e strict ops = none) :
    predRun i e c s strict ops f fl =
      .retire (s.writePred c.cur.unit e.dst e.lm (effMap e ops) (dKp (shape i)) f
        (flagsOr ((lanesOf (effMap e ops)).map fl))) := by
  unfold predRun; rw [h]

/-- A strict form whose operands differ within L traps (08_lane_arithmetic R187). -/
theorem laneRun_traps {i : Instr} {e : Env} {c : Ctx} {s : State} {strict : Bool} {ops : List (List OpRec)} {n : Nat}
    {f : Nat → Nat} {fl : Nat → Word} {ti : TrapInfo} (h : strictTrap e strict ops = some ti) :
    laneRun i e c s strict ops n f fl = .trap ti s := by
  unfold laneRun; rw [h]

/-- A form that runs the lane template has its effect where it issues and does not trap. -/
theorem laneForm {s : State} {c : Ctx} {i : Instr} {t w : Nat} {x : Warp} (h : WarpIssues s c i t w x)
    {body : Env → Ctx → State → Res} {strict : Bool} {ops : List (List OpRec)} {n : Nat} {f : Nat → Nat} {fl : Nat → Word}
    (hb : body (s.envOf c i) c s = laneRun i (s.envOf c i) c s strict ops n f fl)
    (hs : strictTrap (s.envOf c i) strict ops = none) :
    ∃ s', issueOps s i body = .next s' ∧ LaneDone s s' c i t w x (s.envOf c i).dst n (dKp (shape i)) (effMap (s.envOf c i) ops) f
      (flagsOr ((lanesOf (effMap (s.envOf c i) ops)).map fl)) := by
  rw [issueOps_next h.1, hb, laneRun_retires hs]
  exact ⟨_, rfl, h.laneDone ..⟩

theorem predForm {s : State} {c : Ctx} {i : Instr} {t w : Nat} {x : Warp} (h : WarpIssues s c i t w x)
    {body : Env → Ctx → State → Res} {strict : Bool} {ops : List (List OpRec)} {f : Nat → Bool} {fl : Nat → Word}
    (hb : body (s.envOf c i) c s = predRun i (s.envOf c i) c s strict ops f fl)
    (hs : strictTrap (s.envOf c i) strict ops = none) :
    ∃ s', issueOps s i body = .next s' ∧ PredDone s s' c i t w x (s.envOf c i).dst (dKp (shape i)) (effMap (s.envOf c i) ops) f
      (flagsOr ((lanesOf (effMap (s.envOf c i) ops)).map fl)) := by
  rw [issueOps_next h.1, hb, predRun_retires hs]
  exact ⟨_, rfl, h.predDone ..⟩

/-- A scalar form has its effect wherever it issues. -/
theorem scalarForm_warp {s : State} {c : Ctx} {i : Instr} {t w : Nat} {x : Warp} (h : WarpIssues s c i t w x)
    {body : Env → Ctx → State → Res} {n v : Nat} (hb : body (s.envOf c i) c s = scalRun n v (s.envOf c i) c s) :
    ∃ s', issueOps s i body = .next s' ∧ ScalarDone s s' c i t w x (s.envOf c i).dst (words n v) := by
  rw [issueOps_next h.1, hb]
  exact ⟨_, rfl, h.scalarDone ..⟩

theorem scalarForm_ccc {s : State} {c : Ctx} {i : Instr} {t k : Nat} {y : Ccc} (h : CccIssues s c i t k y)
    {body : Env → Ctx → State → Res} {n v : Nat} (hb : body (s.envOf c i) c s = scalRun n v (s.envOf c i) c s) :
    ∃ s', issueOps s i body = .next s' ∧ CccScalarDone s s' c t k y (s.envOf c i).dst (words n v) := by
  rw [issueOps_next h.1, hb]
  exact ⟨_, rfl, h.scalarDone ..⟩

end Sys2Proof.Machine
end

