-- ==== Sys2Proof/Laws/Memory.lean ====
section
/-!
SUPPORT. The laws of memory: every operation on it keeps the canonical form, and what a byte reads as after a write.
-/
namespace Sys2Proof.Machine

/-- Deleting and putting keep the form, whatever the list of changes. -/
theorem tsorted_fold_del (l : List Nat) (g : Nat → Nat) (m : List Host.Cell) (h : tsorted 0 m = true) :
    tsorted 0 (l.foldl (fun m i => tdel m (g i)) m) = true := by
  induction l generalizing m with
  | nil => exact h
  | cons a l ih => exact ih _ (tsorted_tdel _ h)

theorem tsorted_fold_put (l : List (Byte × Nat)) (a : Nat) (m : List Host.Cell) (h : tsorted 0 m = true) :
    tsorted 0 (l.foldl (fun m e => tput m (a + e.2) e.1) m) = true := by
  induction l generalizing m with
  | nil => exact h
  | cons e l ih => exact ih _ (tsorted_tput _ (Nat.zero_le _) h)

theorem tget_fold_del (l : List Nat) (g : Nat → Nat) (m : List Host.Cell) (b : Nat) :
    tget (l.foldl (fun m i => tdel m (g i)) m) b = if b ∈ l.map g then none else tget m b := by
  induction l generalizing m with
  | nil => simp
  | cons a l ih =>
    rw [List.foldl_cons, ih, tget_tdel]
    grind

theorem tget_fold_put (l : List Byte) (k a : Nat) (m : List Host.Cell) (b : Nat) :
    tget ((l.zip (List.range' k l.length)).foldl (fun m e => tput m (a + e.2) e.1) m) b =
      if a + k ≤ b ∧ b < a + k + l.length then l[b - (a + k)]? else tget m b := by
  induction l generalizing k m with
  | nil => simp <;> omega
  | cons x l ih =>
    rw [List.length_cons, List.range'_succ, List.zip_cons_cons, List.foldl_cons, ih, tget_tput]
    exact run_succ (f := fun j => (x :: l)[j]?) (g := fun j => l[j]?) (fun _ => rfl) (a + k) b l.length _

/-- A write changes its unit's key and bytes, as 03_memory_tiers R71 says, and no other byte. -/
theorem State.baseByte_commit (s : State) (w : Write) (a b : Nat) (h : a % 16 + w.bytes.length ≤ 16) (ha : a = w.addr) :
    (s.commit w a).baseByte b = if b / 16 = a / 16 then (s.baseByte b).apply w b else s.baseByte b := by
  have hm := tget_fold_put w.bytes 0 a
  rw [← List.range_eq_range'] at hm
  have ht : w.bytes.take (16 - a % 16) = w.bytes := List.take_of_length_le (by omega)
  unfold State.commit State.baseByte ByteSt.apply
  dsimp only
  rw [ht]
  by_cases hk : (tget s.keys (a / 16)).map (·.key) = some w.key
  · simp only [hk, if_true, hm]
    by_cases hu : b / 16 = a / 16
    · simp only [hu, hk, if_true]
      subst ha
      by_cases hb : w.addr + 0 ≤ b ∧ b < w.addr + 0 + w.bytes.length
      · have h1 : w.addr ≤ b := by omega
        have h2 : b < w.addr + w.bytes.length := by omega
        simp [h1, h2]
      · rw [if_neg hb]
        have h1 : (decide (w.addr ≤ b) && decide (b < w.addr + w.bytes.length)) = false := by simp; omega
        rw [h1]; rfl
    · rw [if_neg hu, if_neg (by omega)]
  · simp only [hk, if_false, hm, tget_fold_del, tget_tput]
    by_cases hu : b / 16 = a / 16
    · simp only [hu, hk, if_true, if_false]
      have hd : b ∈ (List.range 16).map (fun i => 16 * (a / 16) + i) := by
        simp only [List.mem_map, List.mem_range]
        exact ⟨b % 16, by omega, by omega⟩
      subst ha
      by_cases hb : w.addr + 0 ≤ b ∧ b < w.addr + 0 + w.bytes.length
      · have h1 : w.addr ≤ b := by omega
        have h2 : b < w.addr + w.bytes.length := by omega
        simp [h1, h2]
      · have h1 : (decide (w.addr ≤ b) && decide (b < w.addr + w.bytes.length)) = false := by simp; omega
        rw [if_neg hb, if_pos hd, h1]; rfl
    · have hd : ¬ b ∈ (List.range 16).map (fun i => 16 * (a / 16) + i) := by
        simp only [List.mem_map, List.mem_range, not_exists, not_and]
        omega
      rw [if_neg hu, if_neg (fun e : a / 16 = b / 16 => hu e.symm), if_neg hd, if_neg (by omega)]

/-- Memory after reset is in canonical form. -/
theorem State.memWf_reset : State.reset.MemWf := ⟨rfl, rfl⟩

/-- What leaves memory and its keys as they are keeps the form. -/
theorem State.MemWf.congr {s t : State} (h : s.MemWf) (hm : t.mem = s.mem) (hk : t.keys = s.keys) : t.MemWf := by
  unfold State.MemWf; rw [hm, hk]; exact h

/-- A write put into memory keeps the form. -/
theorem State.MemWf.commit {s : State} (h : s.MemWf) (w : Write) (a : Nat) : (s.commit w a).MemWf := by
  refine ⟨?_, ?_⟩
  · refine tsorted_fold_put _ _ _ ?_
    split
    · exact h.1
    · exact tsorted_fold_del _ _ _ h.1
  · show tsorted 0 (if _ then _ else _) = true
    split
    · exact h.2
    · exact tsorted_tput _ (Nat.zero_le _) h.2

/-- A list of changes that each keep the form keeps it. -/
theorem State.MemWf.foldl {α : Type} {g : State → α → State} (hg : ∀ s a, s.MemWf → (g s a).MemWf) (l : List α) {s : State}
    (h : s.MemWf) : (l.foldl g s).MemWf := by
  induction l generalizing s with
  | nil => exact h
  | cons a l ih => exact ih (hg _ _ h)

/-- Moving what is applied everywhere into memory keeps the form. -/
theorem State.MemWf.retireDone {s : State} (h : s.MemWf) : s.retireDone.MemWf := by
  unfold State.retireDone
  refine h.foldl (fun s w hs => ?_) _
  dsimp only
  split
  · exact (hs.commit w w.addr).congr rfl rfl
  · exact hs

/-- The check values of blocks are apart from memory. -/
@[simp] theorem State.recheck_mem (s0 s : State) (w : Write) (b : Bool) : (s0.recheck s w b).mem = s.mem := by
  unfold State.recheck; dsimp only; split <;> rfl

@[simp] theorem State.recheck_keys (s0 s : State) (w : Write) (b : Bool) : (s0.recheck s w b).keys = s.keys := by
  unfold State.recheck; dsimp only; split <;> rfl

/-- Caches are apart from memory. -/
@[simp] theorem State.dropCaches_mem (s : State) (c : Option Nat) (n : Nat) : (s.dropCaches c n).mem = s.mem := by cases c <;> rfl

@[simp] theorem State.dropCaches_keys (s : State) (c : Option Nat) (n : Nat) : (s.dropCaches c n).keys = s.keys := by cases c <;> rfl

@[simp] theorem State.acqDrop_mem (s : State) (u : UnitId) (n : Nat) : (s.acqDrop u n).mem = s.mem := by
  unfold State.acqDrop; split <;> simp

@[simp] theorem State.acqDrop_keys (s : State) (u : UnitId) (n : Nat) : (s.acqDrop u n).keys = s.keys := by
  unfold State.acqDrop; split <;> simp

/-- Scratchpad is apart from memory. -/
@[simp] theorem State.setSp_mem (s : State) (t ci off : Nat) (l : List Byte) : (s.setSp t ci off l).mem = s.mem := rfl

@[simp] theorem State.setSp_keys (s : State) (t ci off : Nat) (l : List Byte) : (s.setSp t ci off l).keys = s.keys := rfl

@[simp] theorem State.passed_mem (s : State) (u : UnitId) (n : Nat) (t : Target) (a l : Nat) : (s.passed u n t a l).mem = s.mem := by
  unfold State.passed; cases u <;> rfl

@[simp] theorem State.passed_keys (s : State) (u : UnitId) (n : Nat) (t : Target) (a l : Nat) : (s.passed u n t a l).keys = s.keys := by
  unfold State.passed; cases u <;> rfl

/-- What a write's performance marks is apart from memory. -/
@[simp] theorem State.performed_mem (s : State) (w : Write) : (s.performed w).mem = s.mem := by
  unfold State.performed; split <;> simp

@[simp] theorem State.performed_keys (s : State) (w : Write) : (s.performed w).keys = s.keys := by
  unfold State.performed; split <;> simp

@[simp] theorem State.performedAt_mem (s : State) (w : Write) (d : Nat) : (s.performedAt w d).mem = s.mem := by
  unfold State.performedAt; split <;> simp

@[simp] theorem State.performedAt_keys (s : State) (w : Write) (d : Nat) : (s.performedAt w d).keys = s.keys := by
  unfold State.performedAt; split <;> simp

theorem State.MemWf.performedAt {s : State} (h : s.MemWf) (w : Write) (d : Nat) : (s.performedAt w d).MemWf := h.congr (by simp) (by simp)

/-- The application of a write at a die keeps the form. -/
theorem State.MemWf.applyWrite {s : State} (h : s.MemWf) (id d : Nat) : (s.applyWrite id d).MemWf := by
  unfold State.applyWrite
  dsimp only
  split
  · split
    · exact h
    · split
      · split
        · exact h
        · exact h.congr (by simp) (by simp)
      · exact h
      · split
        · split
          · exact h
          · exact h.congr rfl rfl
        · split
          · exact h.congr (by simp) (by simp)
          · exact h
  · split
    · exact h
    · split
      · refine State.MemWf.performedAt ?_ _ _
        split
        · exact State.MemWf.retireDone (h.congr rfl rfl)
        · exact h.congr rfl rfl
      · exact h

/-- Bytes placed in memory keep its form. -/
theorem tsorted_putCells (m : List Host.Cell) (a : Nat) (l : List Byte) (h : tsorted 0 m = true) :
    tsorted 0 (State.withFetchWord.putCells m a l) = true := by
  induction l generalizing m a with
  | nil => exact h
  | cons b l ih => exact ih _ _ (tsorted_tput _ (Nat.zero_le _) h)

theorem State.MemWf.withFetchWord {s : State} (h : s.MemWf) (n w : Nat) : (s.withFetchWord n w).MemWf :=
  ⟨tsorted_putCells _ _ _ h.1, tsorted_tput _ (Nat.zero_le _) h.2⟩

/-- A key load keeps the form (03_memory_tiers R71). -/
theorem State.MemWf.keyInstall {s : State} (h : s.MemWf) : s.keyInstall.MemWf := by
  unfold State.keyInstall
  dsimp only
  split
  · exact h
  · split
    · exact ⟨tsorted_filter _ h.1, tsorted_map _ h.2⟩
    · exact ⟨tsorted_filter _ h.1, tsorted_map _ h.2⟩

/-- Module reset keeps the form. -/
theorem State.MemWf.moduleReset {s : State} (h : s.MemWf) : s.moduleReset.MemWf := ⟨rfl, tsorted_map _ h.2⟩

/-- A scratchpad byte after a run of bytes is written (04_caches_scratchpad R89). -/
theorem tgetD_putBytes (m : Table Byte) (off : Nat) (l : List Byte) (b : Nat) :
    tgetD (putBytes m off l) b 0 = if off ≤ b ∧ b < off + l.length then l.getD (b - off) 0 else tgetD m b 0 := by
  induction l generalizing m off with
  | nil => simp [putBytes] <;> omega
  | cons x l ih =>
    rw [putBytes, ih, tgetD_tset, List.length_cons]
    exact run_succ (f := fun j => (x :: l).getD j 0) (g := fun j => l.getD j 0) (fun _ => rfl) off b l.length _

theorem State.spByte_setSp (s : State) (t ci off g cj o : Nat) (l : List Byte) (hx : ((s.team? t).bind fun x => x.scratch[ci]?).isSome) :
    (s.setSp t ci off l).spByte g cj o =
      if g = t ∧ cj = ci ∧ off ≤ o ∧ o < off + l.length then l.getD (o - off) 0 else s.spByte g cj o := by
  unfold State.setSp State.spByte
  rw [State.team?_modTeam]
  by_cases h : t = g
  · subst h
    obtain ⟨x, hx'⟩ : ∃ x, s.team? t = some x := by cases e : s.team? t <;> simp [e] at hx ⊢
    rw [hx'] at hx
    simp only [Option.bind_some] at hx
    simp only [hx', if_true, Option.map_some, Option.bind_some, getElem?_lmod, true_and]
    by_cases h' : ci = cj
    · subst h'
      obtain ⟨m, hm⟩ := Option.isSome_iff_exists.mp hx
      simp only [hm, if_true, Option.map_some, Option.getD_some, true_and]
      exact tgetD_putBytes _ _ _ _
    · rw [if_neg h', if_neg (fun e => h' e.1.symm)]
  · rw [if_neg h, if_neg (fun e => h e.1.symm)]

end Sys2Proof.Machine
end

