-- ==== Sys2Proof/Tests/Slice0.lean ====
section
/-!
SUPPORT. The author's own tests: ill-formed terms are refused, words written out from the spec's encodings decode to what they
stand for, one small result per form, and for every obligation with hypotheses a concrete state that meets them.
-/
namespace Sys2Proof.Tests

-- One test at a time: each holds its own evaluation in memory.
set_option Elab.async false

open Sys2Proof Sys2Proof.Machine

/-- The lanes of a map with values by lane number. -/
def laneVals (m : Lanes) (f : Nat → Nat) : VReg := (lanesOf m).map fun l => (l, BitVec.ofNat 32 (f l))

/-- A warp that stands at the one word of a clause, with v2 = 3 + lane in lanes 0 to 3, v3 = 2 · lane in lanes 2 to 5, p1 present
in lanes 0 to 3 and true in lanes 1 and 2, s4 = 0x1000 and s18 = 3. -/
def warpState : State :=
  ({ State.reset.withFetchWord 64 0 with cur := some ⟨.warp 1 0, .live0⟩ } : State).modWarp 1 0 fun x =>
    { x with
      live0 := x.live0.map fun f => { f with hdr := some fetchHeader }
      v := [(2, laneVals 0x0F#32 (· + 3)), (3, laneVals 0x3C#32 (2 * ·))]
      p := [(1, ⟨0x0F#32, 0x06#32⟩)]
      regs := { x.regs with sc := [(4, 0x1000#32), (18, 3#32)] } }

/-- The same warp changed by `g`. -/
def warpWith (g : Warp → Warp) : State := warpState.modWarp 1 0 g

/-- An instruction issues from warp 0 of team 1, and `p` holds of the context and the warp. -/
def warpOk (s : State) (i : Instr) (p : Ctx → Warp → Bool) : Bool :=
  match s.ctx?, s.warp? 1 0 with
  | some c, some x => decide (c.cur.unit = .warp 1 0) && (issueCheck s c i).isNone && p c x
  | _, _ => false

/-- The hypotheses of a statement about an instruction of a warp are met. -/
def Meets (s : State) (i : Instr) (p : Ctx → Warp → Bool) : Prop := ∃ c x, WarpIssues s c i 1 0 x ∧ p c x = true

theorem meets_of_ok {s : State} {i : Instr} {p : Ctx → Warp → Bool} (h : warpOk s i p = true) : Meets s i p := by
  unfold warpOk at h
  split at h
  · rename_i c x hc hx
    simp only [Bool.and_eq_true, decide_eq_true_eq, Option.isNone_iff_eq_none] at h
    exact ⟨c, x, ⟨⟨hc, h.1.2⟩, h.1.1, hx⟩, h.2⟩
  · cases h

/-- Several instructions of one shape at once. -/
theorem meets_all {s : State} {l : List Instr} {p : Instr → Ctx → Warp → Bool} (h : l.all (fun i => warpOk s i (p i)) = true) :
    ∀ i ∈ l, Meets s i (p i) := fun i hi => meets_of_ok (List.all_eq_true.mp h i hi)

/-- No further condition. -/
def always (_ : Ctx) (_ : Warp) : Bool := true

/-- A CCC context that stands at the one word of a clause, with s4 = 0x1000 and s18 = 3. -/
def cccState : State :=
  ({ State.reset.withFetchWord 64 0 with cur := some ⟨.ccc 1 0, .ctx⟩ } : State).modCcc 1 0 fun y =>
    { y with
      frag := { y.frag with hdr := some fetchHeader }
      regs := { y.regs with sc := [(4, 0x1000#32), (18, 3#32)] } }

/-- An instruction issues from context 0 of team 1, and `p` holds. -/
def cccOk (s : State) (i : Instr) (p : Ctx → Ccc → Bool) : Bool :=
  match s.ctx?, s.ccc? 1 0 with
  | some c, some y => decide (c.cur.unit = .ccc 1 0) && (issueCheck s c i).isNone && p c y
  | _, _ => false

/-- The hypotheses of a statement about an instruction of a context are met. -/
def CccMeets (s : State) (i : Instr) (p : Ctx → Ccc → Bool) : Prop := ∃ c y, CccIssues s c i 1 0 y ∧ p c y = true

theorem cccMeets_of_ok {s : State} {i : Instr} {p : Ctx → Ccc → Bool} (h : cccOk s i p = true) : CccMeets s i p := by
  unfold cccOk at h
  split at h
  · rename_i c y hc hy
    simp only [Bool.and_eq_true, decide_eq_true_eq, Option.isNone_iff_eq_none] at h
    exact ⟨c, y, ⟨⟨hc, h.1.2⟩, h.1.1, hy⟩, h.2⟩
  · cases h

/-- Several instructions of contexts at once. -/
theorem cccMeets_all {s : State} {l : List Instr} {p : Instr → Ctx → Ccc → Bool} (h : l.all (fun i => cccOk s i (p i)) = true) :
    ∀ i ∈ l, CccMeets s i (p i) := fun i hi => cccMeets_of_ok (List.all_eq_true.mp h i hi)

/-- The state after an instruction, where there is one. -/
def after (i : Instr) (s : State) : State :=
  match exec i s with
  | .next t => t
  | _ => State.reset

/-- A vector register of warp 0 of team 1, and one of its scalars. -/
def vOf (s : State) (r : Nat) : VReg := ((s.warp? 1 0).map (·.vr r)).getD []
def sOf (s : State) (r : Nat) : Word := ((s.warp? 1 0).map fun x => x.regs.s r).getD 0

/-- A plain register field, a generic word, an immediate word. -/
def rf (n : Nat) : RF := ⟨false, false, BitVec.ofNat 8 n⟩
def gw (d a b : Nat) : GenW := ⟨rf d, rf a, rf b, 1, 0, false, false, 0, false, false, false, 0, 0, 0⟩
def gi (d a b : Nat) : GI := .reg (gw d a b)
def iw' (d a : Nat) (n : Nat) : ImmW := ⟨rf d, rf a, 0, false, 1, BitVec.ofNat 24 n⟩

/-- A write in flight, from the warp, applied at die 0 alone. -/
def someWrite (id : Nat) (repl : Bool) (dies locked : List Nat) : Write :=
  ⟨id, some (.warp 1 0), 5, 0, 1, 0x1000, .glob, 0x1000, [1, 2, 3, 4], 1, repl, 0x10000, false, 0, none, true, [], dies, locked⟩
/-- Nothing is cached, and the owner entry of owner 1 has just been written: a lookup is not over. -/
def opened (s : State) : State := { s with tlbs := [], flight := [{ someWrite 9 false [0] [] with addr := 0x20 }] }

/-! ## Results by hand from the spec's own words: lanes 2 and 3 are common to v2 = 5, 6 and v3 = 4, 6. -/

theorem test_iadd : vOf (after (.iadd (gi 1 2 3)) warpState) 1 = [(2, 9#32), (3, 12#32)] := by decide +kernel
theorem test_isub_immediate : vOf (after (.isub (.imm (iw' 1 2 4))) warpState) 1 =
    [(0, 0xFFFFFFFF#32), (1, 0#32), (2, 1#32), (3, 2#32)] := by decide +kernel
theorem test_iadd_wraps : vOf (after (.iadd (.imm (iw' 1 2 0xFFFFFA))) warpState) 1 =
    [(0, 0xFFFFFFFD#32), (1, 0xFFFFFFFE#32), (2, 0xFFFFFFFF#32), (3, 0#32)] := by decide +kernel
theorem test_iadd_source_is_destination : vOf (after (.iadd (gi 2 2 3)) warpState) 2 = [(2, 9#32), (3, 12#32)] := by decide +kernel
theorem test_imul : vOf (after (.imul (gi 1 2 3)) warpState) 1 = [(2, 20#32), (3, 36#32)] := by decide +kernel

theorem test_witness_IntegerArithmetic :
    (∀ i ∈ [Instr.iadd (gi 1 2 3), .isub (.imm (iw' 1 2 4)), .imin (gi 1 2 3), .imax (gi 1 2 3), .imul (gi 1 2 3), .iabs (gw 1 2 0),
      .imulhi (gw 1 2 3), .imad (gw 1 2 3), .cvt (gw 1 2 0), .lea (gi 1 2 3), .lea (.imm (iw' 1 2 4))],
      Meets warpState i always) ∧
    Meets warpState (.iadd (.reg { gw 1 2 3 with strict := true })) fun c _ =>
      occMism c.lm (opsAB (warpState.envOf c (.iadd (.reg { gw 1 2 3 with strict := true })))) :=
  ⟨meets_all (by decide +kernel), meets_of_ok (by decide +kernel)⟩

theorem test_witness_BitForms :
    (∀ i ∈ [Instr.and (gi 1 2 3), .or (gi 1 2 3), .xor (gi 1 2 3), .shl (gi 1 2 3), .shr (gi 1 2 3),
      .sar (.reg { gw 1 2 3 with ty := 0 }), .popc (gw 1 2 0), .clz (gw 1 2 0), .brev (gw 1 2 0), .bfe (gw 1 2 3), .bfi (gw 1 2 3)],
      Meets warpState i fun _ _ => legal i) ∧
    Meets warpState (.shl (.reg { gw 1 2 3 with strict := true })) fun c _ =>
      occMism c.lm (opsAB (warpState.envOf c (.shl (.reg { gw 1 2 3 with strict := true })))) :=
  ⟨meets_all (by decide +kernel), meets_of_ok (by decide +kernel)⟩

theorem test_shl_uses_the_amount_modulo_32 : vOf (after (.shl (.imm (iw' 1 2 33))) warpState) 1 =
    [(0, 6#32), (1, 8#32), (2, 10#32), (3, 12#32)] := by decide +kernel
theorem test_popc : vOf (after (.popc (gw 1 2 0)) warpState) 1 = [(0, 2#32), (1, 1#32), (2, 2#32), (3, 2#32)] := by decide +kernel
theorem test_clz : vOf (after (.clz (gw 1 2 0)) warpState) 1 = [(0, 30#32), (1, 29#32), (2, 29#32), (3, 29#32)] := by decide +kernel

theorem test_witness_SelectCompareMove :
    (∀ i ∈ [Instr.not (gw 1 2 0), .sel { gw 1 2 3 with opx := 1 }, .mov (gw 1 2 0), .movi (iw' 1 0 7), .movh (iw' 2 0 7), .icmp .eq (gi 2 2 3),
      .icmp .ne (gi 2 2 3), .icmp .lt (gi 2 2 3), .icmp .le (gi 2 2 3), .icmp .gt (gi 2 2 3), .icmp .ge (gi 2 2 3)],
      Meets warpState i always) ∧
    Meets warpState (.icmp .lt (.reg { gw 2 2 3 with strict := true })) fun c _ =>
      occMism c.lm (opsAB (warpState.envOf c (.icmp .lt (.reg { gw 2 2 3 with strict := true })))) :=
  ⟨meets_all (by decide +kernel), meets_of_ok (by decide +kernel)⟩

theorem test_witness_OperandsAndDelivery :
    (warpState.warp? 1 0).any (fun x => tget (x.vr 2) 3 == some 6#32 && x.regs.s 18 == 3) = true ∧
    intOf 1 (deliver 1 true 300) = 300 ∧ intOf 0 (deliver 0 true (2 ^ 40)) = 2 ^ 31 - 1 ∧ intOf 1 (deliver 1 false (-1)) = 2 ^ 32 - 1 := by
  decide +kernel

/-! ## Floating point: v2 holds 1.0, 2.0, a signalling NaN and the largest number, v3 holds 1.0 everywhere. -/

/-- FP32 operands. -/
def fpState : State := warpWith fun x => { x with
  v := [(2, [(0, 0x3F800000#32), (1, 0x40000000#32), (2, 0x7F800001#32), (3, 0x7F7FFFFF#32)]), (3, laneVals 0x0F#32 fun _ => 0x3F800000)] }

theorem test_fadd : vOf (after (.fadd (.reg { gw 1 2 3 with ty := 0 })) fpState) 1 =
    [(0, 0x40000000#32), (1, 0x40400000#32), (2, 0x7FC00000#32), (3, 0x7F7FFFFF#32)] := by decide +kernel
theorem test_fadd_flags : ((after (.fadd (.reg { gw 1 2 3 with ty := 0 })) fpState).warp? 1 0).map (·.fst) = some 0x11#32 := by decide +kernel
theorem test_fmul_overflows : (vOf (after (.fmul (.reg { gw 1 2 2 with ty := 0 })) fpState) 1)[3]? = some (3, 0x7F800000#32) := by decide +kernel
theorem test_fsqrt : (vOf (after (.fsqrt { gw 1 2 0 with ty := 0 }) fpState) 1)[1]? = some (1, 0x3FB504F3#32) := by decide +kernel

theorem test_witness_FloatArithmetic :
    (∀ i ∈ [Instr.fadd (gi 1 2 3), .fsub (gi 1 2 3), .fmul (gi 1 2 3), .fmin (gi 1 2 3), .fmax (gi 1 2 3), .ffma (gw 1 2 3)],
      Meets fpState i always) ∧
    (Meets warpState (.fadd (.reg { gw 1 2 3 with strict := true })) fun c _ =>
      occMism c.lm (opsAB (warpState.envOf c (.fadd (.reg { gw 1 2 3 with strict := true }))))) ∧
    (f32.value 0x3F800000 = some 1 ∧ f32.value 0xBF800000 = some (-1) ∧ f32.value 0x40000000 = some 2 ∧ f32.value 0 = some 0 ∧
      f16.value 0x0001 = some (1 / 2 ^ 24) ∧ bf16.value 0x3FC0 = some (3 / 2) ∧ f32.value 0x7F800000 = none) ∧
    (fdec f32 0x7F800000 = .inf false ∧ fdec f32 0xFF800000 = .inf true) ∧
    (f32.place 0x3F800000 = some (0, 1) ∧ f32.place 0xFF800000 = some (-1, 0) ∧ f32.place 0x7F800000 = some (1, 0) ∧ f32.place 0 = f32.place 0x80000000 ∧
      f32.place 0x7FC00000 = none) :=
  ⟨meets_all (by decide +kernel), meets_of_ok (by decide +kernel), by decide +kernel⟩

theorem test_witness_FloatCompareConvert :
    (∀ i ∈ [Instr.fcmp .lt (gi 2 2 3), .fclass (gw 1 2 0), .frnd (gw 1 2 0), .fcvt (gw 1 2 0)], Meets fpState i always) ∧
    Meets warpState (.fcmp .un (.reg { gw 2 2 3 with strict := true })) fun c _ =>
      occMism c.lm (opsAB (warpState.envOf c (.fcmp .un (.reg { gw 2 2 3 with strict := true })))) :=
  ⟨meets_all (by decide +kernel), meets_of_ok (by decide +kernel)⟩

theorem test_witness_FloatFunctionsAndNaNs :
    (∀ i ∈ [Instr.frcp (gw 1 2 0), .frsq (gw 1 2 0), .fsqrt (gw 1 2 0), .fexp2 (gw 1 2 0), .flog2 (gw 1 2 0), .fsin (gw 1 2 0),
      .fcos (gw 1 2 0)], Meets fpState i always) ∧
    (0x80000000 < (0xBF800000#32).toNat ∧ (0xBF800000#32).toNat ≤ 0xFF800000) ∧
    (0x80000000 < (0x80000001#32).toNat ∧ (0xFF800000#32).toNat ≤ 0xFF800000) ∧
    (f32.value 0x3F800000 = some 1 ∧ f32.value 0x40400000 = some 3 ∧ f32.value 0x40000000 = some (2 ^ (1 : Int)) ∧ f32.value 0x40800000 = some (2 ^ (2 * (1 : Int))) ∧
      f32.value 0x43000000 = some 128 ∧ f32.value 0x00200000 = some (2 ^ (-128 : Int)) ∧ f32.value 0xC3960000 = some ((-300 : Int) : ℚ)) ∧
    fdec f32 0x7F800001 = .nan true ∧ fdec f32 0x7FC00000 = .nan false ∧ (fdec f32 0x3F800000).isNan = false :=
  ⟨meets_all (by decide +kernel), by decide +kernel⟩

theorem test_witness_NarrowForms :
    (∀ i ∈ [Instr.kdot4 (gw 1 2 3), .kdot8 (gw 1 2 3), .kscale (gw 1 2 3), .kpack (gw 1 2 3), .kunpack (gw 4 2 3)],
      Meets warpState i always) ∧
    (-(2 ^ 31 - 1) ≤ sextNat 32 5 + 7 ∧ sextNat 32 5 + 7 ≤ 2 ^ 31 - 1) ∧ (2 ^ 31 - 1 < sextNat 32 0x7FFFFFFF + 1) ∧
    (sextNat 32 0x80000001 + (-1) < -(2 ^ 31 - 1)) ∧
    (k8Elem 0x80 0 = none ∧ ∀ i, i < 4 → k8Elem 0x01020304 i = some (4 - i : Int) ∧ k4Elem 0x1234 i = some (4 - i : Int)) ∧
    ((fdec f32 0x7FC00000).isNan = true ∧ fdec f32 0x7F800000 = .inf false ∧ f32.value 0x40A00000 = some 5) :=
  ⟨meets_all (by decide +kernel), by decide +kernel⟩

/-! ## Occupancy, the crossbar -/

theorem test_occ_get : sOf (after (.occGet { gw 20 2 0 with d := rf 20 }) warpState) 20 = 0x0F#32 := by decide +kernel
theorem test_occ_pack : vOf (after (.occPack (gw 1 3 0)) warpState) 1 = [(0, 4#32), (1, 6#32), (2, 8#32), (3, 10#32)] := by
  decide +kernel

theorem test_witness_OccupancyAndLaneMoves :
    (∀ i ∈ [Instr.occGet (gw 20 2 0), .occCnt (gw 20 2 0), .occSet (gw 2 2 0), .occAnd { gw 1 2 18 with bc := 1 },
      .occFill (gw 1 2 3), .occPack (gw 1 2 0), .occUnpack { gw 1 2 18 with bc := 1 }, .sRdl { gw 20 2 18 with bc := 1 },
      .vBcast { gw 1 2 18 with bc := 1 }], Meets warpState i always) ∧
    (∀ i ∈ [Instr.sRdl { gw 20 3 18 with bc := 1, strict := true }, .vBcast { gw 1 3 18 with bc := 1, strict := true }],
      Meets warpState i fun c _ => (opMap (warpState.wideEnv c i).a).getLsbD (opScal (warpState.wideEnv c i).b % 32)) ∧
    ∀ i ∈ [Instr.sRdl { gw 20 3 4 with bc := 1, strict := true }, .vBcast { gw 1 3 4 with bc := 1, strict := true }],
      Meets warpState i fun c _ => !(opMap (warpState.wideEnv c i).a).getLsbD (opScal (warpState.wideEnv c i).b % 32) :=
  ⟨meets_all (by decide +kernel), meets_all (by decide +kernel), meets_all (by decide +kernel)⟩

/-- A crossbar word over all lanes, and with an immediate B. -/
def xb (d a b : Nat) : XbW := ⟨rf d, rf a, rf b, 1, false, true, false, true, 0, false, 0#10⟩

theorem test_scan_add : vOf (after (.scan .add { xb 1 2 0 with mi := true, msk := 0x3E0 }) warpState) 1 =
    [(0, 3#32), (1, 7#32), (2, 12#32), (3, 18#32)] := by decide +kernel
theorem test_red_add_to_a_scalar : sOf (after (.red .add { xb 20 2 0 with mi := true, opt := true, bi := false, msk := 0x3E0 }) warpState) 20 = 18#32 := by
  decide +kernel
theorem test_shfl_up : vOf (after (.shflUp { xb 1 2 1 with mi := true, msk := 0x3E0 }) warpState) 1 =
    [(1, 3#32), (2, 4#32), (3, 5#32), (4, 6#32)] := by decide +kernel

theorem test_witness_ShufflesAndVotes :
    (∀ i ∈ [Instr.shflIdx (xb 1 2 1), .shflUp (xb 1 2 1), .shflDn (xb 1 2 1), .shflXor (xb 1 2 1), .voteAny (xb 3 1 0),
      .voteAll (xb 3 1 0), .voteBal (xb 20 1 0)], Meets warpState i always) ∧
    (∀ i ∈ [Instr.voteAny { xb 3 1 0 with strict := true, msk := 0x3E0 }, .voteAll { xb 3 1 0 with strict := true, msk := 0x3E0 },
      .voteBal { xb 20 1 0 with strict := true, msk := 0x3E0 }],
      Meets warpState i fun c _ => opMap (warpState.envOf c i).a &&& c.lm != c.lm &&& members { xb 3 1 0 with msk := 0x3E0 } (warpState.envOf c i)) ∧
    Meets warpState (.shflUp { xb 1 2 1 with strict := true, msk := 0x3E0 }) fun c _ =>
      (List.range 32).any fun l => (c.lm &&& members { xb 1 2 1 with msk := 0x3E0 } (warpState.wideEnv c (.shflUp (xb 1 2 1)))).getLsbD l &&
        !(l != 0 && (opMap (warpState.wideEnv c (.shflUp (xb 1 2 1))).a).getLsbD (l - 1)) :=
  ⟨meets_all (by decide +kernel), meets_all (by decide +kernel), meets_of_ok (by decide +kernel)⟩

theorem test_witness_ScansAndReductions :
    (∀ op ∈ [XOp.add, .min, .max, .and, .or, .xor, .fadd, .fmin, .fmax], ∀ i ∈ [Instr.scan op (xb 1 2 0), .red op (xb 1 2 0),
      .red op { xb 20 2 0 with opt := true }], Meets warpState i always) ∧
    (∀ i ∈ [Instr.scan .add { xb 1 2 0 with strict := true, msk := 0x3E0 }, .red .add { xb 1 2 0 with strict := true, msk := 0x3E0 }],
      Meets warpState i fun c _ => opMap (warpState.envOf c i).a &&& c.lm != c.lm &&& members { xb 1 2 0 with msk := 0x3E0 } (warpState.envOf c i)) ∧
    (([1, 2, 3, 4] : List Nat) ≠ [] ∧ ([5, 6, 7] : List Nat) ≠ [] ∧ [5, 6, 7].length ≤ [1, 2, 3, 4].length ∧
      ([1, 2, 3, 4] ++ [5, 6, 7]).length ≤ 32 ∧ [1, 2, 3, 4].length = 2 ^ Nat.log2 [1, 2, 3, 4].length) ∧
    ([1, 2, 3].length ≤ 32 ∧ ∀ v ∈ [1, 2, 3], v < 2 ^ tyBits 1) :=
  ⟨fun op hop i hi => by
    refine meets_all (p := fun _ => always)
      (l := [XOp.add, .min, .max, .and, .or, .xor, .fadd, .fmin, .fmax].flatMap fun op => [Instr.scan op (xb 1 2 0), .red op (xb 1 2 0),
        .red op { xb 20 2 0 with opt := true }]) (by decide +kernel) i (List.mem_flatMap.mpr ⟨op, hop, hi⟩),
    meets_all (by decide +kernel), by decide +kernel⟩

/-- The lengths 3, 0, −1 and 4 of the spec's example (10_lane_crossbar R239): rows 1, 2, 4 and 5. -/
def rebalState : State := warpWith fun x => { x with
  v := [(2, [(1, 3#32), (2, 0#32), (4, 0xFFFFFFFF#32), (5, 4#32)])], regs := { x.regs with sc := [(4, 5#32)] } }
def rebalWord : RebalW := ⟨rf 6, rf 2, 4, false, 0, 5⟩

theorem test_rebal_of_the_spec : vOf (after (.rebal rebalWord) rebalState) 6 = [(0, 5#32), (1, 5#32)] ∧
    vOf (after (.rebal rebalWord) rebalState) 7 = [(0, 2#32), (1, 3#32)] ∧ sOf (after (.rebal rebalWord) rebalState) 5 = 7#32 := by
  decide +kernel
theorem test_rebal_total_seven_leaves_no_lane :
    vOf (after (.rebal { rebalWord with b := 18 }) (rebalState.modWarp 1 0 fun x => { x with regs := { x.regs with sc := [(18, 7#32)] } })) 6 = [] := by
  decide +kernel

theorem test_witness_Rebalance :
    Meets rebalState (.rebal rebalWord) always ∧
    (Meets rebalState (.rebal { rebalWord with strict := true }) fun c _ =>
      (lanesOf (opMap (rebalState.envOf c (.rebal rebalWord)).a &&& c.lm)).any fun l =>
        sextNat 32 (opLane (rebalState.envOf c (.rebal rebalWord)).a l) < 0) ∧
    rebalAt 5 0 [3, 0, 0, 4] = some (3, 2) :=
  ⟨meets_of_ok (by decide +kernel), meets_of_ok (by decide +kernel), by decide +kernel⟩

/-! ## Pair words and scalar forms -/

/-- `iadd.i32 v2, v3` and `imul` with an immediate, in one word. -/
def slotA : PSlot := ⟨0x00, 2, 3, false, false, 0, false, false, false⟩
def slotB : PSlot := ⟨0x02, 4, 2, false, true, 0, false, false, false⟩

theorem test_pair_word : vOf (after (.pairWord false slotA { slotB with d := 3, a := 10 }) warpState) 2 = [(2, 9#32), (3, 12#32)] ∧
    vOf (after (.pairWord false slotA { slotB with d := 3, a := 10 }) warpState) 3 = [(2, 40#32), (3, 60#32), (4, 80#32), (5, 100#32)] := by
  decide +kernel
theorem test_pair_word_forwards :
    vOf (after (.pairWord true slotA { slotB with op := 0, d := 3, a := 2, imm := false }) warpState) 3 = [(2, 13#32), (3, 18#32)] := by
  decide +kernel

theorem test_witness_PairWords :
    (Meets warpState (.pairWord false slotA slotB) fun c _ =>
      !(slotA.strict && occMism c.lm [(pairEnvs false slotA slotB (pairRecs warpState c.cur.unit c.lm false slotA slotB)).1.d])) ∧
    Meets warpState (.pairWord true { slotA with strict := true } { slotB with op := 0, d := 3, a := 2, imm := false }) fun c _ =>
      occMism c.lm [(pairEnvs true slotA slotB (pairRecs warpState c.cur.unit c.lm true slotA slotB)).1.d,
        (pairEnvs true slotA slotB (pairRecs warpState c.cur.unit c.lm true slotA slotB)).1.a] :=
  ⟨meets_of_ok (by decide +kernel), meets_of_ok (by decide +kernel)⟩

/-- A scalar word: A and B are scalars. -/
def sw (d a b : Nat) : GI := .reg { gw d a b with ac := 1, bc := 1 }

theorem test_s_add_wraps : sOf (after (.sAdd (.imm { iw' 20 18 0xFFFFFA with ac := 1 })) warpState) 20 = 0xFFFFFFFD#32 := by decide +kernel
theorem test_s_sub_in_a_context :
    ((after (.sSub (sw 20 4 18)) cccState).ccc? 1 0).map (fun y => y.regs.s 20) = some 0xFFD#32 := by decide +kernel

/-- Every scalar arithmetic, logic, compare and move form. -/
def scalarForms : List Instr := [.sAdd (sw 20 4 18), .sSub (sw 20 4 18), .sMul (sw 20 4 18), .sMin (sw 20 4 18), .sMax (sw 20 4 18),
  .sShl (sw 20 4 18), .sShr (sw 20 4 18), .sSar (.reg { gw 20 4 18 with ac := 1, bc := 1, ty := 0 }), .sAnd (sw 20 4 18), .sOr (sw 20 4 18), .sXor (sw 20 4 18),
  .sNot { gw 20 4 0 with ac := 1 }, .sCmp .lt (sw 20 4 18), .sMov (.reg { gw 20 4 0 with ac := 1 }), .sMov (.imm { iw' 20 0 7 with ac := 0 })]

theorem test_witness_ScalarForms :
    (∀ i ∈ scalarForms, Meets warpState i always) ∧ (∀ i ∈ scalarForms, CccMeets cccState i fun _ _ => true) ∧
    ∀ op ∈ [Instr.sAnd, Instr.sOr, Instr.sXor], legal (op (sw 20 4 18)) = true :=
  ⟨meets_all (by decide +kernel), cccMeets_all (by decide +kernel), by decide +kernel⟩

/-! ## Control flow -/

/-- The warp's running fragment changed by `g`. -/
def fragState (g : Frag → Frag) : State := warpWith fun x => { x with live0 := x.live0.map g }
/-- The program counter and the lanes of the fragment in live slot 0. -/
def at0 (s : State) : Option (DWord × Lanes) := ((s.warp? 1 0).bind (·.live0)).map fun f => (f.cpc, f.lmap)

theorem test_bra_goes_forward : at0 (after (.bra ⟨5⟩) warpState) = some (40, fullMap) := by decide +kernel
theorem test_brx_splits : at0 (after (.brx ⟨0, 1, 5⟩) warpState) = some (16, 0x09#32) ∧
    ((after (.brx ⟨0, 1, 5⟩) warpState).warp? 1 0).bind (fun x => x.live1.map fun f => (f.cpc, f.lmap)) = some (40, 0x06#32) := by
  decide +kernel

theorem test_witness_DirectTransfers :
    (∀ i ∈ [Instr.nop, .yield, .yieldW, .bra ⟨5⟩, .call ⟨5⟩], Meets warpState i always) ∧
    (∀ i ∈ [Instr.nop, .yield, .yieldW], CccMeets cccState i fun _ _ => true) ∧
    (Meets (fragState fun f => { f with stk := List.replicate 32 0 }) (.call ⟨5⟩) fun _ x => x.live0.any fun f => decide (32 ≤ f.stk.length)) ∧
    (Meets (fragState fun f => { f with stk := List.replicate 31 0 }) (.call ⟨5⟩) fun _ x => x.live0.any fun f => decide (f.stk.length < 32)) ∧
    (Meets (fragState fun f => { f with stk := [8] }) .ret fun _ x => x.live0.any fun f => f.stk == [8]) ∧
    Meets warpState .ret fun _ x => x.live0.any fun f => f.stk == [] :=
  ⟨meets_all (by decide +kernel), cccMeets_all (by decide +kernel), meets_of_ok (by decide +kernel), meets_of_ok (by decide +kernel),
    meets_of_ok (by decide +kernel), meets_of_ok (by decide +kernel)⟩

/-- A warp with both live slots taken and `n` fragments spilled. -/
def crowded (n : Nat) : State := warpWith fun x => { x with
  live1 := some (Frag.start 0x100#32 64 1), spill := List.replicate n (Frag.start 0x200#32 64 2), p := [(1, ⟨0x0F#32, 0x06#32⟩)] }

theorem test_witness_DivergentBranch :
    (Meets warpState (.brx ⟨0, 1, 5⟩) fun _ x => x.live1.isNone && (x.pr 1).val == 6) ∧
    (Meets (crowded 64) (.brx ⟨0, 1, 5⟩) fun _ x => x.live1.isSome && x.spill.length == 64) ∧
    (Meets (crowded 63) (.brx ⟨0, 1, 5⟩) fun _ x => x.live1.isSome && x.spill.length == 63) ∧
    Meets warpState (.brx ⟨0, 7, 5⟩) fun c x => c.lm &&& ~~~(x.pr 7).map == c.lm :=
  ⟨meets_of_ok (by decide +kernel), meets_of_ok (by decide +kernel), meets_of_ok (by decide +kernel), meets_of_ok (by decide +kernel)⟩

/-- A warp whose register j0 is as given, with a park record or none. -/
def joinState (j : JReg) (park : Option Frag) : State := warpWith fun x => { x with
  j := lset x.j 0 j, parks := park.elim [] fun p => [(0, p)], live0 := x.live0.map fun f => { f with lmap := 0xFF#32 } }

theorem test_join_completes_with_the_arrived_lanes :
    at0 (after (.join 0) (joinState ⟨0xFFF#32, 0xF00#32, 0, 15, 0, 0, []⟩ none)) = some (16, 0xFFF#32) := by decide +kernel
theorem test_join_parks : ((after (.join 0) (joinState ⟨0xFFFF#32, 0xF00#32, 0, 15, 0, 0, []⟩ none)).warp? 1 0).map
    (fun x => (x.live0.isNone, (tget x.parks 0).map (·.lmap))) = some (true, some 0xFF#32) := by decide +kernel

theorem test_witness_ArmAndJoin :
    Meets warpState (.jarm ⟨0, 5⟩) always ∧
    (Meets (joinState ⟨0, 0, 8, 15, 0, 0, []⟩ none) (.join 0) fun c x => c.cpc != (x.jr 0).jpc) ∧
    (Meets (joinState ⟨0xFF#32, 0, 0, 15, 1, 0, [8]⟩ none) (.join 0) fun _ x => (x.jr 0).exp != 0 && (x.jr 0).dj == 1) ∧
    (Meets (joinState ⟨0xFFF#32, 0xF00#32, 0, 15, 0, 0, []⟩ (some (Frag.start 0xF00#32 16 3))) (.join 0) fun _ x =>
      (x.jr 0).exp &&& ~~~((x.jr 0).arr ||| 0xFF#32) == 0 && (tget x.parks 0).isSome) ∧
    (Meets (joinState ⟨0xFFFF#32, 0xF00#32, 0, 15, 0, 0, []⟩ (some (Frag.start 0xF00#32 16 3))) (.join 0) fun _ x =>
      (x.jr 0).exp &&& ~~~((x.jr 0).arr ||| 0xFF#32) != 0) ∧
    ((9 < 16 ∧ 0 < 16 ∧ (0 + 16 - 9) % 16 ∈ [1, 2, 3, 4, 5, 6, 7]) ∧ (8 < 16 ∧ 0 < 16 ∧ (0 + 16 - 8) % 16 ∉ [1, 2, 3, 4, 5, 6, 7])) :=
  ⟨meets_of_ok (by decide +kernel), meets_of_ok (by decide +kernel), meets_of_ok (by decide +kernel), meets_of_ok (by decide +kernel),
    meets_of_ok (by decide +kernel), by decide +kernel⟩

/-- A second landing point at address 16, and v4 and v5 with the targets 16, 0, 16, 0 of lanes 0 to 3. -/
def indState (lanes : Lanes) (n : Nat) : State :=
  { (warpWith fun x => { x with
      v := [(4, [(0, 16#32), (1, 0#32), (2, 16#32), (3, 0#32)]), (5, laneVals 0x0F#32 fun _ => 0)]
      live0 := x.live0.map fun f => { f with lmap := lanes, stk := List.replicate n 8 } }) with
    mem := warpState.mem ++ (toBytes 8 (encodeHeader fetchHeader).toNat).zipIdx.map fun p => (16 + p.2, p.1)
    keys := [(0, ⟨1, 0, 0⟩), (1, ⟨1, 0, 0⟩)] }
/-- `jmpi` through v4 and v5, and through s4 and s5. -/
def indV : IndW := ⟨rf 4, 0, 0⟩
def indS : IndW := ⟨rf 4, 1, 0⟩

theorem test_jmpi_groups_lanes_by_target :
    ((after (.jmpi indV) (indState 0x0F#32 0)).warp? 1 0).map (fun x => x.active.map fun f => (f.cpc, f.lmap)) =
      some [(0, 0x0A#32), (16, 0x05#32)] := by decide +kernel

theorem test_witness_IndirectTransfers :
    (∀ i ∈ [Instr.jmpi indV, .calli indV], Meets (indState 0x0F#32 0) i fun c x => c.lm != 0 && x.live1.isNone) ∧
    (∀ i ∈ [Instr.jmpi indV, .calli indV], Meets (indState 0x1F#32 0) i fun c _ =>
      (indTarget indV ((indState 0x1F#32 0).envOf c i) 4).isNone) ∧
    (Meets (indState 0x0F#32 32) (.calli indV) fun _ x => x.live0.any fun f => decide (32 ≤ f.stk.length)) ∧
    (Meets ((indState 0x0F#32 0).modWarp 1 0 fun x => { x with
      live1 := some (Frag.start 0x100#32 64 1), spill := List.replicate 64 (Frag.start 0x200#32 64 2) }) (.jmpi indV) fun _ x =>
      decide (x.room < 1)) ∧
    (∀ i ∈ [Instr.jmpi { indS with a := rf 6 }, .calli { indS with a := rf 6 }], CccMeets cccState i fun c _ => lanesOf c.lm == [0] &&
      (cccState.tgtCheck c.cur.unit 0).isNone) ∧
    (CccMeets cccState (.jmpi { indS with a := rf 18 }) fun c _ => lanesOf c.lm == [0] && cccState.tgtCheck c.cur.unit 3 == some cALIGN) ∧
    CccMeets (cccState.modCcc 1 0 fun y => { y with frag := { y.frag with stk := List.replicate 32 8 } }) (.calli { indS with a := rf 6 }) fun _ y =>
      decide (32 ≤ y.frag.stk.length) :=
  ⟨meets_all (by decide +kernel), meets_all (by decide +kernel), meets_of_ok (by decide +kernel), meets_of_ok (by decide +kernel),
    cccMeets_all (by decide +kernel), cccMeets_of_ok (by decide +kernel), cccMeets_of_ok (by decide +kernel)⟩

/-- A reservation entry of context 0. -/
def ent : REnt := ⟨1, 1, 0, .mxIp ⟨0, 4, 4, 0, false, false, 0, false, 0, false⟩, 0, 0, [], none, none, [], 0, none, none, [], 0⟩
/-- A context with a reservation entry. -/
def cccBusy : State := cccState.modCluster 0 fun c => { c with entries := [ent] }
/-- The successors that team 1 has already. -/
def succState (l : List DWord) : State := warpState.modTeam 1 fun x => { x with succ := l }

theorem test_exit_spawn_adds_the_block : ((after (.exitSpawn ⟨4, 0⟩) (succState [0x2000, 0x1000])).team? 1).map (·.succ) =
    some [0x2000, 0x1000] := by decide +kernel

theorem test_witness_Exit :
    (∀ i ∈ [Instr.exit, .exitSpawn ⟨4, 0⟩], Meets warpState i fun c _ => c.kind != .handler) ∧
    (∀ i ∈ [Instr.exit, .exitSpawn ⟨4, 0⟩], CccMeets cccBusy i fun _ _ => (cccBusy.entriesOf 1 0) != []) ∧
    (∀ i ∈ [Instr.exit, .exitSpawn ⟨4, 0⟩], CccMeets cccState i fun _ _ => (cccState.entriesOf 1 0) == []) ∧
    (Meets warpState (.exitSpawn ⟨18, 0⟩) fun _ x => (x.regs.s 18).toNat % 256 != 0) ∧
    (Meets (succState [0x2000, 0x2100, 0x2200, 0x2300]) (.exitSpawn ⟨4, 0⟩) fun _ x =>
      !([0x2000, 0x2100, 0x2200, 0x2300] : List Nat).contains (x.regs.s 4).toNat) ∧
    (Meets (succState [0x2000, 0x2100, 0x2200]) (.exitSpawn ⟨4, 0⟩) fun c x =>
      decide (([0x2000, 0x2100, 0x2200] ++ [x.regs.s 4] : List Word).eraseDups.length = 4) &&
        !(succState [0x2000, 0x2100, 0x2200]).lookups c.cur.unit [BitVec.ofNat 64 (x.regs.s 4).toNat] && c.kind == .normal) ∧
    Meets (opened warpState) (.exitSpawn ⟨4, 0⟩) fun c _ => (opened warpState).lookups c.cur.unit [0x1000] :=
  ⟨meets_all (by decide +kernel), cccMeets_all (by decide +kernel), cccMeets_all (by decide +kernel), meets_of_ok (by decide +kernel),
    meets_of_ok (by decide +kernel), meets_of_ok (by decide +kernel), meets_of_ok (by decide +kernel)⟩

/-- A warp of 64 registers, with scopes, a request for a scope first in the queue of its core or not, and operations. -/
def scopeState (sc : List (Nat × Nat)) (q : List (Nat × Nat × Nat × Nat)) : State :=
  (warpWith fun x => { x with base := 64, scopes := sc, bricks := (0, 8) :: sc.zipIdx.map fun p => (8 * (p.2 + 1), p.1.2 / 8) }).modCore 0
    fun k => { k with scopeQ := q }

theorem test_xadd_is_modulo_256 :
    ((after (.xadd ⟨1, 0, true, 3⟩) (warpWith fun x => { x with regs := { x.regs with x := [(1, 254#8)] } })).warp? 1 0).map
      (fun x => x.regs.xv 1) = some 1#8 := by decide +kernel
theorem test_scope_open : ((after (.scopeOpen 1) (scopeState [] [])).warp? 1 0).map (fun x => (x.scopes, x.bricks)) =
    some ([(64, 8)], [(0, 8), (8, 1)]) := by decide +kernel

theorem test_witness_IndexAndScopes :
    (∀ i ∈ [Instr.xset ⟨1, 0, true, 3⟩, .xadd ⟨1, 18, false, 0⟩, .rgn ⟨16, 0xFF⟩, .rgn ⟨16, 0⟩], Meets warpState i always) ∧
    (Meets (scopeState [] []) (.scopeOpen 1) fun _ x => x.scopes.length != 7 && decide (x.allot + 8 ≤ 256)) ∧
    (Meets (scopeState [] [(1, 3, 0, 1)]) (.scopeOpen 1) fun c _ => !(scopeState [] [(1, 3, 0, 1), (1, 0, c.fid, 1)]).scopeGo 0 1 0 c.fid) ∧
    (Meets (scopeState [] []) (.scopeOpen 25) fun _ x => decide (256 < x.allot + 8 * 25)) ∧
    (Meets (scopeState [] []) (.scopeOpen 24) fun _ x => decide (x.allot + 8 * 24 = 256)) ∧
    (Meets (scopeState (List.replicate 7 (64, 8)) []) (.scopeOpen 1) fun _ x => x.scopes.length == 7) ∧
    (Meets (scopeState [] []) .scopeClose fun _ x => x.scopes == []) ∧
    Meets (scopeState [(64, 8)] []) .scopeClose fun _ x => x.scopes == [(64, 8)] && x.regs.ops == [] :=
  ⟨meets_all (by decide +kernel), meets_of_ok (by decide +kernel), meets_of_ok (by decide +kernel), meets_of_ok (by decide +kernel),
    meets_of_ok (by decide +kernel), meets_of_ok (by decide +kernel), meets_of_ok (by decide +kernel), meets_of_ok (by decide +kernel)⟩

/-! ## Memory -/

/-- Bytes placed in the memory of owner 1, under its key. -/
def memAt (s : State) (a : Nat) (b : List Byte) : State :=
  { s with
    mem := State.withFetchWord.putCells s.mem a b
    keys := (List.range (b.length / 16 + 1)).foldl (fun k n => tput k (a / 16 + n) ⟨1, 0, 0⟩) s.keys }

/-- 64-bit words in memory under a key. -/
def memWords (s : State) (a : Nat) (key : Byte) (l : List DWord) : State :=
  { s with
    mem := State.withFetchWord.putCells s.mem a (l.flatMap fun d => toBytes 8 d.toNat)
    keys := (List.range ((l.length + 1) / 2)).foldl (fun k n => tput k (a / 16 + n) ⟨key, 0, 0⟩) s.keys }
/-- What a check of a list's members implies holds of every member. -/
theorem of_all {α : Type} {l : List α} {p : α → Bool} {q : α → Prop} (h : ∀ a, p a = true → q a) (hl : l.all p = true) : ∀ a ∈ l, q a :=
  fun a ha => h a (List.all_eq_true.mp hl a ha)

theorem exists_of_any {α : Type} {o : Option α} {p : α → Bool} (h : o.any p = true) : ∃ a, o = some a ∧ p a = true := by
  cases o with
  | none => cases h
  | some a => exact ⟨a, rfl, h⟩

/-- `[s4:s5] + off` of four bytes; `[s4:s5] + v3` of one byte; the scratchpad at s4 + off of team core 0. -/
def gmS (d : Nat) : GmW := ⟨rf d, rf 4, rf 0, 4, 0, 0, false, false, 0, 3, 0⟩
def gmV (d sz : Nat) : GmW := ⟨rf d, rf 4, rf 3, BitVec.ofNat 3 sz, 0, 0, false, false, 0, 0, 0⟩
def spZ (d off : Nat) : SpW := ⟨rf d, rf 0, 0, 4, 0, true, false, 0, BitVec.ofNat 11 off⟩
/-- The first flag of the clause counts `n`. -/
def flagState (n : Nat) : State := warpWith fun x => { x with regs := { x.regs with fl := [(0, n)] } }

theorem test_witness_TranslationAndChecks :
    (∃ l, warpState.translate (some 0) 0 1 0x1234 = some l ∧ (l.pa == 0x1234) = true) ∧ 2 ^ 48 ≤ (0x1000000000000#64).toNat ∧
    (warpState.team? 1).isSome = true ∧ 0x3FFFFF / 2 ^ 22 = 0 ∧
    ((∀ n ∈ tlbNodes (some 0) 0, tgetD State.reset.tlbs n [] = []) ∧ (0xFFFFFFFFFFFF#64).toNat < 2 ^ 48) ∧
    (∃ l, warpState.leafOf 3 (BitVec.ofNat 64 (31 + 2 ^ 42)) 0x1234 = some l ∧ (l.pa == 0x1234 && l.r && l.w && l.x && l.key == 1) = true) ∧
    (let s : State := memWords State.reset 0x20 0 [1, 0]
     s.inval = none ∧ 783 < 784 ∧ 4 ≤ 4 ∧ 776 ≤ 783 ∧ s.lookupOpen none 7 1 0 = false ∧ (∀ n ∈ tlbNodes none 7, tgetD s.tlbs n [] = []) ∧
     (BitVec.ofNat 64 (ofBytes (s.dieBytes 7 0 (s.csrs.owntab.toNat + 32) 8))).getLsbD 0 = true ∧
     (homeOf ((BitVec.ofNat 64 (ofBytes (s.dieBytes 7 0 (s.csrs.owntab.toNat + 32) 8))).toNat / 2 ^ 12 % 2 ^ 30 * 4096)).isSome = true) ∧
    (opened warpState).lookupOpen (some 0) 0 1 0x1000 = true :=
  ⟨exists_of_any (by decide +kernel), by decide, by decide +kernel, by decide, ⟨by decide +kernel, by decide⟩,
    exists_of_any (by decide +kernel), by decide +kernel, by decide +kernel⟩

/-- The counted forms of lanes. -/
def countForms : List Instr := [.ldG (gmS 6), .ldG (gmV 6 0), .ldC { gmV 6 0 with ow := 3 }, .atomG .add (gmS 2),
  .ldSp (spZ 6 0x400), .atomSp .add (spZ 2 0x400)]

theorem test_ld_counts_its_flag : ((after (.ldG (gmS 6)) warpState).warp? 1 0).map (fun x => (x.regs.flag 0, x.regs.ops.length)) = some (1, 1) := by
  decide +kernel

theorem test_witness_CountedForms :
    (∀ i ∈ countForms, Meets (flagState 62) i fun _ x => decide (x.regs.flag 0 < 63)) ∧
    (∀ i ∈ countForms, Meets (flagState 63) i fun _ x => decide (63 ≤ x.regs.flag 0)) ∧
    (Meets warpState (.ldG (gmV 6 4)) fun c _ => badLanes (effMap (warpState.envOf c (.ldG (gmV 6 4)))
        [(warpState.envOf c (.ldG (gmV 6 4))).a, (warpState.envOf c (.ldG (gmV 6 4))).b])
      (fun l => warpState.globAcc c.cur.unit l (gmAddrOf (gmV 6 4) 1 8 (warpState.envOf c (.ldG (gmV 6 4))) l) 4 .read)
      (gmAddrOf (gmV 6 4) 1 8 (warpState.envOf c (.ldG (gmV 6 4)))) != []) ∧
    (Meets (opened warpState) (.ldG (gmS 6)) fun c _ => (opened warpState).lookups c.cur.unit [0x1000]) ∧
    (∀ ow : BitVec 2, ({ gmS 6 with ow := ow } : GmW).ow = ow) :=
  ⟨meets_all (by decide +kernel), meets_all (by decide +kernel), meets_of_ok (by decide +kernel), meets_of_ok (by decide +kernel), fun _ => rfl⟩

/-- A K8 surface handle at 0x1000 (12_sparse_rows R277): 8 rows of 16 columns, data at 0x2000, scales at 0x3000. -/
def handleBytes : List Byte := [0x2000, 0x3000, 0, 0, 8 + 16 * 2 ^ 32, 16 + 16 * 2 ^ 32, 2 * 2 ^ 32, 0].flatMap (toBytes 8 ·)
def gfState (h : List Byte) : State := memAt (warpWith fun x => { x with v := [(2, laneVals 0x0F#32 fun _ => 4), (3, laneVals 0x0F#32 (4 * ·))] }) 0x1000 h
def gfWord : GfW := ⟨rf 6, rf 2, rf 3, 4, false, 0, false, true, false, false, false⟩
/-- The lanes of a gather with the handle that memory gives. -/
def gathered (s : State) (c : Ctx) (w : GfW) : Option (State × List Acc × List (Nat × Nat × DWord)) :=
  let e := s.envOf c (.gfLd w)
  (s.gatherRead c.cur.unit (!w.bp) (s.gatherBytes c.cur.unit 0x1000 64)).bind fun r =>
    r.1.gatherLanes c.cur.unit w 0x1000 (handleOf r.2) e (effMap e [e.a, e.b])

theorem test_gf_ld_reads_the_row : ((after (.gfLd gfWord) (gfState handleBytes)).warp? 1 0).map
    (fun x => x.regs.ops.map fun o => o.accs.map fun a => (a.lane, a.addr)) = some [[(0, 0x2040), (1, 0x2044), (2, 0x2048), (3, 0x204C)]] := by
  decide +kernel

/-- The cause of a failed check. -/
def errOf {α : Type} : Except Nat α → Option Nat
  | .error k => some k
  | .ok _ => none

/-- The cause and the value of a failed check. -/
def errOf' {α : Type} : Except (Nat × DWord) α → Option (Nat × DWord)
  | .error k => some k
  | .ok _ => none

/-- `ld.sp.t` at 0x400 with a row stride of 16 bytes. -/
def ldtWord : LdtW := ⟨rf 8, 4, 4, 4, true, false, 0, BitVec.ofNat 11 0x400⟩

theorem test_witness_OtherLoads :
    (Meets (flagState 62) (.sLd (gmS 20)) always ∧ CccMeets cccState (.sLd (gmS 20)) fun _ _ => true) ∧
    (Meets (flagState 63) (.sLd (gmS 20)) fun _ x => decide (63 ≤ x.regs.flag 0)) ∧
    (∃ a, (warpState.globAcc (.warp 1 0) 0 0x1000 4 .read).toOption = some a ∧ (a.addr == 0x1000) = true) ∧
    (errOf (warpState.globAcc (.warp 1 0) 0 0x1002 4 .read) = some cALIGN ∧ errOf (warpState.globAcc (.warp 1 0) 0 0x1000000000000 4 .read) = some cRANGE) ∧
    (Meets (flagState 62) (.ldSpT ldtWord) fun c _ => (c.lm &&& 0xFFFFFFFF#32 != 0) && (List.range 16).all fun r =>
      ((flagState 62).spAcc 1 r (0x400 + r * 16) 16).toOption.isSome) ∧
    (Meets (flagState 63) (.ldSpT ldtWord) fun _ x => decide (63 ≤ x.regs.flag 0)) ∧
    (Meets (fragState fun f => { f with lmap := 0xFFFF0000#32 }) (.ldSpT { ldtWord with sz := 0 }) fun c _ => c.lm &&& 0xFFFF#32 == 0) ∧
    (Meets (gfState handleBytes) (.gfLd gfWord) fun c _ => (gathered (gfState handleBytes) c gfWord).any fun r => !r.2.1.isEmpty && r.2.2.isEmpty) ∧
    (Meets (gfState (List.replicate 64 0)) (.gfLd { gfWord with sc := true }) fun c _ =>
      (gathered (gfState (List.replicate 64 0)) c { gfWord with sc := true }).any fun r => !r.2.2.isEmpty) ∧
    (Meets (opened warpState) (.sLd (gmS 20)) fun c _ => (opened warpState).lookups c.cur.unit [0x1000]) ∧
    (Meets (opened (gfState handleBytes)) (.gfLd gfWord) fun c _ => (opened (gfState handleBytes)).lookups c.cur.unit [0x1000]) ∧
    (Meets (gfState handleBytes) (.gfLd { gfWord with hs := 18 }) fun c _ => errOf ((gfState handleBytes).globAcc c.cur.unit 0 3 64 .read) == some cALIGN) ∧
    (Meets { gfState handleBytes with pend := [{ someWrite 9 false [] [] with seq := 0 }] } (.gfLd { gfWord with bp := true }) fun c _ =>
      ({ gfState handleBytes with pend := [{ someWrite 9 false [] [] with seq := 0 }] } : State).gatherRead c.cur.unit false
        (({ gfState handleBytes with pend := [{ someWrite 9 false [] [] with seq := 0 }] } : State).gatherBytes c.cur.unit 0x1000 64) == none) ∧
    (Meets warpState (.gfLd { gfWord with strict := true }) fun c _ =>
      occMism c.lm [(warpState.envOf c (.gfLd gfWord)).a, (warpState.envOf c (.gfLd gfWord)).b]) ∧
    (Meets warpState (.gfLd { gfWord with a := rf 9 }) fun c _ =>
      effMap (warpState.envOf c (.gfLd { gfWord with a := rf 9 })) [(warpState.envOf c (.gfLd { gfWord with a := rf 9 })).a] == 0) :=
  ⟨⟨meets_of_ok (by decide +kernel), cccMeets_of_ok (by decide +kernel)⟩, meets_of_ok (by decide +kernel), exists_of_any (by decide +kernel),
    ⟨by decide +kernel, by decide +kernel⟩, meets_of_ok (by decide +kernel), meets_of_ok (by decide +kernel), meets_of_ok (by decide +kernel),
    meets_of_ok (by decide +kernel), meets_of_ok (by decide +kernel), meets_of_ok (by decide +kernel), meets_of_ok (by decide +kernel),
    meets_of_ok (by decide +kernel), meets_of_ok (by decide +kernel), meets_of_ok (by decide +kernel), meets_of_ok (by decide +kernel)⟩

/-- The fragment stands at its word again, after an instruction; with lane 2 alone, or with the lanes of `l`. -/
def again (s : State) : State := s.modWarp 1 0 fun x => { x with
  live0 := x.live0.map fun f => { f with cpc := 0, slot := 0, hdr := some fetchHeader, wait := none } }
def lane2 : State := fragState fun f => { f with lmap := 0x04#32 }

/-- A fence waits for a write that its die has applied. -/
def fenceState : State :=
  let s : State := fragState fun f => { f with phase := 1, snap := [9], wait := some (.fence 1) }
  { s with flight := [someWrite 9 false [0] []] }

theorem test_witness_StoresAndFences :
    (∀ i ∈ [Instr.fence .warp, .fence .team, .fence .die, .fence .pkg, .fence .sys], Meets warpState i fun c _ =>
      c.phase == 0 && warpState.quiet c.cur.unit (warpState.seqOf c.cur.unit)) ∧
    (Meets (again (after (.stG (gmS 2)) lane2)) (.fence .pkg) fun c _ =>
      !(again (after (.stG (gmS 2)) lane2)).quiet c.cur.unit ((again (after (.stG (gmS 2)) lane2)).seqOf c.cur.unit)) ∧
    (Meets warpState (.fence .sys) fun c _ => (warpState.writes.filter fun w => w.dies.contains (warpState.dieOf c.cur.unit)) == []) ∧
    (Meets (opened warpState) (.fence .pkg) fun c _ => (opened warpState).quiet c.cur.unit ((opened warpState).seqOf c.cur.unit) &&
      ((opened warpState).writes.filter fun w => w.dies.contains ((opened warpState).dieOf c.cur.unit)).length == 1) ∧
    (Meets (fragState fun f => { f with phase := 1, snap := [7] }) (.fence .pkg) fun c _ => c.phase != 0 && !warpState.onWay 7) ∧
    (Meets fenceState (.fence .pkg) fun c _ => c.phase != 0 && fenceState.onWay 9) ∧
    (∃ f, f ∈ fenceState.fragsOf (.warp 1 0) ∧ (f.wait == some (.fence 1)) = true) ∧
    (Meets (opened warpState) (.stG (gmV 2 0)) fun c _ => (opened warpState).lookups c.cur.unit [0x1000]) ∧
    (∀ i ∈ [Instr.stG (gmS 2), .stG (gmV 2 0), .stSp (spZ 2 0x400)], Meets warpState i fun _ _ => true) ∧
    (Meets warpState (.stG (gmV 2 4)) fun c _ => badLanes (effMap (warpState.envOf c (.stG (gmV 2 4)))
        [(warpState.envOf c (.stG (gmV 2 4))).b])
      (fun l => warpState.globAcc c.cur.unit l (gmAddrOf (gmV 2 4) 1 8 (warpState.envOf c (.stG (gmV 2 4))) l) 4 .write)
      (gmAddrOf (gmV 2 4) 1 8 (warpState.envOf c (.stG (gmV 2 4)))) != []) :=
  ⟨meets_all (by decide +kernel), meets_of_ok (by decide +kernel), meets_of_ok (by decide +kernel), meets_of_ok (by decide +kernel),
    meets_of_ok (by decide +kernel), meets_of_ok (by decide +kernel), List.any_eq_true.mp (by decide +kernel), meets_of_ok (by decide +kernel),
    meets_all (by decide +kernel), meets_of_ok (by decide +kernel)⟩

theorem test_st_makes_one_write_per_address : (after (.stG (gmS 2)) warpState).pend.map (fun w => (w.addr, w.bytes)) =
    [(0x1000, [6#8, 0#8, 0#8, 0#8])] := by decide +kernel

/-- A counted operation of one access is in flight and may be performed, and `p` holds of it. -/
def perfOk (s : State) (u : UnitId) (p : Op → Acc → Bool) : Bool :=
  (s.regs? u).any fun r => (r.ops.head?).any fun o => r.ops.find? (·.seq == o.seq) == some o && match o.accs with
    | [a] => (tget o.vals a.lane).isNone && s.mayPerform u o a && p o a
    | _ => false

theorem perfOk_spec {s : State} {u : UnitId} {p : Op → Acc → Bool} (h : perfOk s u p = true) :
    ∃ r o a, s.regs? u = some r ∧ r.ops.find? (·.seq == o.seq) = some o ∧ o.accs = [a] ∧ tget o.vals a.lane = none ∧
      s.mayPerform u o a = true ∧ p o a = true := by
  unfold perfOk at h
  obtain ⟨r, hr, h⟩ := exists_of_any h
  obtain ⟨o, -, h⟩ := exists_of_any h
  simp only [Bool.and_eq_true, beq_iff_eq] at h
  obtain ⟨ho, h⟩ := h
  split at h
  · rename_i a ha
    simp only [Bool.and_eq_true, Option.isNone_iff_eq_none] at h
    exact ⟨r, o, a, hr, ho, ha, h.1.1, h.1.2, h.2⟩
  · cases h

/-- The unit's accesses meet a line of a replicated page that a write has locked at its die. -/
def lockedState : State :=
  let s := (after (.ldG { gmS 6 with bp := true }) lane2).modWarp 1 0 fun x =>
    { x with regs := { x.regs with ops := x.regs.ops.map fun o => { o with accs := o.accs.map fun a => { a with repl := true } } } }
  { s with pend := [someWrite 9 true [] [0]] }

theorem test_witness_PerformedAccesses :
    (∀ p ∈ ([(.ldSp (spZ 6 0x400), fun o a => a.tgt == .scratch 1 0 && (atomOf o.instr).isNone),
        (.atomSp .add (spZ 2 0x400), fun o a => a.tgt == .scratch 1 0 && (atomOf o.instr).isSome),
        (.ldG { gmS 6 with bp := true }, fun o a => a.tgt == .glob && !o.plain),
        (.ldG (gmS 6), fun o a => a.tgt == .glob && o.plain && o.acq == none),
        (.atomG .add (gmS 2), fun o a => a.tgt == .glob && (atomOf o.instr).isSome && homeOf a.addr == some 0)] :
          List (Instr × (Op → Acc → Bool))),
      ∃ r o a, (after p.1 lane2).regs? (.warp 1 0) = some r ∧ r.ops.find? (·.seq == o.seq) = some o ∧ o.accs = [a] ∧
        tget o.vals a.lane = none ∧ (after p.1 lane2).mayPerform (.warp 1 0) o a = true ∧ p.2 o a = true) ∧
    (∃ r o a, (after (.acLd ⟨rf 6, 0, 0, 0, false, false⟩) lane2).regs? (.warp 1 0) = some r ∧ r.ops.find? (·.seq == o.seq) = some o ∧
      o.accs = [a] ∧ tget o.vals a.lane = none ∧ (after (.acLd ⟨rf 6, 0, 0, 0, false, false⟩) lane2).mayPerform (.warp 1 0) o a = true ∧
      (a.tgt == .acc 1) = true) ∧
    (∃ r o a, lockedState.regs? (.warp 1 0) = some r ∧ r.ops.find? (·.seq == o.seq) = some o ∧ o.accs = [a] ∧ tget o.vals a.lane = none ∧
      lockedState.mayPerform (.warp 1 0) o a = true ∧ (a.repl && lockedState.lockedLine 0 a.addr) = true) ∧
    (5 < 2 ^ 32 ∧ 0xFFFFFFFF < 2 ^ 32 ∧ 2 ^ 63 < 2 ^ 64) := by
  refine ⟨fun p hp => perfOk_spec ?_, perfOk_spec (by decide +kernel), perfOk_spec (by decide +kernel), by decide⟩
  simp only [List.mem_cons, List.not_mem_nil, or_false] at hp
  rcases hp with rfl | rfl | rfl | rfl | rfl <;> decide +kernel

/-- A counted operation of the warp with all its lanes performed, or with a given acquire and the writes it read from. -/
def doneState (acq : Option Scope) (srcs : List Nat) : State :=
  (((after (.ldSp (spZ 6 0x400)) lane2).performLane (.warp 1 0) 0 2 false).getD State.reset).modWarp 1 0 fun x =>
    { x with regs := { x.regs with ops := x.regs.ops.map fun o => { o with acq := acq, srcs := srcs } } }
theorem test_ld_completes : vOf (after (.countedCompletion (.warp 1 0) 0 false) (doneState none [])) 6 = [(2, 0#32)] := by decide +kernel

/-- The operation of the warp with number 0. -/
def op0 (s : State) : Option Op := (s.regs? (.warp 1 0)).bind fun r => r.ops.find? (·.seq == 0)

theorem test_witness_CountedCompletions :
    (∃ o, op0 (doneState none []) = some o ∧ o.performed = true) ∧
    (∃ o, op0 (doneState (some .pkg) [9]) = some o ∧
      (o.performed && o.srcs.any ({ doneState (some .pkg) [9] with flight := [someWrite 9 false [0] []] } : State).onWay) = true) ∧
    (∃ o, op0 (doneState (some .die) []) = some o ∧ (o.performed && o.acq.isSome &&
      ({ doneState (some .die) [] with pend := [{ someWrite 9 false [] [] with seq := 0 }] } : State).ownOpen (.warp 1 0) 0) = true) ∧
    (∃ o, op0 (doneState (some .sys) []) = some o ∧ (o.performed && !(doneState (some .sys) []).ownOpen (.warp 1 0) 0) = true) ∧
    (∃ o, op0 ((doneState none []).modWarp 1 0 fun x => { x with exited := true }) = some o ∧ o.performed = true) ∧
    (∃ o, op0 (((after (.sLd (gmS 20)) (fragState id)).performLane (.warp 1 0) 0 0 false).getD State.reset) = some o ∧ o.performed = true) ∧
    (∃ r, warpState.regs? (.warp 1 0) = some r ∧ (r.ops.find? (·.seq == 3)).isNone = true) :=
  ⟨exists_of_any (by decide +kernel), exists_of_any (by decide +kernel), exists_of_any (by decide +kernel), exists_of_any (by decide +kernel),
    exists_of_any (by decide +kernel), exists_of_any (by decide +kernel), exists_of_any (by decide +kernel)⟩

/-- One pending write; one write in coherence order. -/
def pendState (w : Write) : State := { warpState with pend := [w] }
def flyState (w : Write) : State := { warpState with flight := [w] }

theorem test_write_is_seen_at_its_home :
    (after (.writeApplication 9 0) (pendState (someWrite 9 false [] []))).dieByte 0 1 0x1002 = 3#8 := by decide +kernel

/-- Two pending writes of one warp to the same bytes; a store to a scratchpad that has been saved. -/
def pendTwo : State := { warpState with pend := [{ someWrite 8 false [] [] with seq := 4 }, someWrite 9 false [] []] }
def spStore : State := after (.stSp (spZ 2 0x400)) lane2
/-- The last applied write gave the unit its key at every die. -/
def keyedState : State := { warpState with
  pend := [{ someWrite 9 false [] [] with addr := 0x1008 }], flight := [{ someWrite 8 false [0] [] with bytes := List.replicate 16 7 }] }

theorem test_write_keeps_the_rest_of_its_unit :
    ((after (.writeApplication 9 0) keyedState).dieByte 0 1 0x1004, (after (.writeApplication 9 0) keyedState).dieByte 0 1 0x1009) = (7#8, 2#8) := by
  decide +kernel

theorem test_witness_WritesReachDies :
    ((State.reset.pend.find? (·.id == 9)).isNone = true ∧ (State.reset.flight.find? (·.id == 9)).isNone = true) ∧
    (∃ w, spStore.pend.head? = some w ∧ (w.tgt == .scratch 1 0 && !w.repl && (w.sent || spStore.mayLeave w) && !spStore.behindOwn w &&
      !spStore.coreSaved 1 0) = true) ∧
    (∃ w, spStore.pend.head? = some w ∧ (spStore.modTeam 1 fun q => { q with saved := lset q.saved 0 true }).coreSaved 1 0 = true) ∧
    (∃ w, ((pendTwo.pend.map fun e => { e with tgt := .scratch 1 0 })[1]?) = some w ∧
      ({ pendTwo with pend := pendTwo.pend.map fun e => { e with tgt := .scratch 1 0 } } : State).behindOwn w = true) ∧
    (∃ w, (pendState (someWrite 9 false [] [])).pend.find? (·.id == 9) = some w ∧ (w.tgt == .glob && w.home == 0 && w.sent && !w.repl &&
      !(pendState (someWrite 9 false [] [])).behindOwn w && w.preds.all ((pendState (someWrite 9 false [] [])).appliedAt 0)) = true) ∧
    (∃ w, (pendState { someWrite 9 false [] [] with sent := false }).pend.find? (·.id == 9) = some w ∧
      (!w.sent && (pendState { someWrite 9 false [] [] with sent := false }).mayLeave w) = true) ∧
    (∃ w, keyedState.pend.find? (·.id == 9) = some w ∧ (keyedState.unitKey 0 0x1004 == some w.key) = true) ∧
    (∃ w, (flyState (someWrite 9 false [0] [])).flight.find? (·.id == 9) = some w ∧ (!w.dies.contains 3 && !w.repl &&
      w.preds.all ((flyState (someWrite 9 false [0] [])).appliedAt 3) && !allDies (3 :: w.dies)) = true) ∧
    (∃ w, ({ warpState with flight := [someWrite 8 false [0] [], someWrite 9 false [0] []] } : State).flight.find? (·.id == 9) = some w ∧
      (meets 0x1000 4 w.addr w.bytes.length && !w.dies.contains 3) = true) ∧
    (∃ w, (flyState { someWrite 9 false [0] [] with preds := [8] }).flight.find? (·.id == 9) = some w ∧
      (!w.preds.all (({ flyState { someWrite 9 false [0] [] with preds := [8] } with
        pend := [{ someWrite 8 false [] [] with addr := 0x2000 }] } : State).appliedAt 3)) = true) ∧
    (∃ w, (pendState (someWrite 9 true [] [])).pend.find? (·.id == 9) = some w ∧ (w.repl && !w.locked.contains 3 && w.sent &&
      !(pendState (someWrite 9 true [] [])).behindOwn w && !(pendState (someWrite 9 true [] [])).lineBusy w &&
      !(pendState (someWrite 9 true [] [])).stalledOn 3 (w.addr / 128)) = true) ∧
    (∃ w, (pendState (someWrite 9 true [] [3])).pend.find? (·.id == 9) = some w ∧ (w.repl && w.locked.contains 3) = true) ∧
    (∃ w, (pendState (someWrite 9 true [0] [0, 1, 2, 3, 4, 5, 6, 7])).pend.find? (·.id == 9) = some w ∧ (w.repl && allDies w.locked &&
      !w.dies.contains 3 && (List.range w.bytes.length).all fun n => (replAddr 3 w.addr + n) / 16 == replAddr 3 w.addr / 16) = true) ∧
    (∃ w, (pendState (someWrite 9 true [3] [])).pend.find? (·.id == 9) = some w ∧ (w.repl && w.dies.contains 3) = true) ∧
    ({ pendState (someWrite 9 true [0] [0, 1, 2, 3, 4, 5, 6, 7]) with nextId := 10 } : State).WritesWf ∧
    (∃ w, (pendState { someWrite 9 false [] [] with sent := false, gate := some ⟨.pkg, [10]⟩ }).pend.find? (·.id == 9) = some w ∧
      (!w.sent && !({ pendState w with flight := [someWrite 10 false [0] []] } : State).mayLeave w) = true) :=
  ⟨⟨rfl, rfl⟩, exists_of_any (by decide +kernel), ⟨_, rfl, by decide +kernel⟩, exists_of_any (by decide +kernel), exists_of_any (by decide +kernel),
    exists_of_any (by decide +kernel), exists_of_any (by decide +kernel), exists_of_any (by decide +kernel), exists_of_any (by decide +kernel),
    exists_of_any (by decide +kernel), exists_of_any (by decide +kernel), exists_of_any (by decide +kernel), exists_of_any (by decide +kernel),
    exists_of_any (by decide +kernel), by unfold State.WritesWf; decide +kernel, exists_of_any (by decide +kernel)⟩

/-! ## Traps, handlers, control registers -/

/-- A team that is not a system team. -/
def userState : State := warpState.modTeam 1 fun q => { q with sys := false }
/-- The context of an issue check that fails, with its cause. -/
def failsWith (s : State) (i : Instr) (k : Nat) : Bool := s.ctx?.any fun c => issueCheck s c i == some k

theorem test_witness_IssueChecks :
    (∃ c, warpState.ctx? = some c ∧ (issueCheck warpState c (.pairWord false slotA { slotB with d := 2 }) == some cILLPAIR) = true) ∧
    (∃ c, warpState.ctx? = some c ∧ (issueCheck warpState c .rte == some cILLCTX) = true) ∧
    (∃ c, userState.ctx? = some c ∧ (issueCheck userState c (.csrRd ⟨20, false, 0x100⟩) == some cPRIV) = true) ∧
    (∃ c, (scopeState [] []).ctx? = some c ∧ (issueCheck (scopeState [] []) c (.mov (gw 64 2 0)) == some cREGBOUND) = true) ∧
    (∃ c, (scopeState [] []).ctx? = some c ∧ (issueCheck (scopeState [] []) c (.mov (gw 63 2 0))).isNone = true) ∧
    (∃ c, (fragState fun f => { f with hdr := some { fetchHeader with len := 2 } }).ctx? = some c ∧
      (c.slot + 1 != c.hdr.len && endsClause (.bra ⟨5⟩)) = true) ∧
    (∃ c, (fragState fun f => { f with hdr := some { fetchHeader with seta := 15 } }).ctx? = some c ∧
      (isCounted (.ldG (gmS 6)) && flagOf c.hdr (.ldG (gmS 6)) == 15) = true) ∧
    Meets warpState (.iadd (gi 1 2 3)) fun _ x => (namedOf x.regs (.iadd (gi 1 2 3))).contains 3 :=
  ⟨exists_of_any (by decide +kernel), exists_of_any (by decide +kernel), exists_of_any (by decide +kernel), exists_of_any (by decide +kernel),
    exists_of_any (by decide +kernel), exists_of_any (by decide +kernel), exists_of_any (by decide +kernel), meets_of_ok (by decide +kernel)⟩

/-- The team has a handler at 0x400, or none. -/
def trapState (pc : DWord) : State := warpState.modTeam 1 fun q => { q with pkt := lset q.pkt 3 pc }
/-- The warp is in its handler, with the frame that `fr` gives. -/
def handlerState (fr : Frame → Frame) : State :=
  { (warpWith fun x => { x with
      handler := some { Frag.start fullMap 0 74 with kind := .handler, hdr := some fetchHeader }
      frame := some (fr fetchFrame) }) with cur := some ⟨.warp 1 0, .handler⟩ }
/-- A counted operation that the handler has issued. -/
def handlerOps : List Op := (((after (.ldSp (spZ 6 0x400)) lane2).warp? 1 0).map fun y => y.regs.ops.map fun o => { o with fid := 74 }).getD []
/-- A replay entry. -/
def entry (v : Bool) : Entry := ⟨0, .ldG (gmS 6), 0, 0, 0, 0, v, false, false, 1, 1, 1, [], 6, []⟩

theorem test_trap_starts_the_handler : ((after (.trap 7) (trapState 0x400)).warp? 1 0).map (fun x => (x.handler.map (·.cpc), x.frame.map (·.aux))) =
    some (some 0x400, some 7) := by decide +kernel
theorem test_trap_without_a_handler_freezes : ((after (.trap 7) (trapState 0)).set? 1).map (·.frozen) = some true := by decide +kernel

/-- The counted operations that must complete before a trap have completed. -/
def settled (s : State) (x : Warp) (ti : TrapInfo) (i : Instr) : Option State :=
  let can := x.regs.ops.filter fun o => (atomOf o.instr).isNone && !o.passed
  let out := can.drop (can.length - (if fltCause ti.code && fltForm i then 7 else 8))
  (x.regs.ops.filter fun o => !out.contains o).foldl (fun a o => a.bind fun z => z.complete (.warp 1 0) o.seq false) (some s)

/-- What the statement about taking a trap asks before it; and what it asks of the state once the operations have settled. -/
def trapMeets (c : Ctx) (x : Warp) (ti : TrapInfo) : Bool :=
  x.frag? c.cur.sel == x.byFid c.fid && (x.byFid c.fid).isSome && x.handler.isNone && ti.code != cMCHK &&
    decide ((x.regs.ops.map (·.seq)).Nodup)
def trapGoes (s : State) (x : Warp) (ti : TrapInfo) (i : Instr) : Bool :=
  (settled s x ti i).any fun s1 => (s1.warp? 1 0).any (fun y => y.handler.isNone) && (s1.team? 1).any fun q => q.pkt.getD 3 0 != 0

/-- The state with a handler, and the warp's counted operations as given. -/
def trapOps (s : State) (f : List Op → List Op) : State :=
  ((again s).modTeam 1 fun q => { q with pkt := lset q.pkt 3 0x400 }).modWarp 1 0 fun x =>
    { x with regs := { x.regs with ops := f x.regs.ops } }
/-- A load that must complete, and an acquire that cannot; nine loads. -/
def mustState : State := trapOps (doneState none []) fun l => l.map fun o => { o with passed := true }
def openState : State :=
  { trapOps (doneState (some .pkg) [9]) fun l => l.map fun o => { o with passed := true } with flight := [someWrite 9 false [0] []] }
def nineState : State := trapOps (after (.ldSp (spZ 6 0x400)) lane2) fun l => (List.range 9).flatMap fun n => l.map fun o => { o with seq := n }

theorem test_witness_TrapTaken :
    (Meets (trapState 0x400) (.trap 7) fun c x => trapMeets c x (plainTrap cSWTRAP 7) && trapGoes (trapState 0x400) x (plainTrap cSWTRAP 7) (.trap 7)) ∧
    (Meets (trapOps (after (.ldSp (spZ 6 0x400)) lane2) id) (.ldG (gmV 6 4)) fun c x => trapMeets c x (oneTrap cALIGN 0x1001) &&
        trapGoes (trapOps (after (.ldSp (spZ 6 0x400)) lane2) id) x (oneTrap cALIGN 0x1001) (.ldG (gmV 6 4)) && x.regs.ops.length == 1 &&
        fltCause cALIGN && fltForm (.ldG (gmV 6 4))) ∧
    (Meets mustState (.trap 7) fun c x => trapMeets c x (plainTrap cSWTRAP 7) && trapGoes mustState x (plainTrap cSWTRAP 7) (.trap 7) &&
      x.regs.ops.any (·.passed)) ∧
    (Meets openState (.trap 7) fun c x => trapMeets c x (plainTrap cSWTRAP 7) && (settled openState x (plainTrap cSWTRAP 7) (.trap 7)).isNone) ∧
    (Meets nineState (.trap 7) fun c x => trapMeets c x (plainTrap cSWTRAP 7) && trapGoes nineState x (plainTrap cSWTRAP 7) (.trap 7) &&
      x.regs.ops.length == 9) :=
  ⟨meets_of_ok (by decide +kernel), meets_of_ok (by decide +kernel), meets_of_ok (by decide +kernel), meets_of_ok (by decide +kernel),
    meets_of_ok (by decide +kernel)⟩

/-- The context, its team and its set are there, and `p` holds. -/
def escOk (s : State) (p : Ctx → TSet → Team → Bool) : Bool :=
  s.ctx?.any fun c => (s.team? (teamOf c.cur.unit)).any fun q => (s.set? q.set).any fun z => p c z q

theorem escOk_spec {s : State} {p : Ctx → TSet → Team → Bool} (h : escOk s p = true) :
    ∃ c z q, s.ctx? = some c ∧ s.team? (teamOf c.cur.unit) = some q ∧ s.set? q.set = some z ∧ p c z q = true := by
  unfold escOk at h
  obtain ⟨c, hc, h⟩ := exists_of_any h
  obtain ⟨q, hq, h⟩ := exists_of_any h
  obtain ⟨z, hz, h⟩ := exists_of_any h
  exact ⟨c, z, q, hc, hq, hz, h⟩

/-- The fragment of a warp's context stands where the context says. -/
def placed (s : State) (c : Ctx) (handler : Bool) : Bool :=
  (s.warp? 1 0).any fun x => ((x.byFid c.fid).any fun f => f.cpc == c.cpc && f.slot == c.slot) && decide (c.slot < 16) && x.regs.ops == [] &&
    x.handler.isSome == handler

theorem test_witness_TrapEscalates :
    (∃ z, ({ warpState with sets := [(1, { fetchSet with frozen := true })] } : State).set? 1 = some z ∧ z.frozen = true ∧
      (warpState.team? 1).map (·.set) = some 1) ∧
    (∃ c z q, (trapState 0).ctx? = some c ∧ (trapState 0).team? (teamOf c.cur.unit) = some q ∧ (trapState 0).set? q.set = some z ∧
      (placed (trapState 0) c false && q.pkt.getD 3 0 == 0) = true) ∧
    (∃ c z q, (handlerState id).ctx? = some c ∧ (handlerState id).team? (teamOf c.cur.unit) = some q ∧ (handlerState id).set? q.set = some z ∧
      placed (handlerState id) c true = true) ∧
    (∃ c z q, cccState.ctx? = some c ∧ cccState.team? (teamOf c.cur.unit) = some q ∧ cccState.set? q.set = some z ∧
      isCcc c.cur.unit = true) :=
  ⟨⟨_, rfl, rfl, by decide +kernel⟩, escOk_spec (by decide +kernel), escOk_spec (by decide +kernel), escOk_spec (by decide +kernel)⟩

/-- What the statement about `rte` and `exit` asks of a handler, and that no lookup of its clauses is open. -/
def handlerMeets (s : State) (c : Ctx) (x : Warp) : Bool :=
  c.kind == .handler && c.cur.sel == .handler && (x.handler.any fun h => h.fid == c.fid) &&
    (x.frame.any fun fr => fr.fid != c.fid && !s.lookups c.cur.unit (fr.rpc :: fr.ents.map (·.cpc)))
/-- The handler's own counted operations are done. -/
def opsDone (c : Ctx) (x : Warp) : Bool := c.phase == 0 && x.regs.ops.all fun o => o.fid != c.fid
/-- Every entry has been performed or discarded. -/
def entsGone (x : Warp) : Bool := x.frame.any fun fr => fr.ents.all fun e => !e.v

/-- A handler with one entry left; the entry's outcome. -/
def replayState (e : Entry) : State := handlerState fun fr => { fr with ents := [e] }
def outcome (e : Entry) : Nat := match (replayState e).performEntry 1 0 e with
  | .retire _ => 0
  | .placed _ => 1
  | .done _ => 2
  | .trap _ _ => 3
  | .wait _ _ => 4
/-- The load once more with the flag named that counts nothing; a load of an address that no page holds. -/
def entryWaits : Entry := { entry true with instr := .ldG { gmS 6 with ord := 1, sco := 3 } }

theorem test_rte_resumes_after_a_software_trap :
    ((after .rte (handlerState fun fr => { fr with rpc := 0, rsl := 0 })).warp? 1 0).map (fun x => (x.handler.isNone, x.live0.map (·.cpc))) =
      some (true, some 16) := by decide +kernel

theorem test_witness_HandlersAndReturn :
    Meets warpState (.trap 7) always ∧
    (∀ i ∈ [Instr.rte, .exit], Meets (handlerState id) i fun c x => handlerMeets (handlerState id) c x && opsDone c x && entsGone x) ∧
    (Meets ((handlerState id).modWarp 1 0 fun x => { x with regs := { x.regs with ops := handlerOps } }) .rte fun c x =>
      c.phase == 0 && x.regs.ops.any fun o => o.fid == c.fid) ∧
    (Meets ((handlerState id).modWarp 1 0 fun x => { x with handler := x.handler.map fun h => { h with phase := 1 } }) .rte fun c _ => c.phase != 0) ∧
    (Meets (replayState { entry true with fid := 0 }) .exit fun c x => handlerMeets (replayState (entry true)) c x && opsDone c x &&
      x.frame.any fun fr => fr.ents.all fun e => e.v && e.fid == fr.fid) ∧
    ([{ entry true with mode := true }, entry true].map fun e => (e.mode, outcome e)) = [(true, 0), (false, 0)] ∧
    outcome { entry true with slot := 1 } = 3 ∧
    (∃ p, ((handlerState id).modTeam 1 fun q => { q with pkt := lset q.pkt 3 0x400 }).team? 1 = some p ∧ p.pkt.getD 3 0 ≠ 0) ∧
    (∃ x, (handlerState id).warp? 1 0 = some x ∧ (x.frame.isSome && x.regs.ops == [] && (x.handler.all (·.fid != 0)) && (x.byFid 0).isSome) = true) ∧
    (∀ i ∈ [Instr.rqRd ⟨20, 4, false, 0x400⟩, .rqWr ⟨20, 4, false, 8⟩, .rqWr ⟨20, 4, false, 4⟩], Meets (handlerState id) i fun _ x => x.frame.isSome) ∧
    (Meets (handlerState id) (.rqRd ⟨20, 18, true, 0⟩) fun _ x => (x.regs.s 18).toNat % 4 != 0) ∧
    ((fetchFrame.put 8 7).isSome = true ∧ fetchFrame.put 4 7 = none) ∧
    (Meets (handlerState id) (.trapDrop ⟨5, 18⟩) fun _ x => x.frame.any fun fr => (fr.ents[0]?).isNone) ∧
    (Meets (replayState (entry true)) (.trapDrop ⟨5, 18⟩) fun _ x => x.frame.any fun fr => (fr.ents[0]?).any (·.v)) ∧
    (fetchFrame.code < 256 ∧ fetchFrame.ents.length < 16 ∧ fetchFrame.flte < 16) :=
  ⟨meets_of_ok (by decide +kernel), meets_all (by decide +kernel), meets_of_ok (by decide +kernel), meets_of_ok (by decide +kernel),
    meets_of_ok (by decide +kernel), by decide +kernel, by decide +kernel, ⟨_, rfl, by decide +kernel⟩, exists_of_any (by decide +kernel),
    meets_all (by decide +kernel), meets_of_ok (by decide +kernel), by decide +kernel, meets_of_ok (by decide +kernel),
    meets_of_ok (by decide +kernel), by decide +kernel⟩

/-- A control register by number. -/
def csr (n : Nat) : CsrW := ⟨20, true, BitVec.ofNat 12 n⟩

theorem test_witness_ControlRegisters :
    (∀ i ∈ [1, 2, 3, 0x100, 0x101, 0x102, 0x103, 0x104, 0x110, 0x111, 0x112, 0x113, 0x120].map fun n => Instr.csrRd (csr n), Meets warpState i always) ∧
    (∀ i ∈ [1, 8, 9, 0x100, 0x101, 0x102, 0x103, 0x104, 0x110, 0x111, 0x112, 0x113].map fun n => Instr.csrRd (csr n), CccMeets cccState i fun _ _ => true) ∧
    (∀ i ∈ [0x100, 0x101, 0x102, 0x103, 0x104, 0x110, 0x111, 0x113, 0x120].map fun n => Instr.csrWr (csr n), Meets warpState i fun c _ => c.phase == 0) ∧
    (Meets (fragState fun f => { f with phase := 1 }) (.csrWr (csr 0x103)) fun c _ => c.phase != 0) ∧
    ((5 : Word) - 3 ≤ 5 - 1 ∧ ¬ (5 : Word) - 0 ≤ 5 - 1) :=
  ⟨meets_all (by decide +kernel), cccMeets_all (by decide +kernel), meets_all (by decide +kernel), meets_of_ok (by decide +kernel), by decide⟩

theorem test_csr_write_then_read : sOf (after (.csrRd ⟨20, false, 0x101⟩) (again (after (.csrWr ⟨4, false, 0x101⟩) warpState))) 20 = 0x1000#32 := by
  decide +kernel

/-- An invalidation of owner 1 in progress. -/
def inval1 : Inval := ⟨1, 1, 0, none, none⟩

theorem test_witness_Invalidations :
    State.reset.inval = none ∧ ({ State.reset with inval := some inval1 } : State).inval.isSome = true ∧
    (⟨1, 2, 0, none, none⟩ : Inval).mode = 2 ∧ inval1.mode = 1 ∧ (⟨1, 3, 0, none, none⟩ : Inval).mode = 3 ∧ (⟨1, 0, 0, none, none⟩ : Inval).mode = 0 ∧
    (∃ z, ({ warpState with inval := some inval1 } : State).inval = some z ∧ ({ warpState with inval := some inval1 } : State).invalDone z = true) ∧
    (∃ z, ({ pendState (someWrite 9 false [] []) with inval := some inval1 } : State).inval = some z ∧
      (!({ pendState (someWrite 9 false [] []) with inval := some inval1 } : State).invalDone z) = true) :=
  ⟨rfl, rfl, rfl, rfl, rfl, rfl, exists_of_any (by decide +kernel), exists_of_any (by decide +kernel)⟩

/-- A ring of sixteen entries at 0x4000; an entry held for core 0. -/
def ringCsrs : Csrs := { Csrs.reset with rbase := 0x4000, rctl := 4 }
def heldEnt : RingEnt := ⟨0, 9, 1, 0, 0, 0, false, 0, 0, 0, 1, []⟩

theorem test_ring_entry_goes_to_its_slot : (({ State.reset with csrs := { ringCsrs with rwi := 17, rri := 16 } } : State).ringPut (.core 0) heldEnt).pend.map (·.addr) =
    [0x4040, 0x4050, 0x4060, 0x4070] := by decide +kernel

theorem test_witness_RingAndKill :
    (({ State.reset with csrs := ringCsrs } : State).ringBusy (.core 0) = false ∧ ringCsrs.rbase ≠ 0 ∧ 4 ≤ ringCsrs.rctl.toNat % 32 ∧
      (ringCsrs.rwi - ringCsrs.rri).toNat < 2 ^ 4 ∧ ringCsrs.rbase.toNat % 64 = 0 ∧ State.reset.ringOut = []) ∧
    (State.reset.ringBusy (.core 0) = false ∧ State.reset.csrs.rbase = 0) ∧
    ({ State.reset with ringHeld := [(.core 0, heldEnt)] } : State).ringBusy (.core 0) = true ∧
    (Meets (handlerState id) (.ringPost ⟨8, 7⟩) fun c _ => c.phase == 0 && (handlerState id).quiet c.cur.unit ((handlerState id).seqOf c.cur.unit) &&
      (handlerState id).writes == [] && !(handlerState id).ringBusy ((handlerState id).ringSrc c.cur.unit)) ∧
    (Meets { handlerState id with flight := [someWrite 9 false [0] []] } (.ringPost ⟨8, 7⟩) fun c _ => c.phase == 0 &&
      ({ handlerState id with flight := [someWrite 9 false [0] []] } : State).quiet c.cur.unit 0) ∧
    (Meets ((handlerState id).modWarp 1 0 fun x => { x with handler := x.handler.map fun h => { h with phase := 1, snap := [9] } }) (.ringPost ⟨8, 7⟩)
      fun c _ => c.phase != 0) ∧
    (Meets { handlerState id with ringHeld := [(.core 0, heldEnt)] } (.ringPost ⟨8, 7⟩) fun c _ =>
      ({ handlerState id with ringHeld := [(.core 0, heldEnt)] } : State).ringBusy ((handlerState id).ringSrc c.cur.unit)) ∧
    (Meets { handlerState id with pend := [{ someWrite 9 false [] [] with seq := 0 }] , teams := ((handlerState id).modWarp 1 0 fun x =>
        { x with regs := { x.regs with seq := 1 } }).teams } (.ringPost ⟨8, 7⟩) fun c _ => c.phase == 0) ∧
    ({ State.reset with ringHeld := [(.core 0, heldEnt)] } : State).ringHeld.find? (·.1 == .core 0) = some (.core 0, heldEnt) ∧
    (({ State.reset with ringOut := [9] } : State).ringOut ≠ [] ∧ ({ State.reset with ringOut := [9] } : State).ringOut.any
      ({ State.reset with ringOut := [9] } : State).onWay = false) ∧
    (∃ z, warpState.set? 1 = some z ∧ (!z.frozen && !z.killed && (warpState.team? 1).isSome) = true) ∧
    (∃ z, ({ warpState with sets := [(1, { fetchSet with frozen := true, killed := true })] } : State).set? 1 = some z ∧
      (z.killed && z.frozen && (warpState.team? 1).any (warpState.quietTeam 1)) = true) ∧
    State.reset.team? 5 = none :=
  by and_intros <;> first | decide +kernel | exact meets_of_ok (by decide +kernel)

theorem test_witness_Halt :
    (Meets warpState .halt fun c _ => (warpState.set? (warpState.setOf (teamOf c.cur.unit))).isSome &&
      !warpState.ringBusy (warpState.ringSrc c.cur.unit)) ∧
    Meets { warpState with ringHeld := [(.core 0, heldEnt)] } .halt fun c _ =>
      ({ warpState with ringHeld := [(.core 0, heldEnt)] } : State).ringBusy (warpState.ringSrc c.cur.unit) :=
  ⟨meets_of_ok (by decide +kernel), meets_of_ok (by decide +kernel)⟩

/-! ## Copies, tags, tiles -/

/-- Every tile of the team core is the engine's. -/
def engineState : State := warpState.modTeam 1 fun q => { q with eown := [(List.range 96).map fun m => (m, ())] }
/-- The state with a tag of the team core as given. -/
def tagState (n : Nat) (g : Tag) : State := engineState.modTag 1 0 n fun _ => g
/-- A copy of 128 bytes between [s4:s5] and tile 1. -/
def cpWord : CpW := ⟨4, 0, 1, 3, false, false, true, true, false, 4⟩
/-- A pending tag with a copy of kind `sub` of 256 bytes between 0x1000 and tile 1, or an accumulator row, and `prog` units moved. -/
def copyOf (sub : Nat) : Copy := ⟨sub, 0, 0, 7, 0x1000, 0x1000, (1, 0, 0x1000), 256, none, false, none, 0, 0, 0, 0, 0, [], [], none, 0⟩
/-- The command as it is checked. -/
def asked (sub : Nat) (i : Instr) : Copy :=
  (engineState.ctx?.map fun c => cpAsk cpWord sub (engineState.envOf c i) engineState (.warp 1 0) 1).getD (copyOf sub)
def tagOf (sub prog : Nat) : Tag := ⟨1, false, false, false, sub, 0, prog, 0, some (copyOf sub)⟩

theorem test_copy_starts : ((after (.cpG2s cpWord) engineState).tag? 1 0 3).map (fun g => (g.st, g.prog)) = some (1, 0) ∧
    (after (.cpG2s cpWord) engineState).tileUse 1 0 1 = 1 := by decide +kernel

theorem test_witness_CopyCommands :
    (∀ i ∈ [Instr.cpG2s cpWord, .cpS2g cpWord, .cpS2o { cpWord with d := 0 }, .cpA2s { cpWord with d := 0 }], Meets engineState i fun _ _ =>
      (engineState.tag? 1 0 3).any fun g => g.st != 1) ∧
    (Meets (tagState 3 (tagOf 0 0)) (.cpG2s cpWord) fun _ _ => ((tagState 3 (tagOf 0 0)).tag? 1 0 3).any fun g => g.st == 1) ∧
    (∃ e, (engineState.cpCheck 1 2 (asked 0 (.cpG2s cpWord))).toOption = some e ∧ (e == (1, 0, 4096)) = true) ∧
    (∃ e, (errOf' (warpState.cpCheck 1 2 (asked 0 (.cpG2s cpWord)))) = some e ∧ (e.1 == cOWNER) = true) ∧
    (engineState.cpCheck 1 2 (copyOf 3)).toOption.isSome = true ∧
    ((copyOf 0).sp % 16 = 0 ∧ (copyOf 0).gva.toNat % 16 = 0 ∧ (copyOf 0).mbox = none ∧ (copyOf 0).sub ≤ 1 ∧ (copyOf 0).shape = none ∧
      (393232 = 0 ∨ 393232 % 16 ≠ 0 ∨ 393216 < 393232)) ∧
    ((engineState.team? 1).bind fun q => q.slots[0]?).any (!·.cl) = true :=
  ⟨meets_all (by decide +kernel), meets_of_ok (by decide +kernel), exists_of_any (by decide +kernel), exists_of_any (by decide +kernel),
    by decide +kernel⟩

/-- The current arbiter of cluster 0 holds a reservation for the copy. -/
def heldState (sub prog : Nat) : State := (tagState 3 (tagOf sub prog)).modCluster 0 fun k => { k with held := [⟨.cpe, 1, 1, 0, 7, 1, 0⟩] }
/-- The tag with its copy, its team, and `p`. -/
def copyOk (s : State) (p : Tag → Copy → Team → Bool) : Bool :=
  (s.team? 1).any fun q => (s.tag? 1 0 3).any fun g => g.cp.any fun a => p g a q

theorem copyOk_spec {s : State} {p : Tag → Copy → Team → Bool} (h : copyOk s p = true) :
    ∃ q g a, s.team? 1 = some q ∧ s.tag? 1 0 3 = some g ∧ g.cp = some a ∧ p g a q = true := by
  unfold copyOk at h
  obtain ⟨q, hq, h⟩ := exists_of_any h
  obtain ⟨g, hg, h⟩ := exists_of_any h
  obtain ⟨a, ha, h⟩ := exists_of_any h
  exact ⟨q, g, a, hq, hg, ha, h⟩

/-- The copy is the engine's next, with its reservation, and nothing of its warp holds it. -/
def mayMove (s : State) (a : Copy) (q : Team) : Bool :=
  s.nextJob q.cluster == some ⟨1, 0, 3, 0, a⟩ && ((s.curHeld q.cluster .cpe).any fun r => r.tag == a.order) && !s.unitHeld 1 a
/-- A lookup of the unit's bytes is not over. -/
def copyLooks (s : State) (g : Tag) (a : Copy) (q : Team) : Bool :=
  (a.parts g.prog).any fun i => s.lookupOpen none (dieOfCluster q.cluster) q.owner (a.gaddr i)
/-- The unit's addresses are good, and it may move or waits. -/
def unitOk (s : State) (g : Tag) (a : Copy) (waits : Bool) : Bool := match s.unitLeaves 1 a g.prog with
  | .ok l => s.unitWaits 1 a l == waits
  | .error _ => false
/-- A copy from a page that may not be read; one that an acquire of its warp holds; one behind a write of its warp. -/
def failState : State := { heldState 0 0 with tlbs := (heldState 0 0).tlbs.map fun p => (p.1, p.2.map fun e =>
  if e.lvl == 4 then e else { e with w0 := e.w0 &&& ~~~4#64 }) }
def acqState : State := ({ heldState 0 0 with teams := ((after (.ldG { gmS 6 with ord := 1, sco := 3 }) (heldState 0 0))).teams }).modTag 1 0 3 fun g =>
  { g with cp := some { copyOf 0 with seq := 9 } }
def behindState : State := { heldState 0 0 with pend := [someWrite 9 false [] []] }.modTag 1 0 3 fun g => { g with cp := some { copyOf 0 with seq := 9 } }
/-- A fault of the copy, and its tag. -/
def faultTag : Tag := { tagOf 1 0 with cp := some { copyOf 1 with fault := some (cPERM, 0x1000) } }

theorem test_witness_CopyProgress :
    (∀ sub ∈ [0, 1], ∃ q g a, (heldState sub 0).team? 1 = some q ∧ (heldState sub 0).tag? 1 0 3 = some g ∧ g.cp = some a ∧
      (mayMove (heldState sub 0) a q && !copyLooks (heldState sub 0) g a q && unitOk (heldState sub 0) g a false) = true) ∧
    (∀ sub ∈ [2, 3], ∃ q g a, (heldState sub 0).team? 1 = some q ∧ (heldState sub 0).tag? 1 0 3 = some g ∧ g.cp = some a ∧
      (mayMove (heldState sub 0) a q && (q.slots[a.slot]?).isSome && min 256 a.len % 4 == 0) = true) ∧
    (∃ q g a, failState.team? 1 = some q ∧ failState.tag? 1 0 3 = some g ∧ g.cp = some a ∧
      (mayMove failState a q && !copyLooks failState g a q && errOf' (failState.unitLeaves 1 a g.prog) != none) = true) ∧
    (∃ q g a, (opened (heldState 0 0)).team? 1 = some q ∧ (opened (heldState 0 0)).tag? 1 0 3 = some g ∧ g.cp = some a ∧
      (mayMove (opened (heldState 0 0)) a q && copyLooks (opened (heldState 0 0)) g a q) = true) ∧
    (∃ q g a, behindState.team? 1 = some q ∧ behindState.tag? 1 0 3 = some g ∧ g.cp = some a ∧
      (mayMove behindState a q && !copyLooks behindState g a q && unitOk behindState g a true) = true) ∧
    (∃ q g a, acqState.team? 1 = some q ∧ acqState.tag? 1 0 3 = some g ∧ g.cp = some a ∧
      (acqState.nextJob q.cluster == some ⟨1, 0, 3, 0, a⟩ && acqState.unitHeld 1 a) = true) ∧
    (∃ q g a, (tagState 3 (tagOf 0 0)).team? 1 = some q ∧ (tagState 3 (tagOf 0 0)).tag? 1 0 3 = some g ∧ g.cp = some a ∧
      ((tagState 3 (tagOf 0 0)).nextJob q.cluster == some ⟨1, 0, 3, 0, a⟩ && (tagState 3 (tagOf 0 0)).curHeld q.cluster .cpe == none) = true) ∧
    warpState.nextJob 0 = none ∧
    (∃ q g a, (heldState 1 1).team? 1 = some q ∧ (heldState 1 1).tag? 1 0 3 = some g ∧ g.cp = some a ∧
      (g.st == 1 && !g.halt && !g.dh && decide (a.units ≤ g.prog) && a.writes.isEmpty && !a.rel && q.posts.isEmpty && decide (0 < a.len)) = true) ∧
    (∃ q g a, (tagState 3 faultTag).team? 1 = some q ∧ (tagState 3 faultTag).tag? 1 0 3 = some g ∧ g.cp = some a ∧
      (g.st == 1 && !g.halt && !g.dh && a.fault.isSome && a.writes.isEmpty && q.posts.isEmpty && decide (0 < a.len)) = true) := by
  refine ⟨?_, ?_, copyOk_spec (by decide +kernel), copyOk_spec (by decide +kernel), copyOk_spec (by decide +kernel), copyOk_spec (by decide +kernel),
    copyOk_spec (by decide +kernel), by decide +kernel, copyOk_spec (by decide +kernel), copyOk_spec (by decide +kernel)⟩ <;>
    exact of_all (fun _ => copyOk_spec) (by decide +kernel)

/-- Tags 0 to 3 of the team core: idle, done, done with a fault, pending. -/
def tagsState : State := (((warpState.modTag 1 0 1 fun g => { g with st := 2 }).modTag 1 0 2 fun g =>
  { g with st := 2, err := true, cause := cPERM }).modTag 1 0 3 fun _ => tagOf 0 0)
/-- A tag form over a mask, and of another team core. -/
def tagW (m : Nat) : TagW := ⟨20, 0, true, false, 0, BitVec.ofNat 16 m⟩
/-- The tags that a mask selects. -/
def sel (m : Nat) : List (Nat × Tag) := tagsState.masked 1 0 m

/-- An acquiring load of the warp is not performed. -/
def acqTags : State := again (after (.ldG { gmS 6 with ord := 1, sco := 3 }) tagsState)

theorem test_tag_wany_takes_the_lowest_done : sOf (after (.tagWany (tagW 0b1010)) tagsState) 20 = 1#32 := by decide +kernel

theorem test_witness_TagForms :
    (∀ i ∈ [Instr.cpHalt 3, .cpGo 3, .cpHalt 1, .cpGo 1], Meets tagsState i fun _ _ => (tagsState.tag? 1 0 3).any fun g => g.st == 1 && !g.halt) ∧
    (Meets (tagsState.modTag 1 0 3 fun g => { g with prog := 1 }) (.cpHalt 3) fun _ _ => ((tagsState.modTag 1 0 3 fun g => { g with prog := 1 }).tag? 1 0 3).any
      fun g => g.cp.any fun a => decide (a.units ≤ g.prog)) ∧
    (∀ i ∈ [Instr.tagWany (tagW 2), .tagWall (tagW 2), .tagFfr (tagW 2), .tagClr (tagW 2), .tagRd { tagW 0x8000 with }, .tagRd (tagW 3)],
      Meets tagsState i fun c _ => c.phase != 2 && !isCcc c.cur.unit) ∧
    (∀ i ∈ [Instr.tagWany { tagW 2 with xc := true, ci := 0 }, .tagRd { tagW 3 with xc := true }], CccMeets cccState i fun c _ => isCcc c.cur.unit) ∧
    (CccMeets cccState (.tagFfr (tagW 2)) fun c _ => isCcc c.cur.unit) ∧
    (∀ i ∈ [Instr.tagWany (tagW 2), .tagWall (tagW 2)], Meets (tagsState.modWarp 1 0 fun x => { x with live0 := x.live0.map fun f =>
      { f with phase := 2, snap := [5] } }) i fun c _ => c.phase == 2) ∧
    (∀ i ∈ [Instr.tagWany (tagW 2), .tagWall (tagW 2)], Meets (tagsState.modWarp 1 0 fun x => { x with live0 := x.live0.map fun f =>
      { f with phase := 3, snap := [5, cPERM, 0x1000] } }) i fun c _ => c.phase == 3 && !tagsState.acqPending c.cur.unit) ∧
    (∀ i ∈ [Instr.tagWany (tagW 2), .tagWall (tagW 2)], Meets acqTags i fun c _ => acqTags.acqPending c.cur.unit) ∧
    (∃ f : Frag, f.phase < 2 ∧ f.wait = some (.tagAll 0 6) ∧ (∀ p ∈ tagsState.masked 1 0 6, p.2.st = 2)) ∧
    (∃ f : Frag, f.phase < 2 ∧ f.wait = some (.tagAny 0 1) ∧ (∀ p ∈ tagsState.masked 1 0 1, p.2.st = 0)) ∧
    ((sel 2).find? (·.2.st == 2)).isSome = true ∧ ((sel 4).find? (·.2.st == 2)).any (·.2.err) = true ∧ (sel 1).all (·.2.st == 0) = true ∧
    ((sel 9).all (·.2.st != 2) && (sel 9).any (·.2.st != 0)) = true ∧ ((sel 0xA).all (·.2.st != 0) && (sel 0xA).any (·.2.st != 2)) = true ∧
    0 < 1 ∧ 2 < 2 ^ (tagsState.tags 1 0).length :=
  ⟨meets_all (by decide +kernel), meets_of_ok (by decide +kernel), meets_all (by decide +kernel), cccMeets_all (by decide +kernel),
    cccMeets_of_ok (by decide +kernel), meets_all (by decide +kernel), meets_all (by decide +kernel), meets_all (by decide +kernel),
    ⟨{ Frag.start fullMap 0 0 with wait := some (.tagAll 0 6) }, by decide +kernel⟩,
    ⟨{ Frag.start fullMap 0 0 with wait := some (.tagAny 0 1) }, by decide +kernel⟩, by decide +kernel⟩

/-- Tiles from tile `n` on. -/
def ownW (n nt : Nat) : OwnW := ⟨20, 0, BitVec.ofNat 7 nt, true, BitVec.ofNat 12 n⟩

theorem test_witness_TileOwnership :
    (∀ i ∈ [Instr.ownGive (ownW 1 0), .ownTest (ownW 1 31), .ownGive (ownW 95 0), .ownTest (ownW 0 0)], Meets warpState i fun c _ =>
      (warpState.spDecode 1 (0x1000 + 0x100)).isSome && !warpState.tilesBusy 1 0 1 1 && !warpState.spOpen c.cur.unit) ∧
    (Meets (again (after (.ldSp (spZ 6 0x400)) lane2)) (.ownGive (ownW 1 0)) fun c _ => (again (after (.ldSp (spZ 6 0x400)) lane2)).spOpen c.cur.unit) ∧
    (∀ i ∈ [Instr.ownGive (ownW 95 1), .ownGive (ownW 0 0), .ownGive ⟨20, 18, 0, false, 1⟩], Meets warpState i always) ∧
    (Meets (again (after (.ldSp (spZ 6 0x1000 |> fun w => { w with b := 2, offl := 0 })) lane2)) (.ownGive (ownW 1 0)) fun _ _ =>
      (again (after (.ldSp (spZ 6 0x1000 |> fun w => { w with b := 2, offl := 0 })) lane2)).tilesBusy 1 0 1 1) :=
  ⟨meets_all (by decide +kernel), meets_of_ok (by decide +kernel), meets_all (by decide +kernel), meets_of_ok (by decide +kernel)⟩

theorem test_own_give : (after (.ownGive (ownW 1 1)) warpState).tileE 1 0 2 = true ∧ (after (.ownGive (ownW 1 1)) warpState).tileE 1 0 3 = false := by
  decide +kernel

/-! ## The matrix engine -/

/-- Slots 0 and 1 are claimed with format FP16, and v4 holds its format word in every lane. -/
def slotState : State := (warpWith fun x => { x with v := (4, laneVals fullMap fun _ => 0x40) :: x.v }).modTeam 1 fun q =>
  { q with slots := lset (lset q.slots 0 ⟨true, 0, []⟩) 1 ⟨true, 0, []⟩ }
/-- The same with the context at its word. -/
def slotCcc : State := { cccState with teams := (cccState.modTeam 1 fun q =>
  { q with slots := lset (lset q.slots 0 ⟨true, 0, []⟩) 1 ⟨true, 0, []⟩, eown := [(List.range 96).map fun m => (m, ())] }).teams }
/-- A pass that reads slots 0 and 1 has been granted. -/
def passState (s : State) : State := s.modCluster 0 fun k =>
  { k with entries := [{ ent with instr := .mxIp ⟨0, 0, 1, 0, false, false, 0, false, 0, false⟩, granted := some 1 }] }
def opStW : OpStW := ⟨0, rf 2, rf 3, 2, false, 0, 0⟩
def feedW : FeedW := ⟨0, rf 2, rf 4, false, 0, 0, false, 0⟩
def clrW : AcClrW := ⟨0, 0, 0, false, 1⟩

theorem test_op_claim : ((after (.opClaim ⟨2, 1⟩) warpState).slot? 1 2).map (fun z => (z.cl, z.fmt)) = some (true, 1) := by decide +kernel

theorem test_witness_SlotsAndAccumulators :
    (∀ i ∈ [Instr.opClaim ⟨0, 1⟩, .opRel 0], Meets slotState i fun c _ => (slotState.slot? 1 0).isSome && !slotState.passReads 1 0 &&
      !slotState.heldBack c.cur.unit fun _ => false) ∧
    (∀ i ∈ [Instr.opClaim ⟨0, 1⟩, .opRel 0], Meets (passState slotState) i fun _ _ => (passState slotState).passReads 1 0) ∧
    (Meets slotState (.opSt opStW) fun _ _ => (slotState.slot? 1 0).any (·.cl)) ∧
    (Meets slotState (.opSt { opStW with sz := 4 }) fun c _ => (lanesOf (effMap (slotState.envOf c (.opSt opStW))
      [(slotState.envOf c (.opSt opStW)).a, (slotState.envOf c (.opSt opStW)).b])).any fun l => opLane (slotState.envOf c (.opSt opStW)).b l % 4 != 0) ∧
    (Meets warpState (.opSt opStW) fun _ _ => (warpState.slot? 1 0).all (!·.cl)) ∧
    (Meets slotState (.opSt { opStW with strict := true }) fun c _ =>
      occMism c.lm [(slotState.envOf c (.opSt opStW)).a, (slotState.envOf c (.opSt opStW)).b]) ∧
    (Meets slotState (.mxFeed feedW) fun c _ => (match fmtVote (slotState.feature 5) (opMap (slotState.envOf c (.mxFeed feedW)).b &&& c.lm)
        fun l => opLane (slotState.envOf c (.mxFeed feedW)).b l % 2 ^ 32 with
      | .ok f => f == 0
      | .error _ => false)) ∧
    (Meets slotState (.mxFeed { feedW with b := rf 3 }) fun c _ => (match fmtVote (slotState.feature 5) (opMap (slotState.envOf c (.mxFeed { feedW with b := rf 3 })).b &&& c.lm)
        fun l => opLane (slotState.envOf c (.mxFeed { feedW with b := rf 3 })).b l % 2 ^ 32 with
      | .ok _ => false
      | .error _ => true)) ∧
    (Meets (flagState 62) (.acLd ⟨rf 6, 0, 0, 0, false, false⟩) fun _ x => decide (x.regs.flag 0 < 63) && inRegion ((flagState 62).blocksOf 1) 0 0) ∧
    (Meets (flagState 63) (.acLd ⟨rf 6, 0, 0, 0, false, false⟩) fun _ x => decide (63 ≤ x.regs.flag 0)) ∧
    (Meets warpState (.acLd ⟨rf 6, 4, 0, 0, true, false⟩) fun _ x => !inRegion (warpState.blocksOf 1) (x.regs.s 4).toNat 0) ∧
    (Meets warpState (.acClr clrW) fun c _ => rowsOk (warpState.blocksOf 1) (0, 2, 0) && !warpState.heldBack c.cur.unit fun _ => true) ∧
    (CccMeets cccState (.acClr clrW) fun _ _ => rowsOk (cccState.blocksOf 1) (0, 2, 0)) ∧
    (Meets warpState (.acClr { clrW with row := 511 }) fun _ _ => !rowsOk (warpState.blocksOf 1) (511, 2, 0)) ∧
    (∀ i ∈ [Instr.mxCfg ⟨0, true, false, 32⟩, .mxCfg ⟨0, true, false, 4⟩], CccMeets cccState i fun _ _ => true) :=
  ⟨meets_all (by decide +kernel), meets_all (by decide +kernel), meets_of_ok (by decide +kernel), meets_of_ok (by decide +kernel),
    meets_of_ok (by decide +kernel), meets_of_ok (by decide +kernel), meets_of_ok (by decide +kernel), meets_of_ok (by decide +kernel),
    meets_of_ok (by decide +kernel), meets_of_ok (by decide +kernel), meets_of_ok (by decide +kernel), meets_of_ok (by decide +kernel),
    cccMeets_of_ok (by decide +kernel), meets_of_ok (by decide +kernel), cccMeets_all (by decide +kernel)⟩

/-- Scalars of the context by number. -/
def cccSc (s : State) (l : List (Nat × Nat)) : State := s.modCcc 1 0 fun y => { y with regs := { y.regs with sc := l.map fun p => (p.1, BitVec.ofNat 32 p.2) } }
/-- A pass over slots 0 and 1 from row 0; `mx.rw` with slot 1 and the list objects of [s4, s5]; a scan. -/
def mxW : MxW := ⟨0, 0, 1, 0, false, false, 0, false, 0, false⟩
def rwW : MxW := { mxW with a := 4 }
def nzsW : NzsW := ⟨4, 6, 8, false, 0, false, 0⟩

theorem test_witness_MatrixEntries :
    (∀ i ∈ [Instr.mxIp mxW, .mxOp mxW], CccMeets slotCcc i fun _ _ => (slotCcc.slot? 1 0).isSome && rowsOk (slotCcc.blocksOf 1) (0, 128, 0) && !slotCcc.pointBad 1 i) ∧
    (CccMeets (slotCcc.modTeam 1 fun q => { q with slots := [] }) (.mxIp mxW) fun _ _ => true) ∧
    (CccMeets slotCcc (.mxIp { mxW with ae := true, apt := 3 }) fun _ _ => slotCcc.pointBad 1 (.mxIp { mxW with ae := true, apt := 3 })) ∧
    (CccMeets (slotCcc.modCluster 0 fun k => { k with entries := List.replicate 32 ent }) (.mxIp mxW) fun _ _ => true) ∧
    (∀ i ∈ [Instr.mxIp mxW, .mxRw rwW, .mxNzs nzsW, .acClr clrW], CccMeets (slotCcc.modCcc 1 0 fun y => { y with frag := { y.frag with phase := 1, snap := [0x1000, 2] } })
      i fun c _ => c.phase == 1) ∧
    (CccMeets (cccSc slotCcc [(4, 0x1000), (5, 2)]) (.mxRw rwW) fun _ _ => ((cccSc slotCcc []).extent 1 0x1000 2048).toOption.isSome &&
      ((cccSc slotCcc []).tTile 0x1000 (tilesOf (1, 0, 0x1000) 2048)).isNone) ∧
    (CccMeets (cccSc slotCcc [(4, 0x1000), (5, 129)]) (.mxRw rwW) fun _ y => decide (128 < (y.regs.s 5).toNat)) ∧
    (CccMeets (cccSc slotCcc [(4, 0x1010), (5, 2)]) (.mxRw rwW) fun _ y => (y.regs.s 4).toNat % 1024 != 0) ∧
    (CccMeets (cccSc slotCcc [(4, 0x60000), (5, 2)]) (.mxRw rwW) fun _ _ => !((cccSc slotCcc []).extent 1 0x60000 2048).toOption.isSome) ∧
    (CccMeets (cccSc cccState [(4, 0x1000), (5, 2)]) (.mxRw rwW) fun _ _ => (cccState.tTile 0x1000 (tilesOf (1, 0, 0x1000) 2048)).isSome) ∧
    (CccMeets (cccSc slotCcc [(4, 0x1000), (6, 0x4000), (8, 16), (9, 2)]) (.mxNzs nzsW) fun _ _ => ((cccSc slotCcc []).extent 1 0x4000 288).toOption.isSome) ∧
    (CccMeets (cccSc slotCcc [(4, 0x1000), (6, 0x1000), (8, 16), (9, 2)]) (.mxNzs nzsW) fun _ _ => true) ∧
    (CccMeets (cccSc slotCcc [(4, 0x1000), (6, 0x4000), (8, 0), (9, 2)]) (.mxNzs nzsW) fun _ y => (y.regs.s 8).toNat == 0) ∧
    (CccMeets (cccSc slotCcc [(4, 0x1010), (6, 0x4000), (8, 16), (9, 2)]) (.mxNzs nzsW) fun _ y => (y.regs.s 4).toNat % 1024 != 0) :=
  ⟨cccMeets_all (by decide +kernel), cccMeets_of_ok (by decide +kernel), cccMeets_of_ok (by decide +kernel), cccMeets_of_ok (by decide +kernel),
    cccMeets_all (by decide +kernel), cccMeets_of_ok (by decide +kernel), cccMeets_of_ok (by decide +kernel), cccMeets_of_ok (by decide +kernel), cccMeets_of_ok (by decide +kernel),
    cccMeets_of_ok (by decide +kernel), cccMeets_of_ok (by decide +kernel), cccMeets_of_ok (by decide +kernel), cccMeets_of_ok (by decide +kernel),
    cccMeets_of_ok (by decide +kernel)⟩

/-- Two entries of cluster 0 wait, the current of the first granted. -/
def grantState (s : State) : State := s.modCluster 0 fun k => { k with
  entries := [{ ent with instr := .mxIp mxW }, { ent with id := 2, instr := .mxOp { mxW with row0 := 128 } }]
  held := [⟨.mxe, 1, 36, 0, 1, 1, 0⟩] }
/-- The entries that are eligible with their current granted. -/
def due (s : State) : List Nat := ((s.cluster 0).entries.filter fun x => s.eligible 0 x && (s.curHeld 0 x.unit).any fun r => r.tag == x.id).map (·.id)
/-- The same beside a granted entry that writes the same rows. -/
def clashState : State := (grantState slotCcc).modCluster 0 fun k => { k with entries := { ent with id := 0, ctx := 1, granted := some 1 } :: k.entries }

theorem test_entry_grant_takes_the_first :
    ((after (.entryGrant 0) (grantState slotCcc)).cluster 0).entries.map (fun e => (e.id, e.granted.isSome)) = [(1, true), (2, false)] := by
  decide +kernel

theorem test_witness_MatrixEvents :
    (due (grantState slotCcc) = [1] ∧ ((grantState slotCcc).ccc? 1 0).isSome = true ∧
      ((grantState slotCcc).grantCheck { ent with instr := .mxIp mxW }).toOption.isSome = true) ∧
    due slotCcc = [] ∧ (due clashState = [1] ∧ (clashState.cluster 0).entries.any (fun z => z.granted.isSome && ent.clash z) = true) ∧
    (due (grantState cccState) = [1] ∧ errOf ((grantState cccState).grantCheck { ent with instr := .mxIp mxW }) = some cSLOT) ∧
    (∃ y, (cccState.modCcc 1 0 fun y => { y with grantf := some (8, cSLOT) }).ccc? 1 0 = some y ∧
      (y.grantf.isSome && !y.exited && y.trapd.isNone && (cccState.set? (cccState.setOf 1)).any (!·.frozen)) = true) ∧
    (cccState.grantedEnt 0 .mxe = none ∧ cccState.grantedEnt 0 .nzs = none) ∧
    (∃ x, (passState slotCcc).grantedEnt 0 .mxe = some x ∧ ((outRows x.instr x.caps).any fun o => o.2.2 % 128 == 0 && decide (o.2.2 < 512)) = true) ∧
    (∃ x, (slotCcc.modCluster 0 fun k => { k with entries := [{ ent with instr := .mxNzs nzsW, granted := some 1, caps := [0x1000, 0x4000, 16, 2] }] }).grantedEnt 0 .nzs =
      some x ∧ ((slotCcc.spDecode 1 0x4000).isSome && (slotCcc.spDecode 1 0x1000).isSome && (slotCcc.team? 1).any fun y => (y.scratch[0]?).isSome) = true) :=
  by and_intros <;> decide +kernel

/-! ## Rendezvous, mailboxes, power -/

/-- Object 2 of the team as given, the warp's fragment and the context changed by `g`. -/
def rvState (o : Rv) (g : Frag → Frag) : State := ((warpWith fun x => { x with live0 := x.live0.map g }).setRv 1 2 o)
def rvW : RvW := ⟨4, 2, false, true, 3⟩
/-- The fragment that issues, and `p` of the object. -/
def rvMeets (s : State) (i : Instr) (p : Ctx → Frag → Rv → Bool) : Prop :=
  Meets s i fun c x => (x.frag? c.cur.sel).any fun f => decide (2 < f.tg.length) && p c f (s.rv 1 2)
/-- The phase of the fragment's target is complete. -/
def rvPast (f : Frag) (o : Rv) : Bool := decide ((o.gen + 16 - f.tg.getD 2 1 % 16) % 16 ≤ 7)

/-- The same while an acquiring load of the warp is not performed. -/
def acqRv (o : Rv) : State := (again (after (.ldG { gmS 6 with ord := 1, sco := 3 }) warpState)).setRv 1 2 o

theorem test_rv_arrive_completes_the_phase : (after (.rvArrive rvW) (rvState ⟨3, true, 5, 1⟩ id)).rv 1 2 = ⟨4, true, 5, 5⟩ := by decide +kernel
theorem test_rv_init : (after (.rvInit rvW) (rvState ⟨9, false, 0, 0⟩ id)).rv 1 2 = ⟨9, true, 3, 3⟩ := by decide +kernel

theorem test_witness_Rendezvous :
    (rvMeets (rvState ⟨0, false, 0, 0⟩ id) (.rvInit rvW) fun _ _ o => !o.init) ∧ (rvMeets (rvState ⟨0, true, 3, 3⟩ id) (.rvInit rvW) fun _ _ o => o.init) ∧
    (rvMeets (rvState ⟨0, false, 0, 0⟩ id) (.rvInit { rvW with cnt := 0 }) fun _ _ o => !o.init) ∧
    (∀ i ∈ [Instr.rvArrive rvW, .rvArrw rvW], rvMeets (rvState ⟨0, true, 5, 5⟩ id) i fun c _ o => o.init && c.phase != 1 && decide (1 < o.pend) &&
      (rvState ⟨0, true, 5, 5⟩ id).quiet c.cur.unit 0) ∧
    (∀ i ∈ [Instr.rvArrive rvW, .rvArrw rvW], rvMeets (rvState ⟨0, true, 5, 1⟩ id) i fun c _ o => o.init && o.pend == 1 &&
      !(rvState ⟨0, true, 5, 1⟩ id).acqPending c.cur.unit) ∧
    (rvMeets (rvState ⟨0, true, 40, 31⟩ id) (.rvArrive { rvW with ln := true }) fun c _ o => decide (o.pend < popcount c.lm)) ∧
    (rvMeets ((again (after (.stG (gmS 2)) lane2)).setRv 1 2 ⟨0, true, 5, 5⟩) (.rvArrive rvW) fun c _ _ =>
      !(again (after (.stG (gmS 2)) lane2)).quiet c.cur.unit ((again (after (.stG (gmS 2)) lane2)).seqOf c.cur.unit)) ∧
    (rvMeets (rvState ⟨0, true, 5, 5⟩ id) (.rvWait rvW) fun _ f o => !rvPast f o) ∧
    (rvMeets (rvState ⟨8, true, 5, 5⟩ id) (.rvWait rvW) fun _ f o => rvPast f o) ∧
    (rvMeets (rvState ⟨9, true, 5, 5⟩ id) (.rvWait rvW) fun _ f o => !rvPast f o) ∧
    (rvMeets (acqRv ⟨8, true, 5, 5⟩) (.rvWait rvW) fun c f o => rvPast f o && (acqRv o).acqPending c.cur.unit) ∧
    (rvMeets (rvState ⟨1, true, 5, 5⟩ fun f => { f with phase := 1 }) (.rvArrw rvW) fun c f o => c.phase == 1 && rvPast f o) :=
  ⟨meets_of_ok (by decide +kernel), meets_of_ok (by decide +kernel), meets_of_ok (by decide +kernel), meets_all (by decide +kernel),
    meets_all (by decide +kernel), meets_of_ok (by decide +kernel), meets_of_ok (by decide +kernel), meets_of_ok (by decide +kernel),
    meets_of_ok (by decide +kernel), meets_of_ok (by decide +kernel), meets_of_ok (by decide +kernel), meets_of_ok (by decide +kernel)⟩

/-- A packet of one team of 32 threads, without contexts, whose program starts at 8. -/
def goodPacket : List DWord :=
  [BitVec.ofNat 64 (1 + 32 * 2 ^ 32 + 32 * 2 ^ 44 + 96 * 2 ^ 50 + 64 * 2 ^ 57), BitVec.ofNat 64 (64 + 16 * 2 ^ 7), 8] ++ List.replicate 29 0
/-- Mailbox 0 of owner 1 at the address of s4, with some credits and a packet; `remote` sets its bit. -/
def mboxState (remote : Bool) (credits : Nat) (pkt : List DWord) : State :=
  memWords (memWords { warpState with csrs := { Csrs.reset with mbxtab := 0x6000 } } 0x6000 0
    [BitVec.ofNat 64 (1 + 2 ^ 2 + (if remote then 2 ^ 3 else 0) + 1 * 2 ^ 8 + 0x40 * 2 ^ 16), 0x7000, BitVec.ofNat 64 credits, 0]) 0x7000 1 pkt
def postW : PostW := ⟨20, 4, 8⟩

theorem test_mbx_post_without_credit : sOf (after (.mbxPost postW) (mboxState false 0 goodPacket)) 20 = 1#32 := by decide +kernel

/-- A packet that is refused; a write of the packet that is not performed everywhere. -/
def badPacket : List DWord := 2 :: goodPacket.tail
def packetOpenState : State := { mboxState false 1 goodPacket with flight := [{ someWrite 9 false [0] [] with addr := 0x7000 }] }

theorem test_witness_MailboxPosts :
    (Meets (mboxState false 1 goodPacket) (.mbxPost postW) fun c _ => c.phase == 0 && (mboxState false 1 goodPacket).mboxOf 1 0x1000 false == some 0 &&
      (mboxState false 1 goodPacket).quiet c.cur.unit 0 && (mboxState false 1 goodPacket).writes == [] &&
      !((mboxState false 1 goodPacket).mboxWord 0 0).getLsbD 3 && !(mboxState false 1 goodPacket).packetOpen 1 0x7000 &&
      ((mboxState false 1 goodPacket).readPacket 1 0x7000 false).toOption.isSome) ∧
    (Meets (mboxState false 0 goodPacket) (.mbxPost postW) fun _ _ => (mboxState false 0 goodPacket).mboxOf 1 0x1000 false == some 0) ∧
    (Meets packetOpenState (.mbxPost postW) fun c _ => c.phase == 0 && packetOpenState.mboxOf 1 0x1000 false == some 0 &&
      packetOpenState.quiet c.cur.unit 0 && packetOpenState.packetOpen 1 0x7000) ∧
    (Meets (packetOpenState.modWarp 1 0 fun x => { x with live0 := x.live0.map fun f => { f with phase := 1, snap := [9] } }) (.mbxPost postW)
      fun c _ => c.phase != 0 && packetOpenState.onWay 9) ∧
    (Meets (again (after (.stG (gmS 2)) (mboxState false 1 goodPacket))) (.mbxPost postW) fun c _ => c.phase == 0 &&
      !(again (after (.stG (gmS 2)) (mboxState false 1 goodPacket))).quiet c.cur.unit 1) ∧
    (Meets (mboxState false 1 badPacket) (.mbxPost postW) fun _ _ => ((mboxState false 1 badPacket).readPacket 1 0x7000 false).toOption.isNone &&
      !(mboxState false 1 badPacket).packetOpen 1 0x7000 && !(mboxState false 1 badPacket).ringBusy .package) ∧
    (Meets { mboxState false 1 badPacket with ringHeld := [(.package, heldEnt)] } (.mbxPost postW) fun _ _ =>
      ({ mboxState false 1 badPacket with ringHeld := [(.package, heldEnt)] } : State).ringBusy .package) ∧
    (Meets (mboxState true 1 goodPacket) (.mbxPost postW) fun _ _ => ((mboxState true 1 goodPacket).mboxOf 1 0x1000 false).any fun m =>
      ((mboxState true 1 goodPacket).mboxWord m 0).getLsbD 3) ∧
    (Meets warpState (.mbxPost { postW with a := 18 }) fun _ x => (x.regs.s 18).toNat % 64 != 0) ∧
    (Meets (warpWith fun x => { x with regs := { x.regs with sc := [(5, 0x10000#32)] } }) (.mbxPost postW) fun _ x => decide (2 ^ 16 ≤ (x.regs.s 5).toNat)) :=
  ⟨meets_of_ok (by decide +kernel), meets_of_ok (by decide +kernel), meets_of_ok (by decide +kernel), meets_of_ok (by decide +kernel),
    meets_of_ok (by decide +kernel), meets_of_ok (by decide +kernel), meets_of_ok (by decide +kernel), meets_of_ok (by decide +kernel),
    meets_of_ok (by decide +kernel), meets_of_ok (by decide +kernel)⟩

/-- A grid of one set in queue 17; the set is queued for die 0; how it is admitted. -/
def oneGrid : Grid := ⟨none, 1, false, 0x7000, goodPacket, [5], 17, 0, 0, none⟩
def gridState : State := { State.reset with grids := [(5, oneGrid)], nextId := 6 }
def queuedSet (cls : Nat) : TSet := ⟨5, 0, 0, 0, cls, .queued 0, 6, [], false, false, 0, none⟩
def queuedState : State := { State.reset with grids := [(5, { oneGrid with offered := 1 })], sets := [(6, queuedSet 1)], nextId := 7 }
def plan0 : Admit := ⟨9, [0], [0], [0], [0], [], []⟩

/-- Every cluster of die 0 is gated. -/
def sleepState : State := { queuedState with clusters := (List.range 24).map fun n => (n, { Cluster.reset with power := .gated }) }

/-- Cluster 0 changed. -/
def clState (g : Cluster → Cluster) : State := State.reset.modCluster 0 g

theorem test_current_grants_while_quarters_last :
    ((after (.currentGrant 0) (clState fun k => { k with reqs := [⟨.tre, 1, 40, 0, 0, 1, 0⟩, ⟨.cpe, 1, 30, 0, 0, 1, 0⟩], held := [⟨.pipe 0 0, 1, 62, 0, 0, 16, 0⟩] })).cluster 0).held.map (fun r => (r.who, r.need)) = [(.pipe 0 0, 62), (.tre, 2)] := by
  decide +kernel

theorem test_witness_CurrentAndPower :
    (∀ i ∈ [Instr.perfReq ⟨0, true, 3⟩, .perfReq ⟨18, false, 0⟩], Meets warpState i always) ∧ (Meets warpState (.perfReq ⟨4, false, 0⟩) fun _ x =>
      decide (3 < (x.regs.s 4).toNat)) ∧ (∀ i ∈ [Instr.perfReq ⟨0, true, 3⟩], CccMeets cccState i fun _ _ => true) ∧
    (let s := ({ clState (fun k => { k with clk := 9 }) with dies := [(0, ⟨clkmapReset, 9, [0, 0, 0, 0], 0⟩)] } : State)
     (s.die 0).gidle.toNat % 2 ^ 24 = 9 ∧ s.clusterBusy 0 = false ∧ (s.cluster 0).power = .active ∧ 9 ≤ (s.cluster 0).clk - (s.cluster 0).busyAt) ∧
    (let s := clState (fun k => { k with clk := 32, power := .gating 0 })
     (s.cluster 0).power = .gating 0 ∧ 32 ≤ (s.cluster 0).clk - 0 ∧ s.clusterBusy 0 = false) ∧
    (let s := clState (fun k => { k with clk := 31, power := .gating 0 }); (s.cluster 0).clk - 0 < 32) ∧
    (let r : CurReq := ⟨.cpe, 1, 3, 0, 0, 1, 0⟩
     ((clState fun k => { k with reqs := [r] }).cluster 0).reqs = [r] ∧ r.need ≤ 64) ∧
    (let r : CurReq := ⟨.pipe 0 1, 1, 6, 0, 0, 16, 0⟩; let c : CurReq := ⟨.cpe, 1, 3, 0, 7, 4, 0⟩
     let s := clState fun k => { k with clk := 152, held := [r, c] }
     (s.cluster 0).held = [r, c] ∧ (128 + (s.cluster 0).ratio - 1) / (s.cluster 0).ratio ≤ (s.cluster 0).clk - r.time ∧ 152 ≤ (s.cluster 0).clk - c.time) ∧
    (State.reset.dieClk 0 / 1024 ≤ (State.reset.die 0).period ∧ (clState fun k => { k with clk := 1024 }).dieClk 0 / 1024 = 1) ∧
    (let s := sleepState
     (s.cluster 0).power = .gated ∧ s.set? 6 = some (queuedSet 1) ∧ (queuedSet 1).phase = .queued 0 ∧ tget s.grids 5 = some { oneGrid with offered := 1 } ∧
      (∀ n, n < 24 → s.takes n goodPacket = false) ∧ ∀ n, n < 24 → s.offeredFirst 0 (queuedSet 1) n 0 = false) :=
  ⟨meets_all (by decide +kernel), meets_of_ok (by decide +kernel), cccMeets_all (by decide +kernel), by and_intros <;> decide +kernel⟩

/-! ## Traversal: layout 0 is a heap of seven nodes of 16 bytes at 0x2000, two children each (16_traversal R363). -/

def heapLay : List DWord := [BitVec.ofNat 64 (16 + 2 * 2 ^ 16 + 2 * 2 ^ 19), 0xFFFFFFFFFFFFFFFF, BitVec.ofNat 64 (7 * 2 ^ 32), 0x2000, 0, 0, 0, 0]
/-- The layout with an `enter` routine, and with a `prune` routine. -/
def enterLay : List DWord := lset heapLay 4 0x400
def pruneLay : List DWord := lset heapLay 5 0x400
/-- The layout with a key in the node's first word. -/
def keyLay : List DWord := lset heapLay 1 0xFFFFFFFFFFFF0000
/-- Layout 0 as given, the root 0x2000 in lane 0, the walk block at s8 = 0x1000 of engine tiles; the section at s10 = 0x4000. -/
def walkState (lay : List DWord) : State :=
  ((warpWith fun x => { x with
    v := [(4, [(0, 0x2000#32)]), (5, [(0, 0#32)])]
    regs := { x.regs with sc := [(8, 0x1000#32), (10, 0x4000#32), (18, 3#32)] }
    live0 := x.live0.map fun f => { f with lmap := 1 } }).modTeam 1 fun q =>
      { q with eown := [(List.range 96).map fun m => (m, ())], nlt := [(0, lay)] })
def runW : TwRunW := ⟨rf 6, rf 4, 9, true, 8⟩
/-- A walk in progress, with the current held for it; its record changed by `g`. -/
def walking (lay : List DWord) (g : Walk → Walk) : State :=
  ((after (.twRun runW) (walkState lay)).modWarp 1 0 fun x => { x with walks := x.walks.map g }).modCluster 0 fun k =>
    { k with held := [⟨.tre, 1, 1, 0, 2, 16, 0⟩] }
/-- An event of an invocation of lane 0. -/
def inv0 (evt : WEvt) (stage : Nat) (dec : DWord) : LaneInv := ⟨evt, 0x400, false, 0, stage, 0, 0, [], false, 2, dec, [(0, pruneLay)]⟩

theorem test_heap_layout_is_valid : layValid heapLay = true := by decide +kernel
theorem test_traversal_opens_the_root_onto_its_children :
    (after (.traversalEvent 1 0 0) (walking heapLay id)).stackSP (1, 0, 0x1000) 0 = 3 := by decide +kernel

/-- The fragment is an invocation of walk 2, in which it runs lane 0's routine. -/
def retState (evt : WEvt) (stk : List DWord) : State := (walking heapLay fun z => { z with invs := [(0, inv0 evt 2 0)] }).modWarp 1 0 fun x => { x with
  live0 := x.live0.map fun f => { f with kind := .inv 2, phase := 0, stk := stk, wait := none } }
def retW (m : Bool) : TwRetW := ⟨rf 4, 0, m, false⟩

theorem test_witness_WalkForms :
    (Meets (memWords (walkState heapLay) 0x3000 1 heapLay |>.modWarp 1 0 fun x => { x with regs := { x.regs with sc := [(4, 0x3000#32)] } }) (.twNlt ⟨4, 3, 0⟩) fun c _ =>
      ((walkState heapLay).engAcc c.cur.unit 0 0x3000 64 .read).toOption.isSome && layValid heapLay) ∧
    (Meets (memWords (walkState heapLay) 0x3000 1 (1 :: heapLay.tail) |>.modWarp 1 0 fun x => { x with regs := { x.regs with sc := [(4, 0x3000#32)] } }) (.twNlt ⟨4, 3, 0⟩) fun _ _ =>
      !layValid (1 :: heapLay.tail)) ∧
    (Meets warpState (.twNlt ⟨18, 3, 0⟩) fun _ x => (x.regs.s 18).toNat % 64 != 0) ∧
    (Meets (opened (walkState heapLay)) (.twNlt ⟨4, 3, 0⟩) fun c _ =>
      match (opened (walkState heapLay)).engAcc c.cur.unit 0 0 64 .read with
      | .error .wait => true
      | _ => false) ∧
    (Meets ((walkState heapLay).askBlock 1 0 0 (1, 0, 0x1000)) (.twRun runW) fun c _ => c.phase != 1 &&
      (((walkState heapLay).askBlock 1 0 0 (1, 0, 0x1000)).askedBlock 1 0 c.fid == some (1, 0, 0x1000))) ∧
    (Meets (((walkState heapLay).askBlock 1 1 0 (1, 0, 0x1000))) (.twRun runW) fun c _ =>
      !(((walkState heapLay).askBlock 1 1 0 (1, 0, 0x1000)).askBlock 1 0 c.fid (1, 0, 0x1000)).contextGo 0 ((1, 0, c.fid), (1, 0, 0x1000))) ∧
    (Meets (walkState heapLay) (.twRun runW) fun c x => c.phase != 1 && decide (256 ≤ x.allot) &&
      ((walkState heapLay).blockCheck 1 0x1000 true false).toOption.isSome && ((walkState heapLay).rootCheck 1 0x2000).isNone) ∧
    (Meets (walkState []) (.twRun runW) fun _ _ => ((walkState []).rootCheck 1 0x2000).isSome) ∧
    (Meets (walkState heapLay) (.twRun { runW with ws := 18 }) fun _ _ => !((walkState heapLay).blockCheck 1 3 true false).toOption.isSome) ∧
    (Meets ((walkState heapLay).modWarp 1 0 fun x => { x with base := 64 }) (.twRun runW) fun _ x => decide (x.allot < 256)) ∧
    (Meets (walking heapLay id) (.twRun runW) fun c x => c.phase == 1 && x.walks.any fun z => z.fid == c.fid && !z.done) ∧
    (Meets (walking heapLay fun z => { z with stops := [(0, 0#32)] }) (.twRun runW) fun c x => c.phase == 1 && x.walks.any fun z => z.fid == c.fid && z.done) ∧
    (Meets (retState .enter []) (.twRet (retW false)) fun c x => c.kind == .inv 2 && (x.walk? 2).isSome) ∧
    (Meets (retState .prune []) (.twRet (retW true)) fun c x => c.kind == .inv 2 && (x.walk? 2).any fun z => z.invs.any fun p => p.2.evt == .prune && p.2.stage == 2) ∧
    (Meets (retState .enter []) (.twRet { retW false with strict := true, a := rf 9 }) fun c x => (x.vr 9).isEmpty && c.lm != 0) ∧
    (∀ s ∈ [retState .enter [8], warpState, retState .prune []], ∃ c, s.ctx? = some c ∧ (issueCheck s c (.twRet (retW false)) == some cILLCTX) = true) :=
  ⟨meets_of_ok (by decide +kernel), meets_of_ok (by decide +kernel), meets_of_ok (by decide +kernel), meets_of_ok (by decide +kernel),
    meets_of_ok (by decide +kernel), meets_of_ok (by decide +kernel), meets_of_ok (by decide +kernel), meets_of_ok (by decide +kernel),
    meets_of_ok (by decide +kernel), meets_of_ok (by decide +kernel), meets_of_ok (by decide +kernel), meets_of_ok (by decide +kernel),
    meets_of_ok (by decide +kernel), meets_of_ok (by decide +kernel), meets_of_ok (by decide +kernel), by
      intro s hs
      simp only [List.mem_cons, List.not_mem_nil, or_false] at hs
      rcases hs with rfl | rfl | rfl <;> exact exists_of_any (by decide +kernel)⟩

/-- The block holds a walk's stacks, and the walk is over; the fragment is at its word again in phase `ph`. -/
def cutState (ph : Nat) : State := (walking heapLay id).modWarp 1 0 fun x => { x with
  walks := [], live0 := x.live0.map fun f => { f with phase := ph, wait := none } }
def cutW : TwCutW := ⟨rf 6, 10, 8, 0⟩
/-- The state once the block has been asked for; the checks of a cut's lane 0 there, and its section's page. -/
def cutAsked (ph : Nat) : State := (cutState ph).askBlock 1 0 0 (1, 0, 0x1000)
def cut0 : Except EngStop (State × Bool) := (cutAsked 0).cutLane (.warp 1 0) (1, 0, 0x1000) [] 0 0x4000 0
def isOk {ε α : Type} : Except ε α → Bool
  | .ok _ => true
  | .error _ => false

theorem test_witness_CutAndResume :
    (Meets (cutState 0) (.twCut cutW) fun c _ => c.phase == 0 && isOk ((cutState 0).blockCheck 1 0x1000 false true) &&
      (cutAsked 0).blockGo 1 0 0 1 0 0x1000 && (cutState 0).quiet c.cur.unit 0 && (cutState 0).predsAt 0 == []) ∧
    isOk cut0 = true ∧
    (Meets (cutState 1) (.twCut cutW) fun c _ => c.phase != 0 && c.phase != 4) ∧ (Meets (cutState 4) (.twCut cutW) fun c _ => c.phase == 4) ∧
    (Meets (cutAsked 0) (.twCut cutW) fun c _ => (cutAsked 0).askedBlock 1 0 c.fid == some (1, 0, 0x1000)) ∧
    (Meets { cutState 0 with flight := [someWrite 9 false [0] []] } (.twCut cutW) fun c _ => c.phase == 0 &&
      ({ cutState 0 with flight := [someWrite 9 false [0] []] } : State).predsAt 0 != []) ∧
    (Meets (cutState 0) (.twCut { cutW with b := 18 }) fun _ x => (x.regs.s 18).toNat % 16384 != 0) ∧
    (Meets (walkState heapLay) (.twCut cutW) fun _ _ => !isOk ((walkState heapLay).blockCheck 1 0x1000 false true)) ∧
    (Meets (walking heapLay id) (.twCut cutW) fun _ _ => !((walking heapLay id).askBlock 1 0 0 (1, 0, 0x1000)).blockGo 1 0 0 1 0 0x1000) ∧
    (planCut 0 0x4000 [] = none ∧ (planCut 0 0x4000 [mkEnt 0x2000 0 0 false 0 0 0 0]).isSome = true) ∧
    (Meets (memAt (cutState 0) 0x8000 [0, 0, 0, 0] |>.modWarp 1 0 fun x => { x with v := [(4, [(0, 0x8000#32)]), (5, [(0, 0#32)])] }) (.twResume ⟨rf 4, 8⟩) fun c _ =>
      isOk ((memAt (cutState 0) 0x8000 [0, 0, 0, 0]).objEnts c.cur.unit 0x8000) && isOk ((cutState 0).blockCheck 1 0x1000 true false)) ∧
    (Meets (cutState 0) (.twResume ⟨rf 4, 8⟩) fun c _ => !isOk ((cutState 0).objEnts c.cur.unit 0x2000)) ∧
    (Meets (cutState 0) (.twResume ⟨rf 4, 18⟩) fun _ _ => !isOk ((cutState 0).blockCheck 1 3 true false)) :=
  ⟨meets_of_ok (by decide +kernel), by decide +kernel, meets_of_ok (by decide +kernel), meets_of_ok (by decide +kernel),
    meets_of_ok (by decide +kernel), meets_of_ok (by decide +kernel), meets_of_ok (by decide +kernel), meets_of_ok (by decide +kernel),
    meets_of_ok (by decide +kernel), by decide +kernel, meets_of_ok (by decide +kernel), meets_of_ok (by decide +kernel), meets_of_ok (by decide +kernel)⟩

/-- The hypotheses of the statement about traversal events, with the walk of lane 0 and `p`. -/
def walkOk (s : State) (p : Warp → Walk → Bool) : Bool :=
  s.walks 1 0 && (s.warp? 1 0).any fun x => (x.walkOf 0).any fun z => x.walk? z.id == some z &&
    (((s.team? z.team).bind fun y => y.scratch[z.ci]?).isSome) && p x z

theorem walkOk_spec {s : State} {p : Warp → Walk → Bool} (h : walkOk s p = true) :
    ∃ x z, s.walks 1 0 = true ∧ s.warp? 1 0 = some x ∧ x.walkOf 0 = some z ∧ x.walk? z.id = some z ∧
      ((s.team? z.team).bind fun y => y.scratch[z.ci]?).isSome = true ∧ p x z = true := by
  unfold walkOk at h
  rw [Bool.and_eq_true] at h
  obtain ⟨hw, h⟩ := h
  obtain ⟨x, hx, h⟩ := exists_of_any h
  obtain ⟨z, hz, h⟩ := exists_of_any h
  simp only [Bool.and_eq_true, beq_iff_eq] at h
  exact ⟨x, z, hw, hx, hz, h.1.1, h.1.2, h.2⟩

/-- The record at 0x5000 with a count, an entry of layout 0 and no parent; a settle of lane 0. -/
def settling (count : DWord) (old : Option Nat) (snap : List Nat) (rel : Bool) : State :=
  let s := memWords (walking heapLay fun z => { z with settles := [(0, ⟨0x5000, old, snap, 0, 0, 0, rel⟩)] }) 0x5000 1
    [(mkEnt 0x2000 0 1 false 0 0 0 0).1, (mkEnt 0x2000 0 1 false 0 0 0 0).2, count, 0]
  s
/-- The top entry of lane 0 is an open one. -/
def openTop : State := (walking heapLay id).hotPut (1, 0, 0x1000) 0 0 (mkEnt 0x2000 0 1 false 0 0 2 0)
/-- What the walk of lane 0 reads at the root. -/
def rootNode (lay : List DWord) : Except EngStop Node := (walking lay id).readNode (.warp 1 0) 0 0x2000 (layIn ((walking lay id).nltOf 1) 0)

theorem test_traversal_stops_at_an_empty_stack : ((after (.traversalEvent 1 0 0) ((walking heapLay id).setStackSP (1, 0, 0x1000) 0 0)).warp? 1 0).map
    (fun x => x.walks.map (·.stops)) = some [[(0, 0#32)]] := by decide +kernel

theorem test_witness_TraversalEvents :
    (∃ x z, (walking heapLay id).walks 1 0 = true ∧ (walking heapLay id).warp? 1 0 = some x ∧ x.walkOf 0 = some z ∧ x.walk? z.id = some z ∧
      (((walking heapLay id).team? z.team).bind fun y => y.scratch[z.ci]?).isSome = true ∧
      (z.invs.isEmpty && z.settles.isEmpty && (walking heapLay id).stackSP z.block 0 == 1 && isOk (rootNode heapLay) &&
        (((walking heapLay id).curHeld ((walking heapLay id).clusterOf (.warp 1 0)) .tre).any fun r => r.tag == z.id)) = true) ∧
    (∀ lay ∈ [enterLay, pruneLay], isOk (rootNode lay) = true ∧ ∃ x z, (walking lay id).walks 1 0 = true ∧ (walking lay id).warp? 1 0 = some x ∧
      x.walkOf 0 = some z ∧ x.walk? z.id = some z ∧ (((walking lay id).team? z.team).bind fun y => y.scratch[z.ci]?).isSome = true ∧ true = true) ∧
    (∀ st ∈ [0, 1, 2, 3], ∃ x z, (walking heapLay fun z => { z with invs := [(0, inv0 .enter st 1)] }).walks 1 0 = true ∧
      (walking heapLay fun z => { z with invs := [(0, inv0 .enter st 1)] }).warp? 1 0 = some x ∧ x.walkOf 0 = some z ∧ x.walk? z.id = some z ∧
      (((walking heapLay fun z => { z with invs := [(0, inv0 .enter st 1)] }).team? z.team).bind fun y => y.scratch[z.ci]?).isSome = true ∧
      (z.invs.any fun p => p.2.stage == st && p.2.dec.getLsbD 0 && decide (0 < x.room)) = true) ∧
    (∃ x z, openTop.walks 1 0 = true ∧ openTop.warp? 1 0 = some x ∧ x.walkOf 0 = some z ∧ x.walk? z.id = some z ∧
      ((openTop.team? z.team).bind fun y => y.scratch[z.ci]?).isSome = true ∧ (openTop.stackSP z.block 0 == 1) = true) ∧
    walkOk ((walking heapLay id).modCluster 0 fun k => { k with held := [] }) (fun _ z => z.settles.isEmpty && z.invs.isEmpty) = true ∧
    walkOk ((walking heapLay id).setStackSP (1, 0, 0x1000) 0 0) (fun _ z => z.settles.isEmpty && z.invs.isEmpty) = true ∧
    walkOk (walking heapLay fun z => { z with budget := 1 }) (fun _ z => (walking heapLay id).stackSP z.block 0 == 1 && z.budget != 0) = true ∧
    walkOk (opened (walking keyLay id)) (fun _ z => match (opened (walking keyLay id)).readNode (.warp 1 0) (z.from_ 0) 0x2000 (layIn
      ((walking keyLay id).nltOf 1) 0) with
      | .error .wait => true
      | _ => false) = true ∧
    (∀ e ∈ [WEvt.prune, .leave], walkOk (walking heapLay fun z => { z with invs := [(0, inv0 e 3 0)] }) (fun _ z => z.invs.any fun p => decide (2 < p.2.stage)) = true) ∧
    (layIn [(0, pruneLay)] (SEnt.lid (0, 0))).prune ≠ 0 ∧
    walkOk (settling 1 none [] true) (fun _ z => z.settles.any fun p => p.2.rel && !(settling 1 none [] true).lookupOpen none 0 1 (p.2.rec_ + 0x10)) = true ∧
    walkOk (settling 1 none [] false) (fun _ z => z.settles.any fun p => !p.2.rel && (settling 1 none [] false).quiet (.warp 1 0) p.2.seq) = true ∧
    walkOk { settling 1 none [] false with pend := [{ someWrite 9 false [] [] with seq := 0 }] } (fun _ z => z.settles.any fun p => !p.2.rel &&
      !({ settling 1 none [] false with pend := [{ someWrite 9 false [] [] with seq := 0 }] } : State).quiet (.warp 1 0) 1) = true ∧
    walkOk (opened (settling 1 none [] true)) (fun _ z => z.settles.any fun p => p.2.rel && (opened (settling 1 none [] true)).lookupOpen none 0 1 (p.2.rec_ + 0x10)) =
      true ∧
    walkOk { settling 1 (some 1) [9] true with flight := [someWrite 9 false [0] []] } (fun _ z => z.settles.any fun p => p.2.snap.any
      ({ settling 1 (some 1) [9] true with flight := [someWrite 9 false [0] []] } : State).onWay) = true ∧
    ∀ o ∈ [none, some 0, some 1, some 2], ∃ x z, (settling 1 o [] true).walks 1 0 = true ∧ (settling 1 o [] true).warp? 1 0 = some x ∧ x.walkOf 0 = some z ∧
      x.walk? z.id = some z ∧ (((settling 1 o [] true).team? z.team).bind fun y => y.scratch[z.ci]?).isSome = true ∧
      (z.settles.any fun p => p.2.old == o && isOk ((settling 1 o [] true).access none 0 1 (p.2.rec_ + 0x10) .atomic)) = true := by
  refine ⟨walkOk_spec (by decide +kernel), fun lay h => ⟨of_all (fun _ => id) (p := fun lay => isOk (rootNode lay)) (by decide +kernel) lay h,
      of_all (fun _ => walkOk_spec) (p := fun lay => walkOk (walking lay id) fun _ _ => true) (by decide +kernel) lay h⟩,
    of_all (fun _ => walkOk_spec) (by decide +kernel), walkOk_spec (by decide +kernel), ?_⟩
  and_intros <;> first | decide +kernel | exact of_all (fun _ => walkOk_spec) (by decide +kernel)

/-! ## Events of warps, the host, the life of teams -/

/-- A warp with two park records and no fragment; a warp with a free slot and a spilled fragment. -/
def parkedState : State := warpWith fun x => { x with live0 := none, parks := [(0, Frag.start 1 0 0), (1, Frag.start 2 0 1)] }
def spilledState : State := warpWith fun x => { x with spill := [Frag.start 1 0 5] }
/-- The one warp waits at a phase that no one completes, and the context has exited. -/
def stuckState : State := ((rvState ⟨0, true, 5, 5⟩ fun f => { f with wait := some (.rendezvous 2) }).modCcc 1 0 fun y => { y with exited := true })

theorem test_deadlock_traps_the_warp : ((after (.deadlock 1) stuckState).warp? 1 0).map (fun x => x.frame.map (·.code)) = some (some cDEADLOCK) := by
  decide +kernel

theorem test_witness_WarpEvents :
    (∃ x, parkedState.warp? 1 0 = some x ∧ (x.live0.isNone && x.live1.isNone && x.spill.isEmpty && x.handler.isNone && !x.parks.isEmpty) = true ∧
      (x.parks.map (·.1)).Nodup) ∧
    (∃ x, spilledState.warp? 1 0 = some x ∧ (x.place == .resident && x.handler.isNone && !x.spill.isEmpty && x.live1.isNone) = true) ∧
    (∃ x, (warpWith fun x => { x with exited := true }).warp? 1 0 = some x ∧ (x.exited && x.regs.ops.isEmpty) = true) ∧
    (∃ z, stuckState.set? 1 = some z ∧ stuckState.stuck z = true) ∧ (∃ z, warpState.set? 1 = some z ∧ (!warpState.stuck z && !z.frozen) = true) ∧
    (∃ x, warpState.warp? 1 0 = some x ∧ (!x.frags.isEmpty && x.handler.isNone && x.regs.ops.isEmpty) = true) ∧ (warpState.ccc? 1 0).isSome = true :=
  ⟨⟨_, rfl, by decide +kernel, by decide⟩, exists_of_any (by decide +kernel), exists_of_any (by decide +kernel), exists_of_any (by decide +kernel),
    exists_of_any (by decide +kernel), exists_of_any (by decide +kernel), by decide +kernel⟩

/-- Job 7 of owner 1 may do everything; every feature is accepted, the table locked; mailbox 0 takes host messages. -/
def hostState (credits : Nat) (pkt : List DWord) : State :=
  let s := memWords (memWords { warpState with csrs := { Csrs.reset with mbxtab := 0x6000 } } 0x6000 0
    [BitVec.ofNat 64 (1 + 2 ^ 1 + 1 * 2 ^ 8 + 0x40 * 2 ^ 16), 0x7000, BitVec.ofNat 64 credits, 0]) 0x7000 1 pkt
  { s with mgmt := { s.mgmt with regs := [(0x400, BitVec.ofNat 64 (7 + 2 ^ 24 + 15 * 2 ^ 32)), (0x504, 0xFFF)], locked := true } }
def rq : PortReq := ⟨0, 7⟩

theorem test_host_message_without_credit : (after (.hostMailboxMessage rq 0x1000 []) (hostState 0 [])).sent.map (fun m => (m.err, m.code)) = [(false, 2)] := by
  decide +kernel

theorem test_witness_HostRequests :
    (State.reset.fw.ok = true ∧ errOf (State.reset.refuse rq 33 0) = some 0) ∧ (((hostState 1 []).refuse rq 33 0).toOption = some 1 ∧
      ((hostState 1 []).refuse rq 34 1).toOption = some 1) ∧
    ((hostState 1 []).mboxOf 1 0x1000 true = some 0 ∧ (hostState 0 []).mboxOf 1 0x1000 true = some 0) ∧
    (((hostState 1 goodPacket).readPacket 1 0x7000 false).toOption.isSome = true) ∧ ((hostState 1 badPacket).readPacket 1 0x7000 false).toOption.isNone = true ∧
    ((hostState 1 goodPacket).packetOpen 1 0x7000 = false ∧ (opened (hostState 1 goodPacket)).packetOpen 1 0x7000 = true ∧
      ({ hostState 1 badPacket with ringHeld := [(.package, heldEnt)] } : State).ringBusy .package = true) ∧
    ((hostState 1 []).hostOpen 0 1 0x1000 16 = false ∧ (opened (hostState 1 [])).hostOpen 0 1 0x1000 16 = true) ∧
    (({ hostState 1 [] with pend := [someWrite 9 true [] [0]] } : State).lockedLine 0 0x1000 = true) ∧
    ((hostState 1 []).hostLeaves 0 1 0x1000 16 .write).toOption.isSome = true ∧ ((hostState 1 []).hostLeaves 0 1 0x1000 16 .read).toOption.isSome = true ∧
    (errOf ((hostState 1 []).hostLeaves 0 1 0x1001 16 .read)) = some cALIGN ∧
    (({ hostState 1 [] with checks := [(16, ⟨0, 1, true⟩)] } : State).blockOk 1 16 = false ∧ (hostState 1 []).blockOk 1 16 = true) ∧
    ((0x1000#64).toNat % 16 = 0 ∧ 0 % 16 = 0 ∧ 0 < 16) :=
  by and_intros <;> decide +kernel

theorem test_featlck_accepts_once : (after (.featlckWrite 1) State.reset).mgmt.locked = true := by decide +kernel
theorem test_key_load_is_busy : (after (.keyLoad 0x201) State.reset).mgmt.keyctl = 0x601#64 := by decide +kernel

theorem test_witness_Management :
    ((hostState 1 []).portBusy rq = false ∧ (hostState 1 []).fw.ok = true ∧ ((hostState 1 []).jobOwner rq 35).isSome = true) ∧
    (({ hostState 1 [] with inval := some ⟨1, 1, 0, none, some rq⟩ } : State).portBusy rq = true) ∧ State.reset.jobOwner rq 35 = none ∧
    State.reset.mgmt.locked = false ∧ (State.reset.mgmt.keyctl.getLsbD 10 = false ∧ (0x201#64).getLsbD 9 = true ∧ (1#64).getLsbD 9 = false) ∧
    (let s := after (.keyLoad 0x201) State.reset; s.mgmt.keyctl.getLsbD 10 = true ∧ s.keyUsed 1 = false) ∧
    (let s := { pendState (someWrite 9 false [] []) with mgmt := { Mgmt.reset with keyctl := 0x601 } }; s.keyUsed 1 = true) ∧
    ((1 : BitVec 32) < 2 ∧ ({ State.reset with fw := ⟨2, 2, [], true⟩ } : State).fw.minSvn = 2) ∧
    (∀ n : Nat, n ∈ [0x200, 0x210, 0x218, 0x300, 0x33F, 0x400, 0x4FF, 0x502, 0x500, 0x701] → n < 4096) :=
  by and_intros <;> decide +kernel

theorem test_admission_starts_the_team : ((after (.admission 6 0 [plan0]) queuedState).team? 9).map (fun q => q.warps.map fun w => (w.regs.s 0, w.live0.map (·.cpc))) =
    some [(5#32, some 8)] := by decide +kernel

theorem test_witness_LaunchAndAdmission :
    (State.reset.nextQueue = none ∧ gridState.nextQueue = some 17 ∧ (gridState.queueHead 17).map (·.1) = some 5 ∧ gridState.dieFor oneGrid 0 0 0 = (0, none)) ∧
    (pktBits goodPacket 0 21 20 = 0 ∧ pktBits (0x100000 :: goodPacket.tail) 0 21 20 = 1) ∧
    (queuedState.set? 6 = some (queuedSet 1) ∧ (tget queuedState.grids 5).isSome = true ∧ queuedState.admitNext 6 (queuedSet 1) 0 = true ∧
      (queuedState.cluster 0).asleep = false ∧
      (∀ q, q < 24 → queuedState.offeredFirst 0 (queuedSet 1) q 0 = true → queuedState.takes q goodPacket = false) ∧ pktBits goodPacket 0 15 14 = 0 ∧ plan0.moves = [] ∧ queuedState.fits goodPacket 0 plan0 = true ∧
      queuedState.fits goodPacket 0 { plan0 with wslots := [64] } = false) ∧
    (State.reset.set? 6 = none ∧ (sleepState.cluster 0).asleep = true) ∧
    (({ gridState with grids := [(5, { oneGrid with refused := some 8 })] } : State).nextQueue = none ∧
      (({ gridState with grids := [(5, { oneGrid with refused := some 8 })] } : State).queueHead 17).any (·.2.refused.isSome) = true) ∧
    ((opened warpState).lookupOpen none 0 1 (({ oneGrid with pkt := 0x200000 :: goodPacket.tail } : Grid).follows 0 0 0) = true ∧
      pktBits (0x200000 :: goodPacket.tail) 0 21 20 = 2 ∧ (warpState.translate none 0 1 0).isSome = true ∧ warpState.translate none 0 1 0x1000000000000 = none) ∧
    (queuedState.takes 1 goodPacket = true ∧ queuedState.offeredFirst 0 { queuedSet 1 with slice := some 0 } 0 1 = true ∧
      warpState.offeredFirst 0 (queuedSet 1) 1 0 = true) :=
  by and_intros <;> decide +kernel

/-- Team 1 with every warp and context ended, at a stage of its completion; a block at 0x7000 whose DEP is `n`. -/
def endState (k : Step3) (n : DWord) : State :=
  memWords (((warpWith fun x => { x with exited := true, base := 0, live0 := none }).modCcc 1 0 fun y => { y with exited := true }).modTeam 1 fun q =>
    { q with step := k }) 0x7080 1 [n, 0]

theorem test_completion_lowers_dep : ((after (.teamCompletion 1) (endState (.decrementing [0x7000]) 2)).team? 1).map (·.step) = some (.decrementing []) := by
  decide +kernel

theorem test_witness_TeamCompletions :
    (∃ q, (endState .running 0).team? 1 = some q ∧ (q.step == .running && q.finished && ((endState .running 0).set? q.set).any (!·.frozen)) = true) ∧
    (∃ q, warpState.team? 1 = some q ∧ (q.step == .running && !q.finished) = true) ∧
    (∃ q, (endState (.released [9]) 0).team? 1 = some q ∧ (q.step == .released [9] && !(endState (.released [9]) 0).onWay 9) = true) ∧
    (∃ q, (endState .complete 0).team? 1 = some q ∧ (q.step == .complete) = true) ∧
    (∀ n ∈ [0, 1, 2], ∃ f, ((endState (.decrementing [0x7000]) n).access none 0 1 0x7000 .atomic).toOption = some f ∧
      (ofBytes ((endState (.decrementing [0x7000]) n).homeBytes f.key (f.pa + 0x80) 4) == n.toNat) = true) ∧
    (errOf ((endState (.decrementing [0x1000000000000]) 0).access none 0 1 0x1000000000000 .atomic)).isSome = true ∧
    (∃ q, (endState (.decrementing []) 0).team? 1 = some q ∧ (q.step == .decrementing [] && ((endState (.decrementing []) 0).set? q.set).isSome &&
      (tget (endState (.decrementing []) 0).grids 1).isSome) = true) ∧
    ((opened (endState (.decrementing [0x7000]) 1)).lookupOpen none 0 1 0x7000 = true ∧
      ({ endState (.decrementing [0x7000]) 1 with ringHeld := [(.completion 0, heldEnt)] } : State).ringBusy (.completion 0) = true ∧
      (let s := { endState (.decrementing [0x7000]) 1 with flight := [{ someWrite 8 false [0] [] with addr := 0x40000000 }] }; s.predsAt 0 = [8])) ∧
    (∃ q, (endState (.launching 0x7000 [9] []) 0).team? 1 = some q ∧ (q.step == .launching 0x7000 [9] []) = true ∧
      (endState (.launching 0x7000 [9] []) 0).onWay 9 = false ∧ (endState (.launching 0x7000 [9] []) 0).packetOpen 1 0x7000 = false) ∧
    ((memWords (endState (.launching 0x7000 [9] []) 0) 0x7000 1 goodPacket).readPacket 1 0x7000 false).toOption.isSome = true ∧
    ((memWords (endState (.launching 0x7000 [9] []) 0) 0x7000 1 badPacket).readPacket 1 0x7000 false).toOption.isNone = true := by
  refine ⟨exists_of_any (by decide +kernel), exists_of_any (by decide +kernel), exists_of_any (by decide +kernel), exists_of_any (by decide +kernel),
    ?_, by decide +kernel, exists_of_any (by decide +kernel), by decide +kernel, ⟨_, rfl, by decide +kernel⟩, by decide +kernel⟩
  exact of_all (fun n => exists_of_any) (by decide +kernel)

/-- A set of class 1 is queued, and team 1 of class 0 fills the cluster; the stops and the saves still to do. -/
def rivalState : State := { warpState with
  grids := (5, { oneGrid with offered := 1 }) :: warpState.grids, sets := (6, queuedSet 1) :: warpState.sets, nextId := 7 }
def stopping (stops saves : List (Nat × Nat)) : State := rivalState.modCluster 0 fun k => { k with preempt := some ⟨6, stops, saves⟩ }
/-- The same, and every other cluster of the die is full too. -/
def fullState : State := { rivalState with teams := rivalState.teams ++ (List.range 23).map fun n => (10 + n, { fetchTeam with
  cluster := n + 1, cores := [4 * (n + 1)], warps := fetchTeam.warps.map fun w => { w with core := 4 * (n + 1) } }) }
/-- The warp is saved. -/
def savedState : State := (warpWith fun x => { x with place := .saved }).modTeam 1 fun q => { q with saved := [false] }

theorem test_witness_Preemption :
    (rivalState.set? 6 = some (queuedSet 1) ∧ (tget rivalState.grids 5).isSome = true ∧ (queuedSet 1).phase = .queued 0 ∧
      rivalState.admitNext 6 (queuedSet 1) 0 = true ∧ rivalState.setFits 0 goodPacket = false ∧ (rivalState.choose 0 1 goodPacket).isSome = true) ∧
    (fullState.set? 6 = some (queuedSet 1) ∧ (tget fullState.grids 5).isSome = true ∧ fullState.preempting 0 = none ∧ fullState.admitNext 6 (queuedSet 1) 0 = true ∧
      (fullState.choose 0 1 goodPacket).isSome = true ∧ ∀ q, q < 24 → fullState.setFits q goodPacket = false ∧
        (fullState.offeredFirst 0 (queuedSet 1) q 0 = false ∨ fullState.choose q 1 goodPacket = none)) ∧
    (∃ x, (stopping [(1, 0)] [(1, 0)]).warp? 1 0 = some x ∧ (x.place == .resident && !x.exited && x.regs.ops.isEmpty &&
      ((stopping [(1, 0)] [(1, 0)]).cluster 0).preempt.isSome) = true) ∧
    (∃ x, ((stopping [] [(1, 0)]).modWarp 1 0 fun x => { x with place := .stopped }).warp? 1 0 = some x ∧ (x.place == .stopped) = true) ∧
    (∃ q, (stopping [(1, 2)] [(1, 2)]).team? 1 = some q ∧ (q.clusterNo == 2 && q.cplace == .resident && q.step == .running) = true) ∧
    (∃ x, savedState.warp? 1 0 = some x ∧ (x.place == .saved && x.queue.isEmpty && (savedState.set? 1).any (fun z => z.phase == .admitted 0 && !z.frozen &&
      savedState.resumeNext 1 z 0) && (savedState.preempting 0).isNone && !(savedState.slotsOn 0).contains 3 && x.bricks.length == 1 &&
      runFree (savedState.bricksOf 0) 64 32) = true) ∧
    (∃ q, warpState.team? 1 = some q ∧ (!q.isAway 0) = true) :=
  ⟨by decide +kernel, by decide +kernel, exists_of_any (by decide +kernel), exists_of_any (by decide +kernel), exists_of_any (by decide +kernel),
    exists_of_any (by decide +kernel), exists_of_any (by decide +kernel)⟩

/-! ## Steps, decoding, well-formedness -/

/-- The warp has entered the clause of a placed word, and it is the core's turn. -/
def stepState (w : Nat) : State := (State.reset.withFetchWord 64 w).modWarp 1 0 fun x => { x with live0 := x.live0.map fun f => { f with hdr := some fetchHeader } }

/-- The core's turn chooses a warp whose fragment stands in a clause, and `p` holds of the state, the fragment and its word. -/
def coreTurn (s : State) (p : State → Cur → Instr → Bool) : Bool :=
  let s1 := ({ s with agenda := [] } : State).openTurn 0
  (chooseWarp (s1.core 0).last (s1.readyWarps 0)).any fun a =>
    let r := ((s1.asideDown 0).ageWarps (s1.readyWarps 0) a).takePick a.t a.w a.pick
    let cur : Cur := ⟨.warp a.t a.w, r.2⟩
    (r.1.frag? cur).any fun f => f.hdr.isSome && match r.1.fetch cur.unit (f.cpc + 8) with
      | .ok w => (decodeTableWord 64 w.toNat).any (p { r.1 with cur := some cur } cur)
      | .error _ => false

theorem test_witness_StepRunsDecoded :
    ((stepState 0x1984070001000000).agenda = [.core 0] ∧ coreTurn (stepState 0x1984070001000000) (fun s _ i => s.vectorGo i &&
      match exec i s with
      | .next _ => true
      | _ => false) = true) ∧
    coreTurn ((stepState 0x1984070001000000).modCluster 0 fun k => { k with held := [] }) (fun s _ i => !s.vectorGo i) = true ∧
    ((State.reset.withFetchWord 64 0).frag? ⟨.warp 1 0, .live0⟩).any (fun f => (opened (State.reset.withFetchWord 64 0)).lookups (.warp 1 0) [f.cpc]) = true ∧
    chooseWarp 0 (State.reset.readyWarps 0) = none ∧ State.reset.readyCtxs 0 = [] ∧ cccState.readyCtxs 0 ≠ [] ∧
    (let s := State.reset.withFetchWord 64 0x1984070001000000
     (s.frag? ⟨.warp 1 0, .live0⟩).any (fun f => f.hdr.isNone && match s.fetch (.warp 1 0) f.cpc with
       | .ok w => (decodeHeader w).any fun h => decide (f.slot < h.len)
       | .error _ => false) = true) ∧
    ((warpState.cluster 0).held.any fun r => (warpState.cluster 0).held.all fun y => y.who != r.who || y == r) = true ∧
    (isEvent (.joinRelease 1 0) = true ∧ State.reset.agenda = []) :=
  by and_intros <;> decide +kernel

/-- One step from reset with a word placed. -/
def stepped (w : Nat) : State :=
  match step (State.reset.withFetchWord 64 w) with
  | .next t => t
  | _ => State.reset

theorem test_step_runs_movi : vOf (stepped 0x1984070001000005) 7 = laneVals fullMap fun _ => 5 := by decide +kernel
theorem test_step_of_an_illegal_word_freezes : ((stepped 0xFFFFFFFFFFFFFFFF).set? 1).map (·.frozen) = some true := by decide +kernel

theorem test_witness_MemoryStaysCanonical : (State.reset.withFetchWord 64 0x1984070001000005).MemWf ∧
    ∃ t, step (State.reset.withFetchWord 64 0x1984070001000005) = .next t :=
  ⟨⟨by decide +kernel, by decide +kernel⟩, by
    have h : (match step (State.reset.withFetchWord 64 0x1984070001000005) with
      | .next _ => true
      | _ => false) = true := by decide +kernel
    split at h
    · exact ⟨_, by assumption⟩
    · cases h⟩

theorem test_witness_EncodeDecode : (Machine.legal (.iadd (gi 1 2 3)) = true ∧ isEvent (.iadd (gi 1 2 3)) = false) ∧
    decodeTableWord 64 0x1984070001000005 = some (.movi (iw' 7 0 5)) := by decide +kernel

theorem test_witness_NarrowElements : k8Elem 0x7F 0 = some 127 ∧ k8Elem 0x81 0 = some (-127) ∧ k8Elem 0x80 0 = none := by decide +kernel

/-! ### Decoding: words written out from the spec's own bit tables. -/

/-- A full word from its fields MAJ, SUB, D, A, B and MOD (02_instruction_words R35). -/
def fullW (maj sub d a b mod : Nat) : Nat :=
  maj * 2 ^ 56 + sub * 2 ^ 50 + d * 2 ^ 40 + a * 2 ^ 30 + b * 2 ^ 20 + mod

/-- A pair word from CH and its two slots (02_instruction_words R43). -/
def pairW (ch s1 s2 : Nat) : Nat := 2 ^ 63 + ch * 2 ^ 62 + s1 * 2 ^ 31 + s2

/-- Every word of the list decodes to the instruction beside it. -/
def reads (l : List (Nat × Instr)) : Bool := l.all fun p => decodeTableWord 64 p.1 == some p.2

/-- Words of the group from 13_control_flow R290, R322; 07_registers R174, R177, R181. -/
theorem test_decode_control : reads [
    (fullW 0x00 0x00 0x000 0x000 0x000 0x00000, .nop),
    (fullW 0x00 0x01 0x000 0x000 0x000 0x00000, .yield),
    (fullW 0x00 0x01 0x000 0x000 0x000 0x00001, .yieldW),
    (fullW 0x01 0x00 0x000 0x000 0x3FF 0xFFFFD, .bra ⟨1073741821⟩),
    (fullW 0x04 0x00 0x000 0x000 0x000 0x12345, .call ⟨74565⟩),
    (fullW 0x02 0x00 0x04D 0x009 0x3FF 0xFFFF9, .brx ⟨5, 9, 1073741817⟩),
    (fullW 0x03 0x00 0x000 0x306 0x000 0x01000, .jmpi ⟨⟨true, true, 6⟩, 0, 2⟩),
    (fullW 0x03 0x00 0x000 0x008 0x000 0x40000, .jmpi ⟨⟨false, false, 8⟩, 1, 0⟩),
    (fullW 0x05 0x00 0x000 0x00A 0x000 0x40000, .calli ⟨⟨false, false, 10⟩, 1, 0⟩),
    (fullW 0x06 0x00 0x000 0x000 0x000 0x00000, .ret),
    (fullW 0x07 0x00 0x04F 0x000 0x2AB 0xCDEF0, .jarm ⟨7, 717020912⟩),
    (fullW 0x08 0x00 0x04B 0x000 0x000 0x00000, .join 3),
    (fullW 0x09 0x00 0x000 0x000 0x000 0x00000, .exit),
    (fullW 0x09 0x01 0x000 0x00C 0x000 0x00002, .exitSpawn ⟨12, 2⟩),
    (fullW 0x0A 0x00 0x058 0x200 0x000 0xF0100, .rgn ⟨88, 2147487489⟩),
    (fullW 0x0B 0x00 0x000 0x000 0x000 0x00020, .scopeOpen 32),
    (fullW 0x0B 0x01 0x000 0x000 0x000 0x00000, .scopeClose),
    (fullW 0x0C 0x00 0x042 0x000 0x000 0x800A5, .xset ⟨2, 0, true, 165⟩),
    (fullW 0x0C 0x01 0x043 0x043 0x000 0x00000, .xadd ⟨3, 67, false, 0⟩)] = true := by decide +kernel

/-- Words of the group from 02_instruction_words R36 to R42, R49. -/
theorem test_decode_laneInteger : reads [
    (fullW 0x10 0x00 0x202 0x203 0x004 0x84500, .iadd (.reg ⟨⟨true, false, 2⟩, ⟨true, false, 3⟩, ⟨false, false, 4⟩, 4, 0, true, false, 0, true, false, true, 0, 0, 0⟩)),
    (fullW 0x10 0x20 0x002 0x005 0x10F 0xFFFF0, .iadd (.imm ⟨⟨false, false, 2⟩, ⟨false, false, 5⟩, 1, false, 0, 16777200⟩)),
    (fullW 0x10 0x01 0x0C8 0x003 0x304 0x01A00, .isub (.reg ⟨⟨false, false, 200⟩, ⟨false, false, 3⟩, ⟨true, true, 4⟩, 0, 0, false, false, 3, false, true, false, 0, 0, 0⟩)),
    (fullW 0x10 0x02 0x006 0x208 0x000 0x40000, .iabs ⟨⟨false, false, 6⟩, ⟨true, false, 8⟩, ⟨false, false, 0⟩, 2, 0, false, false, 0, false, false, false, 0, 0, 0⟩),
    (fullW 0x10 0x03 0x006 0x008 0x040 0xA0010, .imin (.reg ⟨⟨false, false, 6⟩, ⟨false, false, 8⟩, ⟨false, false, 64⟩, 5, 0, false, false, 0, false, false, false, 0, 1, 0⟩)),
    (fullW 0x10 0x24 0x006 0x209 0x0F0 0x0007F, .imax (.imm ⟨⟨false, false, 6⟩, ⟨true, false, 9⟩, 0, true, 7, 127⟩)),
    (fullW 0x11 0x00 0x006 0x008 0x00A 0x60000, .imul (.reg ⟨⟨false, false, 6⟩, ⟨false, false, 8⟩, ⟨false, false, 10⟩, 3, 0, false, false, 0, false, false, false, 0, 0, 0⟩)),
    (fullW 0x11 0x01 0x006 0x008 0x00A 0x20000, .imulhi ⟨⟨false, false, 6⟩, ⟨false, false, 8⟩, ⟨false, false, 10⟩, 1, 0, false, false, 0, false, false, false, 0, 0, 0⟩),
    (fullW 0x11 0x02 0x006 0x008 0x00A 0xC0100, .imad ⟨⟨false, false, 6⟩, ⟨false, false, 8⟩, ⟨false, false, 10⟩, 6, 0, false, false, 0, false, false, true, 0, 0, 0⟩),
    (fullW 0x12 0x00 0x006 0x008 0x00A 0x20000, .and (.reg ⟨⟨false, false, 6⟩, ⟨false, false, 8⟩, ⟨false, false, 10⟩, 1, 0, false, false, 0, false, false, false, 0, 0, 0⟩)),
    (fullW 0x12 0x21 0x007 0x009 0x010 0x0FF00, .or (.imm ⟨⟨false, false, 7⟩, ⟨false, false, 9⟩, 0, false, 1, 65280⟩)),
    (fullW 0x12 0x02 0x006 0x008 0x00A 0x60000, .xor (.reg ⟨⟨false, false, 6⟩, ⟨false, false, 8⟩, ⟨false, false, 10⟩, 3, 0, false, false, 0, false, false, false, 0, 0, 0⟩)),
    (fullW 0x12 0x03 0x007 0x209 0x000 0x20000, .not ⟨⟨false, false, 7⟩, ⟨true, false, 9⟩, ⟨false, false, 0⟩, 1, 0, false, false, 0, false, false, false, 0, 0, 0⟩),
    (fullW 0x13 0x20 0x002 0x088 0x210 0x00002, .shl (.imm ⟨⟨false, false, 2⟩, ⟨false, false, 136⟩, 2, false, 1, 2⟩)),
    (fullW 0x13 0x01 0x006 0x008 0x00B 0x60000, .shr (.reg ⟨⟨false, false, 6⟩, ⟨false, false, 8⟩, ⟨false, false, 11⟩, 3, 0, false, false, 0, false, false, false, 0, 0, 0⟩)),
    (fullW 0x13 0x02 0x006 0x008 0x005 0x00010, .sar (.reg ⟨⟨false, false, 6⟩, ⟨false, false, 8⟩, ⟨false, false, 5⟩, 0, 0, false, false, 0, false, false, false, 0, 1, 0⟩)),
    (fullW 0x14 0x00 0x001 0x0FF 0x000 0x20000, .popc ⟨⟨false, false, 1⟩, ⟨false, false, 255⟩, ⟨false, false, 0⟩, 1, 0, false, false, 0, false, false, false, 0, 0, 0⟩),
    (fullW 0x14 0x01 0x001 0x007 0x000 0x20040, .clz ⟨⟨false, false, 1⟩, ⟨false, false, 7⟩, ⟨false, false, 0⟩, 1, 0, false, false, 0, false, false, false, 1, 0, 0⟩),
    (fullW 0x14 0x02 0x001 0x002 0x000 0x24000, .brev ⟨⟨false, false, 1⟩, ⟨false, false, 2⟩, ⟨false, false, 0⟩, 1, 0, true, false, 0, false, false, false, 0, 0, 0⟩),
    (fullW 0x15 0x00 0x001 0x002 0x003 0x00000, .bfe ⟨⟨false, false, 1⟩, ⟨false, false, 2⟩, ⟨false, false, 3⟩, 0, 0, false, false, 0, false, false, false, 0, 0, 0⟩),
    (fullW 0x15 0x01 0x201 0x002 0x003 0x20000, .bfi ⟨⟨true, false, 1⟩, ⟨false, false, 2⟩, ⟨false, false, 3⟩, 1, 0, false, false, 0, false, false, false, 0, 0, 0⟩),
    (fullW 0x16 0x00 0x002 0x004 0x007 0x60007, .lea (.reg ⟨⟨false, false, 2⟩, ⟨false, false, 4⟩, ⟨false, false, 7⟩, 3, 0, false, false, 0, false, false, false, 0, 0, 7⟩)),
    (fullW 0x17 0x00 0x001 0x002 0x003 0x2000F, .sel ⟨⟨false, false, 1⟩, ⟨false, false, 2⟩, ⟨false, false, 3⟩, 1, 0, false, false, 0, false, false, false, 0, 0, 15⟩),
    (fullW 0x18 0x02 0x001 0x002 0x003 0x00000, .icmp .lt (.reg ⟨⟨false, false, 1⟩, ⟨false, false, 2⟩, ⟨false, false, 3⟩, 0, 0, false, false, 0, false, false, false, 0, 0, 0⟩)),
    (fullW 0x18 0x25 0x20F 0x002 0x010 0x00009, .icmp .ge (.imm ⟨⟨true, false, 15⟩, ⟨false, false, 2⟩, 0, false, 1, 9⟩)),
    (fullW 0x19 0x00 0x004 0x006 0x000 0x60000, .mov ⟨⟨false, false, 4⟩, ⟨false, false, 6⟩, ⟨false, false, 0⟩, 3, 0, false, false, 0, false, false, false, 0, 0, 0⟩),
    (fullW 0x19 0x21 0x007 0x000 0x011 0x23456, .movi ⟨⟨false, false, 7⟩, ⟨false, false, 0⟩, 0, false, 1, 1193046⟩),
    (fullW 0x19 0x22 0x007 0x000 0x010 0x0BEEF, .movh ⟨⟨false, false, 7⟩, ⟨false, false, 0⟩, 0, false, 1, 48879⟩),
    (fullW 0x1A 0x00 0x004 0x006 0x000 0x00106, .cvt ⟨⟨false, false, 4⟩, ⟨false, false, 6⟩, ⟨false, false, 0⟩, 0, 0, false, false, 0, false, false, true, 0, 0, 6⟩)] = true := by decide +kernel

/-- Words of the group from 02_instruction_words R39, R49; 08_lane_arithmetic R209. -/
theorem test_decode_laneFloat : reads [
    (fullW 0x20 0x00 0x003 0x200 0x201 0x00000, .fadd (.reg ⟨⟨false, false, 3⟩, ⟨true, false, 0⟩, ⟨true, false, 1⟩, 0, 0, false, false, 0, false, false, false, 0, 0, 0⟩)),
    (fullW 0x20 0x01 0x003 0x000 0x001 0x28600, .fsub (.reg ⟨⟨false, false, 3⟩, ⟨false, false, 0⟩, ⟨false, false, 1⟩, 1, 1, false, false, 0, true, true, false, 0, 0, 0⟩)),
    (fullW 0x20 0x22 0x003 0x000 0x004 0x00000, .fmul (.imm ⟨⟨false, false, 3⟩, ⟨false, false, 0⟩, 0, false, 0, 4194304⟩)),
    (fullW 0x20 0x03 0x003 0x000 0x001 0x60000, .fmin (.reg ⟨⟨false, false, 3⟩, ⟨false, false, 0⟩, ⟨false, false, 1⟩, 3, 0, false, false, 0, false, false, false, 0, 0, 0⟩)),
    (fullW 0x20 0x24 0x003 0x000 0x040 0x03F80, .fmax (.imm ⟨⟨false, false, 3⟩, ⟨false, false, 0⟩, 0, false, 4, 16256⟩)),
    (fullW 0x21 0x00 0x003 0x000 0x001 0x58001, .ffma ⟨⟨false, false, 3⟩, ⟨false, false, 0⟩, ⟨false, false, 1⟩, 2, 3, false, false, 0, false, false, false, 0, 0, 1⟩),
    (fullW 0x22 0x06 0x004 0x000 0x001 0x20000, .fcmp .un (.reg ⟨⟨false, false, 4⟩, ⟨false, false, 0⟩, ⟨false, false, 1⟩, 1, 0, false, false, 0, false, false, false, 0, 0, 0⟩)),
    (fullW 0x22 0x07 0x004 0x000 0x001 0x40000, .fcmp .ord (.reg ⟨⟨false, false, 4⟩, ⟨false, false, 0⟩, ⟨false, false, 1⟩, 2, 0, false, false, 0, false, false, false, 0, 0, 0⟩)),
    (fullW 0x23 0x00 0x003 0x000 0x000 0x20000, .fclass ⟨⟨false, false, 3⟩, ⟨false, false, 0⟩, ⟨false, false, 0⟩, 1, 0, false, false, 0, false, false, false, 0, 0, 0⟩),
    (fullW 0x24 0x00 0x003 0x000 0x000 0x90000, .frnd ⟨⟨false, false, 3⟩, ⟨false, false, 0⟩, ⟨false, false, 0⟩, 4, 2, false, false, 0, false, false, false, 0, 0, 0⟩),
    (fullW 0x25 0x00 0x003 0x000 0x000 0x08002, .fcvt ⟨⟨false, false, 3⟩, ⟨false, false, 0⟩, ⟨false, false, 0⟩, 0, 1, false, false, 0, false, false, false, 0, 0, 2⟩),
    (fullW 0x25 0x00 0x003 0x000 0x000 0x40209, .fcvt ⟨⟨false, false, 3⟩, ⟨false, false, 0⟩, ⟨false, false, 0⟩, 2, 0, false, false, 0, false, true, false, 0, 0, 9⟩),
    (fullW 0x26 0x00 0x003 0x000 0x000 0x00000, .frcp ⟨⟨false, false, 3⟩, ⟨false, false, 0⟩, ⟨false, false, 0⟩, 0, 0, false, false, 0, false, false, false, 0, 0, 0⟩),
    (fullW 0x26 0x01 0x003 0x000 0x000 0x20000, .frsq ⟨⟨false, false, 3⟩, ⟨false, false, 0⟩, ⟨false, false, 0⟩, 1, 0, false, false, 0, false, false, false, 0, 0, 0⟩),
    (fullW 0x26 0x02 0x003 0x000 0x000 0x58000, .fsqrt ⟨⟨false, false, 3⟩, ⟨false, false, 0⟩, ⟨false, false, 0⟩, 2, 3, false, false, 0, false, false, false, 0, 0, 0⟩),
    (fullW 0x27 0x00 0x003 0x200 0x000 0x00000, .fexp2 ⟨⟨false, false, 3⟩, ⟨true, false, 0⟩, ⟨false, false, 0⟩, 0, 0, false, false, 0, false, false, false, 0, 0, 0⟩),
    (fullW 0x27 0x01 0x003 0x201 0x000 0x20000, .flog2 ⟨⟨false, false, 3⟩, ⟨true, false, 1⟩, ⟨false, false, 0⟩, 1, 0, false, false, 0, false, false, false, 0, 0, 0⟩),
    (fullW 0x27 0x02 0x003 0x202 0x000 0x40000, .fsin ⟨⟨false, false, 3⟩, ⟨true, false, 2⟩, ⟨false, false, 0⟩, 2, 0, false, false, 0, false, false, false, 0, 0, 0⟩),
    (fullW 0x27 0x03 0x003 0x203 0x000 0x00000, .fcos ⟨⟨false, false, 3⟩, ⟨true, false, 3⟩, ⟨false, false, 0⟩, 0, 0, false, false, 0, false, false, false, 0, 0, 0⟩)] = true := by decide +kernel

/-- Words of the group from 02_instruction_words R49; 07_registers R182. -/
theorem test_decode_narrowOccupancy : reads [
    (fullW 0x30 0x00 0x003 0x000 0x001 0x00100, .kdot4 ⟨⟨false, false, 3⟩, ⟨false, false, 0⟩, ⟨false, false, 1⟩, 0, 0, false, false, 0, false, false, true, 0, 0, 0⟩),
    (fullW 0x31 0x00 0x003 0x000 0x001 0x20000, .kdot8 ⟨⟨false, false, 3⟩, ⟨false, false, 0⟩, ⟨false, false, 1⟩, 1, 0, false, false, 0, false, false, false, 0, 0, 0⟩),
    (fullW 0x32 0x00 0x003 0x000 0x001 0x00000, .kscale ⟨⟨false, false, 3⟩, ⟨false, false, 0⟩, ⟨false, false, 1⟩, 0, 0, false, false, 0, false, false, false, 0, 0, 0⟩),
    (fullW 0x33 0x00 0x003 0x000 0x001 0x30001, .kpack ⟨⟨false, false, 3⟩, ⟨false, false, 0⟩, ⟨false, false, 1⟩, 1, 2, false, false, 0, false, false, false, 0, 0, 1⟩),
    (fullW 0x34 0x00 0x004 0x000 0x001 0x00000, .kunpack ⟨⟨false, false, 4⟩, ⟨false, false, 0⟩, ⟨false, false, 1⟩, 0, 0, false, false, 0, false, false, false, 0, 0, 0⟩),
    (fullW 0x38 0x00 0x009 0x002 0x000 0x00000, .occGet ⟨⟨false, false, 9⟩, ⟨false, false, 2⟩, ⟨false, false, 0⟩, 0, 0, false, false, 0, false, false, false, 0, 0, 0⟩),
    (fullW 0x38 0x01 0x009 0x088 0x000 0x00080, .occSet ⟨⟨false, false, 9⟩, ⟨false, false, 136⟩, ⟨false, false, 0⟩, 0, 0, false, false, 0, false, false, false, 2, 0, 0⟩),
    (fullW 0x38 0x02 0x004 0x200 0x010 0x00010, .occAnd ⟨⟨false, false, 4⟩, ⟨true, false, 0⟩, ⟨false, false, 16⟩, 0, 0, false, false, 0, false, false, false, 0, 1, 0⟩),
    (fullW 0x38 0x03 0x204 0x000 0x001 0x00000, .occFill ⟨⟨true, false, 4⟩, ⟨false, false, 0⟩, ⟨false, false, 1⟩, 0, 0, false, false, 0, false, false, false, 0, 0, 0⟩),
    (fullW 0x38 0x04 0x003 0x201 0x000 0x00000, .occPack ⟨⟨false, false, 3⟩, ⟨true, false, 1⟩, ⟨false, false, 0⟩, 0, 0, false, false, 0, false, false, false, 0, 0, 0⟩),
    (fullW 0x38 0x05 0x003 0x001 0x03F 0x00010, .occUnpack ⟨⟨false, false, 3⟩, ⟨false, false, 1⟩, ⟨false, false, 63⟩, 0, 0, false, false, 0, false, false, false, 0, 1, 0⟩),
    (fullW 0x38 0x06 0x03F 0x003 0x000 0x00080, .occCnt ⟨⟨false, false, 63⟩, ⟨false, false, 3⟩, ⟨false, false, 0⟩, 0, 0, false, false, 0, false, false, false, 2, 0, 0⟩)] = true := by decide +kernel

/-- Words of the group from 10_lane_crossbar R229, R238, R240. -/
theorem test_decode_crossbar : reads [
    (fullW 0x40 0x00 0x202 0x204 0x006 0x20021, .shflIdx ⟨⟨true, false, 2⟩, ⟨true, false, 4⟩, ⟨false, false, 6⟩, 1, false, false, false, false, 0, false, 33⟩),
    (fullW 0x40 0x01 0x002 0x004 0x005 0x6A3E4, .shflUp ⟨⟨false, false, 2⟩, ⟨false, false, 4⟩, ⟨false, false, 5⟩, 3, false, true, false, true, 0, false, 996⟩),
    (fullW 0x40 0x02 0x002 0x004 0x042 0x3C1E0, .shflDn ⟨⟨false, false, 2⟩, ⟨false, false, 4⟩, ⟨false, false, 66⟩, 1, true, true, true, false, 0, false, 480⟩),
    (fullW 0x40 0x03 0x002 0x104 0x006 0x20800, .shflXor ⟨⟨false, false, 2⟩, ⟨false, true, 4⟩, ⟨false, false, 6⟩, 1, false, false, false, false, 1, false, 0⟩),
    (fullW 0x41 0x00 0x001 0x002 0x000 0x00000, .voteAny ⟨⟨false, false, 1⟩, ⟨false, false, 2⟩, ⟨false, false, 0⟩, 0, false, false, false, false, 0, false, 0⟩),
    (fullW 0x41 0x01 0x001 0x00F 0x000 0x083E0, .voteAll ⟨⟨false, false, 1⟩, ⟨false, false, 15⟩, ⟨false, false, 0⟩, 0, false, true, false, false, 0, false, 992⟩),
    (fullW 0x41 0x02 0x001 0x002 0x000 0x0003F, .voteBal ⟨⟨false, false, 1⟩, ⟨false, false, 2⟩, ⟨false, false, 0⟩, 0, false, false, false, false, 0, false, 63⟩),
    (fullW 0x42 0x00 0x003 0x001 0x000 0x20000, .scan .add ⟨⟨false, false, 3⟩, ⟨false, false, 1⟩, ⟨false, false, 0⟩, 1, false, false, false, false, 0, false, 0⟩),
    (fullW 0x43 0x00 0x003 0x001 0x000 0x20000, .red .add ⟨⟨false, false, 3⟩, ⟨false, false, 1⟩, ⟨false, false, 0⟩, 1, false, false, false, false, 0, false, 0⟩),
    (fullW 0x42 0x01 0x003 0x001 0x000 0x20401, .scan .min ⟨⟨false, false, 3⟩, ⟨false, false, 1⟩, ⟨false, false, 0⟩, 1, false, false, false, false, 0, true, 1⟩),
    (fullW 0x43 0x01 0x003 0x001 0x000 0x20001, .red .min ⟨⟨false, false, 3⟩, ⟨false, false, 1⟩, ⟨false, false, 0⟩, 1, false, false, false, false, 0, false, 1⟩),
    (fullW 0x42 0x02 0x003 0x001 0x000 0x20002, .scan .max ⟨⟨false, false, 3⟩, ⟨false, false, 1⟩, ⟨false, false, 0⟩, 1, false, false, false, false, 0, false, 2⟩),
    (fullW 0x43 0x02 0x003 0x001 0x000 0x20002, .red .max ⟨⟨false, false, 3⟩, ⟨false, false, 1⟩, ⟨false, false, 0⟩, 1, false, false, false, false, 0, false, 2⟩),
    (fullW 0x42 0x03 0x003 0x001 0x000 0x20403, .scan .and ⟨⟨false, false, 3⟩, ⟨false, false, 1⟩, ⟨false, false, 0⟩, 1, false, false, false, false, 0, true, 3⟩),
    (fullW 0x43 0x03 0x003 0x001 0x000 0x20003, .red .and ⟨⟨false, false, 3⟩, ⟨false, false, 1⟩, ⟨false, false, 0⟩, 1, false, false, false, false, 0, false, 3⟩),
    (fullW 0x42 0x04 0x003 0x001 0x000 0x20004, .scan .or ⟨⟨false, false, 3⟩, ⟨false, false, 1⟩, ⟨false, false, 0⟩, 1, false, false, false, false, 0, false, 4⟩),
    (fullW 0x43 0x04 0x003 0x001 0x000 0x20004, .red .or ⟨⟨false, false, 3⟩, ⟨false, false, 1⟩, ⟨false, false, 0⟩, 1, false, false, false, false, 0, false, 4⟩),
    (fullW 0x42 0x05 0x003 0x001 0x000 0x20405, .scan .xor ⟨⟨false, false, 3⟩, ⟨false, false, 1⟩, ⟨false, false, 0⟩, 1, false, false, false, false, 0, true, 5⟩),
    (fullW 0x43 0x05 0x003 0x001 0x000 0x20005, .red .xor ⟨⟨false, false, 3⟩, ⟨false, false, 1⟩, ⟨false, false, 0⟩, 1, false, false, false, false, 0, false, 5⟩),
    (fullW 0x42 0x06 0x003 0x001 0x000 0x00006, .scan .fadd ⟨⟨false, false, 3⟩, ⟨false, false, 1⟩, ⟨false, false, 0⟩, 0, false, false, false, false, 0, false, 6⟩),
    (fullW 0x43 0x06 0x003 0x001 0x000 0x00006, .red .fadd ⟨⟨false, false, 3⟩, ⟨false, false, 1⟩, ⟨false, false, 0⟩, 0, false, false, false, false, 0, false, 6⟩),
    (fullW 0x42 0x07 0x003 0x001 0x000 0x20407, .scan .fmin ⟨⟨false, false, 3⟩, ⟨false, false, 1⟩, ⟨false, false, 0⟩, 1, false, false, false, false, 0, true, 7⟩),
    (fullW 0x43 0x07 0x003 0x001 0x000 0x20007, .red .fmin ⟨⟨false, false, 3⟩, ⟨false, false, 1⟩, ⟨false, false, 0⟩, 1, false, false, false, false, 0, false, 7⟩),
    (fullW 0x42 0x08 0x003 0x001 0x000 0x40008, .scan .fmax ⟨⟨false, false, 3⟩, ⟨false, false, 1⟩, ⟨false, false, 0⟩, 2, false, false, false, false, 0, false, 8⟩),
    (fullW 0x43 0x08 0x003 0x001 0x000 0x40008, .red .fmax ⟨⟨false, false, 3⟩, ⟨false, false, 1⟩, ⟨false, false, 0⟩, 2, false, false, false, false, 0, false, 8⟩),
    (fullW 0x44 0x00 0x206 0x203 0x043 0x04009, .rebal ⟨⟨true, false, 6⟩, ⟨true, false, 3⟩, 67, true, 0, 9⟩),
    (fullW 0x45 0x00 0x006 0x005 0x3E8 0x827FF, .ldSpT ⟨⟨false, false, 6⟩, 5, 1000, 4, false, true, 0, 2047⟩)] = true := by decide +kernel

/-- Words of the group from 02_instruction_words R49; 08_lane_arithmetic R211 to R213. -/
theorem test_decode_scalar : reads [
    (fullW 0x50 0x20 0x004 0x004 0x100 0x00010, .sAdd (.imm ⟨⟨false, false, 4⟩, ⟨false, false, 4⟩, 1, false, 0, 16⟩)),
    (fullW 0x50 0x01 0x004 0x006 0x008 0x60150, .sSub (.reg ⟨⟨false, false, 4⟩, ⟨false, false, 6⟩, ⟨false, false, 8⟩, 3, 0, false, false, 0, false, false, true, 1, 1, 0⟩)),
    (fullW 0x50 0x02 0x005 0x041 0x089 0x20060, .sMul (.reg ⟨⟨false, false, 5⟩, ⟨false, false, 65⟩, ⟨false, false, 137⟩, 1, 0, false, false, 0, false, false, false, 1, 2, 0⟩)),
    (fullW 0x50 0x03 0x005 0x041 0x089 0x20060, .sMin (.reg ⟨⟨false, false, 5⟩, ⟨false, false, 65⟩, ⟨false, false, 137⟩, 1, 0, false, false, 0, false, false, false, 1, 2, 0⟩)),
    (fullW 0x50 0x04 0x005 0x041 0x089 0x20060, .sMax (.reg ⟨⟨false, false, 5⟩, ⟨false, false, 65⟩, ⟨false, false, 137⟩, 1, 0, false, false, 0, false, false, false, 1, 2, 0⟩)),
    (fullW 0x51 0x00 0x005 0x006 0x007 0x20050, .sAnd (.reg ⟨⟨false, false, 5⟩, ⟨false, false, 6⟩, ⟨false, false, 7⟩, 1, 0, false, false, 0, false, false, false, 1, 1, 0⟩)),
    (fullW 0x51 0x01 0x005 0x006 0x007 0x20050, .sOr (.reg ⟨⟨false, false, 5⟩, ⟨false, false, 6⟩, ⟨false, false, 7⟩, 1, 0, false, false, 0, false, false, false, 1, 1, 0⟩)),
    (fullW 0x51 0x02 0x005 0x006 0x007 0x20050, .sXor (.reg ⟨⟨false, false, 5⟩, ⟨false, false, 6⟩, ⟨false, false, 7⟩, 1, 0, false, false, 0, false, false, false, 1, 1, 0⟩)),
    (fullW 0x51 0x03 0x006 0x008 0x000 0x60040, .sNot ⟨⟨false, false, 6⟩, ⟨false, false, 8⟩, ⟨false, false, 0⟩, 3, 0, false, false, 0, false, false, false, 1, 0, 0⟩),
    (fullW 0x51 0x24 0x005 0x006 0x110 0x00004, .sShl (.imm ⟨⟨false, false, 5⟩, ⟨false, false, 6⟩, 1, false, 1, 4⟩)),
    (fullW 0x51 0x25 0x005 0x006 0x110 0x00005, .sShr (.imm ⟨⟨false, false, 5⟩, ⟨false, false, 6⟩, 1, false, 1, 5⟩)),
    (fullW 0x51 0x06 0x006 0x008 0x003 0x40050, .sSar (.reg ⟨⟨false, false, 6⟩, ⟨false, false, 8⟩, ⟨false, false, 3⟩, 2, 0, false, false, 0, false, false, false, 1, 1, 0⟩)),
    (fullW 0x52 0x01 0x005 0x006 0x007 0x20050, .sCmp .ne (.reg ⟨⟨false, false, 5⟩, ⟨false, false, 6⟩, ⟨false, false, 7⟩, 1, 0, false, false, 0, false, false, false, 1, 1, 0⟩)),
    (fullW 0x52 0x24 0x005 0x006 0x10F 0xFFFFF, .sCmp .gt (.imm ⟨⟨false, false, 5⟩, ⟨false, false, 6⟩, 1, false, 0, 16777215⟩)),
    (fullW 0x53 0x20 0x005 0x000 0x010 0x0004D, .sMov (.imm ⟨⟨false, false, 5⟩, ⟨false, false, 0⟩, 0, false, 1, 77⟩)),
    (fullW 0x53 0x00 0x005 0x080 0x000 0x20080, .sMov (.reg ⟨⟨false, false, 5⟩, ⟨false, false, 128⟩, ⟨false, false, 0⟩, 1, 0, false, false, 0, false, false, false, 2, 0, 0⟩)),
    (fullW 0x54 0x00 0x008 0x00A 0x000 0xCC4FF, .sLd ⟨⟨false, false, 8⟩, ⟨false, false, 10⟩, ⟨false, false, 0⟩, 6, 1, 4, false, true, 0, 3, 63⟩),
    (fullW 0x55 0x00 0x004 0x206 0x009 0x64010, .sRdl ⟨⟨false, false, 4⟩, ⟨true, false, 6⟩, ⟨false, false, 9⟩, 3, 0, true, false, 0, false, false, false, 0, 1, 0⟩),
    (fullW 0x56 0x00 0x004 0x006 0x043 0x20010, .vBcast ⟨⟨false, false, 4⟩, ⟨false, false, 6⟩, ⟨false, false, 67⟩, 1, 0, false, false, 0, false, false, false, 0, 1, 0⟩)] = true := by decide +kernel

/-- Words of the group from 04_caches_scratchpad R95, R99; 12_sparse_rows R279. -/
theorem test_decode_memoryForms : reads [
    (fullW 0x60 0x00 0x204 0x002 0x207 0x8B405, .ldG ⟨⟨true, false, 4⟩, ⟨false, false, 2⟩, ⟨true, false, 7⟩, 4, 1, 3, false, true, 0, 0, 5⟩),
    (fullW 0x61 0x00 0x204 0x006 0x000 0xB4089, .stG ⟨⟨true, false, 4⟩, ⟨false, false, 6⟩, ⟨false, false, 0⟩, 5, 2, 4, false, false, 0, 2, 9⟩),
    (fullW 0x64 0x00 0x004 0x002 0x107 0x20240, .ldC ⟨⟨false, false, 4⟩, ⟨false, false, 2⟩, ⟨false, true, 7⟩, 1, 0, 0, false, false, 2, 1, 0⟩),
    (fullW 0x65 0x00 0x004 0x002 0x007 0x3A000, .atomG .add ⟨⟨false, false, 4⟩, ⟨false, false, 2⟩, ⟨false, false, 7⟩, 1, 3, 2, false, false, 0, 0, 0⟩),
    (fullW 0x65 0x01 0x004 0x002 0x007 0x3A000, .atomG .min ⟨⟨false, false, 4⟩, ⟨false, false, 2⟩, ⟨false, false, 7⟩, 1, 3, 2, false, false, 0, 0, 0⟩),
    (fullW 0x65 0x02 0x004 0x002 0x007 0x3A000, .atomG .max ⟨⟨false, false, 4⟩, ⟨false, false, 2⟩, ⟨false, false, 7⟩, 1, 3, 2, false, false, 0, 0, 0⟩),
    (fullW 0x65 0x03 0x004 0x002 0x007 0x3A000, .atomG .and ⟨⟨false, false, 4⟩, ⟨false, false, 2⟩, ⟨false, false, 7⟩, 1, 3, 2, false, false, 0, 0, 0⟩),
    (fullW 0x65 0x04 0x004 0x002 0x007 0x3A000, .atomG .or ⟨⟨false, false, 4⟩, ⟨false, false, 2⟩, ⟨false, false, 7⟩, 1, 3, 2, false, false, 0, 0, 0⟩),
    (fullW 0x65 0x05 0x004 0x002 0x007 0x3A000, .atomG .xor ⟨⟨false, false, 4⟩, ⟨false, false, 2⟩, ⟨false, false, 7⟩, 1, 3, 2, false, false, 0, 0, 0⟩),
    (fullW 0x65 0x06 0x004 0x002 0x007 0x3A000, .atomG .exch ⟨⟨false, false, 4⟩, ⟨false, false, 2⟩, ⟨false, false, 7⟩, 1, 3, 2, false, false, 0, 0, 0⟩),
    (fullW 0x65 0x07 0x004 0x002 0x007 0x3A000, .atomG .cas ⟨⟨false, false, 4⟩, ⟨false, false, 2⟩, ⟨false, false, 7⟩, 1, 3, 2, false, false, 0, 0, 0⟩),
    (fullW 0x65 0x08 0x004 0x002 0x007 0x9A000, .atomG .fadd ⟨⟨false, false, 4⟩, ⟨false, false, 2⟩, ⟨false, false, 7⟩, 4, 3, 2, false, false, 0, 0, 0⟩),
    (fullW 0x62 0x00 0x004 0x209 0x003 0xCA011, .ldSp ⟨⟨false, false, 4⟩, ⟨true, false, 9⟩, 3, 6, 1, false, true, 0, 17⟩),
    (fullW 0x63 0x00 0x204 0x000 0x3FF 0x547FF, .stSp ⟨⟨true, false, 4⟩, ⟨false, false, 0⟩, 1023, 2, 2, true, false, 0, 2047⟩),
    (fullW 0x66 0x00 0x004 0x009 0x000 0x20004, .atomSp .add ⟨⟨false, false, 4⟩, ⟨false, false, 9⟩, 0, 1, 0, false, false, 0, 4⟩),
    (fullW 0x66 0x01 0x004 0x009 0x000 0x28004, .atomSp .min ⟨⟨false, false, 4⟩, ⟨false, false, 9⟩, 0, 1, 1, false, false, 0, 4⟩),
    (fullW 0x66 0x02 0x004 0x009 0x000 0x30004, .atomSp .max ⟨⟨false, false, 4⟩, ⟨false, false, 9⟩, 0, 1, 2, false, false, 0, 4⟩),
    (fullW 0x66 0x03 0x004 0x009 0x000 0x38004, .atomSp .and ⟨⟨false, false, 4⟩, ⟨false, false, 9⟩, 0, 1, 3, false, false, 0, 4⟩),
    (fullW 0x66 0x04 0x004 0x009 0x000 0x20004, .atomSp .or ⟨⟨false, false, 4⟩, ⟨false, false, 9⟩, 0, 1, 0, false, false, 0, 4⟩),
    (fullW 0x66 0x05 0x004 0x009 0x000 0x28004, .atomSp .xor ⟨⟨false, false, 4⟩, ⟨false, false, 9⟩, 0, 1, 1, false, false, 0, 4⟩),
    (fullW 0x66 0x06 0x004 0x009 0x000 0x30004, .atomSp .exch ⟨⟨false, false, 4⟩, ⟨false, false, 9⟩, 0, 1, 2, false, false, 0, 4⟩),
    (fullW 0x66 0x07 0x004 0x009 0x000 0x38004, .atomSp .cas ⟨⟨false, false, 4⟩, ⟨false, false, 9⟩, 0, 1, 3, false, false, 0, 4⟩),
    (fullW 0x66 0x08 0x004 0x009 0x000 0xC0004, .atomSp .fadd ⟨⟨false, false, 4⟩, ⟨false, false, 9⟩, 0, 6, 0, false, false, 0, 4⟩),
    (fullW 0x67 0x00 0x000 0x000 0x000 0x00000, .fence .warp),
    (fullW 0x67 0x01 0x000 0x000 0x000 0x00000, .fence .team),
    (fullW 0x67 0x02 0x000 0x000 0x000 0x00000, .fence .die),
    (fullW 0x67 0x03 0x000 0x000 0x000 0x00000, .fence .pkg),
    (fullW 0x67 0x04 0x000 0x000 0x000 0x00000, .fence .sys),
    (fullW 0x68 0x00 0x204 0x209 0x005 0xFA540, .gfLd ⟨⟨true, false, 4⟩, ⟨true, false, 9⟩, ⟨false, false, 5⟩, 62, true, 0, true, false, true, false, true⟩)] = true := by decide +kernel

/-- Words of the group from 05_copy_engine R115, R125, R126, R128. -/
theorem test_decode_copyTagOwn : reads [
    (fullW 0x70 0x00 0x000 0x000 0x001 0x00C04, .cpG2s ⟨0, 0, 1, 0, false, false, true, true, false, 4⟩),
    (fullW 0x70 0x01 0x03C 0x021 0x00C 0xFF3FF, .cpS2g ⟨60, 33, 12, 63, true, true, false, false, true, 511⟩),
    (fullW 0x70 0x02 0x02D 0x007 0x000 0x24001, .cpS2o ⟨45, 7, 0, 9, false, false, false, false, false, 1⟩),
    (fullW 0x70 0x03 0x12C 0x008 0x1FF 0x52002, .cpA2s ⟨300, 8, 511, 20, true, false, false, false, false, 2⟩),
    (fullW 0x71 0x00 0x000 0x000 0x000 0x14000, .cpHalt 5),
    (fullW 0x71 0x01 0x000 0x000 0x000 0xFC000, .cpGo 63),
    (fullW 0x72 0x00 0x009 0x000 0x000 0x88001, .tagWany ⟨9, 0, true, false, 0, 32769⟩),
    (fullW 0x72 0x01 0x000 0x006 0x000 0x00000, .tagWall ⟨0, 6, false, false, 0, 0⟩),
    (fullW 0x72 0x02 0x03F 0x008 0x000 0x70000, .tagFfr ⟨63, 8, false, true, 3, 0⟩),
    (fullW 0x72 0x03 0x000 0x000 0x000 0x8FFFF, .tagClr ⟨0, 0, true, false, 0, 65535⟩),
    (fullW 0x72 0x04 0x00A 0x000 0x000 0x68000, .tagRd ⟨10, 0, false, true, 2, 32768⟩),
    (fullW 0x72 0x04 0x009 0x000 0x000 0x0003F, .tagRd ⟨9, 0, false, false, 0, 63⟩),
    (fullW 0x73 0x00 0x000 0x009 0x000 0xBEABC, .ownGive ⟨0, 9, 95, false, 2748⟩),
    (fullW 0x73 0x01 0x011 0x000 0x000 0x3FFFF, .ownTest ⟨17, 0, 31, true, 4095⟩)] = true := by decide +kernel

/-- Words of the group from 11_matrix_engine R247 to R256; 12_sparse_rows R271. -/
theorem test_decode_matrix : reads [
    (fullW 0x78 0x00 0x029 0x000 0x000 0x00003, .opClaim ⟨41, 3⟩),
    (fullW 0x78 0x01 0x03F 0x000 0x000 0x00000, .opRel 63),
    (fullW 0x78 0x02 0x005 0x208 0x103 0xC5C01, .opSt ⟨5, ⟨true, false, 8⟩, ⟨false, true, 3⟩, 6, true, 3, 1025⟩),
    (fullW 0x79 0x00 0x005 0x008 0x203 0xC252C, .mxFeed ⟨5, ⟨false, false, 8⟩, ⟨true, false, 3⟩, true, 33, 0, true, 300⟩),
    (fullW 0x79 0x01 0x208 0x00C 0x000 0xA0CE0, .acLd ⟨⟨true, false, 8⟩, 12, 321, 9, true, true⟩),
    (fullW 0x79 0x02 0x000 0x00C 0x000 0xA0F64, .acClr ⟨12, 321, 3, true, 100⟩),
    (fullW 0x7A 0x00 0x000 0x000 0x000 0xC07A1, .mxCfg ⟨0, true, true, 1953⟩),
    (fullW 0x7A 0x01 0x180 0x00B 0x016 0xFBD20, .mxIp ⟨384, 11, 22, 3, true, true, 23, true, 9, false⟩),
    (fullW 0x7A 0x02 0x080 0x03F 0x000 0x406E0, .mxOp ⟨128, 63, 0, 1, false, false, 0, true, 23, false⟩),
    (fullW 0x7A 0x03 0x14D 0x03E 0x007 0xB2810, .mxRw ⟨333, 62, 7, 2, true, true, 5, false, 0, true⟩),
    (fullW 0x7A 0x04 0x03D 0x007 0x03E 0x15C80, .mxNzs ⟨61, 7, 62, true, 11, true, 4⟩)] = true := by decide +kernel

/-- Words of the group from 16_traversal R365 to R381; 06_consistency R152; 14_execution_model R324; 15_traps_preemption R337; 17_power R389. -/
theorem test_decode_walksAndSystem : reads [
    (fullW 0x7C 0x00 0x000 0x03E 0x000 0x3C000, .twNlt ⟨62, 3, 12⟩),
    (fullW 0x7C 0x01 0x209 0x204 0x021 0xAA000, .twRun ⟨⟨true, false, 9⟩, ⟨true, false, 4⟩, 33, true, 21⟩),
    (fullW 0x7C 0x02 0x000 0x204 0x000 0x30000, .twRet ⟨⟨true, false, 4⟩, 0, true, true⟩),
    (fullW 0x7C 0x02 0x000 0x005 0x000 0x40000, .twRet ⟨⟨false, false, 5⟩, 1, false, false⟩),
    (fullW 0x7C 0x03 0x204 0x000 0x022 0x2A0FE, .twCut ⟨⟨true, false, 4⟩, 34, 21, 254⟩),
    (fullW 0x7C 0x04 0x000 0x204 0x000 0x2A000, .twResume ⟨⟨true, false, 4⟩, 21⟩),
    (fullW 0x7D 0x00 0x000 0x000 0x000 0xBBFFE, .rvInit ⟨0, 23, false, true, 4095⟩),
    (fullW 0x7D 0x00 0x000 0x013 0x000 0x10000, .rvInit ⟨19, 2, false, false, 0⟩),
    (fullW 0x7D 0x01 0x000 0x000 0x000 0x3C000, .rvArrive ⟨0, 7, true, false, 0⟩),
    (fullW 0x7D 0x02 0x000 0x000 0x000 0x40000, .rvWait ⟨0, 8, false, false, 0⟩),
    (fullW 0x7D 0x03 0x000 0x000 0x000 0x4C000, .rvArrw ⟨0, 9, true, false, 0⟩),
    (fullW 0x7D 0x04 0x009 0x03E 0x030 0x00000, .mbxPost ⟨9, 62, 48⟩),
    (fullW 0x7D 0x05 0x000 0x000 0x000 0x80002, .perfReq ⟨0, true, 2⟩),
    (fullW 0x7D 0x05 0x000 0x021 0x000 0x00000, .perfReq ⟨33, false, 0⟩),
    (fullW 0x7E 0x00 0x000 0x000 0x000 0x0BEEF, .trap 48879),
    (fullW 0x7E 0x01 0x000 0x000 0x000 0x00000, .rte),
    (fullW 0x7E 0x02 0x009 0x011 0x000 0x01ABC, .rqRd ⟨9, 17, true, 2748⟩),
    (fullW 0x7E 0x03 0x000 0x011 0x009 0x01ABC, .rqWr ⟨9, 17, true, 2748⟩),
    (fullW 0x7E 0x04 0x000 0x005 0x006 0x00000, .trapDrop ⟨5, 6⟩),
    (fullW 0x7E 0x05 0x008 0x000 0x000 0x01002, .csrRd ⟨8, true, 2⟩),
    (fullW 0x7E 0x06 0x000 0x008 0x000 0x00102, .csrWr ⟨8, false, 258⟩),
    (fullW 0x7E 0x07 0x000 0x038 0x000 0x01234, .ringPost ⟨56, 4660⟩),
    (fullW 0x7E 0x08 0x000 0x000 0x000 0x00000, .halt)] = true := by decide +kernel

/-- Words of the group from 02_instruction_words R43. -/
theorem test_decode_pair : reads [
    (pairW 0 0x00040880 0x00050980, .pairWord false ⟨0, 4, 8, true, false, 0, false, false, false⟩ ⟨0, 5, 9, true, false, 0, false, false, false⟩),
    (pairW 1 0x1004F864 0x27050402, .pairWord true ⟨16, 4, 248, false, true, 2, false, true, false⟩ ⟨39, 5, 4, false, false, 0, false, false, true⟩),
    (pairW 0 0x02010608 0x22040710, .pairWord false ⟨2, 1, 6, false, false, 0, true, false, false⟩ ⟨34, 4, 7, false, false, 1, false, false, false⟩)] = true := by decide +kernel

/-- Worked words of the spec (02_instruction_words R42, R47; 08_lane_arithmetic, 07_registers, 05_copy_engine, 17_power). -/
theorem test_decode_worked : reads [
    (0x2000038020100000, .fadd (.reg ⟨⟨false, false, 3⟩, ⟨true, false, 0⟩, ⟨true, false, 1⟩, 0, 0, false, false, 0, false, false, false, 0, 0, 0⟩)),
    (0x1380022221000002, .shl (.imm ⟨⟨false, false, 2⟩, ⟨false, false, 0x88⟩, 2, false, 1, 2⟩)),
    (0x8002044000050980, .pairWord false ⟨0, 4, 8, true, false, 0, false, false, false⟩ ⟨0, 5, 9, true, false, 0, false, false, false⟩),
    (0x2000008060220000, .fadd (.reg ⟨⟨false, false, 0⟩, ⟨true, false, 1⟩, ⟨true, false, 2⟩, 1, 0, false, false, 0, false, false, false, 0, 0, 0⟩)),
    (0x1808010080300000, .icmp .lt (.reg ⟨⟨false, false, 1⟩, ⟨false, false, 2⟩, ⟨false, false, 3⟩, 0, 0, false, false, 0, false, false, false, 0, 0, 0⟩)),
    (0x1984070001000000, .movi ⟨⟨false, false, 7⟩, ⟨false, false, 0⟩, 0, false, 1, 0⟩),
    (0x5080040110000010, .sAdd (.imm ⟨⟨false, false, 4⟩, ⟨false, false, 4⟩, 1, false, 0, 16⟩)),
    (0x3808048001000010, .occAnd ⟨⟨false, false, 4⟩, ⟨true, false, 0⟩, ⟨false, false, 16⟩, 0, 0, false, false, 0, false, false, false, 0, 1, 0⟩),
    (0x3810038040000000, .occPack ⟨⟨false, false, 3⟩, ⟨true, false, 1⟩, ⟨false, false, 0⟩, 0, 0, false, false, 0, false, false, false, 0, 0, 0⟩),
    (0x0B00000000000001, .scopeOpen 1),
    (0x7000000000100C04, .cpG2s ⟨0, 0, 1, 0, false, false, true, true, false, 4⟩),
    (0x7D14000000080002, .perfReq ⟨0, true, 2⟩)] = true := by decide +kernel

/-- Words that are no instruction (02_instruction_words R49, R52): reserved MAJ and SUB values, an FI-only SUB as an F
word, a register class 3, IX without X, FS on an uncounted form, an operand outside its class, a pair code above 0x27. -/
theorem test_decode_rejects :
    ([fullW 0x7F 0 0 0 0 0, fullW 0x0D 0 0 0 0 0, fullW 0x7B 0 0 0 0 0, fullW 0x10 5 0 0 0 0, fullW 0x14 0x20 0 0 0 0x20000,
      fullW 0x19 1 7 0 0 0x20000, fullW 0x20 0 3 0 1 0xC0, fullW 0x20 0 3 0 1 0x800, fullW 0x20 0 3 0 1 0x2000,
      fullW 0x20 0 3 80 1 0x40, fullW 0x50 0 0x204 4 5 0x50, fullW 0x50 0 4 72 5 0x50, fullW 0x00 1 0 0 0 2, fullW 0x0B 0 0 0 0 33,
      fullW 0x06 0 0 0 0 1, pairW 0 0x28000000 0x01000000, pairW 0 0x00010000 0x00020001, 0xA100000000000000].all
      fun w => decodeTableWord 64 w == none) = true := by decide +kernel


/-! ### Well-formedness: each check refuses a term that differs from a legal one in one field. -/

/-- A vector, scalar or predicate field without marks. -/
def rN (n : BitVec 8) : RF := ⟨false, false, n⟩

/-- A generic word of type 1 (`.n32`, `.f16`, `.k4`) on v4, v8 and v12. -/
def gN : GenW := ⟨rN 4, rN 8, rN 12, 1, 0, false, false, 0, false, false, false, 0, 0, 0⟩

/-- The same with no B, and the same on scalars. -/
def gOne : GenW := { gN with b := RF0 }

/-- A generic scalar word of type 1. -/
def gS : GenW := { gN with ac := 1, bc := 1 }

/-- An immediate word of type 1. -/
def iN : ImmW := ⟨rN 4, rN 8, 0, false, 1, 5⟩

/-- A shuffle word of type `.n32`. -/
def xN : XbW := ⟨rN 4, rN 8, rN 12, 1, false, false, false, false, 0, false, 0⟩

/-- A scan word. -/
def xS : XbW := { xN with b := RF0 }

/-- A vote word. -/
def xV : XbW := { xS with ty := 0 }

/-- A global access word, a scratchpad access word. -/
def mN : GmW := ⟨rN 4, rN 8, rN 12, 4, 0, 0, false, false, 0, 0, 0⟩

/-- An atomic word of `.n32`. -/
def mA : GmW := { mN with sz := 1 }

/-- A scratchpad access word. -/
def pN : SpW := ⟨rN 4, rN 8, 0, 4, 0, false, false, 0, 0⟩

/-- A copy word with its length in a register. -/
def cN : CpW := ⟨4, 8, 12, 3, false, false, false, false, false, 1⟩

/-- A tag word with an immediate mask. -/
def tN : TagW := ⟨0, 0, true, false, 0, 7⟩

/-- A matrix pass word. -/
def mxN : MxW := ⟨128, 4, 5, 0, false, false, 0, false, 0, false⟩

/-- An arrival. -/
def rvN : RvW := ⟨0, 3, false, false, 0⟩

/-- A pair slot of `iadd.i32`. -/
def sN (d a : BitVec 8) : PSlot := ⟨0, d, a, false, false, 0, false, false, false⟩

/-- The terms the next theorems change in one field are all well-formed. -/
theorem test_wellformed_bases : ([.iadd (.reg gN), .iabs { gOne with ty := 0 }, .iadd (.imm iN), .fadd (.reg gN), .fadd (.imm iN),
    .sAdd (.reg gS), .sMov (.reg { gS with b := RF0, bc := 0 }), .shflIdx xN, .voteAny xV, .scan .add xS, .ldG mN, .stG mN,
    .ldC mN, .atomG .add mA, .ldSp pN, .stSp pN, .atomSp .add { pN with sz := 1 }, .cpG2s cN, .cpS2g cN,
    .cpS2o { cN with b := 0 }, .cpA2s cN, .tagWall tN, .tagWany { tN with d := 9 }, .mxIp mxN, .mxRw mxN, .rvArrive rvN,
    .rvInit { rvN with ci := true, cnt := 4 }, .pairWord false (sN 1 2) (sN 4 7), .movi { iN with a := RF0 },
    .ffma gN, .kpack { gN with opx := 1 }, .occAnd { gN with ty := 0, bc := 1 }, .sLd ⟨rN 4, rN 8, RF0, 4, 0, 0, false, false, 0, 3, 0⟩,
    .twRun ⟨rN 4, rN 8, 3, true, 5⟩, .tinvcWrite 0] : List Instr).all Machine.legal = true := by decide +kernel

/-- Register fields (02_instruction_words R36, R37, R52): class, number, alignment, marks, X, IX. -/
theorem test_wellformed_fields : ([
    .iadd (.reg { gN with ac := 3 }), .iadd (.reg { gN with ty := 3, d := rN 5 }), .iadd (.reg { gN with ty := 3, a := rN 5 }),
    .iadd (.reg { gN with bc := 1, b := rN 68 }), .iadd (.reg { gN with bc := 1, b := ⟨true, false, 3⟩ }),
    .iadd (.reg { gN with bc := 1, b := ⟨false, true, 3⟩ }), .iadd (.reg { gN with bc := 2, b := rN 0x8C }),
    .iadd (.reg { gN with bc := 2, b := rN 3 }), .iadd (.reg { gN with bc := 2, b := ⟨true, false, 0x80⟩ }),
    .iadd (.reg { gN with ix := 1 }), .icmp .eq (.reg { gN with d := rN 16 }), .icmp .eq (.reg { gN with d := ⟨false, true, 1⟩ }),
    .sAdd (.reg { gS with d := rN 64 }), .sAdd (.reg { gS with d := ⟨true, false, 4⟩ }),
    .sAdd (.reg { gS with ty := 3, a := rN 7 }), .sAdd (.reg { gS with ac := 2, a := rN 0x88 }),
    .sAdd (.reg { gS with a := rN 72 }), .sAdd (.reg { gS with ac := 0 }), .jmpi ⟨rN 7, 1, 0⟩, .jmpi ⟨rN 64, 1, 0⟩, .jmpi ⟨rN 8, 2, 0⟩,
    .calli ⟨rN 8, 0, 1⟩, .calli ⟨rN 8, 3, 0⟩, .occGet { gOne with ty := 0, d := rN 64 }] : List Instr).all
    (fun i => !Machine.legal i) = true := by decide +kernel

/-- The generic MOD and the FI layout (02_instruction_words R39 to R42). -/
theorem test_wellformed_modifiers : ([
    .iadd (.reg { gN with fs := true }), .iadd (.reg { gN with na := true }), .iadd (.reg { gN with rm := 1 }),
    .iadd (.reg { gN with opx := 1 }), .imin (.reg { gN with sat := true }), .iabs { gOne with ty := 1 },
    .iabs { gN with ty := 0 }, .iabs { gOne with ty := 0, bc := 1 }, .imulhi { gN with sat := true }, .imad { gN with opx := 1 },
    .and (.reg { gN with ty := 0 }), .or (.imm { iN with ty := 5 }), .xor (.reg { gN with sat := true }), .not { gOne with ty := 4 },
    .shl (.reg { gN with ty := 0 }), .shr (.reg { gN with ty := 7 }), .sar (.reg gN), .popc { gOne with ty := 3 }, .clz gN,
    .brev { gOne with opx := 1 }, .bfe { gN with ty := 2 }, .bfi { gN with ty := 0 }, .lea (.reg { gN with opx := 4 }),
    .lea (.reg { gN with ty := 3, opx := 8 }), .lea (.imm { iN with ty := 0 }), .sel { gN with ty := 0 }, .mov gN,
    .movi { iN with a := RF0, ty := 0 }, .movi iN, .movi { iN with a := RF0, ac := 1 }, .movh { iN with a := RF0, imm := 65536 },
    .movi { iN with a := RF0, d := ⟨false, true, 4⟩ }, .cvt { gOne with opx := 8 }, .iadd (.imm { iN with d := ⟨false, true, 4⟩ }),
    .iadd (.imm { iN with a := ⟨false, true, 8⟩ }), .iadd (.imm { iN with ac := 2 })] : List Instr).all
    (fun i => !Machine.legal i) = true := by decide +kernel

/-- Floating, narrow and occupancy forms (08_lane_arithmetic R204 to R210; 09_narrow_formats R220; 07_registers R182). -/
theorem test_wellformed_float : ([
    .fadd (.reg { gN with ty := 5 }), .fadd (.reg { gN with sat := true }), .fadd (.imm { iN with imm := 65536 }),
    .fsub (.reg { gN with opx := 1 }), .fmul (.reg { gN with fs := true }), .fmin (.reg { gN with rm := 1 }),
    .fmax (.reg { gN with ac := 2 }), .ffma { gN with opx := 2 }, .fcmp .un (.reg { gN with ty := 3 }),
    .fcmp .eq (.reg { gN with rm := 2 }), .fclass { gOne with ty := 4 }, .frnd gN, .fcvt { gOne with opx := 3 },
    .fcvt { gN with opx := 0 }, .fcvt { gOne with nb := true, opx := 1 }, .fcvt { gOne with na := true }, .fcvt { gN with ty := 3, opx := 1 },
    .frcp { gOne with rm := 1 }, .frsq { gOne with ty := 3 }, .fsqrt gN, .fexp2 { gOne with na := true }, .flog2 { gOne with rm := 1 },
    .fsin { gOne with ty := 3 }, .fcos { gOne with opx := 1 }, .kdot4 gN, .kdot8 { gN with ty := 2 }, .kscale { gN with ty := 0, sat := true },
    .kpack { gN with opx := 2 }, .kpack { gN with a := rN 6, ty := 0 }, .kunpack { gN with rm := 1 }, .kunpack { gN with ac := 1 },
    .kdot4 { gN with ty := 0, rm := 1 }, .occGet gOne, .occSet { gN with ty := 0 }, .occAnd { gN with ty := 0 },
    .occAnd { gN with ty := 0, bc := 1, strict := true }, .occFill { gN with ty := 0, bc := 2 }, .occPack { gN with ty := 0 },
    .occUnpack { gN with ty := 0 }, .occCnt { gOne with ty := 0, ac := 1 }, .occPack { gOne with ty := 0, ac := 2, a := rN 3 }] : List Instr).all
    (fun i => !Machine.legal i) = true := by decide +kernel

/-- Crossbar and scalar forms (10_lane_crossbar R229 to R240; 08_lane_arithmetic R211 to R213). -/
theorem test_wellformed_crossbar : ([
    .shflIdx { xN with ty := 0 }, .shflUp { xN with opt := true }, .shflDn { xN with msk := 64 }, .shflXor { xN with mi := true, msk := 31 },
    .shflIdx { xN with bi := true, bs := true }, .shflIdx { xN with bi := true, b := rN 32 }, .shflIdx { xN with bs := true, b := rN 68 },
    .voteAny xN, .voteAll { xV with ty := 1 }, .voteBal { xV with a := rN 16 }, .voteAny { xV with opt := true }, .voteAny { xV with bi := true },
    .scan .add { xS with ty := 4 }, .scan .fadd { xS with ty := 3 }, .red .and { xS with ty := 0 }, .red .add xN, .scan .min { xS with bs := true },
    .rebal ⟨rN 5, rN 8, 3, false, 0, 1⟩, .rebal ⟨rN 4, rN 8, 68, false, 0, 1⟩, .rebal ⟨rN 4, rN 8, 3, false, 1, 1⟩,
    .ldSpT ⟨rN 4, 3, 0, 1, false, false, 0, 0⟩, .ldSpT ⟨rN 4, 3, 0, 0, true, false, 0, 0⟩, .ldSpT ⟨rN 5, 3, 0, 4, false, false, 0, 0⟩,
    .sAdd (.reg { gS with strict := true }), .sSub (.reg { gS with ty := 4 }), .sMul (.reg { gS with na := true }), .sMin (.reg { gS with sat := true }),
    .sMax (.reg { gS with rm := 1 }), .sAnd (.reg { gS with ty := 0 }), .sOr (.imm { iN with ac := 1, ty := 0 }), .sXor (.imm iN), .sNot gS,
    .sShl (.imm { iN with ac := 1, strict := true }), .sShr (.reg { gS with ty := 2 }), .sSar (.reg gS), .sCmp .eq (.reg { gS with ty := 5 }),
    .sMov (.reg gS), .sMov (.imm iN), .sRdl { gN with bc := 0 }, .sRdl { gN with ac := 1, bc := 1 }, .vBcast { gN with bc := 1, ty := 0 },
    .sLd { mN with ow := 3 }, .sLd { mN with b := RF0 }, .sLd { mN with ow := 3, b := RF0, sz := 3 }, .sLd { mN with ow := 3, b := RF0, ord := 2 },
    .sLd { mN with ow := 3, b := RF0, bp := true }, .sLd { mN with ow := 3, b := RF0, d := rN 6, sz := 6 }] : List Instr).all
    (fun i => !Machine.legal i) = true := by decide +kernel

/-- Memory forms, copies, tags and ownership (04_caches_scratchpad R95 to R105; 05_copy_engine R115, R126, R128; 12 R279). -/
theorem test_wellformed_memory : ([
    .ldG { mN with sz := 7 }, .ldG { mN with ord := 2 }, .ldG { mN with sco := 1 }, .ldG { mN with ord := 1, sco := 5 },
    .ldG { mN with ord := 1, bp := true }, .ldG { mN with ow := 3 }, .ldG { mN with ow := 2 }, .stG { mN with sz := 1 }, .stG { mN with ord := 1 },
    .stG { mN with fs := true }, .stG { mN with bp := true }, .ldC { mN with ord := 1 }, .ldC { mN with ow := 2, b := RF0 },
    .atomG .add { mN with sz := 4 }, .atomG .xor { mA with sz := 0 }, .atomG .fadd mA, .atomG .cas { mA with bp := true },
    .ldG { mN with a := rN 64 }, .ldSp { pN with sz := 7 }, .ldSp { pN with ord := 2 }, .ldSp { pN with az := true }, .stSp { pN with fs := true },
    .stSp { pN with ord := 3 }, .stSp { pN with sz := 3 }, .atomSp .exch { pN with sz := 0 }, .atomSp .fadd { pN with sz := 3 },
    .gfLd ⟨rN 4, rN 8, rN 9, 5, false, 0, false, false, false, false, false⟩, .gfLd ⟨rN 4, rN 64, rN 9, 4, false, 0, false, false, false, true, false⟩,
    .gfLd ⟨rN 4, rN 8, ⟨true, false, 3⟩, 4, false, 0, false, false, false, false, true⟩, .cpG2s { cN with d := 5 }, .cpG2s { cN with d := 64 },
    .cpG2s { cN with az := true }, .cpG2s { cN with li := true, b := 0 }, .cpG2s { cN with li := true, shp := true },
    .cpG2s { cN with shp := true, b := 14 }, .cpG2s { cN with b := 64 }, .cpG2s { cN with rel := true }, .cpG2s { cN with mb := true },
    .cpS2g { cN with mb := true, d := 62 }, .cpS2o cN, .cpS2o { cN with b := 0, d := 64 }, .cpA2s { cN with d := 512 }, .cpA2s { cN with b := 512 },
    .cpA2s { cN with rel := true, shp := true }, .cpA2s { cN with li := true }, .tagWall { tN with d := 1 }, .tagWall { tN with ci := 1 },
    .tagWany { tN with a := 2 }, .tagFfr { tN with mi := false }, .tagClr { tN with mi := false, imm := 0, a := 3 }, .tagRd tN,
    .tagRd { tN with mi := false, imm := 64 }, .tagRd { tN with mi := false, imm := 0x8000, d := 3 }, .ownGive ⟨1, 8, 0, false, 0⟩,
    .ownGive ⟨0, 8, 96, false, 0⟩, .ownGive ⟨0, 8, 0, true, 0⟩, .ownTest ⟨1, 8, 32, false, 0⟩, .ownTest ⟨1, 8, 0, true, 0⟩] : List Instr).all
    (fun i => !Machine.legal i) = true := by decide +kernel

/-- Control, matrix, traversal, rendezvous, system and pair forms (13 R290; 07 R174 to R181; 11 R247 to R256; 12 R271; 16
R365 to R381; 06 R152; 14 R322, R324; 17 R389; 15 R337, R352; 02_instruction_words R43, R44). -/
theorem test_wellformed_system : ([
    .exitSpawn ⟨3, 0⟩, .exitSpawn ⟨62, 1⟩, .rgn ⟨4, 1⟩, .scopeOpen 0, .scopeOpen 33, .xset ⟨0, 68, false, 0⟩, .xset ⟨0, 3, true, 1⟩,
    .xadd ⟨0, 3, false, 1⟩, .opClaim ⟨1, 4⟩, .opSt ⟨1, rN 8, rN 3, 3, false, 0, 0⟩, .opSt ⟨1, rN 9, rN 3, 5, false, 0, 0⟩,
    .mxFeed ⟨1, rN 8, rN 3, false, 4, 0, false, 0⟩, .acLd ⟨rN 4, 3, 0, 0, false, false⟩, .acClr ⟨3, 0, 0, false, 0⟩, .mxCfg ⟨3, true, false, 0⟩,
    .mxCfg ⟨3, false, false, 1⟩, .mxIp { mxN with row0 := 64 }, .mxIp { mxN with cx := true }, .mxOp { mxN with apt := 3 },
    .mxOp { mxN with ae := true, apt := 24 }, .mxRw { mxN with se := true, spt := 24 }, .mxRw { mxN with spt := 1 }, .mxRw { mxN with a := 5 },
    .mxNzs ⟨1, 2, 3, false, 0, false, 0⟩, .mxNzs ⟨1, 2, 4, false, 1, false, 0⟩, .twNlt ⟨3, 0, 0⟩, .twNlt ⟨4, 15, 1⟩,
    .twRun ⟨rN 4, rN 8, 3, false, 5⟩, .twRun ⟨⟨false, true, 4⟩, rN 8, 3, true, 5⟩, .twRun ⟨rN 4, rN 9, 3, true, 5⟩, .twRet ⟨rN 8, 2, false, false⟩,
    .twRet ⟨⟨false, true, 8⟩, 0, false, false⟩, .twRet ⟨rN 9, 0, true, false⟩, .twCut ⟨rN 5, 4, 0, 0⟩, .twCut ⟨rN 4, 4, 0, 255⟩, .twCut ⟨rN 4, 3, 0, 0⟩,
    .twResume ⟨rN 5, 0⟩, .twResume ⟨⟨false, true, 4⟩, 0⟩, .rvInit { rvN with ci := true }, .rvInit { rvN with cnt := 1 },
    .rvInit { rvN with ln := true }, .rvArrive { rvN with pt := 24 }, .rvArrive { rvN with a := 1 }, .rvWait { rvN with ln := true },
    .rvArrw { rvN with ci := true }, .mbxPost ⟨1, 3, 0⟩, .mbxPost ⟨1, 2, 8⟩, .perfReq ⟨1, true, 0⟩, .perfReq ⟨1, false, 2⟩, .rqRd ⟨1, 2, false, 0⟩,
    .rqWr ⟨1, 2, false, 0⟩, .csrRd ⟨2, true, 1⟩, .csrRd ⟨3, true, 2⟩, .csrWr ⟨2, false, 0x555⟩, .ringPost ⟨4, 0⟩,
    .pairWord false { sN 1 2 with op := 0x28 } (sN 4 7), .pairWord false { sN 1 2 with al := true, imm := true } (sN 4 7),
    .pairWord false (sN 1 2) { sN 4 7 with op := 3, sat := true }, .pairWord false (sN 1 2) { sN 4 7 with rm := 1 }] : List Instr).all
    (fun i => !Machine.legal i) = true := by decide +kernel

end Sys2Proof.Tests
end

section
/-!
PROOF. A step takes the next turn; a turn chooses, the chosen fragment enters its clause, and the word at its place is fetched,
decoded and executed (02_instruction_words R18 to R32; 17_power R385). The layers, in the order of the model's definitions:
reservations, the entry into a clause, the word, the choice, the step.
-/
namespace Sys2Proof.Machine

/-! ### Current reservations of vector instructions (17_power R383, R385) -/

/-- An ask for a reservation leaves the reservations held as they are. -/
@[simp] theorem State.held_curAsk (s : State) (cl k : Nat) (who : Requester) (team tag left charge : Nat) :
    ((s.curAsk cl who team tag left charge).cluster k).held = (s.cluster k).held := by
  unfold State.curAsk
  rw [State.cluster_modCluster]
  split
  · split <;> rfl
  · rfl

/-- A requester that holds nothing has a request once it has asked. -/
theorem State.curAsk_requests {s : State} {cl : Nat} {who : Requester} (h : ∀ y ∈ (s.cluster cl).held, y.who ≠ who)
    (team tag left charge : Nat) : ∃ y ∈ ((s.curAsk cl who team tag left charge).cluster cl).reqs, y.who = who := by
  unfold State.curAsk
  rw [State.cluster_modCluster, if_pos rfl]
  have hn : ((s.cluster cl).held.any (·.who == who)) = false := by simpa using h
  rw [hn, Bool.false_or]
  split
  case isTrue ha =>
    obtain ⟨y, hy, hw⟩ := List.any_eq_true.1 ha
    exact ⟨y, hy, by simp_all⟩
  case isFalse => exact ⟨_, List.mem_append_right _ (List.mem_singleton_self _), rfl⟩

/-- The only reservation of a requester is the one that it is found to hold. -/
theorem State.curHeld_of_unique {s : State} {cl : Nat} {r : CurReq} (hr : r ∈ (s.cluster cl).held)
    (hu : ∀ y ∈ (s.cluster cl).held, y.who = r.who → y = r) : s.curHeld cl r.who = some r := by
  unfold State.curHeld
  cases h : (s.cluster cl).held.find? (·.who == r.who) with
  | none => simpa using List.find?_eq_none.1 h r hr
  | some y => exact congrArg some (hu y (List.mem_of_find?_eq_some h) (by simpa using List.find?_some h))

/-- A requester holds a reservation where one of its name is among those held. -/
theorem State.curHeld_isSome_iff (s : State) (cl : Nat) (who : Requester) :
    (s.curHeld cl who).isSome = true ↔ ∃ r ∈ (s.cluster cl).held, r.who = who := by
  simp [State.curHeld]

theorem State.vectorGo_iff (s : State) (i : Instr) : s.vectorGo i = true ↔
    ∀ x ∈ (s.vectorNeeds i).2.2, ∃ r ∈ (s.cluster (s.vectorNeeds i).1).held, r.who = x.1 := by
  simp only [State.vectorGo, List.all_eq_true, State.curHeld_isSome_iff]

/-- What is left of a reservation after a macro-operation of the requester `who` has taken `n` beats: nothing, where it had no
more; one of another requester stays whole. -/
def CurReq.take (who : Requester) (n : Nat) (y : CurReq) : Option CurReq :=
  if y.who == who then (if y.left ≤ n then none else some { y with left := y.left - n }) else some y

theorem CurReq.take_eq_some_of_ne {who : Requester} {n : Nat} {x y : CurReq} (hy : y.who ≠ who) :
    x.take who n = some y ↔ x = y := by
  unfold CurReq.take
  by_cases h : x.who = who
  · have hx : (if x.left ≤ n then none else some ({ x with left := x.left - n } : CurReq)) ≠ some y := by
      split
      · exact nofun
      · rintro ⟨⟩; exact hy h
    rw [if_pos (by simpa using h)]
    exact ⟨fun e => absurd e hx, fun e => absurd (e ▸ h) hy⟩
  · simp [h]

theorem CurReq.take_eq_some_of_eq {who : Requester} {n : Nat} {x y : CurReq} (hy : y.who = who) :
    x.take who n = some y ↔ x.who = who ∧ n < x.left ∧ { x with left := x.left - n } = y := by
  unfold CurReq.take
  by_cases h : x.who = who
  · simp [h]
  · have hne : x ≠ y := by rintro rfl; exact h hy
    simp [h, hne]

theorem State.held_spend {s : State} {cl : Nat} {who : Requester} {r : CurReq} (h : s.curHeld cl who = some r) (t n : Nat) :
    ((s.spend cl t (who, n)).cluster cl).held = (s.cluster cl).held.filterMap (CurReq.take who n) := by
  unfold State.spend
  rw [h]
  dsimp only
  split
  · rw [State.held_curAsk, State.cluster_modCluster, if_pos rfl]
    rfl
  · rw [State.cluster_modCluster, if_pos rfl]
    rfl

/-- What a macro-operation takes leaves the reservations of other requesters. -/
theorem State.mem_held_spend_of_ne {s : State} {cl : Nat} {r : CurReq} (h : s.curHeld cl r.who = some r) (t n : Nat) {y : CurReq}
    (hy : y.who ≠ r.who) : y ∈ ((s.spend cl t (r.who, n)).cluster cl).held ↔ y ∈ (s.cluster cl).held := by
  simp [State.held_spend h, CurReq.take_eq_some_of_ne hy]

/-- Of a requester's one reservation, what is not taken remains. -/
theorem State.mem_held_spend_of_eq {s : State} {cl : Nat} {r : CurReq} (hr : r ∈ (s.cluster cl).held)
    (hu : ∀ y ∈ (s.cluster cl).held, y.who = r.who → y = r) (t n : Nat) {y : CurReq} (hy : y.who = r.who) :
    y ∈ ((s.spend cl t (r.who, n)).cluster cl).held ↔ n < r.left ∧ y = { r with left := r.left - n } := by
  rw [State.held_spend (State.curHeld_of_unique hr hu), List.mem_filterMap]
  constructor
  · rintro ⟨x, hx, hxy⟩
    obtain ⟨hw, hl, he⟩ := (CurReq.take_eq_some_of_eq hy).1 hxy
    obtain rfl := hu x hx hw
    exact ⟨hl, he.symm⟩
  · rintro ⟨hl, he⟩
    exact ⟨r, hr, (CurReq.take_eq_some_of_eq hy).2 ⟨rfl, hl, he.symm⟩⟩

/-- Beats beyond those of the reservation ask for another. -/
theorem State.spend_requests {s : State} {cl : Nat} {r : CurReq} (hr : r ∈ (s.cluster cl).held)
    (hu : ∀ y ∈ (s.cluster cl).held, y.who = r.who → y = r) (t : Nat) {n : Nat} (hl : r.left < n) :
    ∃ y ∈ ((s.spend cl t (r.who, n)).cluster cl).reqs, y.who = r.who := by
  have hnone : ∀ y ∈ ((s.spend cl t (r.who, n)).cluster cl).held, y.who ≠ r.who := fun y hy hw =>
    absurd ((State.mem_held_spend_of_eq hr hu t n hw).1 hy).1 (by omega)
  unfold State.spend at hnone ⊢
  rw [State.curHeld_of_unique hr hu] at hnone ⊢
  simp only [hl, if_true, State.held_curAsk] at hnone ⊢
  exact State.curAsk_requests hnone ..

/-! ### The entry into a clause (02_instruction_words R23, R26, R32, R52) -/

theorem State.enter_of_entered {s : State} {cur : Cur} {f : Frag} (hf : s.frag? cur = some f) (hh : f.hdr.isSome = true) :
    s.enter cur = (s, true) := by
  simp [State.enter, hf, hh]

section
variable {s : State} {cur : Cur} {f : Frag} (hf : s.frag? cur = some f) (hn : f.hdr = none)
include hf hn

theorem State.enter_of_lookups (hl : s.lookups cur.unit [f.cpc] = true) : s.enter cur = (s.hold cur, false) := by
  simp [State.enter, hf, hn, hl]

theorem State.enter_of_fetch_error (hl : s.lookups cur.unit [f.cpc] = false) {code : Nat}
    (he : s.fetch cur.unit f.cpc = .error code) : s.enter cur = (s.boundaryTrap cur (oneTrap code f.cpc) true, false) := by
  simp [State.enter, hf, hn, hl, he]

theorem State.enter_of_no_header (hl : s.lookups cur.unit [f.cpc] = false) {w : DWord} (he : s.fetch cur.unit f.cpc = .ok w)
    (hd : decodeHeader w = none) : s.enter cur = (s.boundaryTrap cur (plainTrap cILLENC) true, false) := by
  simp [State.enter, hf, hn, hl, he, hd]

theorem State.enter_of_len_le (hl : s.lookups cur.unit [f.cpc] = false) {w : DWord} (he : s.fetch cur.unit f.cpc = .ok w)
    {h : Header} (hd : decodeHeader w = some h) (hle : h.len ≤ f.slot) :
    s.enter cur = (s.boundaryTrap cur (plainTrap cILLENC) true, false) := by
  simp [State.enter, hf, hn, hl, he, hd, hle]

theorem State.enter_of_flags_clear (hl : s.lookups cur.unit [f.cpc] = false) {w : DWord} (he : s.fetch cur.unit f.cpc = .ok w)
    {h : Header} (hd : decodeHeader w = some h) (hlt : f.slot < h.len)
    (hr : (f.slot != 0 || (s.regs? cur.unit).all fun r => r.flagsClear h.wait) = true) :
    s.enter cur = (s.modFrag cur fun g => { g with hdr := some h }, true) := by
  have hw : (f.slot == 0 && !(s.regs? cur.unit).all fun r => r.flagsClear h.wait) = false := by
    rw [← Bool.not_eq_true', Bool.not_and, Bool.not_not]; exact hr
  simp [State.enter, hf, hn, hl, he, hd, Nat.not_le.2 hlt, hw]

theorem State.enter_of_flags_pending (hl : s.lookups cur.unit [f.cpc] = false) {w : DWord} (he : s.fetch cur.unit f.cpc = .ok w)
    {h : Header} (hd : decodeHeader w = some h) (hlt : f.slot < h.len)
    (hr : (f.slot != 0 || (s.regs? cur.unit).all fun r => r.flagsClear h.wait) = false) :
    s.enter cur = (s.modFrag cur fun g => { g with hdr := some h, wait := some .flags }, false) := by
  have hw : (f.slot == 0 && !(s.regs? cur.unit).all fun r => r.flagsClear h.wait) = true := by
    rw [← Bool.not_eq_false', Bool.not_and, Bool.not_not]; exact hr
  simp [State.enter, hf, hn, hl, he, hd, Nat.not_le.2 hlt, hw]

end

theorem State.runFrag_of_enter_false {s s' : State} {cur : Cur} (h : s.enter cur = (s', false)) : s.runFrag cur = .next s' := by
  simp [State.runFrag, h]

/-- A fragment that has entered its clause goes on as one that stood in it. -/
theorem State.runFrag_of_enter_true {s s' : State} {cur : Cur} (h : s.enter cur = (s', true)) (h' : s'.enter cur = (s', true)) :
    s.runFrag cur = s'.runFrag cur := by
  simp [State.runFrag, h, h']

/-! ### The word at a fragment's place (02_instruction_words R18, R23, R52) -/

section
variable {s : State} {cur : Cur} {f : Frag} (hf : s.frag? cur = some f)
include hf

theorem State.runFrag_of_issueWord (hh : f.hdr.isSome = true) {s' : State} (h : s.issueWord cur = .next s') :
    s.runFrag cur = .next (s'.hintAfter cur f) := by
  simp [State.runFrag, State.enter_of_entered hf hh, hf, h]

theorem State.issueWord_of_lookups (hl : s.lookups cur.unit [f.wordAt] = true) : s.issueWord cur = .next (s.hold cur) := by
  simp [State.issueWord, hf, hl]

theorem State.issueWord_of_fetch_error (hl : s.lookups cur.unit [f.wordAt] = false) {code : Nat}
    (he : s.fetch cur.unit f.wordAt = .error code) :
    s.issueWord cur = .next (s.boundaryTrap cur (oneTrap code f.wordAt) false) := by
  simp [State.issueWord, hf, hl, he]

theorem State.issueWord_of_decode_error (hl : s.lookups cur.unit [f.wordAt] = false) {w : DWord}
    (he : s.fetch cur.unit f.wordAt = .ok w) {e : Reject} (hd : decodeWord w = .error e) :
    s.issueWord cur = .next (s.boundaryTrap cur (plainTrap cILLENC) false) := by
  simp [State.issueWord, hf, hl, he, hd]

theorem State.issueWord_of_no_reservation (hl : s.lookups cur.unit [f.wordAt] = false) {w : DWord}
    (he : s.fetch cur.unit f.wordAt = .ok w) {i : Instr} (hd : decodeWord w = .ok i)
    (hg : ({ s with cur := some cur } : State).vectorGo i = false) :
    s.issueWord cur = .next ((({ s with cur := some cur } : State).vectorAsk i).hold cur) := by
  simp [State.issueWord, hf, hl, he, hd, hg]

theorem State.issueWord_of_exec (hl : s.lookups cur.unit [f.wordAt] = false) {w : DWord} (he : s.fetch cur.unit f.wordAt = .ok w)
    {i : Instr} (hd : decodeWord w = .ok i) (hg : ({ s with cur := some cur } : State).vectorGo i = true) {s' : State}
    (hx : exec i { s with cur := some cur } = .next s') :
    s.issueWord cur = .next (({ s with cur := some cur } : State).vectorSpend cur i s') := by
  simp [State.issueWord, hf, hl, he, hd, hg, hx]

end

/-! ### The choice of a turn, and the step (11_matrix_engine R244, R268; 14_execution_model R320) -/

/-- The better of the best so far and the next. -/
def betterOf {α : Type} (better : α → α → Bool) (r : Option α) (x : α) : Option α :=
  match r with
  | none => some x
  | some b => if better x b then some x else some b

theorem bestOf_eq_foldl {α : Type} (better : α → α → Bool) (l : List α) : bestOf better l = l.foldl (betterOf better) none := rfl

/-- From a best so far the choice goes on to one at the least distance. -/
theorem foldl_betterOf_least {α : Type} (dist : α → Nat) (l : List α) (b : α) :
    ∃ x ∈ b :: l, l.foldl (betterOf fun a b => decide (dist a < dist b)) (some b) = some x ∧ ∀ y ∈ b :: l, dist x ≤ dist y := by
  induction l generalizing b with
  | nil => exact ⟨b, by simp⟩
  | cons a l ih =>
    rw [List.foldl_cons]
    by_cases h : dist a < dist b
    · obtain ⟨x, hx, he, hm⟩ := ih a
      have ha : dist x ≤ dist a := hm a List.mem_cons_self
      refine ⟨x, List.mem_cons_of_mem _ hx, by simpa [betterOf, h] using he, fun y hy => ?_⟩
      rcases List.mem_cons.1 hy with rfl | hy
      · omega
      · exact hm y hy
    · obtain ⟨x, hx, he, hm⟩ := ih b
      have hb : dist x ≤ dist b := hm b List.mem_cons_self
      refine ⟨x, ?_, by simpa [betterOf, h] using he, fun y hy => ?_⟩
      · rcases List.mem_cons.1 hx with rfl | hx <;> simp [*]
      · rcases List.mem_cons.1 hy with rfl | hy
        · exact hb
        · rcases List.mem_cons.1 hy with rfl | hy
          · omega
          · exact hm y (List.mem_cons_of_mem _ hy)

/-- The best by distance of a list that is not empty is one at the least distance. -/
theorem bestOf_least {α : Type} (dist : α → Nat) {l : List α} (h : l ≠ []) :
    ∃ x ∈ l, bestOf (fun a b => decide (dist a < dist b)) l = some x ∧ ∀ y ∈ l, dist x ≤ dist y := by
  cases l with
  | nil => exact absurd rfl h
  | cons a l =>
    rw [bestOf_eq_foldl]
    exact foldl_betterOf_least dist l a

theorem step_of_agenda_cons {s : State} {t : Turn} {rest : List Turn} (h : s.agenda = t :: rest) :
    step s = ({ s with agenda := rest } : State).turn t := by
  simp [step, State.nextTurn, h]

theorem step_of_agenda_nil {s : State} (h : s.agenda = []) :
    step s = ({ s with fresh := s.fresh + 1 } : State).turn (Config.turn s.fresh) := by
  simp [step, State.nextTurn, h]

theorem State.coreTurn_of_no_choice {s : State} {k : Nat}
    (h : chooseWarp ((s.openTurn k).core k).last ((s.openTurn k).readyWarps k) = none) :
    s.coreTurn k = .next ((s.openTurn k).asideDown k) := by
  simp [State.coreTurn, h]

theorem State.coreTurn_of_choice {s : State} {k : Nat} {p : Cand}
    (h : chooseWarp ((s.openTurn k).core k).last ((s.openTurn k).readyWarps k) = some p) :
    let r := (((s.openTurn k).asideDown k).ageWarps ((s.openTurn k).readyWarps k) p).takePick p.t p.w p.pick
    s.coreTurn k = r.1.runFrag ⟨.warp p.t p.w, r.2⟩ := by
  simp [State.coreTurn, h]

/-- How far a ready context stands after the one whose turn it is, in the cycle of the context numbers. -/
def State.ctxDist (s : State) (cl : Nat) (x : Nat × Nat × Nat) : Nat := (x.2.2 + 8 - (s.cluster cl).turn % 8) % 8

/-- The turn of a CCC after it has been given to context number `n`. -/
def State.passTurn (s : State) (cl n : Nat) : State := s.modCluster cl fun c => { c with turn := (n + 1) % 8 }

theorem State.cccTurn_of_none_ready {s : State} {cl : Nat} (h : s.readyCtxs cl = []) : s.cccTurn cl = .next s := by
  simp [State.cccTurn, h, bestOf]

section
variable {s : State} {cl t k n : Nat}
  (h : bestOf (fun a b => decide (s.ctxDist cl a < s.ctxDist cl b)) (s.readyCtxs cl) = some (t, k, n)) {y : Ccc}
  (hy : (s.passTurn cl n).ccc? t k = some y)
include h hy

theorem State.cccTurn_of_grant_fault (hg : y.grantf ≠ none) : s.cccTurn cl = .next ((s.passTurn cl n).takeGrantFault t k) := by
  unfold State.passTurn at hy ⊢
  unfold State.ctxDist at h
  simp [State.cccTurn, h, hy, hg, Option.isSome_iff_ne_none]

theorem State.cccTurn_of_no_grant_fault (hg : y.grantf = none) : s.cccTurn cl = (s.passTurn cl n).runFrag ⟨.ccc t k, .ctx⟩ := by
  unfold State.passTurn at hy ⊢
  unfold State.ctxDist at h
  simp [State.cccTurn, h, hy, hg]

end

theorem State.turn_event {s : State} {i : Instr} (h : isEvent i = true) : s.turn (.event i) = exec i s := by
  simp [State.turn, h]

/-- Settles O56, clause by clause from the lemmas on turns, on the entry into a clause, on the word and on reservations. -/
theorem stepRunsDecoded : Obligations.StepRunsDecoded := by
  unfold Obligations.StepRunsDecoded
  refine ⟨?core, ?ccc, ?word, ?clause, State.vectorGo_iff, ?spend, ?event, fun s => step_of_agenda_nil⟩
  case core =>
    intro s k rest ha
    rw [step_of_agenda_cons ha]
    exact ⟨State.coreTurn_of_no_choice, fun p hp => State.coreTurn_of_choice hp⟩
  case ccc =>
    intro s q rest ha
    rw [step_of_agenda_cons ha]
    refine ⟨State.cccTurn_of_none_ready, fun hne => ?_⟩
    obtain ⟨⟨t, k, n⟩, hm, hb, hle⟩ := bestOf_least (({ s with agenda := rest } : State).ctxDist q) hne
    exact ⟨t, k, n, hm, hle, fun y => State.cccTurn_of_grant_fault hb, fun y => State.cccTurn_of_no_grant_fault hb⟩
  case word =>
    intro s cur f hf hh
    have ends {s' : State} (h : s.issueWord cur = .next s') := State.runFrag_of_issueWord hf hh h
    refine ⟨fun hl => ends (State.issueWord_of_lookups hf hl),
      fun code hl he => ends (State.issueWord_of_fetch_error hf hl he), fun w hl he => ⟨?_, ?_, ?_⟩⟩
    · exact fun e hd => ends (State.issueWord_of_decode_error hf hl he hd)
    · exact fun i hd hg => ends (State.issueWord_of_no_reservation hf hl he hd hg)
    · exact fun i s' hd hg hx => ends (State.issueWord_of_exec hf hl he hd hg hx)
  case clause =>
    intro s cur f hf hn
    refine ⟨fun hl => State.runFrag_of_enter_false (State.enter_of_lookups hf hn hl),
      fun code hl he => State.runFrag_of_enter_false (State.enter_of_fetch_error hf hn hl he), fun w hl he =>
      ⟨fun hd => State.runFrag_of_enter_false (State.enter_of_no_header hf hn hl he hd), fun h hd =>
        ⟨fun hle => State.runFrag_of_enter_false (State.enter_of_len_le hf hn hl he hd hle), fun hlt => ⟨fun hr => ?_, fun hr => ?_⟩⟩⟩⟩
    · refine State.runFrag_of_enter_true (State.enter_of_flags_clear hf hn hl he hd hlt hr) ?_
      exact State.enter_of_entered (f := { f with hdr := some h }) (by rw [frag?_modFrag, hf]; rfl) rfl
    · exact State.runFrag_of_enter_false (State.enter_of_flags_pending hf hn hl he hd hlt hr)
  case spend =>
    intro s q t n r hr hu
    exact ⟨fun y => State.mem_held_spend_of_ne (State.curHeld_of_unique hr hu) t n,
      fun y => State.mem_held_spend_of_eq hr hu t n, State.spend_requests hr hu t⟩
  case event =>
    intro s i rest ha hi
    rw [step_of_agenda_cons ha]
    exact State.turn_event hi

end Sys2Proof.Machine
end

section
/-!
PROOF. The checks before an instruction issues (02_instruction_words R49 to R53).
-/
namespace Sys2Proof.Machine

/-- The word is no instruction here (02_instruction_words R19, R24; 07_registers R167; 18_host_and_trust R401): a feature is not
accepted, the clause goes on after it, its flag is none, or a context names a register that it has not. -/
def failsEnc (s : State) (c : Ctx) (i : Instr) : Bool :=
  !featureOk s i || (endsClause i && c.slot + 1 != c.hdr.len) || (isCounted i && flagOf c.hdr i == 15) ||
    (isCcc c.cur.unit && cccMay i && (shape i).flds.any cccField)

/-- The pair word breaks a rule of 02_instruction_words R47. -/
def failsPair : Instr → Bool
  | .pairWord ch a b => !pairOk ch a b
  | _ => false

/-- A `tw.ret` stands where it may not (16_traversal R375). -/
def failsRet (s : State) (c : Ctx) : Instr → Bool
  | .twRet w => !s.retOk c w
  | _ => false

/-- The unit or the fragment may not issue the form (02_instruction_words R49; 15_traps_preemption R336, R351; 16_traversal R374). -/
def failsCtx (s : State) (c : Ctx) (i : Instr) : Bool :=
  (if isCcc c.cur.unit then !cccMay i || countsLanes i else cccOnly i) || (handlerOnly i && c.kind != .handler) ||
    (barredInHandler i && c.kind == .handler) || failsRet s c i || (barredInInv i && (c.kind != .handler && c.kind != .normal)) ||
    (csrOf i).any (fun n => (csrWho n == 1 && isCcc c.cur.unit) || (csrWho n == 2 && !isCcc c.cur.unit))

/-- The unit has not the right to the form (02_instruction_words R51). -/
def failsPriv (s : State) (c : Ctx) (i : Instr) : Bool :=
  !s.isSys c.cur.unit && (privForm i || (csrOf i).any fun n => csrWho n == 3)

/-- The form writes a control register that is only read (15_traps_preemption R351). -/
def failsRo : Instr → Bool
  | .csrWr w => csrRo w.num.toNat
  | _ => false

/-- The registers of the issuing unit, and its allotment (07_registers R169). -/
def State.regsD (s : State) (u : UnitId) : Regs := (s.regs? u).getD ⟨[], [], [], [], 0⟩

def State.allotOf (s : State) : UnitId → Nat
  | .warp t w => ((s.warp? t w).map (·.allot)).getD 0
  | .ccc _ _ => 0

/-- A register number of a warp's word is out of its allotment (07_registers R170, R180). -/
def failsBound (s : State) (c : Ctx) (i : Instr) : Bool :=
  !isCcc c.cur.unit && (!(shape i).flds.all (fldBound (s.regsD c.cur.unit) (s.allotOf c.cur.unit) (shape i).ix) ||
    (extraNums i).any fun n => decide (s.allotOf c.cur.unit ≤ n))

/-- The checks in their order (02_instruction_words R53). -/
theorem issueCheck_eq (s : State) (c : Ctx) (i : Instr) : issueCheck s c i =
    if failsEnc s c i then some cILLENC else if failsPair i then some cILLPAIR else if failsCtx s c i then some cILLCTX
    else if failsPriv s c i then some cPRIV else if failsRo i then some cPRIV else if failsBound s c i then some cREGBOUND else none := rfl

theorem issueCheck_eq_none_iff {s : State} {c : Ctx} {i : Instr} : issueCheck s c i = none ↔
    failsEnc s c i = false ∧ failsPair i = false ∧ failsCtx s c i = false ∧ failsPriv s c i = false ∧ failsRo i = false ∧
      failsBound s c i = false := by
  rw [issueCheck_eq]
  grind

theorem issueCheck_mem {s : State} {c : Ctx} {i : Instr} {k : Nat} (h : issueCheck s c i = some k) :
    k ∈ [cILLENC, cILLPAIR, cILLCTX, cPRIV, cREGBOUND] := by
  rw [issueCheck_eq] at h
  grind

section
variable {s : State} {c : Ctx} {i : Instr} {k : Nat} (hc : s.ctx? = some c) (h : issueCheck s c i = some k)
include hc h

/-- A form that reads operands, or whole registers, fails its check before it reads them. -/
theorem issueOps_check (body : Env → Ctx → State → Res) : issueOps s i body = .next (s.trapNow c i (plainTrap k)) :=
  issue_check hc h _

theorem issueWide_check (body : Env → Ctx → State → Res) : issueWide s i body = .next (s.trapNow c i (plainTrap k)) :=
  issue_check hc h _

end

/-- The body of a pair word. -/
def pairBody (ch : Bool) (a b : PSlot) (c : Ctx) (s : State) : Res :=
  pairRun ch a b c.lm fullMap (pairRecs s c.cur.unit c.lm ch a b) c s

theorem exec_pairWord (ch : Bool) (a b : PSlot) (s : State) : exec (.pairWord ch a b) s = issue s (.pairWord ch a b) (pairBody ch a b) := rfl

/-- An instruction word that fails a check has no effect but the trap: every one of them is issued by a shared template. -/
theorem exec_check {s : State} {c : Ctx} {i : Instr} {k : Nat} (hi : isEvent i = false) (hc : s.ctx? = some c)
    (h : issueCheck s c i = some k) : exec i s = .next (s.trapNow c i (plainTrap k)) := by
  cases i with
  | nop | yield | yieldW | ret | exit | scopeClose | rte | halt | bra | call | jarm | rgn | opClaim | rvArrive | rvWait | rvArrw
  | join | scopeOpen | fence | cpHalt | cpGo | opRel | trap => exact issue_check hc h _
  | pairWord ch a b => exact issue_check hc h (pairBody ch a b)
  | shflIdx | shflUp | shflDn | shflXor | sRdl | vBcast => exact issueWide_check hc h _
  | _ => cases hi <;> exact issueOps_check hc h _

theorem issueCheck_of_failsEnc {s : State} {c : Ctx} {i : Instr} (h : failsEnc s c i = true) : issueCheck s c i = some cILLENC := by
  rw [issueCheck_eq, if_pos h]

/-- Only a context issues the matrix forms, and it issues no form that it may not (02_instruction_words R49, R51). -/
theorem rights_of_failsCtx_false {s : State} {c : Ctx} {i : Instr} (h : failsCtx s c i = false) :
    (handlerOnly i = true → c.kind = .handler) ∧ (barredInHandler i = true → c.kind ≠ .handler) ∧
      (cccOnly i = true → isCcc c.cur.unit = true) ∧ (isCcc c.cur.unit = true → cccMay i = true) := by
  simp only [failsCtx, Bool.or_eq_false_iff, Bool.and_eq_false_iff] at h
  obtain ⟨⟨⟨⟨⟨hunit, honly⟩, hbarred⟩, -⟩, -⟩, -⟩ := h
  refine ⟨fun h => ?_, fun h => ?_, fun h => ?_, fun h => ?_⟩
  · simpa [h] using honly
  · simpa [h] using hbarred
  · by_contra hc
    simp [hc, h] at hunit
  · simp only [h, if_true, Bool.or_eq_false_iff, Bool.not_eq_false'] at hunit
    exact hunit.1

section
variable {s : State} {c : Ctx} {t k : Nat} {x : Warp} (hu : c.cur.unit = .warp t k) (hx : s.warp? t k = some x)
include hu hx

theorem State.regsD_warp : s.regsD c.cur.unit = x.regs := by simp [State.regsD, State.regs?, hu, hx]

theorem State.allotOf_warp : s.allotOf c.cur.unit = x.allot := by simp [State.allotOf, hu, hx]

end

/-- Every register of a vector field that keeps its bound is within the allotment (07_registers R170, R180). -/
theorem lt_allot_of_fldBound {r : Regs} {allot : Nat} {ix : BitVec 2} {f : Fld} (hb : fldBound r allot ix f = true) (hf : f.cls = 0)
    {n : Nat} (hn : n ∈ fldNums r ix f) : n < allot := by
  obtain ⟨j, hj, rfl⟩ := List.mem_map.1 hn
  have hw : fldNum r ix f + f.w ≤ allot := by
    simp [fldBound, hf] at hb
    exact hb.1
  have hj' : j < f.w := List.mem_range.1 hj
  omega

theorem lt_allot_of_named {r : Regs} {allot : Nat} {i : Instr} (hf : (shape i).flds.all (fldBound r allot (shape i).ix) = true)
    (he : ∀ n ∈ extraNums i, n < allot) {n : Nat} (hn : n ∈ namedOf r i) : n < allot := by
  rcases List.mem_append.1 hn with hs | hp
  · obtain ⟨f, hm, hnum⟩ := List.mem_flatMap.1 hs
    obtain ⟨hmem, hcls⟩ := List.mem_filter.1 hm
    exact lt_allot_of_fldBound (List.all_eq_true.1 hf f hmem) (by simpa using hcls) hnum
  · cases i with
    | pairWord ch a b => exact he n hp
    | _ => cases hp

/-- The vector registers that an issued word names are within its warp's allotment (07_registers R170; 02_instruction_words R53). -/
theorem WarpIssues.named_lt_allot {s : State} {c : Ctx} {i : Instr} {t k : Nat} {x : Warp} (h : WarpIssues s c i t k x) :
    ∀ n, n ∈ namedOf x.regs i → n < x.allot := by
  obtain ⟨⟨-, hcheck⟩, hu, hx⟩ := h
  obtain ⟨-, -, -, -, -, hbound⟩ := issueCheck_eq_none_iff.1 hcheck
  rw [failsBound, State.regsD_warp hu hx, State.allotOf_warp hu hx, hu] at hbound
  simp only [isCcc, Bool.not_false, Bool.true_and, Bool.or_eq_false_iff, Bool.not_eq_false', List.any_eq_false, decide_eq_true_eq,
    Nat.not_le] at hbound
  exact fun n hn => lt_allot_of_named hbound.1 hbound.2 hn

/-- Settles O28, from the list of the checks in their order. -/
theorem issueChecks : Obligations.IssueChecks := by
  unfold Obligations.IssueChecks
  refine ⟨fun i s c k hi hc h => ⟨exec_check hi hc h, issueCheck_mem h⟩, fun i s c _ => ⟨fun he hs => ?ends, fun hn hf => ?flag,
    fun h => ?rights⟩, fun w s c h => ?csr, fun i s c t k x h => h.named_lt_allot⟩
  case ends =>
    have hs' : (c.slot + 1 != c.hdr.len) = true := bne_iff_ne.2 hs
    exact issueCheck_of_failsEnc (by simp [failsEnc, he, hs'])
  case flag => exact issueCheck_of_failsEnc (by simp [failsEnc, hn, hf])
  case rights =>
    obtain ⟨-, -, hctx, hpriv, -, -⟩ := issueCheck_eq_none_iff.1 h.2
    obtain ⟨hhandler, hbarred, hccc, hmay⟩ := rights_of_failsCtx_false hctx
    refine ⟨hhandler, hbarred, hccc, hmay, fun hp => ?_⟩
    simpa [failsPriv, hp] using hpriv
  case csr =>
    obtain ⟨-, -, -, -, hro, -⟩ := issueCheck_eq_none_iff.1 h.2
    simp only [failsRo, csrRo, Bool.or_eq_false_iff, decide_eq_false_iff_not, Nat.not_lt, beq_eq_false_iff_ne] at hro
    exact hro.symm

end Sys2Proof.Machine
end

section
/-!
PROOF. A counted operation whose lanes have all been performed completes (02_instruction_words R24, R28 to R30; 06_consistency R137). The
layers: nothing is left to perform, the caches that an acquire drops, the destination and the flag.
-/
namespace Sys2Proof.Machine

/-! ### The completion of an operation whose lanes have all been performed (02_instruction_words R24, R28) -/

/-- There is nothing left to perform of an operation that has been performed. -/
theorem State.performOp_of_performed {s : State} {u : UnitId} {seq : Nat} {o : Op} (ho : s.op? u seq = some o)
    (hp : o.performed = true) (fresh : Bool) : s.performOp u seq fresh = some s := by
  have hvals : ∀ a ∈ o.accs, (tget o.vals a.lane).isSome = true := List.all_eq_true.1 hp
  have hfold : ∀ l : List Acc, l ⊆ o.accs → l.foldl (fun r a => r.bind fun s =>
      if ((s.op? u seq).bind fun o => tget o.vals a.lane).isSome then some s
      else s.performLane u seq a.lane fresh) (some s) = some s := by
    intro l hl
    induction l with
    | nil => rfl
    | cons a l ih =>
      have ha := hvals a (hl List.mem_cons_self)
      simp only [List.foldl_cons, Option.bind_some, ho, ha, if_true]
      exact ih fun b hb => hl (List.mem_cons_of_mem a hb)
  simp [State.performOp, ho, hfold o.accs fun _ h => h, hp]

/-- The acquire that an operation carries is of package scope or wider. -/
def Op.wide (o : Op) : Bool := o.acq.any fun sc => decide (3 ≤ scopeNum sc)

theorem Op.wide_iff (o : Op) : o.wide = true ↔ o.acq = some .pkg ∨ o.acq = some .sys := by
  unfold Op.wide
  cases o.acq with
  | none => simp
  | some sc => cases sc <;> simp [scopeNum]

/-- What an acquire of an operation still waits for (06_consistency R137): its updates at die scope, and at package scope or wider
what it has read, everywhere. -/
def State.acqWaits (s : State) (u : UnitId) (seq : Nat) (o : Op) : Bool :=
  (o.acq.isSome && s.ownOpen u seq) || (o.wide && o.srcs.any s.onWay)

/-- The caches are dropped by an acquire of package scope or wider. -/
def State.wideDrop (s : State) (u : UnitId) (o : Op) : State :=
  if o.wide then s.dropCaches (s.coreOf u) (s.clusterOf u) else s

theorem State.complete_of_none {s : State} {u : UnitId} {seq : Nat} (h : s.op? u seq = none) (fresh : Bool) :
    s.complete u seq fresh = none := by
  simp [State.complete, State.performOp, h]

theorem State.complete_of_performed {s : State} {u : UnitId} {seq : Nat} {o : Op} (ho : s.op? u seq = some o)
    (hp : o.performed = true) (fresh : Bool) : s.complete u seq fresh =
      if s.acqWaits u seq o then none else some (((s.wideDrop u o).writeBack u o).uncount u o) := by
  simp only [State.complete, State.performOp_of_performed ho hp, ho]
  rfl

/-! ### The caches (04_caches_scratchpad R86) -/

@[simp] theorem State.dropCaches_teams (s : State) (core : Option Nat) (cl : Nat) : (s.dropCaches core cl).teams = s.teams := by
  cases core <;> rfl

@[simp] theorem State.dropCaches_pend (s : State) (core : Option Nat) (cl : Nat) : (s.dropCaches core cl).pend = s.pend := by
  cases core <;> rfl

@[simp] theorem State.dropCaches_flight (s : State) (core : Option Nat) (cl : Nat) : (s.dropCaches core cl).flight = s.flight := by
  cases core <;> rfl

theorem State.gcache_dropCaches (s : State) (core : Option Nat) (cl : Nat) : ((s.dropCaches core cl).cluster cl).gcache = [] := by
  unfold State.dropCaches
  rw [State.cluster_modCluster, if_pos rfl]

theorem State.l1_dropCaches (s : State) (k cl : Nat) : ((s.dropCaches (some k) cl).core k).l1 = [] := by
  have h : (s.dropCaches (some k) cl).core k = (s.modCore k fun x => { x with l1 := [] }).core k := rfl
  rw [h, State.core_modCore, if_pos rfl]

/-- The parts that memory is made of: where they agree, every byte and accumulator element does. -/
theorem sameMem_of_eq {s t : State} (hm : t.mem = s.mem) (hk : t.keys = s.keys) (hf : t.flight = s.flight) (ht : t.teams = s.teams) :
    SameMem s t := by
  refine ⟨fun d k a => ?_, fun g ci off => ?_, fun g n => ?_⟩
  · simp [State.dieByte, State.seenAt, State.baseByte, hm, hk, hf]
  · simp [State.spByte, State.team?, ht]
  · simp [State.accElem, State.team?, ht]

section
variable (s : State) (u : UnitId) (o : Op)

@[simp] theorem State.wideDrop_teams : (s.wideDrop u o).teams = s.teams := by unfold State.wideDrop; split <;> simp
@[simp] theorem State.wideDrop_pend : (s.wideDrop u o).pend = s.pend := by unfold State.wideDrop; split <;> simp
@[simp] theorem State.wideDrop_flight : (s.wideDrop u o).flight = s.flight := by unfold State.wideDrop; split <;> simp

theorem State.wideDrop_sameMem : SameMem s (s.wideDrop u o) := by
  refine sameMem_of_eq ?_ ?_ (by simp) (by simp) <;> (unfold State.wideDrop; split <;> simp)

end

theorem State.warp?_congr {s s' : State} (h : s'.teams = s.teams) (t k : Nat) : s'.warp? t k = s.warp? t k := by
  simp [State.warp?, State.team?, h]

theorem State.ccc?_congr {s s' : State} (h : s'.teams = s.teams) (t k : Nat) : s'.ccc? t k = s.ccc? t k := by
  simp [State.ccc?, State.team?, h]

theorem State.regs?_congr {s s' : State} (h : s'.teams = s.teams) (u : UnitId) : s'.regs? u = s.regs? u := by
  cases u <;> simp [State.regs?, State.warp?_congr h, State.ccc?_congr h]

theorem State.exitedU_congr {s s' : State} (h : s'.teams = s.teams) (u : UnitId) : s'.exitedU u = s.exitedU u := by
  cases u <;> simp [State.exitedU, State.warp?_congr h, State.ccc?_congr h]

section
variable {s t : State} {u : UnitId} (h : OnlyUnit s t u)
include h

theorem OnlyUnit.pend : t.pend = s.pend := by have e := congrArg State.pend h.1; exact e

theorem OnlyUnit.flight : t.flight = s.flight := by have e := congrArg State.flight h.1; exact e

theorem OnlyUnit.cluster (n : Nat) : t.cluster n = s.cluster n := by have e := congrArg (State.cluster · n) h.1; exact e

theorem OnlyUnit.l1 (k : Nat) : (t.core k).l1 = (s.core k).l1 := by have e := congrArg Core.l1 (h.2.1 k); exact e

end

/-! ### The destination and the flag of a completed operation (02_instruction_words R24, R28, R30) -/

/-- The form is the scalar load. -/
def isSLd : Instr → Bool
  | .sLd _ => true
  | _ => false

theorem isSLd_iff (i : Instr) : isSLd i = true ↔ ∃ w, i = .sLd w := by
  cases i <;> simp [isSLd]

/-- The registers of a unit once the destination of its operation has been written: a scalar load's scalars, unless it has exited. -/
def Op.regsWritten (o : Op) (gone : Bool) (r : Regs) : Regs := if isSLd o.instr && !gone then r.setSs o.dst (o.lane 0) else r

/-- A warp once the destination of its operation has been written: a vector load's registers, unless it has exited. -/
def Op.warpWritten (o : Op) (x : Warp) : Warp :=
  if x.exited then x
  else (x.writeV o.dst (countedRegs o.instr) o.lmap o.emap (dKp (shape o.instr)) o.lane).widen ((List.range (countedRegs o.instr)).map (o.dst + ·))

theorem State.writeBack_of_sLd {o : Op} (h : isSLd o.instr = true) (s : State) (u : UnitId) :
    s.writeBack u o = if s.exitedU u then s else s.modRegs u fun r => r.setSs o.dst (o.lane 0) := by
  obtain ⟨w, hw⟩ := (isSLd_iff _).1 h
  simp [State.writeBack, hw]

theorem State.writeBack_warp {o : Op} (h : isSLd o.instr = false) (s : State) (t w : Nat) :
    s.writeBack (.warp t w) o = s.modWarp t w o.warpWritten := by
  unfold State.writeBack
  split
  · simp_all [isSLd]
  · rfl

theorem State.writeBack_ccc {o : Op} (h : isSLd o.instr = false) (s : State) (t k : Nat) : s.writeBack (.ccc t k) o = s := by
  unfold State.writeBack
  split
  · simp_all [isSLd]
  · rfl

theorem onlyUnit_writeBack (s : State) (u : UnitId) (o : Op) : OnlyUnit s (s.writeBack u o) u := by
  cases h : isSLd o.instr with
  | true =>
    rw [State.writeBack_of_sLd h]
    split
    · exact .refl ..
    · exact onlyUnit_modRegs ..
  | false =>
    cases u with
    | warp t w => rw [State.writeBack_warp h]; exact onlyUnit_modWarp ..
    | ccc t k => rw [State.writeBack_ccc h]; exact .refl ..

@[simp] theorem Warp.vr_widen (x : Warp) (l : List Nat) (r : Nat) : (x.widen l).vr r = x.vr r := rfl

theorem Op.warpWritten_rest (o : Op) (x : Warp) : { o.warpWritten x with v := x.v, buf := x.buf } = x := by
  unfold Op.warpWritten
  split
  · rfl
  · have h := congrArg (fun y : Warp => { y with buf := x.buf })
      (Warp.writeV_rest x o.dst (countedRegs o.instr) o.lmap o.emap (dKp (shape o.instr)) o.lane)
    exact h

theorem Op.warpWritten_regs (o : Op) (x : Warp) : (o.warpWritten x).regs = x.regs := by
  have h := congrArg Warp.regs (o.warpWritten_rest x)
  exact h

theorem Op.vr_warpWritten (o : Op) (x : Warp) {q l : Nat} (hl : l < 32) : tget ((o.warpWritten x).vr q) l =
    if x.exited = false ∧ o.dst ≤ q ∧ q < o.dst + countedRegs o.instr then
      (if o.emap.getLsbD l then some ((o.lane l).getD (q - o.dst) 0)
        else if o.lmap.getLsbD l && !dKp (shape o.instr) then none else tget (x.vr q) l)
    else tget (x.vr q) l := by
  unfold Op.warpWritten
  cases x.exited with
  | true => simp
  | false =>
    simp only [Bool.false_eq_true, if_false, Warp.vr_widen, Warp.vr_writeV, true_and]
    split
    · rw [tget_vmerge _ _ _ _ _ _ hl]
    · rfl

theorem State.regs?_writeBack {s : State} {u : UnitId} {r : Regs} (hr : s.regs? u = some r) (o : Op) :
    (s.writeBack u o).regs? u = some (o.regsWritten (s.exitedU u) r) := by
  cases h : isSLd o.instr with
  | true =>
    rw [State.writeBack_of_sLd h]
    cases hg : s.exitedU u <;> simp [Op.regsWritten, h, hr]
  | false =>
    have hw : o.regsWritten (s.exitedU u) r = r := by simp [Op.regsWritten, h]
    rw [hw]
    cases u with
    | warp t w =>
      obtain ⟨x, hx, rfl⟩ := Option.map_eq_some_iff.1 hr
      simp [State.writeBack_warp h, State.regs?, hx, Op.warpWritten_regs]
    | ccc t k => rw [State.writeBack_ccc h, hr]

/-- A warp after the write of a destination: a scalar load leaves all but its registers. -/
theorem State.warp?_writeBack {s : State} {t w : Nat} {x : Warp} (hx : s.warp? t w = some x) (o : Op) :
    ∃ r, (s.writeBack (.warp t w) o).warp? t w =
      some (if isSLd o.instr then { x with regs := r } else o.warpWritten x) := by
  cases h : isSLd o.instr with
  | true =>
    rw [State.writeBack_of_sLd h]
    split
    · exact ⟨x.regs, by simp [hx]⟩
    · exact ⟨_, by simp [State.modRegs, hx]; rfl⟩
  | false => exact ⟨x.regs, by simp [State.writeBack_warp h, hx]⟩

/-- An operation leaves the unit's list, and its flag falls by one. -/
def Regs.uncount (r : Regs) (o : Op) : Regs :=
  { r.setFlag o.flag (r.flag o.flag - 1) with ops := r.ops.filter (·.seq != o.seq) }

theorem onlyUnit_uncount (s : State) (u : UnitId) (o : Op) : OnlyUnit s (s.uncount u o) u := onlyUnit_modRegs ..

theorem State.regs?_uncount {s : State} {u : UnitId} {r : Regs} (hr : s.regs? u = some r) (o : Op) :
    (s.uncount u o).regs? u = some (r.uncount o) := by
  simp [State.uncount, hr, Regs.uncount]

theorem State.warp?_uncount {s : State} {t w : Nat} {x : Warp} (hx : s.warp? t w = some x) (o : Op) :
    (s.uncount (.warp t w) o).warp? t w = some { x with regs := x.regs.uncount o } := by
  simp [State.uncount, State.modRegs, hx, Regs.uncount]

@[simp] theorem Regs.flag_uncount (r : Regs) (o : Op) (n : Nat) :
    (r.uncount o).flag n = if o.flag = n then r.flag o.flag - 1 else r.flag n := Regs.flag_setFlag ..

@[simp] theorem Regs.s_uncount (r : Regs) (o : Op) (n : Nat) : (r.uncount o).s n = r.s n := rfl

/-- The write of a destination changes scalars alone. -/
theorem Op.regsWritten_rest (o : Op) (gone : Bool) (r : Regs) : { o.regsWritten gone r with sc := r.sc } = r := by
  unfold Op.regsWritten
  split
  · exact Regs.setSs_rest ..
  · rfl

theorem Op.s_regsWritten (o : Op) (gone : Bool) (r : Regs) (n : Nat) : (o.regsWritten gone r).s n =
    if (isSLd o.instr = true ∧ gone = false) ∧ o.dst ≤ n ∧ n < o.dst + (o.lane 0).length then (o.lane 0).getD (n - o.dst) 0 else r.s n := by
  unfold Op.regsWritten
  cases isSLd o.instr <;> cases gone <;> simp [Regs.s_setSs]

/-- The registers after a completion. -/
theorem Op.completed_rest (o : Op) (gone : Bool) (r : Regs) :
    { (o.regsWritten gone r).uncount o with sc := r.sc, fl := r.fl, ops := r.ops } = r ∧
      ((o.regsWritten gone r).uncount o).ops = r.ops.filter (·.seq != o.seq) ∧
      ∀ n, ((o.regsWritten gone r).uncount o).flag n = if n = o.flag then r.flag n - 1 else r.flag n := by
  have h := o.regsWritten_rest gone r
  have hops : (o.regsWritten gone r).ops = r.ops := by have e := congrArg Regs.ops h; exact e
  have hfl (n : Nat) : (o.regsWritten gone r).flag n = r.flag n := by have e := congrArg (Regs.flag · n) h; exact e
  refine ⟨?_, by rw [← hops]; rfl, fun n => ?_⟩
  · have e := congrArg (fun q : Regs => { q with fl := r.fl, ops := r.ops }) h
    exact e
  · rw [Regs.flag_uncount, hfl, hfl]
    grind

/-- A warp after the completion of an operation of its. -/
theorem Op.warp?_completed {s : State} {t w : Nat} {x : Warp} (hx : s.warp? t w = some x) (o : Op) :
    ∃ y, ((s.writeBack (.warp t w) o).uncount (.warp t w) o).warp? t w = some y ∧
      { y with regs := x.regs, v := x.v, buf := x.buf } = x ∧
      ∀ q, y.vr q = if isSLd o.instr then x.vr q else (o.warpWritten x).vr q := by
  obtain ⟨r, hr⟩ := State.warp?_writeBack hx o
  refine ⟨_, State.warp?_uncount hr o, ?_, fun q => ?_⟩
  · cases isSLd o.instr with
    | true => rfl
    | false =>
      have h := congrArg (fun y : Warp => { y with regs := x.regs }) (o.warpWritten_rest x)
      exact h
  · cases isSLd o.instr <;> rfl

/-- Settles O26: an operation that has been performed completes unless its acquire waits, and then changes its unit alone, the
caches apart. -/
theorem countedCompletions : Obligations.CountedCompletions := by
  unfold Obligations.CountedCompletions
  intro u seq fresh s r hr run
  have hop : s.op? u seq = r.ops.find? (·.seq == seq) := by simp [State.op?, hr]
  have hrun : run = .next ((s.complete u seq fresh).getD s) := rfl
  refine ⟨fun hnone => by rw [hrun, State.complete_of_none (hop.trans hnone)]; rfl, ?_⟩
  intro o ho hp wide sld gone early
  have hseq : o.seq = seq := by simpa using List.find?_some ho
  have hwide : o.wide = true ↔ wide := o.wide_iff
  have hsld : isSLd o.instr = true ↔ sld := isSLd_iff _
  have hearly : s.acqWaits u seq o = true ↔ early := by
    simp [State.acqWaits, early, ← hwide, Option.isSome_iff_ne_none]
  rw [State.complete_of_performed (hop.trans ho) hp] at hrun
  refine ⟨fun he => by rw [hrun, if_pos (hearly.2 he)]; rfl, fun he => ?_⟩
  rw [if_neg (fun h => he (hearly.1 h)), Option.getD_some] at hrun
  have ht : (s.wideDrop u o).teams = s.teams := by simp
  have hgone : (s.wideDrop u o).exitedU u = s.exitedU u := State.exitedU_congr ht u
  have honly := (onlyUnit_writeBack (s.wideDrop u o) u o).trans (onlyUnit_uncount _ u o)
  have hregs := State.regs?_uncount (State.regs?_writeBack ((State.regs?_congr ht u).trans hr) o) o
  rw [hgone] at hregs
  obtain ⟨hrest, hops, hflag⟩ := o.completed_rest (s.exitedU u) r
  rw [hseq] at hops
  refine ⟨_, _, hrun, (s.wideDrop_sameMem u o).trans honly.sameMem, ?pend, ?flight, ?narrow, ?drop, hregs, hrest, hops, hflag, ?sc, ?sc', ?warp⟩
  case pend => rw [honly.pend, State.wideDrop_pend]
  case flight => rw [honly.flight, State.wideDrop_flight]
  case narrow =>
    intro hn
    have hid : s.wideDrop u o = s := if_neg fun h => hn (hwide.1 h)
    rw [hid] at honly ⊢
    exact honly
  case drop =>
    intro hw
    have hdrop : s.wideDrop u o = s.dropCaches (s.coreOf u) (s.clusterOf u) := if_pos (hwide.2 hw)
    rw [hdrop] at honly ⊢
    exact ⟨by rw [honly.cluster, State.gcache_dropCaches], fun k hk => by rw [honly.l1, hk, State.l1_dropCaches]⟩
  case sc =>
    rintro ⟨hl, hg⟩ n
    have hc : isSLd o.instr = true ∧ s.exitedU u = false := ⟨hsld.2 hl, by simpa [gone] using hg⟩
    rw [Regs.s_uncount, Op.s_regsWritten]
    simp only [hc, and_self, true_and]
  case sc' =>
    intro hn n
    have hc : ¬(isSLd o.instr = true ∧ s.exitedU u = false) := by
      rintro ⟨hl, hg⟩
      exact hn.elim (· (hsld.1 hl)) fun h => absurd (hg.symm.trans h) (by decide)
    rw [Regs.s_uncount, Op.s_regsWritten, if_neg fun h => hc h.1]
  case warp =>
    rintro t w x rfl hx
    obtain ⟨y, hy, hyx, hv⟩ := Op.warp?_completed ((State.warp?_congr ht t w).trans hx) o
    refine ⟨y, hy, hyx, fun q l hl => ?_⟩
    rw [hv q]
    by_cases hs : isSLd o.instr = true
    · rw [if_pos hs]
      exact ⟨fun h => absurd (hsld.1 hs) h.1, fun _ => rfl⟩
    · rw [if_neg hs, o.vr_warpWritten x hl]
      have hns : ¬sld := fun h => hs (hsld.2 h)
      exact ⟨fun h => if_pos h.2, fun h => if_neg fun h' => h ⟨hns, h'⟩⟩

end Sys2Proof.Machine
end

section
/-!
PROOF. Pair words (02_instruction_words R43 to R46): the word writes its two slots one after the other, and each slot is a lane of its
full word.
-/
namespace Sys2Proof.Machine

/-! ### The word: two slots written one after the other -/

theorem and_fullMap (m : Lanes) : m &&& fullMap = m := BitVec.and_allOnes

/-- The flags that a slot raises in the lanes of a map. -/
def slotFlags (p : PSlot) (m : Lanes) (e : SlotEnv) : Word :=
  flagsOr ((lanesOf m).map fun l => (slotLane p (opLane e.d l) (slotSrc p e l)).2)

/-- A warp after a slot has written its results. -/
def slotWritten (p : PSlot) (lm m : Lanes) (e : SlotEnv) (x : Warp) : Warp :=
  (x.writeV p.d.toNat 1 lm m p.kp fun l => words 1 (slotLane p (opLane e.d l) (slotSrc p e l)).1).orFst (slotFlags p m e)

theorem State.writeSlot_warp (s : State) (t k : Nat) (p : PSlot) (lm m : Lanes) (e : SlotEnv) :
    s.writeSlot (.warp t k) p lm m e = s.modWarp t k (slotWritten p lm m e) := rfl

section
variable (p : PSlot) (lm m : Lanes) (e : SlotEnv) (x : Warp)

/-- A slot changes vector registers and %fst alone. -/
theorem slotWritten_rest : { slotWritten p lm m e x with v := x.v, fst := x.fst } = x := by
  have h := congrArg (fun y : Warp => { y with fst := x.fst })
    (Warp.writeV_rest x p.d.toNat 1 lm m p.kp fun l => words 1 (slotLane p (opLane e.d l) (slotSrc p e l)).1)
  exact h

theorem fst_slotWritten : (slotWritten p lm m e x).fst = x.fst ||| slotFlags p m e := by
  have h := congrArg (fun y : Warp => y.fst ||| slotFlags p m e)
    (Warp.writeV_rest x p.d.toNat 1 lm m p.kp fun l => words 1 (slotLane p (opLane e.d l) (slotSrc p e l)).1)
  exact h

/-- The registers after a slot, lane by lane (07_registers R160). -/
theorem vr_slotWritten {r l : Nat} (hl : l < 32) : tget ((slotWritten p lm m e x).vr r) l =
    if r = p.d.toNat then
      (if m.getLsbD l then some (BitVec.ofNat 32 (slotLane p (opLane e.d l) (slotSrc p e l)).1)
        else if lm.getLsbD l && !p.kp then none else tget (x.vr r) l)
    else tget (x.vr r) l := by
  have hv : (slotWritten p lm m e x).vr r =
      (x.writeV p.d.toNat 1 lm m p.kp fun l => words 1 (slotLane p (opLane e.d l) (slotSrc p e l)).1).vr r := rfl
  rw [hv, Warp.vr_writeV]
  by_cases h : r = p.d.toNat
  · subst h
    rw [if_pos (by omega), if_pos rfl, tget_vmerge _ _ _ _ _ _ hl, words_getD _ _ _ (by omega)]
    simp
  · rw [if_neg (by omega), if_neg h]

end

/-- A warp after both slots of a pair word. -/
def pairWritten (a b : PSlot) (lm m1 m2 : Lanes) (v y : SlotEnv) (x : Warp) : Warp := slotWritten b lm m2 y (slotWritten a lm m1 v x)

section
variable (a b : PSlot) (lm m1 m2 : Lanes) (v y : SlotEnv) (x : Warp)

theorem pairWritten_rest : { pairWritten a b lm m1 m2 v y x with v := x.v, fst := x.fst } = x := by
  have h := congrArg (fun z : Warp => { z with v := x.v, fst := x.fst }) (slotWritten_rest b lm m2 y (slotWritten a lm m1 v x))
  have h' := slotWritten_rest a lm m1 v x
  exact h.trans h'

theorem fst_pairWritten : (pairWritten a b lm m1 m2 v y x).fst = x.fst ||| slotFlags a m1 v ||| slotFlags b m2 y := by
  rw [pairWritten, fst_slotWritten, fst_slotWritten]

/-- The two slots write different registers (02_instruction_words R47), so each result stands. -/
theorem vr_pairWritten (hne : a.d ≠ b.d) {r l : Nat} (hl : l < 32) : tget ((pairWritten a b lm m1 m2 v y x).vr r) l =
    if r = b.d.toNat then
      (if m2.getLsbD l then some (BitVec.ofNat 32 (slotLane b (opLane y.d l) (slotSrc b y l)).1)
        else if lm.getLsbD l && !b.kp then none else tget (x.vr r) l)
    else if r = a.d.toNat then
      (if m1.getLsbD l then some (BitVec.ofNat 32 (slotLane a (opLane v.d l) (slotSrc a v l)).1)
        else if lm.getLsbD l && !a.kp then none else tget (x.vr r) l)
    else tget (x.vr r) l := by
  have hne' : b.d.toNat ≠ a.d.toNat := fun h => hne (BitVec.eq_of_toNat_eq h.symm)
  rw [pairWritten, vr_slotWritten _ _ _ _ _ hl, vr_slotWritten _ _ _ _ _ hl]
  by_cases h : r = b.d.toNat
  · have ha : r ≠ a.d.toNat := fun e => hne' (h.symm.trans e)
    rw [if_pos h, if_pos h, if_neg ha]
  · rw [if_neg h, if_neg h]

end

/-- The two destinations of a pair word that issues are of different banks (02_instruction_words R47). -/
theorem Issues.pair_dst_ne {s : State} {c : Ctx} {ch : Bool} {a b : PSlot} (h : Issues s c (.pairWord ch a b)) : a.d ≠ b.d := by
  obtain ⟨-, hpair, -⟩ := issueCheck_eq_none_iff.1 h.2
  simp only [failsPair, Bool.not_eq_false', pairOk, Bool.and_eq_true, bne_iff_ne] at hpair
  obtain ⟨⟨hbank, -⟩, -⟩ := hpair
  exact fun e => hbank (by rw [e])

/-- What slot 2 of a pair word reads: under CH slot 1's result (02_instruction_words R46). -/
def pairSlot2 (ch : Bool) (a b : PSlot) (lm : Lanes) (v : SlotEnv × SlotEnv) : SlotEnv :=
  if ch && !b.imm && b.a == a.d then ⟨v.2.d, [slotFwd a lm (slotMap lm v.1) v.1]⟩ else v.2

section
variable {s : State} {c : Ctx} {t k : Nat} {x : Warp} {ch : Bool} {a b : PSlot} (h : WarpIssues s c (.pairWord ch a b) t k x)
  {v : SlotEnv × SlotEnv} (hv : v = pairEnvs ch a b (pairRecs s c.cur.unit c.lm ch a b)) {y : SlotEnv} (hy : y = pairSlot2 ch a b c.lm v)
include h hv hy

theorem WarpIssues.exec_pairWord_trap
    (hbad : ((a.strict && occMism c.lm [v.1.d, v.1.a]) || (b.strict && occMism c.lm [y.d, y.a])) = true) :
    exec (.pairWord ch a b) s = .next (s.trapNow c (.pairWord ch a b) { plainTrap cOCCMISM with
      cmap := slotCmap c.lm a v.1 (occMism c.lm [v.1.d, v.1.a]) ||| slotCmap c.lm b y (occMism c.lm [y.d, y.a]) }) := by
  subst hv hy
  rw [exec_pairWord, issue_next h.1]
  unfold pairSlot2 at hbad ⊢
  simp only [pairBody, pairRun, and_fullMap, hbad, if_true]
  rfl

theorem WarpIssues.exec_pairWord_retire
    (hok : ((a.strict && occMism c.lm [v.1.d, v.1.a]) || (b.strict && occMism c.lm [y.d, y.a])) = false) :
    exec (.pairWord ch a b) s = .next (s.retire
      (s.modWarp t k (pairWritten a b c.lm (slotMap c.lm v.1) (slotMap c.lm y) v.1 y)) c (.pairWord ch a b)) := by
  subst hv hy
  rw [exec_pairWord, issue_next h.1]
  unfold pairSlot2 at hok ⊢
  simp only [pairBody, pairRun, and_fullMap, hok, Bool.false_eq_true, if_false]
  simp only [h.2.1, State.writeSlot_warp, State.modWarp_modWarp]
  rfl

end

/-- A warp after the two slots stands as before, but for vector registers and %fst. -/
theorem WarpIssues.pairWord_retires {s : State} {c : Ctx} {t k : Nat} {x : Warp} {ch : Bool} {a b : PSlot}
    (h : WarpIssues s c (.pairWord ch a b) t k x) (m1 m2 : Lanes) (v y : SlotEnv) :
    ∃ z, WarpRetires s (s.retire (s.modWarp t k (pairWritten a b c.lm m1 m2 v y)) c (.pairWord ch a b)) c t k x z ∧
      { z.still with fst := x.fst } = x.still ∧ z.fst = x.fst ||| slotFlags a m1 v ||| slotFlags b m2 y ∧
      ∀ r, z.vr r = if r ∈ marksOf x.regs (.pairWord ch a b) then [] else (pairWritten a b c.lm m1 m2 v y x).vr r := by
  have hrest := pairWritten_rest a b c.lm m1 m2 v y x
  obtain ⟨z, hz, hstill, hvr⟩ := h.retires (s' := s.modWarp t k (pairWritten a b c.lm m1 m2 v y)) (onlyUnit_modWarp ..) (by simp [h.2.2]; rfl)
    (fun j => by have e := congrArg (fun w : Warp => w.frag? j) hrest; cases j <;> exact e)
    (by have e := congrArg Warp.spill hrest; exact e)
    ⟨by have e := congrArg Warp.last hrest; exact e, by have e := congrArg Warp.run hrest; exact e,
      by have e := congrArg Warp.other hrest; exact e⟩
  refine ⟨z, hz, ?_, ?_, hvr⟩
  · rw [hstill]
    have e := congrArg (fun w : Warp => { w.still with fst := x.fst }) hrest
    exact e
  · rw [← fst_pairWritten a b c.lm m1 m2 v y x]
    have e := congrArg Warp.fst hstill
    exact e

/-! ### A slot is a lane of its full word (02_instruction_words R44) -/

/-- A form that runs the lane template is a lane form. -/
theorem laneForm_of_laneRun {i : Instr} {body : Env → Ctx → State → Res} {strict : Bool} {ops : Env → List (List OpRec)} {n : Nat}
    {f : Env → Nat → Nat} {fl : Env → Nat → Word} (he : ∀ s, exec i s = issueOps s i body)
    (hb : ∀ e c s, body e c s = laneRun i e c s strict (ops e) n (f e) (fl e)) : LaneForm i strict ops n f fl := by
  intro s c t w x h
  refine ⟨fun hs => ?_, fun hs => ?_⟩
  · rw [he]
    exact laneForm h (hb _ _ _) (by simp only [strictTrap, State.envOf_lm, State.envOf_only, and_fullMap, hs, Bool.false_eq_true, if_false])
  · have ht : strictTrap (s.envOf c i) strict (ops (s.envOf c i)) = some (mismTrap c.lm (ops (s.envOf c i))) := by
      simp only [strictTrap, State.envOf_lm, State.envOf_only, and_fullMap, hs, if_true]
      rfl
    rw [he, issueOps_next h.1, hb, laneRun_traps ht]
    rfl

/-- The full word of a slot's operation: D is the first source and A the second. -/
def slotGen2 (p : PSlot) (ty : BitVec 3) : GenW :=
  ⟨⟨p.kp, false, p.d⟩, ⟨false, false, p.d⟩, ⟨p.al, false, p.a⟩, ty, p.rm, p.strict, false, 0, false, false, p.sat, 0, 0, 0⟩

/-- The full word of a slot's operation that reads A alone. -/
def slotGen1 (p : PSlot) (ty : BitVec 3) : GenW :=
  ⟨⟨p.kp, false, p.d⟩, ⟨p.al, false, p.a⟩, ⟨false, false, 0⟩, ty, p.rm, p.strict, false, 0, false, false, false, 0, 0, 0⟩

/-- The full word `i` computes what the slot does. -/
def SlotForm2 (p : PSlot) (i : Instr) : Prop :=
  LaneForm i p.strict opsAB 1 (fun e l => (slotLane p (opLane e.a l) (opLane e.b l)).1) (fun e l => (slotLane p (opLane e.a l) (opLane e.b l)).2)

def SlotForm1 (p : PSlot) (old : Nat) (i : Instr) : Prop :=
  LaneForm i p.strict opsA 1 (fun e l => (slotLane p old (opLane e.a l)).1) (fun e l => (slotLane p old (opLane e.a l)).2)

/-- A slot's integer operation is its full word's. -/
theorem slotForm2_int {p : PSlot} {i : Instr} {ty : BitVec 3} {f : Int → Int → Int} (hi : iw ty = 1)
    (he : ∀ s, exec i s = issueOps s i (intRun i (.reg (slotGen2 p ty)) f))
    (hs : ∀ d a, slotLane p d a = (deliver ty p.sat (f (intOf ty d) (intOf ty a)), 0)) : SlotForm2 p i := by
  refine laneForm_of_laneRun he fun e c s => ?_
  simp only [hs, ← hi]
  rfl

theorem slotForm2_shift {p : PSlot} {i : Instr} {ty : BitVec 3} {f : Nat → Int → Nat → Int} (hi : iw ty = 1)
    (he : ∀ s, exec i s = issueOps s i (shiftRun i (.reg (slotGen2 p ty)) f))
    (hs : ∀ d a, slotLane p d a = (deliver ty false (f (tyBits ty) (intOf ty d) (a % tyBits ty)), 0)) : SlotForm2 p i := by
  refine laneForm_of_laneRun he fun e c s => ?_
  simp only [hs, ← hi]
  rfl

theorem slotForm2_flt {p : PSlot} {i : Instr} {ty : BitVec 3} {op : FOp}
    (he : ∀ s, exec i s = issueOps s i (fltRun i op (.reg (slotGen2 p ty))))
    (hs : ∀ d a, slotLane p d a = perElem ty fun j => op (fmtOf ty) p.rm.toNat (elemOf ty j d) (elemOf ty j a)) : SlotForm2 p i := by
  refine laneForm_of_laneRun he fun e c s => ?_
  simp only [hs]
  rfl

theorem slotForm1_lane {p : PSlot} {i : Instr} {body : Env → Ctx → State → Res} {n : Nat} {f : Nat → Nat} (old : Nat) (hn : n = 1)
    (he : ∀ s, exec i s = issueOps s i body)
    (hb : ∀ e c s, body e c s = laneRun i e c s p.strict [e.a] n (fun l => f (opLane e.a l)) fun _ => 0)
    (hs : ∀ a, slotLane p old a = (f a, 0)) : SlotForm1 p old i := by
  refine laneForm_of_laneRun he fun e c s => ?_
  simp only [hs, ← hn]
  exact hb e c s

/-- The full words of the two-source integer operations, by operation code (02_instruction_words R44). -/
def slotInts (p : PSlot) : List Instr :=
  ([(Instr.iadd, 0), (.isub, 0), (.imul, 0), (.imin, 0), (.imax, 0), (.imin, 1), (.imax, 1), (.and, 1),
    (.or, 1), (.xor, 1), (.shl, 1), (.shr, 1), (.sar, 0)] : List ((GI → Instr) × BitVec 3)).map fun x => x.1 (.reg (slotGen2 p x.2))

/-- The full words of the floating operations, from operation code 0x10 on. -/
def slotFlts (p : PSlot) : List Instr :=
  ([(0, [Instr.fadd, .fsub, .fmul, .fmin, .fmax]), (1, [.fadd, .fsub, .fmul, .fmin, .fmax]),
    (2, [.fadd, .fsub, .fmul, .fmin, .fmax]), (3, [.fadd, .fsub, .fmul]), (4, [.fadd, .fsub, .fmul])] :
      List (BitVec 3 × List (GI → Instr))).flatMap fun x => x.2.map fun f => f (.reg (slotGen2 p x.1))

theorem slotForm2_of_mem_ints {p : PSlot} {n : Nat} {i : Instr} (h : (slotInts p)[n]? = some i) (hop : p.op.toNat = n) : SlotForm2 p i := by
  have hn : n < 13 := (List.getElem?_eq_some_iff.1 h).1
  rcases Nat.lt_or_ge n 10 with hlt | hge
  · interval_cases n <;> cases h <;>
      exact slotForm2_int rfl (fun _ => rfl) fun d a => by simp [slotLane, slotIsF, hop]
  · interval_cases n <;> cases h <;>
      exact slotForm2_shift rfl (fun _ => rfl) fun d a => by simp [slotLane, slotIsF, hop, tyBits]

theorem slotForm2_of_mem_flts {p : PSlot} {n : Nat} {i : Instr} (h : (slotFlts p)[n]? = some i) (hop : p.op.toNat = 0x10 + n) :
    SlotForm2 p i := by
  have hn : n < 21 := (List.getElem?_eq_some_iff.1 h).1
  interval_cases n <;> cases h <;>
    exact slotForm2_flt (fun _ => rfl) fun d a => by simp [slotLane, slotIsF, hop, slotFop, slotFty]

/-- The full words of the operations that read A alone, by operation code. -/
def slotOnes (p : PSlot) : List (Nat × Instr) :=
  [(0x0D, .mov (slotGen1 p 1)), (0x0E, .not (slotGen1 p 1)), (0x0F, .iabs (slotGen1 p 0)), (0x25, .popc (slotGen1 p 1)),
    (0x26, .clz (slotGen1 p 1)), (0x27, .brev (slotGen1 p 1))]

theorem slotForm1_of_mem_ones {p : PSlot} {x : Nat × Instr} (hx : x ∈ slotOnes p) (hop : p.op.toNat = x.1) (old : Nat) :
    SlotForm1 p old x.2 := by
  simp only [slotOnes, List.mem_cons, List.not_mem_nil, or_false] at hx
  rcases hx with rfl | rfl | rfl | rfl | rfl | rfl
  · exact slotForm1_lane (n := iw 1) (f := id) old rfl (fun _ => rfl) (fun _ _ _ => rfl) fun a => by simp [slotLane, slotIsF, hop]
  · exact slotForm1_lane (n := iw 1) (f := fun a => 2 ^ 32 - 1 - a % 2 ^ 32) old rfl (fun _ => rfl) (fun _ _ _ => rfl)
      fun a => by simp [slotLane, slotIsF, hop]
  · exact slotForm1_lane (n := iw 0) (f := fun a => deliver 0 false ((intOf 0 a).natAbs : Int)) old rfl (fun _ => rfl)
      (fun _ _ _ => rfl) fun a => by simp [slotLane, slotIsF, hop]
  all_goals exact slotForm1_lane old rfl (fun _ => rfl) (fun _ _ _ => rfl) fun a => by simp [slotLane, slotIsF, hop]

/-! ### The immediate of a slot (02_instruction_words R45) -/

/-- The bits of the integer `v` in a format, rounded to nearest. -/
def Fmt.ofInt (f : Fmt) (v : Int) : Nat := (froundInt f 0 false v 0).1

/-- Every format holds the integers of eight bits exactly. -/
theorem Fmt.value_ofInt_eight : ∀ f ∈ [f32, f16, bf16], ∀ a : BitVec 8,
    f.value (f.ofInt (sextNat 8 a.toNat)) = some (sextNat 8 a.toNat : ℚ) ∧ f.ofInt (sextNat 8 a.toNat) < 2 * f.top := by
  decide +kernel

/-- The operation codes of a pair word name one of five floating types. -/
theorem slotFty_mem (op : Nat) : slotFty op ∈ ([0, 1, 2, 3, 4] : List (BitVec 3)) := by
  unfold slotFty
  grind

/-- The bits of a number, once or twice over, give it back in each element. -/
theorem elemOf_repeat {ty : BitVec 3} (hty : ty ∈ ([0, 1, 2, 3, 4] : List (BitVec 3))) {x k : Nat} (hx : x < 2 * (fmtOf ty).top)
    (hk : k < if isX2 ty then 2 else 1) : elemOf ty k (if isX2 ty then x * (2 ^ 16 + 1) else x) = x := by
  simp only [List.mem_cons, List.not_mem_nil, or_false] at hty
  rcases hty with rfl | rfl | rfl | rfl | rfl <;> simp [fmtOf, isX2, elemOf, Fmt.top, f32, f16, bf16] at hx hk ⊢
  · omega
  · subst hk; omega
  · subst hk; omega
  all_goals
    have hdiv : x * 65537 / 65536 = x := by omega
    interval_cases k <;> simp only [Nat.mul_zero, Nat.mul_one, Nat.reducePow, hdiv] <;> omega

theorem fmtOf_mem (ty : BitVec 3) : fmtOf ty ∈ [f32, f16, bf16] := by
  unfold fmtOf
  grind

theorem slotSrc_imm_int {p : PSlot} (hi : p.imm = true) (hf : slotIsF p.op.toNat = false) (x : SlotEnv) (l : Nat) :
    slotSrc p x l = wrapNat 32 (sextNat 8 p.a.toNat) := by
  simp [slotSrc, slotImm, hi, hf]

theorem slotSrc_imm_flt {p : PSlot} (hi : p.imm = true) (hf : slotIsF p.op.toNat = true) (x : SlotEnv) (l : Nat) :
    slotSrc p x l = if isX2 (slotFty p.op.toNat) then (fmtOf (slotFty p.op.toNat)).ofInt (sextNat 8 p.a.toNat) * (2 ^ 16 + 1)
      else (fmtOf (slotFty p.op.toNat)).ofInt (sextNat 8 p.a.toNat) := by
  simp only [slotSrc, slotImm, hi, hf, if_true]
  rfl

/-- An immediate of a floating slot is the integer itself, in each element. -/
theorem value_slotSrc_imm {p : PSlot} (hi : p.imm = true) (hf : slotIsF p.op.toNat = true) (x : SlotEnv) (l : Nat) {k : Nat}
    (hk : k < if isX2 (slotFty p.op.toNat) then 2 else 1) : (fmtOf (slotFty p.op.toNat)).value
      (elemOf (slotFty p.op.toNat) k (slotSrc p x l)) = some (sextNat 8 p.a.toNat : ℚ) := by
  obtain ⟨hvalue, hlt⟩ := Fmt.value_ofInt_eight _ (fmtOf_mem (slotFty p.op.toNat)) p.a
  rw [slotSrc_imm_flt hi hf, elemOf_repeat (slotFty_mem _) hlt hk, hvalue]

/-- Settles O13: the word writes its slots in turn, each slot is a lane of its full word, and its immediate is exact. -/
theorem pairWords : Obligations.PairWords := by
  unfold Obligations.PairWords
  refine ⟨fun ch a b s c t k x h => ?word, fun p => ⟨fun n i hop => ?two, fun x hx hop old => ?one, fun hi x l => ⟨fun hf => ?int, fun hf k hk => ?flt⟩⟩⟩
  case word =>
    intro i v m1 y m2 bad1 bad2 r1 r2
    refine ⟨fun hbad => h.exec_pairWord_trap rfl rfl hbad, fun hok => ?_⟩
    obtain ⟨z, hz, hstill, hfst, hvr⟩ := h.pairWord_retires m1 m2 v.1 y
    refine ⟨_, z, h.exec_pairWord_retire rfl rfl hok, hz, hstill, hfst, fun r l hl => ?_⟩
    rw [hvr]
    by_cases hm : r ∈ marksOf x.regs i
    · rw [if_pos hm, if_pos hm]; rfl
    · rw [if_neg hm, if_neg hm]
      exact vr_pairWritten a b c.lm m1 m2 v.1 y x h.1.pair_dst_ne hl
  case two => exact hop.elim (fun e => slotForm2_of_mem_ints e.1 e.2) fun e => slotForm2_of_mem_flts e.1 e.2
  case one => exact slotForm1_of_mem_ones hx hop old
  case int => exact slotSrc_imm_int hi hf x l
  case flt => exact value_slotSrc_imm hi hf x l hk

end Sys2Proof.Machine
end

section
/-!
PROOF. The events of one warp: a park record is released, a spilled fragment takes a free slot, an exited warp's context is released
(02_instruction_words R30; 13_control_flow R297, R304).
-/
namespace Sys2Proof.Machine

/-! ### A change of a warp hangs on what the warp is -/

theorem tmod_congr {α : Type} {t : Table α} {k : Nat} {v : α} {f g : α → α} (h : tget t k = some v) (hfg : f v = g v) :
    tmod t k f = tmod t k g := by
  induction t with
  | nil => rfl
  | cons e r ih =>
    obtain ⟨a, b⟩ := e
    by_cases ha : a = k
    · simp only [tget, ha, if_true, Option.some.injEq] at h
      simp [tmod, ha, h, hfg]
    · simp only [tget, ha, if_false] at h
      simp [tmod, ha, ih h]

theorem tmod_id {α : Type} (t : Table α) (k : Nat) : tmod t k id = t := by
  induction t with
  | nil => rfl
  | cons e r ih =>
    obtain ⟨a, b⟩ := e
    simp only [tmod, ih, id, ite_self]

theorem lmod_congr {α : Type} {l : List α} {n : Nat} {v : α} {f g : α → α} (h : l[n]? = some v) (hfg : f v = g v) :
    lmod l n f = lmod l n g := by
  refine List.ext_getElem? fun m => ?_
  rw [getElem?_lmod, getElem?_lmod]
  split
  · subst_vars; simp [h, hfg]
  · rfl

theorem State.modWarp_congr {s : State} {t k : Nat} {x : Warp} {f g : Warp → Warp} (hx : s.warp? t k = some x) (h : f x = g x) :
    s.modWarp t k f = s.modWarp t k g := by
  obtain ⟨q, hq, hk⟩ := Option.bind_eq_some_iff.1 hx
  have hq' : ({ q with warps := lmod q.warps k f } : Team) = { q with warps := lmod q.warps k g } := by rw [lmod_congr hk h]
  exact congrArg (fun l => { s with teams := l }) (tmod_congr (f := fun q => { q with warps := lmod q.warps k f })
    (g := fun q => { q with warps := lmod q.warps k g }) hq hq')

theorem State.modWarp_eq_self {s : State} {t k : Nat} {x : Warp} {f : Warp → Warp} (hx : s.warp? t k = some x) (h : f x = x) :
    s.modWarp t k f = s := by
  rw [State.modWarp_congr hx (show f x = id x from h)]
  have hid (q : Team) : ({ q with warps := lmod q.warps k id } : Team) = id q := by
    have hl : lmod q.warps k id = q.warps := List.modify_id ..
    rw [hl]; rfl
  unfold State.modWarp State.modTeam
  rw [funext hid, tmod_id]

/-! ### The best of a list by a strict order -/

/-- An order by which `bestOf` finds an element that no other betters. -/
structure StrictBetter {α : Type} (better : α → α → Bool) : Prop where
  asymm : ∀ {a b}, better a b = true → better b a = false
  trans : ∀ {a b c}, better b a = false → better c b = false → better c a = false

theorem foldl_betterOf_best {α : Type} {better : α → α → Bool} (hb : StrictBetter better) (l : List α) (b : α) :
    ∃ x ∈ b :: l, l.foldl (betterOf better) (some b) = some x ∧ ∀ y ∈ b :: l, better y x = false := by
  have hirrefl (a : α) : better a a = false := by
    cases h : better a a with
    | false => rfl
    | true => exact absurd (hb.asymm h) (by simp [h])
  induction l generalizing b with
  | nil => exact ⟨b, by simp [hirrefl]⟩
  | cons a l ih =>
    rw [List.foldl_cons]
    obtain ⟨w, hw, hwa, hwb, heq⟩ : ∃ w ∈ b :: [a], better a w = false ∧ better b w = false ∧ betterOf better (some b) a = some w := by
      cases h : better a b with
      | true => exact ⟨a, by simp, hirrefl a, hb.asymm h, by simp [betterOf, h]⟩
      | false => exact ⟨b, by simp, h, hirrefl b, by simp [betterOf, h]⟩
    obtain ⟨x, hx, he, hm⟩ := ih w
    refine ⟨x, by grind, by rw [heq, he], fun y hy => ?_⟩
    have hwx : better w x = false := hm w List.mem_cons_self
    rcases List.mem_cons.1 hy with rfl | hy
    · exact hb.trans hwx hwb
    · rcases List.mem_cons.1 hy with rfl | hy
      · exact hb.trans hwx hwa
      · exact hm y (List.mem_cons_of_mem _ hy)

theorem bestOf_best {α : Type} {better : α → α → Bool} (hb : StrictBetter better) {l : List α} (h : l ≠ []) :
    ∃ x ∈ l, bestOf better l = some x ∧ ∀ y ∈ l, better y x = false := by
  cases l with
  | nil => exact absurd rfl h
  | cons a l => exact foldl_betterOf_best hb l a

/-- What `bestOf` finds is in the list. -/
theorem mem_of_bestOf {α : Type} {better : α → α → Bool} {l : List α} {x : α} (h : bestOf better l = some x) : x ∈ l := by
  have hgo : ∀ (l : List α) (r : Option α), l.foldl (betterOf better) r = some x → r = some x ∨ x ∈ l := by
    intro l
    induction l with
    | nil => exact fun r h => .inl h
    | cons a l ih =>
      intro r h
      rcases ih _ h with h | h
      · cases r with
        | none => cases h; exact .inr List.mem_cons_self
        | some b =>
          simp only [betterOf] at h
          split at h
          · cases h; exact .inr List.mem_cons_self
          · exact .inl h
      · exact .inr (List.mem_cons_of_mem a h)
  exact (hgo l none h).resolve_left nofun

/-! ### The release of a park record (13_control_flow R297) -/

/-- One park record is released before another: the greater depth, then the more recent arming, then the lower number. -/
def Warp.parkBetter (w : Warp) (a b : Nat) : Bool :=
  decide ((w.jr b).dj < (w.jr a).dj) || ((w.jr a).dj == (w.jr b).dj &&
    (decide ((w.jr a).ord < (w.jr b).ord) || ((w.jr a).ord == (w.jr b).ord && decide (a < b))))

theorem Warp.parkBetter_strict (w : Warp) : StrictBetter w.parkBetter where
  asymm {a b} h := by simp only [Warp.parkBetter] at *; grind
  trans {a b c} h h' := by simp only [Warp.parkBetter] at *; grind

theorem Warp.pickPark_eq (w : Warp) : w.pickPark = bestOf w.parkBetter (w.parks.map (·.1)) := by
  unfold Warp.pickPark bestOf
  dsimp only
  congr 1
  funext r m
  cases r <;> rfl

theorem Warp.parkBetter_eq_false {w : Warp} {n m : Nat} (h : w.parkBetter n m = false) : (w.jr n).dj < (w.jr m).dj ∨
    ((w.jr n).dj = (w.jr m).dj ∧ ((w.jr m).ord < (w.jr n).ord ∨ ((w.jr m).ord = (w.jr n).ord ∧ m ≤ n))) := by
  simp only [Warp.parkBetter] at h
  grind

theorem tget_isSome_iff {α : Type} (t : Table α) (n : Nat) : (tget t n).isSome = true ↔ n ∈ t.map (·.1) := by
  induction t with
  | nil => simp
  | cons e r ih =>
    obtain ⟨a, b⟩ := e
    simp only [tget, List.map_cons, List.mem_cons, ← ih]
    by_cases h : a = n
    · simp [h]
    · simp [h, Ne.symm h]

/-- A warp whose every fragment is parked. -/
def Warp.idle (x : Warp) : Prop := x.live0 = none ∧ x.live1 = none ∧ x.spill = [] ∧ x.handler = none

theorem Warp.releasePark_of_not_idle {x : Warp} (h : ¬x.idle) : x.releasePark = x := by
  unfold Warp.releasePark
  refine if_pos (by_contra fun hc => h ?_)
  obtain ⟨⟨⟨h0, h1⟩, hs⟩, hh⟩ : ((x.live0 = none ∧ x.live1 = none) ∧ x.spill = []) ∧ x.handler = none := by simpa using hc
  exact ⟨h0, h1, hs, hh⟩

theorem Warp.releasePark_of_no_parks {x : Warp} (h : x.parks = []) : x.releasePark = x := by
  unfold Warp.releasePark
  rw [Warp.pickPark_eq, h]
  split <;> rfl

/-- A warp after the release of the park record `f` of its rejoin register `m`: the fragment goes on with the lanes that arrived. -/
def Warp.released (x : Warp) (m : Nat) (f : Frag) : Warp :=
  { x with live0 := some { f with lmap := (x.jr m).arr, rj := (x.jr m).out }, parks := tdel x.parks m, wst := x.wst ||| wsJLOST,
           j := lset x.j m { x.jr m with exp := (x.jr m).exp &&& ~~~(x.jr m).arr, arr := 0 } }

theorem Warp.releasePark_of_idle {x : Warp} (h : x.idle) (hp : x.parks ≠ []) : ∃ m f, tget x.parks m = some f ∧
    (∀ n, (tget x.parks n).isSome = true → x.parkBetter n m = false) ∧ x.releasePark = x.released m f := by
  have hkeys : x.parks.map (·.1) ≠ [] := by simpa using hp
  obtain ⟨m, hm, hbest, hall⟩ := bestOf_best x.parkBetter_strict hkeys
  obtain ⟨f, hf⟩ := Option.isSome_iff_exists.1 ((tget_isSome_iff x.parks m).2 hm)
  refine ⟨m, f, hf, fun n hn => hall n ((tget_isSome_iff x.parks n).1 hn), ?_⟩
  obtain ⟨h0, h1, hs, hh⟩ := h
  unfold Warp.releasePark
  rw [Warp.pickPark_eq, hbest]
  simp only [h0, h1, hs, hh, hf]
  rfl

theorem exec_joinRelease (s : State) (t k : Nat) : exec (.joinRelease t k) s = .next (s.modWarp t k (·.releasePark)) := rfl

theorem joinRelease_clause {s : State} {t k : Nat} {x : Warp} (hx : s.warp? t k = some x) :
    (¬x.idle ∨ x.parks = [] → exec (.joinRelease t k) s = .next s) ∧
    (x.idle → x.parks ≠ [] → ∃ m f, tget x.parks m = some f ∧
      (∀ n, (tget x.parks n).isSome = true → x.parkBetter n m = false) ∧
      exec (.joinRelease t k) s = .next (s.modWarp t k fun _ => x.released m f)) := by
  rw [exec_joinRelease]
  refine ⟨fun h => ?_, fun hi hp => ?_⟩
  · rw [State.modWarp_eq_self hx (h.elim Warp.releasePark_of_not_idle Warp.releasePark_of_no_parks)]
  · obtain ⟨m, f, hf, hbest, he⟩ := Warp.releasePark_of_idle hi hp
    exact ⟨m, f, hf, hbest, by rw [State.modWarp_congr hx (g := fun _ => x.released m f) he]⟩

/-! ### A spilled fragment takes a slot (13_control_flow R304) -/

/-- A warp whose fragments other than the handler's have changed places: none is lost, and the rest of the warp is as before. -/
def Warp.Rearranged (x y : Warp) : Prop :=
  { y with live0 := x.live0, live1 := x.live1, spill := x.spill } = x ∧ y.active.Perm x.active

theorem Warp.Rearranged.refl (x : Warp) : x.Rearranged x := ⟨rfl, .refl _⟩

theorem Warp.Rearranged.trans {x y z : Warp} (h : x.Rearranged y) (g : y.Rearranged z) : x.Rearranged z := by
  refine ⟨?_, g.2.trans h.2⟩
  have e := congrArg (fun w : Warp => { w with live0 := x.live0, live1 := x.live1, spill := x.spill }) g.1
  exact e.trans h.1

/-- A spilled fragment in a list's place `i`, and the others. -/
theorem perm_eraseIdx {l : List Frag} {i : Nat} {f : Frag} (h : l[i]? = some f) : (f :: l.eraseIdx i).Perm l := by
  obtain ⟨hi, rfl⟩ := List.getElem?_eq_some_iff.1 h
  exact List.getElem_cons_eraseIdx_perm hi

/-- A live slot takes a spilled fragment; what was in it, if anything, goes to the top of the spill stack. -/
theorem Warp.rearranged_swap {x : Warp} {i : Nat} {f : Frag} (hi : x.spill[i]? = some f) {k : Sel} (hk : k = .live0 ∨ k = .live1) :
    x.Rearranged (({ x with spill := (x.frag? k).toList ++ x.spill.eraseIdx i } : Warp).setFrag k x.spill[i]?) := by
  refine ⟨by rcases hk with rfl | rfl <;> rfl, List.perm_iff_count.2 fun g => ?_⟩
  have hcount : (f :: x.spill.eraseIdx i).count g = x.spill.count g := (perm_eraseIdx hi).count_eq g
  rw [hi]
  rcases hk with rfl | rfl <;>
    simp only [Warp.active, Warp.setFrag, Warp.frag?, Option.toList_some, List.count_append, List.count_cons, List.count_nil] at hcount ⊢ <;>
    omega

theorem Warp.bringIn_eq (x : Warp) (i : Nat) : ∃ k, (k = .live0 ∨ k = .live1) ∧
    (x.bringIn i).1 = ({ x with spill := (x.frag? k).toList ++ x.spill.eraseIdx i } : Warp).setFrag k x.spill[i]? ∧
    (x.live0 = none ∨ x.live1 = none → x.frag? k = none) := by
  refine ⟨(x.bringIn i).2, ?_, rfl, fun hfree => ?_⟩ <;> dsimp only [Warp.bringIn] <;> split
  · exact .inl rfl
  · split
    · exact .inr rfl
    · split
      · exact .inl rfl
      · exact .inr rfl
  · exact Option.isNone_iff_eq_none.1 ‹_›
  · rename_i h0
    have h1 : x.live1 = none := hfree.resolve_left fun h => h0 (by simp [h])
    simp [Warp.frag?, h1]

theorem Warp.rearranged_bringIn {x : Warp} {i : Nat} (hi : i < x.spill.length) : x.Rearranged (x.bringIn i).1 := by
  obtain ⟨k, hk, he, -⟩ := x.bringIn_eq i
  rw [he]
  exact Warp.rearranged_swap (List.getElem?_eq_getElem hi) hk

theorem Warp.length_spill_bringIn {x : Warp} {i : Nat} (hi : i < x.spill.length) (hfree : x.live0 = none ∨ x.live1 = none) :
    (x.bringIn i).1.spill.length < x.spill.length := by
  obtain ⟨k, -, he, hnone⟩ := x.bringIn_eq i
  rw [he, Warp.spill_setFrag, hnone hfree]
  simp only [Option.toList_none, List.nil_append, List.length_eraseIdx, hi, if_true]
  omega

/-- One slot of a warp is filled from its spill stack, if it is free. -/
def Warp.fillSlot (blk : Frag → Bool) (w : Warp) (k : Sel) : Warp :=
  match w.frag? k, pickSpill blk w.spill with
  | none, some i => { w.setFrag k w.spill[i]? with spill := w.spill.eraseIdx i }
  | _, _ => w

theorem Warp.fill_eq (blk : Frag → Bool) (w : Warp) : w.fill blk = (w.fillSlot blk .live0).fillSlot blk .live1 := rfl

/-- One spilled fragment goes before another. -/
def spillBetter (blk : Frag → Bool) (a b : Frag × Nat) : Bool :=
  (!blk a.1 && blk b.1) || (blk a.1 == blk b.1 && decide (b.1.age < a.1.age))

theorem pickSpill_eq (blk : Frag → Bool) (l : List Frag) :
    pickSpill blk l = (bestOf (spillBetter blk) (l.zip (List.range l.length))).map (·.2) := by
  unfold pickSpill bestOf
  dsimp only
  congr 2
  funext r e
  cases r <;> rfl

theorem lt_length_of_mem_zip_range {l : List Frag} {e : Frag × Nat} (h : e ∈ l.zip (List.range l.length)) : e.2 < l.length :=
  List.mem_range.1 (List.of_mem_zip h).2

theorem pickSpill_lt {blk : Frag → Bool} {l : List Frag} {i : Nat} (h : pickSpill blk l = some i) : i < l.length := by
  rw [pickSpill_eq] at h
  obtain ⟨e, he, rfl⟩ := Option.map_eq_some_iff.1 h
  exact lt_length_of_mem_zip_range (mem_of_bestOf he)

theorem spillBetter_strict (blk : Frag → Bool) : StrictBetter (spillBetter blk) where
  asymm {a b} h := by
    cases ha : blk a.1 <;> cases hb : blk b.1 <;> simp [spillBetter, ha, hb] at h ⊢ <;> omega
  trans {a b c} h h' := by
    cases ha : blk a.1 <;> cases hb : blk b.1 <;> cases hc : blk c.1 <;> simp [spillBetter, ha, hb, hc] at h h' ⊢ <;> omega

theorem pickSpill_isSome {blk : Frag → Bool} {l : List Frag} (h : l ≠ []) : ∃ i, pickSpill blk l = some i := by
  have hz : l.zip (List.range l.length) ≠ [] := by
    cases l with
    | nil => exact absurd rfl h
    | cons a l => simp [List.range_succ_eq_map]
  obtain ⟨e, -, he, -⟩ := bestOf_best (spillBetter_strict blk) hz
  exact ⟨e.2, by rw [pickSpill_eq, he]; rfl⟩

theorem Warp.fillSlot_of_some {blk : Frag → Bool} {w : Warp} {k : Sel} (h : w.frag? k ≠ none ∨ w.spill = []) : w.fillSlot blk k = w := by
  unfold Warp.fillSlot
  split
  · rename_i hn hp
    have hlt := pickSpill_lt hp
    rcases h with h | h
    · exact absurd hn h
    · simp [h] at hlt
  · rfl

/-- A free slot of a warp with spilled fragments takes one of them. -/
theorem Warp.fillSlot_of_none {blk : Frag → Bool} {w : Warp} {k : Sel} (hk : w.frag? k = none) (hs : w.spill ≠ []) :
    ∃ i < w.spill.length, w.fillSlot blk k = ({ w with spill := (w.frag? k).toList ++ w.spill.eraseIdx i } : Warp).setFrag k w.spill[i]? := by
  obtain ⟨i, hi⟩ := pickSpill_isSome (blk := blk) hs
  refine ⟨i, pickSpill_lt hi, ?_⟩
  unfold Warp.fillSlot
  rw [hk, hi]
  cases k <;> rfl

theorem Warp.rearranged_fillSlot (blk : Frag → Bool) (w : Warp) {k : Sel} (hk : k = .live0 ∨ k = .live1) : w.Rearranged (w.fillSlot blk k) := by
  by_cases h : w.frag? k ≠ none ∨ w.spill = []
  · rw [Warp.fillSlot_of_some h]
    exact .refl w
  · obtain ⟨hf, hs⟩ := not_or.1 h
    obtain ⟨i, hi, he⟩ := Warp.fillSlot_of_none (blk := blk) (not_not.1 hf) hs
    rw [he]
    exact Warp.rearranged_swap (List.getElem?_eq_getElem hi) hk

theorem Warp.length_spill_fillSlot_le (blk : Frag → Bool) (w : Warp) (k : Sel) : (w.fillSlot blk k).spill.length ≤ w.spill.length := by
  unfold Warp.fillSlot
  split
  · exact List.length_eraseIdx_le ..
  · exact le_rfl

theorem Warp.length_spill_fillSlot_lt {blk : Frag → Bool} {w : Warp} {k : Sel} (hk : w.frag? k = none) (hs : w.spill ≠ []) :
    (w.fillSlot blk k).spill.length < w.spill.length := by
  obtain ⟨i, hi, he⟩ := Warp.fillSlot_of_none (blk := blk) hk hs
  rw [he, Warp.spill_setFrag, hk]
  simp only [Option.toList_none, List.nil_append, List.length_eraseIdx, hi, if_true]
  omega

theorem Warp.rearranged_fill (blk : Frag → Bool) (w : Warp) : w.Rearranged (w.fill blk) :=
  (w.rearranged_fillSlot blk (.inl rfl)).trans (Warp.rearranged_fillSlot blk _ (.inr rfl))

theorem Warp.length_spill_fill_lt {blk : Frag → Bool} {w : Warp} (hs : w.spill ≠ []) (hfree : w.live0 = none ∨ w.live1 = none) :
    (w.fill blk).spill.length < w.spill.length := by
  rw [Warp.fill_eq]
  by_cases h0 : w.live0 = none
  · exact lt_of_le_of_lt (Warp.length_spill_fillSlot_le blk _ _) (Warp.length_spill_fillSlot_lt h0 hs)
  · rw [Warp.fillSlot_of_some (k := .live0) (.inl h0)]
    exact Warp.length_spill_fillSlot_lt (hfree.resolve_left h0) hs

theorem Warp.fill_of_no_spill {w : Warp} (blk : Frag → Bool) (hs : w.spill = []) : w.fill blk = w := by
  rw [Warp.fill_eq, Warp.fillSlot_of_some (k := .live0) (.inr hs), Warp.fillSlot_of_some (.inr hs)]

/-- A choice among a warp's fragments names a place of the spill stack that is taken. -/
def Warp.Names (w : Warp) (p : Pick) : Prop := ∀ i, p = .spilled i → i < w.spill.length

theorem Warp.names_live (w : Warp) (k : Sel) : w.Names (.live k) := nofun

theorem Warp.names_oldest {rd : Frag → Bool} {lo : Nat} {w : Warp} {p : Pick} (h : w.oldest rd lo = some p) : w.Names p := by
  obtain ⟨e, he, rfl⟩ := Option.map_eq_some_iff.1 h
  have hfold : ∀ l : List (Frag × Pick), l.foldl (fun r p => match r with
      | none => some p
      | some b => if b.1.age < p.1.age then some p else some b) none = bestOf (fun p b => decide (b.1.age < p.1.age)) l := by
    intro l
    unfold bestOf
    congr 1
    funext r p
    cases r with
    | none => rfl
    | some b => simp only [decide_eq_true_eq]
  have hmem := List.mem_of_mem_filter (mem_of_bestOf ((hfold _).symm.trans he))
  rintro i hi
  simp only [List.mem_append, List.mem_map] at hmem
  rcases hmem with (⟨f, -, rfl⟩ | ⟨f, -, rfl⟩) | ⟨e', he', rfl⟩
  · cases hi
  · cases hi
  · cases hi
    exact lt_length_of_mem_zip_range he'

theorem Warp.names_choose {rd : Frag → Bool} {w : Warp} {p : Pick} (h : w.choose rd = some p) : w.Names p := by
  unfold Warp.choose at h
  split at h
  · split at h
    · cases h; exact w.names_live _
    · cases h
  · dsimp only at h
    split at h
    · rename_i ho
      cases h
      exact Warp.names_oldest ho
    · generalize hr : (if (w.frag? .live0).any (·.fid == w.last) = true then some Sel.live0 else _) = last at h
      have hagain {f : Sel → Bool} {q : Pick} (hq : (last.filter f).map Pick.live = some q) : w.Names q := by
        obtain ⟨k, -, rfl⟩ := Option.map_eq_some_iff.1 hq
        exact w.names_live k
      have hnext {b : Prop} [Decidable b] {k : Sel} {q : Pick} (hq : (if b then some (Pick.live k) else none) = some q) : w.Names q := by
        split at hq
        · cases hq; exact w.names_live k
        · cases hq
      split at h <;> simp only [Option.or_eq_some_iff] at h
      · rcases h with (h | ⟨-, h⟩) | ⟨-, h⟩
        · exact hagain h
        · exact hnext h
        · exact Warp.names_oldest h
      · rcases h with (h | ⟨-, h⟩) | ⟨-, h⟩
        · exact hnext h
        · exact hagain h
        · exact Warp.names_oldest h

/-- What a warp's fragments become when the one that is to issue is brought in: `swapFrag` on the warp. -/
def State.swapped (s : State) (t k : Nat) (x : Warp) : Warp :=
  match x.choose fun f => !s.blocked (.warp t k) f with
  | some (.spilled i) => (x.bringIn i).1
  | _ => x.fill (s.blocked (.warp t k))

theorem State.swapFrag_eq {s : State} {t k : Nat} {x : Warp} (hx : s.warp? t k = some x) : s.swapFrag t k =
    s.modWarp t k fun _ => if x.place ≠ .resident ∨ x.handler.isSome = true then x else s.swapped t k x := by
  refine State.modWarp_congr hx ?_
  by_cases h : x.place ≠ .resident ∨ x.handler.isSome = true
  · rw [if_pos h]; exact if_pos (by simpa using h)
  · rw [if_neg h]; exact if_neg (by simpa using h)

theorem State.swapped_cases (s : State) (t k : Nat) (x : Warp) :
    (∃ i < x.spill.length, s.swapped t k x = (x.bringIn i).1) ∨ s.swapped t k x = x.fill (s.blocked (.warp t k)) := by
  unfold State.swapped
  split
  · rename_i i hc
    exact .inl ⟨i, Warp.names_choose hc i rfl, rfl⟩
  · exact .inr rfl

theorem fragmentSwap_clause {s : State} {t k : Nat} {x : Warp} (hx : s.warp? t k = some x) :
    ∃ y, exec (.fragmentSwap t k) s = .next (s.modWarp t k fun _ => y) ∧ x.Rearranged y ∧
      (x.place ≠ .resident ∨ x.handler.isSome = true → y = x) ∧
      (x.place = .resident → x.handler = none → x.spill ≠ [] → x.live0 = none ∨ x.live1 = none → y.spill.length < x.spill.length) ∧
      (x.spill = [] → y = x) := by
  have hexec : exec (.fragmentSwap t k) s = .next (s.swapFrag t k) := rfl
  refine ⟨_, by rw [hexec, State.swapFrag_eq hx], ?_⟩
  by_cases h : x.place ≠ .resident ∨ x.handler.isSome = true
  · rw [if_pos h]
    refine ⟨.refl x, fun _ => rfl, fun hp hh _ _ => ?_, fun _ => rfl⟩
    rcases h with h | h
    · exact absurd hp h
    · simp [hh] at h
  · rw [if_neg h]
    rcases s.swapped_cases t k x with ⟨i, hi, he⟩ | he <;> rw [he]
    · exact ⟨Warp.rearranged_bringIn hi, fun h' => absurd h' h, fun _ _ _ hfree => Warp.length_spill_bringIn hi hfree,
        fun hs => absurd hi (by simp [hs])⟩
    · exact ⟨x.rearranged_fill _, fun h' => absurd h' h, fun _ _ hs hfree => Warp.length_spill_fill_lt hs hfree,
        fun hs => Warp.fill_of_no_spill _ hs⟩

/-! ### An exited warp's context is released (02_instruction_words R30) -/

theorem warpContextRelease_clause {s : State} {t k : Nat} {x : Warp} (hx : s.warp? t k = some x) :
    (x.exited = true → x.regs.ops = [] → exec (.warpContextRelease t k) s =
      .next (s.modWarp t k fun _ => { x with bricks := [], scopes := [], base := 0 })) ∧
    (x.exited = false ∨ x.regs.ops ≠ [] → exec (.warpContextRelease t k) s = .next s) := by
  have hexec : exec (.warpContextRelease t k) s = .next (s.releaseContext t k) := rfl
  rw [hexec]
  unfold State.releaseContext
  refine ⟨fun he ho => ?_, fun h => ?_⟩
  · rw [State.modWarp_congr hx (g := fun _ => { x with bricks := [], scopes := [], base := 0 }) (by simp [he, ho])]
  · rw [State.modWarp_eq_self hx (by rcases h with h | h <;> simp [h])]

end Sys2Proof.Machine
end

section
/-!
PROOF. What a stop of units leaves as it is: the shared part of every team, every context, and of every warp all but its registers and
its replay queue (15_traps_preemption R332, R343 to R345).
-/
namespace Sys2Proof.Machine

/-! ### A change that keeps the teams and changes their warps and contexts within bounds -/

/-- A change of warps within `W` and of contexts within `C` that leaves the shared part of every team, and a frozen set frozen. -/
structure Follows (W : Warp → Warp → Prop) (C : Ccc → Ccc → Prop) (s s' : State) : Prop where
  bare : ∀ t, (s'.team? t).map Team.bare = (s.team? t).map Team.bare
  warps : ∀ t k x, s.warp? t k = some x → ∃ y, s'.warp? t k = some y ∧ W x y
  cccs : ∀ t k x, s.ccc? t k = some x → ∃ y, s'.ccc? t k = some y ∧ C x y
  sets : ∀ n, (s.set? n).any (·.frozen) = true → (s'.set? n).any (·.frozen) = true

/-- A relation on states, or on a part of them, that chains of changes keep within. -/
structure Chains {α : Type} (R : α → α → Prop) : Prop where
  refl : ∀ a, R a a
  trans : ∀ {a b c}, R a b → R b c → R a c

theorem Chains.foldl {α : Type} {R : State → State → Prop} (hR : Chains R) (g : State → α → State) (l : List α)
    (h : ∀ s, ∀ a ∈ l, R s (g s a)) (s : State) : R s (l.foldl g s) := by
  induction l generalizing s with
  | nil => exact hR.refl s
  | cons a l ih => exact hR.trans (h s a List.mem_cons_self) (ih (fun s b hb => h s b (List.mem_cons_of_mem a hb)) _)

section
variable {W : Warp → Warp → Prop} {C : Ccc → Ccc → Prop}

theorem Follows.chains (hW : Chains W) (hC : Chains C) : Chains (Follows W C) where
  refl _ := ⟨fun _ => rfl, fun _ _ x h => ⟨x, h, hW.refl x⟩, fun _ _ x h => ⟨x, h, hC.refl x⟩, fun _ h => h⟩
  trans h g := by
    refine ⟨fun t => (g.bare t).trans (h.bare t), fun t k x hx => ?_, fun t k x hx => ?_, fun n hn => g.sets n (h.sets n hn)⟩
    · obtain ⟨y, hy, hxy⟩ := h.warps t k x hx
      obtain ⟨z, hz, hyz⟩ := g.warps t k y hy
      exact ⟨z, hz, hW.trans hxy hyz⟩
    · obtain ⟨y, hy, hxy⟩ := h.cccs t k x hx
      obtain ⟨z, hz, hyz⟩ := g.cccs t k y hy
      exact ⟨z, hz, hC.trans hxy hyz⟩

theorem Follows.mono {W' : Warp → Warp → Prop} {C' : Ccc → Ccc → Prop} {s s' : State} (h : Follows W C s s')
    (hW : ∀ {x y}, W x y → W' x y) (hC : ∀ {x y}, C x y → C' x y) : Follows W' C' s s' := by
  refine ⟨h.bare, fun t k x hx => ?_, fun t k x hx => ?_, h.sets⟩
  · obtain ⟨y, hy, hxy⟩ := h.warps t k x hx
    exact ⟨y, hy, hW hxy⟩
  · obtain ⟨y, hy, hxy⟩ := h.cccs t k x hx
    exact ⟨y, hy, hC hxy⟩

theorem Follows.of_sets {s s' : State} (hW : Chains W) (hC : Chains C) (ht : s'.teams = s.teams)
    (hs : ∀ n, (s.set? n).any (·.frozen) = true → (s'.set? n).any (·.frozen) = true) : Follows W C s s' where
  bare t := by simp [State.team?, ht]
  warps t k x hx := ⟨x, (State.warp?_congr ht t k).trans hx, hW.refl x⟩
  cccs t k x hx := ⟨x, (State.ccc?_congr ht t k).trans hx, hC.refl x⟩
  sets := hs

theorem Follows.of_eq {s s' : State} (hW : Chains W) (hC : Chains C) (ht : s'.teams = s.teams) (hs : s'.sets = s.sets) :
    Follows W C s s' := .of_sets hW hC ht fun n h => by rwa [State.set?, hs]

theorem Follows.modWarp {s : State} {t k : Nat} {f : Warp → Warp} (hW : Chains W) (hC : Chains C)
    (h : ∀ x, s.warp? t k = some x → W x (f x)) : Follows W C s (s.modWarp t k f) where
  bare := (onlyUnit_modWarp s t k f).2.2.2.2
  warps a b x hx := by
    rw [State.warp?_modWarp, hx]
    split
    · next e => obtain ⟨rfl, rfl⟩ := e; exact ⟨f x, rfl, h x hx⟩
    · exact ⟨x, rfl, hW.refl x⟩
  cccs a b x hx := ⟨x, by simpa using hx, hC.refl x⟩
  sets _ h := h

theorem Follows.modCcc {s : State} {t k : Nat} {f : Ccc → Ccc} (hW : Chains W) (hC : Chains C)
    (h : ∀ x, s.ccc? t k = some x → C x (f x)) : Follows W C s (s.modCcc t k f) where
  bare := (onlyUnit_modCcc s t k f).2.2.2.2
  warps a b x hx := ⟨x, by simpa using hx, hW.refl x⟩
  cccs a b x hx := by
    rw [State.ccc?_modCcc, hx]
    split
    · next e => obtain ⟨rfl, rfl⟩ := e; exact ⟨f x, rfl, h x hx⟩
    · exact ⟨x, rfl, hC.refl x⟩
  sets _ h := h

end

/-- The set of a team is of its shared part. -/
theorem State.setOf_congr {s s' : State} {t : Nat} (h : (s'.team? t).map Team.bare = (s.team? t).map Team.bare) : s'.setOf t = s.setOf t := by
  have e (o : Option Team) : o.map (·.set) = (o.map Team.bare).map (·.set) := by cases o <;> rfl
  unfold State.setOf
  rw [e, h, ← e]

@[simp] theorem State.setOf_modWarp (s : State) (t k : Nat) (f : Warp → Warp) (n : Nat) : (s.modWarp t k f).setOf n = s.setOf n :=
  State.setOf_congr ((onlyUnit_modWarp s t k f).2.2.2.2 n)

@[simp] theorem State.setOf_modCcc (s : State) (t k : Nat) (f : Ccc → Ccc) (n : Nat) : (s.modCcc t k f).setOf n = s.setOf n :=
  State.setOf_congr ((onlyUnit_modCcc s t k f).2.2.2.2 n)

/-! ### The operations that withdraw a unit's work -/

/-- A warp whose work has been withdrawn: its registers and its replay queue alone have changed, and no operation has come. -/
def Warp.Stilled (x y : Warp) : Prop := { y with regs := x.regs, queue := x.queue } = x ∧ (x.regs.ops = [] → y.regs.ops = [])

theorem Warp.Stilled.chains : Chains Warp.Stilled where
  refl _ := ⟨rfl, id⟩
  trans {x _ _} h g := by
    have e := congrArg (fun w : Warp => { w with regs := x.regs, queue := x.queue }) g.1
    exact ⟨e.trans h.1, fun ho => g.2 (h.2 ho)⟩

theorem eq_chains {α : Type} : Chains (@Eq α) := ⟨fun _ => rfl, Eq.trans⟩

/-- Units stop: the warps' work is withdrawn, and nothing else of a team changes. -/
abbrev Stopped : State → State → Prop := Follows Warp.Stilled Eq

theorem Stopped.chains : Chains Stopped := Follows.chains Warp.Stilled.chains eq_chains

theorem stopped_of_eq {s s' : State} (ht : s'.teams = s.teams) (hs : s'.sets = s.sets) : Stopped s s' :=
  .of_eq Warp.Stilled.chains eq_chains ht hs

theorem stopped_uncount (s : State) (t k : Nat) (o : Op) : Stopped s (s.uncount (.warp t k) o) :=
  .modWarp Warp.Stilled.chains eq_chains fun _ _ => ⟨rfl, fun h => by simp [h]⟩

theorem stopped_enqueue (s : State) (t k : Nat) (f : Warp → List Entry) :
    Stopped s (s.modWarp t k fun x => { x with queue := f x }) :=
  .modWarp Warp.Stilled.chains eq_chains fun _ _ => ⟨rfl, id⟩

theorem stopped_freezeWarp (s : State) (t k : Nat) : Stopped s (s.freezeWarp t k) := by
  unfold State.freezeWarp
  split
  · exact Stopped.chains.refl s
  · exact Stopped.chains.trans (Stopped.chains.foldl _ _ (fun s o _ => stopped_uncount s t k o) s) (stopped_enqueue ..)

theorem stopped_dequeueTeam (s : State) (t : Nat) : Stopped s (s.dequeueTeam t) := by
  unfold State.dequeueTeam
  split
  · exact Stopped.chains.refl s
  · dsimp only
    refine Stopped.chains.trans ?_ (Stopped.chains.foldl _ _ (fun _ _ _ => ?_) _) <;> exact stopped_of_eq rfl rfl

theorem stopped_dequeue (s : State) (t k fid : Nat) : Stopped s (s.dequeue (.warp t k) fid) := by
  unfold State.dequeue
  dsimp only
  split <;> exact stopped_of_eq rfl rfl

/-- The set of a stop is frozen. -/
def State.frozenSet (s : State) (n : Nat) : State := s.modSet n fun x => { x with frozen := true }

theorem any_frozen_frozenSet (s : State) (n m : Nat) :
    ((s.frozenSet n).set? m).any (·.frozen) = ((s.set? m).any (·.frozen) || decide (n = m ∧ (s.set? m).isSome = true)) := by
  unfold State.frozenSet
  rw [State.set?_modSet]
  split <;> cases s.set? m <;> simp_all

theorem stopped_frozenSet (s : State) (n : Nat) : Stopped s (s.frozenSet n) :=
  .of_sets Warp.Stilled.chains eq_chains rfl fun m h => by simp [any_frozen_frozenSet, h]

/-- A team of a frozen set stops. -/
def State.freezeTeam (s : State) (t : Nat) : State :=
  match s.team? t with
  | none => s
  | some x => (List.range x.warps.length).foldl (fun s w => s.freezeWarp t w) (s.dequeueTeam t)

theorem State.freeze_eq (s : State) (n : Nat) :
    s.freeze n = ((((s.frozenSet n).set? n).map (·.teams)).getD []).foldl State.freezeTeam (s.frozenSet n) := rfl

theorem stopped_freezeTeam (s : State) (t : Nat) : Stopped s (s.freezeTeam t) := by
  unfold State.freezeTeam
  split
  · exact Stopped.chains.refl s
  · exact Stopped.chains.trans (stopped_dequeueTeam s t) (Stopped.chains.foldl _ _ (fun s w _ => stopped_freezeWarp s t w) _)

theorem stopped_frozenSet_freeze (s : State) (n : Nat) : Stopped (s.frozenSet n) (s.freeze n) := by
  rw [State.freeze_eq]
  exact Stopped.chains.foldl _ _ (fun s t _ => stopped_freezeTeam s t) _

theorem stopped_freeze (s : State) (n : Nat) : Stopped s (s.freeze n) :=
  Stopped.chains.trans (stopped_frozenSet s n) (stopped_frozenSet_freeze s n)

theorem any_frozen_freeze {s : State} {n : Nat} (h : (s.set? n).isSome = true) : ((s.freeze n).set? n).any (·.frozen) = true :=
  (stopped_frozenSet_freeze s n).sets n (by simp [any_frozen_frozenSet, h])

/-! ### A ring entry -/

theorem State.addWrites_teams (s : State) (ws : List Write) : (s.addWrites ws).teams = s.teams ∧ (s.addWrites ws).sets = s.sets := by
  unfold State.addWrites
  induction ws generalizing s with
  | nil => exact ⟨rfl, rfl⟩
  | cons w ws ih => exact ih _

theorem stopped_addWrites (s : State) (ws : List Write) : Stopped s (s.addWrites ws) :=
  stopped_of_eq (s.addWrites_teams ws).1 (s.addWrites_teams ws).2

theorem stopped_ringHold (s : State) (src : RingSrc) (e : RingEnt) : Stopped s (s.ringHold src e) := by
  unfold State.ringHold
  dsimp only
  split <;> exact stopped_of_eq rfl rfl

theorem stopped_ringWrite (s : State) (src : RingSrc) (e : RingEnt) : Stopped s (s.ringWrite src e) :=
  Stopped.chains.trans (stopped_addWrites ..) (stopped_of_eq rfl rfl)

theorem stopped_ringPut (s : State) (src : RingSrc) (e : RingEnt) : Stopped s (s.ringPut src e) := by
  unfold State.ringPut
  split
  · split <;> exact stopped_of_eq rfl rfl
  · split
    · exact stopped_ringWrite ..
    · exact stopped_ringHold ..

theorem stopped_escalate (s : State) (t k kind code : Nat) (rpc : DWord) (rsl : Nat) (tf : Lanes) :
    Stopped s (s.escalate t k kind code rpc rsl tf) := by
  unfold State.escalate
  exact Stopped.chains.trans (stopped_freeze ..) (stopped_ringPut ..)

theorem any_frozen_escalate {s : State} {t : Nat} (h : (s.set? (s.setOf t)).isSome = true) (k kind code : Nat) (rpc : DWord) (rsl : Nat)
    (tf : Lanes) : ((s.escalate t k kind code rpc rsl tf).set? (s.setOf t)).any (·.frozen) = true := by
  unfold State.escalate
  exact (stopped_ringPut ..).sets _ (any_frozen_freeze h)

end Sys2Proof.Machine
end

section
/-!
PROOF. A warp with no counted operation takes a trap; the stuck sets and the machine checks (14_execution_model R325, R326;
15_traps_preemption R328, R343, R350).
-/
namespace Sys2Proof.Machine

/-! ### A trap of a warp that has no counted operation (15_traps_preemption R328) -/

theorem State.completeRest_of_no_ops {s : State} {t k : Nat} {x : Warp} (hx : s.warp? t k = some x) (ho : x.regs.ops = []) (n : Nat) :
    s.completeRest (.warp t k) n = some s := by
  simp [State.completeRest, State.regs?, hx, ho]

theorem State.settle_of_no_ops {s : State} {t k : Nat} {x : Warp} (hx : s.warp? t k = some x) (ho : x.regs.ops = []) (n : Nat) :
    s.settle t k n = some (s, []) := by
  simp [State.settle, State.completeRest_of_no_ops hx ho, hx, ho]

/-- A warp that has taken a trap with frame `fr`, whose handler, if it has one, is `h`. -/
def Warp.trapped (x : Warp) (fr : Frame) (h : Option Frag) : Warp := { x.unfence with frame := some fr, handler := h }

section
variable {s : State} {t k fid : Nat} {x : Warp} {f : Frag} (hx : s.warp? t k = some x) (ho : x.regs.ops = []) (hf : x.byFid fid = some f)
  (code : Nat) (aux : DWord)
include hx ho hf

/-- A trap in the handler escalates. -/
theorem State.takeTrap_in_handler (hh : x.handler.isSome = true) :
    ∃ s', s.takeTrap t k fid none (plainTrap code aux) [] = some s' ∧ Stopped s s' := by
  simp only [State.takeTrap, hx, hf, State.settle_of_no_ops hx ho, hh, if_true, List.append_nil]
  exact ⟨_, rfl, Stopped.chains.trans (stopped_enqueue ..) (stopped_escalate ..)⟩

/-- A trap of a warp that is not in its handler is framed; a machine check escalates. -/
theorem State.takeTrap_framed (hh : x.handler = none) : ∃ fr h s', s.takeTrap t k fid none (plainTrap code aux) [] = some s' ∧
    fr.code = code ∧ Stopped (s.modWarp t k (·.trapped fr h)) s' ∧
    (code = cMCHK → h = none ∧ ((s.set? (s.setOf t)).isSome = true → (s'.set? (s.setOf t)).any (·.frozen) = true)) := by
  simp only [State.takeTrap, hx, hf, State.settle_of_no_ops hx ho, hh, Option.isSome_none, Bool.false_eq_true, if_false]
  split
  · next hrun =>
    refine ⟨_, _, _, rfl, rfl, Stopped.chains.refl _, fun hc => ?_⟩
    simp [plainTrap, hc] at hrun
  · refine ⟨_, _, _, rfl, rfl, stopped_escalate .., fun hc => ⟨rfl, fun hset => ?_⟩⟩
    rw [← State.setOf_modWarp s t k (·.trapped _ none) t] at hset ⊢
    exact any_frozen_escalate hset ..

end

/-! ### A trap of a context (15_traps_preemption R347) -/

theorem stopped_cccTrap (s : State) (t i kind : Nat) (tf : Lanes) (r : CTrap) :
    Stopped (s.modCcc t i fun x => { x with trapd := some r }) (s.cccTrap t i kind tf r) :=
  Stopped.chains.trans (stopped_freeze ..) (stopped_ringPut ..)

theorem any_frozen_cccTrap {s : State} {t : Nat} (h : (s.set? (s.setOf t)).isSome = true) (i kind : Nat) (tf : Lanes) (r : CTrap) :
    ((s.cccTrap t i kind tf r).set? (s.setOf t)).any (·.frozen) = true := by
  rw [← State.setOf_modCcc s t i (fun x => { x with trapd := some r }) t] at h ⊢
  exact (stopped_ringPut ..).sets _ (any_frozen_freeze h)

theorem State.ccc?_cccTrap {s : State} {t i : Nat} {x : Ccc} (hx : s.ccc? t i = some x) (kind : Nat) (tf : Lanes) (r : CTrap) :
    (s.cccTrap t i kind tf r).ccc? t i = some { x with trapd := some r } := by
  obtain ⟨y, hy, rfl⟩ := (stopped_cccTrap s t i kind tf r).cccs t i { x with trapd := some r } (by simp [hx])
  exact hy

/-! ### A machine check (15_traps_preemption R350) -/

theorem exec_softError (s : State) (site : SoftSite) : exec (.softError site) s = .next (s.softError site) := rfl

theorem State.softError_frozen {s : State} {u : UnitId} (h : (s.set? (s.setOf (teamOf u))).any (·.frozen) = true) :
    s.softError (.unit u) = s := by
  simp [State.softError, h]

/-- The first fragment of a warp has the first of its index. -/
theorem Warp.byFid_head {x : Warp} {f : Frag} (h : x.frags.head? = some f) : x.byFid f.fid = some f := by
  unfold Warp.byFid
  cases hl : x.frags with
  | nil => simp [hl] at h
  | cons a l =>
    rw [hl] at h
    cases h
    simp

theorem softError_warp {s : State} {t k : Nat} {x : Warp} (hx : s.warp? t k = some x) (hfr : x.frags ≠ []) (hh : x.handler = none)
    (ho : x.regs.ops = []) (hset : (s.set? (s.setOf t)).isSome = true) (hlive : (s.set? (s.setOf t)).any (·.frozen) = false) :
    ∃ s' y, exec (.softError (.unit (.warp t k))) s = .next s' ∧ s'.warp? t k = some y ∧ y.frame.map (·.code) = some cMCHK ∧
      y.handler = none ∧ (s'.set? (s.setOf t)).any (·.frozen) = true := by
  obtain ⟨f, hf⟩ := Option.ne_none_iff_exists'.1 (mt List.head?_eq_none_iff.1 hfr)
  obtain ⟨fr, h, s', he, hcode, hstop, hmchk⟩ := State.takeTrap_framed hx ho (Warp.byFid_head hf) cMCHK 0 hh
  obtain ⟨rfl, hfrozen⟩ := hmchk rfl
  obtain ⟨y, hy, hstill, -⟩ := hstop.warps t k (x.trapped fr none) (by simp [hx])
  have hframe : y.frame = some fr := by have e := congrArg Warp.frame hstill; exact e
  have hhand : y.handler = none := by have e := congrArg Warp.handler hstill; exact e
  have hsoft : s.softError (.unit (.warp t k)) = s' := by
    simp only [State.softError, teamOf, hlive, Bool.false_eq_true, if_false, hx, Option.bind_some, hf, he, Option.getD_some]
  exact ⟨s', y, by rw [exec_softError, hsoft], hy, by rw [hframe, Option.map_some, hcode], hhand, hfrozen hset⟩

theorem softError_ccc {s : State} {t k : Nat} {x : Ccc} (hx : s.ccc? t k = some x) (hset : (s.set? (s.setOf t)).isSome = true)
    (hlive : (s.set? (s.setOf t)).any (·.frozen) = false) : ∃ s' y, exec (.softError (.unit (.ccc t k))) s = .next s' ∧
      s'.ccc? t k = some y ∧ y.trapd.map (·.code) = some cMCHK ∧ (s'.set? (s.setOf t)).any (·.frozen) = true := by
  let r : CTrap := ⟨cMCHK, false, x.frag.arrived none, x.frag.slot, 0, 0, x.frag.cpc⟩
  have hsoft : s.softError (.unit (.ccc t k)) = s.cccTrap t k 3 0 r := by
    simp only [State.softError, teamOf, hlive, Bool.false_eq_true, if_false, hx, r]
  exact ⟨_, _, by rw [exec_softError, hsoft], State.ccc?_cccTrap hx .., rfl, any_frozen_cccTrap hset ..⟩

/-! ### A stuck set (14_execution_model R325, R326) -/

/-- A warp holds the frame of a DEADLOCK trap. -/
def Warp.Caught (x : Warp) : Prop := x.frame.map (·.code) = some cDEADLOCK

/-- A context holds the record of a DEADLOCK trap. -/
def Ccc.Caught (x : Ccc) : Prop := x.trapd.map (·.code) = some cDEADLOCK

/-- A warp while DEADLOCK is raised on a set: its fragments stay, no operation comes, and its trap state changes by DEADLOCK alone. -/
def Warp.Goes (x y : Warp) : Prop := (∀ n, (x.byFid n).isSome = true → (y.byFid n).isSome = true) ∧
  (x.regs.ops = [] → y.regs.ops = []) ∧ ((y.handler = x.handler ∧ y.frame = x.frame) ∨ y.Caught)

theorem Warp.Goes.caught {x y : Warp} (h : x.Goes y) (hx : x.Caught) : y.Caught :=
  h.2.2.elim (fun e => by rw [Warp.Caught, e.2]; exact hx) id

theorem Warp.Goes.chains : Chains Warp.Goes where
  refl _ := ⟨fun _ h => h, id, .inl ⟨rfl, rfl⟩⟩
  trans {x y z} h g := by
    refine ⟨fun n hn => g.1 n (h.1 n hn), fun ho => g.2.1 (h.2.1 ho), ?_⟩
    rcases h.2.2 with ⟨hh, hf⟩ | hc
    · rcases g.2.2 with ⟨gh, gf⟩ | gc
      · exact .inl ⟨gh.trans hh, gf.trans hf⟩
      · exact .inr gc
    · exact .inr (g.caught hc)

theorem Warp.Stilled.goes {x y : Warp} (h : x.Stilled y) : x.Goes y := by
  have hfrags : y.frags = x.frags := by have e := congrArg Warp.frags h.1; exact e
  have hhand : y.handler = x.handler := by have e := congrArg Warp.handler h.1; exact e
  have hframe : y.frame = x.frame := by have e := congrArg Warp.frame h.1; exact e
  exact ⟨fun n hn => by rwa [Warp.byFid, hfrags], h.2, .inl ⟨hhand, hframe⟩⟩

/-- DEADLOCK is raised on units: nothing shared of a team changes. -/
abbrev Strikes : State → State → Prop := Follows Warp.Goes fun x y => x.Caught → y.Caught

theorem Strikes.chains : Chains Strikes := Follows.chains Warp.Goes.chains ⟨fun _ => id, fun h g hx => g (h hx)⟩

theorem Stopped.strikes {s s' : State} (h : Stopped s s') : Strikes s s' := h.mono Warp.Stilled.goes fun e => by rw [e]; exact id

theorem Warp.byFid_isSome {x : Warp} {n : Nat} : (x.byFid n).isSome = true ↔ ∃ f ∈ x.frags, f.fid = n := by
  simp [Warp.byFid]

theorem Frag.unfence_fid (f : Frag) : f.unfence.fid = f.fid := by
  unfold Frag.unfence
  split <;> rfl

theorem Warp.mem_frags {x : Warp} {f : Frag} : f ∈ x.frags ↔
    x.live0 = some f ∨ x.live1 = some f ∨ f ∈ x.spill ∨ x.handler = some f ∨ f ∈ x.parks.map (·.2) := by
  simp only [Warp.frags, Warp.active, List.mem_append, Option.mem_toList, or_assoc]

/-- A warp that is not in its handler keeps its fragments when it takes a trap. -/
theorem Warp.goes_trapped {x : Warp} (hh : x.handler = none) {fr : Frame} (hcode : fr.code = cDEADLOCK) (h : Option Frag) :
    x.Goes (x.trapped fr h) := by
  refine ⟨fun n hn => ?_, id, .inr (congrArg some hcode)⟩
  obtain ⟨f, hf, rfl⟩ := Warp.byFid_isSome.1 hn
  refine Warp.byFid_isSome.2 ⟨f.unfence, Warp.mem_frags.2 ?_, f.unfence_fid⟩
  simp only [Warp.trapped, Warp.unfence, Warp.modFrags, List.map_map]
  rcases Warp.mem_frags.1 hf with e | e | e | e | e
  · simp [e]
  · simp [e]
  · exact .inr (.inr (.inl (List.mem_map_of_mem e)))
  · simp [hh] at e
  · obtain ⟨p, hp, rfl⟩ := List.mem_map.1 e
    exact .inr (.inr (.inr (.inr (List.mem_map.2 ⟨p, hp, rfl⟩))))

/-- DEADLOCK can be raised on a fragment of a warp, or has been. -/
def Warp.Awaits (x : Warp) (fid : Nat) : Prop := x.regs.ops = [] ∧ (x.byFid fid).isSome = true ∧ (x.handler = none ∨ x.Caught)

theorem Warp.Goes.awaits {x y : Warp} (h : x.Goes y) {fid : Nat} (hx : x.Awaits fid) : y.Awaits fid := by
  obtain ⟨ho, hf, hc⟩ := hx
  refine ⟨h.2.1 ho, h.1 fid hf, ?_⟩
  rcases h.2.2 with ⟨hh, -⟩ | hy
  · exact hc.imp hh.trans h.caught
  · exact .inr hy

/-- A warp that DEADLOCK can be raised on. -/
def State.Awaits (s : State) (p : Nat × Nat × Nat × DWord) : Prop := ∃ x, s.warp? p.1 p.2.1 = some x ∧ x.Awaits p.2.2.1

theorem State.Awaits.strikes {s s' : State} {p : Nat × Nat × Nat × DWord} (h : s.Awaits p) (g : Strikes s s') : s'.Awaits p := by
  obtain ⟨x, hx, ha⟩ := h
  obtain ⟨y, hy, hxy⟩ := g.warps _ _ x hx
  exact ⟨y, hy, hxy.awaits ha⟩

/-- A warp that holds the frame of a DEADLOCK trap. -/
def State.WarpCaught (s : State) (t k : Nat) : Prop := ∃ x, s.warp? t k = some x ∧ x.Caught

/-- A context that holds the record of a DEADLOCK trap. -/
def State.CccCaught (s : State) (t k : Nat) : Prop := ∃ x, s.ccc? t k = some x ∧ x.Caught

theorem State.WarpCaught.strikes {s s' : State} {t k : Nat} (h : s.WarpCaught t k) (g : Strikes s s') : s'.WarpCaught t k := by
  obtain ⟨x, hx, ha⟩ := h
  obtain ⟨y, hy, hxy⟩ := g.warps _ _ x hx
  exact ⟨y, hy, hxy.caught ha⟩

theorem State.CccCaught.strikes {s s' : State} {t k : Nat} (h : s.CccCaught t k) (g : Strikes s s') : s'.CccCaught t k := by
  obtain ⟨x, hx, ha⟩ := h
  obtain ⟨y, hy, hxy⟩ := g.cccs _ _ x hx
  exact ⟨y, hy, hxy ha⟩

theorem strikes_stuckWarp {s : State} {p : Nat × Nat × Nat × DWord} (hp : s.Awaits p) :
    Strikes s (s.stuckWarp p) ∧ (s.stuckWarp p).WarpCaught p.1 p.2.1 := by
  obtain ⟨t, k, fid, aux⟩ := p
  have hdeq : Strikes s (s.dequeue (.warp t k) fid) := (stopped_dequeue s t k fid).strikes
  obtain ⟨x, hx, ho, hsome, hc⟩ := hp.strikes hdeq
  obtain ⟨f, hf⟩ := Option.isSome_iff_exists.1 hsome
  unfold State.stuckWarp
  cases hh : x.handler with
  | none =>
    obtain ⟨fr, h, s', he, hcode, hstop, -⟩ := State.takeTrap_framed hx ho hf cDEADLOCK aux hh
    have hmod : Strikes (s.dequeue (.warp t k) fid) ((s.dequeue (.warp t k) fid).modWarp t k (·.trapped fr h)) :=
      .modWarp Warp.Goes.chains ⟨fun _ => id, fun h g hx => g (h hx)⟩ fun z hz => by
        rw [hx] at hz; cases hz; exact Warp.goes_trapped hh hcode h
    have hcaught : ((s.dequeue (.warp t k) fid).modWarp t k (·.trapped fr h)).WarpCaught t k :=
      ⟨x.trapped fr h, by simp at hx; simp [hx], congrArg some hcode⟩
    rw [he, Option.getD_some]
    exact ⟨Strikes.chains.trans hdeq (Strikes.chains.trans hmod hstop.strikes), hcaught.strikes hstop.strikes⟩
  | some g =>
    obtain ⟨s', he, hstop⟩ := State.takeTrap_in_handler hx ho hf cDEADLOCK aux (by simp [hh])
    rw [he, Option.getD_some]
    have hcaught : x.Caught := hc.resolve_left (by simp [hh])
    exact ⟨Strikes.chains.trans hdeq hstop.strikes, State.WarpCaught.strikes ⟨x, hx, hcaught⟩ hstop.strikes⟩

theorem strikes_stuckCcc (s : State) (p : Nat × Nat × DWord) :
    Strikes s (s.stuckCcc p) ∧ ((s.ccc? p.1 p.2.1).isSome = true → (s.stuckCcc p).CccCaught p.1 p.2.1) := by
  unfold State.stuckCcc
  split
  · next hn => exact ⟨Strikes.chains.refl s, by simp [hn]⟩
  · next y hy =>
    refine ⟨Strikes.chains.trans ?_ (stopped_cccTrap ..).strikes, fun _ => ⟨_, State.ccc?_cccTrap hy .., rfl⟩⟩
    exact .modCcc Warp.Goes.chains ⟨fun _ => id, fun h g hx => g (h hx)⟩ fun _ _ _ => rfl

theorem strikes_foldl_stuckWarp (l : List (Nat × Nat × Nat × DWord)) {s : State} (h : ∀ p ∈ l, s.Awaits p) :
    Strikes s (l.foldl State.stuckWarp s) ∧ ∀ p ∈ l, (l.foldl State.stuckWarp s).WarpCaught p.1 p.2.1 := by
  induction l generalizing s with
  | nil => exact ⟨Strikes.chains.refl s, by simp⟩
  | cons p l ih =>
    obtain ⟨hstep, hp⟩ := strikes_stuckWarp (h p List.mem_cons_self)
    obtain ⟨hrest, hall⟩ := ih fun q hq => (h q (List.mem_cons_of_mem p hq)).strikes hstep
    refine ⟨Strikes.chains.trans hstep hrest, fun q hq => ?_⟩
    rcases List.mem_cons.1 hq with rfl | hq
    · exact hp.strikes hrest
    · exact hall q hq

theorem strikes_foldl_stuckCcc (l : List (Nat × Nat × DWord)) (s : State) : Strikes s (l.foldl State.stuckCcc s) ∧
    ∀ p ∈ l, (s.ccc? p.1 p.2.1).isSome = true → (l.foldl State.stuckCcc s).CccCaught p.1 p.2.1 := by
  induction l generalizing s with
  | nil => exact ⟨Strikes.chains.refl s, by simp⟩
  | cons p l ih =>
    obtain ⟨hstep, hp⟩ := strikes_stuckCcc s p
    obtain ⟨hrest, hall⟩ := ih (s.stuckCcc p)
    refine ⟨Strikes.chains.trans hstep hrest, fun q hq hsome => ?_⟩
    rcases List.mem_cons.1 hq with rfl | hq
    · exact (hp hsome).strikes hrest
    · obtain ⟨x, hx⟩ := Option.isSome_iff_exists.1 hsome
      obtain ⟨y, hy, -⟩ := hstep.cccs _ _ x hx
      exact hall q hq (by simp [hy])

theorem mem_zip_range {α : Type} {l : List α} {k : Nat} {x : α} (h : l[k]? = some x) : (x, k) ∈ l.zip (List.range l.length) := by
  obtain ⟨hk, rfl⟩ := List.getElem?_eq_some_iff.1 h
  exact List.mem_iff_getElem.2 ⟨k, by simpa using hk, by simp⟩

theorem getElem?_of_mem_zip_range {α : Type} {l : List α} {k : Nat} {x : α} (h : (x, k) ∈ l.zip (List.range l.length)) : l[k]? = some x := by
  obtain ⟨n, hn, he⟩ := List.mem_iff_getElem.1 h
  simp only [List.getElem_zip, List.getElem_range, Prod.mk.injEq] at he
  obtain ⟨rfl, rfl⟩ := he
  simp

/-- The teams of a set that exist. -/
def State.teamsOf (s : State) (z : TSet) : List (Nat × Team) := z.teams.filterMap fun t => (s.team? t).map fun y => (t, y)

theorem State.mem_teamsOf {s : State} {z : TSet} {t : Nat} {q : Team} (ht : t ∈ z.teams) (hq : s.team? t = some q) : (t, q) ∈ s.teamsOf z :=
  List.mem_filterMap.2 ⟨t, ht, by rw [hq]; rfl⟩

section
variable {s : State} {z : TSet} {t k : Nat} {q : Team} (hs : s.stuck z = true) (ht : t ∈ z.teams) (hq : s.team? t = some q)
include hs ht hq

theorem State.stuck_warpWaits {x : Warp} (hx : q.warps[k]? = some x) (he : x.exited = false) : s.warpWaits t k x = true := by
  simp only [State.stuck, Bool.and_eq_true, List.all_eq_true] at hs
  obtain ⟨⟨-, hall⟩, -⟩ := hs
  have h := (hall (t, q) (State.mem_teamsOf ht hq)).1.2 (x, k) (mem_zip_range hx)
  simpa [he] using h

/-- No counted operation of a stuck set is left: it would release. -/
theorem State.stuck_ops {x : Warp} (hx : x ∈ q.warps) : x.regs.ops = [] := by
  simp only [State.stuck, Bool.and_eq_true, Bool.not_eq_true', State.releaser, Bool.or_eq_false_iff, List.any_eq_false] at hs
  obtain ⟨-, ⟨⟨⟨hops, -⟩, -⟩, -⟩, -⟩ := hs
  have h := hops (t, q) (State.mem_teamsOf ht hq)
  simp only [List.any_eq_true, not_exists, not_and] at h
  have h' := h x.regs (List.mem_append_left _ (List.mem_map_of_mem hx))
  simpa using h'

end

/-- A waiting warp is not in its handler, and DEADLOCK is raised on one of its fragments. -/
theorem State.stuckFrag_of_warpWaits {s : State} {t k : Nat} {x : Warp} (h : s.warpWaits t k x = true) :
    x.handler = none ∧ ∃ f, s.stuckFrag t k x = some f := by
  simp only [State.warpWaits, Bool.and_eq_true, List.all_eq_true, State.waits] at h
  obtain ⟨⟨⟨-, hh⟩, hne⟩, hall⟩ := h
  refine ⟨by simpa using hh, ?_⟩
  obtain ⟨f, hf⟩ := List.exists_mem_of_ne_nil _ (by simpa only [Bool.not_eq_true', List.isEmpty_eq_false_iff] using hne)
  exact Option.isSome_iff_exists.1 (List.find?_isSome.2 ⟨f, hf, (hall f hf).1⟩)

theorem State.stuckFrag_byFid {s : State} {t k : Nat} {x : Warp} {f : Frag} (h : s.stuckFrag t k x = some f) :
    (x.byFid f.fid).isSome = true := by
  refine Warp.byFid_isSome.2 ⟨f, Warp.mem_frags.2 ?_, rfl⟩
  have hm := List.mem_of_find?_eq_some h
  simp only [List.mem_append, Option.mem_toList, or_assoc] at hm
  exact hm.imp_right (Or.imp_right .inl)

/-- Each warp that DEADLOCK is to be raised on can take it. -/
theorem State.awaits_of_mem_stuckWarps {s : State} {z : TSet} (hs : s.stuck z = true) {p : Nat × Nat × Nat × DWord}
    (hp : p ∈ s.stuckWarps z) : s.Awaits p := by
  simp only [State.stuckWarps, List.mem_flatMap, List.mem_filterMap] at hp
  obtain ⟨t, ht, ⟨x, k⟩, hx, hp⟩ := hp
  cases hq : s.team? t with
  | none => simp [hq] at hx
  | some q =>
    rw [hq] at hx
    have hk := getElem?_of_mem_zip_range hx
    cases he : x.exited with
    | true => simp [he] at hp
    | false =>
      simp only [he, Bool.false_eq_true, if_false] at hp
      obtain ⟨f, hf, rfl⟩ := Option.map_eq_some_iff.1 hp
      exact ⟨x, by simp [State.warp?, hq, hk], State.stuck_ops hs ht hq (List.mem_of_getElem? hk), State.stuckFrag_byFid hf,
        .inl (State.stuckFrag_of_warpWaits (State.stuck_warpWaits hs ht hq hk he)).1⟩

theorem State.mem_stuckWarps {s : State} {z : TSet} (hs : s.stuck z = true) {t k : Nat} {q : Team} {x : Warp} (ht : t ∈ z.teams)
    (hq : s.team? t = some q) (hx : q.warps[k]? = some x) (he : x.exited = false) : ∃ f aux, (t, k, f, aux) ∈ s.stuckWarps z := by
  obtain ⟨-, f, hf⟩ := State.stuckFrag_of_warpWaits (State.stuck_warpWaits hs ht hq hx he)
  exact ⟨f.fid, _, List.mem_flatMap.2 ⟨t, ht, List.mem_filterMap.2 ⟨(x, k), by rw [hq]; exact mem_zip_range hx, by simp [he, hf]; rfl⟩⟩⟩

theorem State.mem_stuckCccs {s : State} {z : TSet} {t k : Nat} {q : Team} {x : Ccc} (ht : t ∈ z.teams)
    (hq : s.team? t = some q) (hx : q.cccs[k]? = some x) (he : x.exited = false) : ∃ aux, (t, k, aux) ∈ s.stuckCccs z :=
  ⟨_, List.mem_flatMap.2 ⟨t, ht, List.mem_filterMap.2 ⟨(x, k), by rw [hq]; exact mem_zip_range hx, by simp [he]; rfl⟩⟩⟩

theorem exec_deadlock {s : State} {n : Nat} {z : TSet} (hz : s.set? n = some z) : exec (.deadlock n) s =
    .next (if s.stuck z = true then (s.stuckCccs z).foldl State.stuckCcc ((s.stuckWarps z).foldl State.stuckWarp s) else s) := by
  have he : exec (.deadlock n) s = .next (s.deadlock n) := rfl
  rw [he, State.deadlock, hz]
  cases h : s.stuck z <;> simp [h]

theorem deadlock_stuck {s : State} {z : TSet} (hs : s.stuck z = true) :
    let s' := (s.stuckCccs z).foldl State.stuckCcc ((s.stuckWarps z).foldl State.stuckWarp s)
    (∀ t, (s'.team? t).map Team.bare = (s.team? t).map Team.bare) ∧ ∀ t ∈ z.teams, ∀ q, s.team? t = some q →
      (∀ k x, q.warps[k]? = some x → x.exited = false → s'.WarpCaught t k) ∧
      ∀ k x, q.cccs[k]? = some x → x.exited = false → s'.CccCaught t k := by
  obtain ⟨hw, hwc⟩ := strikes_foldl_stuckWarp (s.stuckWarps z) fun p hp => State.awaits_of_mem_stuckWarps hs hp
  obtain ⟨hc, hcc⟩ := strikes_foldl_stuckCcc (s.stuckCccs z) ((s.stuckWarps z).foldl State.stuckWarp s)
  refine ⟨(Strikes.chains.trans hw hc).bare, fun t ht q hq => ⟨fun k x hx he => ?_, fun k x hx he => ?_⟩⟩
  · obtain ⟨f, aux, hm⟩ := State.mem_stuckWarps hs ht hq hx he
    exact (hwc _ hm).strikes hc
  · obtain ⟨aux, hm⟩ := State.mem_stuckCccs ht hq hx he
    obtain ⟨y, hy, -⟩ := hw.cccs t k x (by simp [State.ccc?, hq, hx])
    exact hcc _ hm (by simp [hy])

/-! ### The events of one warp, a stuck set, a machine check -/

theorem State.map_frozen {s : State} {n : Nat} (h : (s.set? n).any (·.frozen) = true) : (s.set? n).map (·.frozen) = some true := by
  cases hz : s.set? n <;> simp_all

/-- What `WarpEvents` asks of the release of a park record. -/
theorem joinRelease_events {s : State} {t k : Nat} {x : Warp} (hx : s.warp? t k = some x) (hi : x.idle) (hp : x.parks ≠ []) :
    ∃ m f y, tget x.parks m = some f ∧
      (∀ n, (tget x.parks n).isSome = true → (x.jr n).dj < (x.jr m).dj ∨ ((x.jr n).dj = (x.jr m).dj ∧
        ((x.jr m).ord < (x.jr n).ord ∨ ((x.jr m).ord = (x.jr n).ord ∧ m ≤ n)))) ∧
      exec (.joinRelease t k) s = .next (s.modWarp t k fun _ => y) ∧
      { y with live0 := x.live0, parks := x.parks, j := x.j, wst := x.wst } = x ∧ y.wst = x.wst ||| wsJLOST ∧
      y.parks = tdel x.parks m ∧ y.live0 = some { f with lmap := (x.jr m).arr, rj := (x.jr m).out } ∧
      y.j = lset x.j m { x.jr m with exp := (x.jr m).exp &&& ~~~(x.jr m).arr, arr := 0 } := by
  obtain ⟨m, f, hf, hbest, he⟩ := (joinRelease_clause hx).2 hi hp
  exact ⟨m, f, x.released m f, hf, fun n hn => Warp.parkBetter_eq_false (hbest n hn), he, rfl, rfl, rfl, rfl, rfl⟩

/-- What `WarpEvents` asks of a stuck set. -/
theorem deadlock_events {s : State} {n : Nat} {z : TSet} (hz : s.set? n = some z) (hs : s.stuck z = true) :
    ∃ s', exec (.deadlock n) s = .next s' ∧
      (∀ t, (s'.team? t).map (fun q => (q.rv, q.tags, q.scratch)) = (s.team? t).map fun q => (q.rv, q.tags, q.scratch)) ∧
      ∀ t ∈ z.teams, ∀ q, s.team? t = some q →
        (∀ k x, q.warps[k]? = some x → x.exited = false → ∃ y, s'.warp? t k = some y ∧ y.frame.map (·.code) = some cDEADLOCK) ∧
        ∀ k x, q.cccs[k]? = some x → x.exited = false → ∃ y, s'.ccc? t k = some y ∧ y.trapd.map (·.code) = some cDEADLOCK := by
  obtain ⟨hbare, hcaught⟩ := deadlock_stuck hs
  refine ⟨_, by rw [exec_deadlock hz, if_pos hs], fun t => ?_, hcaught⟩
  have e (o : Option Team) : o.map (fun q => (q.rv, q.tags, q.scratch)) = (o.map Team.bare).map fun q => (q.rv, q.tags, q.scratch) := by
    cases o <;> rfl
  rw [e, hbare, ← e]

/-- Settles O48, clause by clause: the release of a park record, the refill from the spill stack, the release of a context, the stuck
set, the machine check. -/
theorem warpEvents : Obligations.WarpEvents := by
  unfold Obligations.WarpEvents
  refine ⟨fun s t k x hx => ⟨(joinRelease_clause hx).1, fun hi hp _ => joinRelease_events hx hi hp⟩,
    fun s t k x hx => ?_, fun s t k x hx => warpContextRelease_clause hx,
    fun s n z hz => ⟨fun h => ?_, deadlock_events hz⟩, fun s d u z => ⟨rfl, fun hz hfr => ?_, ?_, ?_⟩⟩
  · obtain ⟨y, he, ⟨hrest, hperm⟩, hself, hless, hnone⟩ := fragmentSwap_clause hx
    exact ⟨y, he, hrest, hperm, hself, hless, hnone⟩
  · rw [exec_deadlock hz, if_neg (by simp [h])]
  · rw [exec_softError, State.softError_frozen (by simp [hz, hfr])]
  · rintro t k x rfl hx hne hh ho hz hfr
    have hset : s.set? (s.setOf t) = some z := hz
    obtain ⟨s', y, he, hy, hcode, hhand, hfrozen⟩ := softError_warp hx hne hh ho (by simp [hset]) (by simp [hset, hfr])
    exact ⟨s', y, he, hy, hcode, hhand, State.map_frozen hfrozen⟩
  · rintro t k x rfl hx hz hfr
    have hset : s.set? (s.setOf t) = some z := hz
    obtain ⟨s', y, he, hy, hcode, hfrozen⟩ := softError_ccc hx (by simp [hset]) (by simp [hset, hfr])
    exact ⟨s', y, he, hy, hcode, State.map_frozen hfrozen⟩

end Sys2Proof.Machine
end

section
/-!
SUPPORT. What memory and the writes on their way are of a state, and that every change of a state keeps them well formed: the changes of
memory, of the writes and of their names.
-/
namespace Sys2Proof.Machine

/-- Memory, the keys of its units, the writes on their way, and the next name. -/
structure MemPart where
  mem    : List Host.Cell
  keys   : Table UKey
  pend   : List Write
  flight : List Write
  nextId : Nat

/-- The memory part of a state. Most changes of a state leave it as it is, and their lemmas say so by one equation. -/
def State.memPart (s : State) : MemPart := ⟨s.mem, s.keys, s.pend, s.flight, s.nextId⟩

/-- `State.MemWf` and `State.WritesWf`, of a memory part. -/
def MemPart.MemWf (p : MemPart) : Prop := Memory.wf p.mem = true ∧ tsorted 0 p.keys = true
def MemPart.WritesWf (p : MemPart) : Prop :=
  ((p.pend ++ p.flight).map (·.id)).Nodup ∧ (∀ w ∈ p.pend ++ p.flight, w.id < p.nextId) ∧
    ∀ w ∈ p.flight, w.tgt = .glob ∧ w.repl = false

theorem State.memWf_iff (s : State) : s.MemWf ↔ s.memPart.MemWf := Iff.rfl
theorem State.writesWf_iff (s : State) : s.WritesWf ↔ s.memPart.WritesWf := Iff.rfl

/-- Whichever of the two forms the first has, the second has. -/
structure MemPart.Kept (p q : MemPart) : Prop where
  memWf : p.MemWf → q.MemWf
  writesWf : p.WritesWf → q.WritesWf

@[simp] theorem MemPart.Kept.refl (p : MemPart) : p.Kept p := ⟨id, id⟩

theorem MemPart.Kept.trans {p q r : MemPart} (h : p.Kept q) (g : q.Kept r) : p.Kept r :=
  ⟨g.memWf ∘ h.memWf, g.writesWf ∘ h.writesWf⟩

theorem MemPart.Kept.of_eq {p q : MemPart} (h : q = p) : p.Kept q := h ▸ .refl p

/-- A change of other parts of a state. -/
@[simp] theorem State.memPart_update (s : State) (checks tlbs inval invalQ invDone csrs ringHeld ringWait ringOut grids rrobin sets teams
    cores clusters dies mgmt fw sent puts cur agenda fresh) :
    State.memPart ⟨s.mem, s.keys, checks, s.pend, s.flight, tlbs, inval, invalQ, invDone, csrs, ringHeld, ringWait, ringOut, grids, rrobin,
      sets, teams, cores, clusters, dies, mgmt, fw, sent, puts, cur, agenda, fresh, s.nextId⟩ = s.memPart := (rfl)

section
variable {p : MemPart} {s : State}

/-- A list of changes that each leave the memory part as it is. -/
theorem State.foldl_memPart {α : Type} {g : State → α → State} (hg : ∀ s a, (g s a).memPart = s.memPart) (l : List α) (s : State) :
    (l.foldl g s).memPart = s.memPart := by
  induction l generalizing s with
  | nil => rfl
  | cons a l ih => exact (ih _).trans (hg s a)

/-- A list of changes that each keep the forms. -/
theorem MemPart.Kept.foldl {α : Type} {g : State → α → State} (hg : ∀ s a, p.Kept s.memPart → p.Kept (g s a).memPart) (l : List α)
    {s : State} (h : p.Kept s.memPart) : p.Kept (l.foldl g s).memPart := by
  induction l generalizing s with
  | nil => exact h
  | cons a l ih => exact ih (hg s a h)

/-- A name that is taken by no write. -/
@[simp] theorem MemPart.Kept.nextId (h : p.Kept s.memPart) {n : Nat} (hn : s.nextId ≤ n) (checks tlbs inval invalQ invDone csrs ringHeld
    ringWait ringOut grids rrobin sets teams cores clusters dies mgmt fw sent puts cur agenda fresh) :
    p.Kept (State.memPart ⟨s.mem, s.keys, checks, s.pend, s.flight, tlbs, inval, invalQ, invDone, csrs, ringHeld, ringWait, ringOut, grids,
      rrobin, sets, teams, cores, clusters, dies, mgmt, fw, sent, puts, cur, agenda, fresh, n⟩) :=
  h.trans ⟨id, fun ⟨hd, hlt, hf⟩ => ⟨hd, fun w hw => (hlt w hw).trans_le hn, hf⟩⟩

end

/-- The names of the writes on their way. -/
def MemPart.ids (p : MemPart) : List Nat := (p.pend ++ p.flight).map (·.id)

/-- Of the writes' names some are kept, and those that are new have not been given before; memory is as it was. -/
theorem MemPart.Kept.of_ids {p q : MemPart} (hmem : q.mem = p.mem) (hkeys : q.keys = p.keys) {n : Nat} (hn : q.nextId = p.nextId + n)
    (hids : q.ids.Subperm (p.ids ++ List.range' p.nextId n))
    (hf : p.WritesWf → ∀ w ∈ q.flight, w.tgt = .glob ∧ w.repl = false) : p.Kept q where
  memWf := by unfold MemWf; rw [hmem, hkeys]; exact id
  writesWf := fun hp => by
    obtain ⟨hd, hlt, -⟩ := id hp
    have hids_lt : ∀ i ∈ p.ids, i < p.nextId := by
      rintro i hi
      obtain ⟨v, hv, rfl⟩ := List.mem_map.mp hi
      exact hlt v hv
    have hall : (p.ids ++ List.range' p.nextId n).Nodup :=
      List.nodup_append.mpr ⟨hd, List.nodup_range', fun a ha b hb => by have := hids_lt a ha; simp at hb; omega⟩
    obtain ⟨l, hperm, hsub⟩ := id hids
    refine ⟨hperm.nodup_iff.mp (hall.sublist hsub), fun w hw => ?_, hf hp⟩
    have hw := hids.subset (List.mem_map_of_mem hw : w.id ∈ q.ids)
    rcases List.mem_append.mp hw with h | h
    · have := hids_lt _ h; omega
    · simp at h; omega

end Sys2Proof.Machine
end

section
/-!
SUPPORT. The operations that leave memory and the writes on their way as they are: one equation for each, in the order of the model.
-/
namespace Sys2Proof.Machine

/-- The state that a form's answer holds. -/
def Res.state : Res → State
  | .retire s => s
  | .placed s => s
  | .done s => s
  | .trap _ s => s
  | .wait _ s => s

@[simp] theorem Res.state_retire (s : State) : (Res.retire s).state = s := (rfl)
@[simp] theorem Res.state_placed (s : State) : (Res.placed s).state = s := (rfl)
@[simp] theorem Res.state_done (s : State) : (Res.done s).state = s := (rfl)
@[simp] theorem Res.state_trap (t : TrapInfo) (s : State) : (Res.trap t s).state = s := (rfl)
@[simp] theorem Res.state_wait (k : WaitOn) (s : State) : (Res.wait k s).state = s := (rfl)

@[simp] theorem State.modTeam_memPart (s : State) (t : Nat) (f : Team → Team) : (s.modTeam t f).memPart = s.memPart := (rfl)
@[simp] theorem State.modWarp_memPart (s : State) (t w : Nat) (f : Warp → Warp) : (s.modWarp t w f).memPart = s.memPart := (rfl)
@[simp] theorem State.modCcc_memPart (s : State) (t i : Nat) (f : Ccc → Ccc) : (s.modCcc t i f).memPart = s.memPart := (rfl)

@[simp] theorem State.modRegs_memPart (s : State) (u : UnitId) (f : Regs → Regs) : (s.modRegs u f).memPart = s.memPart := by
  unfold State.modRegs
  split <;> simp

@[simp] theorem State.modFrag_memPart (s : State) (c : Cur) (f : Frag → Frag) : (s.modFrag c f).memPart = s.memPart := by
  unfold State.modFrag
  split <;> simp

@[simp] theorem State.modSet_memPart (s : State) (n : Nat) (f : TSet → TSet) : (s.modSet n f).memPart = s.memPart := (rfl)
@[simp] theorem State.modCore_memPart (s : State) (c : Nat) (f : Core → Core) : (s.modCore c f).memPart = s.memPart := (rfl)
@[simp] theorem State.modCluster_memPart (s : State) (c : Nat) (f : Cluster → Cluster) : (s.modCluster c f).memPart = s.memPart := (rfl)
@[simp] theorem State.modDie_memPart (s : State) (d : Nat) (f : Die → Die) : (s.modDie d f).memPart = s.memPart := (rfl)

@[simp] theorem State.recheck_memPart (s0 s : State) (w : Write) (last : Bool) : (s0.recheck s w last).memPart = s.memPart := by
  unfold State.recheck
  dsimp only
  split <;> simp

@[simp] theorem State.setTile_memPart (s : State) (t ci tile : Nat) (e : Bool) : (s.setTile t ci tile e).memPart = s.memPart := (rfl)
@[simp] theorem State.setUse_memPart (s : State) (t ci tile n : Nat) : (s.setUse t ci tile n).memPart = s.memPart := (rfl)
@[simp] theorem State.setSp_memPart (s : State) (t ci off : Nat) (bs : List Byte) : (s.setSp t ci off bs).memPart = s.memPart := (rfl)

@[simp] theorem State.dropCaches_memPart (s : State) (core : Option Nat) (cl : Nat) : (s.dropCaches core cl).memPart = s.memPart := by
  unfold State.dropCaches
  split <;> simp

@[simp] theorem State.passed_memPart (s : State) (u : UnitId) (seq : Nat) (tgt : Target) (addr len : Nat) :
    (s.passed u seq tgt addr len).memPart = s.memPart := by simp [State.passed]

@[simp] theorem State.setVal_memPart (s : State) (u : UnitId) (seq lane : Nat) (bs : List Byte) (srcs : List Nat) :
    (s.setVal u seq lane bs srcs).memPart = s.memPart := by simp [State.setVal]

@[simp] theorem State.acqDrop_memPart (s : State) (u : UnitId) (seq : Nat) : (s.acqDrop u seq).memPart = s.memPart := by
  unfold State.acqDrop
  split <;> simp

@[simp] theorem State.fillLine_memPart (s : State) (u : UnitId) (o : Op) (k : Nat) (l : List Byte) :
    (s.fillLine u o k l).memPart = s.memPart := by
  unfold State.fillLine
  repeat' split
  all_goals simp

@[simp] theorem State.performLoad_memPart (s : State) (u : UnitId) (o : Op) (a3 : Acc) (fresh : Bool) :
    (s.performLoad u o a3 fresh).memPart = s.memPart := by
  unfold State.performLoad
  repeat' split
  all_goals simp

@[simp] theorem State.performed_memPart (s : State) (w : Write) : (s.performed w).memPart = s.memPart := by
  unfold State.performed
  split <;> simp

@[simp] theorem State.performedAt_memPart (s : State) (w : Write) (d : Nat) : (s.performedAt w d).memPart = s.memPart := by
  unfold State.performedAt
  split <;> simp

@[simp] theorem State.useBuf_memPart (s0 s : State) (t w : Nat) (marks named : List Nat) :
    (s0.useBuf s t w marks named).memPart = s.memPart := by
  unfold State.useBuf
  dsimp only
  repeat' split
  all_goals simp

@[simp] theorem State.writeBack_memPart (s : State) (u : UnitId) (o : Op) : (s.writeBack u o).memPart = s.memPart := by
  unfold State.writeBack
  repeat' split
  all_goals simp

@[simp] theorem State.uncount_memPart (s : State) (u : UnitId) (o : Op) : (s.uncount u o).memPart = s.memPart := by simp [State.uncount]
@[simp] theorem State.setRv_memPart (s : State) (t pt : Nat) (o : Rv) : (s.setRv t pt o).memPart = s.memPart := (rfl)
@[simp] theorem State.modTag_memPart (s : State) (t ci n : Nat) (f : Tag → Tag) : (s.modTag t ci n f).memPart = s.memPart := (rfl)

@[simp] theorem State.dequeue_memPart (s : State) (u : UnitId) (fid : Nat) : (s.dequeue u fid).memPart = s.memPart := by
  unfold State.dequeue
  dsimp only
  repeat' split
  all_goals simp

@[simp] theorem State.dequeueTeam_memPart (s : State) (t : Nat) : (s.dequeueTeam t).memPart = s.memPart := by
  unfold State.dequeueTeam
  split
  · rfl
  · exact State.foldl_memPart (fun _ _ => by simp) _ _

@[simp] theorem State.bumpAges_memPart (s0 s : State) (t w fid : Nat) : (s0.bumpAges s t w fid).memPart = s.memPart := (rfl)

@[simp] theorem State.settleIssue_memPart (s0 s : State) (c : Ctx) (i : Instr) : (s0.settleIssue s c i).memPart = s.memPart := by
  unfold State.settleIssue
  repeat' split
  all_goals simp

@[simp] theorem State.retire_memPart (s0 s : State) (c : Ctx) (i : Instr) : (s0.retire s c i).memPart = s.memPart := by simp [State.retire]

@[simp] theorem State.freezeWarp_memPart (s : State) (t wx : Nat) : (s.freezeWarp t wx).memPart = s.memPart := by
  unfold State.freezeWarp
  split
  · rfl
  · exact State.foldl_memPart (fun _ _ => by simp) _ _

@[simp] theorem State.ringAdvance_memPart (s : State) : s.ringAdvance.memPart = s.memPart := by
  unfold State.ringAdvance
  split <;> simp

@[simp] theorem State.ringHold_memPart (s : State) (src : RingSrc) (e : RingEnt) : (s.ringHold src e).memPart = s.memPart := by
  unfold State.ringHold
  dsimp only
  split <;> simp

@[simp] theorem State.freeze_memPart (s : State) (set : Nat) : (s.freeze set).memPart = s.memPart := by
  refine State.foldl_memPart (fun s t => ?_) _ _
  split
  · rfl
  · exact (State.foldl_memPart (fun _ _ => by simp) _ _).trans (by simp)

@[simp] theorem State.writeLanes_memPart (s : State) (u : UnitId) (dst n : Nat) (lm e : Lanes) (kp : Bool) (f : Nat → Nat) (fl : Word) :
    (s.writeLanes u dst n lm e kp f fl).memPart = s.memPart := by
  unfold State.writeLanes
  split <;> simp

@[simp] theorem State.writePred_memPart (s : State) (u : UnitId) (dst : Nat) (lm e : Lanes) (kp : Bool) (f : Nat → Bool) (fl : Word) :
    (s.writePred u dst lm e kp f fl).memPart = s.memPart := by
  unfold State.writePred
  split <;> simp

@[simp] theorem laneRun_memPart (i : Instr) (e : Env) (c : Ctx) (s : State) (strict : Bool) (ops : List (List OpRec)) (n : Nat)
    (f : Nat → Nat) (fl : Nat → Word) :
    (laneRun i e c s strict ops n f fl).state.memPart = s.memPart := by
  unfold laneRun
  split <;> simp

@[simp] theorem predRun_memPart (i : Instr) (e : Env) (c : Ctx) (s : State) (strict : Bool) (ops : List (List OpRec)) (f : Nat → Bool)
    (fl : Nat → Word) :
    (predRun i e c s strict ops f fl).state.memPart = s.memPart := by
  unfold predRun
  split <;> simp

@[simp] theorem State.setScal_memPart (s : State) (u : UnitId) (n : Nat) (v : List Word) :
    (s.setScal u n v).memPart = s.memPart := by simp [State.setScal]

@[simp] theorem vecRun_memPart (i : Instr) (e : Env) (c : Ctx) (s : State) (n : Nat) (m : Lanes) (f : Nat → Nat) (fl : Word) :
    (vecRun i e c s n m f fl).state.memPart = s.memPart := by
  simp [vecRun]

/-! ### Current, power and the lane forms (17_power; 10_lane_crossbar; 02_instruction_words R46) -/

@[simp] theorem State.curAsk_memPart (s : State) (cl : Nat) (who : Requester) (team tag left charge : Nat) :
    (s.curAsk cl who team tag left charge).memPart = s.memPart := (rfl)

@[simp] theorem State.curFree_memPart (s : State) (cl : Nat) (who : Requester) : (s.curFree cl who).memPart = s.memPart := (rfl)

@[simp] theorem State.curEnd_memPart (s : State) (cl : Nat) (who : Requester) (tag : Nat) :
    (s.curEnd cl who tag).memPart = s.memPart := (rfl)

@[simp] theorem State.curUse_memPart (s : State) (cl : Nat) (who : Requester) : (s.curUse cl who).memPart = s.memPart := (rfl)
@[simp] theorem State.currentGrant_memPart (s : State) (cl : Nat) : (s.currentGrant cl).memPart = s.memPart := (rfl)
@[simp] theorem State.reservationTimeout_memPart (s : State) (cl : Nat) : (s.reservationTimeout cl).memPart = s.memPart := (rfl)

@[simp] theorem State.budgetPeriod_memPart (s : State) (d : Nat) : (s.budgetPeriod d).memPart = s.memPart := by
  unfold State.budgetPeriod
  split
  · rfl
  · exact State.foldl_memPart (fun _ _ => by simp) _ _

@[simp] theorem State.gateBegin_memPart (s : State) (cl : Nat) : (s.gateBegin cl).memPart = s.memPart := by
  unfold State.gateBegin
  dsimp only
  split <;> simp

@[simp] theorem State.gateCommit_memPart (s : State) (cl : Nat) : (s.gateCommit cl).memPart = s.memPart := by
  unfold State.gateCommit
  split
  · split
    · rfl
    · rw [State.modCluster_memPart]
      exact State.foldl_memPart (fun _ _ => by simp) _ _
  · rfl

@[simp] theorem perfReqRun_memPart (w : PerfW) (e : Env) (c : Ctx) (s : State) : (perfReqRun w e c s).state.memPart = s.memPart := by
  unfold perfReqRun
  dsimp only
  repeat' split
  all_goals simp

@[simp] theorem shflRun_memPart (i : Instr) (w : XbW) (src : Nat → Nat → Option Nat) (e : Env) (c : Ctx) (s : State) :
    (shflRun i w src e c s).state.memPart = s.memPart := by
  unfold shflRun
  dsimp only
  split <;> simp

@[simp] theorem voteRun_memPart (i : Instr) (w : XbW) (all : Bool) (e : Env) (c : Ctx) (s : State) :
    (voteRun i w all e c s).state.memPart = s.memPart := by
  unfold voteRun
  dsimp only
  split <;> simp

@[simp] theorem voteBalRun_memPart (w : XbW) (e : Env) (c : Ctx) (s : State) : (voteBalRun w e c s).state.memPart = s.memPart := by
  unfold voteBalRun
  dsimp only
  split <;> simp

@[simp] theorem scanRun_memPart (op : XOp) (w : XbW) (e : Env) (c : Ctx) (s : State) : (scanRun op w e c s).state.memPart = s.memPart := by
  unfold scanRun
  dsimp only
  split <;> simp

@[simp] theorem redRun_memPart (op : XOp) (w : XbW) (e : Env) (c : Ctx) (s : State) : (redRun op w e c s).state.memPart = s.memPart := by
  unfold redRun
  dsimp only
  repeat' split
  all_goals simp

@[simp] theorem rebalRun_memPart (w : RebalW) (e : Env) (c : Ctx) (s : State) : (rebalRun w e c s).state.memPart = s.memPart := by
  unfold rebalRun
  dsimp only
  repeat' split
  all_goals simp

@[simp] theorem scalRun_memPart (n v : Nat) (e : Env) (c : Ctx) (s : State) : (scalRun n v e c s).state.memPart = s.memPart := by
  simp [scalRun]

@[simp] theorem sRdlRun_memPart (w : GenW) (e : Env) (c : Ctx) (s : State) : (sRdlRun w e c s).state.memPart = s.memPart := by
  unfold sRdlRun
  split <;> simp

@[simp] theorem vBcastRun_memPart (w : GenW) (e : Env) (c : Ctx) (s : State) : (vBcastRun w e c s).state.memPart = s.memPart := by
  unfold vBcastRun
  split <;> simp

@[simp] theorem State.writeSlot_memPart (s : State) (u : UnitId) (p : PSlot) (lm m : Lanes) (x : SlotEnv) :
    (s.writeSlot u p lm m x).memPart = s.memPart := by simp [State.writeSlot]

@[simp] theorem pairRun_memPart (ch : Bool) (a1 b : PSlot) (lm only : Lanes) (recs : List OpRec) (c : Ctx) (s : State) :
    (pairRun ch a1 b lm only recs c s).state.memPart = s.memPart := by
  unfold pairRun
  dsimp only
  repeat' split
  all_goals simp

@[simp] theorem State.spend_memPart (s : State) (cl t : Nat) (x : Requester × Nat) : (s.spend cl t x).memPart = s.memPart := by
  unfold State.spend
  repeat' split
  all_goals simp

@[simp] theorem State.vectorAsk_memPart (s : State) (i : Instr) : (s.vectorAsk i).memPart = s.memPart := by
  refine State.foldl_memPart (fun s x => ?_) _ _
  split <;> simp

@[simp] theorem State.vectorSpend_memPart (s : State) (cur : Cur) (i : Instr) (s' : State) :
    (s.vectorSpend cur i s').memPart = s'.memPart := by
  unfold State.vectorSpend
  dsimp only
  split
  · rfl
  · exact State.foldl_memPart (fun _ _ => by simp) _ _

/-! ### Control flow (13_control_flow) -/

@[simp] theorem yieldRun_memPart (c : Ctx) (s : State) : (yieldRun c s).state.memPart = s.memPart := by
  unfold yieldRun
  split <;> simp

@[simp] theorem yieldWRun_memPart (c : Ctx) (s : State) : (yieldWRun c s).state.memPart = s.memPart := by
  unfold yieldWRun
  split <;> simp

@[simp] theorem callRun_memPart (w : OffW) (c : Ctx) (s : State) : (callRun w c s).state.memPart = s.memPart := by
  unfold callRun
  dsimp only
  split <;> simp

@[simp] theorem retRun_memPart (c : Ctx) (s : State) : (retRun c s).state.memPart = s.memPart := by
  unfold retRun
  split <;> simp

@[simp] theorem State.fillSlots_memPart (s : State) (t w : Nat) : (s.fillSlots t w).memPart = s.memPart := (rfl)

@[simp] theorem State.endFrag_memPart (s : State) (c : Cur) : (s.endFrag c).memPart = s.memPart := by
  unfold State.endFrag
  split <;> simp

@[simp] theorem exitRun_memPart (c : Ctx) (s : State) : (exitRun c s).state.memPart = s.memPart := by
  unfold exitRun
  repeat' split
  all_goals simp

@[simp] theorem exitSpawnRun_memPart (w : SpawnW) (e : Env) (c : Ctx) (s : State) : (exitSpawnRun w e c s).state.memPart = s.memPart := by
  unfold exitSpawnRun
  dsimp only
  repeat' split
  all_goals simp

@[simp] theorem brxRun_memPart (w : BrxW) (e : Env) (c : Ctx) (s : State) : (brxRun w e c s).state.memPart = s.memPart := by
  unfold brxRun
  dsimp only
  repeat' split
  all_goals simp

@[simp] theorem jarmRun_memPart (w : JarmW) (c : Ctx) (s : State) : (jarmRun w c s).state.memPart = s.memPart := by
  unfold jarmRun
  repeat' split
  all_goals simp

@[simp] theorem State.joinGo_memPart (s : State) (t k m : Nat) (c : Ctx) : (s.joinGo t k m c).memPart = s.memPart := (rfl)

@[simp] theorem joinRun_memPart (m : BitVec 3) (c : Ctx) (s : State) : (joinRun m c s).state.memPart = s.memPart := by
  unfold joinRun
  dsimp only
  repeat' split
  all_goals simp

@[simp] theorem indRun_memPart (w : IndW) (call : Bool) (e : Env) (c : Ctx) (s : State) :
    (indRun w call e c s).state.memPart = s.memPart := by
  unfold indRun
  dsimp only
  repeat' split
  all_goals simp

@[simp] theorem State.fuse_memPart (s : State) (t w : Nat) : (s.fuse t w).memPart = s.memPart := by
  unfold State.fuse
  repeat' split
  all_goals simp

/-! ### Launch, copies, tags and ownership (14_execution_model R307 to R319; 05_copy_engine) -/

@[simp] theorem State.postRemote_memPart (s : State) (m : Nat) (a2 : DWord) (words : List Word) :
    (s.postRemote m a2 words).memPart = s.memPart := (rfl)

@[simp] theorem State.invalidateFor_memPart (s : State) (cl : Nat) (cores : List Nat) : (s.invalidateFor cl cores).memPart = s.memPart := by
  unfold State.invalidateFor
  exact State.foldl_memPart (fun _ _ => by simp) _ _

@[simp] theorem State.wake_memPart (s : State) (cl : Nat) : (s.wake cl).memPart = s.memPart := by
  unfold State.wake
  dsimp only
  split <;> simp

@[simp] theorem State.useTiles_memPart (s : State) (l : List (Nat × Nat × Nat)) : (s.useTiles l).memPart = s.memPart := by
  unfold State.useTiles
  exact State.foldl_memPart (fun _ _ => by simp) _ _

@[simp] theorem State.freeTiles_memPart (s : State) (l : List (Nat × Nat × Nat)) : (s.freeTiles l).memPart = s.memPart := by
  refine State.foldl_memPart (fun s x => ?_) _ _
  dsimp only; split <;> simp

@[simp] theorem State.modFrags_memPart (s : State) (t : Nat) (h : Frag → Frag) : (s.modFrags t h).memPart = s.memPart := (rfl)

@[simp] theorem State.endCopy_memPart (s : State) (t ci n : Nat) (k : Copy) (fault : Option (Nat × DWord)) :
    (s.endCopy t ci n k fault).memPart = s.memPart := by simp [State.endCopy]

@[simp] theorem State.copyAsk_memPart (s : State) (t : Nat) (k : Copy) (prog : Nat) : (s.copyAsk t k prog).memPart = s.memPart := by
  unfold State.copyAsk
  dsimp only
  split <;> simp

@[simp] theorem State.unitDone_memPart (s : State) (cl core : Nat) : (s.unitDone cl core).memPart = s.memPart := by
  unfold State.unitDone
  dsimp only
  split <;> simp

@[simp] theorem cpHaltRun_memPart (tag : BitVec 6) (c : Ctx) (s : State) : (cpHaltRun tag c s).state.memPart = s.memPart := by
  unfold cpHaltRun
  dsimp only
  repeat' split
  all_goals simp

@[simp] theorem cpGoRun_memPart (tag : BitVec 6) (c : Ctx) (s : State) : (cpGoRun tag c s).state.memPart = s.memPart := by
  unfold cpGoRun
  dsimp only
  repeat' split
  all_goals simp

@[simp] theorem tagEnd_memPart (found : List Nat) {s : State} {k : Res} (h : k.state.memPart = s.memPart) :
    (tagEnd found s k).state.memPart = s.memPart := by
  unfold tagEnd
  split
  · rfl
  · exact h

@[simp] theorem tagWanyRun_memPart (w : TagW) (e : Env) (c : Ctx) (s : State) : (tagWanyRun w e c s).state.memPart = s.memPart := by
  unfold tagWanyRun
  dsimp only
  repeat' split
  all_goals simp

@[simp] theorem tagWallRun_memPart (w : TagW) (e : Env) (c : Ctx) (s : State) : (tagWallRun w e c s).state.memPart = s.memPart := by
  unfold tagWallRun
  dsimp only
  repeat' split
  all_goals simp

@[simp] theorem tagFfrRun_memPart (w : TagW) (e : Env) (c : Ctx) (s : State) : (tagFfrRun w e c s).state.memPart = s.memPart := by
  unfold tagFfrRun
  split <;> simp

@[simp] theorem tagClrRun_memPart (w : TagW) (e : Env) (c : Ctx) (s : State) : (tagClrRun w e c s).state.memPart = s.memPart := by
  unfold tagClrRun
  dsimp only
  split
  · rfl
  · refine State.foldl_memPart (fun s x => ?_) _ _
    split <;> simp

@[simp] theorem tagRdRun_memPart (w : TagW) (e : Env) (c : Ctx) (s : State) : (tagRdRun w e c s).state.memPart = s.memPart := by
  unfold tagRdRun
  dsimp only
  repeat' split
  all_goals simp

@[simp] theorem ownGiveRun_memPart (w : OwnW) (e : Env) (c : Ctx) (s : State) : (ownGiveRun w e c s).state.memPart = s.memPart := by
  unfold ownGiveRun
  split
  · rfl
  · split
    · rfl
    · exact State.foldl_memPart (fun _ _ => by simp) _ _

@[simp] theorem ownTestRun_memPart (w : OwnW) (e : Env) (c : Ctx) (s : State) : (ownTestRun w e c s).state.memPart = s.memPart := by
  unfold ownTestRun
  split <;> simp

/-! ### The system forms and the endpoint (15_traps_preemption R329 to R353; 18_host_and_trust R394 to R407) -/

@[simp] theorem State.setFrame_memPart (s : State) (u : UnitId) (f : Frame) : (s.setFrame u f).memPart = s.memPart := by
  unfold State.setFrame
  split <;> simp

@[simp] theorem rqRdRun_memPart (w : RqW) (e : Env) (c : Ctx) (s : State) : (rqRdRun w e c s).state.memPart = s.memPart := by
  unfold rqRdRun
  dsimp only
  repeat' split
  all_goals simp

@[simp] theorem rqWrRun_memPart (w : RqW) (e : Env) (c : Ctx) (s : State) : (rqWrRun w e c s).state.memPart = s.memPart := by
  unfold rqWrRun
  dsimp only
  repeat' split
  all_goals simp

@[simp] theorem trapDropRun_memPart (w : DropW) (e : Env) (c : Ctx) (s : State) : (trapDropRun w e c s).state.memPart = s.memPart := by
  unfold trapDropRun
  dsimp only
  repeat' split
  all_goals simp

@[simp] theorem State.beginInval_memPart (s : State) (v : Inval) : (s.beginInval v).memPart = s.memPart := (rfl)

@[simp] theorem State.writeTinvc_memPart (s : State) (v : Word) (by_ : Option (UnitId × Nat)) (rq : Option PortReq) :
    (s.writeTinvc v by_ rq).memPart = s.memPart := by
  unfold State.writeTinvc
  split <;> simp

@[simp] theorem State.writeRri_memPart (s : State) (v : Word) : (s.writeRri v).memPart = s.memPart := by
  unfold State.writeRri
  split <;> simp

@[simp] theorem State.writeTkill_memPart (s : State) (v : Word) : (s.writeTkill v).memPart = s.memPart := by
  unfold State.writeTkill
  split
  · rfl
  · split
    · rfl
    · split
      · rfl
      · exact State.foldl_memPart (fun _ _ => by simp) _ _

@[simp] theorem State.csrSet_memPart (s : State) (n : Nat) (v : DWord) : (s.csrSet n v).memPart = s.memPart := by
  unfold State.csrSet
  repeat' split
  all_goals simp

@[simp] theorem csrWrRun_memPart (w : CsrW) (e : Env) (c : Ctx) (s : State) : (csrWrRun w e c s).state.memPart = s.memPart := by
  unfold csrWrRun
  repeat' split
  all_goals simp

@[simp] theorem State.retireInval_memPart (s : State) : s.retireInval.memPart = s.memPart := by
  unfold State.retireInval
  dsimp only
  repeat' split
  all_goals simp

@[simp] theorem State.reply_memPart (s : State) (r : PortReq) (err : Bool) (code : Nat) (data : optParam (List Byte) []) :
    (s.reply r err code data).memPart = s.memPart := (rfl)

@[simp] theorem State.sendPuts_memPart (s : State) : s.sendPuts.memPart = s.memPart := (rfl)

@[simp] theorem State.hostGet_memPart (s : State) (r : PortReq) (va : DWord) (len : Nat) : (s.hostGet r va len).memPart = s.memPart := by
  unfold State.hostGet
  dsimp only
  repeat' split
  all_goals simp

@[simp] theorem State.setMreg_memPart (s : State) (n : Nat) (v : DWord) : (s.setMreg n v).memPart = s.memPart := (rfl)

@[simp] theorem State.featLock_memPart (s : State) (v : DWord) : (s.featLock v).memPart = s.memPart := by
  unfold State.featLock
  split <;> simp

@[simp] theorem State.keyLoad_memPart (s : State) (v : DWord) (rq : Option PortReq) : (s.keyLoad v rq).memPart = s.memPart := by
  unfold State.keyLoad
  repeat' split
  all_goals simp

@[simp] theorem State.attest_memPart (s : State) (r : PortReq) (nonce : DWord) : (s.attest r nonce).memPart = s.memPart := (rfl)

@[simp] theorem State.mgmtWrite_memPart (s : State) (r : PortReq) (n : Nat) (v : DWord) : (s.mgmtWrite r n v).memPart = s.memPart := by
  unfold State.mgmtWrite
  repeat' split
  all_goals simp

@[simp] theorem State.mgmtRead_memPart (s : State) (r : PortReq) (n : Nat) : (s.mgmtRead r n).memPart = s.memPart := by
  unfold State.mgmtRead
  repeat' split
  all_goals simp

@[simp] theorem State.firmware_memPart (s : State) (f : FwImage) : (s.firmware f).memPart = s.memPart := by
  unfold State.firmware
  split <;> simp

/-! ### Counted operations and the matrix engine (06_consistency; 11_matrix_engine) -/

@[simp] theorem State.count_memPart (s : State) (c : Ctx) (i : Instr) (e : Env) (recs : List OpRec) (k : Cnt) :
    (s.count c i e recs k).memPart = s.memPart := by
  unfold State.count
  dsimp only
  split <;> simp

@[simp] theorem countRun_memPart (i : Instr) (e : Env) (c : Ctx) (s : State) (open_ : Bool) (chk : Nat → Except Nat Acc)
    (va : Nat → DWord) (m : Lanes) (acq rel : Option Scope) (plain : Bool) :
    (countRun i e c s open_ chk va m acq rel plain).state.memPart = s.memPart := by
  unfold countRun
  repeat' split
  all_goals simp

@[simp] theorem sLdRun_memPart (w : GmW) (e : Env) (c : Ctx) (s : State) : (sLdRun w e c s).state.memPart = s.memPart := by
  unfold sLdRun
  dsimp only
  repeat' split
  all_goals simp

@[simp] theorem ldSpTRun_memPart (w : LdtW) (e : Env) (c : Ctx) (s : State) : (ldSpTRun w e c s).state.memPart = s.memPart := by
  unfold ldSpTRun
  dsimp only
  repeat' split
  all_goals simp

@[simp] theorem fenceRun_memPart (sc : Scope) (c : Ctx) (s : State) : (fenceRun sc c s).state.memPart = s.memPart := by
  unfold fenceRun
  dsimp only
  repeat' split
  all_goals simp

@[simp] theorem State.modSlot_memPart (s : State) (t k : Nat) (f : Slot → Slot) : (s.modSlot t k f).memPart = s.memPart := (rfl)

@[simp] theorem slotRun_memPart (k : Nat) (f : Slot → Slot) (c : Ctx) (s : State) : (slotRun k f c s).state.memPart = s.memPart := by
  unfold slotRun
  dsimp only
  repeat' split
  all_goals simp

@[simp] theorem opStRun_memPart (w : OpStW) (e : Env) (c : Ctx) (s : State) : (opStRun w e c s).state.memPart = s.memPart := by
  unfold opStRun
  dsimp only
  repeat' split
  all_goals simp

@[simp] theorem mxFeedRun_memPart (w : FeedW) (e : Env) (c : Ctx) (s : State) : (mxFeedRun w e c s).state.memPart = s.memPart := by
  unfold mxFeedRun
  dsimp only
  repeat' split
  all_goals simp

@[simp] theorem acLdRun_memPart (w : AcLdW) (e : Env) (c : Ctx) (s : State) : (acLdRun w e c s).state.memPart = s.memPart := by
  unfold acLdRun
  dsimp only
  repeat' split
  all_goals simp

@[simp] theorem State.clearAcc_memPart (s : State) (t : Nat) (x : Nat × Nat × Nat) : (s.clearAcc t x).memPart = s.memPart := (rfl)

@[simp] theorem mxCfgRun_memPart (w : CfgW) (e : Env) (c : Ctx) (s : State) : (mxCfgRun w e c s).state.memPart = s.memPart := by
  unfold mxCfgRun
  dsimp only
  repeat' split
  all_goals simp

@[simp] theorem State.entryAsk_memPart (s : State) (cl : Nat) (who : Requester) : (s.entryAsk cl who).memPart = s.memPart := (rfl)
@[simp] theorem State.entryAsks_memPart (s : State) (cl : Nat) : (s.entryAsks cl).memPart = s.memPart := by simp [State.entryAsks]

@[simp] theorem State.endEnt_memPart (s : State) (cl : Nat) (x : REnt) : (s.endEnt cl x).memPart = s.memPart := by
  unfold State.endEnt
  dsimp only
  repeat' split
  all_goals simp

@[simp] theorem State.entryDrop_memPart (s : State) (cl : Nat) (who : Requester) : (s.entryDrop cl who).memPart = s.memPart := by
  unfold State.entryDrop
  split <;> simp

@[simp] theorem State.runPass_memPart (s : State) (x : REnt) : (s.runPass x).memPart = s.memPart := by
  unfold State.runPass
  repeat' split
  all_goals simp

@[simp] theorem State.passCompletion_memPart (s : State) (cl : Nat) : (s.passCompletion cl).memPart = s.memPart := by
  unfold State.passCompletion
  split <;> simp

@[simp] theorem State.scanCompletion_memPart (s : State) (cl : Nat) : (s.scanCompletion cl).memPart = s.memPart := by
  unfold State.scanCompletion
  dsimp only
  repeat' split
  all_goals simp

/-! ### Traversal (16_traversal) -/

@[simp] theorem State.blkPut_memPart (s : State) (b : Block) (o n v : Nat) : (s.blkPut b o n v).memPart = s.memPart := (rfl)
@[simp] theorem State.setStackSP_memPart (s : State) (b : Block) (l n : Nat) : (s.setStackSP b l n).memPart = s.memPart := (rfl)
@[simp] theorem State.hotPut_memPart (s : State) (b : Block) (l i : Nat) (e : SEnt) : (s.hotPut b l i e).memPart = s.memPart := (rfl)
@[simp] theorem State.modWalk_memPart (s : State) (t wx id : Nat) (f : Walk → Walk) : (s.modWalk t wx id f).memPart = s.memPart := (rfl)

@[simp] theorem State.stopLane_memPart (s : State) (t wx : Nat) (k : Walk) (l sk cause : Nat) :
    (s.stopLane t wx k l sk cause).memPart = s.memPart := (rfl)

@[simp] theorem State.faultLane_memPart (s : State) (t wx : Nat) (k : Walk) (l code : Nat) (va : DWord) (info : Word) :
    (s.faultLane t wx k l code va info).memPart = s.memPart := (rfl)

@[simp] theorem State.callLane_memPart (s : State) (t wx : Nat) (k : Walk) (l : Nat) (v : LaneInv) :
    (s.callLane t wx k l v).memPart = s.memPart := (rfl)

@[simp] theorem State.beginSettle_memPart (s : State) (t wx : Nat) (k : Walk) (l : Nat) (r : DWord) (e : SEnt) :
    (s.beginSettle t wx k l r e).memPart = s.memPart := (rfl)

@[simp] theorem State.startInv_memPart (s : State) (t wx : Nat) (k : Walk) (v : LaneInv) : (s.startInv t wx k v).memPart = s.memPart := by
  unfold State.startInv
  repeat' split
  all_goals simp

@[simp] theorem twNltRun_memPart (w : NltW) (e : Env) (c : Ctx) (s : State) : (twNltRun w e c s).state.memPart = s.memPart := by
  unfold twNltRun
  dsimp only
  repeat' split
  all_goals simp

@[simp] theorem State.askBlock_memPart (s : State) (t wx fid : Nat) (b : Block) : (s.askBlock t wx fid b).memPart = s.memPart := (rfl)
@[simp] theorem State.dropBlock_memPart (s : State) (t wx fid : Nat) : (s.dropBlock t wx fid).memPart = s.memPart := (rfl)

@[simp] theorem State.clearBlock_memPart (s : State) (b : Block) : (s.clearBlock b).memPart = s.memPart := by
  unfold State.clearBlock
  exact State.foldl_memPart (fun _ _ => by simp) _ _

@[simp] theorem twRetRun_memPart (w : TwRetW) (e : Env) (c : Ctx) (s : State) : (twRetRun w e c s).state.memPart = s.memPart := by
  unfold twRetRun
  dsimp only
  repeat' split
  all_goals simp

/-! ### Events, the end of traps and of teams, pre-emption (14_execution_model; 15_traps_preemption) -/

@[simp] theorem State.tlbFill_memPart (s : State) (node : Nat) (o : Byte) (va : VAddr) (lvl : Nat) (keep : Bool) :
    (s.tlbFill node o va lvl keep).memPart = s.memPart := by
  unfold State.tlbFill
  dsimp only
  repeat' split
  all_goals simp

@[simp] theorem State.releaseContext_memPart (s : State) (t w : Nat) : (s.releaseContext t w).memPart = s.memPart := (rfl)
@[simp] theorem State.swapFrag_memPart (s : State) (t w : Nat) : (s.swapFrag t w).memPart = s.memPart := (rfl)

@[simp] theorem State.resumeAt_memPart (s : State) (t wx : Nat) (fr : Frame) (past : Bool) :
    (s.resumeAt t wx fr past).memPart = s.memPart := (rfl)

@[simp] theorem State.endFid_memPart (s : State) (t w fid : Nat) : (s.endFid t w fid).memPart = s.memPart := (rfl)
@[simp] theorem State.endHandler_memPart (s : State) (t wx : Nat) : (s.endHandler t wx).memPart = s.memPart := (rfl)

@[simp] theorem State.endTrap_memPart (s : State) (t wx : Nat) (fr : Frame) (exiting stay : Bool) :
    (s.endTrap t wx fr exiting stay).memPart = s.memPart := by
  unfold State.endTrap
  split <;> simp

@[simp] theorem State.entryOff_memPart (s : State) (t wx q : Nat) : (s.entryOff t wx q).memPart = s.memPart := (rfl)
@[simp] theorem State.restore_memPart (s : State) (t wx : Nat) (exiting : Bool) : (s.restore t wx exiting).memPart = s.memPart := (rfl)
@[simp] theorem State.setStep_memPart (s : State) (t : Nat) (k : Step3) : (s.setStep t k).memPart = s.memPart := (rfl)

@[simp] theorem State.endSet_memPart (s : State) (id : Nat) (x : TSet) : (s.endSet id x).memPart = s.memPart := by
  unfold State.endSet
  dsimp only
  repeat' split
  all_goals simp

@[simp] theorem State.countDone_memPart (s : State) (grid n : Nat) : (s.countDone grid n).memPart = s.memPart := by
  unfold State.countDone
  split <;> simp

@[simp] theorem State.teamDone_memPart (s : State) (t : Nat) (x : Team) : (s.teamDone t x).memPart = s.memPart := by
  unfold State.teamDone
  dsimp only
  repeat' split
  all_goals simp

@[simp] theorem State.relend_memPart (s : State) (cl : Nat) : (s.relend cl).memPart = s.memPart := by
  unfold State.relend
  exact State.foldl_memPart (fun _ _ => by simp) _ _

@[simp] theorem State.saveAs_memPart (s : State) (t : Nat) (v : Save) : (s.saveAs t v).memPart = s.memPart := (rfl)

@[simp] theorem State.requestPreempt_memPart (s : State) (id cl : Nat) : (s.requestPreempt id cl).memPart = s.memPart := by
  unfold State.requestPreempt
  dsimp only
  repeat' split
  all_goals simp

@[simp] theorem State.setDh_memPart (s : State) (hit : Copy → Bool) (dh : Bool) : (s.setDh hit dh).memPart = s.memPart := (rfl)

/-! ### Scopes, rendezvous and turns (07_registers; 06_consistency R153 to R155; 14_execution_model R320) -/

@[simp] theorem rgnRun_memPart (w : RgnW) (c : Ctx) (s : State) : (rgnRun w c s).state.memPart = s.memPart := by
  unfold rgnRun
  split <;> simp

@[simp] theorem scopeOpenRun_memPart (n8 : BitVec 6) (c : Ctx) (s : State) : (scopeOpenRun n8 c s).state.memPart = s.memPart := by
  unfold scopeOpenRun
  dsimp only
  repeat' split
  all_goals simp

@[simp] theorem scopeCloseRun_memPart (c : Ctx) (s : State) : (scopeCloseRun c s).state.memPart = s.memPart := by
  unfold scopeCloseRun
  repeat' split
  all_goals simp

@[simp] theorem State.setTarget_memPart (s : State) (c : Ctx) (pt v : Nat) :
    (s.setTarget c pt v).memPart = s.memPart := by simp [State.setTarget]

@[simp] theorem rvWaitRun_memPart (w : RvW) (c : Ctx) (s : State) : (rvWaitRun w c s).state.memPart = s.memPart := by
  unfold rvWaitRun
  dsimp only
  repeat' split
  all_goals simp

@[simp] theorem arrival_memPart (w : RvW) (c : Ctx) (s : State) {k : State → Res} (h : ∀ s, (k s).state.memPart = s.memPart) :
    (arrival w c s k).state.memPart = s.memPart := by
  unfold arrival
  dsimp only
  repeat' split
  all_goals simp [h]

@[simp] theorem rvArriveRun_memPart (w : RvW) (c : Ctx) (s : State) : (rvArriveRun w c s).state.memPart = s.memPart :=
  arrival_memPart w c s fun _ => rfl

@[simp] theorem rvArrwRun_memPart (w : RvW) (c : Ctx) (s : State) : (rvArrwRun w c s).state.memPart = s.memPart := by
  unfold rvArrwRun
  split <;> simp

@[simp] theorem State.hold_memPart (s : State) (cur : Cur) : (s.hold cur).memPart = s.memPart := by simp [State.hold]
@[simp] theorem State.hint_memPart (s : State) (t w : Nat) (h : Header) : (s.hint t w h).memPart = s.memPart := (rfl)

@[simp] theorem State.hintAfter_memPart (s : State) (cur : Cur) (f : Frag) : (s.hintAfter cur f).memPart = s.memPart := by
  unfold State.hintAfter
  dsimp only
  repeat' split
  all_goals simp

@[simp] theorem State.fuseNow_memPart (s : State) (t w : Nat) : (s.fuseNow t w).memPart = s.memPart := by
  unfold State.fuseNow
  split <;> simp

@[simp] theorem State.asideDown_memPart (s : State) (core : Nat) : (s.asideDown core).memPart = s.memPart := by
  unfold State.asideDown
  exact State.foldl_memPart (fun _ _ => by simp) _ _

@[simp] theorem State.ageWarps_memPart (s : State) (l : List Cand) (c : Cand) : (s.ageWarps l c).memPart = s.memPart := by
  unfold State.ageWarps
  exact State.foldl_memPart (fun _ _ => by simp) _ _

@[simp] theorem State.tick_memPart (s : State) (cores clusters : List Nat) (n : Nat) : (s.tick cores clusters n).memPart = s.memPart := by
  unfold State.tick
  dsimp only
  rw [State.foldl_memPart (fun _ _ => by simp), State.foldl_memPart (fun _ _ => by simp), State.foldl_memPart (fun _ _ => by simp)]

@[simp] theorem State.evict_memPart (s : State) (cache : CacheKind) (node key : Nat) : (s.evict cache node key).memPart = s.memPart := by
  unfold State.evict
  split <;> simp

@[simp] theorem State.prefetch_memPart (s : State) (u : UnitId) (va : DWord) (l0 : Bool) : (s.prefetch u va l0).memPart = s.memPart := by
  unfold State.prefetch
  repeat' split
  all_goals simp

end Sys2Proof.Machine
end

section
/-!
SUPPORT. Memory and the writes on their way stay well formed: what is added to the writes, what is applied, what goes into memory
(03_memory_tiers R71; 06_consistency R133 to R146).
-/
namespace Sys2Proof.Machine

variable {p : MemPart} {s : State}

/-- A change of names and of writes that keeps both forms, from a state. -/
theorem MemPart.Kept.of_state {s' : State} (h : p.Kept s.memPart) (hmem : s'.mem = s.mem) (hkeys : s'.keys = s.keys) {n : Nat}
    (hn : s'.nextId = s.nextId + n) (hids : s'.memPart.ids.Subperm (s.memPart.ids ++ List.range' s.nextId n))
    (hf : s.WritesWf → ∀ w ∈ s'.flight, w.tgt = .glob ∧ w.repl = false) : p.Kept s'.memPart :=
  h.trans (.of_ids (p := s.memPart) (q := s'.memPart) hmem hkeys hn hids hf)

theorem State.ids_memPart (s : State) : s.memPart.ids = s.pend.map (·.id) ++ s.flight.map (·.id) := by
  simp [MemPart.ids, State.memPart]

@[simp] theorem State.leave_id (s : State) (w : Write) : (s.leave w).id = w.id := by unfold State.leave; split <;> rfl
@[simp] theorem State.leave_tgt (s : State) (w : Write) : (s.leave w).tgt = w.tgt := by unfold State.leave; split <;> rfl
@[simp] theorem State.leave_repl (s : State) (w : Write) : (s.leave w).repl = w.repl := by unfold State.leave; split <;> rfl

/-- A new write waits behind those on their way. -/
theorem MemPart.Kept.addWrite (h : p.Kept s.memPart) {w : Write} (hw : w.id = s.nextId) :
    p.Kept (State.memPart { s with pend := s.pend ++ [w], nextId := s.nextId + 1 }) := by
  refine h.of_state (n := 1) rfl rfl rfl ?_ fun hs => hs.2.2
  simp only [State.ids_memPart, List.map_append, List.map_cons, List.map_nil, hw, List.range'_one, List.append_assoc]
  exact (List.perm_append_comm.append_left _).subperm

@[simp] theorem State.addWrites_kept (h : p.Kept s.memPart) (ws : List Write) : p.Kept (s.addWrites ws).memPart := by
  refine h.foldl (fun s w hs => hs.addWrite ?_) ws
  split <;> simp

@[simp] theorem State.engineWrite_kept (h : p.Kept s.memPart) (w : Write) (bs : List Byte) : p.Kept (s.engineWrite w bs).memPart :=
  State.addWrites_kept h _

theorem map_id_map {l : List Write} {g : Write → Write} (hg : ∀ w ∈ l, (g w).id = w.id) :
    (l.map g).map (·.id) = l.map (·.id) := by
  rw [List.map_map]; exact List.map_congr_left hg

/-- A change of the waiting writes that keeps their names. -/
theorem MemPart.Kept.map_pend (h : p.Kept s.memPart) {g : Write → Write} (hg : ∀ w ∈ s.pend, (g w).id = w.id) :
    p.Kept (State.memPart { s with pend := s.pend.map g }) := by
  refine h.of_state (n := 0) rfl rfl rfl ?_ fun hs => hs.2.2
  simp [State.ids_memPart, map_id_map hg, List.Subperm.refl]

@[simp] theorem State.addParts_kept (h : p.Kept s.memPart) (ws : List Write) : p.Kept (s.addParts ws).memPart := by
  refine State.addWrites_kept (h.map_pend fun w _ => ?_) _
  split <;> rfl

/-- A change of the writes in coherence order that keeps their names and where they go. -/
theorem MemPart.Kept.map_flight (h : p.Kept s.memPart) {g : Write → Write} (hg : ∀ w ∈ s.flight, (g w).id = w.id ∧
      ((∀ v ∈ s.flight, v.tgt = .glob ∧ v.repl = false) → (g w).tgt = .glob ∧ (g w).repl = false)) :
    p.Kept (State.memPart { s with flight := s.flight.map g }) := by
  refine h.of_state (n := 0) rfl rfl rfl ?_ fun hs v hv => ?_
  · simp [State.ids_memPart, map_id_map fun w hw => (hg w hw).1, List.Subperm.refl]
  · obtain ⟨w, hw, rfl⟩ := List.mem_map.mp hv
    exact (hg w hw).2 hs.2.2

/-- Some writes are on their way no longer. -/
theorem MemPart.Kept.drop (h : p.Kept s.memPart) {s' : State} (hmem : s'.mem = s.mem) (hkeys : s'.keys = s.keys)
    (hn : s'.nextId = s.nextId) (hp : s'.pend.Sublist s.pend) (hf : s'.flight.Sublist s.flight) : p.Kept s'.memPart := by
  refine h.of_state (n := 0) hmem hkeys hn ?_ fun hs w hw => hs.2.2 w (hf.subset hw)
  simp only [State.ids_memPart, List.range'_zero, List.append_nil]
  exact ((hp.map _).append (hf.map _)).subperm

/-- A write goes into memory (03_memory_tiers R71). -/
theorem State.commit_kept (h : p.Kept s.memPart) (w : Write) (a : Nat) : p.Kept (s.commit w a).memPart :=
  h.trans ⟨fun hm => State.MemWf.commit (s := s) hm w a, id⟩

@[simp] theorem State.retireDone_kept (h : p.Kept s.memPart) : p.Kept s.retireDone.memPart := by
  refine h.foldl (fun s w hs => ?_) _
  dsimp only
  split
  · exact (commit_kept hs w w.addr).drop rfl rfl rfl (List.Sublist.refl _) List.filter_sublist
  · exact hs

/-- An indivisible update makes one new write, serialised at once, to global memory (04_caches_scratchpad R109). -/
theorem State.rmw_kept {w : Write} {n : Nat} {f : Nat → Nat} {r : State × List Byte × List Nat} (h : s.rmw w n f = some r) :
    s.memPart.Kept r.1.memPart := by
  unfold State.rmw at h
  dsimp only at h
  split at h
  · cases h
  · cases h
    rw [State.recheck_memPart]
    refine (MemPart.Kept.refl _).of_state (n := 1) rfl rfl rfl ?_ fun hs v hv => ?_
    · simp [State.ids_memPart, List.Subperm.refl]
    · rcases List.mem_append.mp hv with hv | hv
      · exact hs.2.2 v hv
      · rw [List.mem_singleton.mp hv]; exact ⟨rfl, rfl⟩

theorem subperm_filter_ne_append {l : List Nat} {a : Nat} (h : a ∈ l) : (l.filter (· != a) ++ [a]).Subperm l :=
  List.perm_append_comm.subperm.trans
    (List.cons_subperm_of_not_mem_of_mem (by simp) h List.filter_sublist.subperm)

theorem map_id_filter_ne (l : List Write) (n : Nat) :
    (l.filter (·.id != n)).map (·.id) = (l.map (·.id)).filter (· != n) := by
  rw [List.filter_map]; rfl

/-- Its home serialises a write (06_consistency R133). -/
theorem MemPart.Kept.serialise (h : p.Kept s.memPart) {w : Write} {n : Nat} (hw : n ∈ s.pend.map (·.id)) (hid : w.id = n)
    (htgt : w.tgt = .glob) (hrepl : w.repl = false) :
    p.Kept (State.memPart { s with pend := s.pend.filter (·.id != n), flight := s.flight ++ [w] }) := by
  refine h.of_state (n := 0) rfl rfl rfl ?_ fun hs v hv => ?_
  · simp only [State.ids_memPart, List.map_append, List.map_cons, List.map_nil, hid, map_id_filter_ne, List.range'_zero, List.append_nil]
    refine (List.perm_append_comm.append_left _).subperm.trans ?_
    rw [← List.append_assoc]
    exact (List.subperm_append_right _).mpr (subperm_filter_ne_append hw)
  · rcases List.mem_append.mp hv with hv | hv
    · exact hs.2.2 v hv
    · rw [List.mem_singleton.mp hv]; exact ⟨htgt, hrepl⟩

/-- A write's name is the one it was found by. -/
theorem find?_id {l : List Write} {n : Nat} {w : Write} (h : l.find? (·.id == n) = some w) : w ∈ l ∧ w.id = n :=
  ⟨List.mem_of_find?_eq_some h, by simpa using List.find?_some h⟩

theorem mem_ids_of_find? {l : List Write} {n : Nat} {w : Write} (h : l.find? (·.id == n) = some w) : n ∈ l.map (·.id) :=
  List.mem_map.mpr ⟨w, find?_id h⟩

/-- What `applyWrite` does to a write that waits: it goes into its tile, leaves its die, or is serialised. -/
theorem State.applyWrite_pend_kept (h : p.Kept s.memPart) {id : Nat} {w : Write} (hw : s.pend.find? (·.id == id) = some w) (d : Nat) :
    p.Kept (s.applyWrite id d).memPart := by
  unfold State.applyWrite
  rw [hw]
  dsimp only
  split
  · exact h
  · split
    · split
      · exact h
      · rw [State.performed_memPart]
        exact h.drop rfl rfl rfl List.filter_sublist (List.Sublist.refl _)
    · exact h
    · split
      · split
        · exact h
        · exact h.map_pend fun x _ => by split <;> simp
      · split
        · next hc =>
          rw [State.performedAt_memPart, State.recheck_memPart]
          exact h.serialise (mem_ids_of_find? hw) ((State.leave_id s w).trans (find?_id hw).2) (by simpa) (by simpa using hc.1)
        · exact h

/-- What `applyWrite` does to a write in coherence order: one more die has applied it, and once all have it goes into memory. -/
theorem State.applyWrite_flight_kept (h : p.Kept s.memPart) {id : Nat} (hw : s.pend.find? (·.id == id) = none) (d : Nat) :
    p.Kept (s.applyWrite id d).memPart := by
  unfold State.applyWrite
  rw [hw]
  dsimp only
  split
  · exact h
  · next w hf =>
    split
    · rw [State.performedAt_memPart]
      have hs : p.Kept (State.memPart { s with flight := s.flight.map fun x : Write => if x.id = id then { w with dies := d :: w.dies } else x }) := by
        refine h.map_flight fun x _ => ?_
        split
        · next hx => exact ⟨(find?_id hf).2.trans hx.symm, fun hg => hg w (find?_id hf).1⟩
        · exact ⟨rfl, fun hg => hg x ‹_›⟩
      split
      · exact State.retireDone_kept hs
      · exact hs
    · exact h

@[simp] theorem State.applyWrite_kept (h : p.Kept s.memPart) (id d : Nat) : p.Kept (s.applyWrite id d).memPart := by
  cases hw : s.pend.find? (·.id == id) with
  | some w => exact applyWrite_pend_kept h hw d
  | none => exact applyWrite_flight_kept h hw d

/-- A die locks the line of a replicated write (06_consistency R146). -/
@[simp] theorem State.replLock_kept (h : p.Kept s.memPart) (id d : Nat) : p.Kept (s.replLock id d).memPart := by
  unfold State.replLock
  split
  · exact h
  · next w hw =>
    dsimp only
    split
    · exact h
    · split
      · refine h.map_pend fun x _ => ?_
        split
        · next hx => exact (State.leave_id s w).trans ((find?_id hw).2.trans hx.symm)
        · rfl
      · exact h

theorem State.copyWrites_ids (s : State) (w : Write) (d : Nat) :
    (s.copyWrites w d).map (·.id) = List.range' s.nextId (s.copyWrites w d).length := by
  have h (l : List (Nat × List Byte)) : (l.zip (List.range l.length)).map (fun q => s.nextId + q.2) = List.range' s.nextId l.length := by
    rw [List.range'_eq_map_range, ← Function.comp_def (s.nextId + ·) Prod.snd, ← List.map_map, List.map_snd_zip (by simp)]
  simp [State.copyWrites, Function.comp_def, h]

/-- A die's copy takes the bytes of a replicated write (06_consistency R146): new writes, to global memory. -/
@[simp] theorem State.replUpdate_kept (h : p.Kept s.memPart) (id d : Nat) : p.Kept (s.replUpdate id d).memPart := by
  unfold State.replUpdate
  split
  · exact h
  · next w hw =>
    dsimp only
    split
    · exact h
    · rw [State.performedAt_memPart]
      refine State.retireDone_kept ?_
      rw [State.recheck_memPart]
      refine h.of_state (n := (s.copyWrites w d).length) rfl rfl rfl ?_ fun hs v hv => ?_
      · simp only [State.ids_memPart, List.map_append, State.copyWrites_ids, ← List.append_assoc]
        refine (List.subperm_append_right _).mpr ((List.subperm_append_right _).mpr ?_)
        split
        · exact (List.filter_sublist.map _).subperm
        · rw [map_id_map fun x _ => ?_]
          split
          · next hx => exact (find?_id hw).2.trans hx.symm
          · rfl
      · rcases List.mem_append.mp hv with hv | hv
        · exact hs.2.2 v hv
        · obtain ⟨q, -, rfl⟩ := List.mem_map.mp hv
          exact ⟨rfl, rfl⟩

/-- A new key takes what was written under the old one (18_host_and_trust R405). -/
@[simp] theorem State.keyInstall_kept (h : p.Kept s.memPart) : p.Kept s.keyInstall.memPart := by
  refine h.trans ⟨fun hm => State.MemWf.keyInstall (s := s) hm, fun hs => ?_⟩
  have hk : s.keyInstall.pend = s.pend ∧ s.keyInstall.flight = s.flight ∧ s.nextId ≤ s.keyInstall.nextId := by
    unfold State.keyInstall
    dsimp only
    split
    · exact ⟨rfl, rfl, Nat.le_refl _⟩
    · split <;> exact ⟨rfl, rfl, Nat.le_succ _⟩
  obtain ⟨hp, hf, hn⟩ := hk
  obtain ⟨hd, hlt, hg⟩ := hs
  exact ⟨by rw [State.memPart, hp, hf]; exact hd, by rw [State.memPart, hp, hf]; exact fun w hw => (hlt w hw).trans_le hn,
    by rw [State.memPart, hf]; exact hg⟩

/-- Module reset leaves no write. -/
theorem State.moduleReset_kept (h : p.Kept s.memPart) : p.Kept s.moduleReset.memPart :=
  h.trans ⟨fun hm => State.MemWf.moduleReset (s := s) hm, fun _ => ⟨List.nodup_nil, nofun, nofun⟩⟩

end Sys2Proof.Machine
end

section
/-!
SUPPORT. Counted operations, traps and the issue of an instruction keep memory and the writes on their way well formed
(02_instruction_words R24 to R33; 15_traps_preemption R328 to R347).
-/
namespace Sys2Proof.Machine

/-- What an operation that may have no result keeps where it has one. -/
def MemPart.KeptIf (p : MemPart) (o : Option State) : Prop := ∀ s, o = some s → p.Kept s.memPart

variable {p : MemPart} {s : State}

@[simp] theorem MemPart.keptIf_none : p.KeptIf none := nofun

@[simp] theorem MemPart.keptIf_some : p.KeptIf (some s) ↔ p.Kept s.memPart := ⟨fun h => h s rfl, fun h _ e => by cases e; exact h⟩

theorem MemPart.KeptIf.getD {o : Option State} (ho : p.KeptIf o) (h : p.Kept s.memPart) : p.Kept (o.getD s).memPart := by
  cases o with
  | none => exact h
  | some t => exact ho t rfl

theorem MemPart.KeptIf.bind {o : Option State} (ho : p.KeptIf o) {g : State → Option State}
    (hg : ∀ s, p.Kept s.memPart → p.KeptIf (g s)) : p.KeptIf (o.bind g) := by
  cases o with
  | none => exact keptIf_none
  | some t => exact hg t (ho t rfl)

theorem MemPart.KeptIf.map {o : Option State} (ho : p.KeptIf o) {g : State → State}
    (hg : ∀ s, p.Kept s.memPart → p.Kept (g s).memPart) : p.KeptIf (o.map g) := by
  cases o with
  | none => exact keptIf_none
  | some t => exact keptIf_some.mpr (hg t (ho t rfl))

theorem MemPart.KeptIf.foldl {α : Type} {g : State → α → Option State} (hg : ∀ s a, p.Kept s.memPart → p.KeptIf (g s a)) (l : List α)
    {o : Option State} (ho : p.KeptIf o) : p.KeptIf (l.foldl (fun r a => r.bind fun s => g s a) o) := by
  induction l generalizing o with
  | nil => exact ho
  | cons a l ih => exact ih (ho.bind fun s hs => hg s a hs)

theorem State.performAtomic_kept (h : p.Kept s.memPart) (u : UnitId) (o : Op) (op : AOp) (sz : BitVec 3) (a : Acc) :
    p.KeptIf (s.performAtomic u o op sz a) := by
  unfold State.performAtomic
  dsimp only
  split
  · simp [h]
  · exact MemPart.keptIf_none
  · intro s' hs
    obtain ⟨r, hr, rfl⟩ := Option.map_eq_some_iff.mp hs
    simpa using h.trans (rmw_kept hr)

theorem State.performLane_kept (h : p.Kept s.memPart) (u : UnitId) (seq lane : Nat) (fresh : Bool) :
    p.KeptIf (s.performLane u seq lane fresh) := by
  unfold State.performLane
  split
  · exact MemPart.keptIf_none
  · split
    · exact MemPart.keptIf_none
    · split
      · exact MemPart.keptIf_none
      · split
        · simp [h]
        · refine MemPart.KeptIf.map ?_ fun s hs => ?_
          · split
            · exact performAtomic_kept h _ _ _ _ _
            · exact MemPart.keptIf_none
            · rw [MemPart.keptIf_some, State.foldl_memPart fun _ _ => by simp]
              simpa using h
          · rw [State.acqDrop_memPart, State.foldl_memPart fun _ _ => by simp]
            exact hs

theorem State.performOp_kept (h : p.Kept s.memPart) (u : UnitId) (seq : Nat) (fresh : Bool) : p.KeptIf (s.performOp u seq fresh) := by
  unfold State.performOp
  split
  · exact MemPart.keptIf_none
  · intro s' hs
    refine MemPart.KeptIf.foldl (fun s a hs => ?_) _ (MemPart.keptIf_some.mpr h) s' (Option.filter_eq_some_iff.mp hs).1
    split
    · exact MemPart.keptIf_some.mpr hs
    · exact performLane_kept hs _ _ _ _

theorem State.complete_kept (h : p.Kept s.memPart) (u : UnitId) (seq : Nat) (fresh : Bool) : p.KeptIf (s.complete u seq fresh) := by
  unfold State.complete
  split
  · exact MemPart.keptIf_none
  · next s1 hs =>
    have h1 := performOp_kept h u seq fresh s1 hs
    split
    · exact MemPart.keptIf_none
    · dsimp only
      split
      · exact MemPart.keptIf_none
      · split <;> simp [h1]

theorem State.completeRest_kept (h : p.Kept s.memPart) (u : UnitId) (limit : Nat) : p.KeptIf (s.completeRest u limit) := by
  unfold State.completeRest
  split
  · simpa using h
  · exact MemPart.KeptIf.foldl (fun s o hs => complete_kept hs _ _ _) _ (MemPart.keptIf_some.mpr h)

theorem State.settle_kept {t w limit : Nat} {r : State × List Entry} (hr : s.settle t w limit = some r) : s.memPart.Kept r.1.memPart := by
  obtain ⟨s1, h1, rfl⟩ := Option.map_eq_some_iff.mp hr
  have h := completeRest_kept (.refl _) _ _ s1 h1
  split
  · exact h
  · rw [State.foldl_memPart fun _ _ => by simp]
    exact h

@[simp] theorem State.ringWrite_kept (h : p.Kept s.memPart) (src : RingSrc) (e : RingEnt) : p.Kept (s.ringWrite src e).memPart := by
  simp [State.ringWrite, h]

@[simp] theorem State.ringPut_kept (h : p.Kept s.memPart) (src : RingSrc) (e : RingEnt) : p.Kept (s.ringPut src e).memPart := by
  unfold State.ringPut
  split
  · split <;> simp [h]
  · split <;> simp [h]

@[simp] theorem State.escalate_kept (h : p.Kept s.memPart) (t w kind code : Nat) (rpc : DWord) (rsl : Nat) (tf : Lanes) :
    p.Kept (s.escalate t w kind code rpc rsl tf).memPart := by
  simp [State.escalate, h]

@[simp] theorem State.cccTrap_kept (h : p.Kept s.memPart) (t i kind : Nat) (tf : Lanes) (r : CTrap) :
    p.Kept (s.cccTrap t i kind tf r).memPart := by
  simp [State.cccTrap, h]

theorem State.takeTrap_kept (h : p.Kept s.memPart) (t w fid : Nat) (i : Option Instr) (ti : TrapInfo) (ents : List Entry) :
    p.KeptIf (s.takeTrap t w fid i ti ents) := by
  unfold State.takeTrap
  split
  · exact MemPart.keptIf_none
  · split
    · exact MemPart.keptIf_none
    · dsimp only
      split
      · exact MemPart.keptIf_none
      · next s1 set hs =>
        have h1 := h.trans (settle_kept hs)
        split
        · exact MemPart.keptIf_none
        · split
          · simp [h1]
          · split <;> simp [h1]

@[simp] theorem State.trapNow_kept (h : p.Kept s.memPart) (c : Ctx) (i : Instr) (ti : TrapInfo) : p.Kept (s.trapNow c i ti).memPart := by
  unfold State.trapNow
  split
  · exact (takeTrap_kept h _ _ _ _ _ _).getD (by simpa using h)
  · exact cccTrap_kept h ..

theorem finish_kept {r : Res} (h : p.Kept r.state.memPart) (s : State) (c : Ctx) (i : Instr) : p.Kept (finish s c i r).memPart := by
  cases r with
  | retire | placed | done | wait => simpa [finish] using h
  | trap => exact State.trapNow_kept h _ _ _

/-- A step or an instruction that keeps both forms wherever it goes on. -/
def MemPart.KeptBy (p : MemPart) (o : Host.Outcome State Fault Refusal) : Prop := ∀ s, o = .next s → p.Kept s.memPart

@[simp] theorem MemPart.keptBy_next : p.KeptBy (.next s) ↔ p.Kept s.memPart := ⟨fun h => h s rfl, fun h _ e => by cases e; exact h⟩
@[simp] theorem MemPart.keptBy_fault (r : Fault) : p.KeptBy (.fault r) := nofun
@[simp] theorem MemPart.keptBy_refused (r : Refusal) : p.KeptBy (.refused r) := nofun

/-- An instruction keeps the forms if its body does. -/
theorem issue_kept (h : p.Kept s.memPart) {i : Instr} {body : Ctx → State → Res} (hb : ∀ c, p.Kept (body c s).state.memPart) :
    p.KeptBy (issue s i body) := by
  unfold issue
  split
  · exact MemPart.keptBy_fault _
  · split
    · simp [h]
    · exact MemPart.keptBy_next.mpr (finish_kept (hb _) _ _ _)

end Sys2Proof.Machine
end

section
/-!
SUPPORT. The forms that copy, post, store and launch, and the events of launches, copies, the host and the engines, keep memory and
the writes on their way well formed.
-/
namespace Sys2Proof.Machine

variable {p : MemPart} {s : State}

@[simp] theorem State.joinQueue_kept (h : p.Kept s.memPart) (mbox : Option Nat) (owner : Byte) (va : DWord) (pk : List DWord)
    (args : List Word) (refused : Option Nat) : p.Kept (s.joinQueue mbox owner va pk args refused).memPart :=
  h.nextId (Nat.le_succ _) ..

@[simp] theorem State.refuseGrid_kept (h : p.Kept s.memPart) (mbox : Option Nat) (owner : Byte) (va : DWord) (pk : List DWord) (code : Nat) :
    p.Kept (s.refuseGrid mbox owner va pk code).memPart := by
  unfold State.refuseGrid
  split <;> simp [h]

@[simp] theorem State.refuseNext_kept (h : p.Kept s.memPart) : p.Kept s.refuseNext.memPart := by
  unfold State.refuseNext
  split
  · exact h
  · exact ringPut_kept (by simpa using h) ..

/-- What becomes of a message, wherever it changes the state. -/
def Posted.state? : Posted → Option State
  | .noCredit => none
  | .waits => none
  | .refused s => some s
  | .launched s => some s

theorem State.postLocal_kept (h : p.Kept s.memPart) (m : Nat) (owner : Byte) (words : List Word) :
    p.KeptIf (s.postLocal m owner words).state? := by
  unfold State.postLocal
  split
  · exact MemPart.keptIf_none
  · dsimp only
    split
    · exact MemPart.keptIf_none
    · split
      · exact MemPart.keptIf_some.mpr (joinQueue_kept h ..)
      · exact MemPart.keptIf_some.mpr (refuseGrid_kept h ..)

theorem State.kept_of_refused (h : p.Kept s.memPart) {m : Nat} {owner : Byte} {words : List Word} {s' : State}
    (hs : s.postLocal m owner words = .refused s') : p.Kept s'.memPart :=
  postLocal_kept h m owner words s' (by rw [hs]; rfl)

theorem State.kept_of_launched (h : p.Kept s.memPart) {m : Nat} {owner : Byte} {words : List Word} {s' : State}
    (hs : s.postLocal m owner words = .launched s') : p.Kept s'.memPart :=
  postLocal_kept h m owner words s' (by rw [hs]; rfl)

theorem releaseThen_kept (h : p.Kept s.memPart) (c : Ctx) {k : State → Res} (hk : p.Kept (k s).state.memPart) :
    p.Kept (releaseThen c s k).state.memPart := by
  unfold releaseThen
  dsimp only
  repeat' split
  all_goals simp [h, hk]

theorem mbxPostRun_kept (h : p.Kept s.memPart) (w : PostW) (e : Env) (c : Ctx) : p.Kept (mbxPostRun w e c s).state.memPart := by
  unfold mbxPostRun
  dsimp only
  split
  · exact h
  · split
    · exact h
    · split
      · exact h
      · refine releaseThen_kept h c ?_
        split
        · simpa using h
        · split
          · simpa using h
          · exact h
          · next hs => simpa using State.kept_of_refused h hs
          · next hs => simpa using State.kept_of_launched h hs

@[simp] theorem State.hostMessage_kept (h : p.Kept s.memPart) (r : PortReq) (va : DWord) (args : List Word) :
    p.Kept (s.hostMessage r va args).memPart := by
  unfold State.hostMessage
  split
  · simpa using h
  · split
    · simpa using h
    · split
      · simpa using h
      · exact h
      · next hs => simpa using kept_of_refused h hs
      · next hs => simpa using kept_of_launched h hs

@[simp] theorem State.place_kept (h : p.Kept s.memPart) (die : Nat) : p.Kept (s.place die).memPart := by
  unfold State.place
  split
  · exact h
  · dsimp only
    split
    · exact h
    · exact h.nextId (Nat.le_succ _) ..

theorem State.moveRuns_kept (h : p.Kept s.memPart) (m : Nat × Nat × List Nat) : p.KeptIf (s.moveRuns m) := by
  unfold State.moveRuns
  split
  · dsimp only
    split <;> simp [h]
  · exact MemPart.keptIf_none

theorem State.placeSet_kept (h : p.Kept s.memPart) (id cl : Nat) (plan : List Admit) : p.KeptIf (s.placeSet id cl plan) := by
  unfold State.placeSet
  split
  · exact MemPart.keptIf_none
  · split
    · split
      · exact MemPart.keptIf_none
      · dsimp only
        refine (MemPart.KeptIf.foldl (fun s x hs => ?_) _ (MemPart.keptIf_some.mpr h)).map fun s hs => ?_
        · refine (MemPart.KeptIf.foldl (fun s m hs => moveRuns_kept hs m) _ (MemPart.keptIf_some.mpr hs)).bind fun s hs => ?_
          split <;> simp [hs]
        · exact MemPart.Kept.nextId (by simpa using hs) (Nat.le_succ _) ..
    · exact MemPart.keptIf_none

theorem cpRun_kept (h : p.Kept s.memPart) (w : CpW) (sub : Nat) (e : Env) (c : Ctx) : p.Kept (cpRun w sub e c s).state.memPart := by
  unfold cpRun
  dsimp only
  split
  · exact h
  · split
    · exact h
    · split
      · exact h
      · simp only [Res.state_retire, State.useTiles_memPart, State.modTag_memPart]
        exact MemPart.Kept.nextId (by simpa using h) (Nat.le_succ s.nextId) ..

theorem State.unitGo_kept (h : p.Kept s.memPart) (t : Nat) (k : Copy) (u : Nat) (ls : List (Nat × Leaf)) :
    p.Kept (s.unitGo t k u ls).1.memPart := by
  unfold State.unitGo
  dsimp only
  repeat' split
  all_goals simp [h]

@[simp] theorem State.copyUnit_kept (h : p.Kept s.memPart) (t ci n : Nat) : p.Kept (s.copyUnit t ci n).memPart := by
  unfold State.copyUnit
  dsimp only
  repeat' split
  all_goals simp [h, unitGo_kept]

theorem State.makePost_kept (h : p.Kept s.memPart) (t : Nat) (x : CPost) : p.KeptIf (s.makePost t x) := by
  have hfail (cl : Nat) : p.KeptIf (if s.ringBusy (.cpe cl) then none else some (s.postFailed t x)) := by
    split
    · exact MemPart.keptIf_none
    · exact MemPart.keptIf_some.mpr (ringPut_kept h ..)
  unfold State.makePost
  dsimp only
  split
  · exact MemPart.keptIf_none
  · split
    · exact hfail _
    · split
      · simpa using h
      · split
        · exact hfail _
        · exact MemPart.keptIf_none
        · next hs => simpa using kept_of_refused h hs
        · next hs => simpa using kept_of_launched h hs

@[simp] theorem State.copyCompletion_kept (h : p.Kept s.memPart) (t ci n : Nat) : p.Kept (s.copyCompletion t ci n).memPart := by
  unfold State.copyCompletion
  split
  · exact ((makePost_kept h _ _).map fun s hs => by simpa using hs).getD h
  · split
    · exact h
    · split
      · exact h
      · dsimp only
        split
        · exact h
        · split <;> simp [h]

theorem ringPostRun_kept (h : p.Kept s.memPart) (w : RPostW) (e : Env) (c : Ctx) : p.Kept (ringPostRun w e c s).state.memPart := by
  unfold ringPostRun
  refine releaseThen_kept h c ?_
  split <;> simp [h]

theorem haltRun_kept (h : p.Kept s.memPart) (c : Ctx) : p.Kept (haltRun c s).state.memPart := by
  unfold haltRun
  dsimp only
  split <;> simp [h]

@[simp] theorem State.drainRing_kept (h : p.Kept s.memPart) (src : RingSrc) : p.Kept (s.drainRing src).memPart := by
  unfold State.drainRing
  split
  · split <;> simp [h]
  · split
    · split <;> simp [h]
    · dsimp only
      split <;> simp [h]

@[simp] theorem State.hostPut_kept (h : p.Kept s.memPart) (r : PortReq) (va : DWord) (bytes : List Byte) :
    p.Kept (s.hostPut r va bytes).memPart := by
  unfold State.hostPut
  split
  · simpa using h
  · dsimp only
    split
    · exact h
    · split
      · simpa using h
      · simpa using addParts_kept (h.nextId (Nat.le_succ _) ..) _

@[simp] theorem State.store_kept (h : p.Kept s.memPart) (u : UnitId) (n : Nat) (e : Env) (accs : List Acc) (rel : Option Scope) :
    p.Kept (s.store u n e accs rel).memPart := by
  unfold State.store
  split <;> simp [h]

theorem storeRun_kept (h : p.Kept s.memPart) (e : Env) (c : Ctx) (op : Bool) (chk : Nat → Except Nat Acc) (va : Nat → DWord) (n : Nat)
    (m : Lanes) (rel : Option Scope) : p.Kept (storeRun e c s op chk va n m rel).state.memPart := by
  unfold storeRun
  split
  · exact h
  · split <;> simp [h]

theorem entryIssue_kept (h : p.Kept s.memPart) (i : Instr) (caps : List Word) (tiles : List (Nat × Nat × Nat)) (c : Ctx) :
    p.Kept (entryIssue i caps tiles c s).state.memPart := by
  unfold entryIssue
  split
  · exact h
  · dsimp only
    generalize hq : (if (s.cluster (s.clusterOf c.cur.unit)).entryQ.contains c.cur.unit then s else _ : State) = s1
    have h1 : p.Kept s1.memPart := by
      rw [← hq]
      split <;> simp [h]
    split
    · simpa using h1
    · rw [Res.state_retire, State.useTiles_memPart]
      split
      · rw [State.modFrag_memPart]
        exact MemPart.Kept.nextId (by simpa using h1) (Nat.le_succ s1.nextId) ..
      · exact MemPart.Kept.nextId (by simpa using h1) (Nat.le_succ s1.nextId) ..

theorem entryForm_kept (h : p.Kept s.memPart) (i : Instr) (check : State → List Word → Option TrapInfo)
    (tiles : State → List Word → List (Nat × Nat × Nat)) (e : Env) (c : Ctx) : p.Kept (entryForm i check tiles e c s).state.memPart := by
  unfold entryForm
  dsimp only
  split
  · exact entryIssue_kept h ..
  · split
    · exact h
    · exact entryIssue_kept h ..

theorem acClrRun_kept (h : p.Kept s.memPart) (w : AcClrW) (e : Env) (c : Ctx) : p.Kept (acClrRun w e c s).state.memPart := by
  unfold acClrRun
  dsimp only
  split
  · exact entryForm_kept h ..
  · repeat' split
    all_goals simp [h]

@[simp] theorem State.grantEnt_kept (h : p.Kept s.memPart) (cl : Nat) (x : REnt) : p.Kept (s.grantEnt cl x).memPart := by
  unfold State.grantEnt
  dsimp only
  split
  · simpa using h
  · exact MemPart.Kept.nextId (by simpa using h) (Nat.le_succ _) ..

@[simp] theorem State.entryGrant_kept (h : p.Kept s.memPart) (cl : Nat) : p.Kept (s.entryGrant cl).memPart := by
  unfold State.entryGrant
  dsimp only
  split
  · simpa using h
  · split <;> simp [h]

@[simp] theorem State.takeGrantFault_kept (h : p.Kept s.memPart) (t i : Nat) : p.Kept (s.takeGrantFault t i).memPart := by
  unfold State.takeGrantFault
  repeat' split
  all_goals simp [h]

end Sys2Proof.Machine
end

section
/-!
SUPPORT. The traversal engine and its forms keep memory and the writes on their way well formed (16_traversal R367 to R381).
-/
namespace Sys2Proof.Machine

/-- What a step of the engine keeps where it does not stop. -/
def MemPart.KeptOk (p : MemPart) (x : Except EngStop State) : Prop := ∀ s, x = .ok s → p.Kept s.memPart

variable {p : MemPart} {s : State}

@[simp] theorem MemPart.keptOk_error (e : EngStop) : p.KeptOk (.error e) := nofun

@[simp] theorem MemPart.keptOk_ok : p.KeptOk (.ok s) ↔ p.Kept s.memPart := ⟨fun h => h s rfl, fun h _ e => by cases e; exact h⟩

/-- What is read first changes nothing. -/
theorem MemPart.keptOk_bind {α : Type} (x : Except EngStop α) {g : α → Except EngStop State} (hg : ∀ a, p.KeptOk (g a)) :
    p.KeptOk (x.bind g) := by
  cases x with
  | error e => exact keptOk_error e
  | ok a => exact hg a

theorem MemPart.keptOk_map {α : Type} (x : Except EngStop α) {g : α → State} (hg : ∀ a, p.Kept (g a).memPart) : p.KeptOk (x.map g) := by
  cases x with
  | error e => exact keptOk_error e
  | ok a => exact keptOk_ok.mpr (hg a)

theorem MemPart.KeptOk.bind {x : Except EngStop State} (hx : p.KeptOk x) {g : State → Except EngStop State}
    (hg : ∀ s, p.Kept s.memPart → p.KeptOk (g s)) : p.KeptOk (x.bind g) := by
  cases x with
  | error e => exact keptOk_error e
  | ok a => exact hg a (hx a rfl)

theorem MemPart.KeptOk.map {x : Except EngStop State} (hx : p.KeptOk x) {g : State → State}
    (hg : ∀ s, p.Kept s.memPart → p.Kept (g s).memPart) : p.KeptOk (x.map g) := by
  cases x with
  | error e => exact keptOk_error e
  | ok a => exact keptOk_ok.mpr (hg a (hx a rfl))

theorem MemPart.KeptOk.foldl {α : Type} {g : State → α → Except EngStop State} (hg : ∀ s a, p.Kept s.memPart → p.KeptOk (g s a))
    (l : List α) {x : Except EngStop State} (hx : p.KeptOk x) : p.KeptOk (l.foldl (fun r a => r.bind fun s => g s a) x) := by
  induction l generalizing x with
  | nil => exact hx
  | cons a l ih => exact ih (hx.bind fun s hs => hg s a hs)

theorem MemPart.KeptOk.foldlM {α : Type} {g : State → α → Except EngStop State} (hg : ∀ s a, p.Kept s.memPart → p.KeptOk (g s a))
    (l : List α) (h : p.Kept s.memPart) : p.KeptOk (l.foldlM g s) := by
  induction l generalizing s with
  | nil => exact keptOk_ok.mpr h
  | cons a l ih =>
    rw [List.foldlM_cons]
    exact (hg s a h).bind fun s hs => ih hs

@[simp] theorem State.engWrite_kept (h : p.Kept s.memPart) (u : UnitId) (va : DWord) (l : Leaf) (bs : List Byte) :
    p.Kept (s.engWrite u va l bs).memPart :=
  engineWrite_kept h _ _

theorem State.push_kept (h : p.Kept s.memPart) (u : UnitId) (since : Nat) (b : Block) (l : Nat) (e : SEnt) :
    p.KeptOk (s.push u since b l e) := by
  unfold State.push
  dsimp only
  refine MemPart.KeptOk.map ?_ fun s hs => by simpa using hs
  split
  · exact MemPart.keptOk_ok.mpr h
  · exact MemPart.keptOk_map _ fun f => engWrite_kept h ..

theorem State.pop_kept (h : p.Kept s.memPart) (u : UnitId) (since : Nat) (b : Block) (l : Nat) : p.KeptOk (s.pop u since b l) := by
  unfold State.pop
  dsimp only
  refine MemPart.KeptOk.map ?_ fun s hs => by simpa using hs
  split
  · exact MemPart.keptOk_ok.mpr h
  · exact MemPart.keptOk_map _ fun e => by simpa using h

theorem State.openNode_kept (h : p.Kept s.memPart) (u : UnitId) (k : Walk) (l : Nat) (v : LaneInv) (m : Nat) :
    p.KeptOk (s.openNode u k l v m) := by
  unfold State.openNode
  dsimp only
  exact MemPart.KeptOk.foldl (fun s j hs => MemPart.keptOk_bind _ fun c => push_kept hs _ _ _ _ _) _
    (MemPart.keptOk_ok.mpr (by simpa using h))

theorem State.afterEnter_kept (h : p.Kept s.memPart) (t wx : Nat) (k : Walk) (l : Nat) (v : LaneInv) (skip : Bool) :
    p.KeptOk (s.afterEnter t wx k l v skip) := by
  unfold State.afterEnter
  dsimp only
  split
  · exact (pop_kept h _ _ _ _).map fun s hs => by simpa using hs
  · split
    · exact (pop_kept h _ _ _ _).map fun s hs => by simpa using hs
    · split
      · simpa using h
      · exact (openNode_kept h _ _ _ _ _).map fun s hs => by simpa using hs

theorem State.newEvent_kept (h : p.Kept s.memPart) (t wx : Nat) (k : Walk) (l : Nat) : p.KeptOk (s.newEvent t wx k l) := by
  unfold State.newEvent
  dsimp only
  split
  · simpa using h
  · refine MemPart.keptOk_bind _ fun e => ?_
    split
    · split
      · simpa using h
      · refine MemPart.keptOk_bind _ fun d => ?_
        split
        · simpa using h
        · split
          · simpa using h
          · exact afterEnter_kept (by simpa using h) _ _ _ _ _ _
    · split
      · split
        · exact pop_kept h _ _ _ _
        · exact MemPart.keptOk_bind _ fun d => (pop_kept h _ _ _ _).map fun s hs => by simpa using hs
      · exact (pop_kept h _ _ _ _).map fun s hs => by simpa using hs

theorem State.afterReturn_kept (h : p.Kept s.memPart) (t wx : Nat) (k : Walk) (l : Nat) (v : LaneInv) :
    p.KeptOk (s.afterReturn t wx k l v) := by
  unfold State.afterReturn
  split
  · exact afterEnter_kept h _ _ _ _ _ _
  · exact (openNode_kept h _ _ _ _ _).map fun s hs => by simpa using hs
  · rw [MemPart.keptOk_ok]
    split <;> simpa using h

theorem State.engDone_kept (h : p.Kept s.memPart) (t wx : Nat) (k : Walk) (l : Nat) (info : Word) {x : Except EngStop State}
    (hx : p.KeptOk x) : p.Kept (s.engDone t wx k l info x).memPart := by
  unfold State.engDone
  split
  · exact MemPart.keptOk_ok.mp hx
  · exact h
  · simpa using h

@[simp] theorem State.traversalEvent_kept (h : p.Kept s.memPart) (t wx l : Nat) : p.Kept (s.traversalEvent t wx l).memPart := by
  unfold State.traversalEvent
  split
  · exact h
  · split
    · exact h
    · dsimp only
      split
      · exact h
      · split
        · simpa using h
        · split
          · simpa using h
          · split
            · exact h
            · exact engDone_kept h _ _ _ _ _ (afterReturn_kept h _ _ _ _ _)
      · split
        · split
          · exact engDone_kept h _ _ _ _ _ (newEvent_kept h _ _ _ _)
          · split <;> simp [h]
        · split
          · exact h
          · rw [curUse_memPart]
            exact engDone_kept h _ _ _ _ _ (newEvent_kept h _ _ _ _)

theorem State.settleAtomic_kept {u : UnitId} {l : Leaf} {va : DWord} {r : State × Nat × List Nat} (hr : s.settleAtomic u l va = some r) :
    s.memPart.Kept r.1.memPart := by
  obtain ⟨q, hq, rfl⟩ := Option.map_eq_some_iff.mp hr
  split
  · exact .refl _
  · exact rmw_kept hq

theorem State.restack_kept (h : p.Kept s.memPart) (u : UnitId) (b : Block) (l : Nat) (es : List SEnt) : p.KeptOk (s.restack u b l es) :=
  MemPart.KeptOk.foldl (fun _ _ hs => push_kept hs _ _ _ _ _) _ (MemPart.keptOk_ok.mpr (by simpa using h))

theorem State.raiseCount_kept (h : p.Kept s.memPart) (u : UnitId) (preds : List Nat) (f : Leaf) (va n : Nat) :
    p.KeptOk (s.raiseCount u preds f va n) := by
  unfold State.raiseCount
  dsimp only
  split
  · next hr => exact MemPart.keptOk_ok.mpr (h.trans (rmw_kept hr))
  · exact MemPart.keptOk_error _

@[simp] theorem State.settleStep_kept (h : p.Kept s.memPart) (t wx l : Nat) : p.Kept (s.settleStep t wx l).memPart := by
  unfold State.settleStep
  split
  · exact h
  · split
    · exact h
    · next k hk =>
      split
      · exact h
      · next g hg =>
        dsimp only
        split
        · split
          · split <;> simp [h]
          · split
            · exact h
            · split
              · simpa using h
              · split
                · exact h
                · next hs => simpa using h.trans (settleAtomic_kept hs)
        · split
          · exact h
          · split
            · simpa using h
            · have h1 : p.Kept (State.memPart ((s.dropCaches (s.coreOf (.warp t wx)) (s.clusterOf (.warp t wx))).modWalk t wx k.id
                  fun k => { k with settles := tdel k.settles l })) := by simpa using h
              split
              · exact h1
              · split
                · next s' hs =>
                  refine MemPart.keptOk_bind _ (fun eb => MemPart.keptOk_bind _ fun pb => ?_) s' hs
                  split
                  · exact MemPart.keptOk_map _ fun d => by simpa using h
                  · rw [MemPart.keptOk_ok]
                    split <;> simp [h]
                · split <;> simp [h]

theorem twRunRun_kept (h : p.Kept s.memPart) (w : TwRunW) (e : Env) (c : Ctx) : p.Kept (twRunRun w e c s).state.memPart := by
  unfold twRunRun
  split
  · exact h
  · dsimp only
    split
    · split
      · exact h
      · split
        · exact h
        · rw [Res.state_retire, State.writeLanes_memPart, State.curEnd_memPart, State.modWarp_memPart,
            State.foldl_memPart fun _ _ => by simp]
          exact h
    · split
      · exact h
      · split
        · simpa using h
        · rw [Res.state_wait, State.modFrag_memPart, State.modWarp_memPart]
          refine MemPart.Kept.nextId ?_ (Nat.le_succ _) ..
          rw [State.foldl_memPart fun _ _ => by simp]
          split
          · rw [State.foldl_memPart fun _ _ => by simp]
            simpa using h
          · simpa using h

theorem except_bind_eq_ok {ε α β : Type} {x : Except ε α} {g : α → Except ε β} {b : β} (h : x.bind g = .ok b) :
    ∃ a, x = .ok a ∧ g a = .ok b := by
  cases x with
  | error e => cases h
  | ok a => exact ⟨a, rfl, h⟩

theorem except_map_eq_ok {ε α β : Type} {x : Except ε α} {g : α → β} {b : β} (h : x.map g = .ok b) : ∃ a, x = .ok a ∧ g a = b := by
  cases x with
  | error e => cases h
  | ok a => cases h; exact ⟨a, rfl, rfl⟩

/-- The cut of a lane makes writes and raises counts; nothing else of it touches memory. -/
theorem State.cutLane_kept (h : p.Kept s.memPart) {u : UnitId} {b : Block} {preds : List Nat} {d sec l : Nat} {r : State × Bool}
    (hr : s.cutLane u b preds d sec l = .ok r) : p.Kept r.1.memPart := by
  obtain ⟨es, -, hr⟩ := except_bind_eq_ok hr
  split at hr
  · cases hr; exact h
  · obtain ⟨f, -, hr⟩ := except_bind_eq_ok hr
    obtain ⟨adds, -, hr⟩ := except_bind_eq_ok hr
    obtain ⟨s1, hs1, hr⟩ := except_bind_eq_ok hr
    obtain ⟨s2, hs2, rfl⟩ := except_map_eq_ok hr
    have h1 := MemPart.KeptOk.foldlM (fun s g hs => raiseCount_kept hs _ _ _ _ _) _ h s1 hs1
    exact restack_kept (h1.foldl (fun s x hs => engWrite_kept hs ..) _) _ _ _ _ s2 hs2

/-- Lanes tried one after the other, each of which keeps the forms. -/
theorem MemPart.Kept.foldlM_fst {α β : Type} {g : State × β → α → Except EngStop (State × β)}
    (hg : ∀ q a r, p.Kept q.1.memPart → g q a = .ok r → p.Kept r.1.memPart) (l : List α) {q r : State × β} (h : p.Kept q.1.memPart)
    (hr : l.foldlM g q = .ok r) : p.Kept r.1.memPart := by
  induction l generalizing q with
  | nil => cases hr; exact h
  | cons a l ih =>
    rw [List.foldlM_cons] at hr
    obtain ⟨q1, h1, hr⟩ := except_bind_eq_ok hr
    exact ih (hg q a q1 h h1) hr

theorem twCutGo_kept (h : p.Kept s.memPart) (w : TwCutW) (e : Env) (c : Ctx) (t wx : Nat) (b : Block) :
    p.Kept (twCutGo w e c t wx b s).state.memPart := by
  unfold twCutGo
  dsimp only
  split
  · simpa using h
  · split
    · exact h
    · next r hr =>
      have h1 : p.Kept r.1.memPart := by
        refine MemPart.Kept.foldlM_fst (fun q l r hq hr => ?_) _ h hr
        obtain ⟨x, hx, rfl⟩ := except_map_eq_ok hr
        exact State.cutLane_kept hq hx
      split <;> simpa using h1

theorem twCutRun_kept (h : p.Kept s.memPart) (w : TwCutW) (e : Env) (c : Ctx) : p.Kept (twCutRun w e c s).state.memPart := by
  unfold twCutRun
  split
  · exact h
  · dsimp only
    split
    · split <;> simp [h]
    · split
      · exact h
      · split
        · simpa using h
        · exact releaseThen_kept (by simpa using h) c (twCutGo_kept (by simpa using h) _ _ _ _ _ _)

theorem twResumeRun_kept (h : p.Kept s.memPart) (w : TwResW) (e : Env) (c : Ctx) : p.Kept (twResumeRun w e c s).state.memPart := by
  unfold twResumeRun
  split
  · exact h
  · dsimp only
    split
    · exact h
    · split
      · simpa using h
      · split
        · simpa using h
        · split
          · simpa using h
          · next s1 hs =>
            rw [Res.state_retire, State.dropCaches_memPart, State.dropBlock_memPart]
            exact MemPart.KeptOk.foldlM (fun s l hs => MemPart.keptOk_bind _ fun es => State.restack_kept hs _ _ _ _) _
              (by simpa using h) s1 hs

end Sys2Proof.Machine
end

section
/-!
SUPPORT. The gather forms, and the events of warps, of completion and of pre-emption, keep memory and the writes on their way well formed
(12_sparse_rows R276 to R284; 14_execution_model R321 to R326; 15_traps_preemption R350 to R361).
-/
namespace Sys2Proof.Machine

variable {p : MemPart} {s : State}

@[simp] theorem State.gatherByte_memPart (s : State) (u : UnitId) (plain : Bool) (l : Leaf) :
    (s.gatherByte u plain l).1.memPart = s.memPart := by
  unfold State.gatherByte
  dsimp only
  repeat' split
  all_goals simp

theorem State.gatherRead_memPart {u : UnitId} {plain : Bool} {bs : List GByte} {r : State × Nat} (hr : s.gatherRead u plain bs = some r) :
    r.1.memPart = s.memPart := by
  have h (ls : List Leaf) (q : State × List Byte) :
      (ls.foldl (fun q l => ((q.1.gatherByte u plain l).1, q.2 ++ [(q.1.gatherByte u plain l).2])) q).1.memPart = q.1.memPart := by
    induction ls generalizing q with
    | nil => rfl
    | cons l ls ih => exact (ih _).trans (gatherByte_memPart ..)
  unfold State.gatherRead at hr
  dsimp only at hr
  split at hr
  · cases hr
  · cases hr; exact h _ _

theorem State.gatherAcc_memPart {u : UnitId} {lane va n : Nat} {before : List GByte} {late : Option DWord} {s' : State} {a : Option Acc}
    (h : s.gatherAcc u lane va n before late = .acc s' a) : s' = s := by
  unfold State.gatherAcc at h
  dsimp only at h
  split at h
  · cases h
  · split at h <;> cases h <;> rfl

theorem State.gatherLane_memPart {u : UnitId} {w : GfW} {hva : DWord} {hd : Handle} {lane r c : Nat} {s' : State} {a : Option Acc}
    (h : s.gatherLane u w hva hd lane r c = .acc s' a) : s'.memPart = s.memPart := by
  unfold State.gatherLane at h
  dsimp only at h
  generalize (if hd.fmt ≤ 1 then c % 2 != 0 else decide (hd.fmt ≤ 3) && c % 4 != 0) = odd at h
  split at h
  · cases h
  · split at h
    · cases h
    · split at h
      · rw [gatherAcc_memPart h]
      · split at h
        · rw [gatherAcc_memPart h]
        · split at h
          · rw [gatherAcc_memPart h]
          · split at h
            · cases h
            · cases h
            · next h1 =>
              split at h
              · split at h
                · cases h
                · cases h; exact gatherRead_memPart h1
              · split at h
                · cases h
                · cases h
                · next h2 =>
                  rw [gatherAcc_memPart h]
                  exact (gatherRead_memPart h2).trans (gatherRead_memPart h1)

theorem foldl_bind_none {α β : Type} (g : α → β → Option α) (l : List β) : l.foldl (fun q a => q.bind fun x => g x a) none = none := by
  induction l with
  | nil => rfl
  | cons a l ih => exact ih

/-- Elements taken one after the other, each of which leaves the memory part as it is. -/
theorem memPart_of_foldl_bind {α β : Type} {g : State × β → α → Option (State × β)}
    (hg : ∀ q a r, g q a = some r → r.1.memPart = q.1.memPart) (l : List α) {q r : State × β}
    (hr : l.foldl (fun q a => q.bind fun x => g x a) (some q) = some r) : r.1.memPart = q.1.memPart := by
  induction l generalizing q with
  | nil => cases hr; rfl
  | cons a l ih =>
    rw [List.foldl_cons, Option.bind_some] at hr
    cases ha : g q a with
    | none => rw [ha, foldl_bind_none] at hr; cases hr
    | some q1 => rw [ha] at hr; exact (ih hr).trans (hg q a q1 ha)

theorem State.gatherLanes_memPart {u : UnitId} {w : GfW} {hva : DWord} {hd : Handle} {e : Env} {m : Lanes}
    {r : State × List Acc × List (Nat × Nat × DWord)} (hr : s.gatherLanes u w hva hd e m = some r) : r.1.memPart = s.memPart := by
  refine memPart_of_foldl_bind (fun q l r hr => ?_) _ hr
  obtain ⟨s1, as, bs⟩ := q
  dsimp only at hr
  split at hr
  · next hl => cases hr; exact gatherLane_memPart hl
  · cases hr; rfl
  · cases hr

theorem gfLdRun_memPart (w : GfW) (e : Env) (c : Ctx) (s : State) : (gfLdRun w e c s).state.memPart = s.memPart := by
  unfold gfLdRun
  dsimp only
  generalize (if w.bp = true then 0 else 2) = least
  split
  · rfl
  · split
    · rfl
    · split
      · simp
      · split
        · rfl
        · split
          · rfl
          · split
            · rfl
            · next h1 =>
              split
              · rfl
              · next h2 => simpa using (State.gatherLanes_memPart h2).trans (State.gatherRead_memPart h1)
              · next h2 => exact (State.gatherLanes_memPart h2).trans (State.gatherRead_memPart h1)

@[simp] theorem State.stuckWarp_kept (h : p.Kept s.memPart) (x : Nat × Nat × Nat × DWord) : p.Kept (s.stuckWarp x).memPart :=
  (takeTrap_kept (by simpa using h) _ _ _ _ _ _).getD h

@[simp] theorem State.stuckCcc_kept (h : p.Kept s.memPart) (x : Nat × Nat × DWord) : p.Kept (s.stuckCcc x).memPart := by
  unfold State.stuckCcc
  split <;> simp [h]

@[simp] theorem State.deadlock_kept (h : p.Kept s.memPart) (n : Nat) : p.Kept (s.deadlock n).memPart := by
  unfold State.deadlock
  split
  · exact h
  · split
    · exact h
    · exact (h.foldl (fun s x hs => stuckWarp_kept hs x) _).foldl (fun s x hs => stuckCcc_kept hs x) _

@[simp] theorem State.softError_kept (h : p.Kept s.memPart) (site : SoftSite) : p.Kept (s.softError site).memPart := by
  unfold State.softError
  split
  · exact ringPut_kept h ..
  · split
    · exact h
    · split
      · split
        · exact h
        · exact (takeTrap_kept h _ _ _ _ _ _).getD h
      · split <;> simp [h]

theorem State.decrement_kept (h : p.Kept s.memPart) {x : Team} {v : DWord} {r : State × Option (List Nat)} (hr : s.decrement x v = some r) :
    p.Kept r.1.memPart := by
  unfold State.decrement at hr
  dsimp only at hr
  split at hr
  · cases hr
  · split at hr
    · split at hr
      · cases hr
      · cases hr; exact ringPut_kept h ..
    · split at hr
      · split at hr
        · cases hr
        · cases hr; exact ringPut_kept h ..
      · obtain ⟨q, hq, rfl⟩ := Option.map_eq_some_iff.mp hr
        exact h.trans (rmw_kept hq)

@[simp] theorem State.launchBlock_kept (h : p.Kept s.memPart) (x : Team) (v : DWord) : p.Kept (s.launchBlock x v).memPart := by
  unfold State.launchBlock
  split
  · exact joinQueue_kept h ..
  · exact refuseGrid_kept h ..

@[simp] theorem State.completeTeam_kept (h : p.Kept s.memPart) (t : Nat) : p.Kept (s.completeTeam t).memPart := by
  unfold State.completeTeam
  split
  · exact h
  · split
    · split <;> simp [h]
    · split <;> simp [h]
    · simpa using h
    · split
      · exact h
      · next hs => simpa using decrement_kept h hs
      · next hs => simpa using decrement_kept h hs
    · split <;> simp [h]
    · exact h

theorem State.stopWarp_kept (h : p.Kept s.memPart) (t w : Nat) : p.KeptIf (s.stopWarp t w) := by
  intro s' hs
  obtain ⟨r, hr, rfl⟩ := Option.map_eq_some_iff.mp hs
  dsimp only
  rw [modWarp_memPart, State.foldl_memPart fun _ _ => by simp, State.foldl_memPart fun _ _ => by simp]
  exact h.trans (settle_kept hr)

theorem State.stopCluster_kept (h : p.Kept s.memPart) (t : Nat) (x : Team) : p.KeptIf (s.stopCluster t x) := by
  unfold State.stopCluster
  dsimp only
  split
  · exact MemPart.keptIf_none
  · refine (MemPart.KeptIf.foldl (fun s i hs => completeRest_kept hs _ _) _ (MemPart.keptIf_some.mpr h)).map fun s hs => ?_
    split <;> simp [hs]

theorem State.stopCore_kept (h : p.Kept s.memPart) (t ci : Nat) (x : Team) : p.KeptIf (s.stopCore t ci x) := by
  unfold State.stopCore
  dsimp only
  split
  · exact MemPart.keptIf_none
  · split <;> simp [h]

theorem State.stopUnit_kept (h : p.Kept s.memPart) (t n : Nat) : p.KeptIf (s.stopUnit t n) := by
  unfold State.stopUnit
  split
  · simpa using h
  · split
    · split
      · exact stopWarp_kept h _ _
      · simpa using h
    · split
      · exact stopCore_kept h _ _ _
      · split
        · exact stopCluster_kept h _ _
        · simpa using h

@[simp] theorem State.victimStop_kept (h : p.Kept s.memPart) (t n : Nat) : p.Kept (s.victimStop t n).memPart := by
  unfold State.victimStop
  split
  · exact h
  · split
    · exact h
    · split
      · exact h
      · next hs => simpa using stopUnit_kept h _ _ _ hs

@[simp] theorem State.saveUnit_kept (h : p.Kept s.memPart) (t n : Nat) : p.Kept (s.saveUnit t n).memPart := by
  unfold State.saveUnit
  split
  · split
    · exact h
    · dsimp only
      rw [modCluster_memPart]
      simp only [apply_ite State.memPart, relend_memPart, saveAs_memPart, ite_self]
      split
      · exact h
      · split
        · exact h
        · exact MemPart.Kept.nextId (by simpa using h) (Nat.le_succ s.nextId) ..
  · exact h

@[simp] theorem State.releaseFrozen_memPart (s : State) (id : Nat) : (s.releaseFrozen id).memPart = s.memPart := by
  unfold State.releaseFrozen
  split
  · rfl
  · split
    · rfl
    · dsimp only
      rw [State.foldl_memPart fun _ _ => by simp, endSet_memPart, countDone_memPart]
      refine State.foldl_memPart (fun s t => ?_) _ _
      split <;> simp

theorem State.migrate_kept (h : p.Kept s.memPart) (id cl : Nat) : p.KeptIf (s.migrate id cl) := by
  unfold State.migrate
  split
  · exact MemPart.keptIf_none
  · split
    · exact MemPart.keptIf_none
    · split
      · simpa using h
      · split
        · rw [MemPart.keptIf_some, modSet_memPart, State.foldl_memPart fun _ _ => by simp]
          exact h
        · exact MemPart.keptIf_none

theorem State.resumeWarp_kept (h : p.Kept s.memPart) (t n : Nat) (x : Team) (a : Admit) : p.KeptIf (s.resumeWarp t n x a) := by
  unfold State.resumeWarp
  split
  · exact MemPart.keptIf_none
  · dsimp only
    split <;> simp [h]

theorem State.resumeCore_kept (h : p.Kept s.memPart) (t ci : Nat) (x : Team) (core : Nat) (a : Admit) :
    p.KeptIf (s.resumeCore t ci x core a) := by
  unfold State.resumeCore
  dsimp only
  split <;> simp [h]

theorem State.resumeCluster_kept (h : p.Kept s.memPart) (t : Nat) (x : Team) (a : Admit) : p.KeptIf (s.resumeCluster t x a) := by
  unfold State.resumeCluster
  dsimp only
  split
  · exact MemPart.keptIf_none
  · exact MemPart.keptIf_some.mpr (MemPart.Kept.nextId (by simpa using h) (Nat.le_add_right _ _) ..)

theorem State.resume_kept (h : p.Kept s.memPart) (t n : Nat) (cores : List Nat) (a : Admit) : p.KeptIf (s.resume t n cores a) := by
  unfold State.resume
  split
  · exact MemPart.keptIf_none
  · dsimp only
    split
    · exact MemPart.keptIf_none
    · split
      · exact MemPart.keptIf_none
      · refine (migrate_kept h _ _).bind fun s hs => ?_
        refine (MemPart.KeptIf.foldl (fun s m hs => moveRuns_kept hs m) _ (MemPart.keptIf_some.mpr hs)).bind fun s hs => ?_
        split
        · exact MemPart.keptIf_none
        · refine MemPart.KeptIf.map ?_ fun s hs => ?_
          · split
            · exact resumeWarp_kept hs _ _ _ _
            · split
              · exact resumeCore_kept hs _ _ _ _ _
              · exact resumeCluster_kept hs _ _ _
          · rw [State.foldl_memPart fun _ _ => by simp]
            simpa using hs

end Sys2Proof.Machine
end

section
/-!
SUPPORT. The replay of withdrawn and trapping instructions keeps memory and the writes on their way well formed
(15_traps_preemption R332 to R342, R356).
-/
namespace Sys2Proof.Machine

variable {p : MemPart} {s : State}

/-- The bodies that a replay performs again: the stores add writes, the others change nothing of memory. -/
theorem replayBody_kept (h : p.Kept s.memPart) {i : Instr} {f : Env → Ctx → State → Res} (hf : replayBody i = some f) (e : Env) (c : Ctx) :
    p.Kept (f e c s).state.memPart := by
  cases i with
  | stG | stSp => cases hf; exact storeRun_kept h ..
  | gfLd => cases hf; exact (gfLdRun_memPart ..).symm ▸ h
  | iadd | isub | imin | imax | imul | and | or | xor => cases hf; simp [intRun, h]
  | shl | shr | sar => cases hf; simp [shiftRun, h]
  | popc | clz | brev | not | mov => cases hf; simp [notRun, movRun, oneRun, h]
  | iabs | imulhi | imad | bfe | bfi | lea | sel | icmp | movi | movh | cvt =>
    cases hf
    simp [iabsRun, imulhiRun, imadRun, bfeRun, bfiRun, leaRun, selRun, icmpRun, moviRun, movhRun, cvtRun, h]
  | fadd | fsub | fmul | fmin | fmax => cases hf; simp [fltRun, h]
  | fclass | frnd | frcp | frsq | fsqrt | fexp2 | flog2 | fsin | fcos => cases hf; simp [flt1Run, h]
  | ffma | fcmp | fcvt => cases hf; simp [ffmaRun, fcmpRun, fcvtRun, h]
  | kdot4 | kdot8 | kscale | kpack | kunpack => cases hf; simp [kdotRun, kscaleRun, kpackRun, kunpackRun, h]
  | occGet | occSet | occAnd | occFill | occPack | occUnpack | occCnt =>
    cases hf
    simp [occGetRun, occSetRun, occAndRun, occFillRun, occPackRun, occUnpackRun, occCntRun, h]
  | ldG | ldC | ldSp | atomG | atomSp => cases hf; simp [ldGRun, ldCRun, ldSpRun, atomGRun, atomSpRun, h]
  | shflIdx | shflUp | shflDn | shflXor | voteAny | voteAll | voteBal | scan | red | rebal | ldSpT | sRdl | vBcast | sLd | opSt
  | mxFeed | acLd => cases hf; simp [h]
  | _ => cases hf

theorem State.performEntry_kept (h : p.Kept s.memPart) (t wx : Nat) (e : Entry) : p.Kept (s.performEntry t wx e).state.memPart := by
  unfold State.performEntry
  dsimp only
  split
  · exact h
  · split
    · exact h
    · split
      case' h_1 s1 hr => rw [Res.state_retire, useBuf_memPart, ← Res.state_retire s1, ← hr]
      all_goals
        split
        · simpa using h
        · split
          · next hf => exact replayBody_kept h hf _ _
          · exact h

theorem State.retrap_kept (h : p.Kept s.memPart) (t wx : Nat) (fr : Frame) (exiting : Bool) (e : Entry) (rest : List Entry)
    (ti : TrapInfo) : p.KeptIf (s.retrap t wx fr exiting e rest ti) := by
  unfold State.retrap
  dsimp only
  split
  · simpa using h
  · split
    · simpa using h
    · exact takeTrap_kept (by simpa using h) _ _ _ _ _ _

theorem State.replay_kept (h : p.Kept s.memPart) (t wx : Nat) (exiting : Bool) (n : Nat) : p.Kept (s.replay t wx exiting n).1.memPart := by
  induction n generalizing s with
  | zero => exact h
  | succ n ih =>
    unfold State.replay
    split
    · exact h
    · split
      · simpa using h
      · next e q _ =>
        split
        · exact ih (by simpa using h)
        · have hp := performEntry_kept h t wx e
          split
          · next he => exact ih (by simpa [he] using hp)
          · next he => exact ih (by simpa [he] using hp)
          · next he => exact ih (by simpa [he] using hp)
          · next he =>
            split
            · next hs => exact retrap_kept (by simpa [he] using hp) _ _ _ _ _ _ _ _ hs
            · exact h
          · exact h

theorem leaveHandler_kept (h : p.Kept s.memPart) (exiting : Bool) (c : Ctx) : p.Kept (leaveHandler exiting c s).state.memPart := by
  unfold leaveHandler
  split
  · exact h
  · next t wx _ =>
    split
    · exact h
    · dsimp only
      generalize hs : (if c.phase = 0 then _ else s : State) = s1
      have h1 : p.Kept s1.memPart := by
        rw [← hs]
        split <;> simp [h]
      have h2 := State.replay_kept h1 t wx exiting 10
      split
      · exact h1
      · split
        · next he => rw [he] at h2; exact h2
        · next he => rw [he] at h2; exact h2

theorem exitAnyRun_kept (h : p.Kept s.memPart) (c : Ctx) : p.Kept (exitAnyRun c s).state.memPart := by
  unfold exitAnyRun
  split
  · exact leaveHandler_kept h _ _
  · simpa using h

theorem State.performQueue_kept (h : p.Kept s.memPart) (t w n : Nat) : p.Kept (s.performQueue t w n).memPart := by
  induction n generalizing s with
  | zero => exact h
  | succ n ih =>
    unfold State.performQueue
    split
    · exact h
    · next x e _ =>
      have hp := performEntry_kept h t w e
      dsimp only
      split
      · next he => exact ih (by simpa [he] using hp)
      · next he => exact ih (by simpa [he] using hp)
      · next he => exact ih (by simpa [he] using hp)
      · exact h
      · next ti s1 he =>
        have h1 : p.Kept s1.memPart := by simpa [he] using hp
        split
        · simpa using h1
        · refine MemPart.KeptIf.getD ?_ h
          split
          · exact takeTrap_kept h1 _ _ _ _ _ _
          · exact takeTrap_kept (by simpa using h1) _ _ _ _ _ _

end Sys2Proof.Machine
end

section
/-!
SUPPORT. Every instruction and every event keeps memory and the writes on their way well formed.
-/
namespace Sys2Proof.Machine

variable {p : MemPart} {s : State}

theorem issueOps_kept (h : p.Kept s.memPart) {i : Instr} {body : Env → Ctx → State → Res}
    (hb : ∀ e c, p.Kept (body e c s).state.memPart) : p.KeptBy (issueOps s i body) :=
  issue_kept h fun _ => hb _ _

theorem issueWide_kept (h : p.Kept s.memPart) {i : Instr} {body : Env → Ctx → State → Res}
    (hb : ∀ e c, p.Kept (body e c s).state.memPart) : p.KeptBy (issueWide s i body) :=
  issue_kept h fun _ => hb _ _

@[simp] theorem moveTo_memPart (pc : DWord) (c : Ctx) (s : State) : (moveTo pc c s).state.memPart = s.memPart := by
  unfold moveTo
  exact State.modFrag_memPart ..

@[simp] theorem braRun_memPart (w : OffW) (c : Ctx) (s : State) : (braRun w c s).state.memPart = s.memPart := moveTo_memPart ..

@[simp] theorem rvInitRun_memPart (w : RvW) (e : Env) (c : Ctx) (s : State) : (rvInitRun w e c s).state.memPart = s.memPart := by
  unfold rvInitRun
  dsimp only
  generalize (if w.ci = true then _ else _ : Nat) = n
  split <;> simp

/-- The instructions that a replay performs again: they are issued with the same body. -/
theorem exec_kept_of_replayBody (h : p.Kept s.memPart) {i : Instr} {f : Env → Ctx → State → Res} (hf : replayBody i = some f) :
    p.KeptBy (exec i s) := by
  have hb := replayBody_kept h hf
  cases i with
  | shflIdx | shflUp | shflDn | shflXor | sRdl | vBcast => cases hf; exact issueWide_kept h hb
  | _ => cases hf <;> exact issueOps_kept h hb

/-- The instructions that are not replayed. -/
theorem exec_kept_of_not_replayed (h : p.Kept s.memPart) {i : Instr} (hf : replayBody i = none) (hi : isEvent i = false) :
    p.KeptBy (exec i s) := by
  cases i with
  | sAdd | sSub | sMul | sMin | sMax | sAnd | sOr | sXor => exact issueOps_kept h fun _ _ => by simp [scal2Run, h]
  | sShl | sShr | sSar => exact issueOps_kept h fun _ _ => by simp [scalShiftRun, h]
  | sNot | sCmp | sMov => exact issueOps_kept h fun _ _ => by simp [sNotRun, sCmpRun, sMovRun, h]
  | xset | xadd | csrRd => exact issueOps_kept h fun _ _ => by simp [xsetRun, xaddRun, csrRdRun, h]
  | brx | rvInit | jmpi | calli | exitSpawn | perfReq | tagWany | tagWall | tagFfr | tagClr | tagRd | ownGive | ownTest | mxCfg | twNlt | twRet
  | rqRd | rqWr | trapDrop | csrWr => exact issueOps_kept h fun _ _ => by simp [h]
  | mbxPost => exact issueOps_kept h (mbxPostRun_kept h _)
  | cpG2s | cpS2g | cpS2o | cpA2s => exact issueOps_kept h (cpRun_kept h _ _)
  | ringPost => exact issueOps_kept h (ringPostRun_kept h _)
  | acClr => exact issueOps_kept h (acClrRun_kept h _)
  | mxIp | mxOp => exact issueOps_kept h fun _ _ => by unfold mxDenseRun; exact entryForm_kept h ..
  | mxRw => exact issueOps_kept h fun _ _ => by unfold mxRwRun; exact entryForm_kept h ..
  | mxNzs => exact issueOps_kept h fun _ _ => by unfold mxNzsRun; exact entryForm_kept h ..
  | twRun => exact issueOps_kept h (twRunRun_kept h _)
  | twCut => exact issueOps_kept h (twCutRun_kept h _)
  | twResume => exact issueOps_kept h (twResumeRun_kept h _)
  | nop | trap => exact issue_kept h fun _ => h
  | pairWord => rw [exec_pairWord]; exact issue_kept h fun _ => by rw [pairBody, pairRun_memPart]; exact h
  | yield | yieldW | bra | call | ret | jarm | join | rgn | scopeOpen | scopeClose | fence | cpHalt | cpGo | rvArrive | rvWait
  | rvArrw => exact issue_kept h fun _ => by simp [h]
  | opClaim | opRel => exact issue_kept h fun _ => by simp [opClaimRun, opRelRun, h]
  | halt => exact issue_kept h (haltRun_kept h)
  | rte => exact issue_kept h (leaveHandler_kept h false)
  | exit => exact issue_kept h (exitAnyRun_kept h)
  | tinvcWrite | invalidationRetire | tkillWrite | frozenSetRelease | rriWrite | pendingSlotWrite | countedCompletion | warpContextRelease
  | translationWalk | writeApplication | replLock | replUpdate | copyUnit | copyCompletion | entryGrant | deferredTrap | passCompletion
  | scanCompletion | joinRelease | fragmentSwap | deadlock | softError | moduleReset | hostMailboxMessage | hostPut | hostGet
  | managementWrite | managementRead | featlckWrite | keyLoad | keyInstall | attreqWrite | firmwareImage | placement | admission
  | teamCompletion | preemptionRequest | victimStop | snowpackSave | resume | traversalEvent | settle | currentGrant
  | reservationTimeout | budgetPeriod | clockRatioChange | powerGatingBegin | powerGatingCommit | clusterWake => cases hi
  | _ => cases hf

/-- The events. -/
theorem exec_kept_of_isEvent (h : p.Kept s.memPart) {i : Instr} (hi : isEvent i = true) : p.KeptBy (exec i s) := by
  cases i with
  | countedCompletion => exact MemPart.keptBy_next.mpr ((State.complete_kept h _ _ _).getD h)
  | admission => exact MemPart.keptBy_next.mpr ((State.placeSet_kept h _ _ _).getD h)
  | resume => exact MemPart.keptBy_next.mpr ((State.resume_kept h _ _ _ _).getD h)
  | moduleReset => exact MemPart.keptBy_next.mpr (State.moduleReset_kept h)
  | tinvcWrite | invalidationRetire | tkillWrite | frozenSetRelease | rriWrite | pendingSlotWrite | warpContextRelease
  | translationWalk | writeApplication | replLock | replUpdate | copyUnit | copyCompletion | entryGrant | deferredTrap | passCompletion
  | scanCompletion | joinRelease | fragmentSwap | deadlock | softError | hostMailboxMessage | hostPut | hostGet
  | managementWrite | managementRead | featlckWrite | keyLoad | keyInstall | attreqWrite | firmwareImage | placement
  | teamCompletion | preemptionRequest | victimStop | snowpackSave | traversalEvent | settle | currentGrant
  | reservationTimeout | budgetPeriod | clockRatioChange | powerGatingBegin | powerGatingCommit | clusterWake =>
    exact MemPart.keptBy_next.mpr (by simp [h])
  | _ => cases hi

theorem exec_kept (h : p.Kept s.memPart) (i : Instr) : p.KeptBy (exec i s) := by
  cases hi : isEvent i with
  | true => exact exec_kept_of_isEvent h hi
  | false =>
    cases hf : replayBody i with
    | some f => exact exec_kept_of_replayBody h hf
    | none => exact exec_kept_of_not_replayed h hf hi

end Sys2Proof.Machine
end

section
/-!
SUPPORT. Every step keeps memory and the writes on their way well formed: the turns of the cores, the CCCs and the events
(13_control_flow R297 to R304; 14_execution_model R320), and from them the obligation.
-/
namespace Sys2Proof.Machine

variable {p : MemPart} {s : State}

@[simp] theorem State.boundaryTrap_kept (h : p.Kept s.memPart) (cur : Cur) (ti : TrapInfo) (top : Bool) :
    p.Kept (s.boundaryTrap cur ti top).memPart := by
  unfold State.boundaryTrap
  dsimp only
  generalize hs : (if top then _ else s : State) = s1
  have h1 : p.Kept s1.memPart := by
    rw [← hs]
    split <;> simp [h]
  split
  · exact h1
  · split
    · exact (takeTrap_kept h1 _ _ _ _ _ _).getD (by simpa using h)
    · exact cccTrap_kept h1 ..

@[simp] theorem State.enter_kept (h : p.Kept s.memPart) (cur : Cur) : p.Kept (s.enter cur).1.memPart := by
  unfold State.enter
  dsimp only
  repeat' split
  all_goals simp [h]

theorem State.issueWord_kept (h : p.Kept s.memPart) (cur : Cur) : p.KeptBy (s.issueWord cur) := by
  unfold State.issueWord
  split
  · simpa using h
  · split
    · simpa using h
    · split
      · simpa using boundaryTrap_kept h ..
      · split
        · simpa using boundaryTrap_kept h ..
        · next i _ =>
          dsimp only
          split
          · simpa using h
          · split
            · next he => simpa using exec_kept (by simpa using h) i _ he
            · exact MemPart.keptBy_fault _
            · exact MemPart.keptBy_refused _

theorem State.runFrag_kept (h : p.Kept s.memPart) (cur : Cur) : p.KeptBy (s.runFrag cur) := by
  have h1 := enter_kept h cur
  unfold State.runFrag
  dsimp only
  split
  · exact MemPart.keptBy_next.mpr h1
  · split
    · exact MemPart.keptBy_next.mpr h1
    · split
      · next he => simpa using issueWord_kept h1 cur _ he
      · exact MemPart.keptBy_fault _
      · exact MemPart.keptBy_refused _

@[simp] theorem State.takePick_memPart (s : State) (t w : Nat) (k : Pick) : (s.takePick t w k).1.memPart = s.memPart := by
  unfold State.takePick
  split
  · rfl
  · split <;> simp

@[simp] theorem State.openTurn_kept (h : p.Kept s.memPart) (core : Nat) : p.Kept (s.openTurn core).memPart :=
  h.foldl (fun _ _ hs => by simpa using performQueue_kept hs _ _ _) _

theorem State.coreTurn_kept (h : p.Kept s.memPart) (core : Nat) : p.KeptBy (s.coreTurn core) := by
  unfold State.coreTurn
  dsimp only
  split
  · simp [h]
  · exact runFrag_kept (by simp [h]) _

theorem State.cccTurn_kept (h : p.Kept s.memPart) (cl : Nat) : p.KeptBy (s.cccTurn cl) := by
  unfold State.cccTurn
  dsimp only
  split
  · simpa using h
  · split
    · simp [h]
    · exact runFrag_kept (by simpa using h) _

theorem State.turn_kept (h : p.Kept s.memPart) (t : Turn) : p.KeptBy (s.turn t) := by
  cases t with
  | core c => exact coreTurn_kept h c
  | ccc k => exact cccTurn_kept h k
  | event i =>
    cases hi : isEvent i with
    | true => rw [turn_event hi]; exact exec_kept h i
    | false => simpa [State.turn, hi] using h
  | perform u seq lane fresh => exact MemPart.keptBy_next.mpr ((performLane_kept h u seq lane fresh).getD h)
  | tick | evict | prefetch => simp [State.turn, h]

theorem State.nextTurn_memPart (s : State) : s.nextTurn.2.memPart = s.memPart := by
  unfold State.nextTurn
  split <;> simp

theorem step_kept (s : State) : s.memPart.KeptBy (step s) :=
  State.turn_kept (s.nextTurn_memPart.symm ▸ .refl _) _

/-- Settles O59: each change of a state's memory, of the writes on their way or of the next name keeps both forms
(`MemPart.Kept`), and so does every turn, which is made of such changes. -/
theorem memoryStaysCanonical : Obligations.MemoryStaysCanonical := by
  unfold Obligations.MemoryStaysCanonical
  exact ⟨fun s s' hs h => (s'.memWf_iff).mpr ((step_kept s s' h).memWf (s.memWf_iff.mp hs)),
    fun s s' hs h => (s'.writesWf_iff).mpr ((step_kept s s' h).writesWf (s.writesWf_iff.mp hs))⟩

end Sys2Proof.Machine
end

section
/-!
PROPERTY. Invalidations of translations: what one names, how it begins, how it retires and the next begins (03_memory_tiers R75, R76).
-/
namespace Sys2Proof.Machine

variable {s : State}

/-! ### The entries that an invalidation names -/

theorem Inval.hits_of_mode_two {z : Inval} (h : z.mode = 2) (e : TEnt) : z.hits e = true := by simp [Inval.hits, h]

theorem Inval.hits_of_mode_one {z : Inval} (h : z.mode = 1) (e : TEnt) : z.hits e = (e.owner == z.owner) := by simp [Inval.hits, h]

theorem Inval.hits_of_mode_three {z : Inval} (h : z.mode = 3) (e : TEnt) : z.hits e = false := by simp [Inval.hits, h]

theorem Inval.hits_of_mode_zero {z : Inval} (h : z.mode = 0) (e : TEnt) : z.hits e = true ↔ e.owner = z.owner ∧
    (e.w0.getLsbD 1 = false ∨ e.lvl = 4 ∨ e.pfx = z.vpn * 2 ^ 16 / 2 ^ (lvlShift e.lvl)) := by
  simp [Inval.hits, h, or_assoc]

/-! ### The write of TINVC -/

/-- What a write of TINVC names: its owner, its mode, and the page that TINVA holds. -/
def State.tinvcOf (s : State) (v : Word) : Inval := ⟨v.setWidth 8, v.toNat / 2 ^ 8 % 4, s.csrs.tinva.toNat, none, none⟩

theorem exec_tinvcWrite (v : Word) (s : State) : exec (.tinvcWrite v) s =
    .next (if s.inval.isSome then { s with invalQ := s.invalQ ++ [s.tinvcOf v] } else s.beginInval (s.tinvcOf v)) := by
  rfl

/-- Every translation cache lets go the entries that the invalidation names, and no other. -/
theorem State.beginInval_tlbs (s : State) (z : Inval) (n : Nat) :
    tgetD (s.beginInval z).tlbs n [] = (tgetD s.tlbs n []).filter fun e => !z.hits e := by
  have h : (s.beginInval z).tlbs = tmapv s.tlbs fun l => l.filter fun e => !z.hits e := rfl
  rw [h, tgetD, tget_tmapv, tgetD]
  cases tget s.tlbs n <;> rfl

theorem State.beginInval_tinvcOf_tinvc (s : State) (v : Word) : (s.beginInval (s.tinvcOf v)).csrs.tinvc.toNat = v.toNat % 2 ^ 10 := by
  simp only [State.beginInval, State.tinvcOf, BitVec.toNat_ofNat, BitVec.toNat_setWidth]
  omega

/-! ### Retirement -/

theorem exec_invalidationRetire (s : State) : exec .invalidationRetire s = .next s.retireInval := rfl

theorem State.retireInval_of_none (h : s.inval = none) : s.retireInval = s := by simp [State.retireInval, h]

theorem State.retireInval_of_not_done {z : Inval} (h : s.inval = some z) (hd : s.invalDone z = false) : s.retireInval = s := by
  simp [State.retireInval, h, hd]

/-- The invalidation that has retired: who waits for it is told, and no other is in progress. -/
def State.endInval (s : State) (z : Inval) : State :=
  { s with inval := none, invDone := s.invDone ++ z.by_.toList, sent := s.sent ++ z.rq.toList.map (portReply false 0 []) }

theorem State.retireInval_of_last {z : Inval} (h : s.inval = some z) (hd : s.invalDone z = true) (hq : s.invalQ = []) :
    s.retireInval = s.endInval z := by
  simp [State.retireInval, State.endInval, h, hd, hq]

theorem State.retireInval_of_next {z w : Inval} {q : List Inval} (h : s.inval = some z) (hd : s.invalDone z = true)
    (hq : s.invalQ = w :: q) : s.retireInval = { (s.endInval z).beginInval w with invalQ := q } := by
  simp [State.retireInval, State.endInval, h, hd, hq]

/-- What the retirement of an invalidation leaves, whether another waits or not. -/
theorem State.retireInval_of_done {z : Inval} (h : s.inval = some z) (hd : s.invalDone z = true) :
    s.retireInval.invDone = s.invDone ++ z.by_.toList ∧ s.retireInval.sent.length = s.sent.length + z.rq.toList.length ∧
      s.retireInval.inval = s.invalQ.head? ∧ s.retireInval.invalQ = s.invalQ.tail ∧ SameMem s s.retireInval ∧
      s.retireInval.teams = s.teams := by
  cases hq : s.invalQ with
  | nil =>
    rw [retireInval_of_last h hd hq]
    exact ⟨rfl, by simp [State.endInval], rfl, hq, sameMem_of_eq rfl rfl rfl rfl, rfl⟩
  | cons w q =>
    rw [retireInval_of_next h hd hq]
    exact ⟨rfl, by simp [State.beginInval, State.endInval], rfl, rfl, sameMem_of_eq rfl rfl rfl rfl, rfl⟩

/-- Settles O33: the write of TINVC, the entries that each mode names, and the retirement. That a waiting write names the page that
TINVA held at the write is the model's choice (log entry 73). -/
theorem invalidations : Obligations.Invalidations := by
  unfold Obligations.Invalidations
  refine ⟨fun v s => ⟨fun h => ?_, fun h => ⟨s.beginInval (s.tinvcOf v), ?_, rfl, rfl, rfl, s.beginInval_tinvcOf_tinvc v,
      s.beginInval_tlbs (s.tinvcOf v)⟩⟩,
    fun z e => ⟨fun h => Inval.hits_of_mode_two h e, fun h => Inval.hits_of_mode_one h e, fun h => Inval.hits_of_mode_three h e,
      fun h => Inval.hits_of_mode_zero h e⟩,
    fun s => ⟨fun h => ?_, fun z h => ⟨fun hd => ?_, fun hd => ⟨_, rfl, State.retireInval_of_done h hd⟩⟩⟩⟩
  · rw [exec_tinvcWrite, if_pos h]
    rfl
  · rw [exec_tinvcWrite, if_neg (by simp [h])]
  · rw [exec_invalidationRetire, State.retireInval_of_none h]
  · rw [exec_invalidationRetire, State.retireInval_of_not_done h hd]

end Sys2Proof.Machine
end

section
/-!
SUPPORT. Translation: the checks of an access, the walk of an address that no cache covers, the address that a leaf gives
(03_memory_tiers R63 to R68, R77; 04_caches_scratchpad R89, R101).
-/
namespace Sys2Proof.Machine

variable {s : State}

/-! ### The checks of an access -/

section
variable {u : UnitId} {va : DWord} {n : Nat}

theorem State.globAcc_of_misaligned (h : va.toNat % n ≠ 0) (lane : Nat) (need : Need) :
    s.globAcc u lane va n need = .error cALIGN := by
  rw [State.globAcc, if_pos h]

theorem State.globAcc_of_untranslated (h : va.toNat % n = 0) (ht : s.translate (s.coreOf u) (s.dieOf u) (s.ownerOf u) va = none)
    (lane : Nat) (need : Need) : s.globAcc u lane va n need = .error cRANGE := by
  simp [State.globAcc, State.access, h, ht]

theorem State.globAcc_of_translated (h : va.toNat % n = 0) {l : Leaf}
    (ht : s.translate (s.coreOf u) (s.dieOf u) (s.ownerOf u) va = some l) (lane : Nat) (need : Need) :
    s.globAcc u lane va n need = if l.allows need && s.keyOk (s.coreOf u) (s.dieOf u) (s.ownerOf u) l.key
      then .ok ⟨lane, .glob, l.pa, va, n, l.key, l.repl, l.pg⟩ else .error cPERM := by
  rw [State.globAcc, if_neg (by simp [h]), State.access, ht]
  dsimp only
  cases l.allows need && s.keyOk (s.coreOf u) (s.dieOf u) (s.ownerOf u) l.key <;> rfl

end

theorem State.translate_of_large {va : DWord} (h : 2 ^ 48 ≤ va.toNat) (core : Option Nat) (d : Nat) (o : Byte) :
    s.translate core d o va = none := by
  rw [State.translate, if_pos h]

/-- An address of the team's own window names the team core by its bits from 20 upward. -/
theorem State.spDecode_own {t : Nat} {x : Team} {a : Nat} (ht : s.team? t = some x) (ha : a / 2 ^ 22 = 0) :
    s.spDecode t a = if x.cores.length ≤ a / 2 ^ 20 ∨ 4096 * x.tiles ≤ a % 2 ^ 20 ∨ (a / 2 ^ 20 = 0 ∧ a % 2 ^ 20 < 0x100) then none
      else some (t, a / 2 ^ 20, a % 2 ^ 20) := by
  have hci : a / 2 ^ 20 % 4 = a / 2 ^ 20 := by omega
  have hlt : a < 2 ^ 25 := by omega
  simp only [State.spDecode, ht, ha, hci, hlt, Nat.zero_mod, if_true, true_and]
  by_cases hbad : x.cores.length ≤ a / 2 ^ 20 ∨ 4096 * x.tiles ≤ a % 2 ^ 20 ∨ (a / 2 ^ 20 = 0 ∧ a % 2 ^ 20 < 0x100)
  · rw [if_pos hbad, if_neg (by omega)]
  · rw [if_neg hbad, if_pos (by omega)]

theorem State.spAcc_own {t : Nat} {x : Team} {a : Nat} (ht : s.team? t = some x) (ha : a / 2 ^ 22 = 0) (lane n : Nat) :
    s.spAcc t lane a n =
      if a % n ≠ 0 then .error cALIGN
      else if x.cores.length ≤ a / 2 ^ 20 ∨ 4096 * x.tiles ≤ a % 2 ^ 20 ∨ (a / 2 ^ 20 = 0 ∧ a % 2 ^ 20 < 0x100) then .error cRANGE
      else if s.tileE t (a / 2 ^ 20) (a % 2 ^ 20 / 4096) then .error cOWNER
      else .ok ⟨lane, .scratch t (a / 2 ^ 20), a % 2 ^ 20, BitVec.ofNat 64 a, n, 0, false, 0⟩ := by
  rw [State.spAcc, spDecode_own ht ha]
  split
  · rfl
  · by_cases hbad : x.cores.length ≤ a / 2 ^ 20 ∨ 4096 * x.tiles ≤ a % 2 ^ 20 ∨ (a / 2 ^ 20 = 0 ∧ a % 2 ^ 20 < 0x100)
    · rw [if_pos hbad, if_pos hbad]
    · rw [if_neg hbad, if_neg hbad]

/-! ### Caches that hold nothing for an address -/

section
variable {nodes : List Nat} (hc : ∀ n ∈ nodes, tgetD s.tlbs n [] = [])
include hc

theorem State.cached_of_empty (o : Byte) (lvl pfx : Nat) : s.cached nodes o lvl pfx = none := by
  have h : nodes.flatMap (fun n => tgetD s.tlbs n []) = [] := by simpa using hc
  rw [State.cached, h]
  rfl

theorem State.cachedLeaf_of_empty (o : Byte) (va : Nat) : s.cachedLeaf nodes o va = none := by
  simp [State.cachedLeaf, cached_of_empty hc]

theorem State.ownerWords_of_empty (d : Nat) (o : Byte) : s.ownerWords nodes d o =
    (s.tableWord d (s.csrs.owntab.toNat + 32 * o.toNat), s.tableWord d (s.csrs.owntab.toNat + 32 * o.toNat + 8)) := by
  simp [State.ownerWords, cached_of_empty hc]

end

/-! ### The walk -/

/-- The entry for an address in the table of a level. -/
def State.walkEntry (s : State) (d va lvl tbl : Nat) : DWord :=
  s.tableWord d (tbl + 8 * if lvl = 3 then va / 2 ^ lvlShift lvl % 32 else va / 2 ^ lvlShift lvl % 512)

/-- The table that a pointer entry gives. -/
def nextTable (e : DWord) : Nat := bitsOf e.toNat 41 8 * 256

section
variable {nodes : List Nat} (hc : ∀ n ∈ nodes, tgetD s.tlbs n [] = []) {d : Nat} {o : Byte} {va fuel lvl tbl : Nat} {e : DWord}
  (he : s.walkEntry d va lvl tbl = e)
include hc he

theorem State.walk_succ_of_empty : s.walk nodes d o va (fuel + 1) lvl tbl =
    if e.getLsbD 0 = false then none
    else if e.getLsbD 1 then s.leafOf lvl e va
    else if lvl = 3 then none
    else if (homeOf (nextTable e)).isNone then none else s.walk nodes d o va fuel (lvl + 1) (nextTable e) := by
  rw [State.walk, cached_of_empty hc, ← he]
  rfl

theorem State.walk_of_stop (h : e.getLsbD 0 = false ∨ e.getLsbD 1 = false ∧ homeOf (nextTable e) = none) :
    s.walk nodes d o va (fuel + 1) lvl tbl = none := by
  rw [walk_succ_of_empty hc he]
  rcases h with h | ⟨h1, hn⟩
  · rw [if_pos h]
  · rw [h1, hn]
    simp

theorem State.walk_of_leaf (h0 : e.getLsbD 0 = true) (h1 : e.getLsbD 1 = true) :
    s.walk nodes d o va (fuel + 1) lvl tbl = s.leafOf lvl e va := by
  rw [walk_succ_of_empty hc he, if_neg (by simp [h0]), if_pos h1]

theorem State.walk_of_pointer (hl : lvl ≠ 3) (h0 : e.getLsbD 0 = true) (h1 : e.getLsbD 1 = false)
    (hn : (homeOf (nextTable e)).isSome = true) :
    s.walk nodes d o va (fuel + 1) lvl tbl = s.walk nodes d o va fuel (lvl + 1) (nextTable e) := by
  rw [walk_succ_of_empty hc he, if_neg (by simp [h0]), if_neg (by rw [h1]; exact Bool.false_ne_true), if_neg hl,
    if_neg (by simpa [Option.isSome_iff_ne_none] using hn)]

/-- The last level holds no pointers. -/
theorem State.walk_last_of_not_leaf (hl : lvl = 3) (h : e.getLsbD 0 = false ∨ e.getLsbD 1 = false) :
    s.walk nodes d o va (fuel + 1) lvl tbl = none := by
  rw [walk_succ_of_empty hc he]
  rcases h with h | h
  · rw [if_pos h]
  · rw [h, hl]
    simp

end

/-- No leaf stands at level 0. -/
theorem State.leafOf_zero (e : DWord) (va : Nat) : s.leafOf 0 e va = none := by simp [State.leafOf]

/-- The root table that an owner entry gives. -/
def rootTable (own : DWord) : Nat := bitsOf own.toNat 41 12 * 4096

section
variable {core : Option Nat} {d : Nat} {o : Byte} {va : DWord} (hc : ∀ n ∈ tlbNodes core d, tgetD s.tlbs n [] = []) {own : DWord}
  (ho : s.tableWord d (s.csrs.owntab.toNat + 32 * o.toNat) = own)
include hc ho

theorem State.translate_of_no_root (h : own.getLsbD 0 = false ∨ homeOf (rootTable own) = none) : s.translate core d o va = none := by
  have h1 : (s.ownerWords (tlbNodes core d) d o).1 = own := by rw [ownerWords_of_empty hc, ho]
  rw [State.translate]
  dsimp only
  rw [h1, cachedLeaf_of_empty hc]
  split
  · rfl
  · split
    · rfl
    · next hv =>
      rw [rootTable] at h
      simp [h.resolve_left hv]

theorem State.translate_of_root (hva : va.toNat < 2 ^ 48) (h0 : own.getLsbD 0 = true) (hr : (homeOf (rootTable own)).isSome = true) :
    s.translate core d o va = s.walk (tlbNodes core d) d o va.toNat 4 0 (rootTable own) := by
  have h1 : (s.ownerWords (tlbNodes core d) d o).1 = own := by rw [ownerWords_of_empty hc, ho]
  rw [State.translate]
  dsimp only
  rw [if_neg (by omega), h1, if_neg (by simp [h0]), cachedLeaf_of_empty hc]
  exact if_neg (by simpa [rootTable, Option.isSome_iff_ne_none] using hr)

end

end Sys2Proof.Machine
end

section
/-!
PROPERTY. The checks of an access, the walk of an address, what a leaf gives, and what a translation cache takes and lets go
(03_memory_tiers R63 to R68, R72, R77; 04_caches_scratchpad R89, R101).
-/
namespace Sys2Proof.Machine

variable {s : State}

/-! ### What a leaf gives -/

theorem bitOf_toNat (e : DWord) (i : Nat) : bitOf e.toNat i = e.getLsbD i := by
  rw [bitOf, BitVec.getLsbD, Nat.testBit_eq_decide_div_mod_eq]
  rfl

/-- The sizes of the pages that leaves of levels 1 to 3 give. -/
theorem pageSize_eq {lvl : Nat} (h : 1 ≤ lvl) : (if lvl = 1 then 2 ^ 30 else if lvl = 2 then 2 ^ 21 else 2 ^ 16) = 2 ^ lvlShift lvl := by
  have h0 : lvl ≠ 0 := by omega
  rw [lvlShift, if_neg h0]
  split
  · rfl
  · split <;> rfl

theorem State.leafOf_eq_some {lvl : Nat} {e : DWord} {v : Nat} {l : Leaf} (h : s.leafOf lvl e v = some l) :
    1 ≤ lvl ∧ e.toNat / 2 ^ 50 % 4 = 3 - lvl ∧ nextTable e % 2 ^ lvlShift lvl = 0 ∧ (homeOf (nextTable e)).isSome = true ∧
      l = ⟨nextTable e + v % 2 ^ lvlShift lvl, e.getLsbD 2, e.getLsbD 3, e.getLsbD 4, e.getLsbD 5, BitVec.ofNat 8 (bitsOf e.toNat 49 42),
        lvlShift lvl⟩ := by
  unfold State.leafOf at h
  dsimp only at h
  split at h
  · cases h
  · next hgood =>
    obtain ⟨h0, hsize, hal, -, hhome, -⟩ := by simpa only [not_or] using hgood
    cases h
    refine ⟨by omega, ?_, ?_, ?_, ?_⟩
    · simpa [bitsOf] using hsize
    · simpa [nextTable] using hal
    · simpa [nextTable, Option.isSome_iff_ne_none] using hhome
    · simp only [bitOf_toNat, nextTable]

/-! ### What a translation cache takes and lets go -/

/-- The entry that a walk finds at a level: the cached one, or else the table's. -/
def State.entryAt (s : State) (nodes : List Nat) (d : Nat) (o : Byte) (va lvl tbl : Nat) : DWord :=
  ((s.cached nodes o lvl (va / 2 ^ lvlShift lvl)).map (·.w0)).getD (s.walkEntry d va lvl tbl)

theorem State.walkTo_succ (nodes : List Nat) (d : Nat) (o : Byte) (va goal fuel lvl tbl : Nat) {e : DWord}
    (he : s.entryAt nodes d o va lvl tbl = e) : s.walkTo nodes d o va goal (fuel + 1) lvl tbl =
      if e.getLsbD 0 = false then none
      else if lvl = goal then
        if (!e.getLsbD 1 && lvl != 3 && (homeOf (nextTable e)).isSome) || (e.getLsbD 1 && (s.leafOf lvl e va).isSome) then some e else none
      else if !e.getLsbD 1 && lvl != 3 && (homeOf (nextTable e)).isSome then s.walkTo nodes d o va goal fuel (lvl + 1) (nextTable e)
      else none := by
  rw [State.walkTo, ← he, State.entryAt]
  cases s.cached nodes o lvl (va / 2 ^ lvlShift lvl) <;> rfl

/-- An entry that a walk brings is present. -/
theorem State.walkTo_present {nodes : List Nat} {d : Nat} {o : Byte} {va goal fuel lvl tbl : Nat} {e : DWord}
    (h : s.walkTo nodes d o va goal fuel lvl tbl = some e) : e.getLsbD 0 = true := by
  induction fuel generalizing lvl tbl with
  | zero => cases h
  | succ fuel ih =>
    rw [walkTo_succ _ _ _ _ _ _ _ _ rfl] at h
    split at h
    · cases h
    · next h0 =>
      split at h
      · split at h
        · cases h
          exact Bool.eq_true_of_not_eq_false h0
        · cases h
      · split at h
        · exact ih h
        · cases h

/-- The die whose walks fill a translation cache, and the core, if it is a core's. -/
def tlbDie (node : Nat) : Nat := if node < 768 then node / 96 else node % 8
def tlbCore (node : Nat) : Option Nat := if node < 768 then some node else none

/-- The bits of an address that an entry of a level stands for. -/
def tlbPfx (lvl : Nat) (va : VAddr) : Nat := if lvl = 4 then 0 else va.toNat / 2 ^ lvlShift lvl

/-- The entries of a cache that stand for another owner, level or address. -/
def State.tlbRest (s : State) (node : Nat) (o : Byte) (lvl pfx : Nat) : List TEnt :=
  (tgetD s.tlbs node []).filter fun e => !(e.owner == o && e.lvl == lvl && e.pfx == pfx)

/-- The contents of one translation cache. -/
def State.setTlb (s : State) (node : Nat) (l : List TEnt) : State := { s with tlbs := tset [] s.tlbs node l }

@[simp] theorem State.setTlb_same (s : State) (node : Nat) (l : List TEnt) : tgetD (s.setTlb node l).tlbs node [] = l := by
  simp [State.setTlb]

@[simp] theorem State.setTlb_other {n node : Nat} (h : n ≠ node) (l : List TEnt) : tgetD (s.setTlb node l).tlbs n [] = tgetD s.tlbs n [] := by
  simp [State.setTlb, h.symm]

/-- The entry that a cache is offered. -/
def State.tlbOffer (s : State) (node : Nat) (o : Byte) (va : VAddr) (lvl : Nat) : Option TEnt :=
  let nodes := tlbNodes (tlbCore node) (tlbDie node)
  let ow := s.ownerWords nodes (tlbDie node) o
  if ow.1.getLsbD 0 = false ∨ (homeOf (rootTable ow.1)).isNone = true then none
  else if lvl = 4 then some ⟨o, 4, 0, ow.1, ow.2⟩
  else (s.walkTo nodes (tlbDie node) o va.toNat lvl 4 0 (rootTable ow.1)).map fun w => ⟨o, lvl, tlbPfx lvl va, w, 0⟩

theorem State.tlbOffer_eq_some {node : Nat} {o : Byte} {va : VAddr} {lvl : Nat} {e : TEnt} (h : s.tlbOffer node o va lvl = some e) :
    e.owner = o ∧ e.lvl = lvl ∧ e.pfx = tlbPfx lvl va ∧ e.w0.getLsbD 0 = true := by
  unfold State.tlbOffer at h
  dsimp only at h
  split at h
  · cases h
  · next hok =>
    split at h
    · next h4 =>
      cases h
      exact ⟨rfl, h4.symm, by rw [tlbPfx, if_pos h4], Bool.eq_true_of_not_eq_false fun hn => hok (.inl hn)⟩
    · obtain ⟨w, hw, rfl⟩ := Option.map_eq_some_iff.mp h
      exact ⟨rfl, rfl, rfl, walkTo_present hw⟩

section
variable {node : Nat} {lvl : Nat} (hn : node < 784) (hl : lvl ≤ 4) {o : Byte} {va : VAddr}
include hn hl

theorem State.tlbFill_drop : s.tlbFill node o va lvl false = s.setTlb node (s.tlbRest node o lvl (tlbPfx lvl va)) := by
  rw [State.tlbFill]
  exact if_neg (by omega)

theorem State.tlbFill_of_open (h : s.lookupOpen (tlbCore node) (tlbDie node) o (va.setWidth 64) = true) :
    s.tlbFill node o va lvl true = s := by
  rw [State.tlbFill]
  exact (if_neg (by omega)).trans (if_pos h)

theorem State.tlbFill_of_no_offer (hq : s.lookupOpen (tlbCore node) (tlbDie node) o (va.setWidth 64) = false)
    (h : s.tlbOffer node o va lvl = none) : s.tlbFill node o va lvl true = s := by
  rw [State.tlbFill]
  refine (if_neg (by omega)).trans ((if_neg (Bool.eq_false_iff.mp hq)).trans ?_)
  split
  · rfl
  · next he => exact absurd (he.symm.trans h) nofun

theorem State.tlbFill_of_offer (hq : s.lookupOpen (tlbCore node) (tlbDie node) o (va.setWidth 64) = false) {e : TEnt}
    (h : s.tlbOffer node o va lvl = some e) : s.tlbFill node o va lvl true =
      if s.inval.any (·.hits e) || !tlbHolds node e || decide (tlbRoom node ≤ (s.tlbRest node o lvl (tlbPfx lvl va)).length) then s
      else s.setTlb node (e :: s.tlbRest node o lvl (tlbPfx lvl va)) := by
  rw [State.tlbFill]
  refine (if_neg (by omega)).trans ((if_neg (Bool.eq_false_iff.mp hq)).trans ?_)
  split
  · next he => exact absurd (he.symm.trans h) nofun
  · next he =>
    cases he.symm.trans h
    rfl

/-- A walk that is to be kept changes nothing, or puts one entry before the others: present, named by no invalidation, of the cache's
kind, and within its room. -/
theorem State.tlbFill_keep : s.tlbFill node o va lvl true = s ∨ ∃ e, s.tlbOffer node o va lvl = some e ∧ s.inval.any (·.hits e) = false ∧
    tlbHolds node e = true ∧ (s.tlbRest node o lvl (tlbPfx lvl va)).length < tlbRoom node ∧
    s.tlbFill node o va lvl true = s.setTlb node (e :: s.tlbRest node o lvl (tlbPfx lvl va)) := by
  cases hq : s.lookupOpen (tlbCore node) (tlbDie node) o (va.setWidth 64) with
  | true => exact .inl (tlbFill_of_open hn hl hq)
  | false =>
    cases he : s.tlbOffer node o va lvl with
    | none => exact .inl (tlbFill_of_no_offer hn hl hq he)
    | some e =>
      rw [tlbFill_of_offer hn hl hq he]
      split
      · exact .inl rfl
      · next hgood =>
        simp only [Bool.or_eq_true, not_or, Bool.not_eq_true, Bool.not_eq_true', decide_eq_true_eq,
          Nat.not_le] at hgood
        obtain ⟨⟨hinv, hhold⟩, hroom⟩ := hgood
        exact .inr ⟨e, rfl, hinv, Bool.eq_true_of_not_eq_false hhold, hroom, rfl⟩

/-- Only the cache named changes. -/
theorem State.tlbFill_changes (keep : Bool) : s.tlbFill node o va lvl keep = s ∨
    ∃ l, s.tlbFill node o va lvl keep = s.setTlb node l := by
  cases keep with
  | false => exact .inr ⟨_, tlbFill_drop hn hl⟩
  | true =>
    obtain h | ⟨e, -, -, -, -, h⟩ := tlbFill_keep (s := s) hn hl (o := o) (va := va)
    · exact .inl h
    · exact .inr ⟨_, h⟩

end

/-- An owner entry stands in the caches of the pointer entries only, and no leaf does. -/
theorem tlbHolds_iff (node : Nat) (e : TEnt) : tlbHolds node e = true ↔ (node < 776 ↔ e.lvl ≠ 4 ∧ e.w0.getLsbD 1 = true) := by
  rw [tlbHolds, beq_iff_eq, Bool.eq_iff_iff, Bool.and_eq_true, bne_iff_ne, decide_eq_true_eq]
  exact Iff.comm

/-- The first walk of an owner's entry, into an empty cache of pointer entries. -/
theorem State.tlbFill_owner {node : Nat} (h776 : 776 ≤ node) (hn : node < 784) {o : Byte} {va : VAddr} (hinv : s.inval = none)
    (hq : s.lookupOpen none (node % 8) o (va.setWidth 64) = false) (hc : ∀ n ∈ tlbNodes none (node % 8), tgetD s.tlbs n [] = [])
    {w0 : DWord} (hw : s.tableWord (node % 8) (s.csrs.owntab.toNat + 32 * o.toNat) = w0) (h0 : w0.getLsbD 0 = true)
    (hr : (homeOf (rootTable w0)).isSome = true) :
    ∃ w1, s.tlbFill node o va 4 true = s.setTlb node [⟨o, 4, 0, w0, w1⟩] := by
  have hdie : tlbDie node = node % 8 := if_neg (by omega)
  have hcore : tlbCore node = none := if_neg (by omega)
  have hempty : tgetD s.tlbs node [] = [] := hc node (by simp [tlbNodes]; omega)
  have hrest : s.tlbRest node o 4 (tlbPfx 4 va) = [] := by rw [tlbRest, hempty]; rfl
  have hroom : tlbRoom node = 512 := by rw [tlbRoom, if_neg (by omega), if_neg (by omega)]
  obtain ⟨w1, hoffer⟩ : ∃ w1, s.tlbOffer node o va 4 = some ⟨o, 4, 0, w0, w1⟩ := by
    refine ⟨s.tableWord (node % 8) (s.csrs.owntab.toNat + 32 * o.toNat + 8), ?_⟩
    rw [tlbOffer, hdie, hcore, ownerWords_of_empty hc, hw, if_neg (by simp [h0, Option.isSome_iff_ne_none.mp hr]), if_pos rfl]
  have hholds : tlbHolds node ⟨o, 4, 0, w0, w1⟩ = true := by
    rw [tlbHolds_iff]
    simp
    omega
  refine ⟨w1, (tlbFill_of_offer hn (Nat.le_refl 4) (by rw [hcore, hdie]; exact hq) hoffer).trans ?_⟩
  rw [hrest, hinv, hholds, hroom]
  rfl

theorem exec_translationWalk (s : State) (node : Nat) (o : Byte) (va : VAddr) (lvl : Nat) (keep : Bool) :
    exec (.translationWalk node o va lvl keep) s = .next (s.tlbFill node o va lvl keep) := rfl

/-- Settles O21: the checks of an access in their order; the walk, level by level; what a leaf gives; what a translation cache takes
and lets go. That a pointer is followed aligned or not, that tables are read under key 0, and where owner entries are kept are the
model's choices (log entries 84, 11, 22). -/
theorem translationAndChecks : Obligations.TranslationAndChecks := by
  unfold Obligations.TranslationAndChecks
  refine ⟨⟨fun s u lane va n need => ?_, fun s core d o va h => State.translate_of_large h core d o,
      fun s t x lane a n ht ha => ?_⟩, fun s core d o va hva hc => ?_, fun s lvl e v l h => ?_, fun node o va lvl keep s hn hl => ?_⟩
  · by_cases h : va.toNat % n = 0
    · rw [if_neg (not_not.mpr h)]
      cases ht : s.translate (s.coreOf u) (s.dieOf u) (s.ownerOf u) va with
      | none => exact State.globAcc_of_untranslated h ht lane need
      | some l => exact (State.globAcc_of_translated h ht lane need).trans (by cases need <;> rfl)
    · rw [if_pos h]
      exact State.globAcc_of_misaligned h lane need
  · exact State.spAcc_own ht ha lane n
  · intro v word own root next ptr stop e0 e1 e2 e3 got
    have hw0 : s.walkEntry d v 0 root = e0 := rfl
    have hw1 : s.walkEntry d v 1 (nextTable e0) = e1 := rfl
    have hw2 : s.walkEntry d v 2 (nextTable e1) = e2 := rfl
    have hw3 : s.walkEntry d v 3 (nextTable e2) = e3 := rfl
    refine ⟨fun h => State.translate_of_no_root hc rfl h, fun h0 hr => ?_⟩
    have hgot : got = s.walk (tlbNodes core d) d o v 4 0 root := State.translate_of_root hc rfl hva h0 hr
    refine ⟨fun h => hgot.trans ?_, fun ⟨hp, hl, hn⟩ => ?_⟩
    · rcases h with h | h
      · exact State.walk_of_stop hc hw0 h
      · cases h0 : e0.getLsbD 0 with
        | false => exact State.walk_of_stop hc hw0 (.inl h0)
        | true => exact (State.walk_of_leaf hc hw0 h0 h).trans (State.leafOf_zero e0 v)
    replace hgot := hgot.trans (State.walk_of_pointer hc hw0 (by decide) hp hl hn)
    refine ⟨fun h => hgot.trans (State.walk_of_stop hc hw1 h), fun hp hl => hgot.trans (State.walk_of_leaf hc hw1 hp hl),
      fun ⟨hp, hl, hn⟩ => ?_⟩
    replace hgot := hgot.trans (State.walk_of_pointer hc hw1 (by decide) hp hl hn)
    refine ⟨fun h => hgot.trans (State.walk_of_stop hc hw2 h), fun hp hl => hgot.trans (State.walk_of_leaf hc hw2 hp hl),
      fun ⟨hp, hl, hn⟩ => ?_⟩
    replace hgot := hgot.trans (State.walk_of_pointer hc hw2 (by decide) hp hl hn)
    exact ⟨fun h => hgot.trans (State.walk_last_of_not_leaf hc hw3 rfl h), fun hp hl => hgot.trans (State.walk_of_leaf hc hw3 hp hl)⟩
  · obtain ⟨h1, hsize, hal, hhome, rfl⟩ := State.leafOf_eq_some h
    dsimp only
    rw [pageSize_eq h1]
    exact ⟨h1, hsize, hal, hhome, rfl, rfl, rfl, rfl, rfl, by simp [bitsOf]⟩
  · refine ⟨s.tlbFill node o va lvl keep, rfl, ?_, fun n hne => ?_, ?_, ?_, ?_, ?_⟩
    · obtain h | ⟨l, h⟩ := State.tlbFill_changes (s := s) hn hl (o := o) (va := va) keep
      · rw [h]
      · rw [h]
        rfl
    · obtain h | ⟨l, h⟩ := State.tlbFill_changes (s := s) hn hl (o := o) (va := va) keep
      · rw [h]
      · rw [h, State.setTlb_other hne]
    · rintro rfl
      rw [State.tlbFill_drop hn hl, State.setTlb_same]
      rfl
    · rintro rfl hq
      rw [State.tlbFill_of_open hn hl hq]
    · rintro rfl
      obtain h | ⟨e, he, hinv, hkind, hroom, h⟩ := State.tlbFill_keep (s := s) hn hl (o := o) (va := va)
      · exact .inl (by rw [h])
      · obtain ⟨howner, hlvl, hpfx, h0⟩ := State.tlbOffer_eq_some he
        rw [tlbHolds_iff, hlvl] at hkind
        exact .inr ⟨e, by rw [h, State.setTlb_same]; rfl, howner, hlvl, hpfx, h0, hinv, hroom, hkind⟩
    · rintro rfl rfl h776 hinv hq hc
      have hd : (if node < 768 then node / 96 else node % 8) = node % 8 := if_neg (by omega)
      simp only [hd] at hq hc ⊢
      intro h0 hr
      obtain ⟨w1, h⟩ := State.tlbFill_owner h776 hn hinv hq hc rfl h0 hr
      exact ⟨w1, by rw [h, State.setTlb_same]; rfl⟩

end Sys2Proof.Machine
end

section
/-!
PROOF. The loads and atomics of lanes: the check of every lane, the count of the operation, and the addresses of the lanes
(04_caches_scratchpad R96 to R101, R104, R105; 02_instruction_words R24, R25, R29).
-/
namespace Sys2Proof.Machine

/-! ### The check of every lane (04_caches_scratchpad R101) -/

theorem badLanes_eq_nil {m : Lanes} {chk : Nat → Except Nat Acc} {accs : List Acc} (h : (lanesOf m).map chk = accs.map Except.ok)
    (va : Nat → DWord) : badLanes m chk va = [] := by
  refine List.filterMap_eq_nil_iff.2 fun l hl => ?_
  have hmem : chk l ∈ accs.map Except.ok := h ▸ List.mem_map_of_mem hl
  obtain ⟨a, -, ha⟩ := List.mem_map.1 hmem
  rw [← ha]

/-- The lanes that fail are the ones answered; where none fails, the accesses are. -/
theorem checkLanes_eq (m : Lanes) (chk : Nat → Except Nat Acc) (va : Nat → DWord) : checkLanes m chk va =
    if badLanes m chk va = [] then .ok (((lanesOf m).map chk).filterMap Except.toOption) else .error (badLanes m chk va) := by
  simp only [checkLanes, List.filterMap_map, List.isEmpty_iff]
  refine if_congr Iff.rfl (congrArg Except.ok (List.filterMap_congr fun l _ => ?_)) rfl
  cases h : chk l <;> simp [h, Except.toOption]

theorem checkLanes_of_bad {m : Lanes} {chk : Nat → Except Nat Acc} {va : Nat → DWord} (h : badLanes m chk va ≠ []) :
    checkLanes m chk va = .error (badLanes m chk va) := by
  rw [checkLanes_eq, if_neg h]

theorem checkLanes_of_ok {m : Lanes} {chk : Nat → Except Nat Acc} {accs : List Acc} (h : (lanesOf m).map chk = accs.map Except.ok)
    (va : Nat → DWord) : checkLanes m chk va = .ok accs := by
  rw [checkLanes_eq, if_pos (badLanes_eq_nil h va), h, List.filterMap_map]
  exact congrArg Except.ok List.filterMap_some

/-! ### The count of an operation (02_instruction_words R24, R29; 04_caches_scratchpad R100) -/

theorem State.modRegs_congr {s : State} {t k : Nat} {x : Warp} {f g : Regs → Regs} (hx : s.warp? t k = some x) (h : f x.regs = g x.regs) :
    s.modRegs (.warp t k) f = s.modRegs (.warp t k) g :=
  State.modWarp_congr (f := fun y => { y with regs := f y.regs }) (g := fun y => { y with regs := g y.regs }) hx (by rw [h])

section
variable {s : State} {c : Ctx} {i : Instr} {t k : Nat} {x : Warp} (h : WarpIssues s c i t k x)
include h

/-- The flag is full where it counts 63 (02_instruction_words R25). -/
theorem WarpIssues.flagFull_iff : s.flagFull c i = true ↔ 63 ≤ x.regs.flag (flagOf c.hdr i) := by
  obtain ⟨-, hu, hx⟩ := h
  simp [State.flagFull, State.regs?, hu, hx]

/-- With a lane to access the operation joins those in flight. -/
theorem WarpIssues.count_of_lanes {z : Cnt} (hm : z.emap ≠ 0) : s.count c i (s.envOf c i) (s.envOf c i).recs z =
    s.modRegs c.cur.unit fun r => r.counts
      (newOp i c (s.envOf c i) z.emap r.seq z.accs z.acq (z.rel.map (s.mkGate (s.dieOf c.cur.unit))) z.plain) := by
  obtain ⟨-, hu, hx⟩ := h
  simp only [State.count, bne_iff_ne.2 hm, if_true, hu]
  refine State.modRegs_congr hx ?_
  simp only [State.regs?, hx]
  rfl

/-- With no lane to access the destination is written at once. -/
theorem WarpIssues.count_of_no_lane (hi : isSLd i = false) (accs : List Acc) (acq rel : Option Scope) (plain : Bool) :
    s.count c i (s.envOf c i) (s.envOf c i).recs ⟨0, accs, acq, rel, plain⟩ =
      s.modWarp t k (newOp i c (s.envOf c i) 0 x.regs.seq accs none none plain).warpWritten := by
  obtain ⟨-, hu, hx⟩ := h
  have hseq : ((s.regs? (.warp t k)).getD ⟨[], [], [], [], 0⟩).seq = x.regs.seq := by simp [State.regs?, hx]
  rw [← State.writeBack_warp (o := newOp i c (s.envOf c i) 0 x.regs.seq accs none none plain) hi]
  simp only [State.count, hu, hseq]
  rfl

/-- An operation without a lane that has written its destination at once has left every lane of it absent, or kept it (07_registers
R160). -/
theorem WarpIssues.laneDone_of_no_lane {o : Op} (ho : o.instr = i) (hl : o.lmap = c.lm) (hm : o.emap = 0) (hx : x.exited = false) :
    LaneDone s (s.retire (s.modWarp t k o.warpWritten) c i) c i t k x o.dst (countedRegs i) (dKp (shape i)) 0 (fun _ => 0) 0 := by
  have hrest := o.warpWritten_rest x
  obtain ⟨z, hz, hstill, hvr⟩ := h.retires (s' := s.modWarp t k o.warpWritten) (onlyUnit_modWarp ..) (by simp [h.2.2]; rfl)
    (fun j => by have e := congrArg (fun w : Warp => w.frag? j) hrest; cases j <;> exact e)
    (by have e := congrArg Warp.spill hrest; exact e)
    ⟨by have e := congrArg Warp.last hrest; exact e, by have e := congrArg Warp.run hrest; exact e,
      by have e := congrArg Warp.other hrest; exact e⟩
  have hsame : z.still = x.still := by
    have e := congrArg Warp.still hrest
    exact hstill.trans e
  have hfst : z.fst = x.fst := by have e := congrArg Warp.fst hsame; exact e
  refine ⟨z, hz, by rw [hsame]; rfl, by rw [hfst]; simp, fun r l hlt => ?_⟩
  rw [hvr]
  by_cases hmark : r ∈ marksOf x.regs i
  · rw [if_pos hmark, if_pos hmark]
    rfl
  · rw [if_neg hmark, if_neg hmark, o.vr_warpWritten x hlt, ho, hl, hm]
    simp [hx]

/-- A form that counts an operation, but for the scalar load, issues as 02_instruction_words R24 and R29 say. -/
theorem WarpIssues.counted_of_count (hi : isSLd i = false) {body : Env → Ctx → State → Res} (he : exec i s = issueOps s i body)
    {m : Lanes} {accs : List Acc} {acq rel : Option Scope} {plain : Bool} (hb : body (s.envOf c i) c s =
      .retire (s.count c i (s.envOf c i) (s.envOf c i).recs ⟨m, accs, acq, rel, plain⟩)) :
    Counted i s c t k x (s.envOf c i) m accs acq rel plain := by
  refine ⟨fun hm => retires_of h.1 he (hb.trans (by rw [h.count_of_lanes hm])), ?_⟩
  rintro rfl hx
  rw [h.count_of_no_lane hi] at hb
  exact ⟨_, by rw [he, issueOps_next h.1, hb, finish], h.laneDone_of_no_lane rfl rfl rfl hx⟩

end

/-! ### A counted form over lanes (02_instruction_words R25; 03_memory_tiers R73, R74; 04_caches_scratchpad R101) -/

section
variable {i : Instr} {e : Env} {c : Ctx} {s : State} {opened : Bool} {chk : Nat → Except Nat Acc} {va : Nat → DWord} {m : Lanes}

theorem countRun_of_stall (h : s.flagFull c i = true ∨ opened = true) (acq rel : Option Scope) (plain : Bool) :
    countRun i e c s opened chk va m acq rel plain = .wait .stall s := by
  rw [countRun, if_pos (Bool.or_eq_true_iff.2 h)]

theorem countRun_of_bad (hf : ¬s.flagFull c i = true) (ho : ¬opened = true) (hbad : badLanes m chk va ≠ []) (acq rel : Option Scope)
    (plain : Bool) : countRun i e c s opened chk va m acq rel plain = .trap (laneTrap (badLanes m chk va) m) s := by
  rw [countRun, if_neg fun h => (Bool.or_eq_true_iff.1 h).elim hf ho, checkLanes_of_bad hbad]

theorem countRun_of_ok (hf : ¬s.flagFull c i = true) (ho : ¬opened = true) {accs : List Acc}
    (hok : (lanesOf m).map chk = accs.map Except.ok) (acq rel : Option Scope) (plain : Bool) :
    countRun i e c s opened chk va m acq rel plain = .retire (s.count c i e e.recs ⟨m, accs, acq, rel, plain⟩) := by
  rw [countRun, if_neg fun h => (Bool.or_eq_true_iff.1 h).elim hf ho, checkLanes_of_ok hok]

end

/-- A form that runs the template of the counted forms stalls, traps or counts its operation. -/
theorem WarpIssues.countForm {s : State} {c : Ctx} {i : Instr} {t k : Nat} {x : Warp} (h : WarpIssues s c i t k x) (hi : isSLd i = false)
    {body : Env → Ctx → State → Res} (he : exec i s = issueOps s i body) {opened : Bool} {busy : Prop} (hopen : opened = true ↔ busy)
    {m : Lanes} {chk : Nat → Except Nat Acc} {va : Nat → DWord} {acq rel : Option Scope} {plain : Bool}
    (hb : body (s.envOf c i) c s = countRun i (s.envOf c i) c s opened chk va m acq rel plain) :
    CountForm i s c t k x (s.envOf c i) busy m chk va acq rel plain := by
  rw [CountForm, ← hopen, ← h.flagFull_iff]
  refine ⟨fun hw => waits_of h.1 he (hb.trans (countRun_of_stall hw ..)), fun hlt ho => ?_⟩
  have hf : ¬s.flagFull c i = true := fun hf => Nat.not_le.2 hlt (h.flagFull_iff.1 hf)
  exact ⟨fun hbad => traps_of h.1 he (hb.trans (countRun_of_bad hf ho hbad ..)),
    fun accs hok => h.counted_of_count hi he (hb.trans (countRun_of_ok hf ho hok ..))⟩

/-- A scratchpad access is one to the team of the warp that issues it. -/
theorem WarpIssues.teamOf_unit {s : State} {c : Ctx} {i : Instr} {t k : Nat} {x : Warp} (h : WarpIssues s c i t k x) :
    teamOf c.cur.unit = t := by
  rw [h.2.1]; rfl

/-! ### The addresses of the lanes (04_caches_scratchpad R96, R99) -/

section
variable {w : GmW} (k unit : Nat) (e : Env) (l : Nat)

/-- A scalar base and the low 32 bits of a lane's offset, unsigned. -/
theorem gmAddrOf_of_ow_zero (h : w.ow = 0) :
    gmAddrOf w k unit e l = BitVec.ofNat 64 (opScal e.a + opLane e.b l % 2 ^ 32 * k + w.off.toNat * unit) := by
  rw [← BitVec.ofInt_natCast]
  simp [gmAddrOf, h]

/-- A scalar base and the low 32 bits of a lane's offset, signed. -/
theorem gmAddrOf_of_ow_one (h : w.ow = 1) :
    gmAddrOf w k unit e l = BitVec.ofInt 64 (opScal e.a + sextNat 32 (opLane e.b l) * k + w.off.toNat * unit) := by
  simp [gmAddrOf, h]

/-- A lane's own base. -/
theorem gmAddrOf_of_ow_two (h : w.ow = 2) : gmAddrOf w k unit e l = BitVec.ofNat 64 (opLane e.a l + w.off.toNat * unit) := by
  simp [gmAddrOf, h]

/-- A scalar base alone. -/
theorem gmAddrOf_of_ow_three (h : w.ow = 3) : gmAddrOf w k unit e l = BitVec.ofNat 64 (opScal e.a + w.off.toNat * unit) := by
  simp [gmAddrOf, h]

end

/-- Settles O22: each form runs the template of the counted forms, on the addresses of its addressing. -/
theorem countedForms : Obligations.CountedForms := by
  unfold Obligations.CountedForms
  refine ⟨fun w v op s c t k x => ⟨fun h => ?ldG, fun h => ?ldC, fun h => ?atomG, fun h => ?ldSp, fun h => ?atomSp⟩,
    fun w k unit e l => ⟨gmAddrOf_of_ow_zero k unit e l, gmAddrOf_of_ow_one k unit e l, gmAddrOf_of_ow_two k unit e l,
      gmAddrOf_of_ow_three k unit e l⟩, fun v e l => ?address⟩
  case ldG => exact h.countForm rfl (body := ldGRun w) rfl Iff.rfl rfl
  case ldC => exact h.countForm rfl (body := ldCRun w) rfl Iff.rfl rfl
  case atomG => exact h.countForm rfl (body := atomGRun op w) rfl Iff.rfl rfl
  case ldSp => exact h.countForm rfl (body := ldSpRun v) rfl Bool.false_eq_true.to_iff (by rw [ldSpRun, h.teamOf_unit])
  case atomSp => exact h.countForm rfl (body := atomSpRun op v) rfl Bool.false_eq_true.to_iff (by rw [atomSpRun, h.teamOf_unit])
  case address => simp [spAddrOf, Nat.add_assoc]

end Sys2Proof.Machine
end

section
/-!
PROOFS. The rules of tags, tiles and waiting fragments: what each operation on them changes, and that it changes nothing else.
-/
namespace Sys2Proof.Machine

/-! ### A change of teams that leaves a part of each of them as it is -/

/-- Nothing of a state has changed but its teams, and of these nothing that `keep` shows. -/
def Keeps (keep : Team → Team) (s s' : State) : Prop :=
  { s' with teams := s.teams } = s ∧ ∀ t, (s'.team? t).map keep = (s.team? t).map keep

section
variable {keep : Team → Team} {s s' : State}

theorem Keeps.refl (keep : Team → Team) (s : State) : Keeps keep s s := ⟨rfl, fun _ => rfl⟩

theorem Keeps.trans {s'' : State} (h : Keeps keep s s') (g : Keeps keep s' s'') : Keeps keep s s'' := by
  obtain ⟨h1, h2⟩ := h
  obtain ⟨g1, g2⟩ := g
  exact ⟨by rw [← h1, ← g1], fun t => (g2 t).trans (h2 t)⟩

/-- A list of changes that each keep the part keeps it. -/
theorem Keeps.foldl {α : Type} {g : State → α → State} (hg : ∀ s a, Keeps keep s (g s a)) (l : List α) (s : State) :
    Keeps keep s (l.foldl g s) := by
  induction l generalizing s with
  | nil => exact .refl ..
  | cons a l ih => exact (hg s a).trans (ih _)

theorem keeps_modTeam (s : State) (t : Nat) {f : Team → Team} (hf : ∀ x, keep (f x) = keep x := by exact fun _ => rfl) :
    Keeps keep s (s.modTeam t f) := by
  refine ⟨rfl, fun n => ?_⟩
  rw [State.team?_modTeam]
  split
  · simp [Function.comp_def, hf]
  · rfl

variable (h : Keeps keep s s')
include h

/-- What hangs on the part alone is as before. -/
theorem Keeps.map {β : Type} {f : Team → β} (hf : ∀ x, f (keep x) = f x) (t : Nat) : (s'.team? t).map f = (s.team? t).map f := by
  have e (o : Option Team) : o.map f = (o.map keep).map f := by simp [Function.comp_def, hf]
  rw [e, e (s.team? t), h.2]

/-- What keeps more of a team keeps less of it. -/
theorem Keeps.weaken {keep' : Team → Team} (hf : ∀ x, keep' (keep x) = keep' x) : Keeps keep' s s' := ⟨h.1, h.map hf⟩

theorem Keeps.bind {β : Type} {f : Team → Option β} (hf : ∀ x, f (keep x) = f x) (t : Nat) :
    (s'.team? t).bind f = (s.team? t).bind f := by
  have e (o : Option Team) : o.bind f = (o.map f).bind id := by cases o <;> rfl
  rw [e, e (s.team? t), h.map hf]

theorem Keeps.flight : s'.flight = s.flight := by have e := congrArg State.flight h.1; exact e
theorem Keeps.mem : s'.mem = s.mem := by have e := congrArg State.mem h.1; exact e
theorem Keeps.keys : s'.keys = s.keys := by have e := congrArg State.keys h.1; exact e

theorem Keeps.tags (hf : ∀ x, (keep x).tags = x.tags) (t ci : Nat) : s'.tags t ci = s.tags t ci := by
  unfold State.tags
  rw [h.bind fun x => by rw [hf]]

theorem Keeps.tag? (hf : ∀ x, (keep x).tags = x.tags) (t ci n : Nat) : s'.tag? t ci n = s.tag? t ci n := by
  unfold State.tag?
  rw [h.tags hf]

theorem Keeps.warp? (hf : ∀ x, (keep x).warps = x.warps) (t k : Nat) : s'.warp? t k = s.warp? t k :=
  h.bind (fun x => by rw [hf]) t

theorem Keeps.ccc? (hf : ∀ x, (keep x).cccs = x.cccs) (t k : Nat) : s'.ccc? t k = s.ccc? t k :=
  h.bind (fun x => by rw [hf]) t

theorem Keeps.regs? (hw : ∀ x, (keep x).warps = x.warps) (hc : ∀ x, (keep x).cccs = x.cccs) (u : UnitId) : s'.regs? u = s.regs? u := by
  cases u with
  | warp t k => simp only [State.regs?, h.warp? hw]
  | ccc t k => simp only [State.regs?, h.ccc? hc]

theorem Keeps.spByte (hf : ∀ x, (keep x).scratch = x.scratch) (t ci off : Nat) : s'.spByte t ci off = s.spByte t ci off := by
  unfold State.spByte
  rw [h.bind fun x => by rw [hf]]

theorem Keeps.accElem (hf : ∀ x, (keep x).acc = x.acc) (t n : Nat) : s'.accElem t n = s.accElem t n := by
  unfold State.accElem
  rw [h.map fun x => by rw [hf]]

theorem Keeps.tileE (hf : ∀ x, (keep x).eown = x.eown) (t ci m : Nat) : s'.tileE t ci m = s.tileE t ci m := by
  unfold State.tileE
  rw [h.bind fun x => by rw [hf]]

theorem Keeps.sameMem (hs : ∀ x, (keep x).scratch = x.scratch) (ha : ∀ x, (keep x).acc = x.acc) : SameMem s s' := by
  refine ⟨fun d k a => ?_, h.spByte hs, h.accElem ha⟩
  unfold State.dieByte State.seenAt State.baseByte
  rw [h.flight, h.mem, h.keys]

end

/-! ### Tags (05_copy_engine R113) -/

/-- A team but for its tags. -/
def Team.noTags (x : Team) : Team := { x with tags := [] }

theorem keeps_modTag (s : State) (t ci n : Nat) (f : Tag → Tag) : Keeps Team.noTags s (s.modTag t ci n f) :=
  keeps_modTeam s t

@[simp] theorem State.tags_modTag (s : State) (t ci n : Nat) (f : Tag → Tag) (t' ci' : Nat) :
    (s.modTag t ci n f).tags t' ci' = if t = t' ∧ ci = ci' then lmod (s.tags t' ci') n f else s.tags t' ci' := by
  unfold State.tags State.modTag
  rw [State.team?_modTeam]
  by_cases ht : t = t'
  · subst ht
    cases s.team? t with
    | none => simp [lmod]
    | some x => by_cases hc : ci = ci' <;> cases hx : x.tags[ci']? <;> simp [hc, hx, lmod]
  · simp [ht]

@[simp] theorem State.tag?_modTag (s : State) (t ci n : Nat) (f : Tag → Tag) (t' ci' n' : Nat) :
    (s.modTag t ci n f).tag? t' ci' n' = if t = t' ∧ ci = ci' ∧ n = n' then (s.tag? t' ci' n').map f else s.tag? t' ci' n' := by
  unfold State.tag?
  rw [State.tags_modTag]
  by_cases ht : t = t' ∧ ci = ci'
  · simp [ht]
  · rw [if_neg ht, if_neg fun e => ht ⟨e.1, e.2.1⟩]

/-! ### The fragments of a team (05_copy_engine R126) -/

theorem keeps_modFrags (s : State) (t : Nat) (g : Frag → Frag) : Keeps Team.bare s (s.modFrags t g) :=
  keeps_modTeam s t

@[simp] theorem State.warp?_modFrags (s : State) (t : Nat) (g : Frag → Frag) (t' k : Nat) :
    (s.modFrags t g).warp? t' k = if t = t' then (s.warp? t' k).map (·.modFrags g) else s.warp? t' k := by
  unfold State.modFrags
  rw [State.warp?_modTeam]
  simp [State.warp?, Option.map_bind]

@[simp] theorem State.ccc?_modFrags (s : State) (t : Nat) (g : Frag → Frag) (t' k : Nat) :
    (s.modFrags t g).ccc? t' k = if t = t' then (s.ccc? t' k).map fun y => { y with frag := g y.frag } else s.ccc? t' k := by
  unfold State.modFrags
  rw [State.ccc?_modTeam]
  simp [State.ccc?, Option.map_bind]

@[simp] theorem State.regs?_modFrags (s : State) (t : Nat) (g : Frag → Frag) (u : UnitId) : (s.modFrags t g).regs? u = s.regs? u := by
  cases u with
  | warp t' k =>
    simp only [State.regs?, State.warp?_modFrags]
    split
    · simp [Warp.modFrags, Function.comp_def]
    · rfl
  | ccc t' k =>
    simp only [State.regs?, State.ccc?_modFrags]
    split
    · simp [Function.comp_def]
    · rfl

/-! ### Tiles and their use counts (05_copy_engine R119, R122) -/

/-- The use counts of a team core's tiles, if there is such a team core. -/
def State.uses? (s : State) (t ci : Nat) : Option (Table Nat) := (s.team? t).bind fun x => x.uses[ci]?

/-- The tiles of a team core that the engine owns. -/
def State.eown? (s : State) (t ci : Nat) : Option (Table Unit) := (s.team? t).bind fun x => x.eown[ci]?

theorem State.tileUse_eq (s : State) (t ci m : Nat) : s.tileUse t ci m = ((s.uses? t ci).map fun u => tgetD u m 0).getD 0 := by
  simp [State.tileUse, State.uses?, Option.map_bind]

theorem State.tileE_eq (s : State) (t ci m : Nat) : s.tileE t ci m = ((s.eown? t ci).bind fun u => tget u m).isSome := by
  simp [State.tileE, State.eown?, Option.bind_assoc]

/-- A team but for the use counts of its tiles, and but for its tiles' owners as well. -/
def Team.noUses (x : Team) : Team := { x with uses := [] }
def Team.noTiles (x : Team) : Team := { x with uses := [], eown := [] }

section
variable {keep : Team → Team} {s s' : State} (h : Keeps keep s s') (hf : ∀ x, (keep x).uses = x.uses)
include h hf

theorem Keeps.uses? (t ci : Nat) : s'.uses? t ci = s.uses? t ci := h.bind (f := fun x => x.uses[ci]?) (fun x => by rw [hf]) t

theorem Keeps.tileUse (t ci m : Nat) : s'.tileUse t ci m = s.tileUse t ci m := by
  rw [State.tileUse_eq, State.tileUse_eq, h.uses? hf]

end

theorem keeps_useTiles (s : State) (l : List (Nat × Nat × Nat)) : Keeps Team.noUses s (s.useTiles l) :=
  .foldl (fun s x => keeps_modTeam s x.1) l s

theorem keeps_setTile (s : State) (t ci m : Nat) (e : Bool) : Keeps Team.noTiles s (s.setTile t ci m e) :=
  keeps_modTeam s t

theorem keeps_freeTiles (s : State) (l : List (Nat × Nat × Nat)) : Keeps Team.noTiles s (s.freeTiles l) := by
  refine .foldl (fun s x => ?_) l s
  have hu : Keeps Team.noTiles s (s.setUse x.1 x.2.1 x.2.2 (s.tileUse x.1 x.2.1 x.2.2 - 1)) := keeps_modTeam s x.1
  dsimp only
  split
  · exact hu.trans (keeps_setTile ..)
  · exact hu

theorem State.uses?_setUse (s : State) (t ci m n t' ci' : Nat) :
    (s.setUse t ci m n).uses? t' ci' = if t = t' ∧ ci = ci' then (s.uses? t' ci').map fun u => tset 0 u m n else s.uses? t' ci' := by
  unfold State.uses? State.setUse
  rw [State.team?_modTeam]
  by_cases ht : t = t'
  · cases s.team? t' with
    | none => simp
    | some x => by_cases hc : ci = ci' <;> simp [ht, hc]
  · simp [ht]

theorem State.isSome_uses?_setUse (s : State) (t ci m n t' ci' : Nat) :
    ((s.setUse t ci m n).uses? t' ci').isSome = (s.uses? t' ci').isSome := by
  rw [State.uses?_setUse]
  split
  · exact Option.isSome_map ..
  · rfl

theorem State.tileUse_setUse {s : State} {t' ci' : Nat} (h : (s.uses? t' ci').isSome) (t ci m n m' : Nat) :
    (s.setUse t ci m n).tileUse t' ci' m' = if (t, ci, m) = (t', ci', m') then n else s.tileUse t' ci' m' := by
  obtain ⟨u, hu⟩ := Option.isSome_iff_exists.1 h
  rw [State.tileUse_eq, State.tileUse_eq, State.uses?_setUse]
  by_cases hk : t = t' ∧ ci = ci'
  · simp [hk, hu]
  · rw [if_neg hk, if_neg fun e => hk ⟨(Prod.mk.inj e).1, (Prod.mk.inj (Prod.mk.inj e).2).1⟩]

theorem State.eown?_setTile (s : State) (t ci m : Nat) (e : Bool) (t' ci' : Nat) :
    (s.setTile t ci m e).eown? t' ci' =
      if t = t' ∧ ci = ci' then (s.eown? t' ci').map fun u => if e then tput u m () else tdel u m else s.eown? t' ci' := by
  unfold State.eown? State.setTile
  rw [State.team?_modTeam]
  by_cases ht : t = t'
  · cases s.team? t' with
    | none => simp
    | some x => by_cases hc : ci = ci' <;> simp [ht, hc]
  · simp [ht]

theorem State.isSome_eown?_setTile (s : State) (t ci m : Nat) (e : Bool) (t' ci' : Nat) :
    ((s.setTile t ci m e).eown? t' ci').isSome = (s.eown? t' ci').isSome := by
  rw [State.eown?_setTile]
  split
  · exact Option.isSome_map ..
  · rfl

/-- A tile that a thread takes back is a thread's; every other keeps its owner. -/
theorem State.tileE_setTile_false (s : State) (t ci m t' ci' m' : Nat) :
    (s.setTile t ci m false).tileE t' ci' m' = if (t, ci, m) = (t', ci', m') then false else s.tileE t' ci' m' := by
  rw [State.tileE_eq, State.tileE_eq, State.eown?_setTile]
  by_cases hk : t = t' ∧ ci = ci'
  · cases s.eown? t' ci' with
    | none => simp
    | some u => by_cases hm : m = m' <;> simp [hk, hm]
  · rw [if_neg hk, if_neg fun e => hk ⟨(Prod.mk.inj e).1, (Prod.mk.inj (Prod.mk.inj e).2).1⟩]

/-- A tile that is given to the engine is the engine's; every other keeps its owner. -/
theorem State.tileE_setTile_true {s : State} {t ci : Nat} (h : (s.eown? t ci).isSome) (m t' ci' m' : Nat) :
    (s.setTile t ci m true).tileE t' ci' m' = if (t, ci, m) = (t', ci', m') then true else s.tileE t' ci' m' := by
  rw [State.tileE_eq, State.tileE_eq, State.eown?_setTile]
  by_cases hk : t = t' ∧ ci = ci'
  · obtain ⟨u, hu⟩ := Option.isSome_iff_exists.1 h
    obtain ⟨rfl, rfl⟩ := hk
    by_cases hm : m = m' <;> simp [hu, hm]
  · rw [if_neg hk, if_neg fun e => hk ⟨(Prod.mk.inj e).1, (Prod.mk.inj (Prod.mk.inj e).2).1⟩]

/-- Every tile of a list has one more user for each time that it is listed. -/
theorem State.tileUse_useTiles (l : List (Nat × Nat × Nat)) {s : State} {t ci : Nat} (h : (s.uses? t ci).isSome) (m : Nat) :
    (s.useTiles l).tileUse t ci m = s.tileUse t ci m + l.count (t, ci, m) := by
  induction l generalizing s with
  | nil => rfl
  | cons x l ih =>
    have hs : s.useTiles (x :: l) = (s.setUse x.1 x.2.1 x.2.2 (s.tileUse x.1 x.2.1 x.2.2 + 1)).useTiles l := rfl
    rw [hs, ih (by rw [State.isSome_uses?_setUse]; exact h), State.tileUse_setUse h, List.count_cons]
    by_cases hx : x = (t, ci, m)
    · subst hx
      simp
      omega
    · simp [hx]

/-- One tile that loses a user: where that was the last, it goes back to the threads. -/
def State.freeTile (s : State) (x : Nat × Nat × Nat) : State :=
  let n := s.tileUse x.1 x.2.1 x.2.2 - 1
  let s := s.setUse x.1 x.2.1 x.2.2 n
  if n = 0 then s.setTile x.1 x.2.1 x.2.2 false else s

theorem State.freeTiles_cons (s : State) (x : Nat × Nat × Nat) (l : List (Nat × Nat × Nat)) :
    s.freeTiles (x :: l) = (s.freeTile x).freeTiles l := rfl

theorem State.uses?_setTile (s : State) (t ci m : Nat) (e : Bool) (t' ci' : Nat) : (s.setTile t ci m e).uses? t' ci' = s.uses? t' ci' :=
  (keeps_modTeam (keep := fun x => { x with eown := [] }) s t).bind (f := fun x => x.uses[ci']?) (fun _ => rfl) t'

theorem State.tileE_setUse (s : State) (t ci m n t' ci' m' : Nat) : (s.setUse t ci m n).tileE t' ci' m' = s.tileE t' ci' m' :=
  (keeps_modTeam (keep := Team.noUses) s t).tileE (fun _ => rfl) t' ci' m'

theorem State.isSome_uses?_freeTile (s : State) (x : Nat × Nat × Nat) (t ci : Nat) :
    ((s.freeTile x).uses? t ci).isSome = (s.uses? t ci).isSome := by
  unfold State.freeTile
  dsimp only
  split
  · rw [State.uses?_setTile, State.isSome_uses?_setUse]
  · rw [State.isSome_uses?_setUse]

theorem State.tileUse_freeTile {s : State} {t ci : Nat} (h : (s.uses? t ci).isSome) (x : Nat × Nat × Nat) (m : Nat) :
    (s.freeTile x).tileUse t ci m = if x = (t, ci, m) then s.tileUse t ci m - 1 else s.tileUse t ci m := by
  have hs : (s.freeTile x).tileUse t ci m =
      (s.setUse x.1 x.2.1 x.2.2 (s.tileUse x.1 x.2.1 x.2.2 - 1)).tileUse t ci m := by
    unfold State.freeTile
    dsimp only
    split
    · rw [State.tileUse_eq, State.uses?_setTile, ← State.tileUse_eq]
    · rfl
  rw [hs, State.tileUse_setUse h]
  by_cases hx : x = (t, ci, m)
  · subst hx
    rfl
  · rw [if_neg hx, if_neg hx]

theorem State.tileE_freeTile (s : State) (x : Nat × Nat × Nat) (t ci m : Nat) :
    (s.freeTile x).tileE t ci m = if x = (t, ci, m) ∧ s.tileUse t ci m ≤ 1 then false else s.tileE t ci m := by
  unfold State.freeTile
  dsimp only
  by_cases hn : s.tileUse x.1 x.2.1 x.2.2 - 1 = 0
  · rw [if_pos hn, State.tileE_setTile_false, State.tileE_setUse]
    by_cases hx : x = (t, ci, m)
    · subst hx
      dsimp only at hn
      rw [if_pos rfl, if_pos ⟨rfl, by omega⟩]
    · rw [if_neg hx, if_neg fun e => hx e.1]
  · rw [if_neg hn, State.tileE_setUse, if_neg]
    rintro ⟨rfl, h1⟩
    dsimp only at hn
    omega

/-- Each tile of a list without repetition loses one user, and goes back to the threads where that was the last. -/
theorem State.tiles_freeTiles {l : List (Nat × Nat × Nat)} (hl : l.Nodup) {s : State} {t ci : Nat} (h : (s.uses? t ci).isSome) (m : Nat) :
    (s.freeTiles l).tileUse t ci m = (if (t, ci, m) ∈ l then s.tileUse t ci m - 1 else s.tileUse t ci m) ∧
      (s.freeTiles l).tileE t ci m = (if (t, ci, m) ∈ l ∧ s.tileUse t ci m ≤ 1 then false else s.tileE t ci m) := by
  induction l generalizing s with
  | nil => simp [State.freeTiles]
  | cons x l ih =>
    obtain ⟨hx, hl⟩ := List.nodup_cons.1 hl
    obtain ⟨hu, he⟩ := ih hl (s := s.freeTile x) (by rw [State.isSome_uses?_freeTile]; exact h)
    rw [State.freeTiles_cons, hu, he, State.tileUse_freeTile h, State.tileE_freeTile]
    by_cases hk : x = (t, ci, m)
    · subst hk
      simp [hx]
    · simp [hk, Ne.symm hk]

/-! ### The tiles of an extent (05_copy_engine R119) -/

theorem mem_tilesOf {e : Nat × Nat × Nat} {len t ci m : Nat} :
    (t, ci, m) ∈ tilesOf e len ↔ t = e.1 ∧ ci = e.2.1 ∧ e.2.2 / 4096 ≤ m ∧ m ≤ (e.2.2 + len - 1) / 4096 := by
  simp only [tilesOf, List.mem_map, List.mem_range, Prod.mk.injEq]
  constructor
  · rintro ⟨i, hi, rfl, rfl, rfl⟩
    exact ⟨rfl, rfl, by omega, by omega⟩
  · rintro ⟨rfl, rfl, h1, h2⟩
    exact ⟨m - e.2.2 / 4096, by omega, rfl, rfl, by omega⟩

theorem nodup_tilesOf (e : Nat × Nat × Nat) (len : Nat) : (tilesOf e len).Nodup :=
  List.nodup_range.map fun i j h => by simpa using h

end Sys2Proof.Machine
end

section
/-!
PROOFS. Obligation O38: `own.give` and `own.test`.
-/
namespace Sys2Proof.Machine

/-! ### The tiles that an ownership form names (05_copy_engine R128) -/

/-- The address that an ownership form names. -/
def ownAddr (w : OwnW) (e : Env) : Nat := ((if w.az then 0 else opScal e.a) + w.toff.toNat * 4096) % 2 ^ 32

section
variable {s : State} {t : Nat} {w : OwnW} {e : Env} {give : Bool}

theorem State.ownArgs_of_misaligned (ha : ownAddr w e % 4096 ≠ 0) : s.ownArgs t w e give = .error (cALIGN, ownAddr w e) := if_pos ha

theorem State.ownArgs_of_no_core (ha : ownAddr w e % 4096 = 0) (hd : s.spDecode t (ownAddr w e + 0x100) = none) :
    s.ownArgs t w e give = .error (cRANGE, ownAddr w e) := by
  unfold ownAddr at *
  simp only [State.ownArgs, ha, hd, ne_eq, not_true, if_false]

variable {g ci off : Nat} {y : Team} (ha : ownAddr w e % 4096 = 0) (hd : s.spDecode t (ownAddr w e + 0x100) = some (g, ci, off))
  (hy : s.team? g = some y)
include ha hd hy

theorem State.ownArgs_of_core : s.ownArgs t w e give =
    if y.tiles < off / 4096 + (w.nt.toNat + 1) ∨ (give = true ∧ ci = 0 ∧ off / 4096 = 0) then .error (cRANGE, ownAddr w e)
    else .ok (g, ci, off / 4096, w.nt.toNat + 1) := by
  unfold ownAddr at *
  simp only [State.ownArgs, ha, hd, hy, ne_eq, not_true, if_false, Option.map_some, Option.getD_some]

end

/-! ### The gift of tiles to the engine (05_copy_engine R129) -/

/-- A run of tiles is given to the engine. -/
def State.giveTiles (s : State) (g ci first n : Nat) : State := (List.range n).foldl (fun s i => s.setTile g ci (first + i) true) s

theorem keeps_giveTiles (s : State) (g ci first n : Nat) : Keeps Team.noTiles s (s.giveTiles g ci first n) :=
  .foldl (fun s i => keeps_setTile s g ci (first + i) true) _ s

theorem State.giveTiles_succ (s : State) (g ci first n : Nat) :
    s.giveTiles g ci first (n + 1) = (s.giveTiles g ci first n).setTile g ci (first + n) true := by
  simp [State.giveTiles, List.range_succ]

theorem State.isSome_eown?_giveTiles (s : State) (g ci first n t' ci' : Nat) :
    ((s.giveTiles g ci first n).eown? t' ci').isSome = (s.eown? t' ci').isSome := by
  induction n with
  | zero => rfl
  | succ n ih => rw [State.giveTiles_succ, State.isSome_eown?_setTile, ih]

theorem State.tileE_giveTiles {s : State} {g ci : Nat} (h : (s.eown? g ci).isSome) (first n g' ci' m : Nat) :
    (s.giveTiles g ci first n).tileE g' ci' m =
      (s.tileE g' ci' m || (decide (g' = g) && decide (ci' = ci) && decide (first ≤ m) && decide (m < first + n))) := by
  induction n with
  | zero => simp [State.giveTiles]
  | succ n ih =>
    rw [State.giveTiles_succ, State.tileE_setTile_true (by rw [State.isSome_eown?_giveTiles]; exact h), ih]
    by_cases hk : (g, ci, first + n) = (g', ci', m)
    · obtain ⟨rfl, rfl, rfl⟩ : g = g' ∧ ci = ci' ∧ first + n = m := by simpa using hk
      simp
    · rw [if_neg hk]
      grind

/-! ### The two forms -/

section
variable {w : OwnW} {i : Instr} {s : State} {c : Ctx} {t k : Nat} {x : Warp} (h : WarpIssues s c i t k x)
include h

/-- Either form traps where its tiles are not in their place. -/
theorem WarpIssues.traps_of_ownArgs {give : Bool} (hi : (i, give) ∈ [(Instr.ownGive w, true), (.ownTest w, false)]) {m a : Nat}
    (he : s.ownArgs t w (s.envOf c i) give = .error (m, a)) : Traps i s c (oneTrap m (BitVec.ofNat 64 a)) := by
  rw [← h.teamOf_unit] at he
  rcases List.mem_pair.1 hi with hi | hi <;> cases hi
  · exact traps_of h.1 (body := fun c s => ownGiveRun w (s.envOf c (.ownGive w)) c s) rfl (by simp only [ownGiveRun, he])
  · exact traps_of h.1 (body := fun c s => ownTestRun w (s.envOf c (.ownTest w)) c s) rfl (by simp only [ownTestRun, he])

end

section
variable {w : OwnW} {s : State} {c : Ctx} {t k : Nat} {x : Warp} {g ci first n : Nat}

theorem WarpIssues.ownGive_waits (h : WarpIssues s c (.ownGive w) t k x)
    (ho : s.ownArgs t w (s.envOf c (.ownGive w)) true = .ok (g, ci, first, n)) (hb : s.giveBusy c.cur.unit g ci first n = true) :
    Waits (.ownGive w) s c (.give g ci first n) s := by
  rw [← h.teamOf_unit] at ho
  exact waits_of h.1 (body := fun c s => ownGiveRun w (s.envOf c (.ownGive w)) c s) rfl (by simp only [ownGiveRun, ho, hb, if_true])

theorem WarpIssues.ownGive_retires (h : WarpIssues s c (.ownGive w) t k x)
    (ho : s.ownArgs t w (s.envOf c (.ownGive w)) true = .ok (g, ci, first, n)) (hb : s.giveBusy c.cur.unit g ci first n = false) :
    Retires (.ownGive w) s c (s.giveTiles g ci first n) := by
  rw [← h.teamOf_unit] at ho
  refine retires_of h.1 (body := fun c s => ownGiveRun w (s.envOf c (.ownGive w)) c s) rfl ?_
  simp only [ownGiveRun, ho, hb]
  rfl

theorem WarpIssues.ownTest_done (h : WarpIssues s c (.ownTest w) t k x)
    (ho : s.ownArgs t w (s.envOf c (.ownTest w)) false = .ok (g, ci, first, n)) :
    ∃ s', exec (.ownTest w) s = .next s' ∧ ScalarDone s s' c (.ownTest w) t k x (s.envOf c (.ownTest w)).dst
      [laneMap fun b => decide (b < n) && !s.tileE g ci (first + b)] := by
  rw [← h.teamOf_unit] at ho
  have he : exec (.ownTest w) s = issueOps s (.ownTest w) (ownTestRun w) := rfl
  rw [he, issueOps_next h.1]
  simp only [ownTestRun, ho, finish]
  exact ⟨_, rfl, h.scalarDone ..⟩

end

/-- Settles O38: the address and the tiles are checked first; the gift waits and then sets the owner of each tile, and the test reads
them. -/
theorem tileOwnership : Obligations.TileOwnership := by
  unfold Obligations.TileOwnership
  intro w i s c t k x hi h
  obtain ⟨give, hform, hgive⟩ : ∃ give, (i, give) ∈ [(Instr.ownGive w, true), (.ownTest w, false)] ∧ (give = true ↔ i = .ownGive w) := by
    rcases List.mem_pair.1 hi with rfl | rfl
    · exact ⟨true, by simp, by simp⟩
    · exact ⟨false, by simp, by simp⟩
  refine ⟨fun ha => h.traps_of_ownArgs hform (State.ownArgs_of_misaligned ha),
    fun ha hd => h.traps_of_ownArgs hform (State.ownArgs_of_no_core ha hd), fun g ci off y ha hd hy => ⟨fun hbad => ?outside,
    fun hin hfirst => ⟨?waits, ?gives, ?reads⟩⟩⟩
  case outside => exact h.traps_of_ownArgs hform ((State.ownArgs_of_core ha hd hy).trans (if_pos (by rwa [hgive])))
  all_goals
    have hok : s.ownArgs t w (s.envOf c i) give = .ok (g, ci, off / 4096, w.nt.toNat + 1) :=
      (State.ownArgs_of_core ha hd hy).trans (if_neg (by rw [hgive]; exact not_or.2 ⟨Nat.not_lt.2 hin, hfirst⟩))
    intro hi
  case waits =>
    intro hb
    cases hgive.2 hi
    subst hi
    exact h.ownGive_waits hok (by rwa [State.giveBusy, Bool.or_eq_true])
  case gives =>
    intro hb ho
    cases hgive.2 hi
    subst hi
    have hk := keeps_giveTiles s g ci (off / 4096) (w.nt.toNat + 1)
    refine ⟨_, h.ownGive_retires hok (by rw [State.giveBusy, hb, ho]; rfl), hk.1, hk.sameMem (fun _ => rfl) (fun _ => rfl),
      hk.regs? (fun _ => rfl) (fun _ => rfl), fun g' ci' m ⟨o, hown⟩ => State.tileE_giveTiles ?_ ..⟩
    simp [State.eown?, hy, hown]
  case reads =>
    intro hn
    subst hi
    have hf : give = false := by simpa using hgive
    subst hf
    refine ⟨_, h.ownTest_done hok, fun b hb => ?_⟩
    rw [laneMap_getLsbD, decide_eq_true hb, Bool.true_and]

end Sys2Proof.Machine
end

section
/-!
PROOFS. Obligation O35: the issue of a copy command, and its checks.
-/
namespace Sys2Proof.Machine

/-! ### The checks of a copy, each by itself (05_copy_engine R116, R119) -/

/-- A copy's addresses are aligned. -/
def Copy.Aligned (a : Copy) : Prop := a.sp % 16 = 0 ∧ a.gva.toNat % 16 = 0 ∧ ∀ m, a.mbox = some m → m.toNat % 64 = 0

/-- The length of a row is allowed. -/
def RowOk (r : Nat) : Prop := r % 16 = 0 ∧ 16 ≤ r ∧ r ≤ 65536

/-- A copy's shape, if it has one, is allowed. -/
def Copy.Shaped (a : Copy) : Prop := ∀ r n st, a.shape = some (r, n, st) → RowOk r ∧ 1 ≤ n ∧ n ≤ 4096 ∧ st % 16 = 0

/-- A copy's length is allowed. -/
def Copy.LenOk (a : Copy) : Prop := a.len ≠ 0 ∧ a.len % 16 = 0 ∧ a.len ≤ 393216 ∧ (a.mbox ≠ none → 64 ≤ a.len)

/-- A copy of global memory has its address, shape and length within their bounds. -/
def Copy.Sized (a : Copy) : Prop := a.sub ≤ 1 → a.gva.toNat < 2 ^ 48 ∧ a.Shaped ∧ a.LenOk

section
variable {a : Copy}

theorem Copy.misaligned_of_sp (h : a.sp % 16 ≠ 0) : a.misaligned = some (BitVec.ofNat 64 a.sp) := if_pos h

theorem Copy.misaligned_of_gva (hs : a.sp % 16 = 0) (h : a.gva.toNat % 16 ≠ 0) : a.misaligned = some a.gva :=
  (if_neg (not_not.2 hs)).trans (if_pos h)

theorem Copy.misaligned_of_mbox (hs : a.sp % 16 = 0) (hg : a.gva.toNat % 16 = 0) {m : DWord} (hm : a.mbox = some m)
    (h : m.toNat % 64 ≠ 0) : a.misaligned = some m := by
  simp [Copy.misaligned, hs, hg, hm, h]

theorem Copy.misaligned_of_aligned (h : a.Aligned) : a.misaligned = none := by
  obtain ⟨hs, hg, hm⟩ := h
  cases hb : a.mbox with
  | none => simp [Copy.misaligned, hs, hg, hb]
  | some m => simp [Copy.misaligned, hs, hg, hb, hm m hb]

/-- The failing scalar of a shape, and the failing length. -/
def Copy.badShape (a : Copy) : Option DWord := a.shape.bind fun x =>
  if x.1 % 16 ≠ 0 ∨ x.1 < 16 ∨ 65536 < x.1 then some (BitVec.ofNat 64 x.1)
  else if x.2.1 < 1 ∨ 4096 < x.2.1 then some (BitVec.ofNat 64 x.2.1)
  else if x.2.2 % 16 ≠ 0 then some (BitVec.ofNat 64 (wrapNat 32 x.2.2)) else none

def Copy.badCount (a : Copy) : Option DWord :=
  if a.len = 0 ∨ a.len % 16 ≠ 0 ∨ 393216 < a.len ∨ (a.mbox.isSome ∧ a.len < 64) then some (BitVec.ofNat 64 a.len) else none

theorem Copy.badLen_of_engine (h : 1 < a.sub) : a.badLen = none := if_pos h

theorem Copy.badLen_of_gva (hs : a.sub ≤ 1) (h : 2 ^ 48 ≤ a.gva.toNat) : a.badLen = some a.gva :=
  (if_neg (Nat.not_lt.2 hs)).trans (if_pos h)

theorem Copy.badLen_of_global (hs : a.sub ≤ 1) (h : a.gva.toNat < 2 ^ 48) : a.badLen = a.badShape.or a.badCount := by
  refine (if_neg (Nat.not_lt.2 hs)).trans ((if_neg (Nat.not_le.2 h)).trans ?_)
  unfold Copy.badShape Copy.badCount
  cases a.shape with
  | none => rfl
  | some x =>
    dsimp only [Option.bind_some]
    split_ifs <;> rfl

theorem rowOk_iff {r : Nat} : RowOk r ↔ ¬(r % 16 ≠ 0 ∨ r < 16 ∨ 65536 < r) := by
  unfold RowOk
  omega

theorem Copy.badShape_of_shaped (h : a.Shaped) : a.badShape = none := by
  unfold Copy.badShape
  cases hsh : a.shape with
  | none => rfl
  | some x =>
    obtain ⟨r, n, st⟩ := x
    obtain ⟨hr, h1, h2, hst⟩ := h r n st hsh
    dsimp only [Option.bind_some]
    rw [if_neg (rowOk_iff.1 hr), if_neg (by omega), if_neg (not_not.2 hst)]

section
variable {r n : Nat} {st : Int} (hsh : a.shape = some (r, n, st))
include hsh

theorem Copy.badShape_of_row (h : ¬RowOk r) : a.badShape = some (BitVec.ofNat 64 r) := by
  rw [Copy.badShape, hsh]
  exact if_pos (by rwa [rowOk_iff, not_not] at h)

theorem Copy.badShape_of_rows (hr : RowOk r) (h : ¬(1 ≤ n ∧ n ≤ 4096)) : a.badShape = some (BitVec.ofNat 64 n) := by
  rw [Copy.badShape, hsh]
  exact (if_neg (rowOk_iff.1 hr)).trans (if_pos (show n < 1 ∨ 4096 < n by omega))

theorem Copy.badShape_of_stride (hr : RowOk r) (h1 : 1 ≤ n) (h2 : n ≤ 4096) (h : st % 16 ≠ 0) :
    a.badShape = some (BitVec.ofNat 64 (wrapNat 32 st)) := by
  rw [Copy.badShape, hsh]
  exact (if_neg (rowOk_iff.1 hr)).trans ((if_neg (show ¬(n < 1 ∨ 4096 < n) by omega)).trans (if_pos h))

end

theorem Copy.lenOk_iff : a.LenOk ↔ ¬(a.len = 0 ∨ a.len % 16 ≠ 0 ∨ 393216 < a.len ∨ (a.mbox.isSome ∧ a.len < 64)) := by
  unfold Copy.LenOk
  rw [← Option.isSome_iff_ne_none]
  grind

theorem Copy.badCount_of_not_lenOk (h : ¬a.LenOk) : a.badCount = some (BitVec.ofNat 64 a.len) :=
  if_pos (by rwa [Copy.lenOk_iff, not_not] at h)

theorem Copy.badLen_of_sized (h : a.Sized) : a.badLen = none := by
  by_cases hs : a.sub ≤ 1
  · obtain ⟨hg, hsh, hl⟩ := h hs
    rw [Copy.badLen_of_global hs hg, Copy.badShape_of_shaped hsh]
    exact if_neg (Copy.lenOk_iff.1 hl)
  · exact Copy.badLen_of_engine (by omega)

end

/-- The slot of a copy to an operand slot is claimed. -/
def State.CopyClaimed (s : State) (t : Nat) (a : Copy) : Prop :=
  a.sub = 2 → ∃ q z, s.team? t = some q ∧ q.slots[a.slot]? = some z ∧ z.cl = true

theorem State.copyClaimed_iff {s : State} {t : Nat} {a : Copy} : s.CopyClaimed t a ↔ ¬(a.sub = 2 ∧ s.badSlot t a.slot = true) := by
  unfold State.CopyClaimed State.badSlot
  cases hq : s.team? t with
  | none => simp
  | some q => cases hz : q.slots[a.slot]? <;> simp [hz]

/-- A copy's scratchpad extent starts at `e` and ends in the same team core. -/
def State.CopyAt (s : State) (t : Nat) (a : Copy) (e : Nat × Nat × Nat) : Prop :=
  s.spDecode t a.sp = some e ∧ (s.spDecode t (a.sp + a.len - 1)).map (fun x => (x.1, x.2.1)) = some (e.1, e.2.1)

/-- A copy of accumulator rows takes them from its team's region. -/
def State.CopyRowed (s : State) (t rows : Nat) (a : Copy) : Prop :=
  a.sub = 3 → a.row + rows ≤ 512 ∧ ∀ r, r < rows → inRegion (s.blocksOf t) (a.row + r) a.col = true

section
variable {s : State} {t : Nat} {a : Copy}

theorem State.extent_of_none (h : s.spDecode t a.sp = none) : s.extent t a.sp a.len = .error a.sp := by
  simp only [State.extent, h]

theorem State.extent_of_copyAt {e : Nat × Nat × Nat} (h : s.CopyAt t a e) : s.extent t a.sp a.len = .ok e := by
  obtain ⟨h1, h2⟩ := h
  obtain ⟨y, hy, he⟩ := Option.map_eq_some_iff.1 h2
  obtain ⟨ht, hc⟩ := Prod.mk.inj he
  simp only [State.extent, h1, hy, ht, hc, and_self, if_true]

theorem State.extent_of_not_copyAt {e : Nat × Nat × Nat} (h1 : s.spDecode t a.sp = some e) (h : ¬s.CopyAt t a e) :
    s.extent t a.sp a.len = .error (a.sp + a.len - 1) := by
  cases hy : s.spDecode t (a.sp + a.len - 1) with
  | none => simp only [State.extent, h1, hy]
  | some y =>
    have hne : ¬(e.1 = y.1 ∧ e.2.1 = y.2.1) := fun ⟨ht, hc⟩ => h ⟨h1, by rw [hy, Option.map_some, ht, hc]⟩
    simp only [State.extent, h1, hy, if_neg hne]

theorem Copy.badRows_of_count {nb rows : Nat} (hs : a.sub = 3) (h : 512 < a.row + rows) :
    a.badRows nb rows = some (BitVec.ofNat 64 (a.row + rows)) :=
  (if_neg (not_not.2 hs)).trans (if_pos h)

theorem Copy.badRows_of_row {nb rows r : Nat} (hs : a.sub = 3) (h : a.row + rows ≤ 512) (hr : r < rows)
    (hout : inRegion nb (a.row + r) a.col = false) (hin : ∀ q, q < r → inRegion nb (a.row + q) a.col = true) :
    a.badRows nb rows = some (BitVec.ofNat 64 (a.row + r + 2 ^ 16 * a.col)) := by
  have hfirst : ((List.range rows).find? fun i => !inRegion nb (a.row + i) a.col) = some r :=
    List.find?_range_eq_some.2 ⟨by simp [hout], by simpa using hr, by simpa using hin⟩
  exact (if_neg (not_not.2 hs)).trans ((if_neg (Nat.not_lt.2 h)).trans (by rw [hfirst]; rfl))

theorem State.badRows_of_copyRowed {rows : Nat} (h : s.CopyRowed t rows a) : a.badRows (s.blocksOf t) rows = none := by
  by_cases hs : a.sub = 3
  · obtain ⟨hc, hr⟩ := h hs
    have hall : ((List.range rows).find? fun i => !inRegion (s.blocksOf t) (a.row + i) a.col) = none := by simpa using hr
    exact (if_neg (not_not.2 hs)).trans ((if_neg (Nat.not_lt.2 hc)).trans (by rw [hall]; rfl))
  · exact if_pos hs

/-- The lowest tile of an extent that is the threads'. -/
theorem State.tTile_of_first {e : Nat × Nat × Nat} {m : Nat} (hlo : e.2.2 / 4096 ≤ m) (hhi : m ≤ (e.2.2 + a.len - 1) / 4096)
    (hm : s.tileE e.1 e.2.1 m = false)
    (hlow : ∀ q, q < m → e.2.2 / 4096 ≤ q ∧ q ≤ (e.2.2 + a.len - 1) / 4096 → s.tileE e.1 e.2.1 q = true) :
    s.tTile a.sp (tilesOf e a.len) = some (a.sp / 2 ^ 20 * 2 ^ 20 + 4096 * m) := by
  have hfirst : ((List.range ((e.2.2 + a.len - 1) / 4096 + 1 - e.2.2 / 4096)).find? fun i => !s.tileE e.1 e.2.1 (e.2.2 / 4096 + i)) =
      some (m - e.2.2 / 4096) := by
    refine List.find?_range_eq_some.2 ⟨?_, List.mem_range.2 (by omega), fun j hj => ?_⟩
    · rw [show e.2.2 / 4096 + (m - e.2.2 / 4096) = m by omega, hm]
      rfl
    · simpa using hlow (e.2.2 / 4096 + j) (by omega) ⟨by omega, by omega⟩
  simp only [State.tTile, tilesOf, List.find?_map, Function.comp_def, hfirst, Option.map_some]
  rw [show e.2.2 / 4096 + (m - e.2.2 / 4096) = m by omega]

theorem State.tTile_of_all {e : Nat × Nat × Nat}
    (h : ∀ m, e.2.2 / 4096 ≤ m ∧ m ≤ (e.2.2 + a.len - 1) / 4096 → s.tileE e.1 e.2.1 m = true) : s.tTile a.sp (tilesOf e a.len) = none := by
  have hnone : ((tilesOf e a.len).find? fun x => !s.tileE x.1 x.2.1 x.2.2) = none := by
    refine List.find?_eq_none.2 fun x hx => ?_
    obtain ⟨ht, hc, hm⟩ := mem_tilesOf.1 (show (x.1, x.2.1, x.2.2) ∈ _ from hx)
    rw [ht, hc, h _ hm]
    simp
  rw [State.tTile, hnone]
  rfl

end

/-! ### The checks in their order -/

section
variable {s : State} {t rows : Nat} {a : Copy}

theorem State.cpCheck_of_misaligned {v : DWord} (h : a.misaligned = some v) : s.cpCheck t rows a = .error (cALIGN, v) := by
  simp only [State.cpCheck, h]

theorem State.cpCheck_of_badLen (hal : a.Aligned) {v : DWord} (h : a.badLen = some v) : s.cpCheck t rows a = .error (cRANGE, v) := by
  simp only [State.cpCheck, Copy.misaligned_of_aligned hal, h]

theorem State.cpCheck_of_badShape (hal : a.Aligned) (hs : a.sub ≤ 1) (hg : a.gva.toNat < 2 ^ 48) {v : DWord} (h : a.badShape = some v) :
    s.cpCheck t rows a = .error (cRANGE, v) :=
  State.cpCheck_of_badLen hal (by rw [Copy.badLen_of_global hs hg, h]; rfl)

theorem State.cpCheck_of_not_lenOk (hal : a.Aligned) (hs : a.sub ≤ 1) (hg : a.gva.toNat < 2 ^ 48) (hsh : a.Shaped) (h : ¬a.LenOk) :
    s.cpCheck t rows a = .error (cRANGE, BitVec.ofNat 64 a.len) :=
  State.cpCheck_of_badLen hal (by rw [Copy.badLen_of_global hs hg, Copy.badShape_of_shaped hsh, Copy.badCount_of_not_lenOk h]; rfl)

theorem State.cpCheck_of_not_copyClaimed (hal : a.Aligned) (hs : a.sub = 2) (h : ¬s.CopyClaimed t a) :
    s.cpCheck t rows a = .error (cSLOT, BitVec.ofNat 64 a.slot) := by
  rw [State.copyClaimed_iff, not_not] at h
  simp only [State.cpCheck, Copy.misaligned_of_aligned hal, Copy.badLen_of_engine (show 1 < a.sub by omega), if_pos h]

variable (hal : a.Aligned) (hsz : a.Sized) (hcl : s.CopyClaimed t a)
include hal hsz hcl

theorem State.cpCheck_of_extent_error {v : Nat} (h : s.extent t a.sp a.len = .error v) :
    s.cpCheck t rows a = .error (cRANGE, BitVec.ofNat 64 v) := by
  simp only [State.cpCheck, Copy.misaligned_of_aligned hal, Copy.badLen_of_sized hsz, if_neg (State.copyClaimed_iff.1 hcl), h]

variable {e : Nat × Nat × Nat} (he : s.CopyAt t a e)
include he

theorem State.cpCheck_of_badRows {v : DWord} (h : a.badRows (s.blocksOf t) rows = some v) : s.cpCheck t rows a = .error (cRANGE, v) := by
  simp only [State.cpCheck, Copy.misaligned_of_aligned hal, Copy.badLen_of_sized hsz, if_neg (State.copyClaimed_iff.1 hcl),
    State.extent_of_copyAt he, h]

theorem State.cpCheck_of_tTile (hr : s.CopyRowed t rows a) {v : Nat} (h : s.tTile a.sp (tilesOf e a.len) = some v) :
    s.cpCheck t rows a = .error (cOWNER, BitVec.ofNat 64 v) := by
  simp only [State.cpCheck, Copy.misaligned_of_aligned hal, Copy.badLen_of_sized hsz, if_neg (State.copyClaimed_iff.1 hcl),
    State.extent_of_copyAt he, State.badRows_of_copyRowed hr, h]

theorem State.cpCheck_of_passed (hr : s.CopyRowed t rows a) (h : s.tTile a.sp (tilesOf e a.len) = none) :
    s.cpCheck t rows a = .ok e := by
  simp only [State.cpCheck, Copy.misaligned_of_aligned hal, Copy.badLen_of_sized hsz, if_neg (State.copyClaimed_iff.1 hcl),
    State.extent_of_copyAt he, State.badRows_of_copyRowed hr, h]

end

/-! ### The start of a copy (05_copy_engine R119 steps 1 to 3) -/

/-- A copy starts on a tag: waits that the tag's end had satisfied keep what they found, and its tiles have one more user. -/
def State.startCopy (s : State) (t ci n : Nat) (a : Copy) : State :=
  (State.modTag { s.modFrags t (s.satMark t ci) with nextId := s.nextId + 1 } t ci n
    fun _ => ⟨1, false, false, false, a.sub, 0, 0, 0, some a⟩).useTiles (tilesOf a.at_ a.len)

section
variable (s : State) (t ci n : Nat) (a : Copy)

/-- The start in its three parts. -/
theorem State.startCopy_parts : ∃ s1 s2 : State, Keeps Team.bare s s1 ∧ s1 = s.modFrags t (s.satMark t ci) ∧
    s2 = State.modTag { s1 with nextId := s.nextId + 1 } t ci n (fun _ => ⟨1, false, false, false, a.sub, 0, 0, 0, some a⟩) ∧
    Keeps Team.noTags { s1 with nextId := s.nextId + 1 } s2 ∧ s.startCopy t ci n a = s2.useTiles (tilesOf a.at_ a.len) ∧
    Keeps Team.noUses s2 (s.startCopy t ci n a) :=
  ⟨_, _, keeps_modFrags .., rfl, rfl, keeps_modTag .., rfl, keeps_useTiles ..⟩

theorem State.startCopy_rest : { s.startCopy t ci n a with teams := s.teams, nextId := s.nextId } = s := by
  obtain ⟨s1, s2, h1, -, -, h2, -, h3⟩ := s.startCopy_parts t ci n a
  obtain ⟨e1, -⟩ := h1
  obtain ⟨e2, -⟩ := h2
  obtain ⟨e3, -⟩ := h3
  calc { s.startCopy t ci n a with teams := s.teams, nextId := s.nextId }
      = { { s.startCopy t ci n a with teams := s2.teams } with teams := s.teams, nextId := s.nextId } := rfl
    _ = { { s2 with teams := s1.teams } with teams := s.teams, nextId := s.nextId } := by rw [e3]
    _ = { { s1 with teams := s.teams } with nextId := s.nextId } := by rw [e2]
    _ = s := by rw [e1]

theorem State.startCopy_nextId : (s.startCopy t ci n a).nextId = s.nextId + 1 := by
  have e := congrArg State.nextId (keeps_useTiles _ _ : Keeps Team.noUses _ (s.startCopy t ci n a)).1
  exact e

theorem State.sameMem_startCopy : SameMem s (s.startCopy t ci n a) := by
  obtain ⟨s1, s2, h1, -, -, h2, -, h3⟩ := s.startCopy_parts t ci n a
  exact (h1.sameMem (fun _ => rfl) fun _ => rfl).trans
    ((show SameMem s1 s2 from h2.sameMem (fun _ => rfl) fun _ => rfl).trans (h3.sameMem (fun _ => rfl) fun _ => rfl))

theorem State.regs?_startCopy (u : UnitId) : (s.startCopy t ci n a).regs? u = s.regs? u := by
  obtain ⟨s1, s2, -, rfl, -, h2, -, h3⟩ := s.startCopy_parts t ci n a
  rw [h3.regs? (fun _ => rfl) fun _ => rfl, h2.regs? (fun _ => rfl) fun _ => rfl]
  exact s.regs?_modFrags t (s.satMark t ci) u

theorem State.warp?_startCopy (j : Nat) : (s.startCopy t ci n a).warp? t j = (s.warp? t j).map (·.modFrags (s.satMark t ci)) := by
  obtain ⟨s1, s2, -, rfl, -, h2, -, h3⟩ := s.startCopy_parts t ci n a
  rw [h3.warp? fun _ => rfl, h2.warp? fun _ => rfl]
  exact (s.warp?_modFrags t (s.satMark t ci) t j).trans (if_pos rfl)

theorem State.tag?_startCopy (t' ci' n' : Nat) : (s.startCopy t ci n a).tag? t' ci' n' =
    if t = t' ∧ ci = ci' ∧ n = n' then (s.tag? t' ci' n').map fun _ => ⟨1, false, false, false, a.sub, 0, 0, 0, some a⟩
    else s.tag? t' ci' n' := by
  obtain ⟨s1, s2, h1, -, rfl, -, -, h3⟩ := s.startCopy_parts t ci n a
  rw [h3.tag? fun _ => rfl, State.tag?_modTag, ← h1.tag? fun _ => rfl]
  rfl

theorem State.tileE_startCopy (t' ci' m : Nat) : (s.startCopy t ci n a).tileE t' ci' m = s.tileE t' ci' m := by
  obtain ⟨s1, s2, h1, -, -, h2, -, h3⟩ := s.startCopy_parts t ci n a
  rw [h3.tileE fun _ => rfl, h2.tileE fun _ => rfl]
  exact h1.tileE (fun _ => rfl) t' ci' m

theorem State.tileUse_startCopy {t' ci' : Nat} (h : (s.uses? t' ci').isSome) (m : Nat) :
    (s.startCopy t ci n a).tileUse t' ci' m = s.tileUse t' ci' m +
      if t' = a.at_.1 ∧ ci' = a.at_.2.1 ∧ a.at_.2.2 / 4096 ≤ m ∧ m ≤ (a.at_.2.2 + a.len - 1) / 4096 then 1 else 0 := by
  obtain ⟨s1, s2, h1, -, -, h2, e, -⟩ := s.startCopy_parts t ci n a
  have hu : s2.uses? t' ci' = s.uses? t' ci' := (h2.uses? (fun _ => rfl) t' ci').trans (h1.uses? (fun _ => rfl) t' ci')
  have hm : s2.tileUse t' ci' m = s.tileUse t' ci' m := by rw [State.tileUse_eq, State.tileUse_eq, hu]
  rw [e, State.tileUse_useTiles _ (by rw [hu]; exact h), hm, (nodup_tilesOf ..).count]
  simp only [mem_tilesOf]

end

/-! ### The forms -/

/-- A copy form and its kind. -/
def cpForms (w : CpW) : List (Instr × Nat) := [(.cpG2s w, 0), (.cpS2g w, 1), (.cpS2o w, 2), (.cpA2s w, 3)]

section
variable {w : CpW} {i : Instr} {sub : Nat} {s : State} {c : Ctx} {t k : Nat} {x : Warp} {q : Team}

theorem exec_cpForm (hi : (i, sub) ∈ cpForms w) (s : State) : exec i s = issueOps s i (cpRun w sub) := by
  simp only [cpForms, List.mem_cons, List.not_mem_nil, or_false, Prod.mk.injEq] at hi
  obtain ⟨rfl, rfl⟩ | ⟨rfl, rfl⟩ | ⟨rfl, rfl⟩ | ⟨rfl, rfl⟩ := hi <;> rfl

/-- The team core of a warp (07_registers R167). -/
theorem WarpIssues.ownCi_unit (h : WarpIssues s c i t k x) (hq : s.team? t = some q) : s.ownCi c.cur.unit = k % q.cores.length := by
  simp [State.ownCi, h.2.1, hq]

variable (hi : (i, sub) ∈ cpForms w) (h : WarpIssues s c i t k x) (hq : s.team? t = some q)
include hi h hq

theorem WarpIssues.cp_traps_of_no_tag (ht : s.tag? t (k % q.cores.length) w.tag.toNat = none) :
    Traps i s c (oneTrap cRANGE (BitVec.ofNat 64 w.tag.toNat)) := by
  rw [← h.ownCi_unit hq, ← h.teamOf_unit] at ht
  exact traps_of h.1 (exec_cpForm hi s) (by simp only [cpRun, ht])

variable {g : Tag} (ht : s.tag? t (k % q.cores.length) w.tag.toNat = some g)
include ht

theorem WarpIssues.cp_waits (hg : g.st = 1) : Waits i s c (.tagIssue w.tag.toNat) s := by
  rw [← h.ownCi_unit hq, ← h.teamOf_unit] at ht
  exact waits_of h.1 (exec_cpForm hi s) (by simp only [cpRun, ht, if_pos hg])

theorem WarpIssues.cp_traps_of_check (hg : g.st ≠ 1) {m : Nat} {v : DWord}
    (he : s.cpCheck t (w.b.toNat % 128 + 1) (cpAsk w sub (s.envOf c i) s c.cur.unit t) = .error (m, v)) : Traps i s c (oneTrap m v) := by
  rw [← h.ownCi_unit hq] at ht
  rw [← h.teamOf_unit] at ht he
  exact traps_of h.1 (exec_cpForm hi s) (by simp only [cpRun, ht, if_neg hg, he])

theorem WarpIssues.cp_retires (hg : g.st ≠ 1) {e : Nat × Nat × Nat}
    (he : s.cpCheck t (w.b.toNat % 128 + 1) (cpAsk w sub (s.envOf c i) s c.cur.unit t) = .ok e) :
    Retires i s c (s.startCopy t (k % q.cores.length) w.tag.toNat { cpAsk w sub (s.envOf c i) s c.cur.unit t with at_ := e }) := by
  rw [← h.ownCi_unit hq] at ht ⊢
  rw [← h.teamOf_unit] at ht he ⊢
  refine retires_of h.1 (exec_cpForm hi s) ?_
  simp only [cpRun, ht, if_neg hg, he]
  rfl

end

/-- Settles O35: the checks one by one and in their order, and the start of a copy that has passed them. -/
theorem copyCommands : Obligations.CopyCommands := by
  unfold Obligations.CopyCommands
  refine ⟨fun w i sub s c t k x q hi h hq => ⟨h.cp_traps_of_no_tag hi hq, fun g ht => ⟨h.cp_waits hi hq ht, fun hg =>
    ⟨fun m v => h.cp_traps_of_check hi hq ht hg, fun e he => ?starts⟩⟩⟩, fun w sub e s u t hsub => ?asks, fun s t rows a => ?checks⟩
  case starts =>
    refine ⟨_, h.cp_retires hi hq ht hg he, s.sameMem_startCopy .., s.startCopy_rest .., s.startCopy_nextId ..,
      s.regs?_startCopy _ _ _ _, s.warp?_startCopy _ _ _ _, ?_, fun t' ci' n' hne => ?_, s.tileE_startCopy _ _ _ _,
      fun t' ci' m y u hy hu => s.tileUse_startCopy _ _ _ _ (by simp [State.uses?, hy, hu]) m⟩
    · rw [State.tag?_startCopy, if_pos ⟨rfl, rfl, rfl⟩, ht]
      rfl
    · rw [State.tag?_startCopy, if_neg]
      rintro ⟨rfl, rfl, rfl⟩
      exact hne rfl
  case asks =>
    obtain ⟨hne2, hne3⟩ : sub ≠ 2 ∧ sub ≠ 3 := by omega
    refine ⟨rfl, if_pos hsub, rfl, ?_, ?_, rfl, by simp [cpAsk]⟩
    · simp [cpAsk, hsub]
    · cases hs : w.shp <;> simp [cpAsk, hsub, hne2, hne3, hs]
  case checks =>
    refine ⟨fun h => State.cpCheck_of_misaligned (Copy.misaligned_of_sp h), fun hs h => ?gva, fun m hs hg hm h => ?mbox,
      fun hal hs => ⟨fun h => ?far, fun r n st hg hsh => ⟨fun h => State.cpCheck_of_badShape hal hs hg (Copy.badShape_of_row hsh h),
        fun hr h => State.cpCheck_of_badShape hal hs hg (Copy.badShape_of_rows hsh hr h),
        fun hr h1 h2 h => State.cpCheck_of_badShape hal hs hg (Copy.badShape_of_stride hsh hr h1 h2 h)⟩,
        fun hg hsh h => State.cpCheck_of_not_lenOk hal hs hg hsh h⟩,
      fun hal hs h => State.cpCheck_of_not_copyClaimed hal hs h,
      fun hal hsz hcl => ⟨fun h => State.cpCheck_of_extent_error hal hsz hcl (State.extent_of_none h),
        fun e h1 h => State.cpCheck_of_extent_error hal hsz hcl (State.extent_of_not_copyAt h1 h), fun e he =>
        ⟨fun hs h => State.cpCheck_of_badRows hal hsz hcl he (Copy.badRows_of_count hs h),
        fun r hs hc hr hout hin => State.cpCheck_of_badRows hal hsz hcl he (Copy.badRows_of_row hs hc hr hout hin),
        fun m hr hm hE hlow => State.cpCheck_of_tTile hal hsz hcl he hr (State.tTile_of_first hm.1 hm.2 hE hlow),
        fun hr hall => State.cpCheck_of_passed hal hsz hcl he hr (State.tTile_of_all hall)⟩⟩⟩
    case gva => simpa using State.cpCheck_of_misaligned (s := s) (t := t) (rows := rows) (Copy.misaligned_of_gva hs h)
    case mbox => simpa using State.cpCheck_of_misaligned (s := s) (t := t) (rows := rows) (Copy.misaligned_of_mbox hs hg hm h)
    case far => simpa using State.cpCheck_of_badLen (s := s) (t := t) (rows := rows) hal (Copy.badLen_of_gva hs h)

end Sys2Proof.Machine
end

section
/-!
PROOFS. Obligation O37: `cp.halt`, `cp.go`, the tag forms, and what waiting fragments keep when tags change.
-/
namespace Sys2Proof.Machine

/-! ### The masked tags of a team core (05_copy_engine R126) -/

theorem mem_range_zip {α : Type} {l : List α} {n k : Nat} {x : α} : (k, x) ∈ (List.range n).zip l ↔ k < n ∧ l[k]? = some x := by
  rw [List.mem_iff_getElem?]
  constructor
  · rintro ⟨i, hi⟩
    obtain ⟨hr, hx⟩ := List.getElem?_zip_eq_some.1 hi
    obtain ⟨hin, rfl⟩ := List.getElem?_eq_some_iff.1 hr
    simp only [List.length_range] at hin
    simp only [List.getElem_range] at hx ⊢
    exact ⟨hin, hx⟩
  · rintro ⟨hk, hx⟩
    exact ⟨k, List.getElem?_zip_eq_some.2 ⟨by simp [hk], hx⟩⟩

theorem State.mem_masked {s : State} {t ci m n : Nat} {g : Tag} :
    (n, g) ∈ s.masked t ci m ↔ n < 64 ∧ s.tag? t ci n = some g ∧ bitOf m n = true := by
  simp only [State.masked, List.mem_filter, mem_range_zip, State.tag?, and_assoc]

/-! ### What a tag wait has found -/

section
variable {l : List (Nat × Tag)}

theorem wallFound_of_done (h : ∀ p ∈ l, p.2.st = 2) : wallFound l = some (((l.find? (·.2.err)).map fun x => tagFound x.1 x.2).getD []) :=
  if_pos (List.all_eq_true.2 fun p hp => by simpa using h p hp)

theorem wallFound_of_open (h : ∃ p ∈ l, p.2.st ≠ 2) : wallFound l = none := by
  obtain ⟨p, hp, hst⟩ := h
  exact if_neg fun e => hst (by simpa using List.all_eq_true.1 e p hp)

theorem wanyFound_of_done {p : Nat × Tag} (h : l.find? (·.2.st == 2) = some p) : wanyFound l = some (tagFound p.1 p.2) := by
  simp [wanyFound, h]

theorem wanyFound_of_open (h : ∀ p ∈ l, p.2.st ≠ 2) : wanyFound l = none := by
  simpa [wanyFound] using fun n g hp => h (n, g) hp

theorem all_idle_iff : l.all (·.2.st == 0) = true ↔ ∀ p ∈ l, p.2.st = 0 := by simp

end

theorem tagFound_of_err {n : Nat} {g : Tag} (h : g.err = true) : tagFound n g = [n, g.cause, g.faddr.toNat] := if_pos h

theorem tagFound_of_no_err {n : Nat} {g : Tag} (h : g.err = false) : tagFound n g = [n] := if_neg (by simp [h])

/-! ### The marks on waiting fragments -/

section
variable {s : State} {t ci m : Nat} {f : Frag}

theorem State.satMark_of_marked (h : 2 ≤ f.phase) : s.satMark t ci f = f := if_pos h

theorem State.orphanMark_of_marked (h : 2 ≤ f.phase) : s.orphanMark t ci f = f := if_pos h

theorem State.satMark_tagAll (h : f.phase < 2) (hw : f.wait = some (.tagAll ci m)) : s.satMark t ci f =
    ((wallFound (s.masked t ci m)).map fun l => { f with phase := 3, snap := l }).getD f := by
  simp only [State.satMark, if_neg (Nat.not_le.2 h), hw, if_true]
  cases wallFound (s.masked t ci m) <;> rfl

theorem State.satMark_tagAny (h : f.phase < 2) (hw : f.wait = some (.tagAny ci m)) : s.satMark t ci f =
    ((wanyFound (s.masked t ci m)).map fun l => { f with phase := 3, snap := l }).getD f := by
  simp only [State.satMark, if_neg (Nat.not_le.2 h), hw, if_true]
  cases wanyFound (s.masked t ci m) <;> rfl

theorem State.orphanMark_tagAll (h : f.phase < 2) (hw : f.wait = some (.tagAll ci m)) : s.orphanMark t ci f =
    (((s.masked t ci m).find? (·.2.st == 0)).map fun x => { f with phase := 2, snap := [x.1] }).getD f := by
  simp only [State.orphanMark, if_neg (Nat.not_le.2 h), hw, ne_eq, not_true_eq_false, if_false]
  cases (s.masked t ci m).find? (·.2.st == 0) <;> rfl

theorem State.orphanMark_tagAny (h : f.phase < 2) (hw : f.wait = some (.tagAny ci m)) : s.orphanMark t ci f =
    if (s.masked t ci m).all (·.2.st == 0) = true then { f with phase := 2, snap := [((s.masked t ci m).head?.map (·.1)).getD 64] }
    else f := by
  simp only [State.orphanMark, if_neg (Nat.not_le.2 h), hw, true_and]

/-- The marks hang on the tags alone. -/
theorem State.orphanMark_congr {s' : State} (h : ∀ t ci, s'.tags t ci = s.tags t ci) : s'.orphanMark t ci f = s.orphanMark t ci f := by
  have hm : s'.masked t ci = s.masked t ci := funext fun m => by rw [State.masked, State.masked, h]
  unfold State.orphanMark
  rw [hm]

end

/-- The clause of the marks. -/
theorem tagMarks_clause (s : State) (t ci m : Nat) (f : Frag) :
    let l := s.masked t ci m
    (2 ≤ f.phase → s.satMark t ci f = f ∧ s.orphanMark t ci f = f) ∧
    (f.phase < 2 → f.wait = some (.tagAll ci m) →
      ((∀ p ∈ l, p.2.st = 2) →
        s.satMark t ci f = { f with phase := 3, snap := ((l.find? (·.2.err)).map fun p => tagFound p.1 p.2).getD [] }) ∧
      ((∃ p ∈ l, p.2.st ≠ 2) → s.satMark t ci f = f) ∧
      (∀ n g, l.find? (·.2.st == 0) = some (n, g) → s.orphanMark t ci f = { f with phase := 2, snap := [n] }) ∧
      ((∀ p ∈ l, p.2.st ≠ 0) → s.orphanMark t ci f = f)) ∧
    (f.phase < 2 → f.wait = some (.tagAny ci m) →
      (∀ p, l.find? (·.2.st == 2) = some p → s.satMark t ci f = { f with phase := 3, snap := tagFound p.1 p.2 }) ∧
      ((∀ p ∈ l, p.2.st ≠ 2) → s.satMark t ci f = f) ∧
      ((∀ p ∈ l, p.2.st = 0) → s.orphanMark t ci f = { f with phase := 2, snap := [(l.head?.map (·.1)).getD 64] }) ∧
      ((∃ p ∈ l, p.2.st ≠ 0) → s.orphanMark t ci f = f)) := by
  refine ⟨fun h => ⟨State.satMark_of_marked h, State.orphanMark_of_marked h⟩, fun h hw => ⟨fun hd => ?_, fun ho => ?_, fun n g hf => ?_,
    fun hn => ?_⟩, fun h hw => ⟨fun p hp => ?_, fun ho => ?_, fun hi => ?_, fun ⟨p, hp, hst⟩ => ?_⟩⟩
  · rw [State.satMark_tagAll h hw, wallFound_of_done hd]
    rfl
  · rw [State.satMark_tagAll h hw, wallFound_of_open ho]
    rfl
  · rw [State.orphanMark_tagAll h hw, hf]
    rfl
  · have hnone : (s.masked t ci m).find? (·.2.st == 0) = none := List.find?_eq_none.2 fun p hp => by simpa using hn p hp
    rw [State.orphanMark_tagAll h hw, hnone]
    rfl
  · rw [State.satMark_tagAny h hw, wanyFound_of_done hp]
    rfl
  · rw [State.satMark_tagAny h hw, wanyFound_of_open ho]
    rfl
  · rw [State.orphanMark_tagAny h hw, if_pos (all_idle_iff.2 hi)]
  · rw [State.orphanMark_tagAny h hw, if_neg fun e => hst (all_idle_iff.1 e p hp)]

/-! ### `cp.halt` and `cp.go` (05_copy_engine R125) -/

theorem State.clusterOf_eq {s : State} {u : UnitId} {q : Team} (hq : s.team? (teamOf u) = some q) : s.clusterOf u = q.cluster := by
  simp [State.clusterOf, hq]

theorem State.cluster_curEnd_of_ne (s : State) {cl n : Nat} (h : n ≠ cl) (who : Requester) (tag : Nat) :
    (s.curEnd cl who tag).cluster n = s.cluster n :=
  (s.cluster_modCluster cl n _).trans (if_neg h.symm)

/-- No reservation and no request of work that has ended is left. -/
theorem State.not_mem_curEnd {s : State} {cl tag : Nat} {who : Requester} {r : CurReq}
    (h : r ∈ ((s.curEnd cl who tag).cluster cl).held ++ ((s.curEnd cl who tag).cluster cl).reqs) : ¬(r.who = who ∧ r.tag = tag) := by
  have e : (s.curEnd cl who tag).cluster cl = { s.cluster cl with
      held := (s.cluster cl).held.filter fun r => r.who != who || r.tag != tag
      reqs := (s.cluster cl).reqs.filter fun r => r.who != who || r.tag != tag } := (s.cluster_modCluster cl cl _).trans (if_pos rfl)
  rw [e] at h
  rintro ⟨rfl, rfl⟩
  simp at h

/-- The state in which a burst of the copy on a tag, if there is one, has ended. -/
def State.endBurst (s : State) (cl : Nat) (g : Tag) : State := (g.cp.map fun a => s.curEnd cl .cpe a.order).getD s

theorem Copy.ended_iff (a : Copy) (prog : Nat) : a.ended prog = true ↔ a.fault ≠ none ∨ a.units ≤ prog := by
  simp [Copy.ended, Option.isSome_iff_ne_none]

section
variable {tag : BitVec 6} {s : State} {c : Ctx} {t k : Nat} {x : Warp} {q : Team} (hq : s.team? t = some q)
include hq

section
variable (h : WarpIssues s c (.cpHalt tag) t k x)
include h

theorem WarpIssues.cpHalt_traps (ht : s.tag? t (k % q.cores.length) tag.toNat = none) : Traps (.cpHalt tag) s c (plainTrap cRANGE) := by
  rw [← h.ownCi_unit hq, ← h.teamOf_unit] at ht
  exact traps_of h.1 (body := cpHaltRun tag) rfl (by simp only [cpHaltRun, ht])

variable {g : Tag} (ht : s.tag? t (k % q.cores.length) tag.toNat = some g)
include ht

theorem WarpIssues.cpHalt_idle (hg : g.st ≠ 1 ∨ g.halt = true) : Retires (.cpHalt tag) s c s := by
  rw [← h.ownCi_unit hq, ← h.teamOf_unit] at ht
  exact retires_of h.1 (body := cpHaltRun tag) rfl (by simp only [cpHaltRun, ht, if_pos hg])

variable (hg : g.st = 1) (hh : g.halt = false)
include hg hh

theorem WarpIssues.cpHalt_waits (he : (g.cp.any fun a => a.ended g.prog) = true) : Waits (.cpHalt tag) s c (.halt tag.toNat) s := by
  rw [← h.ownCi_unit hq, ← h.teamOf_unit] at ht
  exact waits_of h.1 (body := cpHaltRun tag) rfl
    (by simp only [cpHaltRun, ht, if_neg (show ¬(g.st ≠ 1 ∨ g.halt = true) by simp [hg, hh]), he, if_true])

theorem WarpIssues.cpHalt_halts (he : (g.cp.any fun a => a.ended g.prog) = false) :
    Retires (.cpHalt tag) s c ((s.endBurst q.cluster g).modTag t (k % q.cores.length) tag.toNat fun g => { g with halt := true }) := by
  have hcl := State.clusterOf_eq (u := c.cur.unit) (h.teamOf_unit.symm ▸ hq)
  rw [← h.ownCi_unit hq, ← h.teamOf_unit] at ht ⊢
  refine retires_of h.1 (body := cpHaltRun tag) rfl ?_
  simp only [cpHaltRun, ht, if_neg (show ¬(g.st ≠ 1 ∨ g.halt = true) by simp [hg, hh]), he, hcl, State.endBurst]
  cases g.cp <;> rfl

end

section
variable (h : WarpIssues s c (.cpGo tag) t k x)
include h

theorem WarpIssues.cpGo_traps (ht : s.tag? t (k % q.cores.length) tag.toNat = none) : Traps (.cpGo tag) s c (plainTrap cRANGE) := by
  rw [← h.ownCi_unit hq, ← h.teamOf_unit] at ht
  exact traps_of h.1 (body := cpGoRun tag) rfl (by simp only [cpGoRun, ht])

theorem WarpIssues.cpGo_retires {g : Tag} (ht : s.tag? t (k % q.cores.length) tag.toNat = some g) :
    Retires (.cpGo tag) s c (if g.st = 1 then s.modTag t (k % q.cores.length) tag.toNat fun g => { g with halt := false } else s) := by
  rw [← h.ownCi_unit hq, ← h.teamOf_unit] at ht ⊢
  exact retires_of h.1 (body := cpGoRun tag) rfl (by simp only [cpGoRun, ht])

end

end

/-- Where no copy has ended, each stands before its next unit. -/
theorem not_ended_of_going {g : Tag} (h : ∀ a, g.cp = some a → a.fault = none ∧ g.prog < a.units) :
    (g.cp.any fun a => a.ended g.prog) = false := by
  cases hc : g.cp with
  | none => rfl
  | some a =>
    obtain ⟨hf, hp⟩ := h a hc
    rw [Option.any_some, Bool.eq_false_iff, ne_eq, Copy.ended_iff]
    simp [hf, hp]

/-! ### The team core and the mask of a tag form (05_copy_engine R126) -/

section
variable {s : State} {u : UnitId} {w : TagW} {q : Team} (hq : s.team? (teamOf u) = some q)

include hq in
theorem State.tagCi_of_no_core (hx : w.xc = true) (h : q.cores.length ≤ w.ci.toNat) : s.tagCi u w = .error cRANGE := by
  simp only [State.tagCi, hx, if_true, hq, Option.map_some, Option.getD_some, if_neg (Nat.not_lt.2 h)]

theorem State.tagCi_of_ccc (hx : w.xc = false) (h : isCcc u = true) : s.tagCi u w = .error cILLCTX := by
  simp [State.tagCi, hx, h]

include hq in
theorem State.tagCi_of_core (h : (w.xc = true ∧ w.ci.toNat < q.cores.length) ∨ (w.xc = false ∧ isCcc u = false)) :
    s.tagCi u w = .ok (if w.xc then w.ci.toNat else s.ownCi u) := by
  rcases h with ⟨hx, h⟩ | ⟨hx, h⟩
  · simp [State.tagCi, hx, hq, h]
  · simp [State.tagCi, hx, h]

theorem State.tagArgs_of_error {m : Nat} (h : s.tagCi u w = .error m) (e : Env) : s.tagArgs u w e = .error m := by
  simp only [State.tagArgs, h]

theorem State.tagArgs_of_mask {ci : Nat} {e : Env} (h : s.tagCi u w = .ok ci) (hm : 2 ^ (s.tags (teamOf u) ci).length ≤ tagMask w e) :
    s.tagArgs u w e = .error cRANGE := by
  simp only [State.tagArgs, h, if_pos hm]

theorem State.tagArgs_of_core {ci : Nat} {e : Env} (h : s.tagCi u w = .ok ci) (hm : tagMask w e < 2 ^ (s.tags (teamOf u) ci).length) :
    s.tagArgs u w e = .ok (ci, tagMask w e) := by
  simp only [State.tagArgs, h, if_neg (Nat.not_le.2 hm)]

end

/-- The tag forms that take a mask, and their bodies. -/
def maskForms (w : TagW) : List (Instr × (Env → Ctx → State → Res)) :=
  [(.tagWany w, tagWanyRun w), (.tagWall w, tagWallRun w), (.tagFfr w, tagFfrRun w), (.tagClr w, tagClrRun w)]

section
variable {w : TagW} {i : Instr} {body : Env → Ctx → State → Res} {s : State} {c : Ctx}

theorem mem_maskForms (hi : i ∈ [Instr.tagWany w, .tagWall w, .tagFfr w, .tagClr w, .tagRd w]) (hr : i ≠ .tagRd w) :
    ∃ body, (i, body) ∈ maskForms w := by
  simp only [List.mem_cons, List.not_mem_nil, or_false] at hi
  rcases hi with rfl | rfl | rfl | rfl | rfl
  · exact ⟨_, .head _⟩
  · exact ⟨_, .tail _ (.head _)⟩
  · exact ⟨_, .tail _ (.tail _ (.head _))⟩
  · exact ⟨_, .tail _ (.tail _ (.tail _ (.head _)))⟩
  · exact absurd rfl hr

theorem maskForm_cases (hi : (i, body) ∈ maskForms w) : (i = .tagWany w ∧ body = tagWanyRun w) ∨ (i = .tagWall w ∧ body = tagWallRun w) ∨
    (i = .tagFfr w ∧ body = tagFfrRun w) ∨ (i = .tagClr w ∧ body = tagClrRun w) := by
  simpa [maskForms] using hi

theorem maskForm_traps (hi : (i, body) ∈ maskForms w) (h : Issues s c i) {m : Nat}
    (he : s.tagArgs c.cur.unit w (s.envOf c i) = .error m) : Traps i s c (plainTrap m) := by
  obtain ⟨rfl, rfl⟩ | ⟨rfl, rfl⟩ | ⟨rfl, rfl⟩ | ⟨rfl, rfl⟩ := maskForm_cases hi
  · exact traps_of h (body := fun c s => tagWanyRun w (s.envOf c (.tagWany w)) c s) rfl (by simp only [tagWanyRun, he])
  · exact traps_of h (body := fun c s => tagWallRun w (s.envOf c (.tagWall w)) c s) rfl (by simp only [tagWallRun, he])
  · exact traps_of h (body := fun c s => tagFfrRun w (s.envOf c (.tagFfr w)) c s) rfl (by simp only [tagFfrRun, he])
  · exact traps_of h (body := fun c s => tagClrRun w (s.envOf c (.tagClr w)) c s) rfl (by simp only [tagClrRun, he])

theorem tagRd_traps (h : Issues s c (.tagRd w)) {m : Nat} (he : s.tagCi c.cur.unit w = .error m) : Traps (.tagRd w) s c (plainTrap m) :=
  traps_of h (body := fun c s => tagRdRun w (s.envOf c (.tagRd w)) c s) rfl (by simp only [tagRdRun, he])

/-- Every tag form traps where its team core is not there. -/
theorem tagForm_traps (hi : i ∈ [Instr.tagWany w, .tagWall w, .tagFfr w, .tagClr w, .tagRd w]) (h : Issues s c i) {m : Nat}
    (he : s.tagCi c.cur.unit w = .error m) : Traps i s c (plainTrap m) := by
  by_cases hr : i = .tagRd w
  · subst hr
    exact tagRd_traps h he
  · obtain ⟨body, hb⟩ := mem_maskForms hi hr
    exact maskForm_traps hb h (State.tagArgs_of_error he _)

end

/-! ### The waits (05_copy_engine R126; 15_traps_preemption R331) -/

/-- A wait that has kept a fault traps with it. -/
theorem tagEnd_of_fault (n m a : Nat) (s : State) (k : Res) : tagEnd [n, m, a] s k = .trap (tagTrap n m (BitVec.ofNat 64 a)) s := rfl

theorem tagEnd_of_no_fault {l : List Nat} (h : ∀ n m a, l ≠ [n, m, a]) (s : State) (k : Res) : tagEnd l s k = k := by
  unfold tagEnd
  split
  · exact absurd rfl (h _ _ _)
  · rfl

section
variable {w : TagW} {e : Env} {c : Ctx} {s : State} {ci m : Nat} (ha : s.tagArgs c.cur.unit w e = .ok (ci, m))
include ha

theorem tagWanyRun_of_failed (hp : c.phase = 2) : tagWanyRun w e c s = .trap (orphan ((s.kept c).headD 0)) s := by
  simp only [tagWanyRun, ha, if_pos hp]

theorem tagWallRun_of_failed (hp : c.phase = 2) : tagWallRun w e c s = .trap (orphan ((s.kept c).headD 0)) s := by
  simp only [tagWallRun, ha, if_pos hp]

theorem tagWanyRun_of_pending (hp : c.phase ≠ 2) (hb : s.acqPending c.cur.unit = true) : tagWanyRun w e c s = .wait .stall s := by
  simp only [tagWanyRun, ha, if_neg hp, if_pos hb]

theorem tagWallRun_of_pending (hp : c.phase ≠ 2) (hb : s.acqPending c.cur.unit = true) : tagWallRun w e c s = .wait .stall s := by
  simp only [tagWallRun, ha, if_neg hp, if_pos hb]

variable (hb : s.acqPending c.cur.unit = false)
include hb

theorem tagWanyRun_of_kept (hp : c.phase = 3) :
    tagWanyRun w e c s = tagEnd (s.kept c) s (.retire (s.setScal c.cur.unit e.dst [BitVec.ofNat 32 ((s.kept c).headD 0)])) := by
  simp [tagWanyRun, ha, hp, hb]

theorem tagWallRun_of_kept (hp : c.phase = 3) : tagWallRun w e c s = tagEnd (s.kept c) s (.retire s) := by
  simp [tagWallRun, ha, hp, hb]

variable (hp : c.phase < 2)
include hp

theorem tagWanyRun_of_found {r : List Nat} (hf : wanyFound (s.masked (teamOf c.cur.unit) ci m) = some r) :
    tagWanyRun w e c s = tagEnd r s (.retire (s.setScal c.cur.unit e.dst [BitVec.ofNat 32 (r.headD 0)])) := by
  simp [tagWanyRun, ha, hb, show c.phase ≠ 2 by omega, show c.phase ≠ 3 by omega, hf]

theorem tagWanyRun_of_idle (hf : wanyFound (s.masked (teamOf c.cur.unit) ci m) = none)
    (hi : (s.masked (teamOf c.cur.unit) ci m).all (·.2.st == 0) = true) :
    tagWanyRun w e c s = .trap (orphan (((s.masked (teamOf c.cur.unit) ci m).head?.map (·.1)).getD 64)) s := by
  simp only [tagWanyRun, ha, if_neg (show c.phase ≠ 2 by omega), hb, if_neg (show c.phase ≠ 3 by omega), hf, hi, if_true]
  rfl

theorem tagWanyRun_of_going (hf : wanyFound (s.masked (teamOf c.cur.unit) ci m) = none)
    (hi : ¬(s.masked (teamOf c.cur.unit) ci m).all (·.2.st == 0) = true) : tagWanyRun w e c s = .wait (.tagAny ci m) s := by
  simp only [tagWanyRun, ha, if_neg (show c.phase ≠ 2 by omega), hb, if_neg (show c.phase ≠ 3 by omega), hf, if_neg hi]
  rfl

theorem tagWallRun_of_idle {n : Nat} {g : Tag} (hf : (s.masked (teamOf c.cur.unit) ci m).find? (·.2.st == 0) = some (n, g)) :
    tagWallRun w e c s = .trap (orphan n) s := by
  simp only [tagWallRun, ha, if_neg (show c.phase ≠ 2 by omega), hb, if_neg (show c.phase ≠ 3 by omega), hf]
  rfl

theorem tagWallRun_of_found (hn : (s.masked (teamOf c.cur.unit) ci m).find? (·.2.st == 0) = none) {r : List Nat}
    (hf : wallFound (s.masked (teamOf c.cur.unit) ci m) = some r) : tagWallRun w e c s = tagEnd r s (.retire s) := by
  simp only [tagWallRun, ha, if_neg (show c.phase ≠ 2 by omega), hb, if_neg (show c.phase ≠ 3 by omega), hn, hf]
  rfl

theorem tagWallRun_of_going (hn : (s.masked (teamOf c.cur.unit) ci m).find? (·.2.st == 0) = none)
    (hf : wallFound (s.masked (teamOf c.cur.unit) ci m) = none) : tagWallRun w e c s = .wait (.tagAll ci m) s := by
  simp only [tagWallRun, ha, if_neg (show c.phase ≠ 2 by omega), hb, if_neg (show c.phase ≠ 3 by omega), hn, hf]
  rfl

end

/-- The ends of a wait that has kept what it found, or finds it now. -/
theorem tagEnd_clause {s : State} {c : Ctx} {i : Instr} {body : Ctx → State → Res} (h : Issues s c i) (hx : exec i s = issue s i body)
    {l : List Nat} {s1 : State} (hb : body c s = tagEnd l s (.retire s1)) :
    (∀ n m v, l = [n, m, v] → Traps i s c (tagTrap n m (BitVec.ofNat 64 v))) ∧ ((∀ n m v, l ≠ [n, m, v]) → Retires i s c s1) := by
  constructor
  · rintro n m v rfl
    exact traps_of h hx (hb.trans (tagEnd_of_fault ..))
  · exact fun hl => retires_of h hx (hb.trans (tagEnd_of_no_fault hl ..))

/-- A wait that observes a done tag: it ends, or traps with the tag's fault. -/
theorem tagFound_clause {s : State} {c : Ctx} {i : Instr} {body : Ctx → State → Res} (h : Issues s c i) (hx : exec i s = issue s i body)
    {n : Nat} {g : Tag} {s1 : State} (hb : body c s = tagEnd (tagFound n g) s (.retire s1)) :
    (g.err = true → Traps i s c (tagTrap n g.cause g.faddr)) ∧ (g.err = false → Retires i s c s1) := by
  obtain ⟨ht, hr⟩ := tagEnd_clause h hx hb
  refine ⟨fun he => ?_, fun he => hr fun _ _ _ => ?_⟩
  · have hf := ht _ _ _ (tagFound_of_err he)
    rwa [BitVec.ofNat_toNat, BitVec.setWidth_eq] at hf
  · simp [tagFound_of_no_err he]

section
variable {w : TagW} {s : State} {c : Ctx} {ci m : Nat}

theorem tagWany_clause (h : Issues s c (.tagWany w)) (ha : s.tagArgs c.cur.unit w (s.envOf c (.tagWany w)) = .ok (ci, m)) :
    let u := c.cur.unit
    let e := s.envOf c (.tagWany w)
    let l := s.masked (teamOf u) ci m
    (c.phase = 2 → Traps (.tagWany w) s c (orphan ((s.kept c).headD 0))) ∧
    (c.phase ≠ 2 → s.acqPending u = true → Waits (.tagWany w) s c .stall s) ∧
    (c.phase = 3 → s.acqPending u = false →
      (∀ n m v, s.kept c = [n, m, v] → Traps (.tagWany w) s c (tagTrap n m (BitVec.ofNat 64 v))) ∧
      ((∀ n m v, s.kept c ≠ [n, m, v]) → Retires (.tagWany w) s c (s.setScal u e.dst [BitVec.ofNat 32 ((s.kept c).headD 0)]))) ∧
    (c.phase < 2 → s.acqPending u = false → (∀ n g, l.find? (·.2.st == 2) = some (n, g) →
        (g.err = true → Traps (.tagWany w) s c (tagTrap n g.cause g.faddr)) ∧
        (g.err = false → Retires (.tagWany w) s c (s.setScal u e.dst [BitVec.ofNat 32 n]))) ∧
      ((∀ p ∈ l, p.2.st ≠ 2) → ((∀ p ∈ l, p.2.st = 0) → Traps (.tagWany w) s c (orphan ((l.head?.map (·.1)).getD 64))) ∧
        ((∃ p ∈ l, p.2.st ≠ 0) → Waits (.tagWany w) s c (.tagAny ci m) s))) := by
  have hx : exec (.tagWany w) s = issue s (.tagWany w) fun c s => tagWanyRun w (s.envOf c (.tagWany w)) c s := rfl
  refine ⟨fun hp => traps_of h hx (tagWanyRun_of_failed ha hp), fun hp hb => waits_of h hx (tagWanyRun_of_pending ha hp hb),
    fun hp hb => tagEnd_clause h hx (tagWanyRun_of_kept ha hb hp), fun hp hb => ⟨fun n g hf => ?_, fun hn =>
    ⟨fun hi => traps_of h hx (tagWanyRun_of_idle ha hb hp (wanyFound_of_open hn) (all_idle_iff.2 hi)), fun ⟨p, hmem, hst⟩ =>
      waits_of h hx (tagWanyRun_of_going ha hb hp (wanyFound_of_open hn) fun hi => hst (all_idle_iff.1 hi p hmem))⟩⟩⟩
  have hhead : (tagFound n g).headD 0 = n := by cases he : g.err <;> simp [tagFound, he]
  have hend := tagFound_clause h hx (tagWanyRun_of_found ha hb hp (wanyFound_of_done hf))
  rwa [hhead] at hend

theorem tagWall_clause (h : Issues s c (.tagWall w)) (ha : s.tagArgs c.cur.unit w (s.envOf c (.tagWall w)) = .ok (ci, m)) :
    let u := c.cur.unit
    let l := s.masked (teamOf u) ci m
    (c.phase = 2 → Traps (.tagWall w) s c (orphan ((s.kept c).headD 0))) ∧
    (c.phase ≠ 2 → s.acqPending u = true → Waits (.tagWall w) s c .stall s) ∧
    (c.phase = 3 → s.acqPending u = false →
      (∀ n m v, s.kept c = [n, m, v] → Traps (.tagWall w) s c (tagTrap n m (BitVec.ofNat 64 v))) ∧
      ((∀ n m v, s.kept c ≠ [n, m, v]) → Retires (.tagWall w) s c s)) ∧
    (c.phase < 2 → s.acqPending u = false → (∀ n g, l.find? (·.2.st == 0) = some (n, g) → Traps (.tagWall w) s c (orphan n)) ∧
      ((∀ p ∈ l, p.2.st = 2) → (∀ n g, l.find? (·.2.err) = some (n, g) → Traps (.tagWall w) s c (tagTrap n g.cause g.faddr)) ∧
        ((∀ p ∈ l, p.2.err = false) → Retires (.tagWall w) s c s)) ∧
      ((∀ p ∈ l, p.2.st ≠ 0) → (∃ p ∈ l, p.2.st ≠ 2) → Waits (.tagWall w) s c (.tagAll ci m) s)) := by
  have hx : exec (.tagWall w) s = issue s (.tagWall w) fun c s => tagWallRun w (s.envOf c (.tagWall w)) c s := rfl
  have hnone {l : List (Nat × Tag)} (hl : ∀ p ∈ l, p.2.st ≠ 0) : l.find? (·.2.st == 0) = none :=
    List.find?_eq_none.2 fun p hp => by simpa using hl p hp
  refine ⟨fun hp => traps_of h hx (tagWallRun_of_failed ha hp), fun hp hb => waits_of h hx (tagWallRun_of_pending ha hp hb),
    fun hp hb => tagEnd_clause h hx (tagWallRun_of_kept ha hb hp), fun hp hb =>
    ⟨fun n g hf => traps_of h hx (tagWallRun_of_idle ha hb hp hf), fun hd => ?_, fun hl ho =>
      waits_of h hx (tagWallRun_of_going ha hb hp (hnone hl) (wallFound_of_open ho))⟩⟩
  have hend := tagWallRun_of_found ha hb hp (hnone fun p hmem => by rw [hd p hmem]; decide) (wallFound_of_done hd)
  refine ⟨fun n g hf => ?_, fun hne => ?_⟩
  · rw [hf] at hend
    exact (tagFound_clause h hx hend).1 (by simpa using List.find?_some hf)
  · rw [List.find?_eq_none.2 fun p hmem => by simpa using hne p hmem] at hend
    exact retires_of h hx hend

end

/-! ### `tag.clr` (05_copy_engine R113, R126) -/

/-- A tag that has been cleared is idle. -/
def Tag.cleared (g : Tag) : Tag := { g with st := 0, err := false, cause := 0 }

/-- The done tags of a list are cleared. -/
def State.clearTags (s : State) (t ci : Nat) (l : List (Nat × Tag)) : State :=
  l.foldl (fun s x => if x.2.st = 2 then s.modTag t ci x.1 Tag.cleared else s) s

section
variable (s : State) (t ci : Nat) (l : List (Nat × Tag))

theorem keeps_clearTags : Keeps Team.noTags s (s.clearTags t ci l) := by
  refine .foldl (fun s x => ?_) l s
  split
  · exact keeps_modTag ..
  · exact .refl ..

theorem State.tags_clearTags_of_ne {t' ci' : Nat} (h : (t', ci') ≠ (t, ci)) : (s.clearTags t ci l).tags t' ci' = s.tags t' ci' := by
  induction l generalizing s with
  | nil => rfl
  | cons x l ih =>
    refine (ih _).trans ?_
    dsimp only
    split
    · rw [State.tags_modTag, if_neg]
      rintro ⟨rfl, rfl⟩
      exact h rfl
    · rfl

theorem State.tag?_clearTags (n : Nat) : (s.clearTags t ci l).tag? t ci n =
    (s.tag? t ci n).map fun g => if ∃ x ∈ l, x.1 = n ∧ x.2.st = 2 then g.cleared else g := by
  induction l generalizing s with
  | nil => simp [State.clearTags]
  | cons x l ih =>
    have hs : s.clearTags t ci (x :: l) = (if x.2.st = 2 then s.modTag t ci x.1 Tag.cleared else s).clearTags t ci l := rfl
    rw [hs, ih]
    by_cases hx : x.1 = n ∧ x.2.st = 2
    · rw [if_pos hx.2, State.tag?_modTag, if_pos ⟨rfl, rfl, hx.1⟩, Option.map_map]
      refine Option.map_congr fun g _ => ?_
      rw [if_pos ⟨x, List.mem_cons_self, hx⟩]
      exact ite_self g.cleared
    · have htail : (if x.2.st = 2 then s.modTag t ci x.1 Tag.cleared else s).tag? t ci n = s.tag? t ci n := by
        split
        · rename_i h2
          rw [State.tag?_modTag, if_neg fun e => hx ⟨e.2.2, h2⟩]
        · rfl
      rw [htail]
      refine Option.map_congr fun g _ => ?_
      simp only [List.mem_cons, exists_eq_or_imp, hx, false_or]

end

theorem tagClr_clause {w : TagW} {s : State} {c : Ctx} {ci m : Nat} (h : Issues s c (.tagClr w))
    (ha : s.tagArgs c.cur.unit w (s.envOf c (.tagClr w)) = .ok (ci, m)) :
    let t := teamOf c.cur.unit
    ∃ s1, Retires (.tagClr w) s c s1 ∧ { s1 with teams := s.teams } = s ∧ SameMem s s1 ∧
      (∀ t' ci', (t', ci') ≠ (t, ci) → s1.tags t' ci' = s.tags t' ci') ∧
      (∀ j, s1.warp? t j = (s.warp? t j).map (·.modFrags fun f => s1.orphanMark t ci (s.satMark t ci f))) ∧
      ∀ n g, n < 64 → s.tag? t ci n = some g → s1.tag? t ci n =
        some (if bitOf m n = true ∧ g.st = 2 then { g with st := 0, err := false, cause := 0 } else g) := by
  intro t
  have hc := keeps_clearTags s t ci (s.masked t ci m)
  have hf := keeps_modFrags (s.clearTags t ci (s.masked t ci m)) t
    fun f => (s.clearTags t ci (s.masked t ci m)).orphanMark t ci (s.satMark t ci f)
  refine ⟨(s.clearTags t ci (s.masked t ci m)).modFrags t fun f =>
      (s.clearTags t ci (s.masked t ci m)).orphanMark t ci (s.satMark t ci f),
    retires_of h (body := fun c s => tagClrRun w (s.envOf c (.tagClr w)) c s) rfl (by simp only [tagClrRun, ha]; rfl), hc.1,
    (hc.sameMem (fun _ => rfl) fun _ => rfl).trans (hf.sameMem (fun _ => rfl) fun _ => rfl), fun t' ci' hne => ?others, fun j => ?waiting,
    fun n g hn hg => ?cleared⟩
  case others => exact (hf.tags (fun _ => rfl) t' ci').trans (s.tags_clearTags_of_ne t ci _ hne)
  case waiting =>
    rw [State.warp?_modFrags, if_pos rfl, hc.warp? fun _ => rfl]
    simp only [State.orphanMark_congr (hf.tags fun _ => rfl)]
  case cleared =>
    have hmem : (∃ x ∈ s.masked t ci m, x.1 = n ∧ x.2.st = 2) ↔ bitOf m n = true ∧ g.st = 2 := by
      constructor
      · rintro ⟨⟨n', g'⟩, hx, rfl, h2⟩
        obtain ⟨-, hg', hm⟩ := State.mem_masked.1 hx
        rw [hg] at hg'
        cases hg'
        exact ⟨hm, h2⟩
      · exact fun ⟨hm, h2⟩ => ⟨(n, g), State.mem_masked.2 ⟨hn, hg, hm⟩, rfl, h2⟩
    rw [hf.tag? fun _ => rfl, s.tag?_clearTags, hg, Option.map_some]
    simp only [hmem, Tag.cleared]

/-! ### `tag.rd` (05_copy_engine R114, R126) -/

/-- The done tags of a list as the bits of a number, from bit `k` on. -/
def addTagBits (k a : Nat) (l : List Tag) : Nat :=
  ((List.range' k (64 - k)).zip l).foldl (fun a x => if x.2.st = 2 then a + 2 ^ x.1 else a) a

theorem addTagBits_cons {k : Nat} (hk : k < 64) (a : Nat) (g : Tag) (l : List Tag) :
    addTagBits k a (g :: l) = addTagBits (k + 1) (if g.st = 2 then a + 2 ^ k else a) l := by
  unfold addTagBits
  rw [show 64 - k = (64 - (k + 1)) + 1 by omega, List.range'_succ, List.zip_cons_cons, List.foldl_cons]

theorem addTagBits_full {k : Nat} (hk : 64 ≤ k) (a : Nat) (l : List Tag) : addTagBits k a l = a := by
  unfold addTagBits
  rw [show 64 - k = 0 by omega]
  rfl

theorem addTagBits_nil (k a : Nat) : addTagBits k a [] = a := by
  rw [addTagBits, List.zip_nil_right]
  rfl

/-- One more bit above those of a number. -/
theorem testBit_add_two_pow {k a n : Nat} (ha : a < 2 ^ k) (hn : n ≤ k) (p : Prop) [Decidable p] :
    (if p then a + 2 ^ k else a).testBit n = if n < k then a.testBit n else decide p := by
  by_cases hk : n < k
  · rw [if_pos hk, Nat.add_comm]
    split
    · exact Nat.testBit_two_pow_add_gt hk a
    · rfl
  · obtain rfl : n = k := by omega
    rw [if_neg hk, Nat.add_comm]
    by_cases hp : p
    · rw [if_pos hp, Nat.testBit_two_pow_add_eq, Nat.testBit_lt_two_pow ha, decide_eq_true hp]
      rfl
    · rw [if_neg hp, Nat.testBit_lt_two_pow ha, decide_eq_false hp]

theorem addTagBits_bits (l : List Tag) {k a : Nat} (hk : k ≤ 64) (ha : a < 2 ^ k) : addTagBits k a l < 2 ^ 64 ∧
    ∀ n, n < 64 → (addTagBits k a l).testBit n = if n < k then a.testBit n else (l[n - k]?).any fun g => g.st == 2 := by
  have ha64 : a < 2 ^ 64 := ha.trans_le (Nat.pow_le_pow_right (by decide) hk)
  induction l generalizing k a with
  | nil =>
    rw [addTagBits_nil]
    refine ⟨ha64, fun n hn => ?_⟩
    split
    · rfl
    · exact Nat.testBit_lt_two_pow (ha.trans_le (Nat.pow_le_pow_right (by decide) (by omega)))
  | cons g l ih =>
    rcases Nat.lt_or_ge k 64 with hlt | hge
    · have ha' : (if g.st = 2 then a + 2 ^ k else a) < 2 ^ (k + 1) := by
        rw [Nat.pow_succ]
        split <;> omega
      obtain ⟨hb, hbits⟩ := ih hlt ha' (ha'.trans_le (Nat.pow_le_pow_right (by decide) hlt))
      rw [addTagBits_cons hlt]
      refine ⟨hb, fun n hn => ?_⟩
      rw [hbits n hn]
      by_cases hnk : n ≤ k
      · rw [if_pos (by omega), testBit_add_two_pow ha hnk]
        split
        · rfl
        · rw [show n - k = 0 by omega]
          rfl
      · rw [if_neg (by omega), if_neg (by omega), show n - k = (n - (k + 1)) + 1 by omega, List.getElem?_cons_succ]
    · rw [addTagBits_full hge]
      exact ⟨ha64, fun n hn => by rw [if_pos (by omega)]⟩

/-- The state word holds its fields side by side (05_copy_engine R114). -/
theorem Tag.toNat_word {g : Tag} (hst : g.st < 4) (hdir : g.dir < 8) (hcause : g.cause < 256) (hprog : g.prog < 2 ^ 11) :
    g.word.toNat = g.st + 2 ^ 2 * bit g.halt + 2 ^ 3 * bit g.dh + 2 ^ 4 * bit g.err + 2 ^ 5 * g.dir + 2 ^ 8 * g.cause + 2 ^ 16 * g.prog := by
  have hbit (b : Bool) : bit b < 2 := by cases b <;> decide
  have h1 := hbit g.halt
  have h2 := hbit g.dh
  have h3 := hbit g.err
  simp only [Tag.word, pack, BitVec.toNat_ofNat]
  omega

section
variable {w : TagW} {s : State} {c : Ctx} {ci : Nat} (h : Issues s c (.tagRd w)) (hci : s.tagCi c.cur.unit w = .ok ci)
include h hci

theorem tagRd_all (hi : w.imm.getLsbD 15 = true) : ∃ v : DWord,
    Retires (.tagRd w) s c (s.setScal c.cur.unit (s.envOf c (.tagRd w)).dst [loWord v, hiWord v]) ∧
      ∀ n, n < 64 → v.getLsbD n = ((s.tags (teamOf c.cur.unit) ci)[n]?).any fun g => g.st == 2 := by
  obtain ⟨hlt, hbits⟩ := addTagBits_bits (s.tags (teamOf c.cur.unit) ci) (Nat.zero_le 64) (a := 0) (by decide)
  refine ⟨BitVec.ofNat 64 (addTagBits 0 0 (s.tags (teamOf c.cur.unit) ci)), ?_, fun n hn => ?_⟩
  · refine retires_of h (body := fun c s => tagRdRun w (s.envOf c (.tagRd w)) c s) rfl ?_
    simp only [tagRdRun, hci, hi, if_true, loWord, hiWord, BitVec.toNat_ofNat, Nat.mod_eq_of_lt hlt]
    rw [addTagBits, List.range_eq_range']
  · rw [BitVec.getLsbD_ofNat, hbits n hn, decide_eq_true hn, Bool.true_and, if_neg (Nat.not_lt_zero n)]
    rfl

theorem tagRd_one_traps (hi : w.imm.getLsbD 15 = false) (ht : (s.tags (teamOf c.cur.unit) ci)[w.imm.toNat % 64]? = none) :
    Traps (.tagRd w) s c (plainTrap cRANGE) :=
  traps_of h (body := fun c s => tagRdRun w (s.envOf c (.tagRd w)) c s) rfl
    (by simp only [tagRdRun, hci, hi, Bool.false_eq_true, if_false, ht])

theorem tagRd_one (hi : w.imm.getLsbD 15 = false) {g : Tag} (ht : (s.tags (teamOf c.cur.unit) ci)[w.imm.toNat % 64]? = some g) :
    Retires (.tagRd w) s c (s.setScal c.cur.unit (s.envOf c (.tagRd w)).dst [g.word]) :=
  retires_of h (body := fun c s => tagRdRun w (s.envOf c (.tagRd w)) c s) rfl
    (by simp only [tagRdRun, hci, hi, Bool.false_eq_true, if_false, ht])

end

/-- Settles O37: the marks on waiting fragments, the two control forms, and each tag form from its team core and its mask on. -/
theorem tagForms : Obligations.TagForms := by
  unfold Obligations.TagForms
  refine ⟨tagMarks_clause, fun n m a => ⟨rfl, rfl, rfl⟩, fun tag s c t k x q hq => ⟨fun h => ⟨h.cpHalt_traps hq, fun g ht =>
    ⟨h.cpHalt_idle hq ht, fun hg hh ⟨a, ha, he⟩ => h.cpHalt_waits hq ht hg hh ?ended, fun hg hh hgo => ?halts⟩⟩,
    fun h => ⟨h.cpGo_traps hq, fun g ht => ⟨fun hg => ?idle, fun hg => ?goes⟩⟩⟩, fun w i s c q hi h hq => ?forms⟩
  case ended => rw [ha, Option.any_some, Copy.ended_iff]; exact he
  case halts =>
    refine ⟨_, h.cpHalt_halts hq ht hg hh (not_ended_of_going hgo), ?_, fun y hy => ?_, fun a ha r hr => ?_⟩
    · unfold State.endBurst
      cases g.cp <;> rfl
    · unfold State.endBurst
      cases g.cp with
      | none => rfl
      | some a => exact s.cluster_curEnd_of_ne hy ..
    · rw [State.endBurst, ha] at hr
      exact State.not_mem_curEnd hr
  case idle => simpa [hg] using h.cpGo_retires hq ht
  case goes => simpa [hg] using h.cpGo_retires hq ht
  case forms =>
    refine ⟨fun hx hc => tagForm_traps hi h (State.tagCi_of_no_core hq hx hc), fun hx hc => tagForm_traps hi h (State.tagCi_of_ccc hx hc),
      fun hcore => ?_⟩
    have hci := State.tagCi_of_core hq hcore
    refine ⟨fun hr hm => ?mask, fun hr hm => ?masked, fun hr => ?read⟩
    case mask =>
      obtain ⟨body, hb⟩ := mem_maskForms hi hr
      exact maskForm_traps hb h (State.tagArgs_of_mask hci hm)
    case masked =>
      have hargs := State.tagArgs_of_core hci hm
      refine ⟨?_, ?_, ?_, ?_⟩ <;> (intro he; subst he)
      · exact tagWany_clause h hargs
      · exact tagWall_clause h hargs
      · exact retires_of h (body := fun c s => tagFfrRun w (s.envOf c (.tagFfr w)) c s) rfl (by simp only [tagFfrRun, hargs]; rfl)
      · exact tagClr_clause h hargs
    case read =>
      subst hr
      exact ⟨tagRd_all h hci, fun hb => ⟨tagRd_one_traps h hci hb, fun g hg => ⟨_, tagRd_one h hci hb hg, Tag.toNat_word⟩⟩⟩

end Sys2Proof.Machine
end

section
/-!
PROOFS. Obligation O36: the engine's choice, the units of a copy, and its end.
-/
namespace Sys2Proof.Machine

/-! ### A change of clusters alone -/

/-- Nothing of a state has changed but its clusters. -/
def OnlyClusters (s s' : State) : Prop := { s' with clusters := s.clusters } = s

section
variable {s s' : State} (h : OnlyClusters s s')
include h

theorem OnlyClusters.teams : s'.teams = s.teams := by have e := congrArg State.teams h; exact e
theorem OnlyClusters.mem : s'.mem = s.mem := by have e := congrArg State.mem h; exact e
theorem OnlyClusters.keys : s'.keys = s.keys := by have e := congrArg State.keys h; exact e
theorem OnlyClusters.pend : s'.pend = s.pend := by have e := congrArg State.pend h; exact e
theorem OnlyClusters.flight : s'.flight = s.flight := by have e := congrArg State.flight h; exact e
theorem OnlyClusters.sameMem : SameMem s s' := sameMem_of_eq h.mem h.keys h.flight h.teams
theorem OnlyClusters.team? (t : Nat) : s'.team? t = s.team? t := by rw [State.team?, State.team?, h.teams]
theorem OnlyClusters.tag? (t ci n : Nat) : s'.tag? t ci n = s.tag? t ci n := by rw [State.tag?, State.tag?, State.tags, State.tags, h.team?]

end

theorem OnlyClusters.trans {s s' s'' : State} (h : OnlyClusters s s') (g : OnlyClusters s' s'') : OnlyClusters s s'' := by
  unfold OnlyClusters at *
  rw [← h, ← g]

theorem onlyClusters_modCluster (s : State) (cl : Nat) (f : Cluster → Cluster) : OnlyClusters s (s.modCluster cl f) := rfl

/-! ### The use of a reservation by a unit (17_power R385; 05_copy_engine R120) -/

theorem onlyClusters_unitDone (s : State) (cl core : Nat) : OnlyClusters s (s.unitDone cl core) := by
  have hused : OnlyClusters s ((s.modCluster cl fun c => { c with cpeUnits := lmod c.cpeUnits core (· + 1) }).curUse cl .cpe) :=
    (onlyClusters_modCluster ..).trans (onlyClusters_modCluster ..)
  unfold State.unitDone
  dsimp only
  split
  · exact hused
  · exact hused.trans (onlyClusters_modCluster ..)

theorem held_unitDone {s s' : State} {cl : Nat} (h : s'.cluster cl = s.cluster cl) (core : Nat) :
    ((s'.unitDone cl core).cluster cl).held = ((s.curUse cl .cpe).cluster cl).held := by
  have hused : (((s'.modCluster cl fun c => { c with cpeUnits := lmod c.cpeUnits core (· + 1) }).curUse cl .cpe).cluster cl).held =
      ((s.curUse cl .cpe).cluster cl).held := by simp [State.curUse, h]
  unfold State.unitDone
  dsimp only
  split
  · exact hused
  · rw [State.cluster_modCluster, if_pos rfl]
    exact hused

/-! ### The choice of the engine (05_copy_engine R120) -/

/-- A core's turn serves the oldest of its copies, or the one that has waited longest. -/
theorem serveNext_eq (units : Nat) (l : List Job) : serveNext units l = bestOf (fun a b => decide (a.cp.last < b.cp.last)) l ∨
    serveNext units l = bestOf (fun a b => decide (a.cp.order < b.cp.order)) l := by
  unfold serveNext bestOf
  dsimp only
  split
  · left
    congr 1
    funext r x
    cases r <;> simp
  · right
    congr 1
    funext r x
    cases r <;> simp

/-- The copy that a core's turn serves is one of its copies. -/
theorem serveNext_of_ne_nil (units : Nat) {l : List Job} (h : l ≠ []) : ∃ j ∈ l, serveNext units l = some j := by
  rcases serveNext_eq units l with he | he
  · obtain ⟨j, hj, e, -⟩ := bestOf_least (fun x : Job => x.cp.last) h
    exact ⟨j, hj, he.trans e⟩
  · obtain ⟨j, hj, e, -⟩ := bestOf_least (fun x : Job => x.cp.order) h
    exact ⟨j, hj, he.trans e⟩

theorem findSome?_range_eq_some {α : Type} {f : Nat → Option α} {n : Nat} {b : α} (h : (List.range n).findSome? f = some b) :
    ∃ i, i < n ∧ f i = some b ∧ ∀ k, k < i → f k = none := by
  induction n with
  | zero => simp at h
  | succ n ih =>
    rw [List.range_succ, List.findSome?_append] at h
    cases hn : (List.range n).findSome? f with
    | some x =>
      rw [hn] at h
      obtain ⟨i, hi, hf, hlow⟩ := ih (hn.trans h)
      exact ⟨i, by omega, hf, hlow⟩
    | none =>
      rw [hn] at h
      refine ⟨n, by omega, ?_, fun k hk => List.findSome?_eq_none_iff.1 hn k (by simpa using hk)⟩
      simpa using h

/-- The copies of a core that has none are not served. -/
theorem serveNext_eq_none_iff {units : Nat} {l : List Job} : serveNext units l = none ↔ l = [] := by
  constructor
  · intro h
    by_contra hl
    obtain ⟨j, -, hj⟩ := serveNext_of_ne_nil units hl
    rw [h] at hj
    cases hj
  · rintro rfl
    simp [serveNext]

theorem mem_of_serveNext {units : Nat} {l : List Job} {j : Job} (h : serveNext units l = some j) : j ∈ l := by
  obtain ⟨j', hmem, hj⟩ := serveNext_of_ne_nil units (l := l) fun hl => by rw [serveNext_eq_none_iff.2 hl] at h; cases h
  rw [h] at hj
  cases hj
  exact hmem

/-- The burst of a copy goes on, or has been asked for. -/
def Cluster.bursts (c : Cluster) (x : Job) : Prop := ∃ r ∈ c.held ++ c.reqs, r.who = .cpe ∧ r.tag = x.cp.order

theorem Cluster.bursts_iff {c : Cluster} {x : Job} :
    ((c.held ++ c.reqs).any fun r => r.who == .cpe && r.tag == x.cp.order) = true ↔ c.bursts x := by
  simp only [List.any_eq_true, Bool.and_eq_true, beq_iff_eq, Cluster.bursts]

theorem State.nextJob_cases {s : State} {cl : Nat} {j : Job} (h : s.nextJob cl = some j) : j ∈ s.jobs cl ∧
    ((s.cluster cl).bursts j ∨ (∀ x ∈ s.jobs cl, ¬(s.cluster cl).bursts x) ∧ ∃ i, i < 4 ∧ j.core = ((s.cluster cl).cpeTurn + i) % 4 ∧
      ∀ k, k < i → ∀ x ∈ s.jobs cl, x.core ≠ ((s.cluster cl).cpeTurn + k) % 4) := by
  unfold State.nextJob at h
  dsimp only at h
  split at h
  · rename_i x hx
    cases h
    have hb := List.find?_some hx
    exact ⟨List.mem_of_find?_eq_some hx, .inl (Cluster.bursts_iff.1 hb)⟩
  · rename_i hnone
    rw [List.findSome?_map] at h
    obtain ⟨i, hi, hserve, hlow⟩ := findSome?_range_eq_some h
    obtain ⟨hmem, hcore⟩ := List.mem_filter.1 (mem_of_serveNext hserve)
    refine ⟨hmem, .inr ⟨fun x hx hb => List.find?_eq_none.1 hnone x hx (Cluster.bursts_iff.2 hb), i, hi, by simpa using hcore,
      fun k hk x hx he => ?_⟩⟩
    have hempty := serveNext_eq_none_iff.1 (hlow k hk)
    exact List.filter_eq_nil_iff.1 hempty x hx (by simpa using he)

/-! ### What a copy's turn comes to (05_copy_engine R119 step 4, R120, R121) -/

/-- A unit of a copy has been performed, on the leaves of its pieces. -/
def State.unitWent (s : State) (t ci n cl core : Nat) (a : Copy) (prog : Nat) (ls : List (Nat × Leaf)) : State :=
  ((s.unitGo t a prog ls).1.modTag t ci n fun g => { g with prog := g.prog + 1, cp := some { a with
    writes := a.writes ++ (s.unitGo t a prog ls).2, head := if prog = 0 then s.spBytes a.at_.1 a.at_.2.1 a.at_.2.2 64 else a.head,
    last := s.unitsOn cl core + 1 } }).unitDone cl core

/-- A unit of a copy has failed. -/
def State.unitFailed (s : State) (t ci n cl : Nat) (a : Copy) (f : Nat × DWord) : State :=
  (s.modTag t ci n fun g => { g with cp := some { a with fault := some f } }).curEnd cl .cpe a.order

section
variable {s : State} {t ci n : Nat} {q : Team} (hq : s.team? t = some q)
include hq

theorem State.copyUnit_of_other (h : ∀ x b, s.nextJob q.cluster ≠ some ⟨t, ci, n, x, b⟩) : s.copyUnit t ci n = s := by
  unfold State.copyUnit
  simp only [hq, Option.map_some, Option.getD_some]
  cases hj : s.nextJob q.cluster with
  | none => rfl
  | some j =>
    cases s.tag? t ci n with
    | none => rfl
    | some g =>
      refine if_pos ?_
      rintro ⟨⟩
      exact h j.core j.cp hj

variable {core : Nat} {g : Tag} {a : Copy} (hj : s.nextJob q.cluster = some ⟨t, ci, n, core, a⟩) (hg : s.tag? t ci n = some g)
include hj hg

theorem State.copyUnit_of_not_held (hh : ¬∃ r, s.curHeld q.cluster .cpe = some r ∧ r.tag = a.order) :
    s.copyUnit t ci n = s.copyAsk t a g.prog := by
  have hall : (s.curHeld q.cluster .cpe).all (·.tag != a.order) = true := by
    cases hr : s.curHeld q.cluster .cpe with
    | none => rfl
    | some r => simpa using fun e => hh ⟨r, hr, e⟩
  simp [State.copyUnit, hq, hj, hg, hall]

variable (hh : ∃ r, s.curHeld q.cluster .cpe = some r ∧ r.tag = a.order)
include hh

theorem State.copyUnit_of_unitHeld (hu : s.unitHeld t a = true) : s.copyUnit t ci n = s := by
  obtain ⟨r, hr, hr'⟩ := hh
  simp [State.copyUnit, hq, hj, hg, hr, hr', hu]

variable (hu : s.unitHeld t a = false)
include hu

theorem State.copyUnit_of_engine (hs : 1 < a.sub) : s.copyUnit t ci n = s.unitWent t ci n q.cluster core a g.prog [] := by
  obtain ⟨r, hr, hr'⟩ := hh
  simp [State.copyUnit, hq, hj, hg, hr, hr', hu, hs, State.unitWent]

variable (hs : a.sub ≤ 1)
include hs

theorem State.copyUnit_of_lookup (hl : ∃ i ∈ a.parts g.prog, s.lookupOpen none (dieOfCluster q.cluster) q.owner (a.gaddr i) = true) :
    s.copyUnit t ci n = s := by
  obtain ⟨r, hr, hr'⟩ := hh
  simp [State.copyUnit, hq, hj, hg, hr, hr', hu, Nat.not_lt.2 hs, hl]

variable (hl : ¬∃ i ∈ a.parts g.prog, s.lookupOpen none (dieOfCluster q.cluster) q.owner (a.gaddr i) = true)
include hl

theorem State.copyUnit_of_error {f : Nat × DWord} (he : s.unitLeaves t a g.prog = .error f) :
    s.copyUnit t ci n = s.unitFailed t ci n q.cluster a f := by
  obtain ⟨r, hr, hr'⟩ := hh
  simp [State.copyUnit, hq, hj, hg, hr, hr', hu, Nat.not_lt.2 hs, hl, he, State.unitFailed]

variable {l : List (Nat × Leaf)} (he : s.unitLeaves t a g.prog = .ok l)
include he

theorem State.copyUnit_of_waits (hw : s.unitWaits t a l = true) : s.copyUnit t ci n = s := by
  obtain ⟨r, hr, hr'⟩ := hh
  simp [State.copyUnit, hq, hj, hg, hr, hr', hu, Nat.not_lt.2 hs, hl, he, hw]

theorem State.copyUnit_of_leaves (hw : s.unitWaits t a l = false) :
    s.copyUnit t ci n = s.unitWent t ci n q.cluster core a g.prog l := by
  obtain ⟨r, hr, hr'⟩ := hh
  simp [State.copyUnit, hq, hj, hg, hr, hr', hu, Nat.not_lt.2 hs, hl, he, hw, State.unitWent]

end

/-! ### The writes of a unit to global memory (05_copy_engine R118; 06_consistency R132, R146) -/

/-- The bytes that a write gives, one by one: address, key, byte, and whether its page is replicated. -/
def Write.cells (w : Write) : List (Nat × Byte × Byte × Bool) :=
  (List.range w.bytes.length).map fun b => (w.addr + b, w.key, w.bytes.getD b 0, w.repl)

/-- A write joined by what follows it directly gives the bytes of both. -/
theorem Write.cells_append {p w : Write} (hk : p.key = w.key) (hr : p.repl = w.repl) (ha : w.addr = p.addr + p.bytes.length) :
    Write.cells { p with bytes := p.bytes ++ w.bytes } = p.cells ++ w.cells := by
  unfold Write.cells
  dsimp only
  rw [List.length_append, List.range_add, List.map_append, List.map_map]
  congr 1
  · refine List.map_congr_left fun b hb => ?_
    rw [List.getD_append _ _ _ _ (List.mem_range.1 hb)]
  · refine List.map_congr_left fun b _ => ?_
    rw [Function.comp_apply, List.getD_append_right _ _ _ _ (Nat.le_add_right ..), Nat.add_sub_cancel_left, hk, hr, ha, Nat.add_assoc]

theorem cells_joinLine (acc : List Write) (w : Write) :
    (joinLine acc w).reverse.flatMap Write.cells = acc.reverse.flatMap Write.cells ++ w.cells := by
  unfold joinLine
  split
  · rename_i p r
    split
    · rename_i h
      simp only [Bool.and_eq_true, beq_iff_eq] at h
      obtain ⟨⟨⟨⟨hp, hw⟩, hk⟩, ha⟩, -⟩ := h
      simp [Write.cells_append hk (hp.trans hw.symm) ha]
    · simp
  · simp

/-- Joining writes line by line gives the same bytes. -/
theorem cells_foldl_joinLine (ws acc : List Write) :
    (ws.foldl joinLine acc).reverse.flatMap Write.cells = acc.reverse.flatMap Write.cells ++ ws.flatMap Write.cells := by
  induction ws generalizing acc with
  | nil => simp
  | cons w ws ih => rw [List.foldl_cons, ih, cells_joinLine, List.flatMap_cons, List.append_assoc]

/-- What holds of writes whatever their bytes holds of joined ones. -/
theorem forall_foldl_joinLine {P : Write → Prop} (hP : ∀ w bs, P w → P { w with bytes := bs }) (ws : List Write) {acc : List Write}
    (hacc : ∀ w ∈ acc, P w) (hws : ∀ w ∈ ws, P w) : ∀ w ∈ ws.foldl joinLine acc, P w := by
  induction ws generalizing acc with
  | nil => exact hacc
  | cons w ws ih =>
    obtain ⟨hw, hws⟩ := List.forall_mem_cons.1 hws
    refine ih ?_ hws
    unfold joinLine
    split
    · rename_i p r
      obtain ⟨hp, hr⟩ := List.forall_mem_cons.1 hacc
      split
      · exact List.forall_mem_cons.2 ⟨hP p _ hp, hr⟩
      · exact List.forall_mem_cons.2 ⟨hw, hacc⟩
    · exact List.forall_mem_cons.2 ⟨hw, nofun⟩

/-- A write but for its name and what leaving its die marks. -/
def Write.unsent (w : Write) : Write := { w with id := 0, sent := false, preds := [] }

theorem State.unsent_leave (s : State) (w : Write) : (s.leave w).unsent = w.unsent := by
  unfold State.leave
  split <;> rfl

/-- New writes wait behind those on their way, each with a name of its own. -/
theorem State.addWrites_eq (s : State) (ws : List Write) : ∃ new : List Write, new.map Write.unsent = ws.map Write.unsent ∧
    s.addWrites ws = { s with pend := s.pend ++ new, nextId := s.nextId + ws.length } := by
  induction ws generalizing s with
  | nil => exact ⟨[], rfl, by simp [State.addWrites]⟩
  | cons w ws ih =>
    obtain ⟨v, hv, hs⟩ : ∃ v : Write, v.unsent = w.unsent ∧
        s.addWrites (w :: ws) = State.addWrites { s with pend := s.pend ++ [v], nextId := s.nextId + 1 } ws := by
      refine ⟨_, ?_, rfl⟩
      split
      · exact State.unsent_leave ..
      · rfl
    obtain ⟨new, hnew, he⟩ := ih { s with pend := s.pend ++ [v], nextId := s.nextId + 1 }
    refine ⟨v :: new, by simp [hv, hnew], ?_⟩
    rw [hs, he]
    simp [Nat.add_assoc, Nat.add_comm 1]

/-- A write on its way with the last part of its whole-block write among new ones (18_host_and_trust R406). -/
def Write.completedBy (e : Write) (ws : List Write) : Write :=
  if ws.any (fun w => w.whole && w.src == e.src && w.seq == e.seq && w.addr / 256 == e.addr / 256) = true then { e with whole := true }
  else e

/-- The writes of a put or copy: those on their way are as they were, but for being part of a whole block, and the new ones give the
same bytes. -/
theorem State.addParts_eq (s : State) (ws : List Write) : ∃ old new : List Write,
    s.addParts ws = { s with pend := old ++ new, nextId := s.nextId + new.length } ∧
    old.map (fun w => { w with whole := false }) = s.pend.map (fun w => { w with whole := false }) ∧
    new.flatMap Write.cells = ws.flatMap Write.cells ∧
    ∀ P : Write → Prop, (∀ w, P w ↔ P w.unsent) → (∀ w bs, P w → P { w with bytes := bs }) → (∀ w ∈ ws, P w) → ∀ w ∈ new, P w := by
  obtain ⟨new, hnew, he⟩ := State.addWrites_eq { s with pend := s.pend.map (·.completedBy ws) } (ws.foldl joinLine []).reverse
  have hlen : new.length = (ws.foldl joinLine []).reverse.length := by simpa using congrArg List.length hnew
  refine ⟨_, new, by rw [hlen]; exact he, ?old, ?cells, fun P hu hb hw w hmem => ?every⟩
  case old =>
    rw [List.map_map]
    refine List.map_congr_left fun w _ => ?_
    rw [Function.comp_apply, Write.completedBy]
    split <;> rfl
  case cells =>
    have hmap (l : List Write) : l.flatMap Write.cells = (l.map Write.unsent).flatMap Write.cells := by
      rw [List.flatMap_map]
      rfl
    rw [hmap, hnew, ← hmap, cells_foldl_joinLine]
    rfl
  case every =>
    have hjoin := forall_foldl_joinLine hb ws (acc := []) nofun hw
    obtain ⟨v, hv, hvw⟩ := List.mem_map.1 (hnew ▸ List.mem_map_of_mem hmem : w.unsent ∈ (ws.foldl joinLine []).reverse.map Write.unsent)
    rw [hu, ← hvw, ← hu]
    exact hjoin v (List.mem_reverse.1 hv)

/-! ### What a unit moves (05_copy_engine R118) -/

@[simp] theorem State.length_dieBytes (s : State) (d : Nat) (k : Byte) (a n : Nat) : (s.dieBytes d k a n).length = n := by
  simp [State.dieBytes]

@[simp] theorem State.length_spBytes (s : State) (t ci off n : Nat) : (s.spBytes t ci off n).length = n := by
  simp [State.spBytes]

theorem State.getD_spBytes (s : State) (t ci off : Nat) {n b : Nat} (h : b < n) : (s.spBytes t ci off n).getD b 0 = s.spByte t ci (off + b) := by
  simp [State.spBytes, h]

@[simp] theorem length_toBytes (n x : Nat) : (toBytes n x).length = n := by
  induction n generalizing x with
  | zero => rfl
  | succ n ih => rw [toBytes, List.length_cons, ih]

/-- A byte of a run of elements, each of `es` bytes. -/
theorem getD_flatMap_range {g : Nat → List Byte} {es : Nat} (hg : ∀ j, (g j).length = es) {m b : Nat} (hb : b < m * es) :
    ((List.range m).flatMap g).getD b 0 = (g (b / es)).getD (b % es) 0 := by
  have hlen (m : Nat) : ((List.range m).flatMap g).length = m * es := by simp [List.length_flatMap, hg]
  induction m with
  | zero => omega
  | succ m ih =>
    rw [List.range_succ, List.flatMap_append, List.flatMap_singleton]
    rcases Nat.lt_or_ge b (m * es) with hlt | hge
    · rw [List.getD_append _ _ _ _ (by rwa [hlen]), ih hlt]
    · obtain ⟨r, rfl⟩ := Nat.exists_eq_add_of_le hge
      have hr : r < es := by rw [Nat.succ_mul] at hb; omega
      rw [List.getD_append_right _ _ _ _ (by rw [hlen]; exact hge), hlen, Nat.add_sub_cancel_left, Nat.add_comm (m * es),
        Nat.add_mul_div_right _ _ (by omega), Nat.div_eq_of_lt hr, Nat.zero_add, Nat.add_mul_mod_self_right, Nat.mod_eq_of_lt hr]

/-- The width in scratchpad of an accumulator element that is copied as `ct` says, and its bytes. -/
def accWidth (ct : Nat) : Nat := if ct = 0 then 4 else 2

def accElemBytes (ct v : Nat) : List Byte :=
  toBytes (accWidth ct) (if ct = 0 then v else (fcvtFF (if ct = 1 then f16 else bf16) 0 (fdec f32 v)).1)

@[simp] theorem length_accElemBytes (ct v : Nat) : (accElemBytes ct v).length = accWidth ct := length_toBytes ..

theorem State.getD_accBytes (s : State) (t : Nat) (a : Copy) {i n b : Nat} (hi : i % 4 = 0) (hn : n % 4 = 0) (hb : b < n) :
    (s.accBytes t a i n).getD b 0 = (accElemBytes a.ct (s.accElem t (512 * (a.row + (i + b) / accWidth a.ct / 128) + a.col +
      (i + b) / accWidth a.ct % 128)).toNat).getD (b % accWidth a.ct) 0 := by
  have hdvd : ∃ w, accWidth a.ct = w ∧ 0 < w ∧ i % w = 0 ∧ n % w = 0 := by
    refine ⟨_, rfl, ?_⟩
    unfold accWidth
    split <;> omega
  obtain ⟨w, hw, hpos, hiw, hnw⟩ := hdvd
  have hrun : s.accBytes t a i n = (List.range (n / accWidth a.ct)).flatMap fun j => accElemBytes a.ct
      (s.accElem t (512 * (a.row + (i / accWidth a.ct + j) / 128) + a.col + (i / accWidth a.ct + j) % 128)).toNat := rfl
  have hlen : b < n / accWidth a.ct * accWidth a.ct := by rw [hw, Nat.div_mul_cancel (Nat.dvd_of_mod_eq_zero hnw)]; exact hb
  have hidx : i / accWidth a.ct + b / accWidth a.ct = (i + b) / accWidth a.ct := by
    rw [hw, Nat.add_div_of_dvd_right (Nat.dvd_of_mod_eq_zero hiw)]
  rw [hrun, getD_flatMap_range (fun j => length_accElemBytes ..) hlen, hidx]

theorem State.length_accBytes (s : State) (t : Nat) (a : Copy) (i : Nat) {n : Nat} (hn : n % 4 = 0) : (s.accBytes t a i n).length = n := by
  have hrun : (s.accBytes t a i n).length = ((List.range (n / accWidth a.ct)).flatMap fun j => accElemBytes a.ct
      (s.accElem t (512 * (a.row + (i / accWidth a.ct + j) / 128) + a.col + (i / accWidth a.ct + j) % 128)).toNat).length := rfl
  have hw : n % accWidth a.ct = 0 := by
    unfold accWidth
    split <;> omega
  rw [hrun]
  simp [List.length_flatMap, Nat.div_mul_cancel (Nat.dvd_of_mod_eq_zero hw)]

section
variable (s : State) (t : Nat) {a : Copy} (u : Nat) (ls : List (Nat × Leaf))

theorem State.unitGo_of_g2s (hs : a.sub = 0) : s.unitGo t a u ls =
    (s.setSp a.at_.1 a.at_.2.1 (a.at_.2.2 + 256 * u) (ls.flatMap fun p =>
      s.dieBytes (dieOfCluster (((s.team? t).map (·.cluster)).getD 0)) p.2.key
        (p.2.at_ (dieOfCluster (((s.team? t).map (·.cluster)).getD 0))) 16), []) := if_pos hs

theorem State.unitGo_of_s2g (hs : a.sub = 1) : s.unitGo t a u ls =
    (s.addParts (ls.map fun p => s.pieceWrite t a u p.1 p.2),
      (List.range ((s.addParts (ls.map fun p => s.pieceWrite t a u p.1 p.2)).nextId - s.nextId)).map (s.nextId + ·)) := by
  simp only [State.unitGo, hs, if_neg Nat.one_ne_zero, if_true]

theorem State.unitGo_of_s2o (hs : a.sub = 2) : s.unitGo t a u ls =
    (s.modTeam t fun y => { y with slots := lmod y.slots a.slot (fun z => { z with
      bytes := putBytes z.bytes (256 * u) (s.spBytes a.at_.1 a.at_.2.1 (a.at_.2.2 + 256 * u) (min 256 (a.len - 256 * u))) }) }, []) := by
  simp [State.unitGo, hs]

theorem State.unitGo_of_a2s (hs : a.sub = 3) : s.unitGo t a u ls =
    (s.setSp a.at_.1 a.at_.2.1 (a.at_.2.2 + 256 * u) (s.accBytes t a (256 * u) (min 256 (a.len - 256 * u))), []) := by
  simp [State.unitGo, hs]

end

/-- A team but for its scratchpad, and but for its operand slots. -/
def Team.noScratch (x : Team) : Team := { x with scratch := [] }
def Team.noSlots (x : Team) : Team := { x with slots := [] }

theorem keeps_setSp (s : State) (t ci off : Nat) (l : List Byte) : Keeps Team.noScratch s (s.setSp t ci off l) := keeps_modTeam s t

/-- A unit of a copy has moved: its tag counts it, and memory on the dies is as it was. -/
def UnitMoved (s s' : State) (t ci n cl core : Nat) (g : Tag) (a : Copy) (ids : List Nat) : Prop :=
  (∃ h, s'.tag? t ci n = some { g with prog := g.prog + 1, cp := some { a with
    writes := a.writes ++ ids, head := h, last := s.unitsOn cl core + 1 } } ∧
      h = if g.prog = 0 then s.spBytes a.at_.1 a.at_.2.1 a.at_.2.2 64 else a.head) ∧
  s'.flight = s.flight ∧ s'.mem = s.mem ∧ s'.keys = s.keys ∧ (s'.cluster cl).held = ((s.curUse cl .cpe).cluster cl).held

section
variable {s s1 : State} {t ci n cl core : Nat} {g : Tag} {a : Copy} {ls : List (Nat × Leaf)} {ids : List Nat}
  (hr : s.unitGo t a g.prog ls = (s1, ids))
include hr

/-- After the bytes have moved the tag and the cluster's counts alone change. -/
theorem State.unitWent_parts : ∃ s2, Keeps Team.noTags s1 s2 ∧ OnlyClusters s2 (s.unitWent t ci n cl core a g.prog ls) := by
  have h := onlyClusters_unitDone
  unfold State.unitWent
  rw [hr]
  exact ⟨_, keeps_modTag .., h ..⟩

theorem State.unitWent_moved (hg : s.tag? t ci n = some g) (htag : s1.tag? t ci n = s.tag? t ci n)
    (hrest : { s1 with teams := s.teams, pend := s.pend, nextId := s.nextId } = s) :
    UnitMoved s (s.unitWent t ci n cl core a g.prog ls) t ci n cl core g a ids := by
  have hclusters : s1.clusters = s.clusters := by have e := congrArg State.clusters hrest; exact e
  have hflight : s1.flight = s.flight := by have e := congrArg State.flight hrest; exact e
  have hmem : s1.mem = s.mem := by have e := congrArg State.mem hrest; exact e
  have hkeys : s1.keys = s.keys := by have e := congrArg State.keys hrest; exact e
  have hdone := onlyClusters_unitDone
  unfold State.unitWent
  rw [hr]
  refine ⟨⟨_, ?_, rfl⟩, (hdone ..).flight.trans hflight, (hdone ..).mem.trans hmem, (hdone ..).keys.trans hkeys,
    held_unitDone (by simp [State.cluster, State.modTag, hclusters]) core⟩
  rw [(hdone ..).tag?, State.tag?_modTag, if_pos ⟨rfl, rfl, rfl⟩, htag, hg]
  rfl

theorem State.pend_unitWent : (s.unitWent t ci n cl core a g.prog ls).pend = s1.pend := by
  obtain ⟨s2, h1, h2⟩ := State.unitWent_parts (ci := ci) (n := n) (cl := cl) (core := core) hr
  rw [h2.pend]
  have e := congrArg State.pend h1.1
  exact e

theorem State.sameMem_unitWent : SameMem s1 (s.unitWent t ci n cl core a g.prog ls) := by
  obtain ⟨s2, h1, h2⟩ := State.unitWent_parts (ci := ci) (n := n) (cl := cl) (core := core) hr
  exact (h1.sameMem (fun _ => rfl) fun _ => rfl).trans h2.sameMem

end

/-! ### The bytes that a unit has moved (05_copy_engine R118, R119) -/

/-- The write of a piece is the engine's own and gives the piece's bytes. -/
theorem State.cells_pieceWrite (s : State) (t : Nat) (a : Copy) (u i : Nat) (l : Leaf) : (s.pieceWrite t a u i l).cells =
    (List.range 16).map fun b => (l.pa + b, l.key, s.spByte a.at_.1 a.at_.2.1 (a.at_.2.2 + i + b), l.repl) := by
  have hlen : (s.pieceWrite t a u i l).bytes.length = 16 := State.length_spBytes ..
  unfold Write.cells
  rw [hlen]
  refine List.map_congr_left fun b hb => ?_
  have hbyte : (s.pieceWrite t a u i l).bytes.getD b 0 = _ := State.getD_spBytes s _ _ _ (List.mem_range.1 hb)
  rw [hbyte]
  rfl

theorem State.sameMem_addParts (s : State) (ws : List Write) : SameMem s (s.addParts ws) := by
  obtain ⟨old, new, h, -⟩ := State.addParts_eq s ws
  rw [h]
  exact sameMem_of_eq rfl rfl rfl rfl

section
variable {s : State} {t ci n cl core : Nat} {g : Tag} {a : Copy} (hg : s.tag? t ci n = some g)
include hg

/-- A unit that puts bytes into scratchpad has moved, and has changed those bytes alone. -/
theorem State.unitWent_of_setSp {ls : List (Nat × Leaf)} {ct cc off : Nat} {bs : List Byte}
    (hr : s.unitGo t a g.prog ls = (s.setSp ct cc off bs, [])) :
    UnitMoved s (s.unitWent t ci n cl core a g.prog ls) t ci n cl core g a [] ∧ (s.unitWent t ci n cl core a g.prog ls).pend = s.pend ∧
      ∀ y m, s.team? ct = some y → y.scratch[cc]? = some m → ∀ b, (s.unitWent t ci n cl core a g.prog ls).spByte ct cc b =
        if off ≤ b ∧ b < off + bs.length then bs.getD (b - off) 0 else s.spByte ct cc b := by
  refine ⟨State.unitWent_moved hr hg ((keeps_setSp ..).tag? (fun _ => rfl) ..) rfl, (State.pend_unitWent hr).trans rfl, fun y m hy hm b => ?_⟩
  obtain ⟨-, hsp, -⟩ := State.sameMem_unitWent (ci := ci) (n := n) (cl := cl) (core := core) hr
  rw [hsp, State.spByte_setSp _ _ _ _ _ _ _ _ (by simp [hy, hm])]
  simp only [true_and]

/-- From global memory to scratchpad. -/
theorem State.unitWent_of_g2s {q : Team} (hq : s.team? t = some q) (hs : a.sub = 0) (ls : List (Nat × Leaf)) :
    UnitMoved s (s.unitWent t ci n cl core a g.prog ls) t ci n cl core g a [] ∧ (s.unitWent t ci n cl core a g.prog ls).pend = s.pend ∧
      ∀ y m, s.team? a.at_.1 = some y → y.scratch[a.at_.2.1]? = some m →
        ∀ b, (s.unitWent t ci n cl core a g.prog ls).spByte a.at_.1 a.at_.2.1 b =
          if a.at_.2.2 + 256 * g.prog ≤ b ∧ b < a.at_.2.2 + 256 * g.prog + 16 * ls.length then
            (ls.flatMap fun p => s.dieBytes (dieOfCluster q.cluster) p.2.key (p.2.at_ (dieOfCluster q.cluster)) 16).getD
              (b - (a.at_.2.2 + 256 * g.prog)) 0
          else s.spByte a.at_.1 a.at_.2.1 b := by
  have hlen : (ls.flatMap fun p => s.dieBytes (dieOfCluster q.cluster) p.2.key (p.2.at_ (dieOfCluster q.cluster)) 16).length =
      16 * ls.length := by simp [List.length_flatMap, Nat.mul_comm]
  have hr := State.unitGo_of_g2s s t g.prog ls hs
  rw [hq, Option.map_some, Option.getD_some] at hr
  rw [← hlen]
  exact State.unitWent_of_setSp hg hr

/-- From the accumulator, converted or not, to scratchpad. -/
theorem State.unitWent_of_a2s (hs : a.sub = 3) (hlen : min 256 (a.len - 256 * g.prog) % 4 = 0) (ls : List (Nat × Leaf)) :
    UnitMoved s (s.unitWent t ci n cl core a g.prog ls) t ci n cl core g a [] ∧ (s.unitWent t ci n cl core a g.prog ls).pend = s.pend ∧
      ∀ y m, s.team? a.at_.1 = some y → y.scratch[a.at_.2.1]? = some m → ∀ b, b < min 256 (a.len - 256 * g.prog) →
        (s.unitWent t ci n cl core a g.prog ls).spByte a.at_.1 a.at_.2.1 (a.at_.2.2 + 256 * g.prog + b) =
          (accElemBytes a.ct (s.accElem t (512 * (a.row + (256 * g.prog + b) / accWidth a.ct / 128) + a.col +
            (256 * g.prog + b) / accWidth a.ct % 128)).toNat).getD (b % accWidth a.ct) 0 := by
  obtain ⟨hmoved, hpend, hsp⟩ := State.unitWent_of_setSp (ci := ci) (n := n) (cl := cl) (core := core) hg
    (State.unitGo_of_a2s s t g.prog ls hs)
  refine ⟨hmoved, hpend, fun y m hy hm b hb => ?_⟩
  rw [hsp y m hy hm, if_pos ⟨by omega, by rw [State.length_accBytes _ _ _ _ hlen]; omega⟩, Nat.add_sub_cancel_left,
    State.getD_accBytes _ _ _ (by omega) hlen hb]

/-- From scratchpad to an operand slot. -/
theorem State.unitWent_of_s2o {q : Team} (hq : s.team? t = some q) (hs : a.sub = 2) (ls : List (Nat × Leaf)) :
    UnitMoved s (s.unitWent t ci n cl core a g.prog ls) t ci n cl core g a [] ∧ SameMem s (s.unitWent t ci n cl core a g.prog ls) ∧
      (s.unitWent t ci n cl core a g.prog ls).pend = s.pend ∧ ∀ z, q.slots[a.slot]? = some z → ∃ z',
        ((s.unitWent t ci n cl core a g.prog ls).team? t).bind (fun y => y.slots[a.slot]?) = some z' ∧ z'.cl = z.cl ∧ z'.fmt = z.fmt ∧
        ∀ b, tgetD z'.bytes b 0 = if 256 * g.prog ≤ b ∧ b < 256 * g.prog + min 256 (a.len - 256 * g.prog) then
          s.spByte a.at_.1 a.at_.2.1 (a.at_.2.2 + b) else tgetD z.bytes b 0 := by
  have hr := State.unitGo_of_s2o s t g.prog ls hs
  obtain ⟨s2, h1, h2⟩ := State.unitWent_parts (ci := ci) (n := n) (cl := cl) (core := core) hr
  refine ⟨State.unitWent_moved hr hg ((keeps_modTeam (keep := Team.noSlots) ..).tag? (fun _ => rfl) ..) rfl,
    ((keeps_modTeam (keep := Team.noSlots) ..).sameMem (fun _ => rfl) fun _ => rfl).trans (State.sameMem_unitWent hr),
    (State.pend_unitWent hr).trans rfl, fun z hz => ⟨{ z with
      bytes := putBytes z.bytes (256 * g.prog) (s.spBytes a.at_.1 a.at_.2.1 (a.at_.2.2 + 256 * g.prog) (min 256 (a.len - 256 * g.prog))) },
      ?_, rfl, rfl, fun b => ?_⟩⟩
  · rw [h2.team?, h1.bind (f := fun y => y.slots[a.slot]?) (fun _ => rfl), State.team?_modTeam, if_pos rfl, hq]
    simp [hz]
  · rw [tgetD_putBytes, State.length_spBytes]
    split
    · rename_i hb
      obtain ⟨r, rfl⟩ := Nat.exists_eq_add_of_le hb.1
      rw [Nat.add_sub_cancel_left, State.getD_spBytes _ _ _ _ (by omega), Nat.add_assoc]
    · rfl

/-- From scratchpad to global memory: writes of the engine's on their way. -/
theorem State.unitWent_of_s2g {q : Team} (hq : s.team? t = some q) (hs : a.sub = 1) (ls : List (Nat × Leaf)) : ∃ old ws,
    UnitMoved s (s.unitWent t ci n cl core a g.prog ls) t ci n cl core g a ((List.range ws.length).map (s.nextId + ·)) ∧
      SameMem s (s.unitWent t ci n cl core a g.prog ls) ∧ (s.unitWent t ci n cl core a g.prog ls).pend = old ++ ws ∧
      old.map (fun w => { w with whole := false }) = s.pend.map (fun w => { w with whole := false }) ∧
      (∀ w ∈ ws, w.src = none ∧ w.seq = a.order ∧ w.die = dieOfCluster q.cluster ∧ w.tgt = .glob ∧ w.gate = none) ∧
      ws.flatMap Write.cells = ls.flatMap fun p => (List.range 16).map fun b =>
        (p.2.pa + b, p.2.key, s.spByte a.at_.1 a.at_.2.1 (a.at_.2.2 + p.1 + b), p.2.repl) := by
  obtain ⟨old, ws, hadd, hold, hcells, hevery⟩ := State.addParts_eq s (ls.map fun p => s.pieceWrite t a g.prog p.1 p.2)
  have hr := State.unitGo_of_s2g s t g.prog ls hs
  have hsame := (State.sameMem_addParts ..).trans (State.sameMem_unitWent (ci := ci) (n := n) (cl := cl) (core := core) hr)
  rw [hadd] at hr
  dsimp only at hr
  rw [Nat.add_sub_cancel_left] at hr
  refine ⟨old, ws, State.unitWent_moved hr hg rfl rfl, hsame,
    (State.pend_unitWent hr).trans rfl, hold, ?_, ?_⟩
  · refine hevery (fun w => w.src = none ∧ w.seq = a.order ∧ w.die = dieOfCluster q.cluster ∧ w.tgt = .glob ∧ w.gate = none)
      (fun _ => Iff.rfl) (fun _ _ h => h) fun w hw => ?_
    obtain ⟨p, -, rfl⟩ := List.mem_map.1 hw
    refine ⟨rfl, rfl, ?_, rfl, rfl⟩
    simp [State.pieceWrite, blankWrite, State.dieOf, State.clusterOf, teamOf, hq]
  · rw [hcells, List.flatMap_map]
    simp only [State.cells_pieceWrite]

/-- A unit that fails stops its copy. -/
theorem State.unitFailed_stops (f : Nat × DWord) : SameMem s (s.unitFailed t ci n cl a f) ∧ (s.unitFailed t ci n cl a f).pend = s.pend ∧
    (s.unitFailed t ci n cl a f).tag? t ci n = some { g with cp := some { a with fault := some f } } := by
  have hend : OnlyClusters (s.modTag t ci n fun g => { g with cp := some { a with fault := some f } }) (s.unitFailed t ci n cl a f) :=
    onlyClusters_modCluster ..
  refine ⟨((keeps_modTag ..).sameMem (fun _ => rfl) fun _ => rfl).trans hend.sameMem, hend.pend.trans rfl, ?_⟩
  rw [hend.tag?, State.tag?_modTag, if_pos ⟨rfl, rfl, rfl⟩, hg]
  rfl

end

/-! ### The request for a burst's current (17_power R384, R387, R388) -/

/-- A request leaves everything but the cluster's list of requests, which holds at most the new one besides. -/
theorem State.curAsk_asks (s : State) (cl : Nat) (who : Requester) (team tag left charge : Nat) :
    ((s.curAsk cl who team tag left charge).cluster cl).held = (s.cluster cl).held ∧
      ∀ r ∈ ((s.curAsk cl who team tag left charge).cluster cl).reqs, r ∈ (s.cluster cl).reqs ∨
        r = ⟨who, team, who.quarters (s.cluster cl).ratio, (s.cluster cl).clk, tag, left, charge⟩ := by
  unfold State.curAsk
  rw [State.cluster_modCluster, if_pos rfl]
  split
  · exact ⟨rfl, fun r hr => .inl hr⟩
  · refine ⟨rfl, fun r hr => ?_⟩
    rw [List.mem_append, List.mem_singleton] at hr
    exact hr.imp_left fun h => (List.mem_filter.1 h).1

theorem State.copyAsk_asks {s : State} {t : Nat} {q : Team} (hq : s.team? t = some q) (a : Copy) (prog : Nat) :
    OnlyClusters s (s.copyAsk t a prog) ∧ ((s.copyAsk t a prog).cluster q.cluster).held = (s.cluster q.cluster).held ∧
      ∀ r ∈ ((s.copyAsk t a prog).cluster q.cluster).reqs, r ∈ (s.cluster q.cluster).reqs ∨
        r = ⟨.cpe, t, 3, (s.cluster q.cluster).clk, a.order, min 16 (a.units - prog), min 4096 (a.len - 256 * prog)⟩ := by
  unfold State.copyAsk
  rw [hq, Option.map_some, Option.getD_some]
  dsimp only
  split
  · exact ⟨rfl, rfl, fun r hr => .inl hr⟩
  · exact ⟨onlyClusters_modCluster .., State.curAsk_asks s q.cluster .cpe ..⟩

/-! ### The end of a copy (05_copy_engine R119, R121, R122, R124) -/

/-- The post that follows a copy: none after a fault (05_copy_engine R119 step 8). -/
def Copy.post (a : Copy) (ci n : Nat) : List CPost :=
  if a.fault = none then (a.mbox.map fun m => (⟨ci, n, m, wordsOf a.head, a.writes⟩ : CPost)).toList else []

/-- A copy has come to its end: nothing stops it, its units and its writes are done. -/
def State.copyEnded (s : State) (d : Nat) (g : Tag) (a : Copy) : Prop :=
  g.st = 1 ∧ g.halt = false ∧ g.dh = false ∧ (a.fault ≠ none ∨ a.units ≤ g.prog) ∧ a.writes.all (s.appliedAt d) = true ∧
    (a.fault = none → a.rel = true → ∀ id ∈ a.writes, s.onWay id = false)

theorem State.copyEnded_iff {s : State} {d : Nat} {g : Tag} {a : Copy} : ¬s.copyEnded d g a ↔
    g.st ≠ 1 ∨ g.halt = true ∨ g.dh = true ∨ a.ended g.prog = false ∨ a.writes.all (s.appliedAt d) = false ∨
      (a.fault = none ∧ a.rel = true ∧ a.writes.any s.onWay = true) := by
  have hended : a.ended g.prog = false ↔ ¬(a.fault ≠ none ∨ a.units ≤ g.prog) := by rw [← Copy.ended_iff, Bool.not_eq_true]
  have hway : a.writes.any s.onWay = true ↔ ¬∀ id ∈ a.writes, s.onWay id = false := by simp
  rw [hended, hway, ← Bool.not_eq_true (a.writes.all _)]
  unfold State.copyEnded
  rw [← Bool.not_eq_true g.halt, ← Bool.not_eq_true g.dh]
  tauto

/-- A team but for the posts that are to follow its copies. -/
def Team.noPosts (x : Team) : Team := { x with posts := [] }

/-- The tag of a copy that has ended: done, with the copy's fault. -/
def Tag.ended (g : Tag) (f : Option (Nat × DWord)) : Tag :=
  { g with st := 2, halt := false, dh := false, err := f.isSome, cause := (f.map (·.1)).getD 0, faddr := (f.map (·.2)).getD 0, cp := none }

/-- A team but for what the end of a copy changes. -/
def Team.noCopies (x : Team) : Team := x.noTiles.noTags.noPosts

section
variable (s : State) (t ci n : Nat) (a : Copy) (f : Option (Nat × DWord))

theorem keeps_endCopy : Keeps (fun x => x.noTiles.noTags) s (s.endCopy t ci n a f) :=
  ((keeps_freeTiles ..).weaken fun _ => rfl).trans ((keeps_modTag ..).weaken fun _ => rfl)

theorem State.tag?_endCopy : (s.endCopy t ci n a f).tag? t ci n = (s.tag? t ci n).map (·.ended f) := by
  unfold State.endCopy
  rw [State.tag?_modTag, if_pos ⟨rfl, rfl, rfl⟩, (keeps_freeTiles ..).tag? fun _ => rfl]
  rfl

/-- The tiles of a copy that has ended lose one user each, and those without a user are the threads' again. -/
theorem State.tiles_endCopy {cc m : Nat} (h : (s.uses? a.at_.1 cc).isSome) (hcc : cc = a.at_.2.1) :
    let hit : Prop := a.at_.2.2 / 4096 ≤ m ∧ m ≤ (a.at_.2.2 + a.len - 1) / 4096
    (s.endCopy t ci n a f).tileUse a.at_.1 cc m = (if hit then s.tileUse a.at_.1 cc m - 1 else s.tileUse a.at_.1 cc m) ∧
      (s.endCopy t ci n a f).tileE a.at_.1 cc m = (if hit ∧ s.tileUse a.at_.1 cc m ≤ 1 then false else s.tileE a.at_.1 cc m) := by
  have hmem : (a.at_.1, cc, m) ∈ tilesOf a.at_ a.len ↔ a.at_.2.2 / 4096 ≤ m ∧ m ≤ (a.at_.2.2 + a.len - 1) / 4096 := by
    simp [mem_tilesOf, hcc]
  have htag := keeps_modTag (s.freeTiles (tilesOf a.at_ a.len)) t ci n (·.ended f)
  obtain ⟨huse, hown⟩ := State.tiles_freeTiles (nodup_tilesOf a.at_ a.len) h m
  simp only [hmem] at huse hown
  exact ⟨(htag.tileUse (fun _ => rfl) ..).trans huse, (htag.tileE (fun _ => rfl) ..).trans hown⟩

end

section
variable {s : State} {t ci n : Nat} {g : Tag} {a : Copy} {q : Team} (hq : s.team? t = some q) (hg : s.tag? t ci n = some g)
  (ha : g.cp = some a) (hp : ∀ p ∈ q.posts, ¬(p.ci = ci ∧ p.tag = n))
include hq hg ha hp

/-- Without a post to make, the completion ends a copy that has come to its end, and a post follows it. -/
theorem State.copyCompletion_eq : s.copyCompletion t ci n =
    if g.st ≠ 1 ∨ g.halt = true ∨ g.dh = true ∨ a.ended g.prog = false ∨ a.writes.all (s.appliedAt (dieOfCluster q.cluster)) = false ∨
      (a.fault = none ∧ a.rel = true ∧ a.writes.any s.onWay = true) then s
    else (if a.fault = none then a.mbox else none).elim (s.endCopy t ci n a a.fault) fun m =>
      (s.endCopy t ci n a a.fault).modTeam t fun x => { x with posts := x.posts ++ [⟨ci, n, m, wordsOf a.head, a.writes⟩] } := by
  have hnone : q.posts.find? (fun p => p.ci == ci && p.tag == n) = none :=
    List.find?_eq_none.2 fun p hmem => by simpa using hp p hmem
  unfold State.copyCompletion
  simp only [hq, Option.map_some, Option.getD_some, hnone, hg, ha]
  cases (if a.fault = none then a.mbox else none) <;> rfl

theorem State.copyCompletion_of_not_ended (h : ¬s.copyEnded (dieOfCluster q.cluster) g a) : s.copyCompletion t ci n = s := by
  rw [State.copyCompletion_eq hq hg ha hp, if_pos (State.copyEnded_iff.1 h)]

theorem State.copyCompletion_of_ended (h : s.copyEnded (dieOfCluster q.cluster) g a) :
    Keeps Team.noPosts (s.endCopy t ci n a a.fault) (s.copyCompletion t ci n) ∧
      ((s.copyCompletion t ci n).team? t).map (·.posts) = some (q.posts ++ a.post ci n) := by
  have hposts : ((s.endCopy t ci n a a.fault).team? t).map (·.posts) = some q.posts := by
    rw [(keeps_endCopy ..).map (f := (·.posts)) fun _ => rfl, hq]
    rfl
  rw [State.copyCompletion_eq hq hg ha hp, if_neg fun hn => State.copyEnded_iff.2 hn h]
  unfold Copy.post
  cases hm : (if a.fault = none then a.mbox else none) with
  | none =>
    refine ⟨.refl .., hposts.trans ?_⟩
    split at hm <;> simp [*]
  | some m =>
    refine ⟨keeps_modTeam .., ?_⟩
    obtain ⟨y, hy, hyp⟩ := Option.map_eq_some_iff.1 hposts
    split at hm <;> simp_all

theorem State.keeps_copyCompletion (h : s.copyEnded (dieOfCluster q.cluster) g a) : Keeps Team.noCopies s (s.copyCompletion t ci n) :=
  ((keeps_endCopy ..).weaken fun _ => rfl).trans ((State.copyCompletion_of_ended hq hg ha hp h).1.weaken fun _ => rfl)

end

theorem exec_copyUnit {s s' : State} {t ci n : Nat} (h : s.copyUnit t ci n = s') : exec (.copyUnit t ci n) s = .next s' :=
  congrArg Host.Outcome.next h

theorem exec_copyCompletion {s s' : State} {t ci n : Nat} (h : s.copyCompletion t ci n = s') :
    exec (.copyCompletion t ci n) s = .next s' := congrArg Host.Outcome.next h

/-- Settles O36: the engine's turn by the branches of `copyUnit` and of `unitGo`, its choice by `nextJob_cases`, and the end of a copy by
what freeing the tiles and marking the tag change. -/
theorem copyProgress : Obligations.CopyProgress := by
  refine ⟨fun t ci n core s g a q hq => ⟨?other, fun hj hg ha => ⟨?ask, ?unitHeld, fun hh hu => ?held⟩⟩,
    fun s cl j h => State.nextJob_cases h, fun t ci n s g a q hq hg ha hp => ⟨?notEnded, fun h hlen => ?ended⟩⟩
  case other => exact fun h => exec_copyUnit (State.copyUnit_of_other hq h)
  case ask =>
    intro hh
    exact ⟨_, exec_copyUnit (State.copyUnit_of_not_held hq hj hg hh), State.copyAsk_asks hq a g.prog⟩
  case unitHeld => exact fun hh hu => exec_copyUnit (State.copyUnit_of_unitHeld hq hj hg hh hu)
  case held =>
    have hgoes {l} (hs : a.sub ≤ 1) hl (he : s.unitLeaves t a g.prog = .ok l) hw :=
      exec_copyUnit (State.copyUnit_of_leaves hq hj hg hh hu hs hl he hw)
    have hengine (hs : 1 < a.sub) := exec_copyUnit (State.copyUnit_of_engine hq hj hg hh hu hs)
    refine ⟨?looks, ?waits, ?g2s, ?s2g, ?s2o, ?a2s, ?fails⟩
    case looks => exact fun hs hl => exec_copyUnit (State.copyUnit_of_lookup hq hj hg hh hu hs hl)
    case waits => exact fun l hs hl he hw => exec_copyUnit (State.copyUnit_of_waits hq hj hg hh hu hs hl he hw)
    case g2s => exact fun l hs hl he hw => ⟨_, hgoes (by omega) hl he hw, State.unitWent_of_g2s hg hq hs l⟩
    case s2g =>
      intro l hs hl he hw
      obtain ⟨old, ws, hmoved, hrest⟩ := State.unitWent_of_s2g hg hq hs l
      exact ⟨_, old, ws, hgoes (by omega) hl he hw, hmoved, hrest⟩
    case s2o => exact fun hs => ⟨_, hengine (by omega), State.unitWent_of_s2o hg hq hs []⟩
    case a2s => exact fun hs hlen => ⟨_, hengine (by omega), State.unitWent_of_a2s hg hs hlen []⟩
    case fails =>
      exact fun m v hs hl he => ⟨_, exec_copyUnit (State.copyUnit_of_error hq hj hg hh hu hs hl he), State.unitFailed_stops hg (m, v)⟩
  case notEnded => exact fun h => exec_copyCompletion (State.copyCompletion_of_not_ended hq hg ha hp h)
  case ended =>
    have hkeeps := State.keeps_copyCompletion hq hg ha hp h
    obtain ⟨hpost, hposts⟩ := State.copyCompletion_of_ended hq hg ha hp h
    refine ⟨_, g.ended a.fault, rfl, hkeeps.sameMem (fun _ => rfl) fun _ => rfl, hkeeps.1,
      (hpost.tag? (fun _ => rfl) ..).trans ((State.tag?_endCopy ..).trans (by rw [hg]; rfl)), rfl, rfl, rfl, rfl, rfl,
      fun hf => by simp [Tag.ended, hf], fun m v hf => by simp [Tag.ended, hf], hposts, fun y m u z hy hz hu => ?tiles⟩
    subst hy
    obtain ⟨huse, hown⟩ := State.tiles_endCopy s t ci n a a.fault (m := m) (by simp [State.uses?, hz, hu]) rfl
    exact ⟨(hpost.tileUse (fun _ => rfl) ..).trans huse, (hpost.tileE (fun _ => rfl) ..).trans hown⟩

end Sys2Proof.Machine
end

section
/-!
PROOFS. Obligation O42: rendezvous objects, and the forms that set them, arrive at them and wait for them.
-/
namespace Sys2Proof.Machine

/-! ### Two changes of teams that do not touch each other -/

theorem tmod_comm {α : Type} (t : Table α) (j k : Nat) {f g : α → α} (h : ∀ x, f (g x) = g (f x)) :
    tmod (tmod t k g) j f = tmod (tmod t j f) k g := by
  induction t with
  | nil => rfl
  | cons e r ih =>
    obtain ⟨n, x⟩ := e
    by_cases hj : n = j <;> by_cases hk : n = k
    · simp only [tmod, if_pos hj, if_pos hk, h]
    · simp only [tmod, if_pos hj, if_neg hk]
    · simp only [tmod, if_neg hj, if_pos hk]
    · simp only [tmod, if_neg hj, if_neg hk, ih]

theorem State.modTeam_comm (s : State) (a b : Nat) {f g : Team → Team} (h : ∀ x, f (g x) = g (f x)) :
    (s.modTeam b g).modTeam a f = (s.modTeam a f).modTeam b g := by
  simp only [State.modTeam, tmod_comm s.teams a b h]

/-! ### The issuing fragment (13_control_flow R286) -/

theorem keeps_modFrag (s : State) (c : Cur) (g : Frag → Frag) : Keeps Team.bare s (s.modFrag c g) := by
  unfold State.modFrag
  split
  · exact keeps_modTeam s _
  · exact keeps_modTeam s _

theorem Warp.setFrag_frag?_setFrag (x : Warp) (k : Sel) (f g : Frag → Frag) :
    (x.setFrag k ((x.frag? k).map f)).setFrag k (((x.setFrag k ((x.frag? k).map f)).frag? k).map g) =
      x.setFrag k ((x.frag? k).map fun h => g (f h)) := by
  cases k <;> simp [Warp.setFrag, Warp.frag?, Function.comp_def]

@[simp] theorem State.modFrag_modFrag (s : State) (c : Cur) (f g : Frag → Frag) :
    (s.modFrag c f).modFrag c g = s.modFrag c fun h => g (f h) := by
  obtain ⟨u, sel⟩ := c
  cases u with
  | warp t k => simp only [State.modFrag, State.modWarp_modWarp, Warp.setFrag_frag?_setFrag]
  | ccc t k => simp only [State.modFrag, State.modCcc_modCcc]

@[simp] theorem Warp.regs_setFrag (x : Warp) (k : Sel) (f : Option Frag) : (x.setFrag k f).regs = x.regs := by cases k <;> rfl

@[simp] theorem State.regs?_modFrag (s : State) (c : Cur) (g : Frag → Frag) (u : UnitId) : (s.modFrag c g).regs? u = s.regs? u := by
  obtain ⟨v, sel⟩ := c
  cases v <;> cases u <;> simp only [State.modFrag, State.regs?, State.warp?_modWarp, State.ccc?_modWarp, State.warp?_modCcc, State.ccc?_modCcc]
  all_goals split <;> simp [Function.comp_def]

/-- A change of fragments that leaves what each waits on as it is. -/
theorem Warp.wait_setFrag (x : Warp) (k : Sel) {g : Frag → Frag} (hg : ∀ f, (g f).wait = f.wait) :
    (x.setFrag k ((x.frag? k).map g)).frags.map (·.wait) = x.frags.map (·.wait) := by
  have ho (o : Option Frag) : (o.map g).toList.map (·.wait) = o.toList.map (·.wait) := by cases o <;> simp [hg]
  cases k <;> simp only [Warp.setFrag, Warp.frag?, Warp.frags, Warp.active, List.map_append, ho]

theorem State.wait_fragsOf_modFrag (s : State) (c : Cur) {g : Frag → Frag} (hg : ∀ f, (g f).wait = f.wait) (u : UnitId) :
    ((s.modFrag c g).fragsOf u).map (·.wait) = (s.fragsOf u).map (·.wait) := by
  obtain ⟨v, sel⟩ := c
  cases v with
  | warp t k =>
    cases u with
    | warp a b =>
      simp only [State.modFrag, State.fragsOf, State.warp?_modWarp]
      split
      · cases s.warp? a b <;> simp [Warp.wait_setFrag _ _ hg]
      · rfl
    | ccc a b => simp only [State.modFrag, State.fragsOf, State.ccc?_modWarp]
  | ccc t k =>
    cases u with
    | warp a b => simp only [State.modFrag, State.fragsOf, State.warp?_modCcc]
    | ccc a b =>
      simp only [State.modFrag, State.fragsOf, State.ccc?_modCcc]
      split
      · cases s.ccc? a b <;> simp [hg]
      · rfl

/-! ### What an acquire or a fence holds back hangs on (06_consistency R137, R140) -/

theorem State.fenceHold_congr {s s' : State} {u : UnitId} (h : (s'.fragsOf u).map (·.wait) = (s.fragsOf u).map (·.wait)) (n : Nat) :
    s'.fenceHold u n = s.fenceHold u n := by
  have he (l : List Frag) : (l.any fun f => match f.wait with
      | some (.fence m) => decide (m ≤ n)
      | _ => false) = (l.map (·.wait)).any fun k => match k with
      | some (.fence m) => decide (m ≤ n)
      | _ => false := by rw [List.any_map]; rfl
  unfold State.fenceHold
  exact (he _).trans (h ▸ (he _).symm)

theorem State.acqPending_congr {s s' : State} {u : UnitId} (hw : s'.writes = s.writes) (hr : s'.regs? u = s.regs? u)
    (hf : (s'.fragsOf u).map (·.wait) = (s.fragsOf u).map (·.wait)) : s'.acqPending u = s.acqPending u := by
  have ha (o : Op) : s'.acqOpen u o 0 = s.acqOpen u o 0 := by simp only [State.acqOpen, State.ownOpen, hw]
  simp only [State.acqPending, hr, ha, State.fenceHold_congr hf]

/-! ### Rendezvous objects (06_consistency R149, R150) -/

/-- A team but for its rendezvous objects. -/
def Team.noRv (x : Team) : Team := { x with rv := [] }

theorem keeps_setRv (s : State) (t pt : Nat) (o : Rv) : Keeps Team.noRv s (s.setRv t pt o) := keeps_modTeam s _

section
variable {keep : Team → Team} {s s' : State} (h : Keeps keep s s')
include h

theorem Keeps.rvTeam (hf : ∀ x, (keep x).set = x.set) (t pt : Nat) : s'.rvTeam t pt = s.rvTeam t pt := by
  have hset : s'.setOf t = s.setOf t := by rw [State.setOf, h.map hf, State.setOf]
  have hsets : s'.sets = s.sets := by have e := congrArg State.sets h.1; exact e
  simp only [State.rvTeam, State.set?, hset, hsets]

theorem Keeps.writes : s'.writes = s.writes := by have e := congrArg State.writes h.1; exact e

theorem Keeps.fragsOf (hw : ∀ x, (keep x).warps = x.warps) (hc : ∀ x, (keep x).cccs = x.cccs) (u : UnitId) :
    s'.fragsOf u = s.fragsOf u := by
  cases u with
  | warp t k => simp only [State.fragsOf, h.warp? hw]
  | ccc t k => simp only [State.fragsOf, h.ccc? hc]

theorem Keeps.frag? (hw : ∀ x, (keep x).warps = x.warps) (hc : ∀ x, (keep x).cccs = x.cccs) (c : Cur) : s'.frag? c = s.frag? c := by
  obtain ⟨u, sel⟩ := c
  cases u with
  | warp t k => simp only [State.frag?, h.warp? hw]
  | ccc t k => simp only [State.frag?, h.ccc? hc]

theorem Keeps.rv (hf : ∀ x, (keep x).set = x.set) (hr : ∀ x, (keep x).rv = x.rv) (t pt : Nat) : s'.rv t pt = s.rv t pt := by
  rw [State.rv, State.rv, h.rvTeam hf, h.bind fun x => by rw [hr]]

end

/-- An object that is set is there, so that a change of it is read back. -/
theorem State.rv_setRv {s : State} {t pt : Nat} (h : (s.rv t pt).init = true) (o : Rv) : (s.setRv t pt o).rv t pt = o := by
  rw [State.rv, (keeps_setRv s t pt o).rvTeam fun _ => rfl]
  unfold State.setRv
  unfold State.rv at h
  rw [State.team?_modTeam, if_pos rfl]
  cases hq : s.team? (s.rvTeam t pt) with
  | none => simp [hq] at h
  | some x =>
    cases hx : x.rv[pt]? with
    | none => simp [hq, hx] at h
    | some r =>
      have hlt := (List.getElem?_eq_some_iff.1 hx).1
      simp [lset, hlt]

/-- An object and a fragment are changed in either order. -/
theorem State.modFrag_setRv (s : State) (c : Cur) (g : Frag → Frag) (t pt : Nat) (o : Rv) :
    (s.setRv t pt o).modFrag c g = (s.modFrag c g).setRv t pt o := by
  unfold State.setRv
  rw [(keeps_modFrag s c g).rvTeam fun _ => rfl]
  unfold State.modFrag
  split
  · exact State.modTeam_comm _ _ _ fun _ => rfl
  · exact State.modTeam_comm _ _ _ fun _ => rfl

/-! ### Targets (06_consistency R151) -/

theorem State.target_eq {s : State} {c : Ctx} {f : Frag} (hf : s.frag? c.cur = some f) (pt : Nat) : s.target c pt = f.tg.getD pt 1 := by
  simp [State.target, hf]

/-- The phase that an arrival joins is not complete by then. -/
theorem rvPassed_arrived (gen : Nat) : rvPassed gen ((gen + 1) % 16) = false := by
  simp only [rvPassed, decide_eq_false_iff_not]
  omega

/-- A phase whose last arrival has come is complete. -/
theorem rvPassed_same (gen : Nat) : rvPassed (gen % 16) (gen % 16) = true := by
  simp only [rvPassed, decide_eq_true_eq]
  omega

/-! ### Arrivals (06_consistency R154) -/

/-- An object after an arrival of count `n`, at most PEND: its last one completes the phase and begins the next. -/
def Rv.arrived (o : Rv) (n : Nat) : Rv :=
  if n = o.pend then { o with gen := (o.gen + 1) % 16, pend := o.exp } else { o with pend := o.pend - n }

theorem Rv.arrive_of_lt {o : Rv} {n : Nat} (h : o.pend < n) : o.arrive n = none := if_pos h

theorem Rv.arrive_of_le {o : Rv} {n : Nat} (h : n ≤ o.pend) : o.arrive n = some (o.arrived n) := by
  simp only [Rv.arrive, Rv.arrived, if_neg (Nat.not_lt.2 h), eq_comm (a := n)]
  split <;> rfl

@[simp] theorem Rv.init_arrived (o : Rv) (n : Nat) : (o.arrived n).init = o.init := by
  unfold Rv.arrived
  split <;> rfl

/-- The object that a form names. -/
abbrev State.rvAt (s : State) (w : RvW) (c : Ctx) : Rv := s.rv (teamOf c.cur.unit) w.pt.toNat

/-- The count of an arrival: the fragment's lanes, or one. -/
def arrivalCount (w : RvW) (c : Ctx) : Nat := if w.ln then popcount c.lm else 1

/-- A state after an arrival at a point, in which `g` has changed the arriving fragment besides. -/
def State.arrived (s : State) (w : RvW) (c : Ctx) (g : Frag → Frag) : State :=
  let o := s.rvAt w c
  (s.modFrag c.cur fun h => g { h with tg := lset h.tg w.pt.toNat ((o.gen + 1) % 16) }).setRv (teamOf c.cur.unit) w.pt.toNat
    (o.arrived (arrivalCount w c))

section
variable {w : RvW} {s : State} {c : Ctx}

theorem arrival_of_unset (h : (s.rvAt w c).init = false) (k : State → Res) :
    arrival w c s k = .trap (plainTrap cRANGE) s := if_pos h

variable (h : (s.rvAt w c).init = true)
include h

theorem arrival_of_unreleased (hq : s.quiet c.cur.unit (s.seqOf c.cur.unit) = false) (k : State → Res) :
    arrival w c s k = .wait .arrival s := by
  simp [arrival, h, hq]

variable (hq : s.quiet c.cur.unit (s.seqOf c.cur.unit) = true)
include hq

theorem arrival_of_excess (hn : (s.rvAt w c).pend < arrivalCount w c) (k : State → Res) :
    arrival w c s k = .trap (plainTrap cRANGE) s := by
  unfold arrivalCount at hn
  simp [arrival, h, hq, Rv.arrive_of_lt hn]

theorem arrival_of_le (hn : arrivalCount w c ≤ (s.rvAt w c).pend) (k : State → Res) :
    arrival w c s k = k (s.arrived w c id) := by
  unfold arrivalCount at hn
  simp [arrival, h, hq, Rv.arrive_of_le hn, State.arrived, State.setTarget, arrivalCount]

end

/-! ### What an arrival leaves (06_consistency R154, R155) -/

section
variable (s : State) (w : RvW) (c : Ctx) (g : Frag → Frag)

theorem State.modFrag_arrived (h : Frag → Frag) : (s.arrived w c g).modFrag c.cur h = s.arrived w c fun f => h (g f) := by
  unfold State.arrived
  rw [State.modFrag_setRv, State.modFrag_modFrag]

theorem State.rv_arrived (h : (s.rvAt w c).init = true) :
    (s.arrived w c g).rvAt w c = (s.rvAt w c).arrived (arrivalCount w c) := by
  refine State.rv_setRv ?_ _
  rwa [(keeps_modFrag s c.cur _).rv (fun _ => rfl) fun _ => rfl]

theorem State.frag?_arrived {f : Frag} (hf : s.frag? c.cur = some f) : (s.arrived w c g).frag? c.cur =
    some (g { f with tg := lset f.tg w.pt.toNat (((s.rvAt w c).gen + 1) % 16) }) := by
  unfold State.arrived
  rw [(keeps_setRv ..).frag? (fun _ => rfl) (fun _ => rfl), frag?_modFrag, hf]
  rfl

theorem State.acqPending_arrived (hg : ∀ f, (g f).wait = f.wait) (u : UnitId) : (s.arrived w c g).acqPending u = s.acqPending u := by
  have hrv : Keeps Team.noRv (s.modFrag c.cur fun h => g { h with tg := lset h.tg w.pt.toNat (((s.rvAt w c).gen + 1) % 16) })
      (s.arrived w c g) := keeps_setRv ..
  refine State.acqPending_congr (hrv.writes.trans (keeps_modFrag ..).writes) ?_ ?_
  · exact (hrv.regs? (fun _ => rfl) (fun _ => rfl) u).trans (State.regs?_modFrag ..)
  · refine (congrArg _ (hrv.fragsOf (fun _ => rfl) (fun _ => rfl) u)).trans (State.wait_fragsOf_modFrag s c.cur (fun f => ?_) u)
    exact hg _

end

/-! ### Waits (06_consistency R155) -/

section
variable {w : RvW} {s : State} {c : Ctx}

theorem rvWaitRun_of_unset (h : (s.rvAt w c).init = false) : rvWaitRun w c s = .trap (plainTrap cRANGE) s :=
  if_pos h

variable (h : (s.rvAt w c).init = true)
include h

theorem rvWaitRun_of_open (hp : rvPassed (s.rvAt w c).gen (s.target c w.pt.toNat) = false) :
    rvWaitRun w c s = .wait (.rendezvous w.pt.toNat) s := by
  simp [rvWaitRun, h, hp]

variable (hp : rvPassed (s.rvAt w c).gen (s.target c w.pt.toNat) = true)
include hp

theorem rvWaitRun_of_pending (ha : s.acqPending c.cur.unit = true) : rvWaitRun w c s = .wait .stall s := by
  simp [rvWaitRun, h, hp, ha]

theorem rvWaitRun_of_passed (ha : s.acqPending c.cur.unit = false) :
    rvWaitRun w c s = .retire (s.setTarget c w.pt.toNat ((s.target c w.pt.toNat + 1) % 16)) := by
  simp [rvWaitRun, h, hp, ha]

end

/-! ### An arrival and then a wait (06_consistency R154, R155) -/

theorem lset_lset {α : Type} (l : List α) (n : Nat) (x y : α) : lset (lset l n x) n y = lset l n y := List.set_set ..

section
variable {w : RvW} {s : State} {c : Ctx} {f : Frag} (hf : s.frag? c.cur = some f) (hpt : w.pt.toNat < f.tg.length)
  (h : (s.rvAt w c).init = true)

/-- The fragment has arrived: it resumes at the wait. -/
def Frag.resumes (h : Frag) : Frag := { h with phase := 1 }

include hf hpt

theorem State.target_arrived : (s.arrived w c Frag.resumes).target c w.pt.toNat =
    ((s.rvAt w c).gen + 1) % 16 := by
  rw [State.target_eq (s.frag?_arrived w c _ hf)]
  simp [Frag.resumes, lset, hpt]

include h

theorem rvWaitRun_of_arrived_lt (hn : arrivalCount w c ≠ (s.rvAt w c).pend) :
    rvWaitRun w c (s.arrived w c Frag.resumes) = .wait (.rendezvous w.pt.toNat) (s.arrived w c Frag.resumes) := by
  have hrv := s.rv_arrived w c Frag.resumes h
  refine rvWaitRun_of_open (by rw [hrv, Rv.init_arrived, h]) ?_
  rw [State.target_arrived hf hpt, hrv, Rv.arrived, if_neg hn]
  exact rvPassed_arrived _

/-- The last arrival of a phase passes the wait on it. -/
theorem rvPassed_of_last (hn : arrivalCount w c = (s.rvAt w c).pend) :
    rvPassed ((s.arrived w c Frag.resumes).rvAt w c).gen ((s.arrived w c Frag.resumes).target c w.pt.toNat) = true := by
  rw [State.target_arrived hf hpt, s.rv_arrived w c Frag.resumes h, Rv.arrived, if_pos hn]
  exact rvPassed_same _

theorem rvWaitRun_of_arrived_pending (hn : arrivalCount w c = (s.rvAt w c).pend)
    (ha : s.acqPending c.cur.unit = true) : rvWaitRun w c (s.arrived w c Frag.resumes) = .wait .stall (s.arrived w c Frag.resumes) := by
  refine rvWaitRun_of_pending (by rw [s.rv_arrived w c _ h, Rv.init_arrived, h]) (rvPassed_of_last hf hpt h hn) ?_
  rwa [s.acqPending_arrived w c Frag.resumes fun _ => rfl]

theorem rvWaitRun_of_arrived_last (hn : arrivalCount w c = (s.rvAt w c).pend)
    (ha : s.acqPending c.cur.unit = false) : rvWaitRun w c (s.arrived w c Frag.resumes) = .retire (s.arrived w c fun h =>
      { h with phase := 1, tg := lset h.tg w.pt.toNat ((((s.rvAt w c).gen + 1) % 16 + 1) % 16) }) := by
  rw [rvWaitRun_of_passed (by rw [s.rv_arrived w c _ h, Rv.init_arrived, h]) (rvPassed_of_last hf hpt h hn)
    (by rwa [s.acqPending_arrived w c Frag.resumes fun _ => rfl]), State.target_arrived hf hpt, State.setTarget, State.modFrag_arrived]
  rfl

end

/-! ### The clauses of an arrival and of a wait -/

section
variable {w : RvW} {s : State} {c : Ctx} {i : Instr} {body : Ctx → State → Res} (hi : Issues s c i) (he : exec i s = issue s i body)
include hi he

/-- A form that arrives and then goes on with `k`: where the arrival is made, `done` holds. -/
theorem arrival_clause {k : State → Res} {done : Prop} (hb : body c s = arrival w c s k)
    (hd : (s.rvAt w c).init = true → body c s = k (s.arrived w c id) → done) :
    ((s.rvAt w c).init = false → Traps i s c (plainTrap cRANGE)) ∧
    ((s.rvAt w c).init = true → s.quiet c.cur.unit (s.seqOf c.cur.unit) = false → Waits i s c .arrival s) ∧
    ((s.rvAt w c).init = true → s.quiet c.cur.unit (s.seqOf c.cur.unit) = true →
      ((s.rvAt w c).pend < arrivalCount w c → Traps i s c (plainTrap cRANGE)) ∧ (arrivalCount w c ≤ (s.rvAt w c).pend → done)) :=
  ⟨fun ho => traps_of hi he (hb.trans (arrival_of_unset ho k)), fun ho hq => waits_of hi he (hb.trans (arrival_of_unreleased ho hq k)),
    fun ho hq => ⟨fun hn => traps_of hi he (hb.trans (arrival_of_excess ho hq hn k)),
      fun hn => hd ho (hb.trans (arrival_of_le ho hq hn k))⟩⟩

theorem rvWait_clause {f : Frag} (hf : s.frag? c.cur = some f) (hb : body c s = rvWaitRun w c s) :
    let pt := w.pt.toNat
    let passed : Prop := ((s.rvAt w c).gen + 16 - f.tg.getD pt 1 % 16) % 16 ≤ 7
    ((s.rvAt w c).init = false → Traps i s c (plainTrap cRANGE)) ∧
    ((s.rvAt w c).init = true → ¬passed → Waits i s c (.rendezvous pt) s) ∧
    ((s.rvAt w c).init = true → passed → s.acqPending c.cur.unit = true → Waits i s c .stall s) ∧
    ((s.rvAt w c).init = true → passed → s.acqPending c.cur.unit = false →
      Retires i s c (s.modFrag c.cur fun h => { h with tg := lset h.tg pt ((f.tg.getD pt 1 + 1) % 16) })) := by
  have ht := State.target_eq hf w.pt.toNat
  refine ⟨fun ho => traps_of hi he (hb.trans (rvWaitRun_of_unset ho)),
    fun ho hp => waits_of hi he (hb.trans (rvWaitRun_of_open ho ?_)),
    fun ho hp ha => waits_of hi he (hb.trans (rvWaitRun_of_pending ho ?_ ha)),
    fun ho hp ha => retires_of hi he (hb.trans ((rvWaitRun_of_passed ho ?_ ha).trans ?_))⟩
  · rw [ht]
    exact decide_eq_false hp
  · rw [ht]
    exact decide_eq_true hp
  · rw [ht]
    exact decide_eq_true hp
  · rw [ht]
    rfl

end

/-! ### `rv.init` (06_consistency R153) -/

section
variable {w : RvW} {s : State} {c : Ctx} (hi : Issues s c (.rvInit w))
include hi

/-- The count that an object is set to. -/
def initCount (w : RvW) (e : Env) : Nat := if w.ci then w.cnt.toNat else opScal e.a

theorem rvInit_traps (h : initCount w (s.envOf c (.rvInit w)) = 0 ∨ 4095 < initCount w (s.envOf c (.rvInit w)) ∨ (s.rvAt w c).init = true) :
    Traps (.rvInit w) s c (plainTrap cRANGE) :=
  traps_of hi (body := fun c s => rvInitRun w (s.envOf c (.rvInit w)) c s) rfl (if_pos h)

theorem rvInit_retires
    (h : ¬(initCount w (s.envOf c (.rvInit w)) = 0 ∨ 4095 < initCount w (s.envOf c (.rvInit w)) ∨ (s.rvAt w c).init = true)) :
    Retires (.rvInit w) s c (s.setRv (teamOf c.cur.unit) w.pt.toNat
      ⟨(s.rvAt w c).gen, true, initCount w (s.envOf c (.rvInit w)), initCount w (s.envOf c (.rvInit w))⟩) :=
  retires_of hi (body := fun c s => rvInitRun w (s.envOf c (.rvInit w)) c s) rfl (if_neg h)

end

/-- Settles O42: each form by the clause of its arrival and of its wait; a form that does both resumes at the wait. -/
theorem rendezvous : Obligations.Rendezvous := by
  unfold Obligations.Rendezvous
  intro w s c f hf hpt
  refine ⟨fun hi => ⟨rvInit_traps hi, rvInit_retires hi⟩, fun hi => ?arrive, fun hi => ?wait,
    fun hi => ⟨fun hp => ?resumed, fun hp => ?arrw⟩⟩
  case arrive => exact arrival_clause hi (body := rvArriveRun w) rfl rfl fun _ hb => retires_of hi rfl hb
  case wait => exact rvWait_clause hi (body := rvWaitRun w) rfl hf rfl
  case resumed => exact rvWait_clause hi (body := rvArrwRun w) rfl hf (if_pos hp)
  case arrw =>
    refine arrival_clause hi (body := rvArrwRun w) rfl (if_neg hp) fun ho hb => ?_
    have hb : rvArrwRun w c s = rvWaitRun w c (s.arrived w c Frag.resumes) := hb.trans (by rw [State.modFrag_arrived]; rfl)
    exact ⟨fun hn => waits_of hi rfl (hb.trans (rvWaitRun_of_arrived_lt hf hpt ho (Nat.ne_of_lt hn))),
      fun hn ha => waits_of hi rfl (hb.trans (rvWaitRun_of_arrived_pending hf hpt ho hn ha)),
      fun hn ha => retires_of hi rfl (hb.trans (rvWaitRun_of_arrived_last hf hpt ho hn ha))⟩

end Sys2Proof.Machine
end

section
/-!
PROOFS. Obligation O24: fences, and the stores of lanes.
-/
namespace Sys2Proof.Machine

/-! ### The caches that a fence drops (04_caches_scratchpad R86; 12_sparse_rows R283) -/

section
variable (s : State) (core : Option Nat) (cl n : Nat)

theorem State.gcache_dropCaches_eq : ((s.dropCaches core cl).cluster n).gcache = if n = cl then [] else (s.cluster n).gcache := by
  cases core <;> (simp only [State.dropCaches, State.cluster_modCluster, eq_comm (a := n)]; split <;> rfl)

theorem State.l1_dropCaches_eq : ((s.dropCaches core cl).core n).l1 = if core = some n then [] else (s.core n).l1 := by
  cases core with
  | none => rfl
  | some k =>
    have h : (s.dropCaches (some k) cl).core n = (s.modCore k fun x => { x with l1 := [] }).core n := rfl
    rw [h, State.core_modCore]
    simp only [Option.some.injEq]
    split <;> rfl

theorem State.sameMem_dropCaches : SameMem s (s.dropCaches core cl) := sameMem_of_eq (by simp) (by simp) (by simp) (by simp)

/-- Of the writes that a die has applied, none is applied or taken back with a drop of caches. -/
theorem State.predsAt_dropCaches (d : Nat) : (s.dropCaches core cl).predsAt d = s.predsAt d := by
  simp [State.predsAt, State.writes]

theorem State.dieOf_dropCaches (u : UnitId) : (s.dropCaches core cl).dieOf u = s.dieOf u := by
  simp [State.dieOf, State.clusterOf, State.team?]

end

/-! ### The two parts of a fence (06_consistency R140) -/

section
variable {sc : Scope} {c : Ctx} {s : State}

theorem fenceRun_of_open (hp : c.phase = 0) (hq : s.quiet c.cur.unit (s.seqOf c.cur.unit) = false) :
    fenceRun sc c s = .wait .stall s := by
  simp [fenceRun, hp, hq]

section
variable (hp : c.phase = 0) (hq : s.quiet c.cur.unit (s.seqOf c.cur.unit) = true)
include hp hq

/-- Below die scope a fence waits for the unit's accesses alone. -/
theorem fenceRun_of_narrow (hs : scopeNum sc < 2) : fenceRun sc c s = .retire s := by
  simp [fenceRun, hp, hq, Nat.not_le.2 hs, Nat.lt_succ_of_lt hs]

theorem fenceRun_of_die (hs : scopeNum sc = 2) : fenceRun sc c s = .retire (s.dropCaches (s.coreOf c.cur.unit) (s.clusterOf c.cur.unit)) := by
  simp [fenceRun, hp, hq, hs]

theorem fenceRun_of_wide (hs : 3 ≤ scopeNum sc) : fenceRun sc c s = if s.predsAt (s.dieOf c.cur.unit) = [] then
      .retire (s.dropCaches (s.coreOf c.cur.unit) (s.clusterOf c.cur.unit))
    else .wait (.fence (s.seqOf c.cur.unit)) ((s.dropCaches (s.coreOf c.cur.unit) (s.clusterOf c.cur.unit)).modFrag c.cur
      fun f => { f with phase := 1, snap := s.predsAt (s.dieOf c.cur.unit) }) := by
  simp [fenceRun, hp, hq, Nat.not_lt.2 hs, Nat.le_of_lt hs, State.dieOf_dropCaches, State.predsAt_dropCaches]

end

variable {f : Frag} (hf : s.frag? c.cur = some f) (hp : c.phase ≠ 0)
include hf hp

theorem fenceRun_of_spreading (ho : f.snap.any s.onWay = true) : fenceRun sc c s = .wait (f.wait.getD .stall) s := by
  simp [fenceRun, hp, hf, ho]

theorem fenceRun_of_spread (ho : f.snap.any s.onWay = false) :
    fenceRun sc c s = .retire (s.dropCaches (s.coreOf c.cur.unit) (s.clusterOf c.cur.unit)) := by
  simp [fenceRun, hp, hf, ho]

end

/-- The clause of a fence. -/
theorem fence_clause {sc : Scope} {s : State} {c : Ctx} {f : Frag} (h : Issues s c (.fence sc)) (hf : s.frag? c.cur = some f) :
    let i : Instr := .fence sc
    let u := c.cur.unit
    let wide : Prop := sc = .die ∨ sc = .pkg ∨ sc = .sys
    let s1 := s.dropCaches (s.coreOf u) (s.clusterOf u)
    let seen := s.predsAt (s.dieOf u)
    (c.phase = 0 → s.quiet u (s.seqOf u) = false → Waits i s c .stall s) ∧
    (c.phase = 0 → s.quiet u (s.seqOf u) = true → (¬wide → Retires i s c s) ∧ (sc = .die → Retires i s c s1) ∧
      (sc = .pkg ∨ sc = .sys → (seen = [] → Retires i s c s1) ∧
        (seen ≠ [] → Waits i s c (.fence (s.seqOf u)) (s1.modFrag c.cur fun f => { f with phase := 1, snap := seen })))) ∧
    (c.phase ≠ 0 → (f.snap.any s.onWay = true → Waits i s c (f.wait.getD .stall) s) ∧ (f.snap.any s.onWay = false → Retires i s c s1)) := by
  have he : exec (.fence sc) s = issue s (.fence sc) (fenceRun sc) := rfl
  refine ⟨fun hp hq => waits_of h he (fenceRun_of_open hp hq), fun hp hq => ⟨fun hn => ?narrow, fun hd => ?die, fun hw => ?wide⟩,
    fun hp => ⟨fun ho => waits_of h he (fenceRun_of_spreading hf hp ho), fun ho => retires_of h he (fenceRun_of_spread hf hp ho)⟩⟩
  case narrow =>
    have hs : scopeNum sc < 2 := by cases sc <;> simp_all [scopeNum]
    exact retires_of h he (fenceRun_of_narrow hp hq hs)
  case die => exact retires_of h he (fenceRun_of_die hp hq (hd ▸ rfl))
  case wide =>
    have hs : 3 ≤ scopeNum sc := by
      rcases hw with rfl | rfl
      · exact Nat.le_refl _
      · exact Nat.le_succ _
    have hr := fenceRun_of_wide hp hq hs
    exact ⟨fun hn => retires_of h he (hr.trans (if_pos hn)), fun hn => waits_of h he (hr.trans (if_neg hn))⟩

/-- A fence of the unit in its second part holds back the accesses that follow it. -/
theorem State.fenceHold_of_mem {s : State} {u : UnitId} {f : Frag} {n m : Nat} (hf : f ∈ s.fragsOf u) (hw : f.wait = some (.fence n))
    (h : n ≤ m) : s.fenceHold u m = true :=
  List.any_eq_true.2 ⟨f, hf, by simp [hw, h]⟩

theorem State.mayPerform_of_fenceHold {s : State} {u : UnitId} {o : Op} (h : s.fenceHold u o.seq = true) (a : Acc) :
    s.mayPerform u o a = false := by
  simp [State.mayPerform, h]

theorem State.mayLeave_of_fenceHold {s : State} {u : UnitId} {w : Write} (hs : w.src = some u) (h : s.fenceHold u w.seq = true) :
    s.mayLeave w = false := by
  simp [State.mayLeave, hs, h]

/-! ### The writes of a store (04_caches_scratchpad R102, R104) -/

/-- What a write is apart from its name, its owner and page, and how far it has come. -/
def Write.body (w : Write) : Option UnitId × Nat × Nat × Target × Nat × List Byte × Byte × Option Gate :=
  (w.src, w.seq, w.die, w.tgt, w.addr, w.bytes, w.key, w.gate)

theorem State.dieOf_modRegs (s : State) (u v : UnitId) (f : Regs → Regs) : (s.modRegs u f).dieOf v = s.dieOf v := by
  have h := (onlyUnit_modRegs s u f).2.2.2.2 (teamOf v)
  have hc (o : Option Team) : o.map (·.cluster) = (o.map Team.bare).map (·.cluster) := by cases o <;> rfl
  simp only [State.dieOf, State.clusterOf]
  rw [hc, h, ← hc]

/-- The writes that a store makes of its accesses, on their way behind the others. -/
theorem State.store_eq (s : State) (u : UnitId) (n : Nat) (e : Env) {accs : List Acc} (h : accs ≠ []) (rel : Option Scope) :
    ∃ ws : List Write, s.store u n e accs rel =
        { s.modRegs u fun r => { r with seq := r.seq + 1 } with pend := s.pend ++ ws, nextId := s.nextId + ws.length } ∧
      ws.map Write.body = (lastLanes accs).map fun a =>
        (some u, ((s.regs? u).map (·.seq)).getD 0, s.dieOf u, a.tgt, a.addr, toBytes n (opLane e.d a.lane), a.key,
          rel.map (s.mkGate (s.dieOf u))) := by
  let s1 := s.modRegs u fun r => { r with seq := r.seq + 1 }
  obtain ⟨new, hnew, hadd⟩ := s1.addWrites_eq ((lastLanes accs).map fun a =>
    s1.mkWrite u (((s.regs? u).map (·.seq)).getD 0) a (storeBytes e n a.lane) (rel.map (s.mkGate (s.dieOf u))))
  have hlen : new.length = (lastLanes accs).length := by simpa using congrArg List.length hnew
  have hbody (l : List Write) : l.map Write.body = (l.map Write.unsent).map Write.body := by
    rw [List.map_map]
    rfl
  refine ⟨new, ?_, ?_⟩
  · rw [State.store, if_neg (by simpa using h)]
    refine hadd.trans ?_
    rw [List.length_map, ← hlen]
    cases u <;> rfl
  · rw [hbody, hnew, ← hbody, List.map_map]
    refine List.map_congr_left fun a _ => ?_
    simp only [Function.comp_apply, Write.body, State.mkWrite, blankWrite, storeBytes, s1, State.dieOf_modRegs]

/-! ### A store over lanes (03_memory_tiers R73, R74; 04_caches_scratchpad R101) -/

section
variable {e : Env} {c : Ctx} {s : State} {chk : Nat → Except Nat Acc} {va : Nat → DWord} {n : Nat} {m : Lanes} {rel : Option Scope}

theorem storeRun_of_bad (h : badLanes m chk va ≠ []) : storeRun e c s false chk va n m rel = .trap (laneTrap (badLanes m chk va) m) s := by
  simp [storeRun, checkLanes_of_bad h]

theorem storeRun_of_ok {accs : List Acc} (h : (lanesOf m).map chk = accs.map Except.ok) :
    storeRun e c s false chk va n m rel = .retire (s.store c.cur.unit n e accs rel) := by
  simp [storeRun, checkLanes_of_ok h]

end

/-- A form that runs the template of the stores stalls, traps or makes its writes. -/
theorem WarpIssues.storeForm {s : State} {c : Ctx} {i : Instr} {t k : Nat} {x : Warp} (h : WarpIssues s c i t k x)
    {body : Env → Ctx → State → Res} (he : exec i s = issueOps s i body) {opened : Bool} {busy : Prop} (hopen : opened = true ↔ busy)
    {n : Nat} {m : Lanes} {chk : Nat → Except Nat Acc} {va : Nat → DWord} {rel : Option Scope}
    (hb : body (s.envOf c i) c s = storeRun (s.envOf c i) c s opened chk va n m rel) :
    StoreForm i s c (s.envOf c i) busy n m chk va rel := by
  obtain ⟨hi, hu, hx⟩ := h
  rw [StoreForm, ← hopen]
  refine ⟨fun ho => waits_of hi he (hb.trans (if_pos ho)), fun ho hbad => ?_, fun accs ho hok => ?_⟩
  · rw [Bool.not_eq_true] at ho
    subst ho
    exact traps_of hi he (hb.trans (storeRun_of_bad hbad))
  · rw [Bool.not_eq_true] at ho
    subst ho
    have hret := retires_of hi he (hb.trans (storeRun_of_ok hok))
    refine ⟨?_, fun hne => ?_⟩
    · rintro rfl
      exact hret
    · obtain ⟨ws, hws, hbody⟩ := s.store_eq c.cur.unit n (s.envOf c i) hne rel
      have hmem : SameMem (s.modRegs c.cur.unit fun r => { r with seq := r.seq + 1 }) (s.store c.cur.unit n (s.envOf c i) accs rel) := by
        rw [hws]
        exact sameMem_of_eq rfl rfl rfl rfl
      exact ⟨_, ws, _, hret, (onlyUnit_modRegs ..).sameMem.trans hmem, hws, by simp [State.regs?, hu, hx], hbody⟩

/-- Settles O24: the fence by its two parts, what its second part holds back, and the stores by their template. -/
theorem storesAndFences : Obligations.StoresAndFences := by
  unfold Obligations.StoresAndFences
  refine ⟨fun sc s c f h hf => ?fence, fun s u f n hf hw => ⟨fun o a hn => ?performs, fun w hs hn => ?leaves⟩,
    fun w v s c t k x => ⟨fun h => ?stG, fun h => ?stSp⟩⟩
  case fence =>
    obtain ⟨hopen, hfirst, hsecond⟩ := fence_clause h hf
    exact ⟨hopen, hfirst, hsecond, fun n => State.gcache_dropCaches_eq .., fun n => State.l1_dropCaches_eq ..,
      State.sameMem_dropCaches ..⟩
  case performs => exact State.mayPerform_of_fenceHold (State.fenceHold_of_mem hf hw hn) a
  case leaves => exact State.mayLeave_of_fenceHold hs (State.fenceHold_of_mem hf hw hn)
  case stG => exact h.storeForm (body := stGRun w) rfl Iff.rfl rfl
  case stSp => exact h.storeForm (body := stSpRun v) rfl Bool.false_eq_true.to_iff (by rw [stSpRun, h.teamOf_unit])

end Sys2Proof.Machine
end

section
/-!
PROOFS. The bytes that a die sees: what a write does to them, the pieces of a write, and the move of writes into memory
(03_memory_tiers R71; 06_consistency R133 to R135).
-/
namespace Sys2Proof.Machine

/-! ### One write and one byte (03_memory_tiers R71) -/

section
variable (x : ByteSt) (w : Write) {b : Nat}

/-- A byte that a write gives, or whose unit it gives another key, stands under the write's key. -/
theorem ByteSt.key_apply (b : Nat) : (x.apply w b).uk.map (·.key) = some w.key := by
  unfold ByteSt.apply
  dsimp only
  split
  · rename_i h
    split <;> exact h
  · rfl

theorem ByteSt.val_apply_of_mem (h : w.addr ≤ b ∧ b < w.addr + w.bytes.length) : (x.apply w b).val = w.bytes[b - w.addr]? := by
  have hh : (decide (w.addr ≤ b) && decide (b < w.addr + w.bytes.length)) = true := by simpa using h
  unfold ByteSt.apply
  dsimp only
  rw [hh]
  split <;> rfl

/-- A write leaves the other bytes of a unit under its key. -/
theorem ByteSt.apply_of_not_mem (h : ¬(w.addr ≤ b ∧ b < w.addr + w.bytes.length)) (hk : x.uk.map (·.key) = some w.key) :
    x.apply w b = x := by
  have hh : (decide (w.addr ≤ b) && decide (b < w.addr + w.bytes.length)) = false := by simpa using h
  unfold ByteSt.apply
  dsimp only
  rw [hh, if_pos hk]
  rfl

theorem ByteSt.read_of_val {x : ByteSt} {k v : Byte} (hk : x.uk.map (·.key) = some k) (hv : x.val = some v) (b : Nat) : x.read k b = v := by
  obtain ⟨u, hu, rfl⟩ := Option.map_eq_some_iff.1 hk
  simp [ByteSt.read, hu, hv]

end

/-! ### A list of writes and one byte -/

/-- The effect of writes, in order, on one byte: of those that touch its unit. -/
def ByteSt.applyAll (x : ByteSt) (l : List Write) (b : Nat) : ByteSt := (l.filter (·.unitOf b)).foldl (fun y w => y.apply w b) x

section
variable (x : ByteSt) {b : Nat}

@[simp] theorem ByteSt.applyAll_nil (b : Nat) : x.applyAll [] b = x := rfl

theorem ByteSt.applyAll_append (l m : List Write) (b : Nat) : x.applyAll (l ++ m) b = (x.applyAll l b).applyAll m b := by
  simp only [ByteSt.applyAll, List.filter_append, List.foldl_append]

theorem ByteSt.applyAll_cons_of_unit {w : Write} (h : w.addr / 16 = b / 16) (l : List Write) :
    x.applyAll (w :: l) b = (x.apply w b).applyAll l b := by
  simp [ByteSt.applyAll, Write.unitOf, h]

theorem ByteSt.applyAll_cons_of_other {w : Write} (h : w.addr / 16 ≠ b / 16) (l : List Write) : x.applyAll (w :: l) b = x.applyAll l b := by
  simp [ByteSt.applyAll, Write.unitOf, h]

theorem ByteSt.applyAll_of_other {l : List Write} (h : ∀ w ∈ l, w.addr / 16 ≠ b / 16) : x.applyAll l b = x := by
  induction l with
  | nil => rfl
  | cons w l ih =>
    obtain ⟨hw, hl⟩ := List.forall_mem_cons.1 h
    rw [x.applyAll_cons_of_other hw, ih hl]

end

/-! ### The pieces of a run of bytes (06_consistency R132) -/

/-- No piece begins before the run, so that those after the first are in later units. -/
theorem le_of_mem_cutAt {g fuel a : Nat} {bs : List Byte} {p : Nat × List Byte} (h : p ∈ cutAt g fuel a bs) : a ≤ p.1 := by
  induction fuel generalizing a bs with
  | zero => simp [cutAt] at h
  | succ fuel ih =>
    rw [cutAt] at h
    split at h
    · simp at h
    · rcases List.mem_cons.1 h with rfl | h
      · exact Nat.le_refl _
      · exact (Nat.le_add_right ..).trans (ih h)

/-- Writes under one key that give a run of bytes, cut at the units: each byte of the run takes its value, another byte keeps what it
has where its unit stands under the key or is no unit of the run. -/
theorem ByteSt.applyAll_cutAt {k : Byte} {b : Nat} (fuel : Nat) {a : Nat} {bs : List Byte} {ws : List Write} (hlen : bs.length ≤ fuel)
    (hws : ws.map (fun w => (w.addr, w.bytes)) = cutAt 16 fuel a bs) (hk : ∀ w ∈ ws, w.key = k) (x : ByteSt) :
    (a ≤ b ∧ b < a + bs.length → (x.applyAll ws b).uk.map (·.key) = some k ∧ (x.applyAll ws b).val = bs[b - a]?) ∧
    (¬(a ≤ b ∧ b < a + bs.length) → x.uk.map (·.key) = some k ∨ (∀ n, n < bs.length → b / 16 ≠ (a + n) / 16) → x.applyAll ws b = x) := by
  induction fuel generalizing a bs ws with
  | zero =>
    obtain rfl : bs = [] := List.length_eq_zero_iff.1 (Nat.le_zero.1 hlen)
    obtain rfl : ws = [] := List.map_eq_nil_iff.1 hws
    exact ⟨fun h => absurd h (by simp), fun _ _ => rfl⟩
  | succ fuel ih =>
    rw [cutAt] at hws
    split at hws
    · rename_i he
      obtain rfl : bs = [] := List.isEmpty_iff.1 he
      obtain rfl : ws = [] := List.map_eq_nil_iff.1 hws
      exact ⟨fun h => absurd h (by simp), fun _ _ => rfl⟩
    · rename_i he
      have hpos : 0 < bs.length := List.length_pos_iff.2 (by simpa using he)
      obtain ⟨w, rest, rfl, hw, hrest⟩ := List.map_eq_cons_iff.1 hws
      obtain ⟨rfl, hb⟩ := Prod.mk.inj hw
      obtain ⟨hkw, hkr⟩ := List.forall_mem_cons.1 hk
      have hwlen : w.bytes.length = min (16 - w.addr % 16) bs.length := by rw [hb, List.length_take]
      by_cases hu : w.addr / 16 = b / 16
      · have hlater : ∀ v ∈ rest, v.addr / 16 ≠ b / 16 := fun v hv => by
          have hle := le_of_mem_cutAt (hrest ▸ List.mem_map_of_mem hv : (v.addr, v.bytes) ∈ _)
          dsimp only at hle
          omega
        rw [x.applyAll_cons_of_unit hu, ByteSt.applyAll_of_other _ hlater]
        refine ⟨fun h => ⟨hkw ▸ x.key_apply w b, ?_⟩, fun h hor => ?_⟩
        · rw [x.val_apply_of_mem w (by omega), hb, List.getElem?_take_of_lt (by omega)]
        · refine x.apply_of_not_mem w (by omega) (hkw ▸ hor.resolve_right fun hn => ?_)
          exact hn 0 hpos hu.symm
      · rw [x.applyAll_cons_of_other hu]
        obtain ⟨ihin, ihout⟩ := ih (by simp; omega) hrest hkr
        simp only [List.length_drop] at ihin ihout
        refine ⟨fun h => ?_, fun h hor => ihout (by omega) (hor.imp_right fun hn n hlt => ?_)⟩
        · obtain ⟨hkey, hval⟩ := ihin (by omega)
          refine ⟨hkey, hval.trans ?_⟩
          rw [List.getElem?_drop]
          congr 1
          omega
        · have hat := hn (16 - w.addr % 16 + n) (by omega)
          rwa [← Nat.add_assoc] at hat

/-! ### A byte as a die sees it (06_consistency R133) -/

/-- What a die sees of a byte: memory, and the writes in flight that it has applied. -/
def State.seenByte (s : State) (d b : Nat) : ByteSt := (s.baseByte b).applyAll (s.seenAt d) b

theorem State.dieByte_eq (s : State) (d : Nat) (k : Byte) (b : Nat) : s.dieByte d k b = (s.seenByte d b).read k b := rfl

theorem State.unitKey_eq (s : State) (d b : Nat) : s.unitKey d b = (s.seenByte d b).uk.map (·.key) := rfl

/-- A write in flight that a die has applied. -/
def Write.seenBy (w : Write) (d : Nat) : Bool := w.tgt == .glob && !w.repl && w.dies.contains d

theorem State.seenByte_congr {s t : State} (h : t.memPart = s.memPart) (d b : Nat) : t.seenByte d b = s.seenByte d b := by
  have hm : t.mem = s.mem := congrArg MemPart.mem h
  have hk : t.keys = s.keys := congrArg MemPart.keys h
  have hf : t.flight = s.flight := congrArg MemPart.flight h
  simp only [State.seenByte, State.seenAt, State.baseByte, hm, hk, hf]

theorem State.dieByte_congr {s t : State} (h : t.memPart = s.memPart) (d : Nat) (k : Byte) (b : Nat) : t.dieByte d k b = s.dieByte d k b := by
  rw [State.dieByte_eq, State.dieByte_eq, State.seenByte_congr h]

/-- Writes that come after the others in flight. -/
theorem State.seenByte_of_flight_append {s t : State} {ws : List Write} (hm : t.mem = s.mem) (hk : t.keys = s.keys)
    (hf : t.flight = s.flight ++ ws) (d b : Nat) : t.seenByte d b = (s.seenByte d b).applyAll (ws.filter (·.seenBy d)) b := by
  simp only [State.seenByte, State.seenAt, hf, List.filter_append, ByteSt.applyAll_append, State.baseByte, hm, hk]
  rfl

/-! ### The move of writes into memory (06_consistency R133, R134) -/

/-- The writes in flight have names of their own, and go to global memory, to no replicated page. -/
def State.FlightWf (s : State) : Prop := (s.flight.map (·.id)).Nodup ∧ ∀ w ∈ s.flight, w.tgt = .glob ∧ w.repl = false

/-- A write goes into memory as far as its unit, whatever its bytes beyond that. -/
theorem State.baseByte_commit_unit (s : State) (w : Write) (b : Nat) :
    (s.commit w w.addr).baseByte b = if b / 16 = w.addr / 16 then (s.baseByte b).apply w b else s.baseByte b := by
  have hcut := s.baseByte_commit { w with bytes := w.bytes.take (16 - w.addr % 16) } w.addr b (by
    dsimp only
    rw [List.length_take]
    omega) rfl
  have hcommit : s.commit { w with bytes := w.bytes.take (16 - w.addr % 16) } w.addr = s.commit w w.addr := by
    simp only [State.commit, List.take_take, Nat.min_self, Write.rekey]
  rw [hcommit] at hcut
  rw [hcut]
  refine if_ctx_congr Iff.rfl (fun hu => ?_) fun _ => rfl
  have hhit : (decide (w.addr ≤ b) && decide (b < w.addr + (w.bytes.take (16 - w.addr % 16)).length)) =
      (decide (w.addr ≤ b) && decide (b < w.addr + w.bytes.length)) := by
    rw [List.length_take, Bool.eq_iff_iff]
    simp only [Bool.and_eq_true, decide_eq_true_eq]
    omega
  have hbyte : (w.bytes.take (16 - w.addr % 16))[b - w.addr]? = w.bytes[b - w.addr]? := List.getElem?_take_of_lt (by omega)
  simp only [ByteSt.apply, hhit, hbyte, Write.rekey]

/-- The state after a write that is applied everywhere has gone into memory. -/
def State.retireWrite (s : State) (w : Write) : State := { s.commit w w.addr with flight := s.flight.filter (·.id != w.id) }

/-- A write among others with names of their own: those before it, and all but it. -/
theorem split_at_id {l : List Write} (hnd : (l.map (·.id)).Nodup) {w : Write} (hw : w ∈ l) : ∃ before after, l = before ++ w :: after ∧
    l.takeWhile (·.id != w.id) = before ∧ l.filter (·.id != w.id) = before ++ after := by
  obtain ⟨before, after, rfl⟩ := List.append_of_mem hw
  rw [List.map_append, List.map_cons, List.nodup_middle, List.nodup_cons, ← List.map_append] at hnd
  have hne (e : Write) (he : e ∈ before ++ after) : (e.id != w.id) = true :=
    bne_iff_ne.2 fun hid => hnd.1 (List.mem_map.2 ⟨e, he, hid⟩)
  obtain ⟨hb, ha⟩ := List.forall_mem_append.1 hne
  refine ⟨before, after, rfl, ?_, ?_⟩
  · rw [List.takeWhile_append_of_pos hb]
    simp
  · rw [List.filter_append, List.filter_cons_of_neg (by simp), List.filter_eq_self.2 hb, List.filter_eq_self.2 ha]

theorem State.FlightWf.seenBy {s : State} (h : s.FlightWf) {w : Write} (hw : w ∈ s.flight) (d : Nat) : w.seenBy d = w.dies.contains d := by
  obtain ⟨ht, hr⟩ := h.2 w hw
  simp [Write.seenBy, ht, hr]

/-- A write that every die has applied, the first in flight of its unit, goes into memory, and no die sees a change. -/
theorem State.seenByte_retireWrite {s : State} (h : s.FlightWf) {w : Write} (hw : w ∈ s.flight) (hall : allDies w.dies = true)
    (hfirst : (s.flight.takeWhile (·.id != w.id)).all (fun e => e.addr / 16 != w.addr / 16) = true) {d : Nat} (hd : d < 8) (b : Nat) :
    (s.retireWrite w).seenByte d b = s.seenByte d b := by
  obtain ⟨before, after, hsplit, hbefore, hrest⟩ := split_at_id h.1 hw
  have hseen : w.seenBy d = true := (h.seenBy hw d).trans (List.all_eq_true.1 hall d (List.mem_range.2 hd))
  have hbase : (s.retireWrite w).baseByte b = if b / 16 = w.addr / 16 then (s.baseByte b).apply w b else s.baseByte b :=
    s.baseByte_commit_unit w b
  have hl : (s.retireWrite w).seenAt d = before.filter (·.seenBy d) ++ after.filter (·.seenBy d) := by
    rw [← List.filter_append, ← hrest]
    rfl
  have hr : s.seenAt d = before.filter (·.seenBy d) ++ w :: after.filter (·.seenBy d) := by
    rw [← List.filter_cons_of_pos (p := fun e : Write => e.seenBy d) hseen, ← List.filter_append, ← hsplit]
    rfl
  simp only [State.seenByte, hl, hr, hbase, ByteSt.applyAll_append]
  split
  · rename_i hu
    have hother : ∀ e ∈ before.filter (·.seenBy d), e.addr / 16 ≠ b / 16 := fun e he => by
      have hn := List.all_eq_true.1 hfirst e (hbefore ▸ (List.mem_filter.1 he).1)
      rw [hu]
      exact bne_iff_ne.1 hn
    rw [ByteSt.applyAll_of_other _ hother, ByteSt.applyAll_of_other _ hother, ByteSt.applyAll_cons_of_unit _ hu.symm]
  · rename_i hu
    rw [ByteSt.applyAll_cons_of_other _ (Ne.symm hu)]

theorem State.flightWf_retireWrite {s : State} (h : s.FlightWf) (w : Write) : (s.retireWrite w).FlightWf :=
  ⟨h.1.sublist (List.filter_sublist.map _), fun e he => h.2 e (List.filter_sublist.subset he)⟩

/-- One turn of the move: a write goes into memory if it may. -/
def State.retireTurn (s : State) (w : Write) : State :=
  if allDies w.dies && (s.flight.takeWhile (·.id != w.id)).all (fun e => e.addr / 16 != w.addr / 16) then s.retireWrite w else s

theorem State.retireDone_eq (s : State) : s.retireDone = s.flight.foldl State.retireTurn s := rfl

/-- No die sees a change when writes move into memory. -/
theorem State.seenByte_retireDone {s : State} (h : s.FlightWf) {d : Nat} (hd : d < 8) (b : Nat) :
    s.retireDone.seenByte d b = s.seenByte d b := by
  have key (l : List Write) (hnd : (l.map (·.id)).Nodup) (t : State) (ht : t.FlightWf) (hl : ∀ w ∈ l, w ∈ t.flight) :
      (l.foldl State.retireTurn t).seenByte d b = t.seenByte d b := by
    induction l generalizing t with
    | nil => rfl
    | cons w l ih =>
      obtain ⟨hw, hl⟩ := List.forall_mem_cons.1 hl
      obtain ⟨hnew, hnd⟩ := List.nodup_cons.1 hnd
      rw [List.foldl_cons, State.retireTurn]
      split
      · rename_i hmay
        obtain ⟨hall, hfirst⟩ := Bool.and_eq_true_iff.1 hmay
        rw [ih hnd _ (State.flightWf_retireWrite ht w) fun v hv => ?_, State.seenByte_retireWrite ht hw hall hfirst hd]
        exact List.mem_filter.2 ⟨hl v hv, bne_iff_ne.2 fun hid => hnew (List.mem_map.2 ⟨v, hv, hid⟩)⟩
      · exact ih hnd t ht hl
  rw [State.retireDone_eq]
  exact key s.flight h.1 s h fun _ hw => hw

/-- The move of writes into memory changes neither the writes that wait nor the teams. -/
theorem State.retireDone_rest (s : State) : s.retireDone.pend = s.pend ∧ s.retireDone.teams = s.teams := by
  have key (l : List Write) (t : State) : (l.foldl State.retireTurn t).pend = t.pend ∧ (l.foldl State.retireTurn t).teams = t.teams := by
    induction l generalizing t with
    | nil => exact ⟨rfl, rfl⟩
    | cons w l ih =>
      obtain ⟨hp, ht⟩ := ih (t.retireTurn w)
      have hturn : (t.retireTurn w).pend = t.pend ∧ (t.retireTurn w).teams = t.teams := by
        unfold State.retireTurn
        split <;> exact ⟨rfl, rfl⟩
      exact ⟨hp.trans hturn.1, ht.trans hturn.2⟩
  exact key s.flight s

end Sys2Proof.Machine
end

section
/-!
PROOFS. Obligation O27: a write is applied in its tile, at its home, at the other dies, and at the copies of a replicated page.
-/
namespace Sys2Proof.Machine

/-! ### What follows every application (18_host_and_trust R397; 15_traps_preemption R344) -/

/-- The puts that are performed are answered, and the moraine ring's write index advances. -/
def State.answered (s : State) : State := s.sendPuts.ringAdvance

section
variable (s : State)

@[simp] theorem State.answered_memPart : s.answered.memPart = s.memPart := by simp [State.answered]

theorem State.answered_rest : s.answered.teams = s.teams ∧ s.answered.cores = s.cores := by
  unfold State.answered State.ringAdvance
  split <;> exact ⟨rfl, rfl⟩

end

theorem exec_writeApplication {s s1 : State} {id d : Nat} (h : s.applyWrite id d = s1) :
    exec (.writeApplication id d) s = .next s1.answered := by
  subst h
  rfl

theorem exec_replLock {s s1 : State} {id d : Nat} (h : s.replLock id d = s1) : exec (.replLock id d) s = .next s1 := by
  subst h
  rfl

theorem exec_replUpdate {s s1 : State} {id d : Nat} (h : s.replUpdate id d = s1) : exec (.replUpdate id d) s = .next s1.answered := by
  subst h
  rfl

theorem State.spByte_congr {s t : State} (h : t.teams = s.teams) (g ci off : Nat) : t.spByte g ci off = s.spByte g ci off := by
  simp only [State.spByte, State.team?, h]

/-- A state that agrees with another in its memory part: the writes on their way and memory. -/
theorem memPart_fields {s t : State} (h : t.memPart = s.memPart) :
    t.mem = s.mem ∧ t.keys = s.keys ∧ t.pend = s.pend ∧ t.flight = s.flight :=
  ⟨congrArg MemPart.mem h, congrArg MemPart.keys h, congrArg MemPart.pend h, congrArg MemPart.flight h⟩

/-! ### What the performance of a write marks (06_consistency R137; 15_traps_preemption R332) -/

theorem State.sameMem_acqDrop (s : State) (u : UnitId) (seq : Nat) : SameMem s (s.acqDrop u seq) := by
  unfold State.acqDrop
  split
  · exact State.sameMem_dropCaches ..
  · exact .refl s

theorem State.sameMem_performed (s : State) (w : Write) : SameMem s (s.performed w) := by
  unfold State.performed
  split
  · exact (onlyUnit_modRegs ..).sameMem.trans (State.sameMem_acqDrop ..)
  · exact .refl s

theorem State.performedAt_of_ne (s : State) {w : Write} {d : Nat} (h : d ≠ w.die) : s.performedAt w d = s := if_neg h

theorem State.sameMem_performedAt (s : State) (w : Write) (d : Nat) : SameMem s (s.performedAt w d) := by
  unfold State.performedAt
  split
  · exact State.sameMem_performed s w
  · exact .refl s

theorem State.recheck_teams (s0 s : State) (w : Write) (last : Bool) : (s0.recheck s w last).teams = s.teams := by
  unfold State.recheck
  dsimp only
  split <;> rfl

/-! ### The order of a write among those of its source and among those on their way (06_consistency R134, R135, R142) -/

/-- A write is free to leave its die, or has left it. -/
def State.goes (s : State) (w : Write) : Bool := w.sent || s.mayLeave w

theorem State.goes_iff {s : State} {w : Write} : s.goes w = true ↔ w.sent = true ∨ s.mayLeave w = true := by
  simp [State.goes]

theorem State.goes_eq_false {s : State} {w : Write} (hs : w.sent = false) (hm : s.mayLeave w = false) : s.goes w = false := by
  simp [State.goes, hs, hm]

theorem State.leave_preds (s : State) (w : Write) : (s.leave w).preds = if w.sent then w.preds else s.predsAt w.die := by
  unfold State.leave
  split <;> rfl

theorem State.leave_bytes (s : State) (w : Write) :
    (s.leave w).addr = w.addr ∧ (s.leave w).bytes = w.bytes ∧ (s.leave w).key = w.key := by
  unfold State.leave
  split <;> exact ⟨rfl, rfl, rfl⟩

/-- The writes before another in coherence order that its application must follow have been applied at a die. -/
def State.firstAt (s : State) (w : Write) (d : Nat) : Bool :=
  (s.flight.takeWhile (·.id != w.id)).all fun e => !e.clash w || e.dies.contains d

theorem State.firstAt_eq {s : State} {w : Write} {id d : Nat} (h : w.id = id) : s.firstAt w d =
    (s.flight.takeWhile (·.id != id)).all fun e => e.dies.contains d ||
      !(meets e.addr e.bytes.length w.addr w.bytes.length || (e.addr / 16 == w.addr / 16 && e.key != w.key)) := by
  subst h
  exact congrArg _ (funext fun e => Bool.or_comm ..)

/-! ### The application of a write, case by case -/

/-- A state in which a write has gone into its tile. -/
def State.inTile (s : State) (id t ci : Nat) (w : Write) : State :=
  { s.setSp t ci w.addr w.bytes with pend := s.pend.filter (·.id != id) }

/-- A state in which a die that is its home has serialised a write. -/
def State.serialised (s : State) (id d : Nat) (w : Write) : State :=
  { s with pend := s.pend.filter (·.id != id), flight := s.flight ++ [{ s.leave w with dies := [d] }] }

/-- A state in which one more die has applied a write in flight. -/
def State.spreadTo (s : State) (id d : Nat) (w : Write) : State :=
  { s with flight := s.flight.map fun e => if e.id = id then { w with dies := d :: w.dies } else e }

section
variable {s : State} {id d : Nat}

theorem State.applyWrite_of_absent (hp : s.pend.find? (·.id == id) = none) (hf : s.flight.find? (·.id == id) = none) :
    s.applyWrite id d = s := by
  simp only [State.applyWrite, hp, hf]

section
variable {w : Write} (hw : s.pend.find? (·.id == id) = some w)
include hw

theorem State.applyWrite_of_held (h : s.goes w = false) : s.applyWrite id d = s := by
  simp only [State.applyWrite, hw]
  exact if_pos (by rw [← State.goes, h]; rfl)

theorem State.applyWrite_of_repl (hr : w.repl = true) (ht : w.tgt = .glob) (hd : d ≠ 10) : s.applyWrite id d = s := by
  simp only [State.applyWrite, hw, ht, if_neg hd, State.leave_repl, hr]
  simp

section
variable (hg : s.goes w = true) {t ci : Nat} (ht : w.tgt = .scratch t ci)
include hg ht

theorem State.applyWrite_of_tile_busy (h : s.behindOwn w = true ∨ s.coreSaved t ci = true) : s.applyWrite id d = s := by
  unfold State.goes at hg
  simp only [State.applyWrite, hw, ht, hg, if_pos (Bool.or_eq_true_iff.2 h)]
  rfl

theorem State.applyWrite_of_tile (hb : s.behindOwn w = false) (hc : s.coreSaved t ci = false) :
    s.applyWrite id d = (s.inTile id t ci w).performed w := by
  unfold State.goes at hg
  simp only [State.applyWrite, hw, ht, hg, hb, hc]
  rfl

end

theorem State.applyWrite_of_home (hg : s.goes w = true) (hr : w.repl = false) (ht : w.tgt = .glob) (hd : d = w.home) (hlt : d < 8)
    (hb : s.behindOwn w = false) (hp : (s.leave w).preds.all (s.appliedAt d) = true) :
    (s.applyWrite id d).memPart = (s.serialised id d w).memPart := by
  have h10 : d ≠ 10 := by omega
  have hhome : d = (s.leave w).home := hd.trans (by unfold State.leave; split <;> rfl)
  have hbehind : s.behindOwn (s.leave w) = false := by
    unfold State.leave
    split
    · exact hb
    · exact hb
  unfold State.goes at hg
  simp only [State.applyWrite, hw, ht, hg, if_neg h10]
  rw [if_neg (by simp), if_pos ⟨(State.leave_repl s w).trans hr, hhome, hbehind, Or.inr hp⟩]
  simp [State.serialised, hlt]

end

section
variable {w : Write} (hp : s.pend.find? (·.id == id) = none) (hf : s.flight.find? (·.id == id) = some w)
include hp hf

theorem State.applyWrite_of_early (h : w.preds.all (s.appliedAt d) = false ∨ s.firstAt w d = false) : s.applyWrite id d = s := by
  obtain ⟨-, rfl⟩ := find?_id hf
  simp only [State.applyWrite, hp, hf]
  refine if_neg ?_
  rintro ⟨-, -, hpreds, hfirst⟩
  rcases h with h | h
  · rw [h] at hpreds
    cases hpreds
  · rw [State.firstAt, hfirst] at h
    cases h

theorem State.applyWrite_of_die (hd : d < 8) (hn : w.dies.contains d = false) (hpreds : w.preds.all (s.appliedAt d) = true)
    (hfirst : s.firstAt w d = true) (hall : allDies (d :: w.dies) = false) :
    s.applyWrite id d = (s.spreadTo id d w).performedAt w d := by
  obtain ⟨-, rfl⟩ := find?_id hf
  simp only [State.applyWrite, hp, hf]
  rw [if_pos ⟨hd, hn, hpreds, hfirst⟩, hall]
  rfl

end

end

/-! ### What a die sees of a write that its home has serialised (06_consistency R133; 03_memory_tiers R71) -/

section
variable {s s' : State} {id d : Nat} {w : Write} (h : s'.memPart = (s.serialised id d w).memPart) (ht : w.tgt = .glob) (hr : w.repl = false)
include h ht hr

theorem State.seenByte_of_serialised (d' b : Nat) :
    s'.seenByte d' b = if d' = d ∧ b / 16 = w.addr / 16 then (s.seenByte d b).apply w b else s.seenByte d' b := by
  obtain ⟨haddr, hbytes, hkey⟩ := s.leave_bytes w
  have happ := State.seenByte_of_flight_append (s := s) (t := s.serialised id d w) rfl rfl rfl d' b
  rw [State.seenByte_congr h, happ]
  by_cases hd : d' = d
  · subst hd
    rw [List.filter_cons_of_pos (by simp [Write.seenBy, ht, hr]), List.filter_nil]
    by_cases hu : b / 16 = w.addr / 16
    · rw [if_pos ⟨rfl, hu⟩, ByteSt.applyAll_cons_of_unit _ (by simp [haddr, hu]), ByteSt.applyAll_nil]
      simp only [ByteSt.apply, haddr, hbytes, hkey, Write.rekey, State.leave_id]
    · rw [if_neg fun e => hu e.2, ByteSt.applyAll_cons_of_other _ (by simp [haddr, Ne.symm hu]), ByteSt.applyAll_nil]
  · rw [if_neg fun e => hd e.1, List.filter_cons_of_neg (by simp [Write.seenBy, hd]), List.filter_nil, ByteSt.applyAll_nil]

/-- That die sees the write's bytes, and of its unit what stands under its key; no other byte changes. -/
theorem State.dieByte_of_serialised : (∀ d' k b, d' ≠ d ∨ b / 16 ≠ w.addr / 16 → s'.dieByte d' k b = s.dieByte d' k b) ∧
    ∀ b, b / 16 = w.addr / 16 → (w.addr ≤ b → b < w.addr + w.bytes.length → s'.dieByte d w.key b = w.bytes.getD (b - w.addr) 0) ∧
      (b < w.addr ∨ w.addr + w.bytes.length ≤ b → s.unitKey d b = some w.key → ∀ k, s'.dieByte d k b = s.dieByte d k b) := by
  have hseen := State.seenByte_of_serialised h ht hr
  refine ⟨fun d' k b hne => ?_, fun b hu => ⟨fun hle hlt => ?_, fun hout hk k => ?_⟩⟩
  · rw [State.dieByte_eq, State.dieByte_eq, hseen, if_neg (by tauto)]
  · rw [State.dieByte_eq, hseen, if_pos ⟨rfl, hu⟩]
    refine ByteSt.read_of_val (ByteSt.key_apply ..) ?_ b
    rw [ByteSt.val_apply_of_mem _ _ ⟨hle, hlt⟩, List.getD_eq_getElem?_getD, List.getElem?_eq_getElem (by omega)]
    rfl
  · have hkey : (s.seenByte d b).uk.map (·.key) = some w.key := hk
    rw [State.dieByte_eq, State.dieByte_eq, hseen, if_pos ⟨rfl, hu⟩, ByteSt.apply_of_not_mem _ w (by omega) hkey]

end

/-! ### The clauses of an application -/

section
variable {s : State} {id d : Nat}

theorem tileWrite_clause {w : Write} (hw : s.pend.find? (·.id == id) = some w) (hg : s.goes w = true) {t ci : Nat} {x : Team} {m : Table Byte}
    (ht : w.tgt = .scratch t ci) (hx : s.team? t = some x) (hm : x.scratch[ci]? = some m) (hb : s.behindOwn w = false)
    (hc : s.coreSaved t ci = false) : ∃ s', exec (.writeApplication id d) s = .next s' ∧
      s'.pend = s.pend.filter (·.id != id) ∧ s'.flight = s.flight ∧ (∀ d' k b, s'.dieByte d' k b = s.dieByte d' k b) ∧
      ∀ g c2 off, s'.spByte g c2 off = if g = t ∧ c2 = ci ∧ w.addr ≤ off ∧ off < w.addr + w.bytes.length then
        w.bytes.getD (off - w.addr) 0 else s.spByte g c2 off := by
  have hmem : ((s.inTile id t ci w).performed w).answered.memPart = (s.inTile id t ci w).memPart := by simp
  obtain ⟨-, -, hpend, hflight⟩ := memPart_fields hmem
  refine ⟨_, exec_writeApplication (State.applyWrite_of_tile hw hg ht hb hc), hpend, hflight, fun d' k b => State.dieByte_congr hmem d' k b,
    fun g c2 off => ?_⟩
  have hsp : (s.inTile id t ci w).spByte g c2 off = (s.setSp t ci w.addr w.bytes).spByte g c2 off := rfl
  rw [State.spByte_congr (State.answered_rest _).1, (State.sameMem_performed _ w).2.1, hsp, State.spByte_setSp]
  simp [hx, hm]

theorem homeWrite_clause {w : Write} (hw : s.pend.find? (·.id == id) = some w) (hg : s.goes w = true) (hr : w.repl = false) (ht : w.tgt = .glob)
    (hd : d = w.home) (hlt : d < 8) (hb : s.behindOwn w = false) (hp : (s.leave w).preds.all (s.appliedAt d) = true) :
    ∃ s', exec (.writeApplication id d) s = .next s' ∧ s'.pend = s.pend.filter (·.id != id) ∧
      s'.flight.length = s.flight.length + 1 ∧ s'.mem = s.mem ∧
      (∀ d' k b, d' ≠ d ∨ b / 16 ≠ w.addr / 16 → s'.dieByte d' k b = s.dieByte d' k b) ∧
      ∀ b, b / 16 = w.addr / 16 → (w.addr ≤ b → b < w.addr + w.bytes.length → s'.dieByte d w.key b = w.bytes.getD (b - w.addr) 0) ∧
        (b < w.addr ∨ w.addr + w.bytes.length ≤ b → s.unitKey d b = some w.key → ∀ k, s'.dieByte d k b = s.dieByte d k b) := by
  have hmem : (s.applyWrite id d).answered.memPart = (s.serialised id d w).memPart :=
    (State.answered_memPart _).trans (State.applyWrite_of_home hw hg hr ht hd hlt hb hp)
  obtain ⟨hm, -, hpend, hflight⟩ := memPart_fields hmem
  exact ⟨_, exec_writeApplication rfl, hpend, by rw [hflight]; simp [State.serialised], hm, State.dieByte_of_serialised hmem ht hr⟩

theorem dieWrite_clause {w : Write} (hp : s.pend.find? (·.id == id) = none) (hf : s.flight.find? (·.id == id) = some w) (hd : d < 8)
    (hn : w.dies.contains d = false) (hpreds : w.preds.all (s.appliedAt d) = true) (hfirst : s.firstAt w d = true)
    (hall : allDies (d :: w.dies) = false) : ∃ s', exec (.writeApplication id d) s = .next s' ∧
      s'.flight = s.flight.map (fun e => if e.id = id then { w with dies := d :: w.dies } else e) ∧ s'.pend = s.pend ∧ s'.mem = s.mem ∧
      s'.keys = s.keys ∧ (d ≠ w.die → s'.teams = s.teams ∧ s'.cores = s.cores) := by
  have hmem : ((s.spreadTo id d w).performedAt w d).answered.memPart = (s.spreadTo id d w).memPart := by simp
  obtain ⟨hm, hk, hpend, hflight⟩ := memPart_fields hmem
  refine ⟨_, exec_writeApplication (State.applyWrite_of_die hp hf hd hn hpreds hfirst hall), hflight, hpend, hm, hk, fun hne => ?_⟩
  rw [State.performedAt_of_ne _ hne]
  exact State.answered_rest _

end

/-! ### The lock of a replicated line (06_consistency R146, R147) -/

/-- A die may lock the line of a replicated write. -/
def State.lockReady (s : State) (w : Write) (d : Nat) : Bool :=
  s.goes w && !s.behindOwn w && !s.lineBusy w && !s.stalledOn d (w.addr / 128) && (s.leave w).preds.all (s.appliedAt d)

section
variable {s : State} {id d : Nat} {w : Write} (hw : s.pend.find? (·.id == id) = some w)
include hw

theorem State.replLock_of_not_ready (h : w.locked.contains d = true ∨ s.lockReady w d = false) : s.replLock id d = s := by
  simp only [State.replLock, hw]
  split
  · rfl
  · rename_i hn
    split
    · rename_i hp
      refine absurd h ?_
      simp only [not_or, Bool.not_eq_true] at hn
      obtain ⟨-, -, hl, hg, hb, hbusy, hst⟩ := hn
      have hg : s.goes w = true := by simpa [State.goes, Decidable.or_iff_not_imp_left] using hg
      rw [hl]
      simp [State.lockReady, hg, hb, hbusy, hst, hp]
    · rfl

theorem State.replLock_of_ready (hr : w.repl = true) (hd : d < 8) (hl : w.locked.contains d = false) (h : s.lockReady w d = true) :
    s.replLock id d = { s with pend := s.pend.map fun e => if e.id = id then { s.leave w with locked := d :: (s.leave w).locked } else e } := by
  simp only [State.lockReady, State.goes, Bool.and_eq_true, Bool.not_eq_true'] at h
  obtain ⟨⟨⟨⟨hg, hb⟩, hbusy⟩, hst⟩, hp⟩ := h
  have hheld : (!w.sent && !s.mayLeave w) = false := by rw [← Bool.not_or, hg]; rfl
  simp only [State.replLock, hw]
  rw [if_neg (by simp only [hr, hl, hheld, hb, hbusy, hst]; simp [hd]), if_pos hp]

end

/-! ### The bytes of a die's copy (06_consistency R146; 03_memory_tiers R69, R70) -/

theorem State.mem_copyWrites {s : State} {w v : Write} {d : Nat} (h : v ∈ s.copyWrites w d) :
    v.tgt = .glob ∧ v.repl = false ∧ v.key = w.key ∧ v.dies = List.range 8 := by
  obtain ⟨p, -, rfl⟩ := List.mem_map.1 h
  exact ⟨rfl, rfl, rfl, rfl⟩

/-- The copy's bytes are those of the write, cut at the units. -/
theorem State.pieces_copyWrites (s : State) (w : Write) (d : Nat) :
    (s.copyWrites w d).map (fun v => (v.addr, v.bytes)) = cutAt 16 w.bytes.length (replAddr d w.addr) w.bytes := by
  simp only [State.copyWrites, List.map_map, Function.comp_def, Prod.mk.eta]
  exact List.map_fst_zip (by simp)

/-- Every die has applied the writes of a copy as soon as they are made. -/
theorem State.filter_copyWrites (s : State) (w : Write) (d : Nat) {d' : Nat} (h : d' < 8) :
    (s.copyWrites w d).filter (·.seenBy d') = s.copyWrites w d := by
  refine List.filter_eq_self.2 fun v hv => ?_
  obtain ⟨ht, hr, -, hd⟩ := State.mem_copyWrites hv
  simp [Write.seenBy, ht, hr, hd, h]

/-- A state in which the writes of a die's copy have been made. -/
def State.withCopy (s : State) (id d : Nat) (w : Write) : State :=
  { s with flight := s.flight ++ s.copyWrites w d, nextId := s.nextId + (s.copyWrites w d).length,
           pend := if allDies (d :: w.dies) then s.pend.filter (·.id != id)
             else s.pend.map fun e => if e.id = id then { w with dies := d :: w.dies } else e }

/-- New names tell the writes of a copy from those in flight. -/
theorem State.flightWf_withCopy {s : State} (h : s.WritesWf) (id d : Nat) (w : Write) : (s.withCopy id d w).FlightWf := by
  obtain ⟨hnd, hlt, hglob⟩ := h
  refine ⟨?_, fun v hv => (List.mem_append.1 hv).elim (hglob v) fun hv => ?_⟩
  · rw [State.writes, List.map_append] at hnd
    have happ : (s.withCopy id d w).flight.map (·.id) = s.flight.map (·.id) ++ List.range' s.nextId (s.copyWrites w d).length := by
      rw [← State.copyWrites_ids, ← List.map_append]
      rfl
    rw [happ]
    refine (List.nodup_append.1 hnd).2.1.append List.nodup_range' fun n hn hr => ?_
    obtain ⟨v, hv, rfl⟩ := List.mem_map.1 hn
    exact absurd (hlt v (List.mem_append_right _ hv)) (Nat.not_lt.2 (List.mem_range'_1.1 hr).1)
  · obtain ⟨ht, hr, -, -⟩ := State.mem_copyWrites hv
    exact ⟨ht, hr⟩

section
variable {s : State} {id d : Nat} {w : Write} (hw : s.pend.find? (·.id == id) = some w)
include hw

theorem State.replUpdate_of_not_ready (h : w.dies.contains d = true ∨ allDies w.locked = false) : s.replUpdate id d = s := by
  simp only [State.replUpdate, hw]
  exact if_pos (Or.inr (Or.inr h.symm))

theorem State.replUpdate_of_ready (hr : w.repl = true) (hd : d < 8) (hn : w.dies.contains d = false) (hl : allDies w.locked = true) :
    ∃ s1 : State, s1.memPart = (s.withCopy id d w).memPart ∧ s1.teams = s.teams ∧ s.replUpdate id d = s1.retireDone.performedAt w d := by
  refine ⟨s.recheck (s.withCopy id d w) { w with addr := replAddr d w.addr } (w.whole && !s.partsLeft w d), by simp,
    State.recheck_teams .., ?_⟩
  simp only [State.replUpdate, hw]
  rw [if_neg (by rw [hr, hl, hn]; simp [hd])]
  rfl

end

/-- The clause of a copy that takes the bytes. -/
theorem copyWrite_clause {s : State} {id d : Nat} {w : Write} (hw : s.pend.find? (·.id == id) = some w) (hr : w.repl = true) (hd : d < 8)
    (hn : w.dies.contains d = false) (hl : allDies w.locked = true) (hwf : s.WritesWf) :
    let copy := replAddr d w.addr
    let took (b : Nat) : Prop := copy ≤ b ∧ b < copy + w.bytes.length
    ∃ s', exec (.replUpdate id d) s = .next s' ∧
      s'.pend = (if allDies (d :: w.dies) then s.pend.filter (·.id != id)
        else s.pend.map fun e => if e.id = id then { w with dies := d :: w.dies } else e) ∧
      (∀ g ci off, s'.spByte g ci off = s.spByte g ci off) ∧
      ∀ d' b, d' < 8 → (took b → s'.dieByte d' w.key b = w.bytes.getD (b - copy) 0) ∧
        (¬took b → s.unitKey d' b = some w.key ∨ (∀ n, n < w.bytes.length → b / 16 ≠ (copy + n) / 16) →
          ∀ k, s'.dieByte d' k b = s.dieByte d' k b) := by
  obtain ⟨s1, hmem, hteams, hs⟩ := State.replUpdate_of_ready hw hr hd hn hl
  obtain ⟨-, -, hpend, hflight⟩ := memPart_fields hmem
  have hend : (s1.retireDone.performedAt w d).answered.memPart = s1.retireDone.memPart := by simp
  refine ⟨_, exec_replUpdate hs, ?pend, fun g ci off => ?scratch, fun d' b hlt => ?bytes⟩
  case pend =>
    obtain ⟨-, -, hp, -⟩ := memPart_fields hend
    exact hp.trans (s1.retireDone_rest.1.trans hpend)
  case scratch =>
    rw [State.spByte_congr (State.answered_rest _).1, (s1.retireDone.sameMem_performedAt w d).2.1,
      State.spByte_congr (s1.retireDone_rest.2.trans hteams)]
  case bytes =>
    have hwf1 : s1.FlightWf := by
      rw [State.FlightWf, hflight]
      exact State.flightWf_withCopy hwf id d w
    have hseen : (s1.retireDone.performedAt w d).answered.seenByte d' b = (s.seenByte d' b).applyAll (s.copyWrites w d) b := by
      rw [State.seenByte_congr hend, State.seenByte_retireDone hwf1 hlt, State.seenByte_congr hmem,
        State.seenByte_of_flight_append (s := s) (t := s.withCopy id d w) rfl rfl rfl, State.filter_copyWrites s w d hlt]
    obtain ⟨hin, hout⟩ := ByteSt.applyAll_cutAt (b := b) w.bytes.length (Nat.le_refl _) (s.pieces_copyWrites w d)
      (fun v hv => (State.mem_copyWrites hv).2.2.1) (s.seenByte d' b)
    refine ⟨fun ht => ?_, fun ht hor k => ?_⟩
    · obtain ⟨hkey, hval⟩ := hin ht
      rw [State.dieByte_eq, hseen]
      refine ByteSt.read_of_val hkey (hval.trans ?_) b
      rw [List.getD_eq_getElem?_getD, List.getElem?_eq_getElem (by omega)]
      rfl
    · rw [State.dieByte_eq, State.dieByte_eq, hseen, hout ht hor]

/-- Settles O27: an application by the place where the write goes, and a replicated write by its lock and its copies. -/
theorem writesReachDies : Obligations.WritesReachDies := by
  unfold Obligations.WritesReachDies
  refine ⟨fun id d s => ⟨fun hp hf => exec_writeApplication (State.applyWrite_of_absent hp hf), fun w hw => ⟨fun hd hn => ?held,
    fun hr hg => ⟨fun t ci x m ht hx hm => ⟨fun hbusy => ?busy, fun hb hc => ?tile⟩, fun ht hd hlt hb hp => ?home⟩⟩,
    fun w hp hf hd hn => ⟨fun h => ?early, fun hpreds hfirst hall => ?die⟩⟩,
    fun id d s w hw hr hd => ⟨fun h => ?unlocked, fun hl h => ?locked, fun hn hl hwf => copyWrite_clause hw hr hd hn hl hwf,
      fun h => exec_replUpdate (State.replUpdate_of_not_ready hw h)⟩⟩
  case held =>
    rcases hn with ⟨hr, ht⟩ | ⟨hs, hm⟩
    · exact exec_writeApplication (State.applyWrite_of_repl hw hr ht hd)
    · exact exec_writeApplication (State.applyWrite_of_held hw (State.goes_eq_false hs hm))
  case busy => exact exec_writeApplication (State.applyWrite_of_tile_busy hw (State.goes_iff.2 hg) ht hbusy)
  case tile => exact tileWrite_clause hw (State.goes_iff.2 hg) ht hx hm hb hc
  case home => exact homeWrite_clause hw (State.goes_iff.2 hg) hr ht hd hlt hb (by rw [State.leave_preds]; exact hp)
  case early => exact exec_writeApplication (State.applyWrite_of_early hp hf (h.imp_right (State.firstAt_eq (find?_id hf).2).trans))
  case die => exact dieWrite_clause hp hf hd hn hpreds ((State.firstAt_eq (find?_id hf).2).trans hfirst) hall
  case unlocked => exact exec_replLock (State.replLock_of_not_ready hw h)
  case locked => exact exec_replLock (State.replLock_of_ready hw hr hd hl h)

end Sys2Proof.Machine
end

section
/-!
PROOFS. Obligation O9: the occupancy forms (07_registers R182 to R185), and the moves between a lane and the scalar side
(08_lane_arithmetic R213).
-/
namespace Sys2Proof.Machine

/-! ### The positions of the lanes of a map (07_registers R182) -/

theorem mem_lanesOf {m : Lanes} {l : Nat} : l ∈ lanesOf m ↔ m.getLsbD l = true := by
  simp only [lanesOf, List.mem_filter, List.mem_range, and_iff_right_iff_imp]
  exact BitVec.lt_of_getLsbD

theorem nodup_lanesOf (m : Lanes) : (lanesOf m).Nodup := List.nodup_range.filter _

theorem popcount_and_le (a m : Lanes) : popcount (a &&& m) ≤ popcount m := by
  simp only [popcount, lanesOf, ← List.countP_eq_length_filter]
  exact List.countP_mono_left fun l _ h => by
    rw [BitVec.getLsbD_and, Bool.and_eq_true] at h
    exact h.2

theorem rankOf_eq (m : Lanes) (l : Nat) : rankOf m l = ((List.range l).filter fun i => m.getLsbD i).length := by
  have hb (i : Nat) : bitOf m.toNat i = m.getLsbD i := by
    rw [bitOf, BitVec.getLsbD, Nat.testBit_eq_decide_div_mod_eq]
    rfl
  simp only [rankOf, popcNat, hb]

/-- A lane of a map stands in its list at its rank: the lanes below it come before it. -/
theorem getElem?_lanesOf_rankOf {m : Lanes} {l : Nat} (h : m.getLsbD l = true) : (lanesOf m)[rankOf m l]? = some l := by
  have hl : l < 32 := BitVec.lt_of_getLsbD h
  have hr : List.range 32 = List.range l ++ l :: (List.range (31 - l)).map (l + 1 + ·) := by
    rw [show 32 = l + 1 + (31 - l) by omega, List.range_add, List.range_succ, List.append_assoc]
    rfl
  rw [lanesOf, hr, List.filter_append, List.filter_cons_of_pos h, rankOf_eq, List.getElem?_append_right (Nat.le_refl _), Nat.sub_self]
  rfl

theorem rankOf_lt_popcount {m : Lanes} {l : Nat} (h : m.getLsbD l = true) : rankOf m l < popcount m :=
  (List.getElem?_eq_some_iff.1 (getElem?_lanesOf_rankOf h)).1

theorem laneAt_rankOf {m : Lanes} {l : Nat} (h : m.getLsbD l = true) : laneAt m (rankOf m l) = l := by
  rw [laneAt, List.getD_eq_getElem?_getD, getElem?_lanesOf_rankOf h, Option.getD_some]

theorem getElem?_lanesOf {m : Lanes} {n : Nat} (h : n < popcount m) : (lanesOf m)[n]? = some (laneAt m n) := by
  rw [laneAt, List.getD_eq_getElem?_getD, List.getElem?_eq_getElem h, Option.getD_some]

theorem getLsbD_laneAt {m : Lanes} {n : Nat} (h : n < popcount m) : m.getLsbD (laneAt m n) = true :=
  mem_lanesOf.1 (List.mem_of_getElem? (getElem?_lanesOf h))

theorem laneAt_lt {m : Lanes} {n : Nat} (h : n < popcount m) : laneAt m n < 32 := BitVec.lt_of_getLsbD (getLsbD_laneAt h)

theorem rankOf_laneAt {m : Lanes} {n : Nat} (h : n < popcount m) : rankOf m (laneAt m n) = n :=
  have hm := getLsbD_laneAt h
  (List.getElem?_inj (rankOf_lt_popcount hm) (nodup_lanesOf m)).1 ((getElem?_lanesOf_rankOf hm).trans (getElem?_lanesOf h).symm)

/-! ### Forms of a warp whose body writes lanes, a predicate or scalars, whatever it has read -/

section
variable {s : State} {c : Ctx} {i : Instr} {t k : Nat} {x : Warp} (h : WarpIssues s c i t k x) {body : Ctx → State → Res}
  (hx : exec i s = issue s i body)
include h hx

theorem WarpIssues.laneDone_of_body {d n : Nat} {kp : Bool} {m : Lanes} {f : Nat → Nat} {fl : Word}
    (hb : body c s = .retire (s.writeLanes c.cur.unit d n c.lm m kp f fl)) :
    ∃ s', exec i s = .next s' ∧ LaneDone s s' c i t k x d n kp m f fl :=
  ⟨_, by rw [hx, issue_next h.1, hb]; rfl, h.laneDone ..⟩

theorem WarpIssues.predDone_of_body {d : Nat} {kp : Bool} {m : Lanes} {f : Nat → Bool} {fl : Word}
    (hb : body c s = .retire (s.writePred c.cur.unit d c.lm m kp f fl)) :
    ∃ s', exec i s = .next s' ∧ PredDone s s' c i t k x d kp m f fl :=
  ⟨_, by rw [hx, issue_next h.1, hb]; rfl, h.predDone ..⟩

theorem WarpIssues.scalarDone_of_body {d : Nat} {v : List Word} (hb : body c s = .retire (s.setScal c.cur.unit d v)) :
    ∃ s', exec i s = .next s' ∧ ScalarDone s s' c i t k x d v :=
  ⟨_, by rw [hx, issue_next h.1, hb]; rfl, h.scalarDone ..⟩

end

/-! ### Packing and unpacking (07_registers R185) -/

/-- The lanes that `occ.pack` writes, `n` of them: the first ones of L. -/
def packLanes (lm : Lanes) (n : Nat) : Lanes := laneMap fun l => lm.getLsbD l && decide (rankOf lm l < n)

theorem getLsbD_packLanes_laneAt {lm : Lanes} {n k : Nat} (hk : k < n) (hn : n ≤ popcount lm) :
    (packLanes lm n).getLsbD (laneAt lm k) = true := by
  have hl : k < popcount lm := Nat.lt_of_lt_of_le hk hn
  simp only [packLanes, laneMap_getLsbD, laneAt_lt hl, getLsbD_laneAt hl, rankOf_laneAt hl, hk, decide_true, Bool.and_self]

theorem exists_laneAt_of_packLanes {lm : Lanes} {n l : Nat} (h : (packLanes lm n).getLsbD l = true) : ∃ k, k < n ∧ l = laneAt lm k := by
  simp only [packLanes, laneMap_getLsbD, Bool.and_eq_true, decide_eq_true_eq] at h
  exact ⟨rankOf lm l, h.2.2, (laneAt_rankOf h.2.1).symm⟩

/-- The lanes that `occ.unpack` writes: those of the mask `m` whose lane of L, by its position, is one of `a`. -/
def unpackLanes (a lm m : Lanes) : Lanes := laneMap fun l => m.getLsbD l && a.getLsbD (laneAt lm (rankOf m l))

theorem getLsbD_unpackLanes_laneAt (a lm : Lanes) {m : Lanes} {k : Nat} (h : k < popcount m) :
    (unpackLanes a lm m).getLsbD (laneAt m k) = a.getLsbD (laneAt lm k) := by
  simp only [unpackLanes, laneMap_getLsbD, laneAt_lt h, getLsbD_laneAt h, rankOf_laneAt h, decide_true, Bool.true_and]

theorem getLsbD_of_unpackLanes {a lm m : Lanes} {l : Nat} (h : (unpackLanes a lm m).getLsbD l = true) : m.getLsbD l = true := by
  simp only [unpackLanes, laneMap_getLsbD, Bool.and_eq_true] at h
  exact h.2.1

section
variable {w : GenW} {s : State} {c : Ctx} {t k : Nat} {x : Warp}

theorem WarpIssues.occPack_done (h : WarpIssues s c (.occPack w) t k x) :
    let e := s.envOf c (.occPack w)
    let m := opMap e.a &&& c.lm
    ∃ s', exec (.occPack w) s = .next s' ∧ LaneDone s s' c (.occPack w) t k x e.dst 1 (dKp (shape (.occPack w)))
      (packLanes c.lm (popcount m)) (fun l => opLane e.a (laneAt m (rankOf c.lm l))) 0 :=
  h.laneDone_of_body (body := fun c s => occPackRun w (s.envOf c (.occPack w)) c s) rfl
    (by simp only [occPackRun, vecRun, packLanes, State.envOf_lm, State.envOf_only, and_fullMap])

theorem WarpIssues.occUnpack_done (h : WarpIssues s c (.occUnpack w) t k x) :
    let e := s.envOf c (.occUnpack w)
    let m := BitVec.ofNat 32 (opScal e.b) &&& c.lm
    ∃ s', exec (.occUnpack w) s = .next s' ∧ LaneDone s s' c (.occUnpack w) t k x e.dst 1 (dKp (shape (.occUnpack w)))
      (unpackLanes (opMap e.a) c.lm m) (fun l => opLane e.a (laneAt c.lm (rankOf m l))) 0 :=
  h.laneDone_of_body (body := fun c s => occUnpackRun w (s.envOf c (.occUnpack w)) c s) rfl
    (by simp only [occUnpackRun, vecRun, unpackLanes, scalMap, State.envOf_lm, State.envOf_only, and_fullMap])

end

/-! ### A lane that is read or broadcast (08_lane_arithmetic R213) -/

theorem exec_sRdl (w : GenW) (s : State) :
    exec (.sRdl w) s = issue s (.sRdl w) fun c s => sRdlRun w (s.wideEnv c (.sRdl w)) c s := rfl

theorem exec_vBcast (w : GenW) (s : State) :
    exec (.vBcast w) s = issue s (.vBcast w) fun c s => vBcastRun w (s.wideEnv c (.vBcast w)) c s := rfl

theorem rdTrap_of_absent {e : Env} {strict : Bool} (h : (strict && !(opMap e.a).getLsbD (opScal e.b % 32)) = true) :
    rdTrap e strict = some (mismTrap e.lm [e.a]) := if_pos h

theorem rdTrap_of_read {e : Env} {strict : Bool} (h : (strict && !(opMap e.a).getLsbD (opScal e.b % 32)) = false) :
    rdTrap e strict = none := if_neg (by rw [rdLane, h]; exact Bool.false_ne_true)

section
variable {w : GenW} {s : State} {c : Ctx} {t k : Nat} {x : Warp}

theorem WarpIssues.sRdl_done (h : WarpIssues s c (.sRdl w) t k x) (hr : rdTrap (s.wideEnv c (.sRdl w)) w.strict = none) :
    let e := s.wideEnv c (.sRdl w)
    let n := opScal e.b % 32
    ∃ s', exec (.sRdl w) s = .next s' ∧
      ScalarDone s s' c (.sRdl w) t k x e.dst (words (iw w.ty) (if (opMap e.a).getLsbD n then opLane e.a n else 0)) :=
  h.scalarDone_of_body (exec_sRdl w s) (by simp only [sRdlRun, hr, scalRun, rdLane]; rfl)

theorem WarpIssues.vBcast_done (h : WarpIssues s c (.vBcast w) t k x) (hr : rdTrap (s.wideEnv c (.vBcast w)) w.strict = none) :
    let e := s.wideEnv c (.vBcast w)
    let n := opScal e.b % 32
    ∃ s', exec (.vBcast w) s = .next s' ∧ LaneDone s s' c (.vBcast w) t k x e.dst (iw w.ty) (dKp (shape (.vBcast w)))
      (if (opMap e.a).getLsbD n then c.lm else 0) (fun _ => opLane e.a n) 0 := by
  have hm : (s.wideEnv c (.vBcast w)).lm &&& (s.wideEnv c (.vBcast w)).only = c.lm := and_fullMap _
  exact h.laneDone_of_body (exec_vBcast w s) (by simp only [vBcastRun, hr, vecRun, rdLane, hm]; rfl)

end

/-- Settles O9: each form is its body's write of lanes, of a predicate or of scalars; the lanes of `occ.pack` and `occ.unpack` by
their positions. -/
theorem occupancyAndLaneMoves : Obligations.OccupancyAndLaneMoves := by
  unfold Obligations.OccupancyAndLaneMoves
  refine ⟨fun w s c t k x => ⟨fun h => ?get, fun h => ?cnt, fun h => ?set, fun h => ?and, fun h => ?fill, fun h => ?pack,
    fun h => ?unpack⟩, fun w s c t k x i hi h => ⟨fun hr => ?absent, fun hr => ?read⟩⟩
  case get =>
    exact h.scalarDone_of_body (body := fun c s => occGetRun w (s.envOf c (.occGet w)) c s) rfl
      (by simp only [occGetRun, State.envOf_lm, State.envOf_only, and_fullMap])
  case cnt =>
    exact h.scalarDone_of_body (body := fun c s => occCntRun w (s.envOf c (.occCnt w)) c s) rfl
      (by simp only [occCntRun, State.envOf_lm, State.envOf_only, and_fullMap])
  case set =>
    exact h.predDone_of_body (body := fun c s => occSetRun w (s.envOf c (.occSet w)) c s) rfl
      (by simp only [occSetRun, State.envOf_lm, State.envOf_only, and_fullMap])
  case and =>
    exact h.laneDone_of_body (body := fun c s => occAndRun w (s.envOf c (.occAnd w)) c s) rfl
      (by simp only [occAndRun, vecRun, scalMap, State.envOf_lm, State.envOf_only, and_fullMap])
  case fill =>
    exact h.laneDone_of_body (body := fun c s => occFillRun w (s.envOf c (.occFill w)) c s) rfl
      (by simp only [occFillRun, vecRun, State.envOf_lm, State.envOf_only, and_fullMap])
  case pack =>
    obtain ⟨s', he, hd⟩ := h.occPack_done
    have hle := popcount_and_le (opMap (s.envOf c (.occPack w)).a) c.lm
    refine ⟨s', he, _, _, hd, fun n hn => ⟨getLsbD_packLanes_laneAt hn hle, ?_⟩, fun l _ => exists_laneAt_of_packLanes⟩
    rw [rankOf_laneAt (Nat.lt_of_lt_of_le hn hle)]
  case unpack =>
    obtain ⟨s', he, hd⟩ := h.occUnpack_done
    refine ⟨s', he, _, _, hd, fun n hn => ⟨getLsbD_unpackLanes_laneAt _ _ hn, fun _ => ?_⟩, fun l _ => getLsbD_of_unpackLanes⟩
    rw [rankOf_laneAt hn]
  case absent =>
    have ht := rdTrap_of_absent hr
    rcases List.mem_pair.1 hi with rfl | rfl
    · exact traps_of h.1 (exec_sRdl w s) (by simp only [sRdlRun, ht]; rfl)
    · exact traps_of h.1 (exec_vBcast w s) (by simp only [vBcastRun, ht]; rfl)
  case read =>
    have ht := rdTrap_of_read hr
    rcases List.mem_pair.1 hi with rfl | rfl
    · obtain ⟨s', he, hd⟩ := h.sRdl_done ht
      exact ⟨s', he, fun _ => hd, nofun⟩
    · obtain ⟨s', he, hd⟩ := h.vBcast_done ht
      exact ⟨s', he, nofun, fun _ => hd⟩

end Sys2Proof.Machine
end

section
/-!
PROOFS. Obligation O20: index registers (07_registers R181), the region form (R173, R174), and register scopes (R177 to R179).
-/
namespace Sys2Proof.Machine

/-! ### A change of one warp, or of one unit's registers, gives what it makes of them -/

theorem State.modWarp_const {s : State} {t k : Nat} {x : Warp} (hx : s.warp? t k = some x) (f : Warp → Warp) :
    s.modWarp t k f = s.modWarp t k fun _ => f x := State.modWarp_congr hx rfl

theorem State.modCcc_congr {s : State} {t k : Nat} {y : Ccc} {f g : Ccc → Ccc} (hy : s.ccc? t k = some y) (h : f y = g y) :
    s.modCcc t k f = s.modCcc t k g := by
  obtain ⟨q, hq, hk⟩ := Option.bind_eq_some_iff.1 hy
  have hl : lmod q.cccs k f = lmod q.cccs k g := lmod_congr hk h
  have ht : tmod s.teams t (fun q => { q with cccs := lmod q.cccs k f }) = tmod s.teams t fun q => { q with cccs := lmod q.cccs k g } :=
    tmod_congr hq (by rw [hl])
  exact congrArg (fun l => { s with teams := l }) ht

theorem State.modRegs_const {s : State} {u : UnitId} {r : Regs} (hr : s.regs? u = some r) (f : Regs → Regs) :
    s.modRegs u f = s.modRegs u fun _ => f r := by
  cases u with
  | warp t k =>
    obtain ⟨x, hx, rfl⟩ := Option.map_eq_some_iff.1 hr
    exact State.modRegs_congr hx rfl
  | ccc t k =>
    obtain ⟨y, hy, rfl⟩ := Option.map_eq_some_iff.1 hr
    exact State.modCcc_congr (f := fun y => { y with regs := f y.regs }) hy rfl

/-! ### Index registers (07_registers R181) -/

@[simp] theorem Regs.xv_setX (r : Regs) (n m : Nat) (v : Byte) : (r.setX n v).xv m = if n = m then v else r.xv m :=
  tgetD_tset _ _ _ _ _

theorem Regs.setX_rest (r : Regs) (n : Nat) (v : Byte) : { r.setX n v with x := r.x } = r := rfl

/-- What `xset`, or `xadd` where `add` is set, makes of the registers. -/
def Regs.index (r : Regs) (w : IdxW) (add : Bool) (v : Byte) : Regs :=
  r.setX w.d.toNat ((if add then r.xv w.d.toNat else 0) + v)

theorem Issues.index_retires {i : Instr} {w : IdxW} {add : Bool} {s : State} {c : Ctx} {r : Regs}
    (hi : i = if add then .xadd w else .xset w) (h : Issues s c i) (hr : s.regs? c.cur.unit = some r) :
    Retires i s c (s.modRegs c.cur.unit fun _ => r.index w add (idxVal w (s.envOf c i))) := by
  cases add with
  | true =>
    subst hi
    exact retires_of h (body := fun c s => xaddRun w (s.envOf c (.xadd w)) c s) rfl (congrArg Res.retire (State.modRegs_const hr _))
  | false =>
    subst hi
    refine retires_of h (body := fun c s => xsetRun w (s.envOf c (.xset w)) c s) rfl (congrArg Res.retire ?_)
    rw [State.modRegs_const hr]
    simp [Regs.index]

/-! ### The operand buffer and the registers that `rgn` selects (07_registers R173, R174) -/

theorem evictBuf_subset (x : Warp) (keep : List Nat) (n : Nat) (buf : List Nat) : evictBuf x keep n buf ⊆ buf := by
  induction n generalizing buf with
  | zero => exact List.Subset.refl _
  | succ n ih =>
    unfold evictBuf
    split
    · exact List.Subset.refl _
    · dsimp only
      split
      · exact List.Subset.refl _
      · exact List.Subset.trans (ih _) List.erase_subset

/-- Of a warp only the operand buffer has changed: what is new in it is of `sel`, and it fits its slot's 96 chunks if it did so
before. -/
structure Warp.Buffers (sel : List Nat) (x y : Warp) : Prop where
  rest : { y with buf := x.buf } = x
  new : ∀ n ∈ y.buf, n ∈ x.buf ∨ n ∈ sel
  fits : (x.buf.map x.chunks).sum ≤ 96 → (y.buf.map x.chunks).sum ≤ 96

theorem Warp.Buffers.refl (sel : List Nat) (x : Warp) : x.Buffers sel x := ⟨rfl, fun _ => .inl, id⟩

/-- A buffer that fits and is then filled further. -/
theorem Warp.Buffers.of_fitting {sel buf : List Nat} {x y : Warp} (hn : ∀ n ∈ buf, n ∈ x.buf ∨ n ∈ sel)
    (hf : (buf.map x.chunks).sum ≤ 96) (h : { x with buf := buf }.Buffers sel y) : x.Buffers sel y where
  rest := congrArg (fun z : Warp => { z with buf := x.buf }) h.rest
  new n hy := (h.new n hy).elim (hn n) .inr
  fits _ := h.fits hf

theorem Warp.buffers_fillBuf {sel l : List Nat} (hl : l ⊆ sel) (x : Warp) : x.Buffers sel (x.fillBuf sel l) := by
  induction l generalizing x with
  | nil => exact .refl ..
  | cons n l ih =>
    obtain ⟨hn, hl⟩ := List.cons_subset.1 hl
    unfold Warp.fillBuf
    split
    · exact ih hl x
    · dsimp only
      split
      next hf =>
        refine .of_fitting (fun m hm => ?_) hf (ih hl _)
        refine (List.mem_append.1 (evictBuf_subset _ _ _ _ hm)).imp_right fun e => ?_
        rwa [List.mem_singleton.1 e]
      next => exact .refl ..

theorem mem_rgnSel {g : RgnW} {n : Nat} : n ∈ rgnSel g ↔ g.base.toNat ≤ n ∧ g.mask.getLsbD (n - g.base.toNat) = true := by
  simp only [rgnSel, List.mem_map, mem_lanesOf]
  constructor
  · rintro ⟨l, hl, rfl⟩
    exact ⟨Nat.le_add_right .., by rwa [Nat.add_sub_cancel_left]⟩
  · rintro ⟨hn, hl⟩
    exact ⟨_, hl, Nat.add_sub_cancel' hn⟩

theorem rgnSel_isEmpty (g : RgnW) : (rgnSel g).isEmpty = decide (g.mask = 0) := by
  have hm : g.mask = 0 ↔ ∀ l, l ∉ lanesOf g.mask := by
    simp only [mem_lanesOf, Bool.not_eq_true]
    exact ⟨fun h l => by rw [h]; exact BitVec.getLsbD_zero,
      fun h => BitVec.eq_of_getLsbD_eq fun l _ => (h l).trans BitVec.getLsbD_zero.symm⟩
  rw [rgnSel, List.isEmpty_map, Bool.eq_iff_iff, List.isEmpty_iff, decide_eq_true_iff, hm, List.eq_nil_iff_forall_not_mem]

/-- A warp after `rgn`: a mask that selects nothing changes nothing (07_registers R174). -/
def Warp.region (x : Warp) (g : RgnW) : Warp :=
  if g.mask = 0 then x else { x with rsel := rgnSel g }.fillBuf (rgnSel g) (rgnSel g)

theorem WarpIssues.rgn_retires {g : RgnW} {s : State} {c : Ctx} {t k : Nat} {x : Warp} (h : WarpIssues s c (.rgn g) t k x) :
    Retires (.rgn g) s c (s.modWarp t k fun _ => x.region g) := by
  obtain ⟨hi, hu, hx⟩ := h
  refine retires_of hi (body := rgnRun g) rfl ?_
  simp only [rgnRun, hu, rgnSel_isEmpty, decide_eq_true_eq]
  exact congrArg Res.retire (State.modWarp_const hx _)

theorem Warp.region_of_zero {g : RgnW} (h : g.mask = 0) (x : Warp) : x.region g = x := if_pos h

theorem Warp.buffers_region {g : RgnW} (h : g.mask ≠ 0) (x : Warp) : { x with rsel := rgnSel g }.Buffers (rgnSel g) (x.region g) := by
  rw [Warp.region, if_neg h]
  exact buffers_fillBuf (List.Subset.refl _) _

/-! ### Runs of bricks, and the requests for them (07_registers R169, R177, R179) -/

theorem State.findRun_eq_some {s : State} {core n a : Nat} (h : s.findRun core n = some a) :
    a + n ≤ 512 ∧ ∀ r ∈ s.bricksOf core, meets a n r.1 r.2 = false := by
  simpa [runFree] using List.find?_some h

/-- The state in which a fragment's request for `n` bricks stands among its core's. -/
def State.asked (s : State) (core t k fid n : Nat) : State :=
  if (s.core core).scopeQ.any fun q => q.1 == t && q.2.1 == k && q.2.2.1 == fid then s
  else s.modCore core fun y => { y with scopeQ := y.scopeQ ++ [(t, k, fid, n)] }

theorem State.teams_asked (s : State) (core t k fid n : Nat) : (s.asked core t k fid n).teams = s.teams := by
  unfold State.asked
  split
  · rfl
  · rfl

theorem State.bricksOf_congr {s s' : State} (h : s'.teams = s.teams) (core : Nat) : s'.bricksOf core = s.bricksOf core := by
  rw [State.bricksOf, h, State.bricksOf]

/-- A warp with one scope more, its registers vacant, in the run of `n` bricks from `a` on. -/
def Warp.openScope (x : Warp) (a n : Nat) : Warp :=
  { x.free ((List.range (8 * n)).map (x.allot + ·)) with
    scopes := (x.allot, 8 * n) :: x.scopes, bricks := x.bricks ++ [(a, n)] }

/-- A warp without its latest scope, of `n` registers from `b` on; `r` are the others. -/
def Warp.closeScope (x : Warp) (b n : Nat) (r : List (Nat × Nat)) : Warp :=
  let l := (List.range n).map (b + ·)
  { x.free l with scopes := r, bricks := x.bricks.dropLast, buf := x.buf.filter fun m => !l.contains m,
                  rsel := x.rsel.filter fun m => !l.contains m }

theorem mem_run {b n m : Nat} : m ∈ (List.range n).map (b + ·) ↔ b ≤ m ∧ m < b + n := by
  simp only [List.mem_map, List.mem_range]
  constructor
  · rintro ⟨j, hj, rfl⟩
    omega
  · rintro ⟨h1, h2⟩
    exact ⟨m - b, by omega, by omega⟩

theorem Warp.vr_openScope (x : Warp) (a n r : Nat) :
    (x.openScope a n).vr r = if x.allot ≤ r ∧ r < x.allot + 8 * n then [] else x.vr r := by
  have e : (x.openScope a n).vr r = (x.free ((List.range (8 * n)).map (x.allot + ·))).vr r := rfl
  rw [e, Warp.vr_free]
  simp only [mem_run]

theorem Warp.openScope_rest (x : Warp) (a n : Nat) : { x.openScope a n with v := x.v, scopes := x.scopes, bricks := x.bricks } = x := by
  have e := congrArg (fun y : Warp => { y with scopes := x.scopes, bricks := x.bricks })
    (Warp.free_rest x ((List.range (8 * n)).map (x.allot + ·)))
  exact e

theorem Warp.vr_closeScope (x : Warp) (b n : Nat) (r : List (Nat × Nat)) (m : Nat) :
    (x.closeScope b n r).vr m = if b ≤ m ∧ m < b + n then [] else x.vr m := by
  have e : (x.closeScope b n r).vr m = (x.free ((List.range n).map (b + ·))).vr m := rfl
  rw [e, Warp.vr_free]
  simp only [mem_run]

theorem Warp.closeScope_rest (x : Warp) (b n : Nat) (r : List (Nat × Nat)) :
    { x.closeScope b n r with v := x.v, scopes := x.scopes, bricks := x.bricks, buf := x.buf, rsel := x.rsel } = x := by
  have e := congrArg (fun y : Warp => { y with scopes := x.scopes, bricks := x.bricks, buf := x.buf, rsel := x.rsel })
    (Warp.free_rest x ((List.range n).map (b + ·)))
  exact e

/-! ### The scope forms -/

section
variable {n8 : BitVec 6} {s : State} {c : Ctx} {t k : Nat} {x : Warp} (h : WarpIssues s c (.scopeOpen n8) t k x)
include h

theorem WarpIssues.scopeOpen_traps (hb : x.scopes.length = 7 ∨ 256 < x.allot + 8 * n8.toNat) :
    exec (.scopeOpen n8) s = .next ((s.dequeue c.cur.unit c.fid).trapNow c (.scopeOpen n8) (plainTrap cSCOPE)) := by
  obtain ⟨hi, hu, hx⟩ := h
  have he : exec (.scopeOpen n8) s = issue s (.scopeOpen n8) (scopeOpenRun n8) := rfl
  rw [he, issue_next hi]
  simp only [scopeOpenRun, hu, hx, hb, if_true, finish]

variable (hb : ¬(x.scopes.length = 7 ∨ 256 < x.allot + 8 * n8.toNat))
include hb

theorem WarpIssues.scopeOpen_waits (hw : (s.asked x.core t k c.fid n8.toNat).scopeGo x.core t k c.fid = false ∨
    (s.asked x.core t k c.fid n8.toNat).findRun x.core n8.toNat = none) :
    Waits (.scopeOpen n8) s c .scopeOpen (s.asked x.core t k c.fid n8.toNat) := by
  obtain ⟨hi, hu, hx⟩ := h
  refine waits_of hi (body := scopeOpenRun n8) rfl ?_
  cases hg : (s.asked x.core t k c.fid n8.toNat).scopeGo x.core t k c.fid with
  | false =>
    unfold State.asked at hg ⊢
    simp only [scopeOpenRun, hu, hx, hb, if_false, hg]
  | true =>
    have hf := hw.resolve_left (by rw [hg]; exact Bool.noConfusion)
    unfold State.asked at hg hf ⊢
    simp only [scopeOpenRun, hu, hx, hb, if_false, hg, hf]

theorem WarpIssues.scopeOpen_retires {a : Nat} (hg : (s.asked x.core t k c.fid n8.toNat).scopeGo x.core t k c.fid = true)
    (hf : (s.asked x.core t k c.fid n8.toNat).findRun x.core n8.toNat = some a) :
    Retires (.scopeOpen n8) s c (((s.asked x.core t k c.fid n8.toNat).modCore x.core fun y => { y with scopeQ := y.scopeQ.drop 1 }).modWarp
      t k fun _ => x.openScope a n8.toNat) := by
  obtain ⟨hi, hu, hx⟩ := h
  refine retires_of hi (body := scopeOpenRun n8) rfl ?_
  have hx' : ((s.asked x.core t k c.fid n8.toNat).modCore x.core fun y => { y with scopeQ := y.scopeQ.drop 1 }).warp? t k = some x :=
    (State.warp?_congr (State.teams_asked ..) t k).trans hx
  unfold State.asked at hg hf hx' ⊢
  simp only [scopeOpenRun, hu, hx, hb, if_false, hg, hf]
  exact congrArg Res.retire (State.modWarp_const hx' _)

end

/-- The latest scope may close when no counted operation but a scalar load writes a register of it (07_registers R178). -/
theorem Warp.scopeFree_iff {x : Warp} {b n : Nat} {r : List (Nat × Nat)} (hs : x.scopes = (b, n) :: r) : x.scopeFree = true ↔
    ∀ o ∈ x.regs.ops, (∀ w, o.instr ≠ .sLd w) → meets o.dst (countedRegs o.instr) b n = false := by
  unfold Warp.scopeFree
  rw [hs]
  dsimp only
  rw [List.all_eq_true]
  refine forall₂_congr fun o _ => ?_
  split
  next w e => exact ⟨fun _ h => absurd e (h w), fun _ => rfl⟩
  next e => exact ⟨fun h _ => by simpa using h, fun h => by simpa using h e⟩

section
variable {s : State} {c : Ctx} {t k : Nat} {x : Warp} (h : WarpIssues s c .scopeClose t k x)
include h

theorem WarpIssues.scopeClose_traps (hs : x.scopes = []) : Traps .scopeClose s c (plainTrap cSCOPE) := by
  obtain ⟨hi, hu, hx⟩ := h
  exact traps_of hi (body := scopeCloseRun) rfl (by simp only [scopeCloseRun, hu, hx, hs])

variable {b n : Nat} {r : List (Nat × Nat)} (hs : x.scopes = (b, n) :: r)
include hs

theorem WarpIssues.scopeClose_waits (hf : x.scopeFree = false) : Waits .scopeClose s c .scopeClose s := by
  obtain ⟨hi, hu, hx⟩ := h
  exact waits_of hi (body := scopeCloseRun) rfl (by simp only [scopeCloseRun, hu, hx, hs, hf, Bool.not_false, if_true])

theorem WarpIssues.scopeClose_retires (hf : x.scopeFree = true) :
    Retires .scopeClose s c (s.modWarp t k fun _ => x.closeScope b n r) := by
  obtain ⟨hi, hu, hx⟩ := h
  refine retires_of hi (body := scopeCloseRun) rfl ?_
  simp only [scopeCloseRun, hu, hx, hs, hf, Bool.not_true, Bool.false_eq_true, if_false]
  exact congrArg Res.retire (State.modWarp_const hx _)

end

/-- Settles O20: an index register is written, `rgn` selects and fills, and a scope opens in a free run of bricks in its turn, or
closes once no counted operation writes it. -/
theorem indexAndScopes : Obligations.IndexAndScopes := by
  unfold Obligations.IndexAndScopes
  refine ⟨fun w g s c => ⟨fun i add r hi h hr => ?index, fun t k x h => ?region⟩, fun n8 s c t k x => ⟨fun h => ?opens,
    fun h => ⟨h.scopeClose_traps, fun b n r hs => ⟨fun ho => ?open_wait, fun ho => ?closes⟩⟩⟩⟩
  case index =>
    refine ⟨_, h.index_retires hi hr, Regs.setX_rest .., fun n => ?_⟩
    rw [Regs.index, Regs.xv_setX]
    by_cases hn : n = w.d.toNat
    · rw [if_pos hn.symm, if_pos hn, hn]; rfl
    · rw [if_neg (Ne.symm hn), if_neg hn]
  case region =>
    refine ⟨_, h.rgn_retires, ?_⟩
    by_cases hm : g.mask = 0
    · rw [Warp.region_of_zero hm]
      exact ⟨rfl, fun n => by rw [if_pos hm], fun n => .inl, id⟩
    · have hb := x.buffers_region hm
      have hsel : (x.region g).rsel = rgnSel g := by have e := congrArg Warp.rsel hb.rest; exact e
      have hrest := congrArg (fun y : Warp => { y with rsel := x.rsel }) hb.rest
      exact ⟨hrest, fun n => by rw [if_neg hm, hsel, mem_rgnSel], fun n hn => (hb.new n hn).imp_right mem_rgnSel.1, hb.fits⟩
  case opens =>
    refine ⟨h.scopeOpen_traps, h.scopeOpen_waits, fun a hb hg hf => ?_⟩
    obtain ⟨hle, hfree⟩ := State.findRun_eq_some hf
    refine ⟨_, h.scopeOpen_retires hb hg hf, Warp.openScope_rest .., rfl, rfl, hle, fun r hr => ?_, fun _ => Warp.vr_openScope ..⟩
    have hr' := hfree r ((State.bricksOf_congr (State.teams_asked s x.core t k c.fid n8.toNat) x.core).symm ▸ hr)
    simp only [meets, Bool.and_eq_false_iff, decide_eq_false_iff_not] at hr'
    omega
  case open_wait =>
    obtain ⟨o, hm, hi, hw⟩ := ho
    refine h.scopeClose_waits hs (Bool.eq_false_iff.2 fun hf => ?_)
    simp [(Warp.scopeFree_iff hs).1 hf o hm hi] at hw
  case closes =>
    exact ⟨_, h.scopeClose_retires hs ((Warp.scopeFree_iff hs).2 ho), Warp.closeScope_rest .., rfl, rfl, fun _ => Warp.vr_closeScope ..⟩

end Sys2Proof.Machine
end
